-- ==== Sys2Proof/Word.lean ====
section
/-! DEFINITION. The word types of the part (R8, R83, R217): bytes, 64-bit words, and the width of an address. -/

namespace Sys2Proof

/-- One byte of memory. -/
abbrev Byte := BitVec 8

/-- A 64-bit word: an S or D register, an instruction word, a program counter, a control register. -/
abbrev Word := BitVec 64

/-- A 32-bit word: one vector register of one thread (R88). -/
abbrev VWord := BitVec 32

end Sys2Proof
end

