-- ==== Sys2Proof/Types.lean ====
section
/-! DEFINITION. The names the instructions and the machine share: element types (R87), instruction fields (R84), the
parties that act (R3, R4), and the kinds of outside report that an event can carry. -/

namespace Sys2Proof

/-- The sixteen element types of R87, in the order of their codes. -/
inductive Ty where
  | b32 | s32 | b64 | s64 | f32 | f16 | bf16 | e4m3 | e5m2 | e2m1 | e3m5 | b8 | s8 | b16 | s16 | mask
deriving DecidableEq, Repr

/-- The fields of an instruction word beyond OPC and FN (R84), and its extension word when X = 1. -/
structure Fields where
  /-- timing class requested, [51:50] -/
  tc : BitVec 2
  /-- lookahead window, [49:46] -/
  la : BitVec 4
  /-- uniform form, [45] -/
  u : Bool
  /-- element type, [44:41] -/
  ty : Ty
  /-- [39:32] -/
  d : BitVec 8
  /-- [31:24] -/
  a : BitVec 8
  /-- [23:16] -/
  b : BitVec 8
  /-- [15:8] -/
  c : BitVec 8
  /-- [7:0] -/
  m : BitVec 8
  /-- the extension word, present exactly when X, bit [40], is set -/
  x : Option Word
deriving DecidableEq, Repr

/-- Who acts: a system core, the distaff of the skein in a slot of a spindle, or one path of one of its plies (R4). -/
inductive Party where
  | core (c : Nat)
  | dist (sp slot : Nat)
  | path (sp slot ply idx : Nat)
deriving DecidableEq, Repr, Inhabited

/-- What a spindle's timing monitors report (R380). -/
inductive Monitor where
  | lowMargin | enoughMargin | ampleMargin
deriving DecidableEq, Repr

/-- What the memory's error code found under a copy (R248). -/
inductive MemErr where
  | none | corrected | uncorrected
deriving DecidableEq, Repr

/-- What waits for a wake or for room in the fault ring (R226, R231, R246); for a copy, what the error code finds as it goes on. -/
inductive RetryTarget where
  | ply (sp slot ply : Nat)
  | dist (sp slot : Nat)
  | copySpindle (sp q : Nat) (err : MemErr)
  | copyCore (c q : Nat) (err : MemErr)
deriving DecidableEq, Repr

/-- Whose copy engine: a spindle's, or a system core's queues on its base die (R239). -/
inductive Engine where
  | spindle (sp : Nat)
  | core (c : Nat)
deriving DecidableEq, Repr

/-- What the tile file's error code, or the parity of an operand path, found (R275). -/
inductive TileFault where
  | corrected | uncorrected | parity
deriving DecidableEq, Repr

/-- Which of its tiles a matrix command reads: D, A or B. -/
inductive TilePart where
  | d | a | b
deriving DecidableEq, Repr

/-- An error under a matrix step, in a 64-bit word of a tile (R275). -/
structure TileErr where
  kind : TileFault
  part : TilePart
  word : Nat
deriving DecidableEq, Repr

/-- A read-modify-write operation of ATOM and MRED (R204), in the order of FN. -/
inductive Rmw where
  | add | min | max | and | or | xor | xchg | cas | inc
deriving DecidableEq, Repr

/-- What one remote access does at the package that owns its address (R317). -/
inductive RemoteOp where
  | load
  | store (data : Word)
  | rmw (op : Rmw) (ty : Ty) (c x : Word) (ftz : Bool)
deriving DecidableEq, Repr

/-- An arrival over the links: one of this package's own requests at its owner, or another package's access to an
offset of this package's local memory (R317). -/
inductive Arrival where
  | own (id : Nat)
  | foreign (pkg off n : Nat) (op : RemoteOp)
deriving DecidableEq, Repr

end Sys2Proof
end

