-- ==== Sys2Proof/Syntax.lean ====
section
/-! DEFINITION. The instructions and events of the part: one constructor per row of spec/opcode_table.json. An instruction carries
the fields of its word (R84); an event carries which unit it happens at and what the outside reports. -/

namespace Sys2Proof

/-- One step of the part: an instruction executed by a party, or an event of the part. -/
inductive Instr where
  -- Control and system (R182 to R215)
  | nop (f : Fields)
  | yield (f : Fields)
  | halt (f : Fields)
  | icsync (f : Fields)
  | bkpt (f : Fields)
  | br (f : Fields)
  | brz (f : Fields)
  | brnz (f : Fields)
  | jmpi (f : Fields)
  | call (f : Fields)
  | ret (f : Fields)
  | join (f : Fields)
  | exit (f : Fields)
  | plyw (f : Fields)
  | msave (f : Fields)
  | mset (f : Fields)
  | mand (f : Fields)
  | mor (f : Fields)
  | mxor (f : Fields)
  | mnot (f : Fields)
  | trap (f : Fields)
  | syscall (f : Fields)
  | eret (f : Fields)
  | csrr (f : Fields)
  | csrw (f : Fields)
  | launch (f : Fields)
  -- Integer and logic (R150 to R162)
  | iadd (f : Fields)
  | isub (f : Fields)
  | imul (f : Fields)
  | imulh (f : Fields)
  | imad (f : Fields)
  | imin (f : Fields)
  | imax (f : Fields)
  | iabs (f : Fields)
  | and (f : Fields)
  | or (f : Fields)
  | xor (f : Fields)
  | not (f : Fields)
  | shl (f : Fields)
  | shr (f : Fields)
  | sar (f : Fields)
  | rol (f : Fields)
  | ror (f : Fields)
  | popc (f : Fields)
  | clz (f : Fields)
  | brev (f : Fields)
  | bfe (f : Fields)
  | bfi (f : Fields)
  | sel (f : Fields)
  | icmpEq (f : Fields)
  | icmpNe (f : Fields)
  | icmpLt (f : Fields)
  | icmpLe (f : Fields)
  | icmpGt (f : Fields)
  | icmpGe (f : Fields)
  | mov (f : Fields)
  | movi (f : Fields)
  -- Floating point (R163 to R169)
  | fadd (f : Fields)
  | fsub (f : Fields)
  | fmul (f : Fields)
  | ffma (f : Fields)
  | fmin (f : Fields)
  | fmax (f : Fields)
  | fcmpEq (f : Fields)
  | fcmpNe (f : Fields)
  | fcmpLt (f : Fields)
  | fcmpLe (f : Fields)
  | fcmpGt (f : Fields)
  | fcmpGe (f : Fields)
  | fcmpUo (f : Fields)
  | fcmpOrd (f : Fields)
  | fsel (f : Fields)
  | frcp (f : Fields)
  | frsq (f : Fields)
  | fsqrt (f : Fields)
  | fexp2 (f : Fields)
  | flog2 (f : Fields)
  | fsin (f : Fields)
  | fcos (f : Fields)
  | frnd (f : Fields)
  -- Conversion and packing (R170 to R172)
  | cvt (f : Fields)
  | packPair (f : Fields)
  | packQuad (f : Fields)
  | packOct (f : Fields)
  | unpkPair (f : Fields)
  | unpkQuad (f : Fields)
  | unpkOct (f : Fields)
  -- Lanes (R173 to R180)
  | shflIdx (f : Fields)
  | shflUp (f : Fields)
  | shflDown (f : Fields)
  | shflXor (f : Fields)
  | voteAll (f : Fields)
  | voteAny (f : Fields)
  | voteBallot (f : Fields)
  | voteEq (f : Fields)
  | redAdd (f : Fields)
  | redMin (f : Fields)
  | redMax (f : Fields)
  | redAnd (f : Fields)
  | redOr (f : Fields)
  | redXor (f : Fields)
  | scanAdd (f : Fields)
  | scanMin (f : Fields)
  | scanMax (f : Fields)
  | scanAnd (f : Fields)
  | scanOr (f : Fields)
  | scanXor (f : Fields)
  | bcast (f : Fields)
  | rds (f : Fields)
  -- Memory (R191 to R206)
  | ld (f : Fields)
  | st (f : Fields)
  | ldu (f : Fields)
  | pref (f : Fields)
  | atomAdd (f : Fields)
  | atomMin (f : Fields)
  | atomMax (f : Fields)
  | atomAnd (f : Fields)
  | atomOr (f : Fields)
  | atomXor (f : Fields)
  | atomXchg (f : Fields)
  | atomCas (f : Fields)
  | atomInc (f : Fields)
  | mredAdd (f : Fields)
  | mredMin (f : Fields)
  | mredMax (f : Fields)
  | mredAnd (f : Fields)
  | mredOr (f : Fields)
  | mredXor (f : Fields)
  | mredInc (f : Fields)
  -- Synchronisation (R319 to R334)
  | bara (f : Fields)
  | barw (f : Fields)
  | barx (f : Fields)
  | tbar (f : Fields)
  | fenceQ (f : Fields)
  | fenceSys (f : Fields)
  | tokenGet (f : Fields)
  | tokenPut (f : Fields)
  | dqpush (f : Fields)
  | dqpop (f : Fields)
  | evpop (f : Fields)
  | vfpush (f : Fields)
  | vfpop (f : Fields)
  | vfcnt (f : Fields)
  -- Copies (R239 to R257)
  | cpy (f : Fields)
  | cpyMig (f : Fields)
  | cpyc (f : Fields)
  | cpyg (f : Fields)
  | cpys (f : Fields)
  | cpyk (f : Fields)
  | stage (f : Fields)
  | qfence (f : Fields)
  -- Matrix engine (R259 to R280)
  | tcfg (f : Fields)
  | tld (f : Fields)
  | tst (f : Fields)
  | tzero (f : Fields)
  | mma (f : Fields)
  | mmas (f : Fields)
  | mmax (f : Fields)
  | tcvt (f : Fields)
  | srfence (f : Fields)
  -- Crossbar (R282 to R310)
  | xg (f : Fields)
  | xgP (f : Fields)
  | xinit (f : Fields)
  | xrd (f : Fields)
  | xrdQ (f : Fields)
  | xwr (f : Fields)
  | xfill (f : Fields)
  | xwin (f : Fields)
  | xration (f : Fields)
  | xrun (f : Fields)
  | xstat (f : Fields)
  | xmap (f : Fields)
  | xmapWr (f : Fields)
  -- Events: steps that no party issues
  | launchOfferAccepted
  | dependenceObserved (acc k : Nat)
  | dealSkeins (acc : Nat)
  | dispatchDecision (frame : Nat)
  | deterministicPlace (acc : Nat)
  | baseSpindlePlace (acc : Nat)
  | stealRequest (sp victim : Nat)
  | stealAnswer (sp : Nat)
  | skeinRetire (sp slot : Nat)
  | launchOutcomeWrite (acc : Nat)
  | longLatencyLanding (p : Party)
  | joinMerge (sp slot ply : Nat)
  | queueCreditRetry (p : Party)
  | driftStep (sp : Nat) (m : Monitor)
  | intervalBoundary (die : Nat) (est : List Nat) (power : Nat)
  | heldAccessRetry (t : RetryTarget)
  | sideLogReplay (p : Party)
  | mmuShootdown (p : Party) (v : BitVec 64)
  | mmuWake (p : Party) (v : BitVec 64)
  | mmuFqWrite (p : Party) (v : BitVec 64)
  | fqptrTailWrite (p : Party) (v : BitVec 64)
  | hotcfgWrite (p : Party) (v : BitVec 64)
  | hotThreshold (die block slot : Nat)
  | hotDecay
  | memCfgWrite (p : Party) (v : BitVec 64)
  | mcFrbaseWrite (p : Party) (v : BitVec 64)
  | rcbsyncWrite (p : Party) (v : BitVec 64)
  | remoteAccessArrival (a : Arrival)
  | remoteReplyArrival (id : Nat)
  | remoteReplyTimeout (sp slot : Nat)
  | gddrRetrain (dev : Nat) (lowMargin : Bool)
  | retrainEnd
  | copyCmdStart (e : Engine) (q : Nat) (err : MemErr)
  | copyCmdComplete (e : Engine) (q : Nat)
  | matrixCmdStart (sp : Nat)
  | matrixStep (sp : Nat) (errs : List TileErr)
  | matrixCmdComplete (sp : Nat)
  | xqCmdStart (sp : Nat) (xre : Bool)
  | xbarWritePhase (sp : Nat) (xre : Bool)
  | xqCmdComplete (sp : Nat)
  | xrdAdmit (sp : Nat) (xre : Bool)
  | xwrPerform (sp : Nat)
  | barrierWaitEnd (p : Party)
  | tbarRelease (tag : Nat)
  | dqpopDeliver (p : Party)
  | evpopDeliver (p : Party)
  | vfifoWaitEnd (p : Party)
  | tokenArrive (acc : Nat)
  | takeTrap (p : Party)
  | trapPlyEnd (p : Party) (v : BitVec 64)
  | trapPlyStop (p : Party) (v : BitVec 64)
  | trapPlyRun (p : Party) (v : BitVec 64)
  | trapRdatWrite (p : Party) (v : BitVec 64)
  | preemptHold (p : Party) (v : BitVec 64)
  | preemptRelease (p : Party) (v : BitVec 64)
  | skeinHalted (sp slot : Nat)
  | contextSaved (sp slot : Nat)
  | skeinResume (sp k : Nat)
  | dbgRelease (p : Party) (v : BitVec 64)
  | acctStringWrite (p : Party) (v : BitVec 64)
  | sampleTick
  | replayDeliver (core : Nat)
  | syncBsqWrite (p : Party) (v : BitVec 64)
  | frameEnterA1 (frame : Nat)
  | frameEnterA2 (frame : Nat)
  | dieEnterA3 (die : Nat)
  | packageA4Request (p : Party) (v : BitVec 64)
  | a4Exit
  | unitWake (frame : Nat)
  | wakeComplete (frame : Nat)
  | pwrForceGate (p : Party) (v : BitVec 64)
  | pwrForceClear (p : Party) (v : BitVec 64)
  | gateIngressClose (frame : Nat)
  | computeDieResetRelease (die : Nat)
  | packageReset
  | bootImageFetched (payload sig : List (BitVec 8))
  | bootRetry
  | secExtend (p : Party) (v : BitVec 64)
  | secAttest (p : Party) (v : BitVec 64)
  | ethReceive (port : Nat) (frame : List (BitVec 8))
  | ethTransmit (port : Nat)
  | hostAccess (off n : Nat) (w : Option (BitVec 64))
  | linkStateChange (link : Nat) (up : Bool) (lanes peer : Nat)
  | linkCrcRetry (link : Nat)
  | linkStatWrite (p : Party) (v : BitVec 64)
  | privateLineEviction (sp slot ply line : Nat)
  | gddrTrainingDone (dev : Nat)
  | ethernetPortStateChange (port : Nat) (up : Bool)
  | hostPortTrained
deriving DecidableEq, Repr

end Sys2Proof
end

