-- ==== Sys2Proof/Decode.lean ====
section
/-! DEFINITION. From words to instructions and back (R83 to R101). Decoding is total: a word is an instruction, or it fails
check 2 (major opcode), check 3 (function) or check 5 (word fields) of R100. The checks that need the executing party (section,
registers, unit, privilege) are made when the instruction executes. -/

namespace Sys2Proof

/-! ## Element types (R87) -/

/-- The code of an element type. -/
def Ty.code : Ty → Nat
  | .b32 => 0 | .s32 => 1 | .b64 => 2 | .s64 => 3 | .f32 => 4 | .f16 => 5 | .bf16 => 6 | .e4m3 => 7
  | .e5m2 => 8 | .e2m1 => 9 | .e3m5 => 10 | .b8 => 11 | .s8 => 12 | .b16 => 13 | .s16 => 14 | .mask => 15

/-- The element type of a four-bit code; every code is assigned. -/
def Ty.ofCode : Nat → Ty
  | 0 => .b32 | 1 => .s32 | 2 => .b64 | 3 => .s64 | 4 => .f32 | 5 => .f16 | 6 => .bf16 | 7 => .e4m3
  | 8 => .e5m2 | 9 => .e2m1 | 10 => .e3m5 | 11 => .b8 | 12 => .s8 | 13 => .b16 | 14 => .s16 | _ => .mask

/-- Width of a value of the type in bits; a mask is held in 64-bit registers. -/
def Ty.bits : Ty → Nat
  | .b32 | .s32 | .f32 => 32
  | .b64 | .s64 | .mask => 64
  | .f16 | .bf16 | .b16 | .s16 => 16
  | .e4m3 | .e5m2 | .e3m5 | .b8 | .s8 => 8
  | .e2m1 => 4

/-- The integer types that are signed (R128). -/
def Ty.signed : Ty → Bool
  | .s32 | .s64 | .s8 | .s16 => true
  | _ => false

/-- The floating-point types (R129). -/
def Ty.isFloat : Ty → Bool
  | .f32 | .f16 | .bf16 | .e4m3 | .e5m2 | .e2m1 | .e3m5 => true
  | _ => false

/-- b32, s32, b64, s64. -/
def Ty.ints : List Ty := [.b32, .s32, .b64, .s64]
/-- b32, b64. -/
def Ty.raws : List Ty := [.b32, .b64]
/-- s32, s64. -/
def Ty.signeds : List Ty := [.s32, .s64]
/-- f32, f16, bf16. -/
def Ty.floats : List Ty := [.f32, .f16, .bf16]
/-- The types of RED, SCAN and ATOM arithmetic (R177, R204). -/
def Ty.reds : List Ty := [.b32, .s32, .b64, .s64, .f32]
/-- The types a memory access admits (R194). -/
def Ty.mems : List Ty := [.b32, .s32, .b64, .s64, .f32, .f16, .bf16, .e4m3, .e5m2, .e3m5, .b8, .s8, .b16, .s16]
/-- Every type but mask (R170). -/
def Ty.convs : List Ty := [.b32, .s32, .b64, .s64, .f32, .f16, .bf16, .e4m3, .e5m2, .e2m1, .e3m5, .b8, .s8, .b16, .s16]

/-! ## The opcode map (R99) -/

/-- How many registers a vector field names (R20, R88). -/
inductive Span where
  /-- one register -/
  | one
  /-- a pair for a 64-bit TY, else one -/
  | byTy
  /-- a pair for a 64-bit source type, which M[7:4] names (R170) -/
  | bySrcTy
  /-- an even-odd pair -/
  | pair
  /-- n registers from a multiple of n (R171) -/
  | run (n : Nat)
deriving DecidableEq, Repr

/-- What a register field of the word is for an opcode (R88). -/
inductive FieldClass where
  /-- not used: must be zero -/
  | zero
  /-- part of an immediate -/
  | imm
  | vecSrc (s : Span)
  | vecDst (s : Span)
  | scalSrc
  | scalDst
  /-- a mask operand: a pair of S registers in a 128-wide ply (R158) -/
  | maskSrc
  | maskDst
  /-- n scalar registers from a multiple of n, no constants (R171, the uniform form) -/
  | scalRun (n : Nat)
  | tile
deriving DecidableEq, Repr

/-- R85: whether an extension word may follow. -/
inductive XClass where
  | never | optional | always
deriving DecidableEq, Repr

/-- R98: where an opcode may run. -/
inductive Runs where
  | both | ply | dist
deriving DecidableEq, Repr

/-- Which unit an opcode needs (R7, R98). -/
inductive NeedsUnit where
  | always | matrix | sparse | crossbar | tree | vfifo
deriving DecidableEq, Repr

/-- The conditions on word fields that an entry states beyond the common ones (R100, check 5). -/
inductive FieldRule where
  | plain
  /-- R157 -/
  | bitField
  /-- R162 -/
  | movi
  /-- R170 -/
  | cvt
  /-- R171 -/
  | pack
  /-- R180 -/
  | rds
  /-- R183 -/
  | condBranch
  /-- R210 -/
  | csr
  /-- R192; whether NT and whether the private space are admitted -/
  | memory (nt priv : Bool)
  /-- R202 -/
  | prefetch
  /-- R319 -/
  | fenceQ
  /-- R255 -/
  | qfence
  /-- R243: the directions admitted -/
  | copy (dirs : List Nat)
  /-- R252 -/
  | migrate
  /-- R266 -/
  | scaled
  /-- R278 -/
  | tcvt
  /-- R300 -/
  | gate
  /-- R301 -/
  | preset
  /-- R299, with the Q bit -/
  | xread (q : Bool)
  /-- R299, with the WR bit -/
  | xmap (wr : Bool)
deriving DecidableEq, Repr

/-- One row of the opcode map and of the entry's operand layout. -/
structure OpRow where
  opc : Nat
  fn : Nat
  /-- minimum timing class (R91) -/
  min : Nat
  /-- accepts lookahead (R92) -/
  la : Bool
  /-- has a uniform form (R97) -/
  u : Bool
  x : XClass
  runs : Runs
  tys : List Ty
  d : FieldClass
  a : FieldClass
  b : FieldClass
  c : FieldClass
  /-- the M bits the entry names -/
  m : BitVec 8
  /-- the SRC operand (R150): whether it is A, and the SRC codes admitted -/
  src : Option (Bool × List Nat)
  rule : FieldRule
  unit : NeedsUnit
deriving DecidableEq, Repr

/-- The opcode map: the row of each instruction; an event has none. -/
def Instr.row : Instr → Option OpRow
  | .nop _ => some ⟨0x01, 0, 0, false, false, .never, .both, [.b32], .zero, .zero, .zero, .zero, 0x00, none, .plain, .always⟩
  | .yield _ => some ⟨0x01, 1, 0, false, false, .never, .both, [.b32], .zero, .zero, .zero, .zero, 0xFF, none, .plain, .always⟩
  | .halt _ => some ⟨0x01, 2, 0, false, false, .never, .both, [.b32], .zero, .zero, .zero, .zero, 0x00, none, .plain, .always⟩
  | .icsync _ => some ⟨0x01, 3, 0, false, false, .never, .both, [.b32], .zero, .zero, .zero, .zero, 0x00, none, .plain, .always⟩
  | .bkpt _ => some ⟨0x01, 4, 0, false, false, .never, .both, [.b32], .zero, .zero, .zero, .zero, 0xFF, none, .plain, .always⟩
  | .br _ => some ⟨0x02, 0, 0, false, false, .never, .both, [.b32], .zero, .imm, .imm, .imm, 0xFF, none, .plain, .always⟩
  | .brz _ => some ⟨0x02, 1, 0, false, false, .never, .both, [.b32], .imm, .maskSrc, .imm, .imm, 0xFF, none, .condBranch, .always⟩
  | .brnz _ => some ⟨0x02, 2, 0, false, false, .never, .both, [.b32], .imm, .maskSrc, .imm, .imm, 0xFF, none, .condBranch, .always⟩
  | .jmpi _ => some ⟨0x02, 3, 0, false, false, .never, .both, [.b32], .zero, .scalSrc, .zero, .zero, 0x00, none, .plain, .always⟩
  | .call _ => some ⟨0x02, 4, 0, false, false, .never, .both, [.b32], .scalDst, .imm, .imm, .imm, 0xFF, none, .plain, .always⟩
  | .ret _ => some ⟨0x02, 5, 0, false, false, .never, .both, [.b32], .zero, .scalSrc, .zero, .zero, 0x00, none, .plain, .always⟩
  | .join _ => some ⟨0x03, 0, 0, false, false, .never, .ply, [.b32], .zero, .zero, .zero, .zero, 0x00, none, .plain, .always⟩
  | .exit _ => some ⟨0x03, 1, 0, false, false, .never, .both, [.b32], .zero, .zero, .zero, .zero, 0x00, none, .plain, .always⟩
  | .plyw _ => some ⟨0x03, 2, 0, false, false, .never, .ply, [.b32], .scalDst, .zero, .zero, .zero, 0x00, none, .plain, .always⟩
  | .msave _ => some ⟨0x04, 0, 0, false, false, .never, .ply, [.b32], .maskDst, .zero, .zero, .zero, 0x00, none, .plain, .always⟩
  | .mset _ => some ⟨0x04, 1, 0, false, false, .never, .ply, [.b32], .zero, .maskSrc, .zero, .zero, 0x00, none, .plain, .always⟩
  | .mand _ => some ⟨0x04, 2, 0, false, false, .never, .ply, [.b32], .zero, .maskSrc, .zero, .zero, 0x00, none, .plain, .always⟩
  | .mor _ => some ⟨0x04, 3, 0, false, false, .never, .ply, [.b32], .zero, .maskSrc, .zero, .zero, 0x00, none, .plain, .always⟩
  | .mxor _ => some ⟨0x04, 4, 0, false, false, .never, .ply, [.b32], .zero, .maskSrc, .zero, .zero, 0x00, none, .plain, .always⟩
  | .mnot _ => some ⟨0x04, 5, 0, false, false, .never, .ply, [.b32], .zero, .maskSrc, .zero, .zero, 0x00, none, .plain, .always⟩
  | .trap _ => some ⟨0x05, 0, 0, false, false, .never, .both, [.b32], .zero, .maskSrc, .zero, .zero, 0xFF, none, .plain, .always⟩
  | .syscall _ => some ⟨0x05, 1, 0, false, false, .never, .both, [.b32], .zero, .zero, .zero, .zero, 0xFF, none, .plain, .always⟩
  | .eret _ => some ⟨0x05, 2, 0, false, false, .never, .both, [.b32], .zero, .zero, .zero, .zero, 0x00, none, .plain, .always⟩
  | .csrr _ => some ⟨0x06, 0, 0, false, false, .never, .both, [.b32], .scalDst, .zero, .imm, .imm, 0x00, none, .csr, .always⟩
  | .csrw _ => some ⟨0x06, 1, 0, false, false, .never, .both, [.b32], .zero, .scalSrc, .imm, .imm, 0x00, none, .csr, .always⟩
  | .launch _ => some ⟨0x07, 0, 0, false, true, .never, .both, [.b32], .vecDst .one, .vecSrc .pair, .zero, .zero, 0x01, none, .plain, .always⟩
  | .iadd _ => some ⟨0x10, 0, 0, false, true, .never, .both, Ty.ints, .vecDst .byTy, .vecSrc .byTy, .vecSrc .byTy, .zero, 0xC1, (some (false, [0, 1, 2])), .plain, .always⟩
  | .isub _ => some ⟨0x11, 0, 0, false, true, .never, .both, Ty.ints, .vecDst .byTy, .vecSrc .byTy, .vecSrc .byTy, .zero, 0xC1, (some (false, [0, 1, 2])), .plain, .always⟩
  | .imul _ => some ⟨0x12, 0, 1, false, true, .never, .both, Ty.ints, .vecDst .byTy, .vecSrc .byTy, .vecSrc .byTy, .zero, 0xC0, (some (false, [0, 1, 2])), .plain, .always⟩
  | .imulh _ => some ⟨0x13, 0, 1, false, true, .never, .both, Ty.ints, .vecDst .byTy, .vecSrc .byTy, .vecSrc .byTy, .zero, 0xC0, (some (false, [0, 1, 2])), .plain, .always⟩
  | .imad _ => some ⟨0x14, 0, 1, false, true, .never, .both, Ty.ints, .vecDst .byTy, .vecSrc .byTy, .vecSrc .byTy, .vecSrc .byTy, 0xC0, (some (false, [0, 1, 2])), .plain, .always⟩
  | .imin _ => some ⟨0x15, 0, 0, false, true, .never, .both, Ty.ints, .vecDst .byTy, .vecSrc .byTy, .vecSrc .byTy, .zero, 0xC0, (some (false, [0, 1, 2])), .plain, .always⟩
  | .imax _ => some ⟨0x16, 0, 0, false, true, .never, .both, Ty.ints, .vecDst .byTy, .vecSrc .byTy, .vecSrc .byTy, .zero, 0xC0, (some (false, [0, 1, 2])), .plain, .always⟩
  | .iabs _ => some ⟨0x17, 0, 0, false, true, .never, .both, Ty.signeds, .vecDst .byTy, .vecSrc .byTy, .zero, .zero, 0xC1, (some (true, [0, 1, 2])), .plain, .always⟩
  | .and _ => some ⟨0x18, 0, 0, false, true, .never, .both, Ty.raws, .vecDst .byTy, .vecSrc .byTy, .vecSrc .byTy, .zero, 0xC0, (some (false, [0, 1, 2])), .plain, .always⟩
  | .or _ => some ⟨0x19, 0, 0, false, true, .never, .both, Ty.raws, .vecDst .byTy, .vecSrc .byTy, .vecSrc .byTy, .zero, 0xC0, (some (false, [0, 1, 2])), .plain, .always⟩
  | .xor _ => some ⟨0x1A, 0, 0, false, true, .never, .both, Ty.raws, .vecDst .byTy, .vecSrc .byTy, .vecSrc .byTy, .zero, 0xC0, (some (false, [0, 1, 2])), .plain, .always⟩
  | .not _ => some ⟨0x1B, 0, 0, false, true, .never, .both, Ty.raws, .vecDst .byTy, .vecSrc .byTy, .zero, .zero, 0xC0, (some (true, [0, 1, 2])), .plain, .always⟩
  | .shl _ => some ⟨0x1C, 0, 0, false, true, .never, .both, Ty.raws, .vecDst .byTy, .vecSrc .byTy, .vecSrc .one, .zero, 0xC0, (some (false, [0, 1, 2])), .plain, .always⟩
  | .shr _ => some ⟨0x1D, 0, 0, false, true, .never, .both, Ty.raws, .vecDst .byTy, .vecSrc .byTy, .vecSrc .one, .zero, 0xC0, (some (false, [0, 1, 2])), .plain, .always⟩
  | .sar _ => some ⟨0x1D, 1, 0, false, true, .never, .both, Ty.signeds, .vecDst .byTy, .vecSrc .byTy, .vecSrc .one, .zero, 0xC0, (some (false, [0, 1, 2])), .plain, .always⟩
  | .rol _ => some ⟨0x1E, 0, 0, false, true, .never, .both, Ty.raws, .vecDst .byTy, .vecSrc .byTy, .vecSrc .one, .zero, 0xC0, (some (false, [0, 1, 2])), .plain, .always⟩
  | .ror _ => some ⟨0x1E, 1, 0, false, true, .never, .both, Ty.raws, .vecDst .byTy, .vecSrc .byTy, .vecSrc .one, .zero, 0xC0, (some (false, [0, 1, 2])), .plain, .always⟩
  | .popc _ => some ⟨0x1F, 0, 0, false, true, .never, .both, Ty.raws, .vecDst .byTy, .vecSrc .byTy, .zero, .zero, 0xC0, (some (true, [0, 1, 2])), .plain, .always⟩
  | .clz _ => some ⟨0x20, 0, 0, false, true, .never, .both, Ty.raws, .vecDst .byTy, .vecSrc .byTy, .zero, .zero, 0xC0, (some (true, [0, 1, 2])), .plain, .always⟩
  | .brev _ => some ⟨0x21, 0, 0, false, true, .never, .both, Ty.raws, .vecDst .byTy, .vecSrc .byTy, .zero, .zero, 0xC0, (some (true, [0, 1, 2])), .plain, .always⟩
  | .bfe _ => some ⟨0x22, 0, 0, false, true, .never, .both, Ty.ints, .vecDst .byTy, .vecSrc .byTy, .zero, .imm, 0x7F, none, .bitField, .always⟩
  | .bfi _ => some ⟨0x23, 0, 0, false, true, .never, .both, Ty.raws, .vecDst .byTy, .vecSrc .byTy, .vecSrc .byTy, .imm, 0x7F, none, .bitField, .always⟩
  | .sel _ => some ⟨0x24, 0, 0, false, true, .never, .both, Ty.raws, .vecDst .byTy, .vecSrc .byTy, .vecSrc .byTy, .maskSrc, 0xC0, (some (false, [0, 1, 2])), .plain, .always⟩
  | .icmpEq _ => some ⟨0x25, 0, 0, false, true, .never, .both, Ty.ints, .maskDst, .vecSrc .byTy, .vecSrc .byTy, .zero, 0xC0, (some (false, [0, 1, 2])), .plain, .always⟩
  | .icmpNe _ => some ⟨0x25, 1, 0, false, true, .never, .both, Ty.ints, .maskDst, .vecSrc .byTy, .vecSrc .byTy, .zero, 0xC0, (some (false, [0, 1, 2])), .plain, .always⟩
  | .icmpLt _ => some ⟨0x25, 2, 0, false, true, .never, .both, Ty.ints, .maskDst, .vecSrc .byTy, .vecSrc .byTy, .zero, 0xC0, (some (false, [0, 1, 2])), .plain, .always⟩
  | .icmpLe _ => some ⟨0x25, 3, 0, false, true, .never, .both, Ty.ints, .maskDst, .vecSrc .byTy, .vecSrc .byTy, .zero, 0xC0, (some (false, [0, 1, 2])), .plain, .always⟩
  | .icmpGt _ => some ⟨0x25, 4, 0, false, true, .never, .both, Ty.ints, .maskDst, .vecSrc .byTy, .vecSrc .byTy, .zero, 0xC0, (some (false, [0, 1, 2])), .plain, .always⟩
  | .icmpGe _ => some ⟨0x25, 5, 0, false, true, .never, .both, Ty.ints, .maskDst, .vecSrc .byTy, .vecSrc .byTy, .zero, 0xC0, (some (false, [0, 1, 2])), .plain, .always⟩
  | .mov _ => some ⟨0x26, 0, 0, false, true, .never, .both, Ty.raws, .vecDst .byTy, .vecSrc .byTy, .zero, .zero, 0xC0, (some (true, [0, 1, 2])), .plain, .always⟩
  | .movi _ => some ⟨0x27, 0, 0, false, true, .always, .both, Ty.raws, .vecDst .byTy, .zero, .zero, .zero, 0x00, none, .movi, .always⟩
  | .fadd _ => some ⟨0x30, 0, 1, false, true, .never, .ply, Ty.floats, .vecDst .one, .vecSrc .one, .vecSrc .one, .zero, 0xDF, (some (false, [0, 1])), .plain, .always⟩
  | .fsub _ => some ⟨0x31, 0, 1, false, true, .never, .ply, Ty.floats, .vecDst .one, .vecSrc .one, .vecSrc .one, .zero, 0xDF, (some (false, [0, 1])), .plain, .always⟩
  | .fmul _ => some ⟨0x32, 0, 1, false, true, .never, .ply, Ty.floats, .vecDst .one, .vecSrc .one, .vecSrc .one, .zero, 0xDF, (some (false, [0, 1])), .plain, .always⟩
  | .ffma _ => some ⟨0x33, 0, 1, false, true, .never, .ply, Ty.floats, .vecDst .one, .vecSrc .one, .vecSrc .one, .vecSrc .one, 0xFF, (some (false, [0, 1])), .plain, .always⟩
  | .fmin _ => some ⟨0x34, 0, 0, false, true, .never, .ply, Ty.floats, .vecDst .one, .vecSrc .one, .vecSrc .one, .zero, 0xD8, (some (false, [0, 1])), .plain, .always⟩
  | .fmax _ => some ⟨0x35, 0, 0, false, true, .never, .ply, Ty.floats, .vecDst .one, .vecSrc .one, .vecSrc .one, .zero, 0xD8, (some (false, [0, 1])), .plain, .always⟩
  | .fcmpEq _ => some ⟨0x36, 0, 0, false, true, .never, .ply, Ty.floats, .maskDst, .vecSrc .one, .vecSrc .one, .zero, 0xD8, (some (false, [0, 1])), .plain, .always⟩
  | .fcmpNe _ => some ⟨0x36, 1, 0, false, true, .never, .ply, Ty.floats, .maskDst, .vecSrc .one, .vecSrc .one, .zero, 0xD8, (some (false, [0, 1])), .plain, .always⟩
  | .fcmpLt _ => some ⟨0x36, 2, 0, false, true, .never, .ply, Ty.floats, .maskDst, .vecSrc .one, .vecSrc .one, .zero, 0xD8, (some (false, [0, 1])), .plain, .always⟩
  | .fcmpLe _ => some ⟨0x36, 3, 0, false, true, .never, .ply, Ty.floats, .maskDst, .vecSrc .one, .vecSrc .one, .zero, 0xD8, (some (false, [0, 1])), .plain, .always⟩
  | .fcmpGt _ => some ⟨0x36, 4, 0, false, true, .never, .ply, Ty.floats, .maskDst, .vecSrc .one, .vecSrc .one, .zero, 0xD8, (some (false, [0, 1])), .plain, .always⟩
  | .fcmpGe _ => some ⟨0x36, 5, 0, false, true, .never, .ply, Ty.floats, .maskDst, .vecSrc .one, .vecSrc .one, .zero, 0xD8, (some (false, [0, 1])), .plain, .always⟩
  | .fcmpUo _ => some ⟨0x36, 6, 0, false, true, .never, .ply, Ty.floats, .maskDst, .vecSrc .one, .vecSrc .one, .zero, 0xD8, (some (false, [0, 1])), .plain, .always⟩
  | .fcmpOrd _ => some ⟨0x36, 7, 0, false, true, .never, .ply, Ty.floats, .maskDst, .vecSrc .one, .vecSrc .one, .zero, 0xD8, (some (false, [0, 1])), .plain, .always⟩
  | .fsel _ => some ⟨0x37, 0, 0, false, true, .never, .ply, Ty.floats, .vecDst .one, .vecSrc .one, .vecSrc .one, .vecSrc .one, 0xD8, (some (false, [0, 1])), .plain, .always⟩
  | .frcp _ => some ⟨0x38, 0, 2, true, true, .never, .ply, [.f32], .vecDst .one, .vecSrc .one, .zero, .zero, 0xCF, (some (true, [0, 1])), .plain, .always⟩
  | .frsq _ => some ⟨0x39, 0, 2, true, true, .never, .ply, [.f32], .vecDst .one, .vecSrc .one, .zero, .zero, 0xCF, (some (true, [0, 1])), .plain, .always⟩
  | .fsqrt _ => some ⟨0x3A, 0, 2, true, true, .never, .ply, [.f32], .vecDst .one, .vecSrc .one, .zero, .zero, 0xCF, (some (true, [0, 1])), .plain, .always⟩
  | .fexp2 _ => some ⟨0x3B, 0, 2, true, true, .never, .ply, [.f32], .vecDst .one, .vecSrc .one, .zero, .zero, 0xCF, (some (true, [0, 1])), .plain, .always⟩
  | .flog2 _ => some ⟨0x3C, 0, 2, true, true, .never, .ply, [.f32], .vecDst .one, .vecSrc .one, .zero, .zero, 0xCF, (some (true, [0, 1])), .plain, .always⟩
  | .fsin _ => some ⟨0x3D, 0, 3, true, true, .never, .ply, [.f32], .vecDst .one, .vecSrc .one, .zero, .zero, 0xCF, (some (true, [0, 1])), .plain, .always⟩
  | .fcos _ => some ⟨0x3E, 0, 3, true, true, .never, .ply, [.f32], .vecDst .one, .vecSrc .one, .zero, .zero, 0xCF, (some (true, [0, 1])), .plain, .always⟩
  | .frnd _ => some ⟨0x3F, 0, 1, false, true, .never, .ply, Ty.floats, .vecDst .one, .vecSrc .one, .zero, .zero, 0xCB, (some (true, [0, 1])), .plain, .always⟩
  | .cvt _ => some ⟨0x50, 0, 1, false, true, .never, .ply, Ty.convs, .vecDst .byTy, .vecSrc .bySrcTy, .zero, .zero, 0xF7, none, .cvt, .always⟩
  | .packPair _ => some ⟨0x51, 0, 1, false, true, .never, .ply, [.f16, .bf16, .b16, .s16], .vecDst .one, .vecSrc (.run 2), .zero, .zero, 0x07, none, .pack, .always⟩
  | .packQuad _ => some ⟨0x51, 1, 1, false, true, .never, .ply, [.e4m3, .e5m2, .b8, .s8], .vecDst .one, .vecSrc (.run 4), .zero, .zero, 0x07, none, .pack, .always⟩
  | .packOct _ => some ⟨0x51, 2, 1, false, true, .never, .ply, [.e2m1], .vecDst .one, .vecSrc (.run 8), .zero, .zero, 0x07, none, .pack, .always⟩
  | .unpkPair _ => some ⟨0x52, 0, 1, false, true, .never, .ply, [.f16, .bf16, .b16, .s16], .vecDst (.run 2), .vecSrc .one, .zero, .zero, 0x00, none, .plain, .always⟩
  | .unpkQuad _ => some ⟨0x52, 1, 1, false, true, .never, .ply, [.e4m3, .e5m2, .b8, .s8], .vecDst (.run 4), .vecSrc .one, .zero, .zero, 0x00, none, .plain, .always⟩
  | .unpkOct _ => some ⟨0x52, 2, 1, false, true, .never, .ply, [.e2m1], .vecDst (.run 8), .vecSrc .one, .zero, .zero, 0x00, none, .plain, .always⟩
  | .shflIdx _ => some ⟨0x60, 0, 1, true, false, .never, .ply, Ty.raws, .vecDst .byTy, .vecSrc .byTy, .vecSrc .one, .zero, 0xC7, (some (false, [0, 1, 2])), .plain, .always⟩
  | .shflUp _ => some ⟨0x60, 1, 1, true, false, .never, .ply, Ty.raws, .vecDst .byTy, .vecSrc .byTy, .vecSrc .one, .zero, 0xC7, (some (false, [0, 1, 2])), .plain, .always⟩
  | .shflDown _ => some ⟨0x60, 2, 1, true, false, .never, .ply, Ty.raws, .vecDst .byTy, .vecSrc .byTy, .vecSrc .one, .zero, 0xC7, (some (false, [0, 1, 2])), .plain, .always⟩
  | .shflXor _ => some ⟨0x60, 3, 1, true, false, .never, .ply, Ty.raws, .vecDst .byTy, .vecSrc .byTy, .vecSrc .one, .zero, 0xC7, (some (false, [0, 1, 2])), .plain, .always⟩
  | .voteAll _ => some ⟨0x61, 0, 1, true, false, .never, .ply, Ty.raws, .scalDst, .vecSrc .byTy, .zero, .zero, 0x00, none, .plain, .always⟩
  | .voteAny _ => some ⟨0x61, 1, 1, true, false, .never, .ply, Ty.raws, .scalDst, .vecSrc .byTy, .zero, .zero, 0x00, none, .plain, .always⟩
  | .voteBallot _ => some ⟨0x61, 2, 1, true, false, .never, .ply, Ty.raws, .maskDst, .vecSrc .byTy, .zero, .zero, 0x00, none, .plain, .always⟩
  | .voteEq _ => some ⟨0x61, 3, 1, true, false, .never, .ply, Ty.raws, .scalDst, .vecSrc .byTy, .zero, .zero, 0x00, none, .plain, .always⟩
  | .redAdd _ => some ⟨0x62, 0, 2, true, false, .never, .ply, Ty.reds, .scalDst, .vecSrc .byTy, .zero, .zero, 0x08, none, .plain, .always⟩
  | .redMin _ => some ⟨0x62, 1, 2, true, false, .never, .ply, Ty.reds, .scalDst, .vecSrc .byTy, .zero, .zero, 0x08, none, .plain, .always⟩
  | .redMax _ => some ⟨0x62, 2, 2, true, false, .never, .ply, Ty.reds, .scalDst, .vecSrc .byTy, .zero, .zero, 0x08, none, .plain, .always⟩
  | .redAnd _ => some ⟨0x62, 3, 2, true, false, .never, .ply, Ty.raws, .scalDst, .vecSrc .byTy, .zero, .zero, 0x08, none, .plain, .always⟩
  | .redOr _ => some ⟨0x62, 4, 2, true, false, .never, .ply, Ty.raws, .scalDst, .vecSrc .byTy, .zero, .zero, 0x08, none, .plain, .always⟩
  | .redXor _ => some ⟨0x62, 5, 2, true, false, .never, .ply, Ty.raws, .scalDst, .vecSrc .byTy, .zero, .zero, 0x08, none, .plain, .always⟩
  | .scanAdd _ => some ⟨0x63, 0, 2, true, false, .never, .ply, Ty.reds, .vecDst .byTy, .vecSrc .byTy, .zero, .zero, 0x10, none, .plain, .always⟩
  | .scanMin _ => some ⟨0x63, 1, 2, true, false, .never, .ply, Ty.reds, .vecDst .byTy, .vecSrc .byTy, .zero, .zero, 0x10, none, .plain, .always⟩
  | .scanMax _ => some ⟨0x63, 2, 2, true, false, .never, .ply, Ty.reds, .vecDst .byTy, .vecSrc .byTy, .zero, .zero, 0x10, none, .plain, .always⟩
  | .scanAnd _ => some ⟨0x63, 3, 2, true, false, .never, .ply, Ty.raws, .vecDst .byTy, .vecSrc .byTy, .zero, .zero, 0x10, none, .plain, .always⟩
  | .scanOr _ => some ⟨0x63, 4, 2, true, false, .never, .ply, Ty.raws, .vecDst .byTy, .vecSrc .byTy, .zero, .zero, 0x10, none, .plain, .always⟩
  | .scanXor _ => some ⟨0x63, 5, 2, true, false, .never, .ply, Ty.raws, .vecDst .byTy, .vecSrc .byTy, .zero, .zero, 0x10, none, .plain, .always⟩
  | .bcast _ => some ⟨0x64, 0, 1, true, false, .never, .ply, Ty.raws, .scalDst, .vecSrc .byTy, .vecSrc .one, .zero, 0xC8, (some (false, [1, 2])), .plain, .always⟩
  | .rds _ => some ⟨0x65, 0, 1, false, false, .never, .both, [.b32], .vecDst .one, .zero, .zero, .zero, 0xFF, none, .rds, .always⟩
  | .ld _ => some ⟨0x70, 0, 1, true, false, .optional, .both, Ty.mems, .vecDst .byTy, .scalSrc, .vecSrc .one, .imm, 0xFF, none, .memory true true, .always⟩
  | .st _ => some ⟨0x71, 0, 1, true, false, .optional, .both, Ty.mems, .vecSrc .byTy, .scalSrc, .vecSrc .one, .imm, 0xFF, none, .memory true true, .always⟩
  | .ldu _ => some ⟨0x72, 0, 1, true, false, .optional, .both, Ty.mems, .scalDst, .scalSrc, .zero, .imm, 0xC3, none, .memory true true, .always⟩
  | .pref _ => some ⟨0x73, 0, 1, true, false, .optional, .both, [.b32], .imm, .scalSrc, .vecSrc .one, .imm, 0xBF, none, .prefetch, .always⟩
  | .atomAdd _ => some ⟨0x74, 0, 1, true, false, .optional, .both, Ty.reds, .vecDst .byTy, .scalSrc, .vecSrc .one, .vecSrc .byTy, 0x7F, none, .memory false false, .always⟩
  | .atomMin _ => some ⟨0x74, 1, 1, true, false, .optional, .both, Ty.reds, .vecDst .byTy, .scalSrc, .vecSrc .one, .vecSrc .byTy, 0x7F, none, .memory false false, .always⟩
  | .atomMax _ => some ⟨0x74, 2, 1, true, false, .optional, .both, Ty.reds, .vecDst .byTy, .scalSrc, .vecSrc .one, .vecSrc .byTy, 0x7F, none, .memory false false, .always⟩
  | .atomAnd _ => some ⟨0x74, 3, 1, true, false, .optional, .both, Ty.raws, .vecDst .byTy, .scalSrc, .vecSrc .one, .vecSrc .byTy, 0x7F, none, .memory false false, .always⟩
  | .atomOr _ => some ⟨0x74, 4, 1, true, false, .optional, .both, Ty.raws, .vecDst .byTy, .scalSrc, .vecSrc .one, .vecSrc .byTy, 0x7F, none, .memory false false, .always⟩
  | .atomXor _ => some ⟨0x74, 5, 1, true, false, .optional, .both, Ty.raws, .vecDst .byTy, .scalSrc, .vecSrc .one, .vecSrc .byTy, 0x7F, none, .memory false false, .always⟩
  | .atomXchg _ => some ⟨0x74, 6, 1, true, false, .optional, .both, Ty.raws, .vecDst .byTy, .scalSrc, .vecSrc .one, .vecSrc .byTy, 0x7F, none, .memory false false, .always⟩
  | .atomCas _ => some ⟨0x74, 7, 1, true, false, .optional, .both, Ty.raws, .vecDst .byTy, .scalSrc, .vecSrc .one, .vecSrc .byTy, 0x7F, none, .memory false false, .always⟩
  | .atomInc _ => some ⟨0x74, 8, 1, true, false, .optional, .both, Ty.raws, .vecDst .byTy, .scalSrc, .vecSrc .one, .vecSrc .byTy, 0x7F, none, .memory false false, .always⟩
  | .mredAdd _ => some ⟨0x75, 0, 1, true, false, .optional, .both, Ty.reds, .zero, .scalSrc, .vecSrc .one, .vecSrc .byTy, 0x7F, none, .memory false false, .always⟩
  | .mredMin _ => some ⟨0x75, 1, 1, true, false, .optional, .both, Ty.reds, .zero, .scalSrc, .vecSrc .one, .vecSrc .byTy, 0x7F, none, .memory false false, .always⟩
  | .mredMax _ => some ⟨0x75, 2, 1, true, false, .optional, .both, Ty.reds, .zero, .scalSrc, .vecSrc .one, .vecSrc .byTy, 0x7F, none, .memory false false, .always⟩
  | .mredAnd _ => some ⟨0x75, 3, 1, true, false, .optional, .both, Ty.raws, .zero, .scalSrc, .vecSrc .one, .vecSrc .byTy, 0x7F, none, .memory false false, .always⟩
  | .mredOr _ => some ⟨0x75, 4, 1, true, false, .optional, .both, Ty.raws, .zero, .scalSrc, .vecSrc .one, .vecSrc .byTy, 0x7F, none, .memory false false, .always⟩
  | .mredXor _ => some ⟨0x75, 5, 1, true, false, .optional, .both, Ty.raws, .zero, .scalSrc, .vecSrc .one, .vecSrc .byTy, 0x7F, none, .memory false false, .always⟩
  | .mredInc _ => some ⟨0x75, 8, 1, true, false, .optional, .both, Ty.raws, .zero, .scalSrc, .vecSrc .one, .vecSrc .byTy, 0x7F, none, .memory false false, .always⟩
  | .bara _ => some ⟨0x90, 0, 0, false, false, .never, .both, [.b32], .scalDst, .scalSrc, .scalSrc, .zero, 0x00, none, .plain, .always⟩
  | .barw _ => some ⟨0x91, 0, 0, false, false, .never, .both, [.b32], .scalDst, .scalSrc, .scalSrc, .zero, 0x00, none, .plain, .always⟩
  | .barx _ => some ⟨0x92, 0, 0, false, false, .never, .both, [.b32], .scalDst, .scalSrc, .zero, .zero, 0x00, none, .plain, .always⟩
  | .tbar _ => some ⟨0x93, 0, 0, false, false, .never, .dist, [.b32], .scalDst, .scalSrc, .zero, .zero, 0x00, none, .plain, .tree⟩
  | .fenceQ _ => some ⟨0x94, 0, 0, false, false, .never, .both, [.b32], .zero, .zero, .zero, .zero, 0x1F, none, .fenceQ, .always⟩
  | .fenceSys _ => some ⟨0x94, 1, 0, false, false, .never, .both, [.b32], .zero, .zero, .zero, .zero, 0x00, none, .plain, .always⟩
  | .tokenGet _ => some ⟨0x95, 0, 0, false, false, .never, .ply, [.b32], .zero, .zero, .zero, .zero, 0x00, none, .plain, .always⟩
  | .tokenPut _ => some ⟨0x95, 1, 0, false, false, .never, .ply, [.b32], .zero, .zero, .zero, .zero, 0x00, none, .plain, .always⟩
  | .dqpush _ => some ⟨0x96, 0, 0, false, false, .never, .dist, [.b32], .zero, .scalSrc, .scalSrc, .zero, 0x00, none, .plain, .always⟩
  | .dqpop _ => some ⟨0x97, 0, 0, false, false, .never, .ply, [.b32], .scalDst, .zero, .zero, .zero, 0x00, none, .plain, .always⟩
  | .evpop _ => some ⟨0x98, 0, 0, false, false, .never, .dist, [.b32], .scalDst, .zero, .zero, .zero, 0x01, none, .plain, .always⟩
  | .vfpush _ => some ⟨0x99, 0, 0, false, false, .never, .ply, [.b32], .zero, .vecSrc .one, .scalSrc, .zero, 0x00, none, .plain, .vfifo⟩
  | .vfpop _ => some ⟨0x9A, 0, 0, false, false, .never, .ply, [.b32], .vecDst .one, .zero, .scalSrc, .zero, 0x00, none, .plain, .vfifo⟩
  | .vfcnt _ => some ⟨0x9B, 0, 0, false, false, .never, .ply, [.b32], .scalDst, .zero, .scalSrc, .zero, 0x01, none, .plain, .vfifo⟩
  | .cpy _ => some ⟨0xA0, 0, 0, true, false, .never, .both, [.b32], .scalDst, .scalSrc, .scalSrc, .scalSrc, 0x3F, none, .copy [0, 1, 2, 3], .always⟩
  | .cpyMig _ => some ⟨0xA0, 0, 0, true, false, .never, .both, [.b32], .scalDst, .scalSrc, .scalSrc, .scalSrc, 0x43, none, .migrate, .always⟩
  | .cpyc _ => some ⟨0xA1, 0, 0, true, false, .never, .both, [.b32], .scalDst, .scalSrc, .scalSrc, .scalSrc, 0x3F, none, .copy [2, 3], .always⟩
  | .cpyg _ => some ⟨0xA2, 0, 0, true, false, .never, .both, [.b32], .scalDst, .scalSrc, .scalSrc, .scalSrc, 0x3F, none, .copy [0, 1], .always⟩
  | .cpys _ => some ⟨0xA3, 0, 0, true, false, .never, .both, [.b32], .scalDst, .scalSrc, .scalSrc, .scalSrc, 0x3F, none, .copy [2, 3], .always⟩
  | .cpyk _ => some ⟨0xA4, 0, 0, true, false, .never, .both, [.b32], .scalDst, .scalSrc, .scalSrc, .scalSrc, 0x33, none, .copy [0], .always⟩
  | .stage _ => some ⟨0xA5, 0, 0, true, false, .never, .both, [.b32], .scalDst, .zero, .zero, .zero, 0x00, none, .plain, .always⟩
  | .qfence _ => some ⟨0xA6, 0, 0, true, false, .never, .both, [.b32], .zero, .zero, .zero, .zero, 0x1F, none, .qfence, .always⟩
  | .tcfg _ => some ⟨0xB0, 0, 0, true, false, .never, .both, [.b32], .tile, .scalSrc, .scalSrc, .zero, 0x00, none, .plain, .matrix⟩
  | .tld _ => some ⟨0xB1, 0, 0, true, false, .never, .both, [.b32], .tile, .scalSrc, .zero, .scalSrc, 0x20, none, .plain, .matrix⟩
  | .tst _ => some ⟨0xB2, 0, 0, true, false, .never, .both, [.b32], .tile, .scalSrc, .zero, .scalSrc, 0x20, none, .plain, .matrix⟩
  | .tzero _ => some ⟨0xB3, 0, 0, true, false, .never, .both, [.b32], .tile, .zero, .zero, .scalSrc, 0x20, none, .plain, .matrix⟩
  | .mma _ => some ⟨0xB4, 0, 1, true, false, .never, .both, [.bf16, .f16, .e4m3, .e5m2], .tile, .tile, .tile, .scalSrc, 0x20, none, .plain, .matrix⟩
  | .mmas _ => some ⟨0xB5, 0, 1, true, false, .never, .both, [.bf16, .f16, .e4m3, .e5m2, .e2m1], .tile, .tile, .tile, .scalSrc, 0xEF, none, .scaled, .sparse⟩
  | .mmax _ => some ⟨0xB6, 0, 1, true, false, .never, .both, [.e2m1], .tile, .tile, .tile, .scalSrc, 0xF0, none, .scaled, .matrix⟩
  | .tcvt _ => some ⟨0xB7, 0, 1, true, false, .never, .both, [.f32, .f16, .bf16, .e4m3, .e5m2], .tile, .tile, .zero, .scalSrc, 0xFF, none, .tcvt, .matrix⟩
  | .srfence _ => some ⟨0xB8, 0, 0, true, false, .never, .both, [.b32], .zero, .zero, .zero, .zero, 0x00, none, .plain, .always⟩
  | .xg _ => some ⟨0xC0, 0, 0, true, false, .never, .both, [.b32], .imm, .imm, .imm, .imm, 0xF8, none, .gate, .crossbar⟩
  | .xgP _ => some ⟨0xC0, 1, 0, true, false, .never, .both, [.b32], .imm, .imm, .imm, .imm, 0xF8, none, .gate, .crossbar⟩
  | .xinit _ => some ⟨0xC1, 0, 0, true, false, .never, .both, [.b32], .imm, .zero, .zero, .zero, 0xC1, none, .preset, .crossbar⟩
  | .xrd _ => some ⟨0xC2, 0, 0, true, false, .never, .both, [.b32], .vecDst .pair, .scalSrc, .vecSrc .one, .zero, 0x64, none, .xread false, .crossbar⟩
  | .xrdQ _ => some ⟨0xC2, 0, 0, true, false, .never, .both, [.b32], .vecDst .pair, .scalSrc, .vecSrc .one, .zero, 0xE4, none, .xread true, .crossbar⟩
  | .xwr _ => some ⟨0xC3, 0, 0, true, false, .never, .both, [.b32], .vecSrc .pair, .scalSrc, .vecSrc .one, .zero, 0x44, none, .xread false, .crossbar⟩
  | .xfill _ => some ⟨0xC4, 0, 0, true, false, .never, .both, [.b32], .imm, .zero, .vecSrc .one, .scalSrc, 0xF0, (some (false, [0, 1])), .plain, .crossbar⟩
  | .xwin _ => some ⟨0xC5, 0, 0, true, false, .never, .both, [.b32], .zero, .scalSrc, .zero, .zero, 0x00, none, .plain, .crossbar⟩
  | .xration _ => some ⟨0xC6, 0, 0, true, false, .never, .both, [.b32], .zero, .scalSrc, .zero, .zero, 0x00, none, .plain, .crossbar⟩
  | .xrun _ => some ⟨0xC7, 0, 0, true, false, .never, .both, [.b32], .zero, .scalSrc, .scalSrc, .scalSrc, 0x20, none, .plain, .crossbar⟩
  | .xstat _ => some ⟨0xC8, 0, 0, true, false, .never, .both, [.b32], .scalDst, .scalSrc, .zero, .zero, 0x00, none, .plain, .crossbar⟩
  | .xmap _ => some ⟨0xC9, 0, 0, true, false, .never, .both, [.b32], .scalDst, .scalSrc, .zero, .zero, 0x00, none, .xmap false, .crossbar⟩
  | .xmapWr _ => some ⟨0xC9, 0, 0, true, false, .never, .both, [.b32], .zero, .scalSrc, .scalSrc, .zero, 0x01, none, .xmap true, .crossbar⟩
  | .launchOfferAccepted => none
  | .dependenceObserved .. => none
  | .dealSkeins .. => none
  | .dispatchDecision .. => none
  | .deterministicPlace .. => none
  | .baseSpindlePlace .. => none
  | .stealRequest .. => none
  | .stealAnswer .. => none
  | .skeinRetire .. => none
  | .launchOutcomeWrite .. => none
  | .longLatencyLanding .. => none
  | .joinMerge .. => none
  | .queueCreditRetry .. => none
  | .driftStep .. => none
  | .intervalBoundary .. => none
  | .heldAccessRetry .. => none
  | .sideLogReplay .. => none
  | .mmuShootdown .. => none
  | .mmuWake .. => none
  | .mmuFqWrite .. => none
  | .fqptrTailWrite .. => none
  | .hotcfgWrite .. => none
  | .hotThreshold .. => none
  | .hotDecay => none
  | .memCfgWrite .. => none
  | .mcFrbaseWrite .. => none
  | .rcbsyncWrite .. => none
  | .remoteAccessArrival .. => none
  | .remoteReplyArrival .. => none
  | .remoteReplyTimeout .. => none
  | .gddrRetrain .. => none
  | .retrainEnd => none
  | .copyCmdStart .. => none
  | .copyCmdComplete .. => none
  | .matrixCmdStart .. => none
  | .matrixStep .. => none
  | .matrixCmdComplete .. => none
  | .xqCmdStart .. => none
  | .xbarWritePhase .. => none
  | .xqCmdComplete .. => none
  | .xrdAdmit .. => none
  | .xwrPerform .. => none
  | .barrierWaitEnd .. => none
  | .tbarRelease .. => none
  | .dqpopDeliver .. => none
  | .evpopDeliver .. => none
  | .vfifoWaitEnd .. => none
  | .tokenArrive .. => none
  | .takeTrap .. => none
  | .trapPlyEnd .. => none
  | .trapPlyStop .. => none
  | .trapPlyRun .. => none
  | .trapRdatWrite .. => none
  | .preemptHold .. => none
  | .preemptRelease .. => none
  | .skeinHalted .. => none
  | .contextSaved .. => none
  | .skeinResume .. => none
  | .dbgRelease .. => none
  | .acctStringWrite .. => none
  | .sampleTick => none
  | .replayDeliver .. => none
  | .syncBsqWrite .. => none
  | .frameEnterA1 .. => none
  | .frameEnterA2 .. => none
  | .dieEnterA3 .. => none
  | .packageA4Request .. => none
  | .a4Exit => none
  | .unitWake .. => none
  | .wakeComplete .. => none
  | .pwrForceGate .. => none
  | .pwrForceClear .. => none
  | .gateIngressClose .. => none
  | .computeDieResetRelease .. => none
  | .packageReset => none
  | .bootImageFetched .. => none
  | .bootRetry => none
  | .secExtend .. => none
  | .secAttest .. => none
  | .ethReceive .. => none
  | .ethTransmit .. => none
  | .hostAccess .. => none
  | .linkStateChange .. => none
  | .linkCrcRetry .. => none
  | .linkStatWrite .. => none
  | .privateLineEviction .. => none
  | .gddrTrainingDone .. => none
  | .ethernetPortStateChange .. => none
  | .hostPortTrained => none

/-- The word fields of an instruction; an event has none. -/
def Instr.fields : Instr → Option Fields
  | .nop f => some f
  | .yield f => some f
  | .halt f => some f
  | .icsync f => some f
  | .bkpt f => some f
  | .br f => some f
  | .brz f => some f
  | .brnz f => some f
  | .jmpi f => some f
  | .call f => some f
  | .ret f => some f
  | .join f => some f
  | .exit f => some f
  | .plyw f => some f
  | .msave f => some f
  | .mset f => some f
  | .mand f => some f
  | .mor f => some f
  | .mxor f => some f
  | .mnot f => some f
  | .trap f => some f
  | .syscall f => some f
  | .eret f => some f
  | .csrr f => some f
  | .csrw f => some f
  | .launch f => some f
  | .iadd f => some f
  | .isub f => some f
  | .imul f => some f
  | .imulh f => some f
  | .imad f => some f
  | .imin f => some f
  | .imax f => some f
  | .iabs f => some f
  | .and f => some f
  | .or f => some f
  | .xor f => some f
  | .not f => some f
  | .shl f => some f
  | .shr f => some f
  | .sar f => some f
  | .rol f => some f
  | .ror f => some f
  | .popc f => some f
  | .clz f => some f
  | .brev f => some f
  | .bfe f => some f
  | .bfi f => some f
  | .sel f => some f
  | .icmpEq f => some f
  | .icmpNe f => some f
  | .icmpLt f => some f
  | .icmpLe f => some f
  | .icmpGt f => some f
  | .icmpGe f => some f
  | .mov f => some f
  | .movi f => some f
  | .fadd f => some f
  | .fsub f => some f
  | .fmul f => some f
  | .ffma f => some f
  | .fmin f => some f
  | .fmax f => some f
  | .fcmpEq f => some f
  | .fcmpNe f => some f
  | .fcmpLt f => some f
  | .fcmpLe f => some f
  | .fcmpGt f => some f
  | .fcmpGe f => some f
  | .fcmpUo f => some f
  | .fcmpOrd f => some f
  | .fsel f => some f
  | .frcp f => some f
  | .frsq f => some f
  | .fsqrt f => some f
  | .fexp2 f => some f
  | .flog2 f => some f
  | .fsin f => some f
  | .fcos f => some f
  | .frnd f => some f
  | .cvt f => some f
  | .packPair f => some f
  | .packQuad f => some f
  | .packOct f => some f
  | .unpkPair f => some f
  | .unpkQuad f => some f
  | .unpkOct f => some f
  | .shflIdx f => some f
  | .shflUp f => some f
  | .shflDown f => some f
  | .shflXor f => some f
  | .voteAll f => some f
  | .voteAny f => some f
  | .voteBallot f => some f
  | .voteEq f => some f
  | .redAdd f => some f
  | .redMin f => some f
  | .redMax f => some f
  | .redAnd f => some f
  | .redOr f => some f
  | .redXor f => some f
  | .scanAdd f => some f
  | .scanMin f => some f
  | .scanMax f => some f
  | .scanAnd f => some f
  | .scanOr f => some f
  | .scanXor f => some f
  | .bcast f => some f
  | .rds f => some f
  | .ld f => some f
  | .st f => some f
  | .ldu f => some f
  | .pref f => some f
  | .atomAdd f => some f
  | .atomMin f => some f
  | .atomMax f => some f
  | .atomAnd f => some f
  | .atomOr f => some f
  | .atomXor f => some f
  | .atomXchg f => some f
  | .atomCas f => some f
  | .atomInc f => some f
  | .mredAdd f => some f
  | .mredMin f => some f
  | .mredMax f => some f
  | .mredAnd f => some f
  | .mredOr f => some f
  | .mredXor f => some f
  | .mredInc f => some f
  | .bara f => some f
  | .barw f => some f
  | .barx f => some f
  | .tbar f => some f
  | .fenceQ f => some f
  | .fenceSys f => some f
  | .tokenGet f => some f
  | .tokenPut f => some f
  | .dqpush f => some f
  | .dqpop f => some f
  | .evpop f => some f
  | .vfpush f => some f
  | .vfpop f => some f
  | .vfcnt f => some f
  | .cpy f => some f
  | .cpyMig f => some f
  | .cpyc f => some f
  | .cpyg f => some f
  | .cpys f => some f
  | .cpyk f => some f
  | .stage f => some f
  | .qfence f => some f
  | .tcfg f => some f
  | .tld f => some f
  | .tst f => some f
  | .tzero f => some f
  | .mma f => some f
  | .mmas f => some f
  | .mmax f => some f
  | .tcvt f => some f
  | .srfence f => some f
  | .xg f => some f
  | .xgP f => some f
  | .xinit f => some f
  | .xrd f => some f
  | .xrdQ f => some f
  | .xwr f => some f
  | .xfill f => some f
  | .xwin f => some f
  | .xration f => some f
  | .xrun f => some f
  | .xstat f => some f
  | .xmap f => some f
  | .xmapWr f => some f
  | .launchOfferAccepted => none
  | .dependenceObserved .. => none
  | .dealSkeins .. => none
  | .dispatchDecision .. => none
  | .deterministicPlace .. => none
  | .baseSpindlePlace .. => none
  | .stealRequest .. => none
  | .stealAnswer .. => none
  | .skeinRetire .. => none
  | .launchOutcomeWrite .. => none
  | .longLatencyLanding .. => none
  | .joinMerge .. => none
  | .queueCreditRetry .. => none
  | .driftStep .. => none
  | .intervalBoundary .. => none
  | .heldAccessRetry .. => none
  | .sideLogReplay .. => none
  | .mmuShootdown .. => none
  | .mmuWake .. => none
  | .mmuFqWrite .. => none
  | .fqptrTailWrite .. => none
  | .hotcfgWrite .. => none
  | .hotThreshold .. => none
  | .hotDecay => none
  | .memCfgWrite .. => none
  | .mcFrbaseWrite .. => none
  | .rcbsyncWrite .. => none
  | .remoteAccessArrival .. => none
  | .remoteReplyArrival .. => none
  | .remoteReplyTimeout .. => none
  | .gddrRetrain .. => none
  | .retrainEnd => none
  | .copyCmdStart .. => none
  | .copyCmdComplete .. => none
  | .matrixCmdStart .. => none
  | .matrixStep .. => none
  | .matrixCmdComplete .. => none
  | .xqCmdStart .. => none
  | .xbarWritePhase .. => none
  | .xqCmdComplete .. => none
  | .xrdAdmit .. => none
  | .xwrPerform .. => none
  | .barrierWaitEnd .. => none
  | .tbarRelease .. => none
  | .dqpopDeliver .. => none
  | .evpopDeliver .. => none
  | .vfifoWaitEnd .. => none
  | .tokenArrive .. => none
  | .takeTrap .. => none
  | .trapPlyEnd .. => none
  | .trapPlyStop .. => none
  | .trapPlyRun .. => none
  | .trapRdatWrite .. => none
  | .preemptHold .. => none
  | .preemptRelease .. => none
  | .skeinHalted .. => none
  | .contextSaved .. => none
  | .skeinResume .. => none
  | .dbgRelease .. => none
  | .acctStringWrite .. => none
  | .sampleTick => none
  | .replayDeliver .. => none
  | .syncBsqWrite .. => none
  | .frameEnterA1 .. => none
  | .frameEnterA2 .. => none
  | .dieEnterA3 .. => none
  | .packageA4Request .. => none
  | .a4Exit => none
  | .unitWake .. => none
  | .wakeComplete .. => none
  | .pwrForceGate .. => none
  | .pwrForceClear .. => none
  | .gateIngressClose .. => none
  | .computeDieResetRelease .. => none
  | .packageReset => none
  | .bootImageFetched .. => none
  | .bootRetry => none
  | .secExtend .. => none
  | .secAttest .. => none
  | .ethReceive .. => none
  | .ethTransmit .. => none
  | .hostAccess .. => none
  | .linkStateChange .. => none
  | .linkCrcRetry .. => none
  | .linkStatWrite .. => none
  | .privateLineEviction .. => none
  | .gddrTrainingDone .. => none
  | .ethernetPortStateChange .. => none
  | .hostPortTrained => none

/-- The instruction that OPC, FN and, where three opcodes carry two instructions, one M bit name (R99, R242, R299). -/
def Instr.ofOp (opc fn : Nat) (f : Fields) : Option Instr :=
  match opc, fn with
  | 0x01, 0 => some (.nop f)
  | 0x01, 1 => some (.yield f)
  | 0x01, 2 => some (.halt f)
  | 0x01, 3 => some (.icsync f)
  | 0x01, 4 => some (.bkpt f)
  | 0x02, 0 => some (.br f)
  | 0x02, 1 => some (.brz f)
  | 0x02, 2 => some (.brnz f)
  | 0x02, 3 => some (.jmpi f)
  | 0x02, 4 => some (.call f)
  | 0x02, 5 => some (.ret f)
  | 0x03, 0 => some (.join f)
  | 0x03, 1 => some (.exit f)
  | 0x03, 2 => some (.plyw f)
  | 0x04, 0 => some (.msave f)
  | 0x04, 1 => some (.mset f)
  | 0x04, 2 => some (.mand f)
  | 0x04, 3 => some (.mor f)
  | 0x04, 4 => some (.mxor f)
  | 0x04, 5 => some (.mnot f)
  | 0x05, 0 => some (.trap f)
  | 0x05, 1 => some (.syscall f)
  | 0x05, 2 => some (.eret f)
  | 0x06, 0 => some (.csrr f)
  | 0x06, 1 => some (.csrw f)
  | 0x07, 0 => some (.launch f)
  | 0x10, 0 => some (.iadd f)
  | 0x11, 0 => some (.isub f)
  | 0x12, 0 => some (.imul f)
  | 0x13, 0 => some (.imulh f)
  | 0x14, 0 => some (.imad f)
  | 0x15, 0 => some (.imin f)
  | 0x16, 0 => some (.imax f)
  | 0x17, 0 => some (.iabs f)
  | 0x18, 0 => some (.and f)
  | 0x19, 0 => some (.or f)
  | 0x1A, 0 => some (.xor f)
  | 0x1B, 0 => some (.not f)
  | 0x1C, 0 => some (.shl f)
  | 0x1D, 0 => some (.shr f)
  | 0x1D, 1 => some (.sar f)
  | 0x1E, 0 => some (.rol f)
  | 0x1E, 1 => some (.ror f)
  | 0x1F, 0 => some (.popc f)
  | 0x20, 0 => some (.clz f)
  | 0x21, 0 => some (.brev f)
  | 0x22, 0 => some (.bfe f)
  | 0x23, 0 => some (.bfi f)
  | 0x24, 0 => some (.sel f)
  | 0x25, 0 => some (.icmpEq f)
  | 0x25, 1 => some (.icmpNe f)
  | 0x25, 2 => some (.icmpLt f)
  | 0x25, 3 => some (.icmpLe f)
  | 0x25, 4 => some (.icmpGt f)
  | 0x25, 5 => some (.icmpGe f)
  | 0x26, 0 => some (.mov f)
  | 0x27, 0 => some (.movi f)
  | 0x30, 0 => some (.fadd f)
  | 0x31, 0 => some (.fsub f)
  | 0x32, 0 => some (.fmul f)
  | 0x33, 0 => some (.ffma f)
  | 0x34, 0 => some (.fmin f)
  | 0x35, 0 => some (.fmax f)
  | 0x36, 0 => some (.fcmpEq f)
  | 0x36, 1 => some (.fcmpNe f)
  | 0x36, 2 => some (.fcmpLt f)
  | 0x36, 3 => some (.fcmpLe f)
  | 0x36, 4 => some (.fcmpGt f)
  | 0x36, 5 => some (.fcmpGe f)
  | 0x36, 6 => some (.fcmpUo f)
  | 0x36, 7 => some (.fcmpOrd f)
  | 0x37, 0 => some (.fsel f)
  | 0x38, 0 => some (.frcp f)
  | 0x39, 0 => some (.frsq f)
  | 0x3A, 0 => some (.fsqrt f)
  | 0x3B, 0 => some (.fexp2 f)
  | 0x3C, 0 => some (.flog2 f)
  | 0x3D, 0 => some (.fsin f)
  | 0x3E, 0 => some (.fcos f)
  | 0x3F, 0 => some (.frnd f)
  | 0x50, 0 => some (.cvt f)
  | 0x51, 0 => some (.packPair f)
  | 0x51, 1 => some (.packQuad f)
  | 0x51, 2 => some (.packOct f)
  | 0x52, 0 => some (.unpkPair f)
  | 0x52, 1 => some (.unpkQuad f)
  | 0x52, 2 => some (.unpkOct f)
  | 0x60, 0 => some (.shflIdx f)
  | 0x60, 1 => some (.shflUp f)
  | 0x60, 2 => some (.shflDown f)
  | 0x60, 3 => some (.shflXor f)
  | 0x61, 0 => some (.voteAll f)
  | 0x61, 1 => some (.voteAny f)
  | 0x61, 2 => some (.voteBallot f)
  | 0x61, 3 => some (.voteEq f)
  | 0x62, 0 => some (.redAdd f)
  | 0x62, 1 => some (.redMin f)
  | 0x62, 2 => some (.redMax f)
  | 0x62, 3 => some (.redAnd f)
  | 0x62, 4 => some (.redOr f)
  | 0x62, 5 => some (.redXor f)
  | 0x63, 0 => some (.scanAdd f)
  | 0x63, 1 => some (.scanMin f)
  | 0x63, 2 => some (.scanMax f)
  | 0x63, 3 => some (.scanAnd f)
  | 0x63, 4 => some (.scanOr f)
  | 0x63, 5 => some (.scanXor f)
  | 0x64, 0 => some (.bcast f)
  | 0x65, 0 => some (.rds f)
  | 0x70, 0 => some (.ld f)
  | 0x71, 0 => some (.st f)
  | 0x72, 0 => some (.ldu f)
  | 0x73, 0 => some (.pref f)
  | 0x74, 0 => some (.atomAdd f)
  | 0x74, 1 => some (.atomMin f)
  | 0x74, 2 => some (.atomMax f)
  | 0x74, 3 => some (.atomAnd f)
  | 0x74, 4 => some (.atomOr f)
  | 0x74, 5 => some (.atomXor f)
  | 0x74, 6 => some (.atomXchg f)
  | 0x74, 7 => some (.atomCas f)
  | 0x74, 8 => some (.atomInc f)
  | 0x75, 0 => some (.mredAdd f)
  | 0x75, 1 => some (.mredMin f)
  | 0x75, 2 => some (.mredMax f)
  | 0x75, 3 => some (.mredAnd f)
  | 0x75, 4 => some (.mredOr f)
  | 0x75, 5 => some (.mredXor f)
  | 0x75, 8 => some (.mredInc f)
  | 0x90, 0 => some (.bara f)
  | 0x91, 0 => some (.barw f)
  | 0x92, 0 => some (.barx f)
  | 0x93, 0 => some (.tbar f)
  | 0x94, 0 => some (.fenceQ f)
  | 0x94, 1 => some (.fenceSys f)
  | 0x95, 0 => some (.tokenGet f)
  | 0x95, 1 => some (.tokenPut f)
  | 0x96, 0 => some (.dqpush f)
  | 0x97, 0 => some (.dqpop f)
  | 0x98, 0 => some (.evpop f)
  | 0x99, 0 => some (.vfpush f)
  | 0x9A, 0 => some (.vfpop f)
  | 0x9B, 0 => some (.vfcnt f)
  | 0xA0, 0 => some (if f.m.getLsbD 6 then .cpyMig f else .cpy f)
  | 0xA1, 0 => some (.cpyc f)
  | 0xA2, 0 => some (.cpyg f)
  | 0xA3, 0 => some (.cpys f)
  | 0xA4, 0 => some (.cpyk f)
  | 0xA5, 0 => some (.stage f)
  | 0xA6, 0 => some (.qfence f)
  | 0xB0, 0 => some (.tcfg f)
  | 0xB1, 0 => some (.tld f)
  | 0xB2, 0 => some (.tst f)
  | 0xB3, 0 => some (.tzero f)
  | 0xB4, 0 => some (.mma f)
  | 0xB5, 0 => some (.mmas f)
  | 0xB6, 0 => some (.mmax f)
  | 0xB7, 0 => some (.tcvt f)
  | 0xB8, 0 => some (.srfence f)
  | 0xC0, 0 => some (.xg f)
  | 0xC0, 1 => some (.xgP f)
  | 0xC1, 0 => some (.xinit f)
  | 0xC2, 0 => some (if f.m.getLsbD 7 then .xrdQ f else .xrd f)
  | 0xC3, 0 => some (.xwr f)
  | 0xC4, 0 => some (.xfill f)
  | 0xC5, 0 => some (.xwin f)
  | 0xC6, 0 => some (.xration f)
  | 0xC7, 0 => some (.xrun f)
  | 0xC8, 0 => some (.xstat f)
  | 0xC9, 0 => some (if f.m.getLsbD 0 then .xmapWr f else .xmap f)
  | _, _ => none

/-- R99: the major opcodes that the map assigns. -/
def opcAssigned (opc : Nat) : Bool :=
  [(0x01, 0x07), (0x10, 0x27), (0x30, 0x3F), (0x50, 0x52), (0x60, 0x65), (0x70, 0x75), (0x90, 0x9B), (0xA0, 0xA6), (0xB0, 0xB8), (0xC0, 0xC9)].any fun r => decide (r.1 ≤ opc) && decide (opc ≤ r.2)

/-! ## Fields of a word (R84) -/

/-- Bits [lo + n - 1 : lo] of a word, as a number. -/
def bitsOf (w : Word) (lo n : Nat) : Nat := w.toNat / 2 ^ lo % 2 ^ n

/-- The fields of a word; the extension word counts only when X = 1. -/
def Fields.ofWord (w x : Word) : Fields :=
  { tc := BitVec.ofNat 2 (bitsOf w 50 2), la := BitVec.ofNat 4 (bitsOf w 46 4), u := bitsOf w 45 1 == 1,
    ty := Ty.ofCode (bitsOf w 41 4), d := BitVec.ofNat 8 (bitsOf w 32 8), a := BitVec.ofNat 8 (bitsOf w 24 8),
    b := BitVec.ofNat 8 (bitsOf w 16 8), c := BitVec.ofNat 8 (bitsOf w 8 8), m := BitVec.ofNat 8 (bitsOf w 0 8),
    x := if bitsOf w 40 1 = 1 then some x else none }

/-- The word that OPC, FN and the fields make (R84). -/
def Fields.toWord (opc fn : Nat) (f : Fields) : Word :=
  BitVec.ofNat 64 (f.m.toNat + 2 ^ 8 * f.c.toNat + 2 ^ 16 * f.b.toNat + 2 ^ 24 * f.a.toNat + 2 ^ 32 * f.d.toNat
    + 2 ^ 40 * (if f.x.isSome then 1 else 0) + 2 ^ 41 * f.ty.code + 2 ^ 45 * (if f.u then 1 else 0)
    + 2 ^ 46 * f.la.toNat + 2 ^ 50 * f.tc.toNat + 2 ^ 52 * (fn % 16) + 2 ^ 56 * (opc % 256))

/-- R83: whether an extension word follows. -/
def hasExt (w : Word) : Bool := bitsOf w 40 1 == 1

/-- M[7:6], the SRC code (R150) and the SCM code (R266). -/
def Fields.src (f : Fields) : Nat := f.m.toNat / 64
/-- M[3:2], the direction of a copy (R242). -/
def Fields.dir (f : Fields) : Nat := f.m.toNat / 4 % 4
/-- M[1:0], the space of a memory operand (R192), the queue of a copy (R242), the rounding mode (R134). -/
def Fields.low2 (f : Fields) : Nat := f.m.toNat % 4
/-- M[7:4], the source type of CVT and TCVT (R170, R278). -/
def Fields.srcTy (f : Fields) : Ty := Ty.ofCode (f.m.toNat / 16)
/-- M[5:3], the gate of a step word (R299). -/
def Fields.gate (f : Fields) : Nat := f.m.toNat / 8 % 8
/-- Bits [23:8], the control register number (R210). -/
def Fields.csr (f : Fields) : Nat := f.b.toNat * 256 + f.c.toNat
/-- The signed displacement of the extension word (R192). -/
def extDisp (x : Word) : Word := (x.setWidth 32).signExtend 64
/-- The SPN byte of the extension word (R192). -/
def extSpn (x : Word) : Nat := bitsOf x 32 8

/-- The control registers that are assigned (R211 and the maps of groups 0x05 to 0x0A). -/
def csrAssigned : List Nat :=
  [0x0000, 0x0001, 0x0100, 0x0101, 0x0200, 0x0201, 0x0300, 0x0400, 0x0401, 0x0402, 0x0403]
  ++ [0x0500, 0x0501, 0x0502, 0x0504, 0x0506, 0x0507, 0x0508, 0x0509, 0x050A, 0x050B, 0x0510]
  ++ [0x0600, 0x0601, 0x0602, 0x0603, 0x0604, 0x0605, 0x0606, 0x0607, 0x0700, 0x0701, 0x0702]
  ++ [0x0800, 0x0801, 0x0802, 0x0803, 0x0900, 0x0901, 0x0902, 0x0903, 0x0904, 0x0905, 0x0906, 0x0907, 0x0908]
  ++ [0x0A00, 0x0A01, 0x0A02, 0x0A03, 0x0A04, 0x0A05, 0x0A06, 0x0A07, 0x0A08]

/-! ## Check 5 of R100: word fields -/

/-- Whether a memory word names an index (R192, IX). -/
def Fields.ix (f : Fields) : Bool := f.m.getLsbD 2

/-- R192: the conditions on M, B, C and the extension word that every memory instruction shares. -/
def memFieldsOk (nt priv : Bool) (f : Fields) : Bool :=
  let sp := f.low2
  (nt || !f.m.getLsbD 7) && (priv || sp != 3)
  && (sp == 2 || !f.m.getLsbD 6)
  && (f.ix || (f.b == 0 && f.m.toNat / 8 % 8 == 0))
  && (match f.x with
      | none => sp != 2
      | some x => bitsOf x 40 24 == 0
          && (if sp == 2 then f.m.getLsbD 6 || decide (extSpn x < 16) else extSpn x == 0))

/-- R300: how many operands the gate reads. -/
def gateInputs (g : Nat) : Nat := if g = 0 then 1 else if g = 2 then 3 else 2

/-- R285, R300: the code fields of a gate step; CK is judged apart, because a schedule may set it. -/
def gateCodesOk (f : Fields) : Bool :=
  let n := gateInputs f.gate
  decide (f.gate ≤ 5) && decide (f.d.toNat < 0x40) && f.d != f.a
  && (if n ≥ 2 then f.b != f.d else f.b == 0) && (if n ≥ 3 then f.c != f.d else f.c == 0)

/-- The condition of an entry on its own word fields. -/
def FieldRule.ok (r : FieldRule) (f : Fields) : Bool :=
  match r with
  | .plain => true
  | .bitField =>
    let len := f.m.toNat % 128
    decide (f.c.toNat < 64) && decide (f.c.toNat < f.ty.bits) && decide (f.c.toNat + len ≤ f.ty.bits)
  | .movi =>
    match f.x with
    | none => false
    | some x => f.ty == .b64 || bitsOf x 32 32 == 0
  | .cvt => f.srcTy != .mask && (f.ty.isFloat || f.srcTy.isFloat || f.low2 == 0)
  | .pack => f.ty.isFloat || f.low2 == 0
  | .rds => decide (f.m.toNat ≤ 0x0D)
  | .condBranch => decide (f.d.toNat ≤ 1)
  | .csr => csrAssigned.contains f.csr
  | .memory nt priv => memFieldsOk nt priv f && (!nt || f.x.isNone || f.c == 0)
  | .prefetch => memFieldsOk true true f && f.low2 == 0 && decide (f.d.toNat ≤ 2) && (f.x.isNone || f.c == 0)
  | .fenceQ => f.m != 0
  | .qfence => f.m.toNat % 16 != 0
  | .copy dirs => dirs.contains f.dir
  | .migrate => f.m.getLsbD 6
  | .scaled => if f.ty == .e2m1 then f.src == 1 || f.src == 2 else f.src == 0
  | .tcvt => [Ty.f32, .f16, .bf16, .e4m3, .e5m2].contains f.srcTy
  | .gate => gateCodesOk f && !f.m.getLsbD 7
  | .preset => decide (f.d.toNat < 0x40) && !f.m.getLsbD 7
  | .xread q => (f.m.getLsbD 7 == q) && (f.ix || f.b == 0)
  | .xmap wr => f.m.getLsbD 0 == wr

/-- A field that the opcode does not use must be zero (R84). -/
def zeroOk (c : FieldClass) (v : BitVec 8) : Bool := c != .zero || v == 0

/-- Check 5 of R100, as far as it is the same in every section. -/
def OpRow.fieldsOk (r : OpRow) (f : Fields) : Bool :=
  zeroOk r.d f.d && zeroOk r.a f.a && zeroOk r.b f.b && zeroOk r.c f.c && (f.m &&& ~~~r.m) == 0
  && (r.la || f.la == 0) && (r.u || !f.u) && r.tys.contains f.ty
  && (match r.x with | .never => f.x.isNone | .optional => true | .always => f.x.isSome)
  && (match r.src with
      | none => true
      | some (_, ok) => ok.contains f.src && !(f.u && f.src == 1))
  && r.rule.ok f

/-- Check 5 of R100 for an instruction; false for an event, which has no word. -/
def Instr.fieldsOk (i : Instr) : Bool :=
  match i.row, i.fields with
  | some r, some f => r.fieldsOk f
  | _, _ => false

/-- Check 5 where the distaff runs (R97, R150, R184, R203): no uniform form, no SRC 1, no index, no private space, no W. -/
def OpRow.distFieldsOk (r : OpRow) (f : Fields) : Bool :=
  !f.u && (r.src.isNone || f.src != 1)
  && (match r.rule with
      | .memory .. => !f.ix && f.low2 != 3
      | .prefetch | .xread _ => !f.ix
      | .condBranch => f.d == 0
      | _ => true)

/-! ## Decoding and encoding -/

/-- What a word and its extension word are. -/
inductive Decoded where
  /-- an instruction that passes the checks made here -/
  | instr (i : Instr)
  /-- check 2: a reserved major opcode, the all-zero guard included -/
  | badOpcode
  /-- check 3: a function the map does not list -/
  | badFunction
  /-- check 5, for an opcode that runs where the row says: check 4 comes first -/
  | badField (runs : Runs)
deriving DecidableEq, Repr

/-- The decoder: checks 2, 3 and 5 of R100 in order. -/
def decode (w x : Word) : Decoded :=
  let opc := bitsOf w 56 8
  if !opcAssigned opc then .badOpcode
  else
    match Instr.ofOp opc (bitsOf w 52 4) (Fields.ofWord w x) with
    | none => .badFunction
    | some i => if i.fieldsOk then .instr i else .badField ((i.row.map OpRow.runs).getD .both)

/-- The words of an instruction: its word, and the extension word when it has one. An event has none. -/
def encode (i : Instr) : List Word :=
  match i.row, i.fields with
  | some r, some f => f.toWord r.opc r.fn :: f.x.toList
  | _, _ => []

/-- The bytes of a word, least significant first (R8). -/
def wordBytes (w : Word) : List Byte :=
  (List.range 8).map fun k => BitVec.ofNat 8 (w.toNat / 2 ^ (8 * k))

/-- The word that the first eight bytes of a list hold (R8); missing bytes count as zero. -/
def bytesWord (l : List Byte) : Word :=
  BitVec.ofNat 64 ((l.take 8).foldr (fun b n => b.toNat + 256 * n) 0)

/-- Decodes the bytes at the start of a list: the word, and eight more bytes when its X bit is set (R83). -/
def decodeBytes (l : List Byte) : Decoded :=
  let w := bytesWord l
  decode w (if hasExt w then bytesWord (l.drop 8) else 0)

/-- The instruction that the decoder reads from an instruction whose bits are w, the first word lowest. Every bit above
`nbits` is zero. -/
def decodeTableWord (_nbits w : Nat) : Option Instr :=
  match decodeBytes (wordBytes (BitVec.ofNat 64 w) ++ wordBytes (BitVec.ofNat 64 (w / 2 ^ 64))) with
  | .instr i => some i
  | _ => none

/-! ## Register classes of an executing word -/

/-- R97: the class a field of vector class takes in the uniform form. A mask field stays one, with the pair of a 128-wide ply (R158; DEDUCED,
log 63). -/
def FieldClass.uniformForm : FieldClass → FieldClass
  | .vecSrc (.run n) | .vecDst (.run n) => .scalRun n
  | .vecSrc _ => .scalSrc
  | .vecDst _ => .scalDst
  | c => c

/-- The class a field takes in distaff code, where a mask is one D register. -/
def FieldClass.distForm : FieldClass → FieldClass
  | .maskSrc => .scalSrc
  | .maskDst => .scalDst
  | c => c.uniformForm

/-- The class of each register field of a word (R88), where `scalar` says that it executes in the uniform form or in
distaff code and `dist` the latter: the row's class, changed by the SRC code (R150), DV (R177, R179), the direction of a copy
(R243), W of a branch (R184), the index bit (R192, R299) and the selector of RDS (R180). -/
def Instr.classes (i : Instr) (r : OpRow) (f : Fields) (scalar dist : Bool) :
    FieldClass × FieldClass × FieldClass × FieldClass :=
  let srcClass := fun (c : FieldClass) => if f.src = 1 then .scalSrc else if f.src = 2 then .imm else c
  let d0 :=
    match i with
    | .redAdd _ | .redMin _ | .redMax _ | .redAnd _ | .redOr _ | .redXor _ | .bcast _ =>
      if f.m.getLsbD 3 then .vecDst .byTy else r.d
    | .rds _ => if [0x07, 0x0C, 0x0D].contains f.m.toNat then .vecDst .pair else r.d
    | _ => r.d
  let a0 :=
    match i, r.src with
    | .brz _, _ | .brnz _, _ => if f.d.getLsbD 0 then .scalSrc else r.a
    | _, some (true, _) => srcClass r.a
    | _, _ => r.a
  let b0 :=
    match r.rule, r.src with
    | .memory .., _ | .prefetch, _ | .xread _, _ => if f.ix then r.b else .zero
    | .copy dirs, _ => if dirs.length > 1 && f.dir % 2 == 0 then .tile else r.b
    | _, some (false, _) => srcClass r.b
    | _, _ => r.b
  let fix := fun (c : FieldClass) => if dist then c.distForm else if scalar then c.uniformForm else c
  (fix d0, fix a0, fix b0, fix r.c)

end Sys2Proof
end

