-- ==== Sys2Proof/Config.lean ====
section
/-! DEFINITION. What the spec leaves open, as constants without a body: nothing can evaluate them, and a claim that holds of
the model holds whatever they are. Each takes a plain number, usually the tick of the state, so that every use is fresh. -/

namespace Sys2Proof

/-- What may happen next: a party issues the instruction at its program counter, a system core executes one instruction
word, a party's fetch runs ahead to a line (R112), or an event of the part takes place. -/
inductive Action where
  | issue (p : Party)
  | fetchAhead (p : Party) (va : Word)
  | coreWord (c : Nat) (w : Word)
  | event (i : Instr)
deriving DecidableEq, Repr, Inhabited

end Sys2Proof

namespace Sys2Proof.Config

/-- DESIGN CHOICE, log 3: the order in which parties and units act is not in the spec. -/
opaque nextAction : Nat → Action

/-- DESIGN CHOICE, log 3, log 4: how many nanoseconds pass before the next action. -/
opaque elapsed : Nat → Nat

/-- A free bit for a tick and a use (DESIGN CHOICE, log 4, 7, 9, 10, 24, 26, 42). -/
opaque freeBool : Nat → Nat → Bool

/-- A free number for a tick and a use (DESIGN CHOICE, log 3, 8, 9, 20, 24, 26, 114). -/
opaque freeNat : Nat → Nat → Nat

/-- A free 64-bit value for a tick and a use (DESIGN CHOICE, log 26). -/
opaque freeWord : Nat → Nat → Word

/-- DESIGN CHOICE, log 12: SHAKE256, of which the part takes the first 64 bytes (R384, R385). -/
opaque shake256 : List Byte → List Byte

/-- DESIGN CHOICE, log 12: the Ed448 signature with the identity private key, which never leaves the part (R385). -/
opaque identitySign : List Byte → List Byte

/-- DESIGN CHOICE, log 12: the Ed448 identity public key (R385). -/
opaque identityKey : List Byte

/-- DESIGN CHOICE, log 12: whether a signature over a digest verifies under a key of the fused owner digest (R384). -/
opaque bootSignatureOk : List Byte → List Byte → Bool

/-- DESIGN CHOICE, log 2, 74: what a byte of reserved SRAM holds, by the tick at which it changed hands and its offset (R234), and a private byte
that the ply has not stored (R361); log 114: what scale memory holds after A3 (R375). -/
opaque freeByte : Nat → Nat → Byte

/-- DESIGN CHOICE, log 18: the body of a saved frame, from byte 64 on, which the part lays out (R354). -/
opaque frameByte : Nat → Nat → Byte

/-- DESIGN CHOICE, log 1: `cap.units` of the part in hand at reset, a fully equipped X1 with the host port (R6). -/
def capUnits : Word := 0x000001000010403C

/-- DESIGN CHOICE, log 1: `cap.stepping` of the part in hand at reset, stepping A1 (R46). -/
def capStepping : Word := 0x0101

/-- DESIGN CHOICE, log 20: the die temperature at reset, 25 degrees in eighths (R376). -/
def resetTemp : BitVec 12 := 200

end Sys2Proof.Config
end

