-- ==== Sys2Proof/Machine/State.lean ====
section
/-! DEFINITION. The state of the part: everything the spec names, as plain data. Sections follow INVENTORY.md. Fields marked
"model's own" are not the spec's. -/

namespace Sys2Proof.Machine

/-! ## Stores -/

/-- A store from numbers to values: pairs with keys strictly rising (Machine/Mem.lean). -/
abbrev Assoc (α : Type) := List (Nat × α)

/-- A store of bit vectors in which a zero is never listed. -/
abbrev Sparse (n : Nat) := List (Nat × BitVec n)

/-! ## Traps (R340 to R350) -/

/-- The trap kinds, in the order of their codes 0x01 to 0x1A (R341). -/
inductive TrapKind where
  | illegalOpcode | illegalField | unitAbsent | privilege | pcAlign | fetchFault | addrRange | scratchLimit | nbrRange
  | privateLimit | atomAlign | gatedTarget | accessFault | misalignedAttr | tableFault | recAlign | copyArg | matrixArg
  | xbarArg | syncArg | dqDrained | detToken | userTrap | syscall | breakpoint | uncorrected
deriving DecidableEq, Repr

/-- R340. -/
inductive Precision where
  | precise | deferred | imprecise
deriving DecidableEq, Repr

/-- What a trap reports (R345). -/
structure TrapRec where
  kind : TrapKind
  prec : Precision := .precise
  elem : Option Nat := none
  /-- the failing check of R100, or 0 -/
  check : Nat := 0
  imm : BitVec 8 := 0
  addr : Word := 0
  /-- ILLEGAL_OPCODE from the all-zero word -/
  guard : Bool := false
  /-- the strand whose path takes a deferred or imprecise trap; none for any path of its ply -/
  strand : Option Nat := none
deriving DecidableEq, Repr

/-! ## Paths (R103 to R111) -/

inductive PathState where
  | ready | waiting | blocked | exited
deriving DecidableEq, Repr

/-- What a path or distaff context waits for. -/
inductive Wait where
  | none
  /-- BARW: scratchpad offset and the phase to wait past (R323) -/
  | barw (f : Fields) (off : Nat) (w : BitVec 32)
  /-- BARX, already arrived: offset and the phase before the arrival (R323, R324) -/
  | barx (f : Fields) (off : Nat) (old : BitVec 32)
  /-- TBAR, already arrived and D written: tag and the generation before the arrival (R325) -/
  | tbar (f : Fields) (tag : Nat) (gen : BitVec 16)
  /-- DQPOP, with its place in the order of issue (R328) -/
  | dqpop (f : Fields) (seq : Nat)
  | evpop (f : Fields)
  | vfpush (f : Fields)
  | vfpop (f : Fields)
  /-- TOKEN.get (R333) -/
  | token
  /-- BKPT under a debug hold (R370) -/
  | debug
  /-- a full decision, engine or event queue (R117) -/
  | credit
  /-- its instruction found something to wait for and issues again: a write that is overdue, an earlier access, a device; a producer is blocked
  meanwhile (R93, R320) -/
  | again
  /-- FENCE.q or QFENCE.w: the commands still to complete (R255, R319) -/
  | commands (ids : List Nat)
  /-- a remote load or atomic whose values are to return: the operation, and whether D is of scalar class (R317) -/
  | remote (f : Fields) (scalar : Bool) (op : Nat)
  /-- LAUNCH: the results of the offers accepted so far, by thread (R213) -/
  | launch (f : Fields) (results : List (Nat × Word)) (offered : Bool)
deriving DecidableEq, Repr

/-- One entry of a ply's path table (R108). -/
structure Path where
  valid : Bool := false
  pc : Word := 0
  strands : BitVec 16 := 0
  st : PathState := .ready
  wait : Wait := .none
deriving DecidableEq, Repr

/-! ## Deferred register writes (R93 to R95) -/

inductive RegWrite where
  /-- vector register of a thread -/
  | v (reg tid : Nat) (val : VWord)
  /-- the masked bits of an S register of the entry's strand, or of a D register -/
  | s (reg : Nat) (mask val : Word)
  /-- the masked bits of fp.flags, by CSRW (R141) -/
  | flags (val : BitVec 5)
deriving DecidableEq, Repr

structure Deferred where
  strand : Nat
  /-- landing position -/
  land : Nat
  /-- the outstanding operation that will bring the value, 0 when the value is here -/
  op : Nat
  writes : List RegWrite
  /-- flags ORed into fp.flags as it lands (R141) -/
  flags : BitVec 5
  /-- status words and crossbar reads that raise UNCORRECTED as they land (R248, R296) -/
  ue : Option Word := none
deriving DecidableEq, Repr

/-! ## Memory side of a party -/

/-- The space of an access (R193). -/
inductive Space where
  | global | scratch | neighbour | priv
deriving DecidableEq, Repr

/-- What one logged or performed access does (R228). -/
inductive AccessOp where
  | load
  | store
  | rmw (op : Rmw)
deriving DecidableEq, Repr

/-- One thread's access: thread, address (or offset), spindle of `.n`, data and compare value. -/
structure Access where
  tid : Nat
  addr : Word
  spn : Nat := 0
  data : Word := 0
  cmp : Word := 0
deriving DecidableEq, Repr

/-- A side-log entry (R228). -/
structure LogEntry where
  /-- model's own: the tick at which its instruction issued -/
  issued : Nat
  path : Nat
  strand : Nat
  space : Space
  op : AccessOp
  ty : Ty
  accs : List Access
  /-- the walk-incomplete mark -/
  incomplete : Bool
  /-- waits for a wake that covers its page (R226, R229) -/
  asleep : Bool
deriving DecidableEq, Repr

/-- A held party: which instruction of which path waits for a missing page (R227), or for room in the ring (R231). -/
structure Held where
  path : Nat
  /-- the instruction that waits; none where the party starts again at its fetch -/
  ins : Option Instr
  /-- the missing pages; empty when it waits for something else: room in the ring or the log, or that its ply's paths stand at boundaries -/
  pages : List Word
  /-- a wake has covered one of the pages -/
  woken : Bool
  /-- it needs a record, for which the ring has no room (R231) -/
  ring : Bool := false
deriving DecidableEq, Repr

/-- A buffered code line: its address and its eight words (R114). -/
structure CodeLine where
  addr : Word
  words : List Word
deriving DecidableEq, Repr

/-- The trap state of a ply or distaff (R342 to R347). -/
structure TrapState where
  /-- handler mode -/
  mode : Bool := false
  cause : Word := 0
  epc : Word := 0
  addr : Word := 0
  /-- trap.ply, its PLY field -/
  sel : BitVec 4 := 0
  /-- trap.rsel -/
  rsel : Word := 0
  k0 : Word := 0
  k1 : Word := 0
  k2 : Word := 0
  k3 : Word := 0
  /-- the set-aside path table, EXM and fp.flags; for a distaff only the program counter counts, in epc -/
  paths : List Path := []
  exm : BitVec 128 := 0
  flags : BitVec 5 := 0
  /-- the trapping path -/
  path : Nat := 0
  /-- the wait of a distaff set aside -/
  wait : Wait := .none
deriving DecidableEq, Repr

/-- A line of a ply's private bytes, apart from the global bytes behind it: its number within the ply's area, whether dirty, and its bytes (R224,
R361). -/
structure PrivLine where
  line : Nat
  dirty : Bool
  bytes : List Byte
  /-- L1 holds it; otherwise the ply's view of a line that was written back or bypasses L1 -/
  cached : Bool
deriving DecidableEq, Repr

/-! ## Plies and distaffs -/

structure Ply where
  /-- V registers, key 128 × register + thread -/
  v : Sparse 32 := []
  /-- S registers, key 16 × register + strand -/
  s : Sparse 64 := []
  exm : BitVec 128 := 0
  flags : BitVec 5 := 0
  paths : List Path := []
  /-- position of the next instruction of each strand (R93) -/
  pos : List Nat := []
  defs : List Deferred := []
  /-- positions and outstanding writes of a trap handler's own instructions (R95) -/
  hpos : List Nat := []
  hdefs : List Deferred := []
  /-- stage count of each strand (R254) -/
  stage : List Nat := []
  sideLog : List LogEntry := []
  held : Option Held := none
  /-- exited strands (R111) -/
  exited : BitVec 16 := 0
  /-- home slot group: its first slot (R73) -/
  home : Nat := 0
  /-- private-area number (R224) -/
  privNum : Option Nat := none
  priv : List PrivLine := []
  /-- the commit token has reached it; it holds the token, by TOKEN.get; it has put it in the current round (R332, R333) -/
  turn : Bool := false
  token : Bool := false
  put : Bool := false
  fbuf : List CodeLine := []
  /-- stopped by a handler (R346) -/
  stopped : Bool := false
  trap : TrapState := {}
  /-- pending deferred and imprecise traps, oldest first (R349) -/
  pend : List TrapRec := []
deriving DecidableEq, Repr

structure Dist where
  d : Sparse 64 := []
  pc : Word := 0
  exited : Bool := false
  wait : Wait := .none
  pos : Nat := 0
  defs : List Deferred := []
  hpos : Nat := 0
  hdefs : List Deferred := []
  sideLog : List LogEntry := []
  held : Option Held := none
  fbuf : List CodeLine := []
  trap : TrapState := {}
  pend : List TrapRec := []
deriving DecidableEq, Repr

/-! ## Skeins -/

/-- An open stamp epoch of a tile (R366). -/
structure Epoch where
  tOpen : Nat
  cOpen : Nat
  tIn : Option Nat
  tM0 : Option Nat
  tM1 : Option Nat
  pre : Bool
  /-- the opener was a matrix command -/
  byMatrix : Bool
  /-- EN was cleared meanwhile: it closes without a record (R367) -/
  silent : Bool
deriving DecidableEq, Repr

structure Tile where
  rows : Nat := 0
  bpr : Nat := 0
  bytes : Sparse 8 := []
  epoch : Option Epoch := none
deriving DecidableEq, Repr

/-- A decision-queue entry: its value and the plies it is still to be delivered to (R327). -/
structure DqEntry where
  val : Word
  dests : List Nat
deriving DecidableEq, Repr

/-- The preset tag of a logic line (R291). -/
inductive Tag where
  | none
  | preset (v : Bool) (win : Word)
deriving DecidableEq, Repr

/-- The rotation map of one axis (R289): physical line of each scratch line, the pool, counts and tags by line − 896. -/
structure AxisMap where
  map : List Nat
  pool : List Nat
  cnt : Assoc Nat
  tags : Assoc Tag
deriving DecidableEq, Repr

/-- Why a skein was ended before it retired normally (R55, R366). -/
inductive SkeinLife where
  | running | ended
deriving DecidableEq, Repr

/-- The stages of a pre-emption (R351 to R355). -/
inductive PreState where
  | no | stopping | halted (since : Nat)
deriving DecidableEq, Repr

structure Skein where
  /-- model's own: the identity that commands refer to -/
  uid : Nat := 0
  /-- acceptance number of its launch -/
  launch : Nat := 0
  index : Nat := 0
  life : SkeinLife := .running
  pre : PreState := .no
  dist : Dist := {}
  plies : List Ply := []
  scrBase : Nat := 0
  scratch : Sparse 8 := []
  tiles : List Tile := []
  evq : List Word := []
  /-- event-queue entries held for records not yet posted (R117) -/
  evHeld : Nat := 0
  dq : List DqEntry := []
  /-- the stage counter g (R253) -/
  stageG : Nat := 0
  /-- the next static copy entry to be released, and those released that wait for a place: entry, identity, and the commands that must complete
  first (R253, R255, R258) -/
  statNext : Nat := 0
  statWait : List (Nat × Nat × List Nat) := []
  /-- join marks: for each copy queue the commands that must complete before one that enters it now (R255) -/
  marks : List (List Nat) := [[], [], [], []]
  win : Word := 0
  ration : Nat := 16
  rowMap : AxisMap := ⟨[], [], [], []⟩
  colMap : AxisMap := ⟨[], [], [], []⟩
  /-- status bits PV, ROT, ROUT, XRE of direct steps, for the next XRUN or XFILL (R295) -/
  xpend : Word := 0
  arrays : List Nat := []
  /-- sync.detwin (R334) -/
  detwin : Word := 0
  /-- save-area frame: physical address and size (R354) -/
  frameAt : Nat := 0
  frameLen : Nat := 0
  /-- the time at which its pre-emption reached it, and whether that was by pre.ctl -/
  preAt : Nat := 0
  preCtl : Bool := false
  /-- model's own: the saved crossbar accesses and commands, which come before anything it issues (R355) -/
  back : List Nat := []
deriving DecidableEq, Repr

/-! ## Engine commands -/

inductive CopyKind where
  | cpy | cpyc | cpyg | cpys | cpyk
deriving DecidableEq, Repr

/-- One format range of a base die (R147). -/
structure Range where
  base : Word := 0
  geom : Word := 0
  scale : Word := 0
deriving DecidableEq, Repr

/-- A copy command (R242 to R253). -/
structure CopyCmd where
  id : Nat
  uid : Nat
  /-- the issuer; none for a static entry -/
  who : Option Party
  /-- the strands of the issuing path -/
  strands : BitVec 16
  /-- model's own: the tick of its issue -/
  issued : Nat
  kind : CopyKind
  dir : Nat
  sks : Bool
  ev : Bool
  shape : Word
  /-- tile number, scratchpad offset or scale offset -/
  loc : Nat
  bar : Nat
  /-- D as read at issue (R243) -/
  dval : Word
  /-- the static entry's index -/
  entry : Option Nat
  /-- commands that must complete first, by a QFENCE (R255) -/
  after : List Nat
  /-- CPY.mig: source, destination and size (R252) -/
  mig : Option (Nat × Nat × Nat)
  started : Bool := false
  resumed : Bool := false
  casDone : Bool := false
  /-- the shape record as read at the start; empty before -/
  shapeRec : List Byte := []
  /-- what the box moves, fixed at the start: box row, local row, order (R245, R250, R251) -/
  rows : List (Nat × Nat × Nat) := []
  /-- status bits PADDED, SKIP, UE and CE met so far -/
  bits : Word := 0
  /-- its record has passed its checks: the padding is done, and accesses follow -/
  prepared : Bool := false
  /-- the format ranges that have accepted its layout-1 reads: base die and number (R149) -/
  ranges : List (Nat × Nat) := []
  /-- pieces performed: order and 64-byte line; lines of a CPY.mig moved -/
  gone : List (Nat × Nat) := []
  pieces : Nat := 0
  /-- half bytes moved or padded -/
  moved : Nat := 0
  /-- a missing page it waits for, and whether a wake covered it -/
  asleep : Option Word := none
  woken : Bool := false
  /-- it needs a record, for which the ring has no room (R231) -/
  ring : Bool := false
  /-- code and count once every access has been performed -/
  result : Option (Nat × Nat) := none
  packed : Nat := 0
  /-- half bytes on their way: read for a tile or for scale memory but not stored yet, or taken from the tile piece by piece (R247, R263,
  R281) -/
  buf : List (Nat × BitVec 4) := []
deriving DecidableEq, Repr

inductive MatKind where
  | tld | tst | tzero | mma | mmas | mmax | tcvt
deriving DecidableEq, Repr

/-- A matrix command with the shapes captured at issue (R261). -/
structure MatCmd where
  id : Nat
  uid : Nat
  who : Party
  strands : BitVec 16
  /-- model's own: the tick of its issue -/
  issued : Nat
  kind : MatKind
  f : Fields
  opw : Word
  /-- scratchpad offset of TLD and TST -/
  off : Nat
  rowsD : Nat
  bprD : Nat
  rowsA : Nat
  bprA : Nat
  rowsB : Nat
  bprB : Nat
  /-- the index words of MMAS (R271) -/
  idx : List (BitVec 32)
  started : Bool := false
  resumed : Bool := false
  steps : Nat
  done : Nat := 0
  /-- the errors that steps of the K block in hand have met and that leave what is computed from their words undefined (R275) -/
  bad : List TileErr := []
  /-- status bits SCALE, NAN, UE, CE, PAR met so far -/
  bits : Word := 0
  /-- the 64-byte piece of A that a widening TCVT is in the middle of, as it was when its first step read it (R247, R263) -/
  piece : List Byte := []
deriving DecidableEq, Repr

inductive XKind where
  | step | fill | ration | run | stat | map | mapWr | rdq
deriving DecidableEq, Repr

/-- A crossbar-queue command with the window captured at issue (R293). -/
structure XqCmd where
  id : Nat
  uid : Nat
  who : Party
  strands : BitVec 16
  /-- model's own: the tick of its issue -/
  issued : Nat
  kind : XKind
  /-- the instruction's fields, and whether it is the preset-and-evaluate form or an XINIT -/
  f : Fields
  form : Nat
  win : Word
  opw : Word := 0
  /-- operands: ration, selector, schedule index, repeat count, physical line -/
  a : Word := 0
  b : Word := 0
  /-- the pattern of XFILL by position, or the addresses of XRD.q by thread -/
  data : List Word := []
  /-- accesses of threads for XRD.q: thread and address -/
  accs : List (Nat × Word) := []
  /-- earlier XWR of its issuer -/
  after : List Nat := []
  started : Bool := false
  resumed : Bool := false
  /-- progress of XRUN: repeat, step, group, phase; the output line of the step in hand -/
  rep : Nat := 0
  step : Nat := 0
  group : Nat := 0
  phase : Nat := 0
  line : Nat := 0
  ins : List (Bool × Nat) := []
  inStep : Bool := false
  finished : Bool := false
  words : Nat := 0
  bits : Word := 0
deriving DecidableEq, Repr

/-- An ordinary XRD or an XWR not yet performed (R294). -/
structure XHeld where
  id : Nat
  uid : Nat
  who : Party
  strands : BitVec 16
  f : Fields
  write : Bool
  /-- thread, address, data -/
  accs : List (Nat × Word × Word)
  after : List Nat
deriving DecidableEq, Repr

/-! ## Translations (R223) -/

/-- Permissions and attributes of a page. -/
structure PageAttr where
  r : Bool
  w : Bool
  x : Bool
  attr : Nat
deriving DecidableEq, Repr

/-- One translation held in an LPR or TLB: address space, page number at its size, and the page or Not mapped. -/
structure Xlat where
  asid : Nat
  /-- log2 of the size it covers -/
  size : Nat
  /-- virtual address divided by the size -/
  vpn : Nat
  /-- physical address of the page and its attributes; none for a cached Not-mapped walk, with its MIG mark -/
  page : Option (Nat × PageAttr)
  mig : Bool := false
deriving DecidableEq, Repr

/-- A range of mmu.shoot: its address space, its address, and its size as a power of two; none for the whole address space (R226). -/
structure ShootRange where
  asid : Nat
  va : Nat
  size : Option Nat
deriving DecidableEq, Repr

/-- What bears on the translations in force (R115, R226): an aligned word of local memory, valid as an entry before or after, is stored over; a
shootdown completes; an address space takes a table. -/
inductive TableEvent where
  | stored (pa : Nat) (old : Word)
  | shot (r : ShootRange)
  | rooted (asid root : Nat)
deriving DecidableEq, Repr

/-! ## Spindles, frames, dies, cores -/

/-- A pre-empted skein, saved, with the engine work that was its own (R354). -/
structure Saved where
  sk : Skein
  slot : Nat
  copies : List (Nat × CopyCmd)
  mats : List MatCmd
  xqs : List XqCmd
  helds : List XHeld
  scale : Sparse 8
  /-- the frame has been written -/
  written : Bool
deriving DecidableEq, Repr

/-- The path that issued last on a spindle: where it is, or, once its skein has left its slot, the launch it was of and its pair of records, each
with the place of `$time` empty (R368, R369). -/
inductive LastPath where
  | here (slot ply path : Nat)
  | left (acc : Nat) (pair : List (List Word))
deriving DecidableEq, Repr

structure Spindle where
  /-- counters 0 to 9; counter 0 is $cycles (R125, R371) -/
  ctr : List Nat := [0, 0, 0, 0, 0, 0, 0, 0, 0, 0]
  /-- the largest class in X1 to X3 of each of the coming cycles, as far as it is not C0 or instructions are on their way (R123) -/
  flow : List Nat := []
  /-- what has issued in the current cycle, and what holds the coming one: each instruction's slots, a distaff's being 8 (R74, R116, R120) -/
  taken : List (List (List Nat)) := []
  /-- the largest class of the paths' instructions that issued in the current cycle and in the two before it (R121) -/
  near : List (Option Nat) := []
  /-- some candidate has been held by affinity in the current cycle (R121, R371) -/
  affHeld : Bool := false
  /-- DRIFT and the boost level of the current cycle, where they have changed since it began (R124) -/
  cycleOf : Option (Nat × Nat) := none
  /-- model's own: one more than the tick at which its cycles were last counted -/
  looked : Nat := 0
  drift : Nat := 320
  /-- its monitors ask for DRIFT above 384 (R380) -/
  overAsk : Bool := false
  /-- the time of its last DRIFT step -/
  driftAt : Nat := 0
  slots : List (Option Skein) := [none, none, none, none]
  saved : List Saved := []
  lpr : Assoc Xlat := []
  tlb : List Xlat := []
  cq : List (List CopyCmd) := [[], [], [], []]
  mq : List MatCmd := []
  xq : List XqCmd := []
  xheld : List XHeld := []
  /-- shape records: address space, address, bytes (R279) -/
  recs : List (Nat × Word × List Byte) := []
  /-- scale memory, 4 KiB per slot (R245) -/
  scale : Sparse 8 := []
  /-- crossbar cells, key (array × 1024 + row) × 1024 + column (R282) -/
  cells : Sparse 1 := []
  /-- lifetime write counters, key (array × 2 + axis) × 128 + line − 896 (R292) -/
  life : Sparse 48 := []
  /-- clu.aown RCB by array (R284) -/
  aown : Sparse 64 := []
  /-- the crossbar band of its latest write phase, of the sensor above it; none before its first one (R288; DEDUCED, log 78) -/
  band : Option Nat := none
  /-- held by pre.ctl; held by the power controller (R351, R357) -/
  swHold : Bool := false
  pwrHold : Bool := false
  /-- the path that issued most recently since the last sample (R369) -/
  lastPath : Option LastPath := none
  /-- a steal request on its way: the victim frame; the time before which no new one is sent (R77) -/
  steal : Option Nat := none
  stealAt : Nat := 0
deriving DecidableEq, Repr

structure Frame where
  swcap : Nat := 64
  plimit : Nat := 0
  /-- skeins dealt to it and not yet placed: acceptance number and linear index (R67) -/
  queue : List (Nat × Nat) := []
  /-- credits by priority level and region (R68) -/
  credit : List (Nat × Nat × Int) := []
  /-- failed decisions of head skeins: acceptance number, linear index, count (R69) -/
  starve : List (Nat × Nat × Nat) := []
  /-- the reserved spindle and the skein it is for (R69) -/
  resv : Option (Nat × Nat × Nat) := none
  /-- the time of its last placement decision -/
  decideAt : Nat := 0
  force : Bool := false
  lvl : Nat := 0
  unch : Bool := false
  req : Nat := 0
  /-- A0 to A4 (R376), and since when -/
  st : Nat := 0
  since : Nat := 0
  /-- since when RESIDENT and QUEUED have been 0 -/
  idleSince : Nat := 0
  /-- gating to A2 in progress (R357) -/
  gating : Bool := false
  /-- when a started wake ends (R375) -/
  wakeAt : Option Nat := none
  tlb : List Xlat := []
deriving DecidableEq, Repr

/-- A stack: its base die and compute die. -/
structure Die where
  temp : BitVec 12 := Config.resetTemp
  /-- the coldest sensor of the base die (R381) -/
  baseTemp : BitVec 12 := Config.resetTemp
  /-- crossbar temperature band (R288) -/
  band : Nat := 2
  lastwin : Nat := 0
  pool : Nat := 64
  /-- the next interval boundary (R378) -/
  nextB : Nat := 2000
  ranges : List Range := [{}, {}, {}, {}, {}, {}, {}, {}]
  l2p : Bool := false
  err : Bool := false
  res : Nat := 0
  /-- units of 16 MiB of reserved SRAM that hold undefined bytes, and since which tick (R234) -/
  seed : Assoc Nat := []
deriving DecidableEq, Repr

/-- What a system core waits for. -/
inductive CoreWait where
  | none
  /-- a LAUNCH, or a write of sync.bsq, at the arbiter: the register of the result -/
  | launch (d : Option Nat)
deriving DecidableEq, Repr

structure SysCore where
  /-- general registers (DESIGN CHOICE, log 5) -/
  gpr : Sparse 64 := []
  /-- pending interrupts: memory fault, network (R231, R387) -/
  faultPend : Bool := false
  netPend : Bool := false
  /-- memory-fault interrupt enable (DESIGN CHOICE, log 28) -/
  faultEn : Bool := false
  retired : Nat := 0
  rplCtl : Word := 0
  rplHead : Nat := 0
  rplTail : Nat := 0
  /-- payload bytes written or read so far -/
  rplPay : Nat := 0
  cq : List (List CopyCmd) := [[], [], [], []]
  /-- the outstanding writes of CPY.mig status words -/
  defs : List Deferred := []
  wait : CoreWait := .none
  /-- replay: a logged value to be returned by the next read of a counter -/
  rplVal : Option Word := none
  /-- record: an event found no room in the log, and the core is held until TAIL advances -/
  rplHeld : Bool := false
  /-- the last trap it has taken (R7; what its entry does is not in the spec: DESIGN CHOICE, log 5) -/
  trap : Option TrapRec := none
deriving DecidableEq, Repr

/-! ## Launches (R40 to R60, R63) -/

inductive LaunchState where
  | accepted | waiting | queued | running | draining | ended
deriving DecidableEq, Repr

/-- R55. -/
inductive LaunchResult where
  | doneOk | badImage | badRecord | badRegion | noFit | depFailed | ended
deriving DecidableEq, Repr

/-- The kernel header's fields (R43). -/
structure Header where
  stepping : Nat := 0
  imageSize : Nat := 0
  flags : Nat := 0
  widthCode : Nat := 0
  plies : Nat := 0
  vregs : Nat := 0
  tiles : Nat := 0
  xarrays : Nat := 0
  scratch : Nat := 0
  priv : Nat := 0
  distOff : Nat := 0
  distSize : Nat := 0
  plyOff : Nat := 0
  plySize : Nat := 0
  dataOff : Nat := 0
  dataSize : Nat := 0
  schedOff : Nat := 0
  schedSize : Nat := 0
  schedCount : Nat := 0
  barOff : Nat := 0
  barCount : Nat := 0
deriving DecidableEq, Repr

/-- The launch record's fields (R49). -/
structure LRecord where
  addr : Word := 0
  image : Word := 0
  args : Word := 0
  region : Word := 0
  gridX : Nat := 0
  gridY : Nat := 0
  gridZ : Nat := 0
  flags : Nat := 0
  ndeps : Nat := 0
  copyCount : Nat := 0
  deps : List Word := []
  done : Word := 0
  /-- static copy entries: shape and ctl -/
  copies : List (Word × Word) := []
deriving DecidableEq, Repr

/-- A launch offered to the arbiter (R64, R213, R391). -/
structure Offer where
  who : Party
  tid : Nat
  addr : Word
  bytes : List Byte
  nw : Bool
  base : Option Nat
  /-- the region of the offering launch, none for a system core (R59) -/
  region : Option Word
  asid : Nat
deriving DecidableEq, Repr

/-- An address space as mmu.as and mmu.asrcb hold it (R226). -/
structure AddrSpace where
  en : Bool := false
  priv : Nat := 0
  /-- physical address of the level-0 table -/
  root : Nat := 0
  /-- mmu.asrcb -/
  rcb : Word := 0
deriving DecidableEq, Repr

structure Launch where
  acc : Nat := 0
  st : LaunchState := .accepted
  lrec : LRecord := {}
  hdr : Header := {}
  /-- the barrier table as read at validation (R44) -/
  bars : List Byte := []
  /-- the step words of each schedule (R297) -/
  scheds : List (List Word) := []
  asid : Nat := 0
  /-- ROOT and PRIV of its address space as of its checks (R226) -/
  root : Nat := 0
  priv : Nat := 0
  /-- runs interlocked (R45) -/
  ilk : Bool := false
  /-- runs on this base spindle only (R391) -/
  base : Option Nat := none
  /-- accepted, with the checks of R55 still to be made: they wait for memory that cannot be read yet (R213, R382) -/
  toCheck : Option Offer := none
  /-- until its checks: address spaces that have changed since its acceptance while skeins used them, as it was accepted under (R226) -/
  kept : Assoc AddrSpace := []
  /-- dependences: DONE seen (R54) -/
  depSeen : List Bool := [false, false, false, false]
  /-- dependence reads and the event write that wait for a wake -/
  depAsleep : List Bool := [false, false, false, false]
  dealt : Bool := false
  placed : Nat := 0
  retired : Nat := 0
  /-- some skein was ended early -/
  anyEnded : Bool := false
  /-- the outcome, once decided; whether it waits for a page or for ring room -/
  result : Option LaunchResult := none
  outAsleep : Bool := false
  /-- the time that the STAMP of its event holds, DONE not being stored yet (R53) -/
  stamped : Option Nat := none
  /-- token order (R332): the position the token is at, counted skein by skein and ply by ply -/
  tokenAt : Nat := 0
  round : Nat := 0
deriving DecidableEq, Repr

/-- A region control block as read (R58). -/
structure Rcb where
  addr : Nat
  parent : Nat
  inherit : Nat
  priority : Nat
  tags : Nat
  rflags : Nat
  spindles : Nat
  bw : Nat
  xarrays : Nat
  boost : Nat
  handler : Word
  saveArea : Nat
  saveSize : Nat
  latency : Nat
  /-- its own bytes pass the checks of R58 -/
  ok : Bool := true
  /-- its budget of spindles, of arrays, has been lowered below its use, which has not fallen below it since (R82) -/
  lowSpindles : Bool := false
  lowArrays : Bool := false
deriving DecidableEq, Repr

/-! ## Registers of the package -/

/-- One tag of the tree barrier network (R325, R326). -/
structure TreeTag where
  en : Bool := false
  gen : BitVec 16 := 0
  arrived : Nat := 0
  expect : Nat := 1
  /-- the generations that have ended not long ago, with the times of their last arrivals -/
  flips : List (BitVec 16 × Nat) := []
deriving DecidableEq, Repr

/-- A record waiting for room in the fault ring (R231). -/
structure RingRec where
  va : Word
  word1 : Word
  info : Word
deriving DecidableEq, Repr

/-- A Sweash link (R386). -/
structure Link where
  crcErr : Nat := 0
  peer : Nat := 0
  lanes : Nat := 0
  up : Bool := false
deriving DecidableEq, Repr

/-- An Ethernet port (R387). -/
structure Eth where
  ctl : Word := 0
  rx : Nat := 0
  tx : Nat := 0
deriving DecidableEq, Repr

/-- Where the boot of system core 0 stands (R384). -/
inductive Boot where
  /-- fetching the image over a port -/
  | fetching (port : Nat)
  /-- the image failed; retry from the other port at a time -/
  | failed (port at_ : Nat)
  | running
deriving DecidableEq, Repr

/-- Who made a remote access, and for which thread (R317). -/
structure RemoteReq where
  id : Nat
  /-- the instruction's outstanding operation -/
  op : Nat
  /-- model's own: the tick at which its instruction issued -/
  issued : Nat
  uid : Nat
  who : Party
  tid : Nat
  pa : Nat
  n : Nat
  /-- which bytes of the thread's access the piece holds -/
  at_ : Nat
  what : RemoteOp
  /-- address space and virtual address it was translated from, and log2 of the size of the translation (R225) -/
  asid : Nat
  va : Nat
  size : Nat
  arrived : Bool
  replied : Bool
  /-- withdrawn by a pre-emption before it arrived (R352) -/
  withdrawn : Bool := false
  /-- type of the value, once it is saved as pending (R352) -/
  ty : Ty := .b32
  old : Word
deriving DecidableEq, Repr

/-! ## The package -/

structure State where
  -- the model's own: free choice and inputs (DESIGN CHOICE, log 3)
  tick : Nat
  agenda : List (Nat × Action)
  cur : Party
  opSeq : Nat
  -- identity and time
  units : Word
  stepping : Word
  time : Nat
  -- memory
  mem : List Host.Cell
  remote : List Host.Cell
  reqs : List RemoteReq
  -- units
  spindles : Assoc Spindle
  frames : Assoc Frame
  dies : Assoc Die
  cores : Assoc SysCore
  fifos : Assoc (List (BitVec 512))
  -- launches
  launches : Assoc Launch
  acceptCount : Nat
  offers : List Offer
  dealPtr : Nat
  rcbs : List Rcb
  -- registers: clocks, scheduling, format ranges
  affw : BitVec 4
  frsel : BitVec 4
  mcStack : BitVec 2
  mcRange : BitVec 3
  -- translation and faults
  assel : BitVec 8
  spaces : Assoc AddrSpace
  fq : Word
  fqHead : Nat
  fqTail : Nat
  fqWait : List RingRec
  /-- what has become of page tables, newest first: a change of a valid entry is in force once its shootdown completes (R115, R226) -/
  known : List TableEvent
  hotcfg : Word
  hot : Sparse 16
  hotAt : Nat
  pkg : BitVec 6
  -- crossbar and synchronisation
  aselArray : BitVec 10
  aselSpindle : BitVec 8
  tbsel : BitVec 3
  tags : Assoc TreeTag
  -- pre-emption
  preScope : BitVec 2
  preSpindle : BitVec 9
  preSlot : BitVec 2
  -- power
  pwrLink : BitVec 4
  pwrPort : BitVec 1
  pwrFrame : BitVec 4
  tlim : BitVec 8
  budget : BitVec 16
  mtrain : BitVec 8
  idlelat : BitVec 24
  a4 : Bool
  /-- when the wake from A4 that has begun ends (R375) -/
  a4Wake : Option Nat
  bdie : BitVec 4
  cdie : BitVec 4
  memReady : BitVec 32
  ethUp : BitVec 2
  hostUp : Bool
  retraining : Option (Nat × Nat)
  retrainNext : Nat
  retrainAt : Nat
  -- links
  links : Assoc Link
  eths : Assoc Eth
  hostCtl : Word
  /-- what the last read through the host window was answered (R388) -/
  hostRead : Option Word
  -- security and boot
  secOp : Word
  /-- the operation in progress: 0 none, 1 extend, 2 attest (R385) -/
  secPend : Nat
  slots : Assoc (List Byte)
  boot : Boot
  -- accounting and debug
  string : Word
  strHead : Nat
  strTail : Nat
  strLost : Nat
  /-- records, and pairs, that wait for the device of the ring to be trained (R382) -/
  strWait : List (Nat × List (List Word))
  samp : Word
  sampAt : Nat
  cselSpindle : BitVec 9
  cselCtr : BitVec 4
  dbgHold : Word
deriving DecidableEq, Repr

/-- The part right after package reset, with power just applied: the values the spec gives, and where it gives none the
values of log 1, 2, 3, 5, 6, 17, 20 and 28 (DESIGN CHOICE). -/
def State.reset : State where
  tick := 0
  agenda := []
  cur := .core 0
  opSeq := 1
  units := Config.capUnits
  stepping := Config.capStepping
  time := 0
  mem := []
  remote := []
  reqs := []
  spindles := []
  frames := []
  dies := [(0, { lastwin := 3 }), (1, { lastwin := 7 }), (2, { lastwin := 11 }), (3, { lastwin := 15 })]
  cores := []
  fifos := []
  launches := []
  acceptCount := 0
  offers := []
  dealPtr := 0
  rcbs := []
  affw := 4
  frsel := 0
  mcStack := 0
  mcRange := 0
  assel := 0
  spaces := []
  fq := 0
  fqHead := 0
  fqTail := 0
  fqWait := []
  known := []
  hotcfg := 0
  hot := []
  hotAt := 0
  pkg := 0
  aselArray := 0
  aselSpindle := 0
  tbsel := 0
  tags := []
  preScope := 0
  preSpindle := 0
  preSlot := 0
  pwrLink := 0
  pwrPort := 0
  pwrFrame := 0
  tlim := 95
  budget := 1800
  mtrain := 10
  idlelat := 0
  a4 := false
  a4Wake := none
  bdie := 0
  cdie := 0
  memReady := 0
  ethUp := 0
  hostUp := false
  retraining := none
  retrainNext := 0
  retrainAt := 10000000
  links := []
  eths := []
  hostCtl := 0
  hostRead := none
  secOp := 0
  secPend := 0
  slots := []
  boot := .fetching 0
  string := 0
  strHead := 0
  strTail := 0
  strLost := 0
  strWait := []
  samp := 0
  sampAt := 0
  cselSpindle := 0
  cselCtr := 0
  dbgHold := 0

/-! ## Why a step stops -/

/-- Faults of the model: never a trap of the part, which is a next state. -/
inductive Fault where
  /-- An event names a unit that the part in hand does not have (a spindle, frame, die, core, port or device beyond its
  count). Raised by the events' meanings; safe: the spec describes no such step. -/
  | noSuchUnit
deriving DecidableEq, Repr

/-- Refusals of the model. -/
inductive Refusal where
  /-- An instruction without a meaning yet, by its mnemonic. Raised by exec's arms; safe. -/
  | notModelled (mnemonic : String)
  /-- A system core executes anything but CSRR, CSRW, LAUNCH, FENCE.sys and CPY.mig: the rest of its instruction set is not in
  the spec (R210, R252, R319). Raised when such a word is executed by a core; safe. -/
  | coreIsaNotGiven
deriving DecidableEq, Repr

end Sys2Proof.Machine
end

