-- ==== Sys2Proof/Machine/Mem.lean ====
section
/-! DEFINITION. Stores and memory: sorted pairs with strictly rising keys, and the byte and word accesses over them (R8, R217). -/

namespace Sys2Proof.Machine

/-! ## Association lists -/

variable {α : Type} {n : Nat}

/-- The value at a key. -/
def aget? : Assoc α → Nat → Option α
  | [], _ => none
  | (k', v) :: l, k => if k = k' then some v else aget? l k

/-- The value at a key, or a default. -/
def agetD (l : Assoc α) (k : Nat) (d : α) : α := (aget? l k).getD d

/-- Puts a value at a key, in order. -/
def aput : Assoc α → Nat → α → Assoc α
  | [], k, v => [(k, v)]
  | (k', v') :: l, k, v => if k = k' then (k, v) :: l else if k < k' then (k, v) :: (k', v') :: l else (k', v') :: aput l k v

/-- Removes a key. -/
def adel : Assoc α → Nat → Assoc α
  | [], _ => []
  | (k', v') :: l, k => if k = k' then adel l k else (k', v') :: adel l k

/-- Every key of the list is above k. -/
def aabove (k : Nat) : Assoc α → Bool
  | [] => true
  | (k', _) :: _ => decide (k < k')

/-- The keys rise strictly. -/
def asorted : Assoc α → Bool
  | [] => true
  | (k, _) :: l => aabove k l && asorted l

/-- The value of a sparse store; an unlisted key reads 0. -/
def sget (m : Sparse n) (k : Nat) : BitVec n := agetD m k 0

/-- Writes a sparse store: writing 0 removes the entry. -/
def sset (m : Sparse n) (k : Nat) (v : BitVec n) : Sparse n := if v = 0 then adel m k else aput m k v

/-- The canonical form of a sparse store: keys strictly rising, no entry equal to what an unlisted key reads as. -/
def swf (m : Sparse n) : Bool := asorted m && m.all fun p => p.2 != 0

/-- The canonical form of memory, local and remote: addresses strictly rising, and no entry equal to what an unlisted address
reads as, which is 0 (DESIGN CHOICE, log 2). -/
abbrev Memory.wf (m : List Host.Cell) : Bool := swf m

/-! ## Bytes and words in a byte store (R8) -/

/-- n bytes from an address, lowest first. -/
def sbytes (m : Sparse 8) (a : Nat) : Nat → List Byte
  | 0 => []
  | k + 1 => sget m a :: sbytes m (a + 1) k

/-- Writes bytes from an address on. -/
def sputBytes (m : Sparse 8) (a : Nat) : List Byte → Sparse 8
  | [] => m
  | b :: l => sputBytes (sset m a b) (a + 1) l

/-- The little-endian number of a list of bytes. -/
def bytesNat (l : List Byte) : Nat := l.foldr (fun b n => b.toNat + 256 * n) 0

/-- The n low bytes of a number, lowest first. -/
def natBytes : Nat → Nat → List Byte
  | 0, _ => []
  | k + 1, v => BitVec.ofNat 8 v :: natBytes k (v / 256)

/-- The little-endian value of n bytes. -/
def sread (m : Sparse 8) (a n : Nat) : Word := BitVec.ofNat 64 (bytesNat (sbytes m a n))

/-- Stores the low n bytes of a value, little-endian. -/
def swrite (m : Sparse 8) (a n : Nat) (v : Word) : Sparse 8 := sputBytes m a (natBytes n v.toNat)

/-- Reads through a list index, with a default. -/
def nth (l : List α) (i : Nat) (d : α) : α := l.getD i d

/-- Changes one element of a list. -/
def modNth (l : List α) (i : Nat) (g : α → α) : List α :=
  match l, i with
  | [], _ => []
  | x :: l, 0 => g x :: l
  | x :: l, i + 1 => x :: modNth l i g

/-! ## The part in hand (R3, R6) -/

/-- Bits [lo + n - 1 : lo] of a register, as a number. -/
def fld (w : Word) (lo n : Nat) : Nat := bitsOf w lo n

/-- Number of stacks. -/
def State.nStacks (s : State) : Nat := fld s.units 12 4
/-- Number of compute-die spindles. -/
def State.nSpindles (s : State) : Nat := fld s.units 32 16
/-- Number of Sweash links. -/
def State.nLinks (s : State) : Nat := fld s.units 16 5
/-- Number of frames: four to a stack. -/
def State.nFrames (s : State) : Nat := 4 * s.nStacks
/-- Number of system cores: two to a stack. -/
def State.nCores (s : State) : Nat := 2 * s.nStacks
/-- Number of GDDR-7 devices: eight to a stack. -/
def State.nDevices (s : State) : Nat := 8 * s.nStacks
/-- Base spindles and vertical FIFOs present. -/
def State.hasBsv (s : State) : Bool := s.units.getLsbD 1
/-- Tree barrier network present. -/
def State.hasTree (s : State) : Bool := s.units.getLsbD 2
/-- 2:4 sparse operation present. -/
def State.hasSparse (s : State) : Bool := s.units.getLsbD 3
/-- Host port present. -/
def State.hasHost (s : State) : Bool := s.units.getLsbD 4

/-- A base spindle's number (R104). -/
def isBase (sp : Nat) : Bool := decide (0x100 ≤ sp)

/-- The compute-die spindle or base spindle is present (R104, R351). -/
def State.spindlePresent (s : State) (sp : Nat) : Bool :=
  if isBase sp then s.hasBsv && decide (sp - 0x100 < 8 * s.nStacks) else decide (sp < s.nSpindles)

/-- The stack a spindle belongs to. -/
def stackOf (sp : Nat) : Nat := if isBase sp then (sp - 0x100) / 8 else sp / 64

/-! ## The physical map (R217, R218) -/

/-- Bytes of GDDR-7 present. -/
def State.gddrBytes (s : State) : Nat := s.nStacks * 0x800000000

/-- The stack's record, as after reset when nothing has changed it. -/
def State.die (s : State) (d : Nat) : Die := agetD s.dies d { lastwin := 4 * d + 3 }

/-- A local offset holds memory: GDDR-7, or reserved SRAM of a base die. -/
def State.present (s : State) (off : Nat) : Bool :=
  if off < 0x2000000000 then decide (off < s.gddrBytes)
  else
    let q := off - 0x2000000000
    decide (q / 0x20000000 < s.nStacks) && decide (q % 0x20000000 < (s.die (q / 0x20000000)).res * 0x1000000)

/-- The device a GDDR-7 offset lies in. -/
def State.deviceOf (s : State) (off : Nat) : Nat := off / 256 % s.nDevices

/-- The device of a local offset is trained, or the offset is in no device (R382). -/
def State.trained (s : State) (off : Nat) : Bool := decide (s.gddrBytes ≤ off) || s.memReady.getLsbD (s.deviceOf off)

/-- A read of a local offset misses in the cache while its device retrains, and so waits (R383); whether it misses is free (DESIGN
CHOICE, log 4). -/
def State.retrains (s : State) (off : Nat) : Bool :=
  match s.retraining with
  | none => false
  | some (d, _) => decide (off < s.gddrBytes) && s.deviceOf off == d && Config.freeBool s.tick (8 * (off / 64) + 6)

/-- A physical address of this package. -/
def State.isLocal (s : State) (pa : Nat) : Bool := decide (pa / 0x400000000000 = s.pkg.toNat)

/-- The offset of a physical address in its package. -/
def offsetOf (pa : Nat) : Nat := pa % 0x400000000000

/-- The first offset of a stack's reserved SRAM. -/
def sramBase (d : Nat) : Nat := 0x2000000000 + 0x20000000 * d

/-- Bytes of one unit of reserved SRAM. -/
def sramUnit : Nat := 0x1000000

/-- What a byte holds that nothing has written: 0, and a free value in SRAM that has changed hands (R234; DESIGN CHOICE, log 2). A cell of memory
holds the difference from it. -/
def State.blank (s : State) (off : Nat) : Byte :=
  if off < 0x2000000000 then 0
  else
    let q := off - 0x2000000000
    match aget? (s.die (q / 0x20000000)).seed (q % 0x20000000 / sramUnit) with
    | none => 0
    | some t => Config.freeByte t off

/-- One byte by physical address: a local hole reads all ones (R217); a remote byte is read where it lies. -/
def State.paByte (s : State) (pa : Nat) : Byte :=
  if s.isLocal pa then (if s.present (offsetOf pa) then sget s.mem (offsetOf pa) ^^^ s.blank (offsetOf pa) else 0xFF) else sget s.remote pa

/-- Writes one byte by physical address: a write to a local hole is dropped. -/
def State.paPut (s : State) (pa : Nat) (b : Byte) : State :=
  if s.isLocal pa then (if s.present (offsetOf pa) then { s with mem := sset s.mem (offsetOf pa) (b ^^^ s.blank (offsetOf pa)) } else s)
  else { s with remote := sset s.remote pa b }

/-- n bytes by physical address. -/
def State.paBytes (s : State) (pa : Nat) : Nat → List Byte
  | 0 => []
  | k + 1 => s.paByte pa :: s.paBytes (pa + 1) k

/-- Bytes put one after another. -/
def State.putEach (s : State) (pa : Nat) : List Byte → State
  | [] => s
  | b :: l => (s.paPut pa b).putEach (pa + 1) l

/-- The little-endian value of n bytes by physical address. -/
def State.paRead (s : State) (pa n : Nat) : Word := BitVec.ofNat 64 (bytesNat (s.paBytes pa n))

/-- The aligned words of this package that an access changes, as events of page tables: those with bit 0, the V of an entry, set before or after. -/
def State.entryStores (s t : State) (pa n : Nat) : List TableEvent :=
  (List.range ((pa % 8 + n + 7) / 8)).filterMap fun i =>
    let a := pa / 8 * 8 + 8 * i
    let old := s.paRead a 8
    let new := t.paRead a 8
    if s.isLocal a && old != new && (old.getLsbD 0 || new.getLsbD 0) then some (.stored a old) else none

/-- Writes bytes by physical address, as one access. -/
def State.paPutBytes (s : State) (pa : Nat) (l : List Byte) : State :=
  let t := s.putEach pa l
  { t with known := s.entryStores t pa l.length ++ s.known }

/-- Stores n bytes by physical address. -/
def State.paWrite (s : State) (pa n : Nat) (v : Word) : State := s.paPutBytes pa (natBytes n v.toNat)

end Sys2Proof.Machine
end

