-- ==== Sys2Proof/Machine/Float.lean ====
section
/-! DEFINITION. Number formats and the one rounding procedure (R128 to R139): exact dyadic values, unpacking, rounding with its
flags, and the exact sum, product and comparison. -/

namespace Sys2Proof

/-! ## Flags (R140) -/

/-- The sticky flags in the order of fp.flags: NX UF OF DZ NV from bit 4 down. -/
abbrev FFlags := BitVec 5

/-- invalid -/
def fNV : FFlags := 1
/-- divzero -/
def fDZ : FFlags := 2
/-- overflow -/
def fOF : FFlags := 4
/-- underflow -/
def fUF : FFlags := 8
/-- inexact -/
def fNX : FFlags := 16

/-- A flag or none. -/
def flagIf (c : Bool) (f : FFlags) : FFlags := if c then f else 0

/-! ## Formats (R129) -/

/-- Exponent bits, mantissa bits, bias, and the mantissa field of the largest finite value at its exponent. -/
structure Fmt where
  eb : Nat
  mb : Nat
  bias : Nat
  /-- exponent field of the largest finite value -/
  emax : Nat
  /-- mantissa field of the largest finite value -/
  mmax : Nat
  hasInf : Bool
  hasNan : Bool
deriving DecidableEq, Repr

/-- The format of a floating-point type; the W24 format of R145 is apart. -/
def Ty.fmt : Ty → Fmt
  | .f16 => ⟨5, 10, 15, 30, 1023, true, true⟩
  | .bf16 => ⟨8, 7, 127, 254, 127, true, true⟩
  | .e5m2 => ⟨5, 2, 15, 30, 3, true, true⟩
  | .e4m3 => ⟨4, 3, 7, 15, 6, false, true⟩
  | .e2m1 => ⟨2, 1, 1, 3, 1, false, false⟩
  | .e3m5 => ⟨3, 5, 3, 7, 31, false, false⟩
  | _ => ⟨8, 23, 127, 254, 8388607, true, true⟩

/-- W24: FP32's exponent range with 15 mantissa bits (R145). -/
def w24 : Fmt := ⟨8, 15, 127, 254, 32767, true, true⟩

/-! ## Values -/

/-- A real number (−1)^neg × mant × 2^exp; a zero keeps its sign. -/
structure Dy where
  neg : Bool
  mant : Nat
  exp : Int
deriving DecidableEq, Repr

/-- A value of a floating-point format (R130, R131). -/
inductive FVal where
  | nan (signalling : Bool)
  | inf (neg : Bool)
  | fin (d : Dy)
deriving DecidableEq, Repr

/-- A signed zero. -/
def FVal.zero (neg : Bool) : FVal := .fin ⟨neg, 0, 0⟩

def FVal.isNan : FVal → Bool
  | .nan _ => true
  | _ => false

def FVal.isSnan : FVal → Bool
  | .nan s => s
  | _ => false

/-- The sign of a number; a NaN counts as positive. -/
def FVal.neg : FVal → Bool
  | .nan _ => false
  | .inf n => n
  | .fin d => d.neg

def FVal.isZero : FVal → Bool
  | .fin d => d.mant == 0
  | _ => false

/-- Flips the sign; a negated NaN is still a NaN (R163). -/
def FVal.negate : FVal → FVal
  | .nan s => .nan s
  | .inf n => .inf (!n)
  | .fin d => .fin { d with neg := !d.neg }

/-- Unpacks the low bits of a code of a format with a sign bit (R130, R131). -/
def Fmt.unpack (f : Fmt) (v : Nat) : FVal :=
  let m := v % 2 ^ f.mb
  let e := v / 2 ^ f.mb % 2 ^ f.eb
  let s := v / 2 ^ (f.mb + f.eb) % 2 == 1
  if e == 2 ^ f.eb - 1 && f.hasInf then
    if m = 0 then .inf s else .nan (m < 2 ^ (f.mb - 1))
  else if e == 2 ^ f.eb - 1 && f.hasNan && m == 2 ^ f.mb - 1 then .nan false
  else if e = 0 then .fin ⟨s, m, 1 - (f.bias : Int) - f.mb⟩
  else .fin ⟨s, 2 ^ f.mb + m, (e : Int) - f.bias - f.mb⟩

/-- FTZ: a subnormal operand reads as a zero of its sign (R136). -/
def Fmt.flushIn (f : Fmt) (ftz : Bool) (x : FVal) : FVal :=
  match x with
  | .fin d => if ftz && d.mant < 2 ^ f.mb && d.exp == 1 - (f.bias : Int) - f.mb then .zero d.neg else x
  | _ => x

/-- FTZ touches neither e2m1 nor e3m5 (R136). -/
def Ty.flushes : Ty → Bool
  | .e2m1 | .e3m5 => false
  | _ => true

/-- Reads a code of a floating-point type, FTZ applied; e3m5 has no sign bit (R133). -/
def Ty.unpack (ty : Ty) (ftz : Bool) (v : Word) : FVal :=
  ty.fmt.flushIn (ftz && ty.flushes) (ty.fmt.unpack (v.toNat % 2 ^ ty.bits))

/-! ## Rounding (R134 to R138) -/

/-- The rounding modes of R134, by M[1:0]. -/
inductive RMode where
  | rne | rz | rdn | rup
deriving DecidableEq, Repr

/-- M[1:0]. -/
def RMode.ofCode : Nat → RMode
  | 0 => .rne | 1 => .rz | 2 => .rdn | _ => .rup

/-- The number of significant bits of a number (0 for 0). -/
def bitLen (n : Nat) : Nat := if n = 0 then 0 else n.log2 + 1

/-- Compares a × 2^x with b × 2^y. -/
def cmpScaled (a : Nat) (x : Int) (b : Nat) (y : Int) : Ordering :=
  if x ≥ y then compare (a * 2 ^ (x - y).toNat) b else compare a (b * 2 ^ (y - x).toNat)

/-- m × 2^e rounded to a multiple of 2^q in the mode, as a count of 2^q, and whether it was inexact. -/
def roundCount (mode : RMode) (neg : Bool) (m : Nat) (e q : Int) : Nat × Bool :=
  if q ≤ e then (m * 2 ^ (e - q).toNat, false)
  else
    let sh := 2 ^ (q - e).toNat
    let k := m / sh
    let r := m % sh
    let up :=
      match mode with
      | .rne => decide (2 * r > sh) || (2 * r == sh && k % 2 == 1)
      | .rz => false
      | .rdn => neg && r != 0
      | .rup => !neg && r != 0
    (if up then k + 1 else k, r != 0)

/-- R135: whether an exact nonzero magnitude overflows the format in the mode. -/
def Fmt.overflows (f : Fmt) (mode : RMode) (neg : Bool) (m : Nat) (e : Int) : Bool :=
  let kmax := 2 ^ f.mb + f.mmax
  let q : Int := (f.emax : Int) - f.bias - f.mb
  let half := cmpScaled m e (2 * kmax + 1) (q - 1) != .lt
  let next := cmpScaled m e (kmax + 1) q != .lt
  let above := cmpScaled m e kmax q == .gt
  match mode, neg with
  | .rne, _ => half
  | .rz, _ => next
  | .rdn, false | .rup, true => next
  | .rup, false | .rdn, true => above

/-- The code of the largest finite magnitude, without sign. -/
def Fmt.maxCode (f : Fmt) : Nat := f.emax * 2 ^ f.mb + f.mmax

/-- The code of infinity, without sign. -/
def Fmt.infCode (f : Fmt) : Nat := (2 ^ f.eb - 1) * 2 ^ f.mb

/-- The canonical NaN (R129). -/
def Fmt.nanCode (f : Fmt) : Nat := if f.hasInf then f.infCode + 2 ^ (f.mb - 1) else (2 ^ f.eb - 1) * 2 ^ f.mb + (2 ^ f.mb - 1)

/-- The sign bit of a format. -/
def Fmt.signBit (f : Fmt) (neg : Bool) : Nat := if neg then 2 ^ (f.eb + f.mb) else 0

/-- Rounds a finite value to a format that has a sign, with its flags (R134 to R136, R138). -/
def Fmt.roundFin (f : Fmt) (mode : RMode) (sat ftz : Bool) (d : Dy) : Nat × FFlags :=
  let sg := f.signBit d.neg
  if d.mant = 0 then (sg, 0)
  else
    let emin : Int := 1 - (f.bias : Int)
    let tiny := cmpScaled d.mant d.exp 1 emin == .lt
    if ftz && tiny then (sg, fUF ||| fNX)
    else if f.overflows mode d.neg d.mant d.exp then
      let toInf := f.hasInf && !sat &&
        (match mode, d.neg with | .rne, _ => true | .rup, false => true | .rdn, true => true | _, _ => false)
      (sg + (if toInf then f.infCode else f.maxCode), fOF ||| fNX)
    else
      let q0 : Int := d.exp + bitLen d.mant - (f.mb + 1)
      let qmin : Int := emin - f.mb
      let q := if q0 < qmin then qmin else q0
      let (k, inexact) := roundCount mode d.neg d.mant d.exp q
      let (k, q) := if k = 2 ^ (f.mb + 1) then (2 ^ f.mb, q + 1) else (k, q)
      let code := if k < 2 ^ f.mb then k else ((q + f.mb + f.bias).toNat) * 2 ^ f.mb + (k - 2 ^ f.mb)
      (sg + code, flagIf inexact fNX ||| flagIf (inexact && tiny) fUF)

/-- Rounds a value to a type (R134 to R138). A signalling NaN is flagged where it is read, not here. -/
def Ty.round (ty : Ty) (mode : RMode) (sat ftz : Bool) (x : FVal) : Word × FFlags :=
  let f := ty.fmt
  let r : Nat × FFlags :=
    match ty, x with
    | .e2m1, .nan _ => (0, fNV)
    | .e3m5, .nan _ => (0, fNV)
    | _, .nan _ => (f.nanCode, 0)
    | .e3m5, .inf n => if n then (0, fNV) else (0xFF, fNV)
    | .e4m3, .inf n | .e2m1, .inf n => (f.signBit n + f.maxCode, fNV)
    | _, .inf n => (f.signBit n + f.infCode, 0)
    | .e3m5, .fin d => if d.neg then (if d.mant = 0 then (0, 0) else (0, fNV)) else f.roundFin mode sat false d
    | _, .fin d => f.roundFin mode sat (ftz && ty.flushes) d
  (BitVec.ofNat 64 r.1, r.2)

/-- rne(x, f32) as a value again. -/
def rneF32 (x : FVal) : FVal := Ty.unpack .f32 false (Ty.round .f32 .rne false false x).1

/-- rne(x, W24) as a value again (R145). -/
def rneW24 (x : FVal) : FVal :=
  match x with
  | .fin d => w24.unpack (w24.roundFin .rne false false d).1
  | _ => x

/-! ## Exact operations (R137, R138, R164) -/

/-- The exact sum of two finite values; the sign of an exact zero is R138's. -/
def Dy.add (mode : RMode) (a b : Dy) : Dy :=
  if a.mant = 0 ∧ b.mant = 0 then ⟨if a.neg == b.neg then a.neg else mode == .rdn, 0, 0⟩
  else
    let e := if a.exp ≤ b.exp then a.exp else b.exp
    let ia : Int := (if a.neg then -1 else 1) * ((a.mant * 2 ^ (a.exp - e).toNat : Nat) : Int)
    let ib : Int := (if b.neg then -1 else 1) * ((b.mant * 2 ^ (b.exp - e).toNat : Nat) : Int)
    let t := ia + ib
    if t = 0 then ⟨mode == .rdn, 0, 0⟩ else ⟨decide (t < 0), t.natAbs, e⟩

/-- The exact product of two finite values. -/
def Dy.mul (a b : Dy) : Dy := ⟨xor a.neg b.neg, a.mant * b.mant, a.exp + b.exp⟩

/-- The exact sum; flags only for invalid operands. -/
def FVal.add (mode : RMode) (a b : FVal) : FVal × FFlags :=
  match a, b with
  | .nan s, .nan t => (.nan false, flagIf (s || t) fNV)
  | .nan s, _ => (.nan false, flagIf s fNV)
  | _, .nan t => (.nan false, flagIf t fNV)
  | .inf m, .inf n => if m == n then (.inf m, 0) else (.nan false, fNV)
  | .inf m, _ => (.inf m, 0)
  | _, .inf n => (.inf n, 0)
  | .fin x, .fin y => (.fin (x.add mode y), 0)

/-- The exact product; flags only for invalid operands. -/
def FVal.mul (a b : FVal) : FVal × FFlags :=
  match a, b with
  | .nan s, .nan t => (.nan false, flagIf (s || t) fNV)
  | .nan s, _ => (.nan false, flagIf s fNV)
  | _, .nan t => (.nan false, flagIf t fNV)
  | .inf m, .inf n => (.inf (xor m n), 0)
  | .inf m, .fin y => if y.mant = 0 then (.nan false, fNV) else (.inf (xor m y.neg), 0)
  | .fin x, .inf n => if x.mant = 0 then (.nan false, fNV) else (.inf (xor x.neg n), 0)
  | .fin x, .fin y => (.fin (x.mul y), 0)

/-- a × b + c exactly (R164). -/
def FVal.fma (mode : RMode) (a b c : FVal) : FVal × FFlags :=
  let p := a.mul b
  let r := p.1.add mode c
  (r.1, p.2 ||| r.2)

/-- Compares two numbers that are no NaNs; +0 and −0 are equal. -/
def FVal.cmp (a b : FVal) : Ordering :=
  match a, b with
  | .inf true, .inf true => .eq
  | .inf true, _ => .lt
  | _, .inf true => .gt
  | .inf false, .inf false => .eq
  | .inf false, _ => .gt
  | _, .inf false => .lt
  | .fin x, .fin y =>
    let d := x.add .rne { y with neg := !y.neg }
    if d.mant = 0 then .eq else if d.neg then .lt else .gt
  | _, _ => .eq

/-- R165: −0 is ordered below +0. -/
def FVal.below (a b : FVal) : Bool :=
  match a.cmp b with
  | .lt => true
  | .gt => false
  | .eq => a.isZero && b.isZero && a.neg && !b.neg

/-- FMIN (mx = false) and FMAX of two codes of a type, without rounding; a flushed operand is returned flushed (R165). -/
def Ty.minMax (ty : Ty) (mx ftz : Bool) (a b : FVal) : Word × FFlags :=
  let fl := flagIf (a.isSnan || b.isSnan) fNV
  let pick := fun (x : FVal) => (Ty.round ty .rne false ftz x).1
  if a.isNan && b.isNan then (pick (.nan false), fl)
  else if a.isNan then (pick b, fl)
  else if b.isNan then (pick a, fl)
  else if mx then ((if a.below b then pick b else pick a), fl)
  else ((if b.below a then pick b else pick a), fl)

/-! ## Integers and floats (R139, R169) -/

/-- The integer a word holds in an integer type (R128). -/
def Ty.toInt (ty : Ty) (v : Word) : Int :=
  let n := v.toNat % 2 ^ ty.bits
  if ty.signed && n ≥ 2 ^ (ty.bits - 1) then (n : Int) - 2 ^ ty.bits else n

/-- The least and greatest values of an integer type. -/
def Ty.minInt (ty : Ty) : Int := if ty.signed then -(2 ^ (ty.bits - 1)) else 0
def Ty.maxInt (ty : Ty) : Int := if ty.signed then 2 ^ (ty.bits - 1) - 1 else 2 ^ ty.bits - 1

/-- An integer clamped to a type's range. -/
def Ty.clamp (ty : Ty) (x : Int) : Int := if x < ty.minInt then ty.minInt else if x > ty.maxInt then ty.maxInt else x

/-- The low bits of an integer in a type. -/
def Ty.ofInt (ty : Ty) (x : Int) : Word := BitVec.ofNat 64 ((x % 2 ^ ty.bits).toNat)

/-- A finite value rounded to an integer in the mode, and whether it was inexact. -/
def Dy.toIntegral (mode : RMode) (d : Dy) : Nat × Bool := roundCount mode d.neg d.mant d.exp 0

/-- R139: float to integer. -/
def floatToInt (ty : Ty) (mode : RMode) (x : FVal) : Word × FFlags :=
  match x with
  | .nan _ => (0, fNV)
  | .inf n => (ty.ofInt (if n then ty.minInt else ty.maxInt), fNV)
  | .fin d =>
    let (k, inexact) := d.toIntegral mode
    let v : Int := if d.neg then -(k : Int) else k
    if v < ty.minInt then (ty.ofInt ty.minInt, fNV)
    else if v > ty.maxInt then (ty.ofInt ty.maxInt, fNV)
    else (ty.ofInt v, flagIf inexact fNX)

/-- R139: integer to float. -/
def intToFloat (dty sty : Ty) (mode : RMode) (sat ftz : Bool) (v : Word) : Word × FFlags :=
  let x := sty.toInt v
  dty.round mode sat ftz (.fin ⟨decide (x < 0), x.natAbs, 0⟩)

/-- R169: a value rounded to an integral value of its own format. -/
def FVal.integral (mode : RMode) (x : FVal) : FVal × FFlags :=
  match x with
  | .nan s => (.nan false, flagIf s fNV)
  | .inf n => (.inf n, 0)
  | .fin d =>
    if d.exp ≥ 0 ∨ d.mant = 0 then (.fin d, 0)
    else
      let (k, inexact) := d.toIntegral mode
      (.fin ⟨d.neg, k, 0⟩, flagIf inexact fNX)

/-- CVT of one value (R170). -/
def convert (dty sty : Ty) (mode : RMode) (sat ftz : Bool) (v : Word) : Word × FFlags :=
  if sty.isFloat then
    let x := sty.unpack ftz v
    let sn := flagIf x.isSnan fNV
    let r := if dty.isFloat then dty.round mode sat ftz x else floatToInt dty mode x
    (r.1, r.2 ||| sn)
  else if dty.isFloat then intToFloat dty sty mode sat ftz v
  else (dty.ofInt (if sat then dty.clamp (sty.toInt v) else sty.toInt v), 0)

end Sys2Proof
end

