-- ==== Sys2Proof/Machine/Ops.lean ====
section
/-! DEFINITION. The named operations every meaning is built from: the parts of the state, the party that executes, deferred
register writes (R93 to R96), issuing and finishing an instruction, the checks of R100, taking a trap and returning from one
(R340 to R350), ending a skein (R208), and the fault ring (R231). -/

namespace Sys2Proof.Machine

open Host (Outcome)

/-! ## Parts of the state -/

def State.spindle (s : State) (sp : Nat) : Spindle := agetD s.spindles sp {}
def State.setSpindle (s : State) (sp : Nat) (x : Spindle) : State := { s with spindles := aput s.spindles sp x }
def State.modSpindle (s : State) (sp : Nat) (g : Spindle → Spindle) : State := s.setSpindle sp (g (s.spindle sp))
def State.frame (s : State) (n : Nat) : Frame := agetD s.frames n {}
def State.setFrame (s : State) (n : Nat) (x : Frame) : State := { s with frames := aput s.frames n x }
def State.modFrame (s : State) (n : Nat) (g : Frame → Frame) : State := s.setFrame n (g (s.frame n))
def State.setDie (s : State) (n : Nat) (x : Die) : State := { s with dies := aput s.dies n x }
def State.modDie (s : State) (n : Nat) (g : Die → Die) : State := s.setDie n (g (s.die n))
def State.core (s : State) (n : Nat) : SysCore := agetD s.cores n {}
def State.setCore (s : State) (n : Nat) (x : SysCore) : State := { s with cores := aput s.cores n x }
def State.modCore (s : State) (n : Nat) (g : SysCore → SysCore) : State := s.setCore n (g (s.core n))
def State.launch (s : State) (acc : Nat) : Launch := agetD s.launches acc {}
def State.setLaunch (s : State) (acc : Nat) (x : Launch) : State := { s with launches := aput s.launches acc x }
def State.modLaunch (s : State) (acc : Nat) (g : Launch → Launch) : State := s.setLaunch acc (g (s.launch acc))
def State.skein? (s : State) (sp slot : Nat) : Option Skein := nth (s.spindle sp).slots slot none
def State.setSkein (s : State) (sp slot : Nat) (k : Option Skein) : State :=
  s.modSpindle sp fun x => { x with slots := modNth x.slots slot fun _ => k }
def State.modSkein (s : State) (sp slot : Nat) (g : Skein → Skein) : State :=
  match s.skein? sp slot with
  | none => s
  | some k => s.setSkein sp slot (some (g k))
def Skein.modPly (k : Skein) (p : Nat) (g : Ply → Ply) : Skein := { k with plies := modNth k.plies p g }
def Skein.ply (k : Skein) (p : Nat) : Ply := nth k.plies p {}
def Skein.modDist (k : Skein) (g : Dist → Dist) : Skein := { k with dist := g k.dist }
def State.modPly (s : State) (sp slot p : Nat) (g : Ply → Ply) : State := s.modSkein sp slot fun k => k.modPly p g
def State.modDist (s : State) (sp slot : Nat) (g : Dist → Dist) : State := s.modSkein sp slot fun k => k.modDist g

/-- Model's own: a fresh identity. -/
def State.fresh (s : State) : Nat × State := (s.opSeq, { s with opSeq := s.opSeq + 1 })

/-- Declared width of the plies of a launch (R43). -/
def Launch.width (l : Launch) : Nat := 8 * 2 ^ l.hdr.widthCode

/-- The skein slots of a spindle that hold a skein, with the skeins. -/
def Spindle.residents (x : Spindle) : List (Nat × Skein) :=
  (List.range x.slots.length).filterMap fun i => (nth x.slots i none).map fun k => (i, k)

/-- Where a resident skein of an identity is. -/
def State.whereIs (s : State) (uid : Nat) : Option (Nat × Nat) :=
  s.spindles.findSome? fun p => (p.2.residents.find? fun q => q.2.uid == uid).map fun q => (p.1, q.1)

/-- Changes a skein by its identity, resident or saved. -/
def State.modUid (s : State) (sp uid : Nat) (g : Skein → Skein) : State :=
  s.modSpindle sp fun x =>
    { x with
      slots := x.slots.map fun o => o.map fun k => if k.uid == uid then g k else k
      saved := x.saved.map fun v => if v.sk.uid == uid then { v with sk := g v.sk } else v }

/-! ## Registers of plies and distaffs -/

/-- A V register of a thread. -/
def Ply.rdV (p : Ply) (r t : Nat) : VWord := sget p.v (128 * r + t)
/-- An S register of a strand. -/
def Ply.rdS (p : Ply) (r st : Nat) : Word := sget p.s (16 * r + st)
def Ply.wrV (p : Ply) (r t : Nat) (x : VWord) : Ply := { p with v := sset p.v (128 * r + t) x }
def Ply.wrS (p : Ply) (r st : Nat) (x : Word) : Ply := { p with s := sset p.s (16 * r + st) x }
/-- A D register. -/
def Dist.rdD (d : Dist) (r : Nat) : Word := sget d.d r
def Dist.wrD (d : Dist) (r : Nat) (x : Word) : Dist := { d with d := sset d.d r x }

/-- The bits of a mask replaced. -/
def maskIn (old mask val : Word) : Word := (old &&& ~~~mask) ||| (val &&& mask)

/-- All 64 bits. -/
def ones64 : Word := 0xFFFFFFFFFFFFFFFF

/-- A whole S or D register. -/
def wrAll (r : Nat) (val : Word) : RegWrite := .s r ones64 val

/-! ## Deferred writes (R93 to R95) -/

/-- The register a write names, as a number; fp.flags is apart from every register. -/
def RegWrite.key : RegWrite → Nat
  | .v r _ _ => 2 * r
  | .s r _ _ => 2 * r + 1
  | .flags _ => 1024

def Deferred.keys (e : Deferred) : List Nat := e.writes.map RegWrite.key

/-- Puts an entry behind every entry of the same or a lower landing position. -/
def insertByLand (e : Deferred) : List Deferred → List Deferred
  | [] => [e]
  | x :: l => if e.land < x.land then e :: x :: l else x :: insertByLand e l

/-- Entries in ascending landing position, in program order among equals. -/
def byLand (l : List Deferred) : List Deferred := l.foldl (fun acc e => insertByLand e acc) []

/-- Two lists share a number. -/
def shares (a b : List Nat) : Bool := a.any fun x => b.contains x

/-- Performs the due entries in order: an entry waits for its own operation, and behind a waiting entry of its register. -/
def landGo {α : Type} (app : Deferred → α → α) : List Deferred → List Nat → α → List Deferred × α
  | [], _, x => ([], x)
  | e :: l, blocked, x =>
    if e.op != 0 || shares e.keys blocked then
      let (kept, y) := landGo app l (e.keys ++ blocked) x
      (e :: kept, y)
    else landGo app l blocked (app e x)

/-- Lands what a strand has due below a position. -/
def landDue {α : Type} (app : Deferred → α → α) (st bound : Nat) (defs : List Deferred) (x : α) : List Deferred × α :=
  let due := byLand (defs.filter fun e => e.strand == st && decide (e.land < bound))
  let (kept, y) := landGo app due [] x
  (kept ++ defs.filter (fun e => !(e.strand == st && decide (e.land < bound))), y)

/-- An overdue write to one of the registers is still outstanding, so the instruction waits (R93). -/
def mustWait (st bound : Nat) (keys : List Nat) (defs : List Deferred) : Bool :=
  defs.any fun e => e.strand == st && decide (e.land < bound) && shares e.keys keys

/-- The uncorrected error that a landing value brings (R248, R296). -/
def ueTrap (w : Word) : TrapRec := { kind := .uncorrected, prec := .imprecise, addr := w }

/-- One entry performed on a ply. -/
def Ply.apply (e : Deferred) (p : Ply) : Ply :=
  let p := e.writes.foldl (fun p w =>
    match w with
    | .v r t x => p.wrV r t x
    | .s r m x => p.wrS r e.strand (maskIn (p.rdS r e.strand) m x)
    | .flags x => { p with flags := x }) p
  let p := { p with flags := p.flags ||| e.flags }
  match e.ue with
  | none => p
  | some w => { p with pend := p.pend ++ [{ ueTrap w with strand := some e.strand }] }

/-- One entry performed on a distaff. -/
def Dist.apply (e : Deferred) (d : Dist) : Dist :=
  let d := e.writes.foldl (fun d w =>
    match w with
    | .s r m x => d.wrD r (maskIn (d.rdD r) m x)
    | _ => d) d
  match e.ue with
  | none => d
  | some w => { d with pend := d.pend ++ [ueTrap w] }

/-- Positions and deferred writes in force: a handler's own in handler mode (R95). -/
def Ply.curPos (p : Ply) (st : Nat) : Nat := nth (if p.trap.mode then p.hpos else p.pos) st 0
def Ply.curDefs (p : Ply) : List Deferred := if p.trap.mode then p.hdefs else p.defs
def Ply.setDefs (p : Ply) (l : List Deferred) : Ply := if p.trap.mode then { p with hdefs := l } else { p with defs := l }
def Ply.bumpPos (p : Ply) (st : Nat) : Ply :=
  if p.trap.mode then { p with hpos := modNth p.hpos st (· + 1) } else { p with pos := modNth p.pos st (· + 1) }
def Dist.curPos (d : Dist) : Nat := if d.trap.mode then d.hpos else d.pos
def Dist.curDefs (d : Dist) : List Deferred := if d.trap.mode then d.hdefs else d.defs
def Dist.setDefs (d : Dist) (l : List Deferred) : Dist := if d.trap.mode then { d with hdefs := l } else { d with defs := l }
def Dist.bumpPos (d : Dist) : Dist := if d.trap.mode then { d with hpos := d.hpos + 1 } else { d with pos := d.pos + 1 }

/-- Lands what a strand of a ply has due below a position. -/
def Ply.land (p : Ply) (st bound : Nat) : Ply :=
  let (kept, q) := landDue Ply.apply st bound p.curDefs p
  q.setDefs kept

/-- One entry that a trap has set aside, performed while the handler runs: its flags go to the set-aside fp.flags (R342). -/
def Ply.applyAside (e : Deferred) (p : Ply) : Ply :=
  let q := Ply.apply e { p with flags := p.trap.flags }
  { q with flags := p.flags, trap := { q.trap with flags := q.flags } }

/-- In handler mode: a set-aside write whose landing position the strand had passed is performed once its value has come (R93, R95; DEDUCED,
log 14). -/
def Ply.landAside (p : Ply) (st bound : Nat) : Ply :=
  if p.trap.mode then
    let (kept, q) := landDue Ply.applyAside st bound p.defs p
    { q with defs := kept }
  else p

/-- The same for a distaff. -/
def Dist.landAside (d : Dist) (bound : Nat) : Dist :=
  if d.trap.mode then
    let (kept, q) := landDue Dist.apply 0 bound d.defs d
    { q with defs := kept }
  else d

/-- Lands what a distaff has due below a position. -/
def Dist.land (d : Dist) (bound : Nat) : Dist :=
  let (kept, q) := landDue Dist.apply 0 bound d.curDefs d
  q.setDefs kept

/-- An instruction's write in one strand at its own position: deferred by la, and performed if it is due at once. The strand
then stands at its next position. -/
def Ply.write (p : Ply) (st la op : Nat) (ws : List RegWrite) (fl : FFlags) : Ply :=
  let q := p.curPos st
  let p := if ws.isEmpty && fl == 0 then p
    else p.setDefs (p.curDefs ++ [{ strand := st, land := q + la, op, writes := ws, flags := fl }])
  (p.bumpPos st).land st (q + 1)

/-- The same for a distaff. -/
def Dist.write (d : Dist) (la op : Nat) (ws : List RegWrite) : Dist :=
  let q := d.curPos
  let d := if ws.isEmpty then d
    else d.setDefs (d.curDefs ++ [{ strand := 0, land := q + la, op, writes := ws, flags := 0 }])
  d.bumpPos.land (q + 1)

/-! ## The executing party -/

/-- What a meaning sees of the party that executes. -/
structure Ctx where
  who : Party
  sp : Nat
  slot : Nat
  dist : Bool
  plyNo : Nat
  idx : Nat
  sk : Skein
  /-- the issuing ply; empty in distaff code -/
  ply : Ply
  path : Path
  la : Launch
  /-- declared width -/
  w : Nat
  /-- strands of the issuing path, ascending; [0] in distaff code -/
  strands : List Nat
  handler : Bool
  pc : Word
deriving Repr

/-- The strands of a set, ascending (R103). -/
def strandList (b : BitVec 16) : List Nat := (List.range 16).filter fun i => b.getLsbD i

/-- The context of a party of a resident skein; none for a system core, an empty slot or an entry that is not valid. -/
def State.ctx? (s : State) (p : Party) : Option Ctx :=
  match p with
  | .core _ => none
  | .dist sp slot =>
    (s.skein? sp slot).map fun k =>
      let l := s.launch k.launch
      { who := p, sp, slot, dist := true, plyNo := 0, idx := 0, sk := k, ply := {}, path := {}, la := l, w := l.width,
        strands := [0], handler := k.dist.trap.mode, pc := k.dist.pc }
  | .path sp slot ply idx =>
    match s.skein? sp slot with
    | none => none
    | some k =>
      let y := k.ply ply
      let e := nth y.paths idx {}
      let l := s.launch k.launch
      if e.valid then
        some { who := p, sp, slot, dist := false, plyNo := ply, idx, sk := k, ply := y, path := e, la := l, w := l.width,
               strands := strandList e.strands, handler := y.trap.mode, pc := e.pc }
      else none

/-- Changes the issuing ply. -/
def Ctx.modPly (c : Ctx) (s : State) (g : Ply → Ply) : State := s.modPly c.sp c.slot c.plyNo g
/-- Changes the skein's distaff. -/
def Ctx.modDist (c : Ctx) (s : State) (g : Dist → Dist) : State := s.modDist c.sp c.slot g
/-- Changes the issuing path's entry. -/
def Ctx.modPath (c : Ctx) (s : State) (g : Path → Path) : State :=
  c.modPly s fun p => { p with paths := modNth p.paths c.idx g }

/-- R96: lookahead is ignored in interlocked mode and in a handler. -/
def Ctx.lookahead (c : Ctx) (f : Fields) : Nat := if c.la.ilk || c.handler then 0 else f.la.toNat

/-- Threads of a strand whose EXM bit is set, ascending (R101, R102). -/
def activeIn (exm : BitVec 128) (st : Nat) : List Nat := (List.range 8).map (8 * st + ·) |>.filter fun t => exm.getLsbD t

/-- active(p) (R101). -/
def Ctx.active (c : Ctx) : List Nat := c.strands.flatMap (activeIn c.ply.exm)

/-- A strand of the path has an EXM bit set. -/
def Ctx.touched (c : Ctx) (st : Nat) : Bool := !(activeIn c.ply.exm st).isEmpty

/-- width(p) (R101, R103); the declared W in distaff code. -/
def Ctx.width (c : Ctx) : Nat := if c.dist then c.w else 8 * c.strands.length

/-- The lowest-numbered strand of the path. -/
def Ctx.first (c : Ctx) : Nat := c.strands.headD 0

/-- A strand of the declared width. -/
def Ctx.nStrands (c : Ctx) : Nat := c.w / 8

/-- Bytes of the instruction (R83). -/
def Fields.size (f : Fields) : Word := if f.x.isSome then 16 else 8

/-- The program counter moved to an address, and the party ready there. -/
def Ctx.goto (c : Ctx) (s : State) (pc : Word) : State :=
  if c.dist then c.modDist s fun d => { d with pc := pc, wait := .none }
  else c.modPath s fun e => { e with pc := pc, st := .ready, wait := .none }

/-- The register writes of an instruction in each strand of its party, at its landing position (R93); every strand counts one
position. -/
def Ctx.writes (c : Ctx) (f : Fields) (op : Nat) (ws : Nat → List RegWrite) (fl : Nat → FFlags) (s : State) : State :=
  let la := c.lookahead f
  if c.dist then c.modDist s fun d => d.write la op (ws 0)
  else c.modPly s fun p => c.strands.foldl (fun p st => p.write st la op (ws st) (fl st)) p

/-- The end of an ordinary instruction: its register writes, its positions, and the next instruction in sequence (R83). -/
def Ctx.finish (c : Ctx) (f : Fields) (op : Nat) (ws : Nat → List RegWrite) (fl : Nat → FFlags) (s : State) : State :=
  c.goto (c.writes f op ws fl s) (c.pc + Fields.size f)

/-- An instruction that writes no register ends. -/
def Ctx.finish0 (c : Ctx) (f : Fields) (s : State) : State := c.finish f 0 (fun _ => []) (fun _ => 0) s

/-- The same write in every strand of the party. -/
def Ctx.finishAll (c : Ctx) (f : Fields) (ws : List RegWrite) (s : State) : State := c.finish f 0 (fun _ => ws) (fun _ => 0) s

/-! ## What an instruction can do -/

/-- The result of a meaning's own part, before pending traps are considered. -/
inductive Eff where
  /-- it takes effect -/
  | done (s : State)
  /-- a check of R100 or of the entry fails: a precise trap, before any change of state -/
  | trap (t : TrapRec)
  /-- the same, after a fault record has been written (R230) -/
  | trapWith (s : State) (t : TrapRec)
  /-- its effect is a trap that resumes after it (TRAP, SYSCALL, BKPT) -/
  | raise (t : TrapRec)
  /-- it waits: nothing but the wait itself is recorded -/
  | stall (s : State)
  /-- it waits for a register that it reads, so that it has not been checked yet (R93) -/
  | await (s : State)
  /-- its checks have looked pages up, which leaves its walks behind whatever comes of it (R223) -/
  | looked (s : State) (e : Eff)
deriving Repr

/-- The result of an instruction that has passed its checks and must still wait. -/
def Eff.delayed (e : Eff) (s : State) : Eff :=
  match e with
  | .trap t => .trap t
  | .trapWith s' t => .trapWith s' t
  | .await s' => .await s'
  | .looked s' e => .looked s' (e.delayed s')
  | _ => .stall s

/-! ## Counters (R125, R371) -/

/-- Adds to a counter. -/
def Spindle.count (x : Spindle) (ctr n : Nat) : Spindle := { x with ctr := modNth x.ctr ctr (· + n) }

/-- Cycles of each class pass on a spindle. -/
def Spindle.cycles (x : Spindle) (c0 c1 c2 c3 : Nat) : Spindle :=
  ((((x.count 0 (c0 + c1 + c2 + c3)).count 1 c0).count 2 c1).count 3 c2).count 4 c3

/-- n cycles pass on a spindle, each of the largest class in X1 to X3, C0 where there is none (R123, R371); only in the first of them, the one that
is current, can a candidate have been held, for a cycle in which nothing issues has no candidate (R121). -/
def Spindle.pass (x : Spindle) (n : Nat) : Spindle :=
  let gone := x.flow.take n
  let of := fun k => (gone.filter fun c => c == k).length
  { (x.cycles (of 0 + (n - gone.length)) (of 1) (of 2) (of 3)).count 6 (if n != 0 && x.affHeld then 1 else 0) with
    flow := x.flow.drop n, taken := x.taken.drop n, cycleOf := if n = 0 then x.cycleOf else none
    near := (List.replicate (min n 3) none ++ x.near).take 3, affHeld := n == 0 && x.affHeld }

/-- The larger class of each coming cycle. -/
def maxFlow : List Nat → List Nat → List Nat
  | [], l => l
  | l, [] => l
  | a :: l, b :: m => max a b :: maxFlow l m

/-- The frame of a spindle; a base spindle has none. -/
def frameOf (sp : Nat) : Option Nat := if isBase sp then none else some (sp / 16)

/-- The compute die of a spindle has left reset; a base spindle has none. -/
def State.clocked (s : State) (sp : Nat) : Bool := isBase sp || s.cdie.getLsbD (stackOf sp)

/-- A spindle's clock runs: not in A4, and a compute-die spindle not before its die has left reset nor in a frame in A1 or deeper (R125, R375). -/
def State.clockRuns (s : State) (sp : Nat) : Bool :=
  !s.a4 && s.clocked sp && (match frameOf sp with | none => true | some n => (s.frame n).st == 0)

/-- The cycles that have passed on a spindle since it was last looked at, beyond those that had to: freely many, none while its clock is gated (DESIGN
CHOICE, log 24). -/
def State.cyclesPassed (s : State) (sp : Nat) : Nat := if s.clockRuns sp then Config.freeNat s.tick 0 else 0

/-- They are counted, once in a step. -/
def State.passCycles (s : State) (sp : Nat) : State :=
  let n := s.cyclesPassed sp
  s.modSpindle sp fun x =>
    if x.looked == s.tick + 1 then x else { x.pass n with looked := s.tick + 1 }

/-- A frame's boost level; a base spindle has none. -/
def State.levelOf (s : State) (sp : Nat) : Nat := match frameOf sp with | none => 0 | some n => (s.frame n).lvl

/-- Before DRIFT or the level of a spindle changes: the cycle that has begun keeps those it began with (R124). -/
def State.keepCycle (s : State) (sp : Nat) : State :=
  (s.passCycles sp).modSpindle sp fun x => { x with cycleOf := some (x.cycleOf.getD (x.drift, s.levelOf sp)) }

/-- `$cycles` of a spindle as counted (R125). -/
def State.cycles (s : State) (sp : Nat) : Nat := nth (s.spindle sp).ctr 0 0

/-- What an issue adds to the classes of this cycle and the coming ones: its class while it is in X1 to X3, one cycle more for two passes (R74,
R119); nothing for a distaff (R116). -/
def Ctx.occupies (c : Ctx) (cls : Nat) : List Nat :=
  if c.dist then [] else 0 :: List.replicate (if c.strands.any (8 ≤ ·) && c.strands.any (· < 8) then 4 else 3) cls

/-- The slots an instruction issues over: its ply's home group; a distaff has a pipe of its own, written as slot 8 (R74, R116). -/
def Ctx.group (c : Ctx) : List Nat := if c.dist then [8] else (List.range (min c.nStrands 8)).map (c.ply.home + ·)

/-- The issue pipes of a spindle: four, and one of a base spindle (R119, R390). -/
def issuePipes (sp : Nat) : Nat := if isBase sp then 1 else 4

/-- An instruction may issue beside those of a cycle: one for each pipe at most, over slots of their own (R74, R120). -/
def fitsCycle (pipes : Nat) (g : List Nat) (issued : List (List Nat)) : Bool :=
  issued.all (fun i => i.all fun x => !g.contains x) && (g.contains 8 || decide ((issued.filter fun i => !i.contains 8).length < pipes))

/-- The cycles that hold an instruction back. -/
def Spindle.heldFor (x : Spindle) (pipes : Nat) (g : List Nat) : Nat := (x.taken.takeWhile fun issued => !fitsCycle pipes g issued).length

/-- An instruction takes its slots for n cycles. -/
def takeSlots (g : List Nat) : Nat → List (List (List Nat)) → List (List (List Nat))
  | 0, l => l
  | n + 1, [] => [g] :: takeSlots g n []
  | n + 1, i :: l => (i ++ [g]) :: takeSlots g n l

/-- The cycles before an issue pass: those that hold it back, and freely many, unless the step has counted them. -/
def Ctx.passToIssue (c : Ctx) (s : State) : State :=
  (s.modSpindle c.sp fun x => x.pass (x.heldFor (issuePipes c.sp) c.group)).passCycles c.sp

/-- The cycles for which an issue holds its slots: two for two passes, and for a distaff's instruction above C0 (R74, R116). -/
def Ctx.cyclesTaken (c : Ctx) (cls : Nat) : Nat :=
  if (if c.dist then cls != 0 else c.strands.any (8 ≤ ·) && c.strands.any (· < 8)) then 2 else 1

/-- The class at which a word's instruction issues (R91). -/
def wordClass (w : Word) : Option Nat :=
  match decode w 0 with
  | .instr i => (match i.row, i.fields with | some r, some f => some (max r.min f.tc.toNat) | _, _ => none)
  | _ => none

/-- The word of a line at an address. -/
def CodeLine.at (l : CodeLine) (va : Word) : Word := nth l.words (va.toNat % 64 / 8) 0

/-- The ceiling of a cycle: the largest class among the instructions issued in the two cycles before it (R121). -/
def Spindle.ceiling (x : Spindle) : Option Nat := (((x.near.drop 1).take 2).filterMap id).max?

/-- A path other than the issuing one is ready, and its next instruction has been fetched and is of a class above a ceiling (R120, R121). -/
def Ctx.rivals (c : Ctx) (s : State) (ceiling : Nat) : Bool :=
  (s.spindle c.sp).residents.any fun q => q.2.life == .running && q.2.pre == .no && (List.range q.2.plies.length).any fun n =>
    let p := q.2.ply n
    !p.stopped && p.held.isNone && (List.range 16).any fun i =>
      let e := nth p.paths i {}
      e.valid && e.st == .ready && !(q.1 == c.slot && n == c.plyNo && i == c.idx)
      && (p.fbuf.any fun l => l.addr == e.pc &&& ~~~63 && ((wordClass (l.at e.pc)).map fun k => decide (ceiling < k)).getD false)

/-- Affinity holds some candidate in the cycle of an issue. That a rival is one in just this cycle hangs on latencies, and is free (R121; DESIGN CHOICE,
log 24). -/
def Ctx.affinityHolds (c : Ctx) (s : State) : Bool :=
  !c.dist && s.affw != 0 && (((s.spindle c.sp).ceiling.map (c.rivals s)).getD false) && Config.freeBool s.tick 31

/-- The counters of an issue: the cycles that passed before it, the classes of those it is in, and one instruction. -/
def countIssue (c : Ctx) (cls : Nat) (s : State) : State :=
  let s := c.passToIssue s
  let held := c.affinityHolds s
  s.modSpindle c.sp fun x =>
    { x.count 5 1 with
      flow := maxFlow x.flow (c.occupies cls)
      taken := takeSlots c.group (c.cyclesTaken cls) x.taken
      near := if c.dist then x.near else some (max cls ((x.near.headD none).getD 0)) :: x.near.drop 1
      affHeld := x.affHeld || held
      lastPath := if c.dist then x.lastPath else some (.here c.slot c.plyNo c.idx) }

/-! ## Fault ring (R231) -/

/-- Number of records of the ring. -/
def ringSize (ctl : Word) : Nat := 2 ^ (fld ctl 0 4 + 4)

/-- The next position of a ring. -/
def ringNext (ctl : Word) (i : Nat) : Nat := (i + 1) % ringSize ctl

/-- Address bits [51:12] of a ring register. -/
def ringBase (ctl : Word) : Nat := fld ctl 12 40 * 4096

/-- The memory of the next n records of a ring can be reached (R382). -/
def State.ringReaches (s : State) (ctl : Word) (head n : Nat) : Bool :=
  (List.range n).all fun i => s.trained (offsetOf (ringBase ctl + 32 * ((head + i) % ringSize ctl)))

/-- The ring is enabled and not full, and the memory of its next record can be reached (R231, R382). -/
def State.ringRoom (s : State) : Bool :=
  s.fq.getLsbD 63 && ringNext s.fq s.fqHead != s.fqTail % ringSize s.fq && s.ringReaches s.fq s.fqHead 1

/-- The ring is enabled and full, with the records that wait for it. -/
def State.ringFull (s : State) : Bool :=
  s.fq.getLsbD 63 && decide ((s.fqTail + ringSize s.fq - s.fqHead - 1) % ringSize s.fq ≤ s.fqWait.length)

/-- Places of the ring that a party's records may take now; none where records wait already. -/
def State.ringFree (s : State) : Nat :=
  if s.ringRoom && s.fqWait.isEmpty then (s.fqTail + ringSize s.fq - s.fqHead - 1) % ringSize s.fq else 0

/-- A core replays: what interrupts it comes from its log (R372). -/
def SysCore.replaying (k : SysCore) : Bool := k.rplCtl.getLsbD 63 && k.rplCtl.getLsbD 62

/-- Raises the memory-fault interrupt on every system core that has it enabled. -/
def State.raiseFaultInterrupt (s : State) : State :=
  (List.range s.nCores).foldl (fun s n => s.modCore n fun k => if k.faultEn && !k.replaying then { k with faultPend := true } else k) s

/-- Writes a record at HEAD and advances HEAD; the caller has seen that there is room. -/
def State.ringWrite (s : State) (r : RingRec) : State :=
  let a := ringBase s.fq + 32 * s.fqHead
  let s := (((s.paWrite a 8 r.va).paWrite (a + 8) 8 r.word1).paWrite (a + 16) 8 r.info).paWrite (a + 24) 8 (BitVec.ofNat 64 s.time)
  { s with fqHead := ringNext s.fq s.fqHead }.raiseFaultInterrupt

/-- Writes a record, or lets it wait for room. -/
def State.ringPut (s : State) (r : RingRec) : State :=
  if s.fqWait.isEmpty && s.ringRoom then s.ringWrite r else { s with fqWait := s.fqWait ++ [r] }

/-- Writes the waiting records while there is room, with fuel for their number. -/
def ringFlushGo : Nat → State → State
  | 0, s => s
  | k + 1, s =>
    match s.fqWait with
    | [] => s
    | r :: l => if s.ringRoom then ringFlushGo k ({ s with fqWait := l }.ringWrite r) else s

/-- Writes the waiting records while there is room. -/
def State.ringFlush (s : State) : State := ringFlushGo s.fqWait.length s

/-- Word 0x08 of a record. -/
def ringWord1 (kind asid sp slot ply path tid : Nat) : Word :=
  BitVec.ofNat 64 (kind * 2 ^ 56 + asid % 256 * 2 ^ 48 + sp % 65536 * 2 ^ 32 + slot % 256 * 2 ^ 24 + ply % 256 * 2 ^ 16
    + path % 256 * 2 ^ 8 + tid % 256)

/-- A record of a party: KIND, and the reported thread. -/
def Ctx.ringRec (c : Ctx) (kind : Nat) (va info : Word) (tid : Option Nat) : RingRec :=
  { va, info, word1 := ringWord1 kind c.la.asid c.sp c.slot (if c.dist then 0xFF else c.plyNo) (if c.dist then 0xFF else c.idx)
      (if c.dist then 0xFF else tid.getD 0xFF) }

/-! ## The token (R332) -/

/-- The ply of a launch at a token position: skein index and ply number. -/
def Launch.tokenSpot (l : Launch) (pos : Nat) : Nat × Nat := (pos / max l.hdr.plies 1, pos % max l.hdr.plies 1)

/-- A launch is deterministic (R49). -/
def Launch.det (l : Launch) : Bool := decide (l.hdr.flags % 2 = 1) || decide (l.lrec.flags / 4 % 2 = 1)

/-- FTZ of a launch (R49). -/
def Launch.ftz (l : Launch) : Bool := decide (l.lrec.flags % 2 = 1)

/-- Number of skeins of a launch (R49). -/
def LRecord.skeins (r : LRecord) : Nat := r.gridX * r.gridY * r.gridZ

/-- The token leaves its ply: it travels to the next position, and TOKEN_ARRIVE brings it there. -/
def State.passToken (s : State) (acc : Nat) : State :=
  s.modLaunch acc fun l => { l with tokenAt := l.tokenAt + 1 }

/-! ## The queues of a spindle (R117) -/

/-- All 32 entries of the skein are held (R117). -/
def Skein.evFull (k : Skein) : Bool := decide (32 ≤ k.evq.length + k.evHeld)

/-- The skeins of a spindle, resident or saved. -/
def Spindle.skeins (x : Spindle) : List Skein := x.slots.filterMap id ++ x.saved.map fun v => v.sk

/-- Every identity in a queue of the spindle, of any skein, and those of released entries that wait for a place. -/
def Spindle.allIds (x : Spindle) : List Nat :=
  (x.cq.flatMap fun q => q.map fun k => k.id) ++ (x.mq.map fun k => k.id) ++ (x.xq.map fun k => k.id) ++ (x.xheld.map fun k => k.id)
  ++ x.skeins.flatMap fun k => k.statWait.map fun e => e.2.1

/-- Those of a list that have not completed. -/
def Spindle.pendingOf (x : Spindle) (ids : List Nat) : List Nat := ids.filter fun i => x.allIds.contains i

/-- A copy queue already holds 16 commands that have not started (R117). -/
def Spindle.cqFull (x : Spindle) (q : Nat) : Bool := decide (16 ≤ ((nth x.cq q []).filter fun k => !k.started).length)
def Spindle.mqFull (x : Spindle) : Bool := decide (16 ≤ (x.mq.filter fun k => !k.started).length)
def Spindle.xqFull (x : Spindle) : Bool := decide (16 ≤ (x.xq.filter fun k => !k.started).length)

/-- A command enters a copy queue, behind the join marks of its skein (R255). -/
def Spindle.enterCq (x : Spindle) (q : Nat) (k : CopyCmd) : Spindle := { x with cq := modNth x.cq q fun l => l ++ [k] }

/-! ## Static entries (R50, R253) -/

/-- The least stage count among the strands that have not exited; none when all have. -/
def Skein.leastStage (k : Skein) (w : Nat) : Option Nat :=
  (k.plies.flatMap fun p => ((List.range (w / 8)).filter fun st => !p.exited.getLsbD st).map fun st => nth p.stage st 0).min?

/-- The command of a static entry. -/
def staticCmd (id : Nat) (k : Skein) (n : Nat) (e : Word × Word) : CopyCmd :=
  let dir := fld e.2 2 2
  { id, uid := k.uid, who := none, strands := 0, issued := 0, kind := .cpy, dir, sks := e.2.getLsbD 8, ev := true, shape := e.1,
    loc := if dir % 2 = 0 then fld e.2 4 4 else fld e.2 32 20, bar := fld e.2 16 16, dval := 0, entry := some n,
    after := [], mig := none }

/-- The stage counter follows the least stage count; it keeps its value once every strand has exited (R253). -/
def Skein.countStage (k : Skein) (w : Nat) : Skein := { k with stageG := (k.leastStage w).getD k.stageG }

/-- The entries that the stage counter has reached are released, in order, while the skein has an event-queue entry for each one's record (R117,
R253); with fuel for the entries. -/
def releaseGo (l : Launch) (x : Spindle) : Nat → Nat → Skein → Nat × Skein
  | 0, seq, k => (seq, k)
  | fuel + 1, seq, k =>
    match nth (l.lrec.copies.map some) k.statNext none with
    | none => (seq, k)
    | some e =>
      if decide (k.statNext < l.lrec.copyCount) && decide (k.statNext ≤ k.stageG) && !k.evFull then
        releaseGo l x fuel (seq + 1)
          { k with statNext := k.statNext + 1, evHeld := k.evHeld + 1
                   statWait := k.statWait ++ [(k.statNext, seq, x.pendingOf (nth k.marks (fld e.2 0 2) []))] }
      else (seq, k)

/-- Released entries enter their queues while there are places, in one order over the four queues: one for a queue with room waits behind an earlier
one for a full queue (R258; DESIGN CHOICE, log 97). -/
def enterGo (l : Launch) : List (Nat × Nat × List Nat) → Skein → Spindle → Skein × Spindle
  | [], k, x => ({ k with statWait := [] }, x)
  | e :: rest, k, x =>
    let w := nth l.lrec.copies e.1 (0, 0)
    if x.cqFull (fld w.2 0 2) then ({ k with statWait := e :: rest }, x)
    else enterGo l rest k (x.enterCq (fld w.2 0 2) { staticCmd e.2.1 k e.1 w with after := x.pendingOf e.2.2 })

/-- Static entries are released and enter their queues as far as they may. -/
def State.releaseStatic (s : State) (sp slot : Nat) : State :=
  match s.skein? sp slot with
  | none => s
  | some k =>
    if k.life != .running || k.pre != .no then s
    else
      let l := s.launch k.launch
      let (seq, k) := releaseGo l (s.spindle sp) 16 s.opSeq (k.countStage l.width)
      let (k, x) := enterGo l k.statWait k (s.spindle sp)
      ({ s with opSeq := seq }.setSpindle sp x).setSkein sp slot (some k)

/-- The same for every skein of a spindle, when a place in a queue has become free. -/
def State.releaseSpindle (s : State) (sp : Nat) : State := (List.range 4).foldl (fun s slot => s.releaseStatic sp slot) s

/-! ## Ending a skein (R208, R118, R346) -/

/-- The strands of a declared width. -/
def allStrands (w : Nat) : BitVec 16 := BitVec.ofNat 16 (2 ^ (w / 8) - 1)

/-- EXM with all ones over a width. -/
def allThreads (w : Nat) : BitVec 128 := BitVec.ofNat 128 (2 ^ w - 1)

/-- A ply stopped for good. -/
def Ply.ended (p : Ply) (w : Nat) : Ply :=
  { p with
    exited := allStrands w, paths := p.paths.map fun _ => {}, held := none, defs := [], hdefs := [], pend := [], priv := [],
    trap := { p.trap with mode := false, paths := [] }, stopped := false, turn := false, token := false }

/-- The queues of a spindle without what an ended skein has not started; a running XRUN stops at its next checkpoint. -/
def Spindle.dropUnstarted (x : Spindle) (uid : Nat) : Spindle :=
  { x with
    cq := x.cq.map fun q => q.filter fun k => k.uid != uid || k.started
    mq := x.mq.filter fun k => k.uid != uid || k.started
    xq := x.xq.filter fun k => k.uid != uid || k.started
    xheld := x.xheld.filter fun h => h.uid != uid }

/-- A party belongs to a skein slot. -/
def inSlot (p : Party) (sp slot : Nat) : Bool :=
  match p with
  | .core _ => false
  | .dist a b => a == sp && b == slot
  | .path a b _ _ => a == sp && b == slot

/-- R208: the skein stops; its loads in flight and unmade offers are abandoned, its unstarted commands and undelivered entries are
discarded, its side logs drain, and its launch's outcome is ENDED. A static entry that waited for one of the places takes it (R258). -/
def State.endSkein (s : State) (sp slot : Nat) : State :=
  match s.skein? sp slot with
  | none => s
  | some k =>
    let l := s.launch k.launch
    let held := k.plies.any fun p => p.turn
    let s := s.setSkein sp slot (some { k with
      life := .ended, dq := [], statNext := 16, statWait := [], evHeld := 0
      dist := { k.dist with exited := true, wait := .none, held := none, defs := [], hdefs := [], pend := [],
                            trap := { k.dist.trap with mode := false } }
      plies := k.plies.map fun p => p.ended l.width })
    let s := s.modSpindle sp fun x => x.dropUnstarted k.uid
    let s := { s with offers := s.offers.filter fun o => !inSlot o.who sp slot }
    let s := s.modLaunch k.launch fun l => { l with anyEnded := true }
    (if held then s.passToken k.launch else s).releaseSpindle sp

/-! ## Region values (R58, R59) -/

/-- The block of an address as read. -/
def State.rcb? (s : State) (a : Nat) : Option Rcb := s.rcbs.find? fun r => r.addr == a

/-- A chain of blocks from a region to its root, at most 8 (R58). -/
def rcbChainGo (s : State) : Nat → Nat → List Rcb
  | 0, _ => []
  | k + 1, a =>
    match s.rcb? a with
    | none => []
    | some r => r :: (if r.parent = 0 then [] else rcbChainGo s k r.parent)

def State.rcbChain (s : State) (a : Nat) : List Rcb := rcbChainGo s 8 a

/-- An inherited field that is taken as a whole: the nearest block whose bit is set. -/
def effOwn {α : Type} (bit : Nat) (g : Rcb → α) (d : α) (chain : List Rcb) : α :=
  match chain.find? fun r => r.inherit / 2 ^ bit % 2 == 1 with
  | some r => g r
  | none => d

/-- A budget field: the least of the own values on the chain. -/
def effMin (bit : Nat) (g : Rcb → Nat) (d : Nat) (chain : List Rcb) : Nat :=
  (chain.filter fun r => r.inherit / 2 ^ bit % 2 == 1).foldl (fun m r => min m (g r)) d

/-- The effective trap handler of a launch's region, 0 for none (R58, R350). -/
def State.handlerOf (s : State) (l : Launch) : Word := effOwn 7 Rcb.handler 0 (s.rcbChain l.lrec.region.toNat)

/-- The effective rflags: TRAP_UE (R58). -/
def State.trapUe (s : State) (l : Launch) : Bool := effOwn 2 Rcb.rflags 0 (s.rcbChain l.lrec.region.toNat) % 2 == 1

/-! ## Traps (R340 to R350) -/

/-- The code of R341. -/
def TrapKind.code : TrapKind → Nat
  | .illegalOpcode => 0x01 | .illegalField => 0x02 | .unitAbsent => 0x03 | .privilege => 0x04 | .pcAlign => 0x05
  | .fetchFault => 0x06 | .addrRange => 0x07 | .scratchLimit => 0x08 | .nbrRange => 0x09 | .privateLimit => 0x0A
  | .atomAlign => 0x0B | .gatedTarget => 0x0C | .accessFault => 0x0D | .misalignedAttr => 0x0E | .tableFault => 0x0F
  | .recAlign => 0x10 | .copyArg => 0x11 | .matrixArg => 0x12 | .xbarArg => 0x13 | .syncArg => 0x14 | .dqDrained => 0x15
  | .detToken => 0x16 | .userTrap => 0x17 | .syscall => 0x18 | .breakpoint => 0x19 | .uncorrected => 0x1A

/-- PREC of trap.cause. -/
def Precision.code : Precision → Nat
  | .precise => 0 | .deferred => 1 | .imprecise => 2

/-- trap.cause (R345). -/
def trapCause (dist : Bool) (ply path : Nat) (t : TrapRec) : Word :=
  let e := if dist then none else t.elem
  BitVec.ofNat 64 ((if dist then 2 ^ 63 else 0) + (if e.isSome then 2 ^ 62 else 0) + (if t.guard then 2 ^ 61 else 0)
    + t.prec.code * 2 ^ 59 + t.check % 16 * 2 ^ 52 + (if dist then 0 else path % 16) * 2 ^ 48
    + (if dist then 0 else ply % 16) * 2 ^ 40 + t.imm.toNat * 2 ^ 32 + e.getD 0 % 128 * 2 ^ 8 + t.kind.code)

/-- R342 step 1: a sibling leaves its wait and re-executes the instruction; a wait after an arrival, a debug hold, a counted fence
and a value on its way are kept. -/
def Path.leaveWait (e : Path) : Path :=
  match e.wait with
  | .barx .. | .debug | .commands _ | .remote .. => e
  | .launch f rs _ => { e with wait := .launch f rs false, st := .ready }
  | _ => if e.st == .exited then e else { e with st := .ready, wait := .none }

/-- The path table with one path at an address in handler mode (R342 step 4). -/
def handlerPaths (w : Nat) (pc : Word) : List Path :=
  { valid := true, pc := pc, strands := allStrands w } :: List.replicate 15 {}

/-- R342: the ply's state is set aside, the trap registers are written, and the handler starts over all strands. -/
def Ply.enterHandler (p : Ply) (plyNo w : Nat) (cause epc addr handler : Word) (path : Nat) : Ply :=
  { p with
    trap := { p.trap with
      mode := true, cause := cause, epc := epc &&& ~~~7, addr := addr, sel := BitVec.ofNat 4 plyNo,
      paths := p.paths.map Path.leaveWait, exm := p.exm, flags := p.flags, path := path }
    paths := handlerPaths w handler, exm := allThreads w, flags := 0, held := none
    hpos := List.replicate 16 0, hdefs := [] }

/-- The wait a distaff keeps across a trap: an arrival, a counted fence, a value on its way, and offers made so far. -/
def keptWait (w : Wait) : Wait :=
  match w with
  | .tbar .. | .barx .. | .commands _ | .remote .. => w
  | .launch f rs _ => .launch f rs false
  | _ => .none

/-- The same for a distaff. -/
def Dist.enterHandler (d : Dist) (cause epc addr handler : Word) : Dist :=
  { d with
    trap := { d.trap with mode := true, cause := cause, epc := epc &&& ~~~7, addr := addr, sel := 0, wait := keptWait d.wait }
    pc := handler, wait := .none, held := none, hpos := 0, hdefs := [] }

/-- Removes the offers of a ply that leaves the arbiter. -/
def State.dropOffers (s : State) (c : Ctx) : State :=
  { s with offers := s.offers.filter fun o =>
      match o.who with
      | .core _ => true
      | .dist a b => !(c.dist && a == c.sp && b == c.slot)
      | .path a b p _ => !(!c.dist && a == c.sp && b == c.slot && p == c.plyNo) }

/-- The party is held at an instruction: for its pages (R227), or for room in the ring (R231). -/
def Ctx.hold (c : Ctx) (ins : Option Instr) (pages : List Word) (s : State) : State :=
  let h : Held := { path := c.idx, ins, pages, woken := false }
  if c.dist then c.modDist s fun d => { d with held := some h } else c.modPly s fun p => { p with held := some h }

/-- The party is held because it needs a record, for which the ring has no room (R231). -/
def Ctx.holdRing (c : Ctx) (ins : Option Instr) (s : State) : State :=
  let h : Held := { path := c.idx, ins, pages := [], woken := false, ring := true }
  if c.dist then c.modDist s fun d => { d with held := some h } else c.modPly s fun p => { p with held := some h }

/-- A trap of the party would end its skein: in handler mode, or without a handler (R350). -/
def Ctx.unhandled (c : Ctx) (s : State) : Bool := c.handler || s.handlerOf c.la == 0

/-- A trap of the party must wait: its UNHANDLED record finds no room in the ring (R231). -/
def Ctx.trapWaits (c : Ctx) (s : State) : Bool := c.unhandled s && s.ringFree == 0

/-- A handler would start while a sibling path is inside a remote access, so that it has not stopped at a boundary (R317, R342 step 1). -/
def Ctx.siblingsOut (c : Ctx) (s : State) : Bool :=
  !c.dist && !c.unhandled s && c.ply.paths.any fun e => match e.wait with | .remote .. => true | _ => false

/-- A trap of the party must wait: for room for its record, or for its siblings. -/
def Ctx.trapStops (c : Ctx) (s : State) : Bool := c.trapWaits s || c.siblingsOut s

/-- The party is held until its trap may be taken; it then starts again at its fetch. -/
def Ctx.holdTrap (c : Ctx) (s : State) : State := if c.trapWaits s then c.holdRing none s else c.hold none [] s

/-- Taking a trap (R342, R350): the one operation every trap of every precision goes through. With a handler and outside handler
mode the handler starts, once every sibling stands at a boundary; otherwise the skein ends and an UNHANDLED record is written, for whose room the
party waits, held. -/
def takeTrap (c : Ctx) (t : TrapRec) (epc : Word) (s : State) : State :=
  let h := s.handlerOf c.la
  let cause := trapCause c.dist c.plyNo c.idx t
  if c.trapStops s then c.holdTrap s
  else if c.unhandled s then
    (s.endSkein c.sp c.slot).ringWrite (c.ringRec 5 t.addr cause t.elem)
  else
    let s := s.dropOffers c
    if c.dist then c.modDist s fun d => d.enterHandler cause epc t.addr h
    else c.modPly s fun p => p.enterHandler c.plyNo c.w cause epc t.addr h c.idx

/-- A path without the strands that have exited in the handler; an exited entry is kept. -/
def Path.without (gone : BitVec 16) (e : Path) : Path :=
  let left := e.strands &&& ~~~gone
  if e.st == .exited then e else if left == 0 then {} else { e with strands := left }

/-- A deferred write of one of the strands is outstanding, of the handler or of before it. -/
def Ply.outstanding (p : Ply) (strands : BitVec 16) : Bool := (p.defs ++ p.hdefs).any fun e => strands.getLsbD e.strand

/-- R111: an exited path's entry is free once its deferred writes have landed. -/
def Ply.freeExited (p : Ply) : Ply :=
  { p with paths := p.paths.map fun e => if e.valid && e.st == .exited && !p.outstanding e.strands then {} else e }

/-- A path table without the strands that have exited in the handler: those of an entry that goes on have an exited entry of their own until their
deferred writes have landed (R111, R348). -/
def dropGone (gone : BitVec 16) (l : List Path) : List Path :=
  l.foldl (fun acc e =>
    if e.valid && e.st != .exited && e.strands &&& gone != 0 then
      match acc.findIdx? fun x => !x.valid with
      | some i => modNth acc i fun _ => { e with strands := e.strands &&& gone, st := .exited, wait := .none }
      | none => acc
    else acc) (l.map (Path.without gone))

/-- ERET (R348): what was set aside becomes current, the trapping path resumes at trap.epc, and the fetch buffer is discarded. -/
def Ply.leaveHandler (p : Ply) : Ply :=
  Ply.freeExited { p with
    paths := dropGone p.exited (modNth p.trap.paths p.trap.path fun e =>
      if e.pc == p.trap.epc then e else { e with pc := p.trap.epc, st := .ready, wait := .none })
    exm := p.trap.exm, flags := p.trap.flags, fbuf := []
    trap := { p.trap with mode := false, paths := [] }, hdefs := [] }

def Dist.leaveHandler (d : Dist) : Dist :=
  { d with pc := d.trap.epc, wait := d.trap.wait, fbuf := [], trap := { d.trap with mode := false }, hdefs := [] }

/-! ## The checks of R100 at execution -/

/-- A decode trap: the failing check, and the instruction word. -/
def decodeTrap (kind : TrapKind) (check : Nat) (w : Word) : TrapRec :=
  { kind, check, addr := w, guard := kind == .illegalOpcode && w == 0 }

/-- Check 4 (R98). -/
def runsOk (r : Runs) (dist : Bool) : Bool :=
  match r with
  | .both => true
  | .ply => !dist
  | .dist => dist

/-- A scalar source code is legal (R88). -/
def scalarOk (dist dst : Bool) (n : Nat) : Bool :=
  decide (n < (if dist then 0x20 else 0x80)) || (!dst && decide (0x80 ≤ n) && decide (n < 0x90))

/-- A vector register field of a span is legal (R20, R88, R171). -/
def vectorOk (vregs : Nat) (span : Span) (ty sty : Ty) (n : Nat) : Bool :=
  let wide := match span with
    | .one => false
    | .byTy => ty.bits == 64
    | .bySrcTy => sty.bits == 64
    | .pair => true
    | .run _ => false
  match span with
  | .run k => n % k == 0 && decide (n + k - 1 < vregs)
  | _ => decide (n < vregs) && (!wide || (n % 2 == 0 && decide (n + 1 < vregs)))

/-- Check 6 for one field. -/
def regFieldOk (cl : FieldClass) (c : Ctx) (f : Fields) (v : BitVec 8) : Bool :=
  let n := v.toNat
  match cl with
  | .zero | .imm => true
  | .vecSrc s | .vecDst s => vectorOk c.la.hdr.vregs s f.ty f.srcTy n
  | .scalSrc => scalarOk c.dist false n
  | .scalDst => scalarOk c.dist true n
  | .maskSrc => scalarOk c.dist false n && (decide (0x80 ≤ n) || c.w != 128 || n % 2 == 0)
  | .maskDst => scalarOk c.dist true n && (c.w != 128 || n % 2 == 0)
  | .scalRun k => n % k == 0 && scalarOk c.dist true (n + k - 1) && scalarOk c.dist true n
  | .tile => decide (n < c.la.hdr.tiles) && decide (n < 16)

/-- The four classes of a word as this party executes it. -/
def Ctx.classes (c : Ctx) (i : Instr) (r : OpRow) (f : Fields) : FieldClass × FieldClass × FieldClass × FieldClass :=
  i.classes r f f.u c.dist

/-- Check 6 (R88), and the register that names the spindle of a `.n` access (R192). -/
def Ctx.regsOk (c : Ctx) (i : Instr) (r : OpRow) (f : Fields) : Bool :=
  let (d, a, b, e) := c.classes i r f
  regFieldOk d c f f.d && regFieldOk a c f f.a && regFieldOk b c f f.b && regFieldOk e c f f.c
  && (match r.rule, f.x with
      | .memory .., some x => !(f.low2 == 2 && f.m.getLsbD 6) || scalarOk c.dist false (extSpn x)
      | _, _ => true)

/-- Check 7 (R7, R98, R193). CPYK needs the scale memory, which a base spindle has not (R390; DEDUCED, log 75). -/
def Ctx.unitOk (c : Ctx) (s : State) (r : OpRow) (f : Fields) : Bool :=
  (match r.unit with
   | .always => true
   | .matrix | .crossbar => !isBase c.sp
   | .sparse => !isBase c.sp && s.hasSparse
   | .tree => s.hasTree
   | .vfifo => s.hasBsv)
  && !(isBase c.sp && f.low2 == 2 && (match r.rule with | .memory .. | .prefetch => true | _ => false)) && !(isBase c.sp && r.opc == 0xA4)

/-- Check 8 for the opcodes that are privileged as a whole (R209, R252). -/
def Ctx.privOk (c : Ctx) (r : OpRow) : Bool :=
  match r.rule with
  | .migrate => false
  | _ => !(r.opc == 0x05 && r.fn == 2) || c.handler

/-- Checks 4 to 8 of R100 in order, as far as they do not need an operand's value. -/
def Ctx.checks (c : Ctx) (s : State) (i : Instr) (r : OpRow) (f : Fields) : Option TrapRec :=
  let w := f.toWord r.opc r.fn
  if !runsOk r.runs c.dist then some (decodeTrap .illegalOpcode 4 w)
  else if c.dist && !r.distFieldsOk f then some (decodeTrap .illegalField 5 w)
  else if !c.regsOk i r f then some (decodeTrap .illegalField 6 w)
  else if !c.unitOk s r f then some (decodeTrap .unitAbsent 7 w)
  else if !c.privOk r then some (decodeTrap .privilege 8 w)
  else none

/-! ## The registers an instruction reads and writes (R93) -/

/-- The keys of a field. -/
def fieldKeys (cl : FieldClass) (c : Ctx) (f : Fields) (v : BitVec 8) : List Nat :=
  let n := v.toNat
  let scal := if n < 0x80 then [2 * n + 1] else []
  match cl with
  | .zero | .imm | .tile => []
  | .vecSrc s | .vecDst s =>
    (match s with
     | .one => [2 * n]
     | .byTy => if f.ty.bits == 64 then [2 * n, 2 * n + 2] else [2 * n]
     | .bySrcTy => if f.srcTy.bits == 64 then [2 * n, 2 * n + 2] else [2 * n]
     | .pair => [2 * n, 2 * n + 2]
     | .run k => (List.range k).map fun j => 2 * (n + j))
  | .scalSrc | .scalDst => scal
  | .maskSrc | .maskDst => if c.w == 128 && n < 0x80 then [2 * n + 1, 2 * n + 3] else scal
  | .scalRun k => (List.range k).map fun j => 2 * (n + j) + 1

/-- Every register the word names, the spindle register of a `.n` access included. -/
def Ctx.keys (c : Ctx) (i : Instr) (r : OpRow) (f : Fields) : List Nat :=
  let (d, a, b, e) := c.classes i r f
  fieldKeys d c f f.d ++ fieldKeys a c f f.a ++ fieldKeys b c f f.b ++ fieldKeys e c f f.c
  ++ (match r.rule, f.x with
      | .memory .., some x => if f.low2 == 2 && f.m.getLsbD 6 then fieldKeys .scalSrc c f (BitVec.ofNat 8 (extSpn x)) else []
      | _, _ => [])

/-- The party's writes due below its positions are performed. -/
def Ctx.landed (c : Ctx) (s : State) : State :=
  if c.dist then c.modDist s fun d => d.land d.curPos
  else c.modPly s fun p => c.strands.foldl (fun p st => p.land st (p.curPos st)) p

/-- Some register of the list has an overdue write outstanding in a strand of the path (R93). -/
def Ctx.waits (c : Ctx) (keys : List Nat) : Bool :=
  if c.dist then mustWait 0 c.sk.dist.curPos keys c.sk.dist.curDefs
  else c.strands.any fun st => mustWait st (c.ply.curPos st) keys c.ply.curDefs

/-- The instruction's value comes after it has ended, whatever its lookahead: a copy's status word, and what a crossbar read returns (R247,
R293). -/
def laterValue (r : OpRow) : Bool := [0xA0, 0xA1, 0xA2, 0xA3, 0xA4, 0xC2, 0xC8, 0xC9].contains r.opc

/-- The field class names a register that is written. -/
def isDst (cl : FieldClass) : Bool :=
  match cl with
  | .vecDst _ | .scalDst | .maskDst => true
  | _ => false

/-- A constant source (R89). -/
def Ctx.constK (c : Ctx) (code : Nat) : Word :=
  match code with
  | 0x81 => 1
  | 0x82 => ones64
  | 0x83 => BitVec.ofNat 64 c.width
  | 0x84 => 2
  | 0x85 => 4
  | 0x86 => 8
  | 0x87 => 0x3F800000
  | 0x88 => 0x3F000000
  | 0x89 => 0x40000000
  | 0x8A => 0xBF800000
  | 0x8B => 0x7FC00000
  | 0x8C => BitVec.ofNat 64 c.w
  | 0x8D => if c.dist then ones64 else BitVec.ofNat 64 c.plyNo
  | 0x8E => BitVec.ofNat 64 c.la.hdr.plies
  | 0x8F => 0x8000000000000000
  | _ => 0

/-- A scalar code read by a strand: its own S copy, a D register, or a constant (R88, R97, R151). -/
def Ctx.rdScal (c : Ctx) (st : Nat) (code : Nat) : Word :=
  if 0x80 ≤ code then c.constK code
  else if c.dist then c.sk.dist.rdD code
  else c.ply.rdS code st

/-- A scalar field read from the copy of the path's lowest-numbered strand (R261, R293, R320). -/
def Ctx.rd1 (c : Ctx) (v : BitVec 8) : Word := c.rdScal c.first v.toNat

/-- The thread whose value BCAST sends, when it is active (R179). -/
def Ctx.bcastFrom (c : Ctx) (f : Fields) : Option Nat :=
  let b := (if f.src = 1 then c.rd1 f.b else f.b.signExtend 64).toNat % 2 ^ 32
  if b = 0xFFFFFFFF then c.active.head? else if c.active.contains b then some b else none

/-- BCAST in a form that writes nothing: without DV, and without an active source (R179). -/
def Ctx.sendsNothing (c : Ctx) (i : Instr) : Bool :=
  match i with
  | .bcast f => !f.m.getLsbD 3 && (c.bcastFrom f).isNone
  | _ => false

/-- The strands in which an instruction would leave a write still to land: none where it writes no register, or writes it at its own position at
once. A lane instruction writes in the strands with an active thread, an engine command in all when it is made. -/
def Ctx.deferring (c : Ctx) (i : Instr) (r : OpRow) (f : Fields) : List Nat :=
  let d := (c.classes i r f).1
  if !(r.la && isDst d && (c.lookahead f != 0 || laterValue r)) || c.sendsNothing i then []
  else if c.dist || f.u || r.opc == 0xA5 then c.strands
  else if d == .scalDst && laterValue r then (if c.active.isEmpty then [] else c.strands)
  else c.strands.filter c.touched

/-- A strand of the list already holds sixteen deferred writes, those that a trap has set aside among them (R94, R95). -/
def Ctx.fullIn (c : Ctx) (sts : List Nat) : Bool :=
  let held := if c.dist then c.sk.dist.defs ++ c.sk.dist.hdefs else c.ply.defs ++ c.ply.hdefs
  sts.any fun st => decide (16 ≤ (held.filter fun e => e.strand == st).length)

/-- A strand of the party already holds sixteen deferred writes, and the instruction would leave another in it (R94). -/
def Ctx.defersFull (c : Ctx) (i : Instr) (r : OpRow) (f : Fields) : Bool := c.fullIn (c.deferring i r f)

/-- The strands in which a value on its way to a register may have to be kept as a deferred write (R352). -/
def Ctx.receiving (c : Ctx) : List Nat := if c.dist then c.strands else c.strands.filter c.touched

/-- The pending deferred and imprecise traps that this party may take at its boundary, oldest first (R340, R349): a path takes its
own, those of an entry that no longer exists, and the imprecise ACCESS_FAULT of its ply's log. -/
def Ctx.pending (c : Ctx) : List TrapRec :=
  if c.handler then []
  else if c.dist then c.sk.dist.pend
  else c.ply.pend.filter fun t =>
    match t.strand with
    | none => true
    | some st => c.strands.contains st || c.ply.exited.getLsbD st

/-- A pending trap is taken at this boundary. -/
def takePending (c : Ctx) (t : TrapRec) (s : State) : State :=
  if c.trapStops s then c.holdTrap s
  else
    takeTrap c t c.pc
      (if c.dist then c.modDist s fun d => { d with pend := d.pend.erase t } else c.modPly s fun p => { p with pend := p.pend.erase t })

/-- A party that must wait at its instruction is no candidate meanwhile, and issues it again (R120). -/
def Ctx.again (c : Ctx) (s : State) : State :=
  if c.dist then s else c.modPath s fun e => if e.wait == .none then { e with wait := .again } else e

/-- How the result of a meaning becomes the next state (R349): a failing check comes first, then a pending trap, then the
effect. -/
def settle (c : Ctx) (cls : Nat) (f : Fields) (s : State) (e : Eff) : State :=
  match e, c.pending with
  | .trap t, _ => takeTrap c t c.pc s
  | .trapWith s' t, _ => if c.trapStops s' then (if c.trapWaits s' then c.holdRing none s else c.hold none [] s) else takeTrap c t c.pc s'
  | .await s', _ => c.again s'
  | _, t :: _ => takePending c t s
  | .done s', [] => countIssue c cls s'
  | .raise t, [] =>
    if c.trapStops s then c.holdTrap s
    else countIssue c cls (takeTrap c t (c.pc + Fields.size f) (c.writes f 0 (fun _ => []) (fun _ => 0) s))
  | .stall s', [] => c.again s'
  | .looked s' e, _ => settle c cls f s' e

/-- The shape of every instruction of a ply or distaff: the checks of R100, the waits of R93 and R94, then its own part on the
operands as of its position. A system core refuses (DESIGN CHOICE, log 5); a party that is not there changes nothing. -/
def guarded (i : Instr) (s : State) (body : Fields → Ctx → State → Eff) : Outcome State Fault Refusal :=
  match s.ctx? s.cur, i.row, i.fields with
  | none, _, _ =>
    match s.cur with
    | .core _ => .refused .coreIsaNotGiven
    | _ => .next s
  | some c, some r, some f =>
    match c.checks s i r f with
    | some t => .next (settle c r.min f s (.trap t))
    | none =>
      let s := c.landed s
      match s.ctx? s.cur with
      | none => .next s
      | some c =>
        if c.waits (c.keys i r f) then .next (c.again s)
        else
          let e := body f c s
          .next (settle c (max r.min f.tc.toNat) f s (if c.defersFull i r f then e.delayed s else e))
  | some _, _, _ => .next s

end Sys2Proof.Machine
end

