-- ==== Sys2Proof/Machine/Operands.lean ====
section
/-! DEFINITION. Operand forms: vector, mask and immediate operands (R150, R158), and how a result fills its
destination (R90, R152, R159). -/

namespace Sys2Proof.Machine

/-- A vector register or pair of a thread, as 64 bits (R20, R152). -/
def Ctx.rdVec (c : Ctx) (wide : Bool) (r t : Nat) : Word :=
  if wide then (c.ply.rdV (r + 1) t ++ c.ply.rdV r t : BitVec 64) else (c.ply.rdV r t).setWidth 64

/-- A span names a pair. -/
def spanWide (s : Span) (f : Fields) : Bool :=
  match s with
  | .one | .run _ => false
  | .byTy => f.ty.bits == 64
  | .bySrcTy => f.srcTy.bits == 64
  | .pair => true

/-- The eight mask bits of a strand in a mask operand (R158, R184, R190). -/
def Ctx.maskByte (c : Ctx) (code st : Nat) : BitVec 8 :=
  let v := c.rdScal st (if 0x80 ≤ code then code else code + st / 8)
  BitVec.ofNat 8 (v.toNat / 2 ^ (8 * (st % 8)))

/-- A thread's bit of a mask operand, in its strand's copy. -/
def Ctx.maskBit (c : Ctx) (code t : Nat) : Bool := (c.maskByte code (t / 8)).getLsbD (t % 8)

/-- A strand's copy of a mask operand is nonzero, in either register of a pair (R158, R161). -/
def Ctx.maskAny (c : Ctx) (code st : Nat) : Bool :=
  c.rdScal st code != 0 || (c.w == 128 && decide (code < 0x80) && c.rdScal st (code + 1) != 0)

/-- An operand of a thread by its field's class; a mask operand reads as the thread's bit, in the uniform form as whether it is nonzero (R161). -/
def Ctx.opnd (c : Ctx) (cl : FieldClass) (f : Fields) (v : BitVec 8) (st t : Nat) : Word :=
  match cl with
  | .zero | .tile => 0
  | .imm => v.signExtend 64
  | .vecSrc s | .vecDst s => c.rdVec (spanWide s f) v.toNat t
  | .scalSrc | .scalDst | .scalRun _ => c.rdScal st v.toNat
  | .maskSrc | .maskDst => if (if f.u then c.maskAny v.toNat st else c.maskBit v.toNat t) then 1 else 0

/-- A value filled to an S or D register (R90). -/
def fillS (ty : Ty) (x : Word) : Word :=
  let n := x.toNat % 2 ^ ty.bits
  if ty.signed && decide (2 ^ (ty.bits - 1) ≤ n) then BitVec.ofNat 64 (n + (2 ^ 64 - 2 ^ ty.bits)) else BitVec.ofNat 64 n

/-- A value written to a V register or pair of a thread (R152). -/
def vecWrites (wide : Bool) (r t : Nat) (x : Word) : List RegWrite :=
  if wide then [.v r t (x.setWidth 32), .v (r + 1) t ((x >>> 32).setWidth 32)] else [.v r t (x.setWidth 32)]

/-- A result written to its destination by the field's class. -/
def resultWrites (cl : FieldClass) (f : Fields) (ty : Ty) (v : BitVec 8) (t : Nat) (x : Word) : List RegWrite :=
  match cl with
  | .vecDst s | .vecSrc s => vecWrites (spanWide s f) v.toNat t x
  | .scalDst | .scalSrc => [wrAll v.toNat (fillS ty x)]
  | _ => []

/-- The threads of the path, active or not, as a set. -/
def Ctx.pathThreads (c : Ctx) : BitVec 128 :=
  BitVec.ofNat 128 (c.strands.foldl (fun n st => n + 255 * 2 ^ (8 * st)) 0)

/-- A set of threads from a predicate. -/
def threadSet (l : List Nat) (p : Nat → Bool) : BitVec 128 :=
  BitVec.ofNat 128 (l.foldl (fun n t => if p t then n + 2 ^ t else n) 0)

/-- A set of threads written as a mask in one copy of the destination: bits of threads of the path, and bits at or beyond W, are
replaced; other bits keep that copy's old value (R159, R190). -/
def Ctx.maskWrites (c : Ctx) (r : Nat) (bits : BitVec 128) : List RegWrite :=
  let mask := c.pathThreads ||| ~~~(allThreads c.w)
  let lo : RegWrite := .s r (mask.setWidth 64) (bits.setWidth 64)
  if c.w == 128 then [lo, .s (r + 1) ((mask >>> 64).setWidth 64) ((bits >>> 64).setWidth 64)] else [lo]

/-- The compare result of the uniform form and of distaff code (R159). -/
def allOnesIf (b : Bool) : Word := if b then ones64 else 0

/-- The registers of a mask destination, which all take the value: the pair of a 128-wide ply (R158), one D register of a distaff. -/
def Ctx.maskFill (c : Ctx) (r : Nat) (x : Word) : List RegWrite :=
  wrAll r x :: (if !c.dist && c.w == 128 then [wrAll (r + 1) x] else [])

/-! ## The lane-wise shape (R151) -/

/-- An instruction that computes one result per active thread, or one per strand in the uniform form and one in distaff code. A strand
without an active thread contributes no flags, in the uniform form too (R141).
`g` takes the strand, the thread, and the three operands. -/
def laneWise (i : Instr) (ty : Fields → Ty) (g : Fields → Ctx → Word → Word → Word → Word × FFlags) (f : Fields) (c : Ctx)
    (s : State) : Eff :=
  match i.row with
  | none => .stall s
  | some r =>
    let (dc, ac, bc, cc) := c.classes i r f
    let one := fun st t => g f c (c.opnd ac f f.a st t) (c.opnd bc f f.b st t) (c.opnd cc f f.c st t)
    if f.u || c.dist then
      .done (c.finish f 0 (fun st => resultWrites dc f (ty f) f.d (8 * st) (one st (8 * st)).1)
        (fun st => if c.touched st then (one st (8 * st)).2 else 0) s)
    else
      .done (c.finish f 0
        (fun st => (activeIn c.ply.exm st).flatMap fun t => resultWrites dc f (ty f) f.d t (one st t).1)
        (fun st => (activeIn c.ply.exm st).foldl (fun fl t => fl ||| (one st t).2) 0) s)

/-- A compare: a mask result under R159, or all ones or zero in the uniform form and in distaff code; on a 128-wide ply in both registers of the
pair, so that it tests nonzero in every strand (DEDUCED, log 63). -/
def laneCompare (i : Instr) (g : Fields → Ctx → Word → Word → Bool × FFlags) (f : Fields) (c : Ctx) (s : State) : Eff :=
  match i.row with
  | none => .stall s
  | some r =>
    let (_, ac, bc, _) := c.classes i r f
    let one := fun st t => g f c (c.opnd ac f f.a st t) (c.opnd bc f f.b st t)
    if f.u || c.dist then
      .done (c.finish f 0 (fun st => c.maskFill f.d.toNat (allOnesIf (one st (8 * st)).1))
        (fun st => if c.touched st then (one st (8 * st)).2 else 0) s)
    else
      let bits := threadSet c.active fun t => (one (t / 8) t).1
      .done (c.finish f 0 (fun st => if c.touched st then c.maskWrites f.d.toNat bits else [])
        (fun st => (activeIn c.ply.exm st).foldl (fun fl t => fl ||| (one st t).2) 0) s)

end Sys2Proof.Machine
end

