-- ==== Sys2Proof/Machine/Records.lean ====
section
/-! DEFINITION. The accounting ring: tile stamp records and path records (R366 to R368). -/

namespace Sys2Proof.Machine

/-- Free places of the accounting ring, of which one always stays empty (R367). -/
def State.strFree (s : State) : Nat := (s.strTail + ringSize s.string - s.strHead - 1) % ringSize s.string

/-- The places of the next n records can be reached (R382). -/
def State.strReady (s : State) (n : Nat) : Bool := s.ringReaches s.string s.strHead n

/-- Writes one record of four words at HEAD. -/
def State.strWrite (s : State) (r : List Word) : State :=
  let a := ringBase s.string + 32 * s.strHead
  let s := ((((s.paWrite a 8 (nth r 0 0)).paWrite (a + 8) 8 (nth r 1 0)).paWrite (a + 16) 8 (nth r 2 0)).paWrite (a + 24) 8 (nth r 3 0))
  { s with strHead := ringNext s.string s.strHead }

/-- Records of a launch written together, or dropped together and counted in LOST (R367, R368); their stores wait for the ring's device (R382). -/
def State.strPut (s : State) (acc : Nat) (rs : List (List Word)) : State :=
  if s.string.getLsbD 63 && decide (rs.length + (s.strWait.map fun r => r.2.length).sum ≤ s.strFree) then
    if s.strWait.isEmpty && s.strReady rs.length then rs.foldl State.strWrite s else { s with strWait := s.strWait ++ [(acc, rs)] }
  else { s with strLost := min (s.strLost + rs.length) 0xFFF }

/-- The stores of waiting records that may be performed now, with fuel for their number. -/
def strFlushGo : Nat → State → State
  | 0, s => s
  | n + 1, s =>
    match s.strWait with
    | [] => s
    | (_, rs) :: l => if s.strReady rs.length then strFlushGo n (rs.foldl State.strWrite { s with strWait := l }) else s

def State.strFlush (s : State) : State := strFlushGo s.strWait.length s

/-- Word 0x00 of a record (R366, R368). -/
def recWord0 (kind end_ pre hi slot tile sp path skein : Nat) : Word :=
  BitVec.ofNat 64 (kind * 2 ^ 62 + end_ * 2 ^ 60 + pre * 2 ^ 59 + hi * 2 ^ 58 + slot * 2 ^ 56 + tile * 2 ^ 52 + sp * 2 ^ 40
    + path % 16 * 2 ^ 36 + skein % 2 ^ 32)

/-! ## Stamps (R366) -/

/-- A 16-bit interval, saturating. -/
def span16 (a b : Nat) : Nat := min (b - a) 0xFFFF

/-- The record of an epoch that closes now: END is 0 copy-out, 1 retirement, 2 skein ended. Where its first matrix command has started and none has
completed, t_m1 is t_m0 (R366; DESIGN CHOICE, log 101). -/
def stampRecord (s : State) (sp slot tile skein end_ : Nat) (e : Epoch) : List Word :=
  let cyc := s.cycles sp
  let tIn := e.tIn.getD e.tOpen
  let m0 := e.tM0.getD tIn
  let m1 := if e.tM0.isNone then tIn else e.tM1.getD m0
  [recWord0 0 end_ (if e.pre then 1 else 0) 0 slot tile sp 0 skein,
   BitVec.ofNat 64 s.time,
   BitVec.ofNat 64 (span16 e.tOpen tIn * 2 ^ 48 + span16 tIn m0 * 2 ^ 32 + span16 m0 m1 * 2 ^ 16 + span16 m1 s.time),
   BitVec.ofNat 64 (min (cyc - e.cOpen) 0xFFFFFFFF * 2 ^ 32 + cyc % 2 ^ 32)]

/-- A new epoch of a tile. -/
def newEpoch (s : State) (sp : Nat) (byMatrix : Bool) : Epoch :=
  { tOpen := s.time, cOpen := s.cycles sp, tIn := none, tM0 := none, tM1 := none, pre := false, byMatrix, silent := false }

/-- Changes a tile of a skein. -/
def State.modTile (s : State) (sp slot t : Nat) (g : Tile → Tile) : State :=
  s.modSkein sp slot fun k => { k with tiles := modNth k.tiles t g }

/-- A fill of a tile, or a matrix command that names it, starts: it opens an epoch where none is open, while EN is set; a matrix
command's start is the first of its epoch where there was none. -/
def State.stampStart (s : State) (sp slot t : Nat) (matrix : Bool) : State :=
  let s := s.passCycles sp
  s.modTile sp slot t fun x =>
    let x := if x.epoch.isNone && s.string.getLsbD 63 then { x with epoch := some (newEpoch s sp matrix) } else x
    if matrix then { x with epoch := x.epoch.map fun e => if e.tM0.isNone then { e with tM0 := some s.time } else e } else x

/-- A fill of a tile completes: t_in is the last one before t_m0, and t_open stays it when the opener is a matrix command. -/
def State.stampFilled (s : State) (sp slot t : Nat) : State :=
  s.modTile sp slot t fun x => { x with epoch := x.epoch.map fun e => if e.tM0.isNone && !e.byMatrix then { e with tIn := some s.time } else e }

/-- A matrix command that names a tile completes: one that started in the tile's open epoch (R366). -/
def State.stampMatrixDone (s : State) (sp slot t : Nat) : State :=
  s.modTile sp slot t fun x => { x with epoch := x.epoch.map fun e => if e.tM0.isSome then { e with tM1 := some s.time } else e }

/-- The tile's open epoch closes with a record, unless EN has been cleared since it opened. -/
def State.stampClose (s : State) (sp slot t end_ : Nat) : State :=
  let s := s.passCycles sp
  match s.skein? sp slot with
  | none => s
  | some k =>
    match (nth k.tiles t {}).epoch with
    | none => s
    | some e =>
      (if e.silent then s else s.strPut k.launch [stampRecord s sp slot t k.index end_ e]).modTile sp slot t fun x => { x with epoch := none }

/-- Every open epoch of the package closes without a record (R367). -/
def State.silence (s : State) : State :=
  let mute := fun (k : Skein) => { k with tiles := k.tiles.map fun t => { t with epoch := t.epoch.map fun e => { e with silent := true } } }
  { s with spindles := s.spindles.map fun p =>
      (p.1, { p.2 with slots := p.2.slots.map fun o => o.map mute, saved := p.2.saved.map fun v => { v with sk := mute v.sk } }) }

/-! ## Path records (R368) -/

/-- The code of a path's state (R347). -/
def PathState.code : PathState → Nat
  | .ready => 0 | .waiting => 1 | .blocked => 2 | .exited => 3

/-- A path-table entry's state word (R347, CLASS 3). -/
def Path.word (e : Path) : Word :=
  BitVec.ofNat 64 ((if e.valid then 2 ^ 63 else 0) + e.st.code * 2 ^ 61 + e.strands.toNat * 2 ^ 45)

/-- An entry's program counter as a full virtual address (R347, CLASS 5). -/
def pcWord (pc : Word) : Word := pc &&& 0x00FFFFFFFFFFFFF8

/-- The pair of records of a path, as of a time: KIND 1 for a sample, 2 for a hold. -/
def pathPair (k : Skein) (kind sp slot plyNo path : Nat) (time : Word) : List (List Word) :=
  let p := k.ply plyNo
  let e := nth p.paths path {}
  let w := fun hi => recWord0 kind 0 0 hi slot plyNo sp path k.index
  [[w 0, time, e.word, p.exm.setWidth 64], [w 1, time, pcWord e.pc, (p.exm >>> 64).setWidth 64]]

/-- Writes the pair of records of a path: KIND 1 for a sample, 2 for a hold. -/
def State.pathRecord (s : State) (kind sp slot plyNo path : Nat) : State :=
  match s.skein? sp slot with
  | none => s
  | some k => s.strPut k.launch (pathPair k kind sp slot plyNo path (BitVec.ofNat 64 s.time))

/-- A skein leaves its slot: the path that issued last, if it is one of its, is sampled as it left (R369; DESIGN CHOICE, log 113). -/
def State.keepLast (s : State) (sp slot : Nat) : State :=
  match (s.spindle sp).lastPath, s.skein? sp slot with
  | some (.here at_ ply path), some k =>
    if at_ == slot then s.modSpindle sp fun x => { x with lastPath := some (.left k.launch (pathPair k 1 sp slot ply path 0)) } else s
  | _, _ => s

/-- When the next sample is due: at the first multiple of the period from now on that has not been sampled. -/
def State.sampleDue (s : State) : Option Nat :=
  let period := 100 * fld s.samp 16 16
  if !s.samp.getLsbD 63 || period = 0 then none
  else if s.time % period = 0 && decide (s.sampAt < s.time) then some s.time
  else some ((s.time / period + 1) * period)

/-- Writes the sample of the path that issued last on a spindle. -/
def State.sampleRecord (s : State) (sp : Nat) (p : LastPath) : State :=
  match p with
  | .here slot ply path => s.pathRecord 1 sp slot ply path
  | .left acc pair => s.strPut acc (pair.map fun r => modNth r 1 fun _ => BitVec.ofNat 64 s.time)

end Sys2Proof.Machine
end

