-- ==== Sys2Proof/Machine/Engine.lean ====
section
/-! DEFINITION. What engine commands and synchronising instructions share: barrier objects (R264), the event queue (R117, R329),
outstanding commands (R117), and values delivered to registers (R93, R247). -/

namespace Sys2Proof.Machine

/-! ## Barrier objects (R264) -/

/-- PHASE of the object at an offset. -/
def Skein.phase (k : Skein) (o : Nat) : BitVec 32 := (sread k.scratch (o + 4) 4).setWidth 32

/-- An arrival with a count. -/
def Skein.arrive (k : Skein) (o c : Nat) : Skein :=
  let expect := (sread k.scratch o 2).toNat
  let n := (sread k.scratch (o + 2) 2).toNat + c
  if expect ≤ n then
    { k with scratch := swrite (swrite k.scratch (o + 2) 2 0) (o + 4) 4 ((k.phase o + 1).setWidth 64) }
  else { k with scratch := swrite k.scratch (o + 2) 2 (BitVec.ofNat 64 n) }

/-- An engine's completion at an object: STATUS, then one arrival (R247, R263, R295). -/
def Skein.complete (k : Skein) (o : Nat) (status : Word) : Skein :=
  { k with scratch := swrite k.scratch (o + 8) 8 status }.arrive o 1

/-! ## The event queue -/

/-- A command's record enters the queue, in the entry held for it. -/
def Skein.post (k : Skein) (r : Word) : Skein := { k with evq := k.evq ++ [r], evHeld := k.evHeld - 1 }

/-- A completion record (R248, R263, R295). -/
def evRecord (source queue entry bar code count : Nat) : Word :=
  BitVec.ofNat 64 (source * 2 ^ 60 + queue * 2 ^ 56 + entry * 2 ^ 48 + bar / 32 % 65536 * 2 ^ 32 + code * 2 ^ 24 + count % 2 ^ 24)

/-! ## Queues and outstanding commands -/

/-- The commands of a skein in a copy queue. -/
def Spindle.copyIds (x : Spindle) (uid q : Nat) : List Nat := ((nth x.cq q []).filter fun k => k.uid == uid).map fun k => k.id
def Spindle.matIds (x : Spindle) (uid : Nat) : List Nat := (x.mq.filter fun k => k.uid == uid).map fun k => k.id
def Spindle.xqIds (x : Spindle) (uid : Nat) : List Nat := (x.xq.filter fun k => k.uid == uid).map fun k => k.id

/-- The commands of a skein in the copy queues of a mask and, when asked, in MQ; an entry that has been released stands there too, though it
waits for its place (R255, R319). -/
def Spindle.named (x : Spindle) (l : Launch) (k : Skein) (mask : Nat) (mq : Bool) : List Nat :=
  ((List.range 4).filter fun q => mask.testBit q).flatMap (x.copyIds k.uid)
  ++ ((k.statWait.filter fun e => mask.testBit (fld (nth l.lrec.copies e.1 (0, 0)).2 0 2)).map fun e => e.2.1)
  ++ (if mq then x.matIds k.uid else [])

/-- The issuer waits for a queue place or a credit (R117). -/
def Ctx.setWait (c : Ctx) (st : PathState) (w : Wait) (s : State) : State :=
  if c.dist then c.modDist s fun d => { d with wait := w } else c.modPath s fun e => { e with st := st, wait := w }

/-- What the party waits for now. -/
def Ctx.waitNow (c : Ctx) : Wait := if c.dist then c.sk.dist.wait else c.path.wait

/-- The party waits for a value of an instruction that it has issued: it stands at no boundary until that has come back (R317, R340). -/
def Wait.onItsWay (w : Wait) : Bool :=
  match w with
  | .remote .. => true
  | _ => false

/-- Some path of the ply stands at no boundary yet. -/
def Ply.inFlight (p : Ply) : Bool := p.paths.any fun e => e.wait.onItsWay

/-- The party may act: its skein runs and is not being pre-empted, and no handler has stopped its ply. -/
def Ctx.live (c : Ctx) : Bool := c.sk.life == .running && c.sk.pre == .no && (c.dist || !c.ply.stopped)

/-! ## Earlier accesses of an issuer (R240, R261, R293, R319, R320) -/

/-- A store or reduction of the party waits in its side log. In handler mode too: the handler's own accesses are apart from the log, but what waits
for every earlier access waits for those from before the trap (R207, R212, R279, R319, R320, R343; DEDUCED, log 91). -/
def Ctx.logPending (c : Ctx) : Bool :=
  if c.dist then !c.sk.dist.sideLog.isEmpty else c.ply.sideLog.any fun e => c.strands.contains e.strand

/-- The ply's or distaff's side log has not drained; a handler's accesses do not wait for it (R229, R240, R343). -/
def Ctx.logBusy (c : Ctx) : Bool := !c.handler && (if c.dist then !c.sk.dist.sideLog.isEmpty else !c.ply.sideLog.isEmpty)

/-- Two parties are the same distaff, or paths of the same ply. -/
def sameIssuer (a b : Party) : Bool :=
  match a, b with
  | .dist .., .dist .. => true
  | .path _ _ p _, .path _ _ q _ => p == q
  | _, _ => false

/-- A request is one of an issuer's own: of a thread of its strands, or of the distaff. -/
def RemoteReq.ownOf (r : RemoteReq) (uid : Nat) (who : Party) (strands : BitVec 16) : Bool :=
  r.uid == uid && sameIssuer r.who who && (match who with | .path .. => strands.getLsbD (r.tid / 8) | _ => true)

/-- An access of the issuer is on its way to another package. -/
def Ctx.requestPending (c : Ctx) (s : State) : Bool := s.reqs.any fun r => r.ownOf c.sk.uid c.who c.path.strands && !r.arrived

/-- Some earlier access of the issuer has not been performed: it waits in the side log or is on its way to another package. -/
def Ctx.accessPending (c : Ctx) (s : State) : Bool := c.logPending || c.requestPending s

/-- A remote access that writes. -/
def opWrites (op : RemoteOp) : Bool := match op with | .load => false | _ => true

/-- Some earlier store of the issuer has not been performed (R207). -/
def Ctx.storePending (c : Ctx) (s : State) : Bool :=
  c.logPending || s.reqs.any fun r => r.ownOf c.sk.uid c.who c.path.strands && !r.arrived && opWrites r.what

/-- The same, until the owning package has acknowledged (R319). -/
def Ctx.unacknowledged (c : Ctx) (s : State) : Bool :=
  c.logPending || s.reqs.any fun r => r.ownOf c.sk.uid c.who c.path.strands && !r.replied

/-- The side log of a party of a skein. -/
def Skein.logOf (k : Skein) (who : Party) : List LogEntry :=
  match who with
  | .path _ _ p _ => (k.ply p).sideLog
  | .dist .. => k.dist.sideLog
  | .core _ => []

/-- What the issuer of a command accessed before it, up to a tick, has been performed, so that the command may start (R240, R261, R293). -/
def State.accessesDone (s : State) (k : Skein) (who : Party) (strands : BitVec 16) (issued : Nat) : Bool :=
  !((k.logOf who).any fun e => decide (e.issued ≤ issued) && (match who with | .path .. => strands.getLsbD e.strand | _ => true))
  && !(s.reqs.any fun r => r.ownOf k.uid who strands && decide (r.issued ≤ issued) && !r.arrived)

/-! ## Values delivered -/

/-- The skein of an identity on a spindle, resident or saved. -/
def Spindle.skeinOf (x : Spindle) (uid : Nat) : Option Skein :=
  ((x.slots.filterMap id ++ x.saved.map fun v => v.sk).find? fun k => k.uid == uid)

/-- A write with its value. -/
def RegWrite.withVal (val : Word) (w : RegWrite) : RegWrite :=
  match w with
  | .s r m _ => .s r m val
  | .v r t _ => .v r t (val.setWidth 32)
  | .flags x => .flags x

/-- The entries of an operation receive their writes: the values are here, and land when their position is reached; an
uncorrected error comes with the entry of one strand. -/
def bring (op : Nat) (g : Deferred → List RegWrite) (ue : Option (Nat × Word)) (l : List Deferred) : List Deferred :=
  l.map fun e =>
    if e.op == op then
      { e with op := 0, writes := g e, ue := (match ue with | some (st, w) => if st == e.strand then some w else none | none => none) }
    else e

/-- Everywhere in a skein. -/
def Skein.bring (k : Skein) (op : Nat) (g : Deferred → List RegWrite) (ue : Option (Nat × Word)) : Skein :=
  { k with
    dist := { k.dist with defs := Machine.bring op g ue k.dist.defs, hdefs := Machine.bring op g ue k.dist.hdefs }
    plies := k.plies.map fun p => { p with defs := Machine.bring op g ue p.defs, hdefs := Machine.bring op g ue p.hdefs } }

/-- A scalar value delivered to the registers that wait for an operation (R247 step 4). -/
def Skein.deliver (k : Skein) (op : Nat) (val : Word) : Skein := k.bring op (fun e => e.writes.map (RegWrite.withVal val)) none

/-- UNCORRECTED for an operation, where the region asks for it: to the path or distaff that issued it, else to the distaff, else to
nobody (R248, R341). -/
def Skein.uncorrected (k : Skein) (who : Option Party) (strands : BitVec 16) (status : Word) : Skein :=
  let toDist := if k.dist.exited then k else { k with dist := { k.dist with pend := k.dist.pend ++ [ueTrap status] } }
  match who with
  | some (.path _ _ p _) =>
    (match (strandList (strands &&& ~~~(k.ply p).exited)).head? with
     | none => toDist
     | some st => k.modPly p fun y => { y with pend := y.pend ++ [{ ueTrap status with strand := some st }] })
  | _ => toDist

/-- A resumed skein still has withdrawn accesses to be performed: they come before its engines' saved commands and before anything it
issues (R355). -/
def State.settling (s : State) (uid : Nat) : Bool := s.reqs.any fun r => r.uid == uid && r.withdrawn && !r.arrived

/-! ## Issuing an engine command -/

/-- The issuing path makes a command: distaff code always, ply code where a strand has an EXM bit set (R244, R261, R293). -/
def Ctx.makes (c : Ctx) : Bool := c.dist || !c.active.isEmpty

/-- The strands of the issuer as a set. -/
def Ctx.strandSet (c : Ctx) : BitVec 16 := if c.dist then 0 else c.path.strands

end Sys2Proof.Machine
end

