-- ==== Sys2Proof/Machine/Control.lean ====
section
/-! DEFINITION. Control instructions: OPC 0x01 to 0x05 (R182 to R190, R207 to R209), splitting (R107, R108), joining (R109) and
leaving (R111). -/

namespace Sys2Proof.Machine

open Host (Outcome)

/-! ## Splitting (R107, R108) -/

/-- The strands of a list whose next address is a. -/
def strandsTo (strands : List Nat) (next : Nat → Word) (a : Word) : BitVec 16 :=
  BitVec.ofNat 16 (strands.foldl (fun n s => if next s == a then n + 2 ^ s else n) 0)

/-- The distinct next addresses, in ascending order of their lowest strand. -/
def targets (strands : List Nat) (next : Nat → Word) : List Word :=
  strands.foldl (fun l s => if l.contains (next s) then l else l ++ [next s]) []

/-- Puts a path into the lowest free entry. -/
def placePath (e : Path) : List Path → List Path
  | [] => []
  | x :: l => if x.valid then x :: placePath e l else e :: l

/-- The path table after a branch: the outcome of the lowest strand keeps the entry, the others take the lowest free entries. -/
def splitPaths (paths : List Path) (idx : Nat) (strands : List Nat) (next : Nat → Word) : List Path :=
  match targets strands next with
  | [] => paths
  | a :: more =>
    let paths := modNth paths idx fun e => { e with pc := a, strands := strandsTo strands next a, st := .ready, wait := .none }
    more.foldl (fun l b => placePath { valid := true, pc := b, strands := strandsTo strands next b } l) paths

/-- A branch: every strand of the path goes to its own next address; in distaff code strand 0 stands for the context. -/
def Ctx.branch (c : Ctx) (f : Fields) (ws : List RegWrite) (next : Nat → Word) (s : State) : State :=
  let s := c.writes f 0 (fun _ => ws) (fun _ => 0) s
  if c.dist then c.goto s (next 0)
  else c.modPly s fun p => { p with paths := splitPaths p.paths c.idx c.strands next }

/-- An address a number of words away (R182). -/
def relTarget (pc : Word) (off : Word) : Word := pc + 8 * off

/-- The signed 32-bit offset of BR and CALL. -/
def offset32 (f : Fields) : Word := ((f.a ++ f.b ++ f.c ++ f.m : BitVec 32)).signExtend 64

/-- The signed 24-bit offset of BRZ and BRNZ. -/
def offset24 (f : Fields) : Word := ((f.b ++ f.c ++ f.m : BitVec 24)).signExtend 64

/-- What a strand's conditional branch tests (R184). -/
def Ctx.tested (c : Ctx) (f : Fields) (st : Nat) : Word :=
  if c.dist || f.d.getLsbD 0 then c.rdScal st f.a.toNat else (c.maskByte f.a.toNat st).setWidth 64

/-- BRZ and BRNZ. -/
def condBranch (zero : Bool) (f : Fields) (c : Ctx) (s : State) : Eff :=
  .done (c.branch f [] (fun st => if (c.tested f st == 0) == zero then relTarget c.pc (offset24 f) else c.pc + 8) s)

/-- JMPI and RET (R185), with PC_ALIGN before any strand transfers (R182). -/
def jump (f : Fields) (c : Ctx) (s : State) : Eff :=
  let next := fun st => c.rdScal st f.a.toNat
  match c.strands.find? fun st => next st &&& 7 != 0 with
  | some st => .trap { kind := .pcAlign, elem := some (8 * st), addr := next st }
  | none => .done (c.branch f [] next s)

def execBr (f : Fields) (s : State) : Outcome State Fault Refusal :=
  guarded (.br f) s fun f c s => .done (c.branch f [] (fun _ => relTarget c.pc (offset32 f)) s)
def execBrz (f : Fields) (s : State) : Outcome State Fault Refusal := guarded (.brz f) s (condBranch true)
def execBrnz (f : Fields) (s : State) : Outcome State Fault Refusal := guarded (.brnz f) s (condBranch false)
def execJmpi (f : Fields) (s : State) : Outcome State Fault Refusal := guarded (.jmpi f) s jump
def execCall (f : Fields) (s : State) : Outcome State Fault Refusal :=
  guarded (.call f) s fun f c s =>
    .done (c.branch f [wrAll f.d.toNat (c.pc + 8)] (fun _ => relTarget c.pc (offset32 f)) s)
def execRet (f : Fields) (s : State) : Outcome State Fault Refusal := guarded (.ret f) s jump

/-! ## Joining (R109, R110) -/

/-- A path waiting at a JOIN. -/
def Path.atJoin (e : Path) : Bool := e.valid && e.st == .waiting

/-- A path that runs. -/
def Path.running (e : Path) : Bool := e.valid && e.st == .ready

/-- The lowest address at which a path waits at a JOIN. -/
def joinAddr (paths : List Path) : Option Word :=
  (paths.filter Path.atJoin).foldl (fun a e => match a with | none => some e.pc | some b => some (if e.pc < b then e.pc else b)) none

/-- The paths that satisfy a condition become one path at an address, in the lowest of their entries: R110 says so of its merge; at a JOIN it is the
model's (DESIGN CHOICE, log 64). -/
def mergePaths (paths : List Path) (sel : Path → Bool) (pc : Word) : List Path :=
  let set := paths.foldl (fun b e => if sel e then b ||| e.strands else b) (0 : BitVec 16)
  let rec go : Bool → List Path → List Path
    | _, [] => []
    | placed, e :: l =>
      if !sel e then e :: go placed l
      else if placed then {} :: go true l
      else { valid := true, pc, strands := set } :: go true l
  go false paths

/-- R109: when no path of the ply runs, the paths that wait at the lowest JOIN address merge and go on after it; the JOIN counts as
a position of their strands. -/
def Ply.joinMerge (p : Ply) : Ply :=
  if p.paths.any Path.running then p
  else
    match joinAddr p.paths with
    | none => p
    | some a =>
      let sel := fun (e : Path) => e.atJoin && e.pc == a
      let set := p.paths.foldl (fun b e => if sel e then b ||| e.strands else b) (0 : BitVec 16)
      let p := (strandList set).foldl (fun p st => p.write st 0 0 [] 0) p
      { p with paths := mergePaths p.paths sel (a + 8) }

/-- A path is ready with the instruction at its address still to issue: it may wait there for a queue place, or for something that ends by itself
(R110, R120). -/
def Path.toIssue (e : Path) : Bool := e.running && (e.wait == .none || e.wait == .credit || e.wait == .again)

/-- R110: ready paths at one address become one path before its instruction issues. -/
def Ply.mergeReady (p : Ply) (pc : Word) : Ply :=
  { p with paths := mergePaths p.paths (fun e => e.toIssue && e.pc == pc) pc }

/-- A path of the party blocks, and what waits at a JOIN may merge at that moment (R109, R320). -/
def Ctx.blocked (c : Ctx) (w : Wait) (s : State) : State :=
  let s := c.setWait .blocked w s
  if c.dist then s else c.modPly s Ply.joinMerge

/-- A producer blocks until its issuer's earlier accesses have been performed, and issues again (R320). -/
def Ctx.awaitAccesses (c : Ctx) (s : State) : Eff := .stall (c.blocked .again s)

/-- The table has a sibling of the path that is valid. -/
def Ctx.hasSibling (c : Ctx) : Bool := (List.range c.ply.paths.length).any fun i => i != c.idx && (nth c.ply.paths i {}).valid

def execJoin (f : Fields) (s : State) : Outcome State Fault Refusal :=
  guarded (.join f) s fun f c s =>
    if !c.hasSibling then .done (c.finish0 f s)
    else .done (c.modPly (c.modPath s fun e => { e with st := .waiting, wait := .none }) Ply.joinMerge)

/-! ## Leaving (R111, R188) -/

/-- The bits of a list of strands. -/
def strandBits (l : List Nat) : BitVec 16 := BitVec.ofNat 16 (l.foldl (fun n s => n + 2 ^ s) 0)

/-- Every strand of the declared width has exited. -/
def Ply.gone (p : Ply) (w : Nat) : Bool := p.exited &&& allStrands w == allStrands w

/-- The entries of the decision queue without a ply that has exited (R327). -/
def dqWithout (ply : Nat) (q : List DqEntry) : List DqEntry :=
  (q.map fun e => { e with dests := e.dests.filter fun p => p != ply }).filter fun e => !e.dests.isEmpty

/-- A ply whose strands have all exited: its queue entries are freed, and a token it holds goes on (R327, R332). -/
def State.plyGone (s : State) (sp slot ply : Nat) : State :=
  match s.skein? sp slot with
  | none => s
  | some k =>
    let p := k.ply ply
    if !p.gone (s.launch k.launch).width then s
    else
      let s := s.modSkein sp slot fun k =>
        { k.modPly ply fun p => { p with turn := false, token := false, trap := { p.trap with mode := false } } with dq := dqWithout ply k.dq }
      if p.turn then s.passToken k.launch else s

/-- What uncorrected errors an entry of an exited strand brings goes to the distaff (R341). -/
def Skein.exitedErrors (k : Skein) (ply : Nat) : Skein :=
  let p := k.ply ply
  let mine := fun (e : Deferred) => e.op == 0 && e.ue.isSome && p.exited.getLsbD e.strand
  let ts := (p.defs.filter mine).filterMap fun e => e.ue.map ueTrap
  let k := k.modPly ply fun p => { p with defs := p.defs.map fun e => if mine e then { e with ue := none } else e }
  if k.dist.exited then k else { k with dist := { k.dist with pend := k.dist.pend ++ ts } }

/-- EXIT: the strands exit first, so that an error a value still to land brings is the distaff's; then every value that is here lands. -/
def execExit (f : Fields) (s : State) : Outcome State Fault Refusal :=
  guarded (.exit f) s fun _ c s =>
    if c.dist then .done (c.modDist s fun d => ({ d with exited := true, wait := .none, trap := { d.trap with mode := false } }.land (d.curPos + 17)))
    else
      let s := c.modPly s fun p => { p with exited := p.exited ||| strandBits c.strands }
      let s := s.modSkein c.sp c.slot fun k => k.exitedErrors c.plyNo
      let s := c.modPly s fun p =>
        let p := c.strands.foldl (fun p st => p.land st (p.curPos st + 17)) p
        ({ p with paths := modNth p.paths c.idx fun e => { e with st := .exited, wait := .none } }).freeExited.joinMerge
      .done ((s.plyGone c.sp c.slot c.plyNo).releaseStatic c.sp c.slot)

def execPlyw (f : Fields) (s : State) : Outcome State Fault Refusal :=
  guarded (.plyw f) s fun f c s => .done (c.finishAll f [wrAll f.d.toNat (BitVec.ofNat 64 c.width)] s)

/-! ## Masks (R190) -/

/-- EXM with a strand's eight bits replaced. -/
def setExm (exm : BitVec 128) (st : Nat) (b : BitVec 8) : BitVec 128 :=
  (exm &&& ~~~((0xFF : BitVec 128) <<< (8 * st))) ||| (b.setWidth 128 <<< (8 * st))

/-- A strand's eight bits of EXM. -/
def exmOf (exm : BitVec 128) (st : Nat) : BitVec 8 := (exm >>> (8 * st)).setWidth 8

/-- A mask instruction: each strand's bits become g of its own bits and of its own mask bits. -/
def maskOp (i : Instr) (g : BitVec 8 → BitVec 8 → BitVec 8) (s : State) : Outcome State Fault Refusal :=
  guarded i s fun f c s =>
    let s := c.modPly s fun p =>
      { p with exm := c.strands.foldl (fun m st => setExm m st (g (exmOf m st) (c.maskByte f.a.toNat st))) p.exm }
    .done (c.finish0 f s)

def execMsave (f : Fields) (s : State) : Outcome State Fault Refusal :=
  guarded (.msave f) s fun f c s => .done (c.finishAll f (c.maskWrites f.d.toNat (c.ply.exm &&& c.pathThreads)) s)
def execMset (f : Fields) (s : State) : Outcome State Fault Refusal := maskOp (.mset f) (fun _ m => m) s
def execMand (f : Fields) (s : State) : Outcome State Fault Refusal := maskOp (.mand f) (fun e m => e &&& m) s
def execMor (f : Fields) (s : State) : Outcome State Fault Refusal := maskOp (.mor f) (fun e m => e ||| m) s
def execMxor (f : Fields) (s : State) : Outcome State Fault Refusal := maskOp (.mxor f) (fun e m => e ^^^ m) s
def execMnot (f : Fields) (s : State) : Outcome State Fault Refusal := maskOp (.mnot f) (fun e m => m &&& ~~~e) s

/-! ## OPC 0x01 (R207, R208, R370) -/

def execNop (f : Fields) (s : State) : Outcome State Fault Refusal :=
  guarded (.nop f) s fun f c s => .done (c.finish0 f s)
def execYield (f : Fields) (s : State) : Outcome State Fault Refusal :=
  guarded (.yield f) s fun f c s => .done (c.finish0 f s)
def execHalt (f : Fields) (s : State) : Outcome State Fault Refusal :=
  guarded (.halt f) s fun _ c s => .done (s.endSkein c.sp c.slot)

/-- The party's buffered code lines are discarded (R114). -/
def Ctx.dropLines (c : Ctx) (s : State) : State :=
  if c.dist then c.modDist s fun d => { d with fbuf := [] } else c.modPly s fun p => { p with fbuf := [] }

def execIcsync (f : Fields) (s : State) : Outcome State Fault Refusal :=
  guarded (.icsync f) s fun f c s =>
    if c.storePending s then .stall s else .done (c.finish0 f (c.dropLines s))

/-- A debug hold is armed for a launch's region: it is the named region or a descendant of it (R370). -/
def State.debugHeld (s : State) (l : Launch) : Bool :=
  s.dbgHold.getLsbD 63 && (s.rcbChain l.lrec.region.toNat).any fun r => BitVec.ofNat 64 r.addr == s.dbgHold &&& 0x00FFFFFFFFFFFFC0

def execBkpt (f : Fields) (s : State) : Outcome State Fault Refusal :=
  guarded (.bkpt f) s fun f c s =>
    if !c.dist && s.debugHeld c.la then
      .done ((c.blocked .debug s).pathRecord 2 c.sp c.slot c.plyNo c.idx)
    else .raise { kind := .breakpoint, imm := f.m }

/-! ## Traps and the return from one (R209, R348) -/

def execTrap (f : Fields) (s : State) : Outcome State Fault Refusal :=
  guarded (.trap f) s fun f c s =>
    if c.dist then
      if c.rdScal 0 f.a.toNat == 0 then .done (c.finish0 f s) else .raise { kind := .userTrap, imm := f.m }
    else
      match c.active.find? fun t => c.maskBit f.a.toNat t with
      | none => .done (c.finish0 f s)
      | some t => .raise { kind := .userTrap, elem := some t, imm := f.m }
def execSyscall (f : Fields) (s : State) : Outcome State Fault Refusal :=
  guarded (.syscall f) s fun f _ _ => .raise { kind := .syscall, imm := f.m }

/-- A path waits at an instruction that it has issued: not at one it has still to issue, nor at a JOIN, which waits for the others (R348). -/
def Path.underWay (e : Path) : Bool := e.valid && e.wait != .none && e.wait != .credit && e.wait != .again

/-- ERET in handler mode: the return from a trap, by any path of the handler. It first waits until every instruction that the handler has
issued, by whichever of its paths, has completed (a JOIN apart: DEDUCED, log 73). -/
def execEret (f : Fields) (s : State) : Outcome State Fault Refusal :=
  guarded (.eret f) s fun _ c s =>
    if c.dist then
      if c.sk.dist.hdefs.isEmpty then .done (c.modDist s Dist.leaveHandler) else .stall s
    else if c.ply.hdefs.isEmpty && !(c.ply.paths.any Path.underWay) then
      .done (c.modPly s Ply.leaveHandler)
    else .stall s

end Sys2Proof.Machine
end

