-- ==== Sys2Proof/Machine/FloatFn.lean ====
section
/-! DEFINITION. The function instructions (R168): quotients and square roots are exact to the last bit that rounding can see;
exponentials, logarithms, sines and cosines are computed to a fixed precision far beyond FP32 and then rounded once (DEDUCED, log 15). -/

namespace Sys2Proof

/-! ## Quotients and roots -/

/-- Integer square root of a number below 4^k, bit by bit. -/
def isqrtAux (n : Nat) : Nat → Nat → Nat
  | 0, r => r
  | k + 1, r =>
    let c := r + 2 ^ k
    isqrtAux n k (if c * c ≤ n then c else r)

/-- Integer square root. -/
def isqrt (n : Nat) : Nat := isqrtAux n (bitLen n / 2 + 1) 0

/-- A magnitude known up to its last place: one more bit says whether something lies below. -/
def sticky (neg : Bool) (m : Nat) (rest : Bool) (e : Int) : Dy := ⟨neg, 2 * m + (if rest then 1 else 0), e - 1⟩

/-- 1 / d for a nonzero d. -/
def Dy.recip (d : Dy) : Dy :=
  let k := bitLen d.mant + 64
  sticky d.neg (2 ^ k / d.mant) (2 ^ k % d.mant != 0) (-(d.exp) - k)

/-- A power of two brought to an even exponent. -/
def Dy.evenExp (d : Dy) : Nat × Int := if d.exp % 2 = 0 then (d.mant, d.exp) else (2 * d.mant, d.exp - 1)

/-- √d for a positive d. -/
def Dy.sqrt (d : Dy) : Dy :=
  let (m, e) := d.evenExp
  let x := m * 2 ^ 128
  let r := isqrt x
  sticky false r (r * r != x) (e / 2 - 64)

/-- 1 / √d for a positive d. -/
def Dy.rsqrt (d : Dy) : Dy :=
  let (m, e) := d.evenExp
  let k := bitLen m + 64
  let q := 2 ^ (2 * k) / m
  let r := isqrt q
  sticky false r (2 ^ (2 * k) % m != 0 || r * r != q) (-(e / 2) - k)

/-! ## Exponential and logarithm -/

/-- ln 2 in units of 2^-640. -/
def ln2Fixed : Nat :=
  0xb17217f7d1cf79abc9e3b39803f2f6af40f343267298b62d8a0d175b8baafa2be7b876206debac98559552fb4afa1b10ed2eae35c138214427573b291169b8253e96ca16224ae8c51acbda11317c387e

/-- The sum of x^n / n! from a term on, in units of 2^-p, with fuel. -/
def expSeries (p x : Nat) : Nat → Nat → Nat → Nat
  | 0, _, _ => 0
  | k + 1, n, t => t + expSeries p x k (n + 1) (t * x / 2 ^ p / n)

/-- 2^f for 0 < f < 1, both in units of 2^-640. -/
def exp2Frac (f : Nat) : Nat := expSeries 640 (f * ln2Fixed / 2 ^ 640) 140 1 (2 ^ 640)

/-- 2^d; exact for an integer d, otherwise known to 640 bits. A magnitude beyond 2^16 counts as 2^16, far past every format. -/
def Dy.exp2 (d : Dy) : Dy :=
  let m := if cmpScaled d.mant d.exp 65536 0 == .gt then 65536 else d.mant
  let e : Int := if cmpScaled d.mant d.exp 65536 0 == .gt then 0 else d.exp
  let x : Int := (if d.neg then -1 else 1) * (if e ≥ -640 then (m * 2 ^ (e + 640).toNat : Nat) else 0)
  let n := x / 2 ^ 640
  let f := (x % 2 ^ 640).toNat
  if f = 0 then ⟨false, 1, n⟩ else sticky false (exp2Frac f) true (n - 640)

/-- The sum of z^(2k+1)/(2k+1) from a term on, in units of 2^-p, with fuel. -/
def atanhSeries (p z2 : Nat) : Nat → Nat → Nat → Nat
  | 0, _, _ => 0
  | k + 1, n, t => t / n + atanhSeries p z2 k (n + 2) (t * z2 / 2 ^ p)

/-- log2 y for 1 ≤ y < 2, both in units of 2^-640. -/
def log2Frac (y : Nat) : Nat :=
  let z := (y - 2 ^ 640) * 2 ^ 640 / (y + 2 ^ 640)
  2 * atanhSeries 640 (z * z / 2 ^ 640) 210 1 z * 2 ^ 640 / ln2Fixed

/-- log2 d for a positive d; exact for a power of two, otherwise known to 640 bits. -/
def Dy.log2 (d : Dy) : Dy :=
  let l := bitLen d.mant
  let n : Int := d.exp + l - 1
  if d.mant = 2 ^ (l - 1) then ⟨decide (n < 0), n.natAbs, 0⟩
  else
    let t : Int := n * 2 ^ 640 + log2Frac (d.mant * 2 ^ (641 - l))
    if t < 0 then sticky true (t.natAbs - 1) true (-640) else sticky false t.natAbs true (-640)

/-! ## Sine and cosine -/

/-- π / 2 in units of 2^-1024. -/
def halfPiFixed : Nat :=
  0x1921fb54442d18469898cc51701b839a252049c1114cf98e804177d4c76273644a29410f31c6809bbdf2a33679a748636605614dbe4be286e9fc26adadaa3848bc90b6aecc4bcfd8de89885d34c6fdad617feb96de80d6fdbdc70d7f6b5133f4b5d3e4822f8963fcc9250cca3d9c8b67b8400f97142c77e0b31b4906c38aba734

/-- An alternating series: each term is the last times x² over n (n + 1), in units of 2^-1024, with fuel. -/
def trigSeries (x2 : Nat) : Nat → Nat → Nat → Int
  | 0, _, _ => 0
  | k + 1, n, t => (t : Int) - trigSeries x2 k (n + 2) (t * x2 / 2 ^ 1024 / (n * (n + 1)))

/-- sin r and cos r for 0 ≤ r < π / 2 in units of 2^-1024. -/
def sinFixed (r : Nat) : Nat := (trigSeries (r * r / 2 ^ 1024) 110 2 r).toNat
def cosFixed (r : Nat) : Nat := (trigSeries (r * r / 2 ^ 1024) 110 1 (2 ^ 1024)).toNat

/-- The quadrant and the remainder of a magnitude by π / 2. -/
def Dy.reduce (d : Dy) : Nat × Nat :=
  let x := d.mant * 2 ^ (d.exp + 1024).toNat
  (x / halfPiFixed, x % halfPiFixed)

/-- sin d for a nonzero d. -/
def Dy.sin (d : Dy) : Dy :=
  let (k, r) := d.reduce
  let m := if k % 2 = 0 then sinFixed r else cosFixed r
  sticky (xor d.neg (k % 4 ≥ 2)) m true (-1024)

/-- cos d for a nonzero d. -/
def Dy.cos (d : Dy) : Dy :=
  let (k, r) := d.reduce
  let m := if k % 2 = 0 then cosFixed r else sinFixed r
  sticky (k % 4 == 1 || k % 4 == 2) m true (-1024)

/-! ## The seven functions with their special inputs (R168) -/

def fRcp : FVal → FVal × FFlags
  | .nan s => (.nan false, flagIf s fNV)
  | .inf n => (.zero n, 0)
  | .fin d => if d.mant = 0 then (.inf d.neg, fDZ) else (.fin d.recip, 0)

def fRsq : FVal → FVal × FFlags
  | .nan s => (.nan false, flagIf s fNV)
  | .inf n => if n then (.nan false, fNV) else (.zero false, 0)
  | .fin d => if d.mant = 0 then (.inf d.neg, fDZ) else if d.neg then (.nan false, fNV) else (.fin d.rsqrt, 0)

def fSqrt : FVal → FVal × FFlags
  | .nan s => (.nan false, flagIf s fNV)
  | .inf n => if n then (.nan false, fNV) else (.inf false, 0)
  | .fin d => if d.mant = 0 then (.zero d.neg, 0) else if d.neg then (.nan false, fNV) else (.fin d.sqrt, 0)

def fExp2 : FVal → FVal × FFlags
  | .nan s => (.nan false, flagIf s fNV)
  | .inf n => if n then (.zero false, 0) else (.inf false, 0)
  | .fin d => if d.mant = 0 then (.fin ⟨false, 1, 0⟩, 0) else (.fin d.exp2, 0)

def fLog2 : FVal → FVal × FFlags
  | .nan s => (.nan false, flagIf s fNV)
  | .inf n => if n then (.nan false, fNV) else (.inf false, 0)
  | .fin d => if d.mant = 0 then (.inf true, fDZ) else if d.neg then (.nan false, fNV) else (.fin d.log2, 0)

def fSin : FVal → FVal × FFlags
  | .nan s => (.nan false, flagIf s fNV)
  | .inf _ => (.nan false, fNV)
  | .fin d => if d.mant = 0 then (.zero d.neg, 0) else (.fin d.sin, 0)

def fCos : FVal → FVal × FFlags
  | .nan s => (.nan false, flagIf s fNV)
  | .inf _ => (.nan false, fNV)
  | .fin d => if d.mant = 0 then (.fin ⟨false, 1, 0⟩, 0) else (.fin d.cos, 0)

end Sys2Proof
end

