-- ==== Sys2Proof/Machine/Flags.lean ====
section
/-! DEFINITION. The sticky flags fp.flags as software sees them (R140, R141). -/

namespace Sys2Proof.Machine

/-- The flags that earlier instructions of the issuing path have set and not yet landed (R141): a CSRR sees them too. -/
def Ctx.pendingFlags (c : Ctx) : FFlags :=
  (c.ply.curDefs.filter fun e => c.strands.contains e.strand).foldl (fun fl e => fl ||| e.flags) 0

/-- fp.flags as CSRR reads it in ply code: FTZ in bit 8, the flags in [4:0]; 0 in distaff code. -/
def Ctx.readFlags (c : Ctx) : Word :=
  if c.dist then 0
  else ((c.ply.flags ||| c.pendingFlags).setWidth 64) ||| (if c.la.ftz then 0x100 else 0)

/-- The flags of a path's instructions that are still to land are in fp.flags before it is read: their registers' values still land at their
positions (R141). -/
def Ply.landFlags (p : Ply) (strands : List Nat) : Ply :=
  let mine := fun (e : Deferred) => strands.contains e.strand
  let fl := (p.curDefs.filter mine).foldl (fun fl e => fl ||| e.flags) (0 : FFlags)
  { p.setDefs (p.curDefs.map fun e => if mine e then { e with flags := 0 } else e) with flags := p.flags ||| fl }

/-- The flags of a path's instructions that land no later than its CSRW of fp.flags, in whichever strand, come before it, so that it replaces them
(R93, R141). -/
def Ply.coverFlags (p : Ply) (strands : List Nat) : Ply :=
  p.setDefs (p.curDefs.map fun e => if strands.contains e.strand && decide (e.land ≤ p.curPos e.strand) then { e with flags := 0 } else e)

end Sys2Proof.Machine
end

