-- ==== Sys2Proof/Machine/Integer.lean ====
section
/-! DEFINITION. Integer and logic instructions (R155 to R162). Values are read as integers of the type, computed exactly, and
narrowed at the end (R128). -/

namespace Sys2Proof.Machine

open Host (Outcome)

/-! ## Values -/

/-- A result narrowed to the type, clamped first under SAT (R156). -/
def narrow (ty : Ty) (sat : Bool) (x : Int) : Word := ty.ofInt (if sat then ty.clamp x else x)

/-- The low bits of a word in a type. -/
def low (ty : Ty) (x : Word) : Nat := x.toNat % 2 ^ ty.bits

/-- M[0], SAT (R155). -/
def sat0 (f : Fields) : Bool := f.m.getLsbD 0

/-- The shift count: the low 32 bits, unsigned (R155). -/
def shiftCount (b : Word) : Nat := b.toNat % 2 ^ 32

def shlV (ty : Ty) (a : Word) (n : Nat) : Nat := if ty.bits ≤ n then 0 else low ty a * 2 ^ n % 2 ^ ty.bits
def shrV (ty : Ty) (a : Word) (n : Nat) : Nat := if ty.bits ≤ n then 0 else low ty a / 2 ^ n
def sarV (ty : Ty) (a : Word) (n : Nat) : Int := if ty.bits ≤ n then (if ty.toInt a < 0 then -1 else 0) else ty.toInt a / 2 ^ n
def rolV (ty : Ty) (a : Word) (n : Nat) : Nat :=
  let k := n % ty.bits
  low ty a * 2 ^ k % 2 ^ ty.bits + low ty a / 2 ^ (ty.bits - k)
def rorV (ty : Ty) (a : Word) (n : Nat) : Nat := rolV ty a (ty.bits - n % ty.bits)

/-- Number of set bits. -/
def popcV (ty : Ty) (a : Word) : Nat := ((List.range ty.bits).filter fun i => a.getLsbD i).length
/-- Leading zero bits; w for zero. -/
def clzV (ty : Ty) (a : Word) : Nat := ty.bits - bitLen (low ty a)
/-- Bit i of the result is bit w − 1 − i. -/
def brevV (ty : Ty) (a : Word) : Nat :=
  (List.range ty.bits).foldl (fun n i => if a.getLsbD (ty.bits - 1 - i) then n + 2 ^ i else n) 0

/-- R157: the field, right-aligned, extended by the type. -/
def bfeV (ty : Ty) (a : Word) (pos len : Nat) : Int :=
  let v := low ty a / 2 ^ pos % 2 ^ len
  if len = 0 then 0 else if ty.signed && decide (2 ^ (len - 1) ≤ v) then (v : Int) - 2 ^ len else v

/-- R157: b with the field replaced. -/
def bfiV (ty : Ty) (a b : Word) (pos len : Nat) : Nat :=
  let v := low ty b
  v - v / 2 ^ pos % 2 ^ len * 2 ^ pos + a.toNat % 2 ^ len * 2 ^ pos

/-- The six conditions of ICMP by FN (R160). -/
def icmpV (ty : Ty) (fn : Nat) (a b : Word) : Bool :=
  let x := ty.toInt a
  let y := ty.toInt b
  match fn with
  | 0 => x == y
  | 1 => x != y
  | 2 => decide (x < y)
  | 3 => decide (x ≤ y)
  | 4 => decide (x > y)
  | _ => decide (x ≥ y)

/-! ## Shapes -/

/-- An integer instruction as a function of its operands narrowed by type. -/
def intOp (i : Instr) (s : State) (g : Fields → Word → Word → Word → Word) : Outcome State Fault Refusal :=
  guarded i s (laneWise i (fun f => f.ty) fun f _ a b c => (g f a b c, 0))

/-- ICMP (R160). -/
def intCompare (i : Instr) (fn : Nat) (s : State) : Outcome State Fault Refusal :=
  guarded i s (laneCompare i fun f _ a b => (icmpV f.ty fn a b, 0))

/-- A natural number as a word. -/
def ofN (n : Nat) : Word := BitVec.ofNat 64 n

/-! ## Instructions -/

def execIadd (f : Fields) (s : State) : Outcome State Fault Refusal :=
  intOp (.iadd f) s fun f a b _ => narrow f.ty (sat0 f) (f.ty.toInt a + f.ty.toInt b)
def execIsub (f : Fields) (s : State) : Outcome State Fault Refusal :=
  intOp (.isub f) s fun f a b _ => narrow f.ty (sat0 f) (f.ty.toInt a - f.ty.toInt b)
def execImul (f : Fields) (s : State) : Outcome State Fault Refusal :=
  intOp (.imul f) s fun f a b _ => f.ty.ofInt (f.ty.toInt a * f.ty.toInt b)
def execImulh (f : Fields) (s : State) : Outcome State Fault Refusal :=
  intOp (.imulh f) s fun f a b _ => f.ty.ofInt (f.ty.toInt a * f.ty.toInt b / 2 ^ f.ty.bits)
def execImad (f : Fields) (s : State) : Outcome State Fault Refusal :=
  intOp (.imad f) s fun f a b c => f.ty.ofInt (f.ty.toInt a * f.ty.toInt b + f.ty.toInt c)
def execImin (f : Fields) (s : State) : Outcome State Fault Refusal :=
  intOp (.imin f) s fun f a b _ => f.ty.ofInt (min (f.ty.toInt a) (f.ty.toInt b))
def execImax (f : Fields) (s : State) : Outcome State Fault Refusal :=
  intOp (.imax f) s fun f a b _ => f.ty.ofInt (max (f.ty.toInt a) (f.ty.toInt b))
def execIabs (f : Fields) (s : State) : Outcome State Fault Refusal :=
  intOp (.iabs f) s fun f a _ _ => narrow f.ty (sat0 f) (f.ty.toInt a).natAbs
def execAnd (f : Fields) (s : State) : Outcome State Fault Refusal :=
  intOp (.and f) s fun f a b _ => ofN (low f.ty (a &&& b))
def execOr (f : Fields) (s : State) : Outcome State Fault Refusal :=
  intOp (.or f) s fun f a b _ => ofN (low f.ty (a ||| b))
def execXor (f : Fields) (s : State) : Outcome State Fault Refusal :=
  intOp (.xor f) s fun f a b _ => ofN (low f.ty (a ^^^ b))
def execNot (f : Fields) (s : State) : Outcome State Fault Refusal :=
  intOp (.not f) s fun f a _ _ => ofN (low f.ty (~~~a))
def execShl (f : Fields) (s : State) : Outcome State Fault Refusal :=
  intOp (.shl f) s fun f a b _ => ofN (shlV f.ty a (shiftCount b))
def execShr (f : Fields) (s : State) : Outcome State Fault Refusal :=
  intOp (.shr f) s fun f a b _ => ofN (shrV f.ty a (shiftCount b))
def execSar (f : Fields) (s : State) : Outcome State Fault Refusal :=
  intOp (.sar f) s fun f a b _ => f.ty.ofInt (sarV f.ty a (shiftCount b))
def execRol (f : Fields) (s : State) : Outcome State Fault Refusal :=
  intOp (.rol f) s fun f a b _ => ofN (rolV f.ty a (shiftCount b))
def execRor (f : Fields) (s : State) : Outcome State Fault Refusal :=
  intOp (.ror f) s fun f a b _ => ofN (rorV f.ty a (shiftCount b))
def execPopc (f : Fields) (s : State) : Outcome State Fault Refusal :=
  intOp (.popc f) s fun f a _ _ => ofN (popcV f.ty a)
def execClz (f : Fields) (s : State) : Outcome State Fault Refusal :=
  intOp (.clz f) s fun f a _ _ => ofN (clzV f.ty a)
def execBrev (f : Fields) (s : State) : Outcome State Fault Refusal :=
  intOp (.brev f) s fun f a _ _ => ofN (brevV f.ty a)
def execBfe (f : Fields) (s : State) : Outcome State Fault Refusal :=
  intOp (.bfe f) s fun f a _ _ => f.ty.ofInt (bfeV f.ty a f.c.toNat (f.m.toNat % 128))
def execBfi (f : Fields) (s : State) : Outcome State Fault Refusal :=
  intOp (.bfi f) s fun f a b _ => ofN (bfiV f.ty a b f.c.toNat (f.m.toNat % 128))
def execSel (f : Fields) (s : State) : Outcome State Fault Refusal :=
  intOp (.sel f) s fun f a b c => ofN (low f.ty (if c != 0 then a else b))
def execIcmpEq (f : Fields) (s : State) : Outcome State Fault Refusal := intCompare (.icmpEq f) 0 s
def execIcmpNe (f : Fields) (s : State) : Outcome State Fault Refusal := intCompare (.icmpNe f) 1 s
def execIcmpLt (f : Fields) (s : State) : Outcome State Fault Refusal := intCompare (.icmpLt f) 2 s
def execIcmpLe (f : Fields) (s : State) : Outcome State Fault Refusal := intCompare (.icmpLe f) 3 s
def execIcmpGt (f : Fields) (s : State) : Outcome State Fault Refusal := intCompare (.icmpGt f) 4 s
def execIcmpGe (f : Fields) (s : State) : Outcome State Fault Refusal := intCompare (.icmpGe f) 5 s
def execMov (f : Fields) (s : State) : Outcome State Fault Refusal :=
  intOp (.mov f) s fun f a _ _ => ofN (low f.ty a)
def execMovi (f : Fields) (s : State) : Outcome State Fault Refusal :=
  intOp (.movi f) s fun f _ _ _ => ofN (low f.ty (f.x.getD 0))

end Sys2Proof.Machine
end

