-- ==== Sys2Proof/Machine/FloatOps.lean ====
section
/-! DEFINITION. Floating-point instructions (R163 to R169), conversion and packing (R170 to R172). -/

namespace Sys2Proof.Machine

open Host (Outcome)

/-! ## Modifiers (R134, R163) -/

/-- The rounding mode, M[1:0]. -/
def rmode (f : Fields) : RMode := RMode.ofCode f.low2
/-- M[2], `.sat`. -/
def satBit (f : Fields) : Bool := f.m.getLsbD 2

/-- An operand read as a value: FTZ first, then the negation its M bit asks for. -/
def operandF (f : Fields) (c : Ctx) (bit : Nat) (v : Word) : FVal :=
  let x := f.ty.unpack c.la.ftz v
  if f.m.getLsbD bit then x.negate else x

/-- The rounded result of an exact value with flags of its own. -/
def rounded (f : Fields) (c : Ctx) (x : FVal × FFlags) : Word × FFlags :=
  let r := f.ty.round (rmode f) (satBit f) c.la.ftz x.1
  (r.1, r.2 ||| x.2)

/-- R164: an exact result of three operands, rounded once. -/
def floatOp (i : Instr) (s : State) (g : RMode → FVal → FVal → FVal → FVal × FFlags) : Outcome State Fault Refusal :=
  guarded i s (laneWise i (fun f => f.ty) fun f c a b e =>
    rounded f c (g (rmode f) (operandF f c 3 a) (operandF f c 4 b) (operandF f c 5 e)))

def execFadd (f : Fields) (s : State) : Outcome State Fault Refusal :=
  floatOp (.fadd f) s fun m a b _ => a.add m b
def execFsub (f : Fields) (s : State) : Outcome State Fault Refusal :=
  floatOp (.fsub f) s fun m a b _ => a.add m b.negate
def execFmul (f : Fields) (s : State) : Outcome State Fault Refusal :=
  floatOp (.fmul f) s fun _ a b _ => a.mul b
def execFfma (f : Fields) (s : State) : Outcome State Fault Refusal :=
  floatOp (.ffma f) s fun m a b c => FVal.fma m a b c

/-- R165. -/
def floatMinMax (i : Instr) (mx : Bool) (s : State) : Outcome State Fault Refusal :=
  guarded i s (laneWise i (fun f => f.ty) fun f c a b _ => f.ty.minMax mx c.la.ftz (operandF f c 3 a) (operandF f c 4 b))

def execFmin (f : Fields) (s : State) : Outcome State Fault Refusal := floatMinMax (.fmin f) false s
def execFmax (f : Fields) (s : State) : Outcome State Fault Refusal := floatMinMax (.fmax f) true s

/-! ## Compares (R166) -/

/-- The eight conditions by FN, with the invalid flag. -/
def fcmpV (fn : Nat) (a b : FVal) : Bool × FFlags :=
  let uo := a.isNan || b.isNan
  let ord := 2 ≤ fn ∧ fn ≤ 5
  let fl := flagIf (a.isSnan || b.isSnan || (decide ord && uo)) fNV
  let o := a.cmp b
  let r :=
    match fn with
    | 0 => !uo && o == .eq
    | 1 => uo || o != .eq
    | 2 => !uo && o == .lt
    | 3 => !uo && o != .gt
    | 4 => !uo && o == .gt
    | 5 => !uo && o != .lt
    | 6 => uo
    | _ => !uo
  (r, fl)

def floatCompare (i : Instr) (fn : Nat) (s : State) : Outcome State Fault Refusal :=
  guarded i s (laneCompare i fun f c a b => fcmpV fn (operandF f c 3 a) (operandF f c 4 b))

def execFcmpEq (f : Fields) (s : State) : Outcome State Fault Refusal := floatCompare (.fcmpEq f) 0 s
def execFcmpNe (f : Fields) (s : State) : Outcome State Fault Refusal := floatCompare (.fcmpNe f) 1 s
def execFcmpLt (f : Fields) (s : State) : Outcome State Fault Refusal := floatCompare (.fcmpLt f) 2 s
def execFcmpLe (f : Fields) (s : State) : Outcome State Fault Refusal := floatCompare (.fcmpLe f) 3 s
def execFcmpGt (f : Fields) (s : State) : Outcome State Fault Refusal := floatCompare (.fcmpGt f) 4 s
def execFcmpGe (f : Fields) (s : State) : Outcome State Fault Refusal := floatCompare (.fcmpGe f) 5 s
def execFcmpUo (f : Fields) (s : State) : Outcome State Fault Refusal := floatCompare (.fcmpUo f) 6 s
def execFcmpOrd (f : Fields) (s : State) : Outcome State Fault Refusal := floatCompare (.fcmpOrd f) 7 s

/-- R163, R167: a moved operand has its sign bit flipped when its M bit asks for it. -/
def movedF (f : Fields) (bit : Nat) (v : Word) : Word :=
  let x := v.toNat % 2 ^ f.ty.bits
  if f.m.getLsbD bit then BitVec.ofNat 64 ((x + 2 ^ (f.ty.bits - 1)) % 2 ^ f.ty.bits) else BitVec.ofNat 64 x

/-- FSEL's choice: C compares at or above zero. -/
def atLeastZero (x : FVal) : Bool :=
  match x with
  | .nan _ => false
  | .inf n => !n
  | .fin d => !d.neg || d.mant == 0

def execFsel (f : Fields) (s : State) : Outcome State Fault Refusal :=
  guarded (.fsel f) s (laneWise (.fsel f) (fun f => f.ty) fun f c a b e =>
    let x := f.ty.unpack c.la.ftz e
    (if atLeastZero x then movedF f 3 a else movedF f 4 b, flagIf x.isSnan fNV))

/-! ## Functions (R168) and rounding to an integral value (R169) -/

def floatFn (i : Instr) (g : FVal → FVal × FFlags) (s : State) : Outcome State Fault Refusal :=
  guarded i s (laneWise i (fun f => f.ty) fun f c a _ _ => rounded f c (g (operandF f c 3 a)))

def execFrcp (f : Fields) (s : State) : Outcome State Fault Refusal := floatFn (.frcp f) fRcp s
def execFrsq (f : Fields) (s : State) : Outcome State Fault Refusal := floatFn (.frsq f) fRsq s
def execFsqrt (f : Fields) (s : State) : Outcome State Fault Refusal := floatFn (.fsqrt f) fSqrt s
def execFexp2 (f : Fields) (s : State) : Outcome State Fault Refusal := floatFn (.fexp2 f) fExp2 s
def execFlog2 (f : Fields) (s : State) : Outcome State Fault Refusal := floatFn (.flog2 f) fLog2 s
def execFsin (f : Fields) (s : State) : Outcome State Fault Refusal := floatFn (.fsin f) fSin s
def execFcos (f : Fields) (s : State) : Outcome State Fault Refusal := floatFn (.fcos f) fCos s

def execFrnd (f : Fields) (s : State) : Outcome State Fault Refusal :=
  guarded (.frnd f) s (laneWise (.frnd f) (fun f => f.ty) fun f c a _ _ =>
    let x := (operandF f c 3 a).integral (rmode f)
    ((f.ty.round .rne false c.la.ftz x.1).1, x.2))

/-! ## CVT, PACK, UNPK (R170 to R172) -/

def execCvt (f : Fields) (s : State) : Outcome State Fault Refusal :=
  guarded (.cvt f) s (laneWise (.cvt f) (fun f => f.ty) fun f c a _ _ => convert f.ty f.srcTy (rmode f) (satBit f) c.la.ftz a)

/-- R171: what a source register of PACK is read as. -/
def packSrc (ty : Ty) : Ty := if ty.isFloat then .f32 else if ty.signed then .s32 else .b32

/-- A register of a run: of the vector registers of a thread, or of a strand's scalar copies. -/
def Ctx.runReg (c : Ctx) (u : Bool) (st t r : Nat) : Word := if u then c.rdScal st r else (c.ply.rdV r t).setWidth 64

/-- Field width of a form of n fields. -/
def packBits (n : Nat) : Nat := 32 / n

/-- PACK of n registers of one thread. -/
def packed (n : Nat) (f : Fields) (c : Ctx) (st t : Nat) : Word × FFlags :=
  let r := (List.range n).foldl (fun (acc : Nat × FFlags) k =>
    let x := convert f.ty (packSrc f.ty) (rmode f) (satBit f) c.la.ftz (c.runReg f.u st t (f.a.toNat + k))
    (acc.1 + x.1.toNat % 2 ^ packBits n * 2 ^ (packBits n * k), acc.2 ||| x.2)) (0, 0)
  (BitVec.ofNat 64 r.1, r.2)

def packOp (i : Instr) (n : Nat) (s : State) : Outcome State Fault Refusal :=
  guarded i s fun f c s =>
    if f.u then
      .done (c.finish f 0 (fun st => [wrAll f.d.toNat (packed n f c st 0).1]) (fun st => if c.touched st then (packed n f c st 0).2 else 0) s)
    else
      .done (c.finish f 0 (fun st => (activeIn c.ply.exm st).flatMap fun t => vecWrites false f.d.toNat t (packed n f c st t).1)
        (fun st => (activeIn c.ply.exm st).foldl (fun fl t => fl ||| (packed n f c st t).2) 0) s)

def execPackPair (f : Fields) (s : State) : Outcome State Fault Refusal := packOp (.packPair f) 2 s
def execPackQuad (f : Fields) (s : State) : Outcome State Fault Refusal := packOp (.packQuad f) 4 s
def execPackOct (f : Fields) (s : State) : Outcome State Fault Refusal := packOp (.packOct f) 8 s

/-- Field k of a word unpacked to 32 bits, extended to 64 by the type. -/
def unpackField (n : Nat) (f : Fields) (c : Ctx) (a : Word) (k : Nat) : Word × FFlags :=
  let v := BitVec.ofNat 64 (a.toNat / 2 ^ (packBits n * k) % 2 ^ packBits n)
  if f.ty.isFloat then convert .f32 f.ty .rne false c.la.ftz v else (fillS f.ty v, 0)

def unpkOp (i : Instr) (n : Nat) (s : State) : Outcome State Fault Refusal :=
  guarded i s fun f c s =>
    let src := fun st t => c.runReg f.u st t f.a.toNat
    let flags := fun a => (List.range n).foldl (fun fl k => fl ||| (unpackField n f c a k).2) (0 : FFlags)
    if f.u then
      .done (c.finish f 0 (fun st => (List.range n).map fun k => wrAll (f.d.toNat + k) (unpackField n f c (src st 0) k).1)
        (fun st => if c.touched st then flags (src st 0) else 0) s)
    else
      .done (c.finish f 0
        (fun st => (activeIn c.ply.exm st).flatMap fun t => (List.range n).flatMap fun k =>
          vecWrites false (f.d.toNat + k) t (unpackField n f c (src st t) k).1)
        (fun st => (activeIn c.ply.exm st).foldl (fun fl t => fl ||| flags (src st t)) 0) s)

def execUnpkPair (f : Fields) (s : State) : Outcome State Fault Refusal := unpkOp (.unpkPair f) 2 s
def execUnpkQuad (f : Fields) (s : State) : Outcome State Fault Refusal := unpkOp (.unpkQuad f) 4 s
def execUnpkOct (f : Fields) (s : State) : Outcome State Fault Refusal := unpkOp (.unpkOct f) 8 s

end Sys2Proof.Machine
end

