-- ==== Sys2Proof/Machine/Lane.lean ====
section
/-! DEFINITION. Lane instructions (R173 to R179) and RDS (R104, R180). -/

namespace Sys2Proof.Machine

open Host (Outcome)

/-- A's value in a thread of the path, at the position the instruction holds in that thread's strand (R174). -/
def Ctx.laneA (c : Ctx) (f : Fields) (t : Nat) : Word := c.rdVec (f.ty.bits == 64) f.a.toNat t

/-- A value written to the vector destination of some threads. -/
def Ctx.finishVec (c : Ctx) (f : Fields) (wide : Bool) (val : Nat → Word) (fl : FFlags) (s : State) : State :=
  c.finish f 0 (fun st => (activeIn c.ply.exm st).flatMap fun t => vecWrites wide f.d.toNat t (val t))
    (fun st => if c.touched st then fl else 0) s

/-- A scalar result in every touched strand's copy (R159). -/
def Ctx.finishScal (c : Ctx) (f : Fields) (ty : Ty) (val : Word) (fl : FFlags) (s : State) : State :=
  c.finish f 0 (fun st => if c.touched st then [wrAll f.d.toNat (fillS ty val)] else [])
    (fun st => if c.touched st then fl else 0) s

/-! ## SHFL (R175) -/

/-- The source thread of SHFL for a thread t and an index b, none when it keeps its own value; seg is the segment. -/
def shflFrom (fn seg t b : Nat) : Option Nat :=
  let base := t - t % seg
  match fn with
  | 0 => some (base + b % seg)
  | 1 => if b ≤ t - base then some (t - b) else none
  | 2 => if b < base + seg - t then some (t + b) else none
  | _ => some (t ^^^ (b % seg))

def shflOp (i : Instr) (fn : Nat) (s : State) : Outcome State Fault Refusal :=
  guarded i s fun f c s =>
    let seg := min (128 / 2 ^ (f.m.toNat % 8)) c.w
    let act := c.active
    let idx := fun t =>
      let b := if f.src = 1 then c.rdScal (t / 8) f.b.toNat else if f.src = 2 then f.b.signExtend 64 else c.rdVec false f.b.toNat t
      b.toNat % 2 ^ 32
    let val := fun t =>
      match shflFrom fn seg t (idx t) with
      | some j => if act.contains j then c.laneA f j else c.laneA f t
      | none => c.laneA f t
    .done (c.finishVec f (f.ty.bits == 64) val 0 s)

def execShflIdx (f : Fields) (s : State) : Outcome State Fault Refusal := shflOp (.shflIdx f) 0 s
def execShflUp (f : Fields) (s : State) : Outcome State Fault Refusal := shflOp (.shflUp f) 1 s
def execShflDown (f : Fields) (s : State) : Outcome State Fault Refusal := shflOp (.shflDown f) 2 s
def execShflXor (f : Fields) (s : State) : Outcome State Fault Refusal := shflOp (.shflXor f) 3 s

/-! ## VOTE (R176) -/

/-- VOTE.all, VOTE.any and VOTE.eq: all ones is 64 ones for either type (DESIGN CHOICE, log 81). -/
def voteOp (i : Instr) (g : List Word → Bool) (s : State) : Outcome State Fault Refusal :=
  guarded i s fun f c s => .done (c.finishScal f .b64 (allOnesIf (g (c.active.map (c.laneA f)))) 0 s)

def execVoteAll (f : Fields) (s : State) : Outcome State Fault Refusal := voteOp (.voteAll f) (fun l => l.all (· != 0)) s
def execVoteAny (f : Fields) (s : State) : Outcome State Fault Refusal := voteOp (.voteAny f) (fun l => l.any (· != 0)) s
def execVoteBallot (f : Fields) (s : State) : Outcome State Fault Refusal :=
  guarded (.voteBallot f) s fun f c s =>
    let bits := threadSet c.active fun t => c.laneA f t != 0
    .done (c.finish f 0 (fun st => if c.touched st then c.maskWrites f.d.toNat bits else []) (fun _ => 0) s)
def execVoteEq (f : Fields) (s : State) : Outcome State Fault Refusal := voteOp (.voteEq f) (fun l => l.all (· == l.headD 0)) s

/-! ## RED and SCAN (R173, R177, R178) -/

/-- The operations, in the order of FN. -/
inductive LaneOp where
  | add | min | max | and | or | xor
deriving DecidableEq, Repr

/-- The identity an absent thread contributes. -/
def LaneOp.identity (o : LaneOp) (ty : Ty) : Word :=
  match o, ty with
  | .add, .f32 => 0x80000000
  | .min, .f32 => 0x7F800000
  | .max, .f32 => 0xFF800000
  | .min, _ => ty.ofInt ty.maxInt
  | .max, _ => ty.ofInt ty.minInt
  | .and, _ => ty.ofInt (-1)
  | _, _ => 0

/-- Two values combined, with FTZ on inputs and result for f32 (R136, R165, R177). -/
def LaneOp.combine (o : LaneOp) (ty : Ty) (ftz : Bool) (a b : Word) : Word × FFlags :=
  match o, ty with
  | .add, .f32 =>
    let x := (Ty.unpack .f32 ftz a).add .rne (Ty.unpack .f32 ftz b)
    let r := Ty.round .f32 .rne false ftz x.1
    (r.1, r.2 ||| x.2)
  | .min, .f32 => Ty.minMax .f32 false ftz (Ty.unpack .f32 ftz a) (Ty.unpack .f32 ftz b)
  | .max, .f32 => Ty.minMax .f32 true ftz (Ty.unpack .f32 ftz a) (Ty.unpack .f32 ftz b)
  | .add, _ => (ty.ofInt (ty.toInt a + ty.toInt b), 0)
  | .min, _ => (ty.ofInt (Min.min (ty.toInt a) (ty.toInt b)), 0)
  | .max, _ => (ty.ofInt (Max.max (ty.toInt a) (ty.toInt b)), 0)
  | .and, _ => (ofN (low ty (a &&& b)), 0)
  | .or, _ => (ofN (low ty (a ||| b)), 0)
  | .xor, _ => (ofN (low ty (a ^^^ b)), 0)

/-- One level of the tree. -/
def treeLevel (g : Word → Word → Word × FFlags) : List (Word × FFlags) → List (Word × FFlags)
  | a :: b :: l =>
    let r := g a.1 b.1
    (r.1, r.2 ||| a.2 ||| b.2) :: treeLevel g l
  | l => l

/-- The levels of the tree, with fuel. -/
def treeFold (g : Word → Word → Word × FFlags) : Nat → List (Word × FFlags) → Word × FFlags
  | 0, l => l.headD (0, 0)
  | n + 1, l => treeFold g n (treeLevel g l)

/-- A vector value as a scan or reduction reads it. -/
def redOp (i : Instr) (o : LaneOp) (s : State) : Outcome State Fault Refusal :=
  guarded i s fun f c s =>
    let leaves := (List.range c.w).map fun t => (if c.active.contains t then c.laneA f t else o.identity f.ty, (0 : FFlags))
    let r := treeFold (o.combine f.ty c.la.ftz) 7 leaves
    if f.m.getLsbD 3 then .done (c.finishVec f (f.ty.bits == 64) (fun _ => r.1) r.2 s)
    else .done (c.finishScal f f.ty r.1 r.2 s)

def execRedAdd (f : Fields) (s : State) : Outcome State Fault Refusal := redOp (.redAdd f) .add s
def execRedMin (f : Fields) (s : State) : Outcome State Fault Refusal := redOp (.redMin f) .min s
def execRedMax (f : Fields) (s : State) : Outcome State Fault Refusal := redOp (.redMax f) .max s
def execRedAnd (f : Fields) (s : State) : Outcome State Fault Refusal := redOp (.redAnd f) .and s
def execRedOr (f : Fields) (s : State) : Outcome State Fault Refusal := redOp (.redOr f) .or s
def execRedXor (f : Fields) (s : State) : Outcome State Fault Refusal := redOp (.redXor f) .xor s

/-- The sequential fold: the values each active thread receives, in order, and the flags of every step, the last of an `.ex` form among them: R178 is
silent on flags, and takes the operations of RED, of which R177 gives the flags of every node (DESIGN CHOICE, log 92). -/
def scanGo (g : Word → Word → Word × FFlags) (ex : Bool) : Word → List (Nat × Word) → List (Nat × Word) × FFlags
  | _, [] => ([], 0)
  | acc, (t, x) :: l =>
    let r := g acc x
    let rest := scanGo g ex r.1 l
    ((t, if ex then acc else r.1) :: rest.1, r.2 ||| rest.2)

def scanOp (i : Instr) (o : LaneOp) (s : State) : Outcome State Fault Refusal :=
  guarded i s fun f c s =>
    let r := scanGo (o.combine f.ty c.la.ftz) (f.m.getLsbD 4) (o.identity f.ty) (c.active.map fun t => (t, c.laneA f t))
    .done (c.finishVec f (f.ty.bits == 64) (fun t => ((r.1.find? fun p => p.1 == t).map Prod.snd).getD 0) r.2 s)

def execScanAdd (f : Fields) (s : State) : Outcome State Fault Refusal := scanOp (.scanAdd f) .add s
def execScanMin (f : Fields) (s : State) : Outcome State Fault Refusal := scanOp (.scanMin f) .min s
def execScanMax (f : Fields) (s : State) : Outcome State Fault Refusal := scanOp (.scanMax f) .max s
def execScanAnd (f : Fields) (s : State) : Outcome State Fault Refusal := scanOp (.scanAnd f) .and s
def execScanOr (f : Fields) (s : State) : Outcome State Fault Refusal := scanOp (.scanOr f) .or s
def execScanXor (f : Fields) (s : State) : Outcome State Fault Refusal := scanOp (.scanXor f) .xor s

/-! ## BCAST (R179) -/

def execBcast (f : Fields) (s : State) : Outcome State Fault Refusal :=
  guarded (.bcast f) s fun f c s =>
    let wide := f.ty.bits == 64
    match c.bcastFrom f with
    | some j =>
      if f.m.getLsbD 3 then .done (c.finishVec f wide (fun _ => c.laneA f j) 0 s)
      else .done (c.finishScal f f.ty (c.laneA f j) 0 s)
    | none =>
      if f.m.getLsbD 3 then .done (c.finishVec f wide (c.laneA f) 0 s) else .done (c.finish0 f s)

/-! ## RDS (R104, R180) -/

/-- `$cycles` as sampled at an issue: with those that have passed before it (R104, R395). -/
def Ctx.cyclesNow (c : Ctx) (s : State) : Word := BitVec.ofNat 64 ((c.passToIssue s).cycles c.sp)

/-- A special value in ply code, for a thread. -/
def Ctx.special (c : Ctx) (s : State) (sel t : Nat) : Word :=
  let gx := max c.la.lrec.gridX 1
  let gy := max c.la.lrec.gridY 1
  match sel with
  | 0x00 => ofN t
  | 0x01 => ofN (t % 8)
  | 0x02 => ofN (t / 8)
  | 0x03 => ofN c.plyNo
  | 0x04 => ofN c.width
  | 0x05 => c.path.strands.setWidth 64
  | 0x06 => ofN c.idx
  | 0x07 => ofN c.sk.index
  | 0x08 => ofN (c.sk.index % gx)
  | 0x09 => ofN (c.sk.index / gx % gy)
  | 0x0A => ofN (c.sk.index / (gx * gy))
  | 0x0B => ofN c.sp
  | 0x0C => c.cyclesNow s
  | _ => ofN s.time

/-- A special value in distaff code. -/
def Ctx.specialDist (c : Ctx) (s : State) (sel : Nat) : Word :=
  match sel with
  | 0x00 | 0x01 | 0x02 | 0x05 | 0x06 => 0
  | 0x03 => ones64
  | 0x04 => ofN c.w
  | _ => c.special s sel 0

def execRds (f : Fields) (s : State) : Outcome State Fault Refusal :=
  guarded (.rds f) s fun f c s =>
    let sel := f.m.toNat
    if c.dist then .done (c.finishAll f [wrAll f.d.toNat (c.specialDist s sel)] s)
    else .done (c.finishVec f ([0x07, 0x0C, 0x0D].contains sel) (c.special s sel) 0 s)

end Sys2Proof.Machine
end

