-- ==== Sys2Proof/Machine/Translate.lean ====
section
/-! DEFINITION. Page tables (R220 to R222), the structures that hold translations (R223), private areas (R224), the pieces of an
access (R193, R197), and fetching instruction words (R83, R86, R114, R227). -/

namespace Sys2Proof.Machine

/-! ## Walks -/

/-- What translating an address finds. -/
inductive Tr where
  | page (x : Xlat)
  /-- Not mapped; the entry says whether a leaf with MIG set ended the walk -/
  | notMapped (x : Xlat)
  /-- TABLE_FAULT, with the physical address of the failing entry -/
  | table (pa : Nat)
  /-- the entry lies in a GDDR-7 device that is not trained yet, or that retrains while the read of it misses (R382, R383) -/
  | wait
deriving DecidableEq, Repr

/-- The bytes of a local range are all present: neither end lies in a hole (R217). -/
def State.rangePresent (s : State) (off n : Nat) : Bool := s.present off && s.present (off + (n - 1))

/-- A physical range is remote, or local and present. -/
def State.notHole (s : State) (pa n : Nat) : Bool := !s.isLocal pa || s.rangePresent (offsetOf pa) n

/-- A missing page, at 4 KiB, with its MIG mark. -/
def missing (asid va : Nat) (mig : Bool) : Xlat := { asid, size := 12, vpn := va / 4096, page := none, mig }

/-- The malformed conditions of R222 at a level whose entries cover 2 ^ lo bytes. -/
def malformed (s : State) (level lo : Nat) (e : Word) (pa : Nat) : Bool :=
  let t := e.getLsbD 1
  fld e 52 6 != 0 || fld e 10 2 != 0 || (!t && decide (level < 2)) || (t && level == 4) || fld e 6 2 == 3
  || (e.getLsbD 5 && level == 2) || !s.notHole pa (if t then 4096 else 2 ^ lo) || (!t && pa % 2 ^ lo != 0)

/-- Bytes of the physical address space. -/
def paSpace : Nat := 2 ^ 52

/-- The translation a leaf gives; a member of a contiguous group gives the group's, its own page where the member says (R221, R238). -/
def leaf (asid va lo idx : Nat) (e : Word) (pa : Nat) : Xlat :=
  let attr : PageAttr := { r := e.getLsbD 2, w := e.getLsbD 3, x := e.getLsbD 4, attr := fld e 6 2 }
  if e.getLsbD 5 then
    { asid, size := lo + 4, vpn := va / 2 ^ (lo + 4), page := some ((pa + paSpace - idx % 16 * 2 ^ lo) % paSpace, attr) }
  else { asid, size := lo, vpn := va / 2 ^ lo, page := some (pa, attr) }

/-- The five levels (R220): number, lowest index bit and number of index bits. -/
def levels : List (Nat × Nat × Nat) := [(0, 48, 8), (1, 39, 9), (2, 30, 9), (3, 21, 9), (4, 12, 9)]

/-- The physical address in an entry. -/
def entryPa (e : Word) : Nat := fld e 12 40 * 4096

/-- A valid entry gives TABLE_FAULT. -/
def badEntry (s : State) (level lo : Nat) (e : Word) : Bool :=
  (e.getLsbD 1 && (e.getLsbD 9 || !s.isLocal (entryPa e))) || malformed s level lo e (entryPa e)

/-- The entries that a walk meets, with their addresses, one level after another as far as it goes; `read` is memory at some time. -/
def walkFrom (s : State) (read : Nat → Word) (va : Nat) : List (Nat × Nat × Nat) → Nat → List (Nat × Word)
  | [], _ => []
  | (level, lo, bits) :: more, tbl =>
    let ea := tbl + 8 * (va / 2 ^ lo % 2 ^ bits)
    let e := read ea
    (ea, e) :: (if e.getLsbD 0 && e.getLsbD 1 && !badEntry s level lo e then walkFrom s read va more (entryPa e) else [])

/-- What the entries of a walk come to (R222). -/
def walkEnd (s : State) (asid va : Nat) : List (Nat × Nat × Nat) → List (Nat × Word) → Tr
  | (level, lo, bits) :: more, (ea, e) :: rest =>
    if !s.trained (offsetOf ea) || s.retrains (offsetOf ea) then .wait
    else if !e.getLsbD 0 then .notMapped (missing asid va false)
    else if badEntry s level lo e then .table ea
    else if e.getLsbD 1 then walkEnd s asid va more rest
    else if e.getLsbD 8 then .notMapped (missing asid va true)
    else .page (leaf asid va lo (va / 2 ^ lo % 2 ^ bits) e (entryPa e))
  | _, _ => .table 0

/-! ## The entries in force (R115, R225, R226) -/

/-- A block of 2 ^ size bytes at number n of an address space meets the range. -/
def ShootRange.meets (r : ShootRange) (asid size n : Nat) : Bool :=
  asid == r.asid && (match r.size with
    | none => true
    | some k => let m := max k size; n / 2 ^ (m - size) == r.va / 2 ^ m)

/-- The page of an address lies in the range. -/
def ShootRange.hasPage (r : ShootRange) (asid va : Nat) : Bool := r.meets asid 12 (va / 4096)

/-- A range removes a translation. -/
def ShootRange.covers (r : ShootRange) (x : Xlat) : Bool := r.meets x.asid x.size x.vpn

/-- A change from a leaf with MIG set to one without it and with another address needs no shootdown (R226). -/
def migrated (old new : Word) : Bool :=
  old.getLsbD 0 && new.getLsbD 0 && !old.getLsbD 1 && !new.getLsbD 1 && old.getLsbD 8 && !new.getLsbD 8 && entryPa old != entryPa new

/-- A word of memory as it was before some events, given with the oldest first. -/
def State.wordBefore (s : State) (later : List TableEvent) (a : Nat) : Word :=
  (later.findSome? fun e => match e with | .stored b old => if a = b then some old else none | _ => none).getD (s.paRead a 8)

/-- The entries of a walk after a store over the word at an address: a valid entry stays in force as it was, but for the end of a migration; from
any other the walk reads on. -/
def storedOver (s : State) (read : Nat → Word) (va a : Nat) : List (Nat × Nat × Nat) → List (Nat × Word) → List (Nat × Word)
  | (level, lo, bits) :: more, (ea, e) :: rest =>
    if ea != a then (ea, e) :: storedOver s read va a more rest
    else if e.getLsbD 0 && !migrated e (read ea) then (ea, e) :: rest
    else walkFrom s read va ((level, lo, bits) :: more) (ea - 8 * (va / 2 ^ lo % 2 ^ bits))
  | _, p => p

/-- A shootdown that meets the translation of a large leaf, though not the page of the address: the leaf is read again. -/
def leafShot (s : State) (read : Nat → Word) (asid va : Nat) (r : ShootRange) : List (Nat × Nat × Nat) → List (Nat × Word) → List (Nat × Word)
  | (level, lo, bits) :: more, (ea, e) :: rest =>
    let size := if e.getLsbD 5 then lo + 4 else lo
    if e.getLsbD 0 && !e.getLsbD 1 && r.meets asid size (va / 2 ^ size) then
      walkFrom s read va ((level, lo, bits) :: more) (ea - 8 * (va / 2 ^ lo % 2 ^ bits))
    else (ea, e) :: leafShot s read asid va r more rest
  | _, p => p

/-- The entries in force for an address after the events of a list, the oldest first, from those before it. -/
def forceGo (s : State) (asid root va : Nat) : List TableEvent → List (Nat × Word) → List (Nat × Word)
  | [], p => p
  | ev :: later, p =>
    let read := s.wordBefore later
    forceGo s asid root va later (match ev with
      | .stored a _ => storedOver s read va a levels p
      | .shot r => if r.hasPage asid va then walkFrom s read va levels root else leafShot s read asid va r levels p
      | .rooted b t => if b == asid && t == root then walkFrom s read va levels root else p)

/-- The entries through which an address translates now: what a walk finds in memory, but that a changed valid entry is in force as it was until
a shootdown of its page completes, whether or not a walk has read it (R115, R226; DEDUCED, log 77). -/
def State.inForce (s : State) (asid root va : Nat) : List (Nat × Word) :=
  let evs := s.known.reverse
  forceGo s asid root va evs (walkFrom s (s.wordBefore evs) va levels root)

/-- A walk from a level-0 table (R222), over the entries in force. -/
def walk (s : State) (asid root va : Nat) : Tr :=
  if !s.isLocal root || !s.rangePresent (offsetOf root) 4096 then .table (root + 8 * (va / 2 ^ 48 % 256))
  else walkEnd s asid va levels (s.inForce asid root va)

/-! ## Lookup (R223) -/

/-- A held translation covers an address of an address space. -/
def Xlat.covers (x : Xlat) (asid va : Nat) : Bool := x.asid == asid && x.vpn == va / 2 ^ x.size

/-- Where a translation puts an address. -/
def Xlat.place (x : Xlat) (va : Nat) : Option (Nat × PageAttr) := x.page.map fun p => ((p.1 + va % 2 ^ x.size) % paSpace, p.2)

/-- The outcome a held entry gives. -/
def Xlat.tr (x : Xlat) : Tr := if x.page.isSome then .page x else .notMapped x

/-- The translation of an address that no structure holds: a walk. -/
def translate (s : State) (asid root va : Nat) : Tr := walk s asid root va

/-- A held entry gives the outcome, a Not-mapped walk too, until a shootdown or a wake clears it (R223). -/
def pick (c : Option Xlat) (alt : Tr) : Tr :=
  match c with
  | none => alt
  | some x => x.tr

/-- A lookup by a lane of a spindle, or by the spindle without a lane (R223): the last-page register, the core TLB, the frame
TLB, a walk. -/
def lookup (s : State) (sp : Nat) (lane : Option Nat) (asid root va : Nat) : Tr :=
  let x := s.spindle sp
  match lane.bind fun l => (aget? x.lpr l).filter fun y => y.covers asid va with
  | some y => y.tr
  | none =>
    let f := (frameOf sp).bind fun n => (s.frame n).tlb.find? fun y => y.covers asid va
    let c := x.tlb.find? fun y => y.covers asid va
    pick c (pick f (translate s asid root va))

/-- Puts a translation into a TLB of so many entries, once, in place of another of the same page; which entry leaves a full one is free. -/
def putXlat (cap drop : Nat) (x : Xlat) (l : List Xlat) : List Xlat :=
  if l.contains x then l
  else
    let l := l.filter fun y => !(y.asid == x.asid && y.size == x.size && y.vpn == x.vpn)
    x :: (if cap ≤ l.length then l.eraseIdx (drop % cap) else l)

/-- Entries of a core TLB and of a frame TLB. -/
def coreTlbSize : Nat := 2048
def frameTlbSize : Nat := 32768

/-- What a lookup leaves in the lane, the spindle and the frame. A Not-mapped walk is held by the spindle and the frame whose lookup made it: one
that only hit its frame's entry leaves nothing. -/
def fillXlat (s : State) (sp : Nat) (lane : Option Nat) (t : Tr) : State :=
  let put := fun (x : Xlat) (s : State) =>
    let s := s.modSpindle sp fun y => { y with tlb := putXlat coreTlbSize (Config.freeNat s.tick 10) x y.tlb }
    match frameOf sp with
    | none => s
    | some n => s.modFrame n fun y => { y with tlb := putXlat frameTlbSize (Config.freeNat s.tick 11) x y.tlb }
  match t with
  | .page x =>
    let s := put x s
    (match lane with
     | none => s
     | some l => s.modSpindle sp fun y => { y with lpr := aput y.lpr l x })
  | .notMapped x => if (frameOf sp).any fun n => (s.frame n).tlb.contains x then s else put x s
  | _ => s

/-- The kind of use a page must permit (R222). -/
inductive Need where
  | read | write | both | exec
deriving DecidableEq, Repr

def PageAttr.permits (p : PageAttr) (n : Need) : Bool :=
  match n with
  | .read => p.r
  | .write => p.w
  | .both => p.r && p.w
  | .exec => p.x

/-- The physical address and attributes of a translated address. -/
def Tr.place (t : Tr) (va : Nat) : Option (Nat × PageAttr) :=
  match t with
  | .page x => x.place va
  | _ => none

/-! ## Translations the part makes for a launch itself (R54, R55, R64) -/

/-- A translation that no lane, spindle or frame holds for the part's own access. -/
def State.fresh? (s : State) (asid root va : Nat) (n : Need) : Option Nat :=
  match (translate s asid root va).place va with
  | some (pa, a) => if a.permits n then some pa else none
  | none => none

/-- Bytes at a virtual address, read page by page; none when some page cannot be read. -/
def State.vaBytes (s : State) (asid root : Nat) : Nat → Nat → Option (List Byte)
  | _, 0 => some []
  | va, k + 1 =>
    match s.fresh? asid root va .read with
    | none => none
    | some pa => (s.vaBytes asid root (va + 1) k).map fun l => s.paByte pa :: l

/-! ## Reaching memory (R218, R236, R382, R386) -/

/-- A Sweash link to a package is up (R386). -/
def State.linked (s : State) (pkg : Nat) : Bool :=
  (List.range s.nLinks).any fun n => (agetD s.links n {}).up && (agetD s.links n {}).peer == pkg

/-- A physical address can be reached now: its device is trained, or a link to its package is up (R382, R386). -/
def State.reachable (s : State) (pa : Nat) : Bool :=
  if s.isLocal pa then s.trained (offsetOf pa) else s.linked (pa / 0x400000000000)

/-- A physical address can be read now: it can be reached, and its device does not retrain while the read misses (R383). -/
def State.readable (s : State) (pa : Nat) : Bool := s.reachable pa && !(s.isLocal pa && s.retrains (offsetOf pa))

/-- Every line that a range touches can be read now. -/
def State.readsAll (s : State) (pa n : Nat) : Bool :=
  (List.range ((n + pa % 64 + 63) / 64)).all fun i => s.readable (pa / 64 * 64 + 64 * i)

/-- Every 64-byte line of a range from an aligned address on can be reached now. -/
def State.reaches (s : State) (pa n : Nat) : Bool := (List.range ((n + 63) / 64)).all fun i => s.reachable (pa + 64 * i)

/-- The stack whose controllers own a physical address. -/
def State.ownerDie (s : State) (pa : Nat) : Nat := s.deviceOf (offsetOf pa) / 8

/-- Counts a 64-byte read or write that reaches a die's last-level cache (R236): one that may be served by L1 or L2 reaches it or not, freely,
since caches have no other effect (DESIGN CHOICE, log 4); `sure` is one that always does. A die never counts its own stack. -/
def State.hotCount (s : State) (slot pa : Nat) (sure : Bool) : State :=
  let die := s.ownerDie pa
  if !s.hotcfg.getLsbD 63 || !s.isLocal pa || s.gddrBytes ≤ offsetOf pa || slot == die || !(sure || Config.freeBool s.tick (8 * (pa / 64) + 5)) then s
  else
    let key := (die * 0x200000 + offsetOf pa / 0x10000) * 8 + slot
    { s with hot := sset s.hot key (if sget s.hot key == 0xFFFF then 0xFFFF else sget s.hot key + 1) }

/-- Counts the lines of some accesses of one instruction, each line once (R223, R236); an uncached one always reaches the last-level cache. -/
def State.hotLines (s : State) (slot : Nat) (as : List (Nat × PageAttr)) : State :=
  ((as.map fun x => (x.1 / 64 * 64, x.2.attr == 1)).eraseDups).foldl (fun s x => s.hotCount slot x.1 x.2) s

/-- Counts the reads of a walk by a spindle, where its lookup had to make one. -/
def State.hotWalk (s : State) (sp asid root va : Nat) : State :=
  if !s.hotcfg.getLsbD 63 || (s.spindle sp).tlb.any (fun x => x.covers asid va) || (frameOf sp).any (fun n => (s.frame n).tlb.any fun x => x.covers asid va) then s
  else (s.inForce asid root va).foldl (fun s e => s.hotCount (stackOf sp) e.1 false) s

/-! ## Private areas (R224) -/

/-- The private base of a ply. -/
def Ctx.privBase (c : Ctx) : Nat := c.la.priv * 2 ^ 45 + (64 * c.sp + c.ply.privNum.getD 0) * 2 ^ 25

/-! ## Pieces (R193, R197) -/

/-- A piece of one thread's access: its place within the access, its size, and its virtual address, or its scratchpad offset. -/
structure Piece where
  at_ : Nat
  n : Nat
  va : Nat
deriving DecidableEq, Repr

/-- Pieces of a global access: one, or two where a misaligned access crosses a line. -/
def globalPieces (a n : Nat) : List Piece :=
  if a % n == 0 || a / 64 == (a + (n - 1)) / 64 then [⟨0, n, a⟩]
  else
    let k := 64 - a % 64
    [⟨0, k, a⟩, ⟨k, n - k, a + k⟩]

/-- Pieces of a private access: one for each 32-bit word it touches (R193). -/
def privatePieces (base w t o n : Nat) : List Piece :=
  (List.range ((o + (n - 1)) / 4 + 1 - o / 4)).map fun j =>
    let k := o / 4 + j
    let lo := max o (4 * k)
    let hi := min (o + n) (4 * k + 4)
    ⟨lo - o, hi - lo, base + (k * w + t) * 4 + lo % 4⟩

/-- The lane on which a thread runs: its slot group starts at the home slot (R73, R223). -/
def Ctx.laneOf (c : Ctx) (t : Nat) : Option Nat := if c.dist then none else some (8 * ((c.ply.home + t / 8) % 8) + t % 8)

/-! ## Fetching (R83, R86, R100 check 1, R114, R227) -/

/-- What fetching a word gives. -/
inductive Got where
  | word (w : Word) (line : CodeLine)
  /-- the fetch fault; whether a record is written, with its kind and information word -/
  | fault (kind : TrapKind) (rec? : Option (Nat × Word))
  /-- the device that holds the word, or a table entry, is not trained or retrains, or no link to its package is up -/
  | wait
deriving Repr

/-- The lines a party holds. -/
def Ctx.fbuf (c : Ctx) : List CodeLine := if c.dist then c.sk.dist.fbuf else c.ply.fbuf

/-- The eight words of the line that holds a physical address. -/
def lineWords (s : State) (pa : Nat) : List Word := (List.range 8).map fun k => s.paRead (pa / 64 * 64 + 8 * k) 8

/-- A word by its virtual address. A buffered line keeps its permission; where memory has changed under it, the old or the new
word is seen, freely for each fetch, and alike for an extension word in the same line (R86, R114; DESIGN CHOICE, log 9). -/
def fetchWord (c : Ctx) (s : State) (va : Word) : Got :=
  let line := va &&& ~~~63
  let t := lookup s c.sp none c.la.asid c.la.root va.toNat
  match c.fbuf.find? fun l => l.addr == line with
  | some l =>
    let old := l.at va
    (match t.place va.toNat with
     | some (pa, a) =>
       let new := s.paRead pa 8
       if old == new || !a.x || !s.readable pa then .word old l
       else .word (if Config.freeBool s.tick (8 * (va.toNat / 64) + 2) then new else old) l
     | none => .word old l)
  | none =>
    if 2 ^ 56 ≤ va.toNat then .fault .fetchFault (some (2, 0))
    else
      match t with
      | .wait => .wait
      | .table pa => .fault .tableFault (some (3, BitVec.ofNat 64 pa))
      | .notMapped x => .fault .fetchFault (if x.mig then none else some (2, 0))
      | .page x =>
        match x.place va.toNat with
        | none => .wait
        | some (pa, a) =>
          if !a.x then .fault .fetchFault (some (2, 0))
          else if !s.readable pa then .wait
          else .word (s.paRead pa 8) { addr := line, words := lineWords s pa }

/-- A line put into a buffer of at most eight; which line leaves a full buffer is free (DESIGN CHOICE, log 9). -/
def putLine (s : State) (l : CodeLine) (b : List CodeLine) : List CodeLine :=
  if b.any fun x => x.addr == l.addr then b
  else if b.length < 8 then b ++ [l]
  else b.eraseIdx (Config.freeNat s.tick 8 % 8) ++ [l]

/-- What a fetch leaves behind: the line, and the translation. -/
def Ctx.keepLine (c : Ctx) (l : CodeLine) (s : State) : State :=
  let t := lookup s c.sp none c.la.asid c.la.root l.addr.toNat
  let new := !(c.fbuf.any fun x => x.addr == l.addr)
  let s := fillXlat (s.hotWalk c.sp c.la.asid c.la.root l.addr.toNat) c.sp none t
  let s := if new then s.hotLines (stackOf c.sp) ((t.place l.addr.toNat).toList) else s
  if c.dist then c.modDist s fun d => { d with fbuf := putLine s l d.fbuf }
  else c.modPly s fun p => { p with fbuf := putLine s l p.fbuf }

/-- The instruction at a party's program counter: its words decoded, a fetch fault at one of them, or a wait. -/
inductive Fetched where
  | decoded (d : Decoded) (w : Word) (s : State)
  | fault (va : Word) (kind : TrapKind) (rec? : Option (Nat × Word)) (s : State)
  | wait
deriving Repr

/-- What a fetch that faults leaves behind: a walk that ended in Not mapped is held (R223). -/
def Ctx.keepMissing (c : Ctx) (va : Word) (s : State) : State :=
  fillXlat (s.hotWalk c.sp c.la.asid c.la.root va.toNat) c.sp none (lookup s c.sp none c.la.asid c.la.root va.toNat)

/-- Fetches the word and, when its X bit is set, the word that follows (R83). -/
def fetch (c : Ctx) (s : State) : Fetched :=
  match fetchWord c s c.pc with
  | .wait => .wait
  | .fault k r => .fault c.pc k r (c.keepMissing c.pc s)
  | .word w l =>
    let s := c.keepLine l s
    if !hasExt w then .decoded (decode w 0) w s
    else
      match s.ctx? c.who with
      | none => .wait
      | some c' =>
        match fetchWord c' s (c.pc + 8) with
        | .wait => .wait
        | .fault k r => .fault (c.pc + 8) k r (c.keepMissing (c.pc + 8) s)
        | .word x l' => .decoded (decode w x) w (c'.keepLine l' s)

end Sys2Proof.Machine
end

