-- ==== Sys2Proof/Machine/Memory.lean ====
section
/-! DEFINITION. Memory instructions (R191 to R206): addresses and the checks of R195, performing accesses in every space (R197,
R198, R361), missing pages (R227, R230), the side log (R228, R229), remote accesses (R317) and the deterministic window (R334). -/

namespace Sys2Proof.Machine

open Host (Outcome)

/-! ## One access and where it lies -/

/-- The access of one thread of an instruction: the reported thread, its strand, and its access. -/
structure ThreadAcc where
  tid : Nat
  st : Nat
  acc : Access
deriving DecidableEq, Repr

/-- An access with its pieces and what each piece's translation finds; scratchpad pieces have none. -/
structure Placed where
  u : ThreadAcc
  pieces : List (Piece × Tr)
deriving DecidableEq, Repr

/-- SPACE of a memory word (R192). -/
def spaceOf (f : Fields) : Space :=
  match f.low2 with
  | 0 => .global
  | 1 => .scratch
  | 2 => .neighbour
  | _ => .priv

/-- The displacement (R192): DISP of an extension word, else disp8 where the opcode has one. -/
def dispOf (disp8 : Bool) (f : Fields) : Word :=
  match f.x with
  | some x => extDisp x
  | none => if disp8 then f.c.signExtend 64 else 0

/-- The index of a thread, extended and scaled (R193). -/
def Ctx.indexOf (c : Ctx) (f : Fields) (t : Nat) : Word :=
  if f.ix then
    let v := c.ply.rdV f.b.toNat t
    (if f.m.getLsbD 3 then v.signExtend 64 else v.setWidth 64) <<< (f.m.toNat / 16 % 4)
  else 0

/-- a(t) (R193). -/
def Ctx.addrOf (c : Ctx) (disp8 : Bool) (f : Fields) (st t : Nat) : Word :=
  c.rdScal st f.a.toNat + c.indexOf f t + dispOf disp8 f

/-- The spindle number of a `.n` access. -/
def Ctx.spnOf (c : Ctx) (f : Fields) (st : Nat) : Nat :=
  match f.x with
  | none => 0
  | some x => if f.m.getLsbD 6 then (c.rdScal st (extSpn x)).toNat else extSpn x

/-! ## Scratchpads (R193) -/

/-- The skeins that hold a scratchpad range on a spindle: resident with their slots, then saved ones. -/
def Spindle.holders (x : Spindle) : List Skein := x.residents.map Prod.snd ++ x.saved.map fun v => v.sk

/-- A skein's range of its spindle's scratchpad holds a byte. -/
def Skein.holds (k : Skein) (scratch b : Nat) : Bool := decide (k.scrBase ≤ b) && decide (b < k.scrBase + scratch)

/-- The skein of a launch whose range holds a byte of a spindle's scratchpad. -/
def State.holderOf (s : State) (launch sp b : Nat) : Option Skein :=
  (s.spindle sp).holders.find? fun k => k.launch == launch && k.holds (s.launch launch).hdr.scratch b

/-- One byte of a spindle's scratchpad, in the range of a skein of a launch, resident or pre-empted: a `.n` access that has passed its checks
completes in either (R235, R356). -/
def State.nbrByte (s : State) (launch sp b : Nat) : Byte :=
  match s.holderOf launch sp b with
  | none => 0
  | some k => sget k.scratch (b - k.scrBase)

/-- One byte stored there; where no skein of the launch holds the byte any more, nothing is stored. -/
def State.nbrPut (s : State) (launch sp b : Nat) (v : Byte) : State :=
  match s.holderOf launch sp b with
  | none => s
  | some k => s.modUid sp k.uid fun k => { k with scratch := sset k.scratch (b - k.scrBase) v }

def State.nbrBytes (s : State) (launch sp b : Nat) : Nat → List Byte
  | 0 => []
  | n + 1 => s.nbrByte launch sp b :: s.nbrBytes launch sp (b + 1) n

def State.nbrPutBytes (s : State) (launch sp b : Nat) : List Byte → State
  | [] => s
  | v :: l => (s.nbrPut launch sp b v).nbrPutBytes launch sp (b + 1) l

/-- A compute-die spindle whose frame is gated (R356, R357). -/
def State.gated (s : State) (sp : Nat) : Bool :=
  match frameOf sp with
  | none => false
  | some n => decide (2 ≤ (s.frame n).st)

/-! ## The checks of R195 -/

/-- The trap of one thread: its kind, and a(t). -/
def accTrap (kind : TrapKind) (u : ThreadAcc) : TrapRec := { kind, elem := some u.tid, addr := u.acc.addr }

/-- Check 1: the space limit (R193). -/
def Ctx.limitTrap (c : Ctx) (s : State) (sp : Space) (n : Nat) (u : ThreadAcc) : Option TrapKind :=
  let a := u.acc.addr.toNat
  match sp with
  | .global => if a + n ≤ 2 ^ 56 then none else some .addrRange
  | .scratch => if a + n ≤ c.la.hdr.scratch then none else some .scratchLimit
  | .priv => if a + n ≤ 4 * c.la.hdr.priv then none else some .privateLimit
  | .neighbour =>
    let t := c.sp / 16 * 16 + u.acc.spn
    if u.acc.spn < 16 && a + n ≤ 393216 && (List.range n).all fun k => (s.holderOf c.sk.launch t (a + k)).isSome then none
    else some .nbrRange

/-- Check 3: ingress is open for every byte (R356). -/
def Ctx.ingressOpen (c : Ctx) (s : State) (n : Nat) (u : ThreadAcc) : Bool :=
  let t := c.sp / 16 * 16 + u.acc.spn
  let a := u.acc.addr.toNat
  !s.gated t && (List.range n).all fun k =>
    (s.spindle t).residents.any fun p => p.2.launch == c.sk.launch && p.2.pre == .no && p.2.holds c.la.hdr.scratch (a + k)

/-- The pieces of an access. -/
def Ctx.piecesOf (c : Ctx) (sp : Space) (n : Nat) (u : ThreadAcc) : List Piece :=
  match sp with
  | .global => globalPieces u.acc.addr.toNat n
  | .priv => privatePieces c.privBase c.w u.acc.tid u.acc.addr.toNat n
  | _ => []

/-- An access placed: every piece looked up (R223). -/
def Ctx.place (c : Ctx) (s : State) (sp : Space) (n : Nat) (u : ThreadAcc) : Placed :=
  { u, pieces := (c.piecesOf sp n u).map fun p => (p, lookup s c.sp (c.laneOf u.acc.tid) c.la.asid c.la.root p.va) }

/-- Checks 4 and 5 of a placed access. -/
def Placed.pageTrap (p : Placed) (need : Need) (n : Nat) : Option TrapKind :=
  let got := p.pieces.filterMap fun q => q.2.place q.1.va
  if got.any fun x => !x.2.permits need then some .accessFault
  else if p.u.acc.addr.toNat % n != 0 && got.length == p.pieces.length && got.any fun x => x.2.attr != (got.headD (0, ⟨true, true, true, 0⟩)).2.attr
  then some .misalignedAttr
  else none

/-- The first check one thread fails, if any. -/
def Ctx.accCheck (c : Ctx) (s : State) (sp : Space) (need : Need) (n : Nat) (aligned : Bool) (p : Placed) : Option TrapKind :=
  match c.limitTrap s sp n p.u with
  | some k => some k
  | none =>
    if aligned && p.u.acc.addr.toNat % n != 0 then some .atomAlign
    else if sp == .neighbour && !c.ingressOpen s n p.u then some .gatedTarget
    else p.pageTrap need n

/-- The trap of the lowest thread that fails a check of R195. -/
def Ctx.accTraps (c : Ctx) (s : State) (sp : Space) (need : Need) (n : Nat) (aligned : Bool) (ps : List Placed) : Option TrapRec :=
  ps.findSome? fun p => (c.accCheck s sp need n aligned p).map fun k => accTrap k p.u

/-! ## The deterministic window (R334) -/

/-- An address lies in a skein's window. -/
def inWindow (detwin a : Word) : Bool :=
  let lg := fld detwin 0 6
  lg != 0 && a.toNat / 2 ^ lg == fld detwin 12 44 * 4096 / 2 ^ lg

/-- The lowest thread whose access needs the token the party lacks. -/
def Ctx.tokenLack (c : Ctx) (rmw : Bool) (sp : Space) (ps : List Placed) : Option TrapRec :=
  if !c.la.det || c.handler || (!c.dist && c.ply.token) then none
  else (ps.find? fun p => rmw || (sp == .global && inWindow c.sk.detwin p.u.acc.addr)).map fun p =>
    { kind := .detToken, elem := some p.u.tid }

/-! ## Performing an access -/

/-- Read-modify-write of a value of a type (R204, R206). -/
def rmwNew (op : Rmw) (ty : Ty) (ftz : Bool) (old c x : Word) : Word :=
  let c := ofN (low ty c)
  let o := fun (l : LaneOp) => (l.combine ty ftz old c).1
  match op with
  | .add => o .add
  | .min => o .min
  | .max => o .max
  | .and => o .and
  | .or => o .or
  | .xor => o .xor
  | .xchg => c
  | .cas => if low ty old = low ty x then c else old
  | .inc => if c.toNat ≤ old.toNat then 0 else old + 1

/-- Private lines of a ply: the line of an address, which L1 takes unless its page bypasses L1 (R221). The bytes are the ply's own, apart from the
global ones behind them (R361); what they are before the ply stores them is free (DESIGN CHOICE, log 74). -/
def privFill (s : State) (base : Nat) (va : Nat) (keep : Bool) (l : List PrivLine) : List PrivLine :=
  let n := (va - base) / 64
  if l.any fun x => x.line == n then l.map fun x => if x.line == n then { x with cached := x.cached || keep } else x
  else l ++ [{ line := n, dirty := false, bytes := (List.range 64).map fun i => Config.freeByte s.tick (2 ^ 60 + va / 64 * 64 + i), cached := keep }]

/-- n bytes of a private line. -/
def privBytes (base va n : Nat) (l : List PrivLine) : List Byte :=
  match l.find? fun x => x.line == (va - base) / 64 with
  | none => []
  | some x => (x.bytes.drop (va % 64)).take n

/-- Bytes of a list replaced from a place on. -/
def splice (l : List Byte) (i : Nat) (new : List Byte) : List Byte := l.take i ++ new ++ l.drop (i + new.length)

/-- New bytes in a private line: dirty where L1 holds it. -/
def privPut (base va : Nat) (new : List Byte) (l : List PrivLine) : List PrivLine :=
  l.map fun x => if x.line == (va - base) / 64 then { x with dirty := x.cached, bytes := splice x.bytes (va % 64) new } else x

/-- A page of write-back attribute is held in L1; an uncached or streaming one bypasses it (R221). -/
def PageAttr.inL1 (a : PageAttr) : Bool := a.attr == 0

/-- The bytes of a piece at a physical address; a private line is brought in first. -/
def Ctx.pieceRead (c : Ctx) (sp : Space) (p : Piece) (x : Nat × PageAttr) (s : State) : List Byte × State :=
  match sp with
  | .priv =>
    let s := c.modPly s fun y => { y with priv := privFill s c.privBase p.va x.2.inL1 y.priv }
    match s.skein? c.sp c.slot with
    | none => ([], s)
    | some k => (privBytes c.privBase p.va p.n (k.ply c.plyNo).priv, s)
  | _ => (s.paBytes x.1 p.n, s)

/-- A piece stored at a physical address, or in its private line, and past L1 in memory too. -/
def Ctx.pieceWrite (c : Ctx) (sp : Space) (p : Piece) (x : Nat × PageAttr) (new : List Byte) (s : State) : State :=
  match sp with
  | .priv =>
    let s := c.modPly s fun y => { y with priv := privPut c.privBase p.va new (privFill s c.privBase p.va x.2.inL1 y.priv) }
    if x.2.inL1 then s else s.paPutBytes x.1 new
  | _ => s.paPutBytes x.1 new

/-- Lines of a spindle's L1, of 64 bytes, that private lines may take: 256 KiB, and 64 KiB on a base spindle (R2, R232, R390). -/
def l1Lines (sp : Nat) : Nat := if isBase sp then 1024 else 4096

/-- Private lines that L1 holds for a skein. -/
def Skein.privateLines (k : Skein) : Nat := (k.plies.map fun y => (y.priv.filter fun l => l.cached).length).sum

/-- Private lines that a spindle's L1 holds, those of a pre-empted skein among them until its context has been saved (R354). -/
def Spindle.privateLines (x : Spindle) : Nat :=
  (x.residents.map fun p => p.2.privateLines).sum + (x.saved.map fun v => v.sk.privateLines).sum

/-- The lines of an instruction that L1 would take anew. -/
def Ctx.newLines (c : Ctx) (sp : Space) (ps : List Placed) : Nat :=
  if sp != .priv then 0
  else
    let ns := ps.flatMap fun p => p.pieces.filterMap fun q =>
      match q.2.place q.1.va with
      | some (_, a) => if a.inL1 then some ((q.1.va - c.privBase) / 64) else none
      | none => none
    (ns.eraseDups.filter fun n => !(c.ply.priv.any fun l => l.line == n && l.cached)).length

/-- What an access of n bytes leaves, from the old value; nothing for a load. -/
def opNew (what : RemoteOp) (old : Word) : Option Word :=
  match what with
  | .load => none
  | .store d => some d
  | .rmw op ty cc x ftz => some (rmwNew op ty ftz old cc x)

/-- The part of an operation that one piece carries. -/
def opSlice (what : RemoteOp) (at_ n : Nat) : RemoteOp :=
  match what with
  | .store d => .store (ofN (d.toNat / 2 ^ (8 * at_) % 2 ^ (8 * n)))
  | w => w

/-- A request that a piece becomes: carried to the owner of its address, or already performed here. -/
def Ctx.request (c : Ctx) (op at_ : Nat) (tid : Nat) (p : Piece) (x : Xlat) (pa : Nat) (what : RemoteOp) (done : Bool) (old : Word) (s : State) :
    State :=
  let r : RemoteReq :=
    { id := s.opSeq, op := op, issued := at_, uid := c.sk.uid, who := c.who, tid := tid, pa := pa, n := p.n, at_ := p.at_,
      what := opSlice what p.at_ p.n, asid := c.la.asid, va := p.va, size := x.size, arrived := done, replied := done, old := old }
  { s.fresh.2 with reqs := s.reqs ++ [r] }

/-- One piece performed: a local one at once; a remote one becomes a request. `keep` asks that a local result be kept as a request
of the same operation, because other values of the instruction are on their way; `at_` is the tick at which the instruction issued. -/
def Ctx.performPiece (c : Ctx) (sp : Space) (what : RemoteOp) (op at_ tid : Nat) (keep : Bool) (p : Piece) (x : Xlat) (g : Nat × PageAttr) (s : State) :
    Nat × State :=
  if sp == .global && !s.isLocal g.1 then (0, c.request op at_ tid p x g.1 what false 0 s)
  else
    let (old, s) := c.pieceRead sp p g s
    let v := ofN (bytesNat old)
    let s :=
      match opNew (opSlice what p.at_ p.n) v with
      | none => s
      | some w => c.pieceWrite sp p g (natBytes p.n w.toNat) s
    (bytesNat old * 2 ^ (8 * p.at_), if keep then c.request op at_ tid p x g.1 what true v s else s)

/-- One thread's access performed (R197, R198): the value it held before. -/
def Ctx.perform1 (c : Ctx) (sp : Space) (n : Nat) (what : RemoteOp) (op at_ : Nat) (keep : Bool) (p : Placed) (s : State) : Word × State :=
  let a := p.u.acc.addr.toNat
  match sp with
  | .scratch =>
    let old := match s.skein? c.sp c.slot with | none => 0 | some k => sread k.scratch a n
    match opNew what old with
    | none => (old, s)
    | some w => (old, s.modSkein c.sp c.slot fun k => { k with scratch := swrite k.scratch a n w })
  | .neighbour =>
    let t := c.sp / 16 * 16 + p.u.acc.spn
    let old := ofN (bytesNat (s.nbrBytes c.sk.launch t a n))
    match opNew what old with
    | none => (old, s)
    | some w => (old, s.nbrPutBytes c.sk.launch t a (natBytes n w.toNat))
  | _ =>
    let r := p.pieces.foldl (fun (acc : Nat × State) q =>
      match q.2 with
      | .page x =>
        (match x.place q.1.va with
         | none => acc
         | some g =>
           let (v, s) := c.performPiece sp what op at_ p.u.tid keep q.1 x g acc.2
           (acc.1 + v, s))
      | _ => acc) (0, s)
    (ofN r.1, r.2)

/-- The accesses of an instruction, in ascending thread order: the values they found. -/
def Ctx.performAll (c : Ctx) (sp : Space) (n : Nat) (what : Access → RemoteOp) (op at_ : Nat) (keep : Bool) :
    List Placed → State → List (Nat × Word) × State
  | [], s => ([], s)
  | p :: l, s =>
    let (v, s) := c.perform1 sp n (what p.u.acc) op at_ keep p s
    let (vs, s) := c.performAll sp n what op at_ keep l s
    ((p.u.tid, v) :: vs, s)

/-- The lines that the accesses of an instruction touch, local and through a cache: private ones only where L1 does not hold them (R236). -/
def Ctx.touchedLines (c : Ctx) (sp : Space) (ps : List Placed) : List (Nat × PageAttr) :=
  ps.flatMap fun p => p.pieces.filterMap fun q =>
    if sp == .priv && c.ply.priv.any (fun l => l.line == (q.1.va - c.privBase) / 64 && l.cached) then none else q.2.place q.1.va

/-- A private access waits: L1 has no room for its lines before an eviction, or lines that L1 does not hold lie in a package to which no link is up
(R2, R386). -/
def Ctx.l1Waits (c : Ctx) (s : State) (sp : Space) (ps : List Placed) : Bool :=
  let n := c.newLines sp ps
  (n != 0 && decide (l1Lines c.sp < (s.spindle c.sp).privateLines + n))
  || (sp == .priv && (c.touchedLines sp ps).any fun x => !s.isLocal x.1 && !s.reachable x.1)

/-- Some piece lies in another package. -/
def anyRemote (s : State) (sp : Space) (ps : List Placed) : Bool :=
  sp == .global && ps.any fun p => p.pieces.any fun q => match q.2.place q.1.va with | some (pa, _) => !s.isLocal pa | none => false

/-- Some piece cannot be reached yet: its device, or a device its walk reads, is not trained (R382). -/
def anyUntrained (s : State) (ps : List Placed) : Bool :=
  ps.any fun p => p.pieces.any fun q =>
    match q.2 with
    | .wait => true
    | t => match t.place q.1.va with | some (pa, _) => s.isLocal pa && !s.trained (offsetOf pa) | none => false

/-- Some piece lies in a package to which no link is up (R386). -/
def anyUnlinked (s : State) (ps : List Placed) : Bool :=
  ps.any fun p => p.pieces.any fun q => match q.2.place q.1.va with | some (pa, _) => !s.isLocal pa && !s.reachable pa | none => false

/-- Some piece, where it is read, waits for its device's retrain (R383). -/
def anyRetrains (s : State) (ps : List Placed) : Bool :=
  ps.any fun p => p.pieces.any fun q => match q.2.place q.1.va with | some (pa, _) => s.isLocal pa && s.retrains (offsetOf pa) | none => false

/-- The walks of every piece's lookup are counted and its translation is kept (R223, R236). -/
def Ctx.fillAll (c : Ctx) (ps : List Placed) (s : State) : State :=
  ps.foldl (fun s p => p.pieces.foldl (fun s q =>
    fillXlat (s.hotWalk c.sp c.la.asid c.la.root q.1.va) c.sp (c.laneOf p.u.acc.tid) q.2) s) s

/-! ## Missing pages (R227, R230, R231) -/

/-- The threads whose pieces meet a condition, with the first such piece's address. -/
def failing (sel : Tr → Bool) (ps : List Placed) : List (Nat × Nat × Tr) :=
  ps.filterMap fun p => (p.pieces.find? fun q => sel q.2).map fun q => (p.u.tid, q.1.va, q.2)

def Tr.isMissing : Tr → Bool
  | .notMapped _ => true
  | _ => false

def Tr.isTable : Tr → Bool
  | .table _ => true
  | _ => false

/-- Not mapped, and not by a leaf with MIG set. -/
def Tr.isReported : Tr → Bool
  | .notMapped x => !x.mig
  | _ => false

/-- The pages, at 4 KiB, of the pieces that did not translate. -/
def missingPages (ps : List Placed) : List Word :=
  ps.flatMap fun p => p.pieces.filterMap fun q => if q.2.isMissing || q.2.isTable then some (BitVec.ofNat 64 (q.1.va / 4096 * 4096)) else none

/-- The walks that ended in Not mapped are kept, whatever comes of the access (R223). -/
def Ctx.fillMissing (c : Ctx) (ps : List Placed) (s : State) : State :=
  c.fillAll (ps.map fun p => { p with pieces := p.pieces.filter fun q => q.2.isMissing }) s

/-- The check of a trap that needs the page's attributes, so that the lookups have been made. -/
def TrapKind.looksUp (k : TrapKind) : Bool := k == .accessFault || k == .misalignedAttr

/-- A load, LDU, ATOM or LAUNCH, or a handler's store, whose pages do not all translate: TABLE_FAULT with its record, or a hold with
one. Without room in the ring the party waits (R231). KIND is 0 for a load and 1 for a store. A table condition of one thread comes before the missing
page of another (DESIGN CHOICE, log 86); a record names the lowest thread whose missing page is not being migrated, for a load too (DESIGN CHOICE,
log 87). -/
def Ctx.pageFault (c : Ctx) (i : Instr) (kind : Nat) (ps : List Placed) (s : State) : Eff :=
  match failing Tr.isTable ps with
  | (t, va, .table pa) :: _ =>
    if s.ringFree = 0 then .stall (c.holdRing (some i) s)
    else .trapWith (s.ringWrite (c.ringRec 3 (ofN va) (ofN pa) (some t))) { kind := .tableFault, elem := some t, addr := ofN va }
  | _ =>
    match failing Tr.isReported ps with
    | [] => .stall (c.hold (some i) (missingPages ps) s)
    | (t, va, _) :: _ =>
      if s.ringFree = 0 then .stall (c.holdRing (some i) s)
      else .stall (c.hold (some i) (missingPages ps) (s.ringWrite (c.ringRec kind (ofN va) 0 (some t))))

/-- Some piece did not translate. -/
def anyFault (ps : List Placed) : Bool := ps.any fun p => p.pieces.any fun q => q.2.isMissing || q.2.isTable

/-! ## The side log (R228) -/

/-- The party's side log. -/
def Ctx.sideLog (c : Ctx) : List LogEntry := if c.dist then c.sk.dist.sideLog else c.ply.sideLog

def Ctx.setSideLog (c : Ctx) (l : List LogEntry) (s : State) : State :=
  if c.dist then c.modDist s fun d => { d with sideLog := l } else c.modPly s fun p => { p with sideLog := l }

/-- The entries an instruction takes: one for each strand with an access. -/
def Ctx.logEntries (c : Ctx) (at_ : Nat) (sp : Space) (op : AccessOp) (ty : Ty) (ps : List Placed) : List LogEntry :=
  c.strands.filterMap fun st =>
    let mine := ps.filter fun p => p.u.st == st
    if mine.isEmpty then none
    else some { issued := at_, path := c.idx, strand := st, space := sp, op, ty, accs := mine.map fun p => p.u.acc,
                incomplete := !(failing Tr.isTable mine).isEmpty, asleep := anyFault mine }

/-- A store or reduction enters the log, with its STORE and TABLE records, and a deferred TABLE_FAULT where a walk met a table
condition (R228, R230). Of the two records the STORE record is written first (DESIGN CHOICE, log 88). -/
def Ctx.enterLog (c : Ctx) (i : Instr) (f : Fields) (sp : Space) (op : AccessOp) (ps : List Placed) (s : State) : Eff :=
  let es := c.logEntries s.tick sp op f.ty ps
  let stores := (failing Tr.isReported ps).head?.map fun x => c.ringRec 1 (ofN x.2.1) 0 (some x.1)
  let table := (failing Tr.isTable ps).head?
  let tables := table.map fun x => c.ringRec 3 (ofN x.2.1) (match x.2.2 with | .table pa => ofN pa | _ => 0) (some x.1)
  let recs := stores.toList ++ tables.toList
  if s.ringFree < recs.length || !s.ringReaches s.fq s.fqHead recs.length then .stall (c.holdRing (some i) s)
  else if 64 < c.sideLog.length + es.length then .stall (c.hold (some i) [] s)
  else
    let s := c.setSideLog (c.sideLog ++ es) (recs.foldl State.ringWrite s)
    let s :=
      match table with
      | none => s
      | some x =>
        let t : TrapRec := { kind := .tableFault, prec := .deferred, elem := some x.1, addr := ofN x.2.1, strand := some c.first }
        if c.dist then c.modDist s fun d => { d with pend := d.pend ++ [t] } else c.modPly s fun p => { p with pend := p.pend ++ [t] }
    .done (c.finish0 f s)

/-! ## The instructions -/

inductive MemKind where
  | load | store | atom (op : Rmw) | mred (op : Rmw)
deriving DecidableEq, Repr

/-- It returns a value, so it faults as a load does (R199). -/
def MemKind.returns : MemKind → Bool
  | .load | .atom _ => true
  | _ => false

def MemKind.need : MemKind → Need
  | .load => .read
  | .store => .write
  | _ => .both

def MemKind.logOp : MemKind → AccessOp
  | .load => .load
  | .store => .store
  | .atom op | .mred op => .rmw op

/-- The operation of one access. -/
def accessOp (op : AccessOp) (ty : Ty) (ftz : Bool) (a : Access) : RemoteOp :=
  match op with
  | .load => .load
  | .store => .store a.data
  | .rmw o => .rmw o ty a.data a.cmp ftz

/-- A data register of a thread. -/
def Ctx.dataOf (c : Ctx) (f : Fields) (v : BitVec 8) (st t : Nat) : Word :=
  if c.dist then c.rdScal st v.toNat else c.rdVec (f.ty.bits == 64) v.toNat t

/-- The accesses of a memory instruction, in ascending thread order (R196, R201, R203). -/
def Ctx.accesses (c : Ctx) (k : MemKind) (ldu : Bool) (f : Fields) : List ThreadAcc :=
  let disp8 := match k with | .load | .store => true | _ => false
  let one := fun (tid st t : Nat) =>
    let data := match k with | .load => 0 | .store => c.dataOf f f.d st t | _ => c.dataOf f f.c st t
    let cmp := match k with | .atom .cas => c.dataOf f f.d st t | _ => 0
    ({ tid, st, acc := { tid := t, addr := c.addrOf disp8 f st t, spn := c.spnOf f st, data, cmp } } : ThreadAcc)
  if c.dist then [one 0 0 0]
  else if ldu then
    (c.strands.filter c.touched).map fun st =>
      one (if spaceOf f == .priv then 8 * st else (activeIn c.ply.exm st).headD (8 * st)) st (8 * st)
  else c.active.map fun t => one t (t / 8) t

/-- The register writes of the values an instruction found (R194, R90). -/
def Ctx.valueWrites (c : Ctx) (f : Fields) (scalar : Bool) (vals : List (Nat × Word)) (st : Nat) : List RegWrite :=
  (vals.filter fun v => v.1 / 8 == st).flatMap fun v =>
    if scalar || c.dist then [wrAll f.d.toNat (fillS f.ty v.2)] else vecWrites (f.ty.bits == 64) f.d.toNat v.1 (fillS f.ty v.2)

/-- The party waits for values from another package (R317). -/
def Ctx.awaitRemote (c : Ctx) (f : Fields) (scalar : Bool) (op : Nat) (s : State) : State :=
  if c.dist then c.modDist s fun d => { d with wait := .remote f scalar op }
  else c.modPath s fun e => { e with wait := .remote f scalar op }

/-- A memory instruction (R195 to R206): its checks first, then what it waits for, then its accesses. -/
def memBody (i : Instr) (k : MemKind) (ldu : Bool) (f : Fields) (c : Ctx) (s : State) : Eff :=
  let sp := spaceOf f
  let n := f.ty.bits / 8
  let rmw := match k with | .atom _ | .mred _ => true | _ => false
  let us := c.accesses k ldu f
  if us.isEmpty then .done (c.finish0 f s)
  else
    let ps := us.map (c.place s sp n)
    let looked := c.fillMissing ps s
    match c.accTraps s sp k.need n rmw ps with
    | some t => if t.kind.looksUp then .looked looked (.trap t) else .trap t
    | none =>
      match c.tokenLack rmw sp ps with
      | some t => .looked looked (.trap t)
      | none =>
        if k.returns && c.logBusy then .stall s
        else if !k.returns && !c.handler && (!c.sideLog.isEmpty || anyFault ps) then .looked looked (c.enterLog i f sp k.logOp ps looked)
        else if anyFault ps then .looked looked (c.pageFault i (if k.returns then 0 else 1) ps looked)
        else if anyUntrained s ps || (k.need != .write && anyRetrains s ps) || c.l1Waits s sp ps then .stall s
        else if anyRemote s sp ps && k.returns && c.fullIn c.receiving then .stall s
        else
          let remote := anyRemote s sp ps
          let (op, s) := if remote then s.fresh else (0, s)
          let s := (c.fillAll ps s).hotLines (stackOf c.sp) (c.touchedLines sp ps)
          let (vals, s) := c.performAll sp n (accessOp k.logOp f.ty c.la.ftz) op s.tick (remote && k.returns) ps s
          if !k.returns then .done (c.finish0 f s)
          else if remote then .done (c.awaitRemote f ldu op s)
          else .done (c.finish f 0 (c.valueWrites f ldu vals) (fun _ => 0) s)

def execLd (f : Fields) (s : State) : Outcome State Fault Refusal := guarded (.ld f) s (memBody (.ld f) .load false)
def execSt (f : Fields) (s : State) : Outcome State Fault Refusal := guarded (.st f) s (memBody (.st f) .store false)
def execLdu (f : Fields) (s : State) : Outcome State Fault Refusal := guarded (.ldu f) s (memBody (.ldu f) .load true)

/-- PREF changes no architectural state and may be dropped (R202). -/
def execPref (f : Fields) (s : State) : Outcome State Fault Refusal :=
  guarded (.pref f) s fun f c s => .done (c.finish0 f s)

def execAtomAdd (f : Fields) (s : State) : Outcome State Fault Refusal := guarded (.atomAdd f) s (memBody (.atomAdd f) (.atom .add) false)
def execAtomMin (f : Fields) (s : State) : Outcome State Fault Refusal := guarded (.atomMin f) s (memBody (.atomMin f) (.atom .min) false)
def execAtomMax (f : Fields) (s : State) : Outcome State Fault Refusal := guarded (.atomMax f) s (memBody (.atomMax f) (.atom .max) false)
def execAtomAnd (f : Fields) (s : State) : Outcome State Fault Refusal := guarded (.atomAnd f) s (memBody (.atomAnd f) (.atom .and) false)
def execAtomOr (f : Fields) (s : State) : Outcome State Fault Refusal := guarded (.atomOr f) s (memBody (.atomOr f) (.atom .or) false)
def execAtomXor (f : Fields) (s : State) : Outcome State Fault Refusal := guarded (.atomXor f) s (memBody (.atomXor f) (.atom .xor) false)
def execAtomXchg (f : Fields) (s : State) : Outcome State Fault Refusal := guarded (.atomXchg f) s (memBody (.atomXchg f) (.atom .xchg) false)
def execAtomCas (f : Fields) (s : State) : Outcome State Fault Refusal := guarded (.atomCas f) s (memBody (.atomCas f) (.atom .cas) false)
def execAtomInc (f : Fields) (s : State) : Outcome State Fault Refusal := guarded (.atomInc f) s (memBody (.atomInc f) (.atom .inc) false)
def execMredAdd (f : Fields) (s : State) : Outcome State Fault Refusal := guarded (.mredAdd f) s (memBody (.mredAdd f) (.mred .add) false)
def execMredMin (f : Fields) (s : State) : Outcome State Fault Refusal := guarded (.mredMin f) s (memBody (.mredMin f) (.mred .min) false)
def execMredMax (f : Fields) (s : State) : Outcome State Fault Refusal := guarded (.mredMax f) s (memBody (.mredMax f) (.mred .max) false)
def execMredAnd (f : Fields) (s : State) : Outcome State Fault Refusal := guarded (.mredAnd f) s (memBody (.mredAnd f) (.mred .and) false)
def execMredOr (f : Fields) (s : State) : Outcome State Fault Refusal := guarded (.mredOr f) s (memBody (.mredOr f) (.mred .or) false)
def execMredXor (f : Fields) (s : State) : Outcome State Fault Refusal := guarded (.mredXor f) s (memBody (.mredXor f) (.mred .xor) false)
def execMredInc (f : Fields) (s : State) : Outcome State Fault Refusal := guarded (.mredInc f) s (memBody (.mredInc f) (.mred .inc) false)

end Sys2Proof.Machine
end

