-- ==== Sys2Proof/Machine/Sync.lean ====
section
/-! DEFINITION. Synchronisation (R319 to R334): fences, barriers, tree barriers, the decision and event queues, the vertical FIFOs
and the commit token, with the events that end their waits. -/

namespace Sys2Proof.Machine

open Host (Outcome)

/-- SYNC_ARG (R320). -/
def syncArg : Eff := .trap { kind := .syncArg }

/-- The party blocks at its instruction (R320). -/
def Ctx.block (c : Ctx) (w : Wait) (s : State) : Eff := .done (c.blocked w s)

/-- What an event does for a party that may act; nothing for any other. -/
def State.forParty (s : State) (p : Party) (g : Ctx → State) : Outcome State Fault Refusal :=
  match s.ctx? p with
  | none => .next s
  | some c => .next (if c.live then g c else s)

/-! ## Fences (R319) -/

/-- Waits until a list of commands has completed; the list is fixed when the instruction first issues. -/
def Ctx.awaitCommands (c : Ctx) (ids : Unit → List Nat) (f : Fields) (s : State) : Eff :=
  match c.waitNow with
  | .commands l => if ((s.spindle c.sp).pendingOf l).isEmpty then .done (c.finish0 f s) else .stall s
  | _ => if (ids ()).isEmpty then .done (c.finish0 f s) else .stall (c.setWait .ready (.commands (ids ())) s)

def execFenceQ (f : Fields) (s : State) : Outcome State Fault Refusal :=
  guarded (.fenceQ f) s fun f c s =>
    c.awaitCommands (fun _ => (s.spindle c.sp).named c.la c.sk (f.m.toNat % 16) (f.m.getLsbD 4)) f s

/-- An instruction of a system core retires; its next program counter is not in the spec (DESIGN CHOICE, log 5). -/
def State.coreRetire (s : State) (n : Nat) : State := s.modCore n fun k => { k with retired := k.retired + 1 }

/-- FENCE.sys; the accesses of a system core are performed as they are made, so there it has nothing to wait for. -/
def execFenceSys (f : Fields) (s : State) : Outcome State Fault Refusal :=
  match s.cur with
  | .core n => .next (s.coreRetire n)
  | _ => guarded (.fenceSys f) s fun f c s => if c.unacknowledged s then .stall s else .done (c.finish0 f s)

/-! ## Skein barriers (R322 to R324) -/

/-- A barrier operand: a multiple of 32 whose object lies in the scratchpad. -/
def Ctx.barOk (c : Ctx) (o : Word) : Bool := o.toNat % 32 == 0 && decide (o.toNat + 32 ≤ c.la.hdr.scratch)

/-- PHASE of an object of the party's skein now. -/
def Ctx.phaseNow (c : Ctx) (s : State) (o : Nat) : BitVec 32 := ((s.skein? c.sp c.slot).map fun k => k.phase o).getD 0

/-- The scalar result of a synchronising instruction, in every strand (R320). -/
def Ctx.finishD (c : Ctx) (f : Fields) (val : Word) (s : State) : State := c.finishAll f [wrAll f.d.toNat val] s

def execBara (f : Fields) (s : State) : Outcome State Fault Refusal :=
  guarded (.bara f) s fun f c s =>
    let o := c.rd1 f.a
    let n := (c.rd1 f.b).toNat
    if !c.barOk o || n == 0 || decide (65535 < n) then syncArg
    else if c.accessPending s then c.awaitAccesses s
    else
      let old := c.phaseNow s o.toNat
      .done (c.finishD f (old.setWidth 64) (s.modSkein c.sp c.slot fun k => k.arrive o.toNat n))

def execBarw (f : Fields) (s : State) : Outcome State Fault Refusal :=
  guarded (.barw f) s fun f c s =>
    let o := c.rd1 f.a
    let w := (c.rd1 f.b).setWidth 32
    if !c.barOk o then syncArg
    else if c.phaseNow s o.toNat != w then .done (c.finishD f ((c.phaseNow s o.toNat).setWidth 64) s)
    else c.block (.barw f o.toNat w) s

def execBarx (f : Fields) (s : State) : Outcome State Fault Refusal :=
  guarded (.barx f) s fun f c s =>
    let o := c.rd1 f.a
    if !c.barOk o then syncArg
    else if c.accessPending s then c.awaitAccesses s
    else
      let old := c.phaseNow s o.toNat
      let s := s.modSkein c.sp c.slot fun k => k.arrive o.toNat (if c.dist then 1 else c.strands.length)
      if c.phaseNow s o.toNat != old then .done (c.finishD f ((c.phaseNow s o.toNat).setWidth 64) s)
      else c.block (.barx f o.toNat old) s

/-- The flip that a waiting BARW or BARX is waiting for has happened. -/
def execBarrierWaitEnd (p : Party) (s : State) : Outcome State Fault Refusal :=
  s.forParty p fun c =>
    match c.waitNow with
    | .barw f o w => if c.phaseNow s o != w then c.finishD f ((c.phaseNow s o).setWidth 64) s else s
    | .barx f o old => if c.phaseNow s o != old then c.finishD f ((c.phaseNow s o).setWidth 64) s else s
    | _ => s

/-! ## Tree barriers (R325, R326) -/

def State.tag (s : State) (t : Nat) : TreeTag := agetD s.tags t {}

/-- An arrival at a tag: the last one ends the generation, whose time is kept for the 256 ns that follow. -/
def TreeTag.arrive (t : TreeTag) (now : Nat) : TreeTag :=
  if t.expect ≤ t.arrived + 1 then
    { t with arrived := 0, gen := t.gen + 1, flips := (t.flips.filter fun p => decide (now < p.2 + 256) && p.1 != t.gen) ++ [(t.gen, now)] }
  else { t with arrived := t.arrived + 1 }

/-- The waiters on a generation may resume: it has ended, 256 ns ago. -/
def TreeTag.passed (t : TreeTag) (g : BitVec 16) (now : Nat) : Bool :=
  g != t.gen && !(t.flips.any fun p => p.1 == g && decide (now < p.2 + 256))

/-- TBAR arrives, with the generation before the arrival in D, and waits. -/
def execTbar (f : Fields) (s : State) : Outcome State Fault Refusal :=
  guarded (.tbar f) s fun f c s =>
    let a := (c.rd1 f.a).toNat
    let t := s.tag a
    let tags := effOwn 1 Rcb.tags 0 (s.rcbChain c.la.lrec.region.toNat)
    if decide (7 < a) || !tags.testBit a || !t.en then syncArg
    else if c.accessPending s then c.awaitAccesses s
    else c.block (.tbar f a t.gen) (c.writes f 0 (fun _ => [wrAll f.d.toNat (t.gen.setWidth 64)]) (fun _ => 0)
      { s with tags := aput s.tags a (t.arrive s.time) })

/-- One distaff whose generation has passed goes on. -/
def releaseTbar (tag : Nat) (s : State) (p : Nat × Nat) : State :=
  match s.ctx? (.dist p.1 p.2) with
  | none => s
  | some c =>
    match c.waitNow with
    | .tbar f t g => if t == tag && (s.tag tag).passed g s.time && c.live then c.goto s (c.pc + Fields.size f) else s
    | _ => s

/-- Every skein slot of the part. -/
def State.allSlots (s : State) : List (Nat × Nat) := s.spindles.flatMap fun p => (List.range 4).map fun j => (p.1, j)

/-- 256 ns after the last arrival every distaff waiting on the generation resumes. -/
def execTbarRelease (tag : Nat) (s : State) : Outcome State Fault Refusal :=
  if 7 < tag then .fault .noSuchUnit else .next (s.allSlots.foldl (releaseTbar tag) s)

/-! ## The decision queue (R327, R328) -/

def execDqpush (f : Fields) (s : State) : Outcome State Fault Refusal :=
  guarded (.dqpush f) s fun f c s =>
    let dest := (c.rd1 f.b).toNat
    if !(decide (dest < c.la.hdr.plies) || dest == 0xFF) then syncArg
    else if c.accessPending s then c.awaitAccesses s
    else
      let names := if dest = 0xFF then List.range c.la.hdr.plies else [dest]
      let live := names.filter fun p => !(c.sk.ply p).gone c.w
      if live.isEmpty then .done (c.finish0 f s)
      else if 64 ≤ c.sk.dq.length then .stall (c.setWait .ready .credit s)
      else
        let s := s.modSkein c.sp c.slot fun k => { k with dq := k.dq ++ [{ val := c.rd1 f.a, dests := live }] }
        .done (c.finish0 f s)

/-- The queue after a ply takes its oldest entry, and the value. -/
def dqPop (ply : Nat) : List DqEntry → Option (Word × List DqEntry)
  | [] => none
  | e :: l =>
    if e.dests.contains ply then
      let left := e.dests.filter fun p => p != ply
      some (e.val, if left.isEmpty then l else { e with dests := left } :: l)
    else (dqPop ply l).map fun r => (r.1, e :: r.2)

/-- The place in the order of issue of a waiting DQPOP. -/
def Path.dqSeq (e : Path) : Option Nat :=
  match e.wait with
  | .dqpop _ n => if e.valid then some n else none
  | _ => none

/-- A sibling waits in a DQPOP that issued before a place in the order. -/
def Ply.dqBefore (p : Ply) (n : Nat) : Bool := p.paths.any fun e => match e.dqSeq with | some m => decide (m < n) | none => false

/-- An entry popped for a ply. -/
def Ctx.popDq (c : Ctx) (f : Fields) (v : Word) (q : List DqEntry) (s : State) : State :=
  c.finishD f v (s.modSkein c.sp c.slot fun k => { k with dq := q })

/-- DQ_DRAINED: the distaff has exited and no entry for the ply remains. -/
def drained : TrapRec := { kind := .dqDrained }

def execDqpop (f : Fields) (s : State) : Outcome State Fault Refusal :=
  guarded (.dqpop f) s fun f c s =>
    let wait := fun (_ : Unit) => let (n, s) := s.fresh; c.block (.dqpop f n) s
    if c.ply.dqBefore s.opSeq then wait ()
    else
      match dqPop c.plyNo c.sk.dq with
      | some (v, q) => .done (c.popDq f v q s)
      | none => if c.sk.dist.exited then .trap drained else wait ()

def execDqpopDeliver (p : Party) (s : State) : Outcome State Fault Refusal :=
  s.forParty p fun c =>
    match c.waitNow with
    | .dqpop f n =>
      if c.ply.dqBefore n then s
      else
        (match dqPop c.plyNo c.sk.dq with
         | some (v, q) => c.popDq f v q s
         | none => if c.sk.dist.exited then takeTrap c drained c.pc s else s)
    | _ => s

/-! ## The event queue (R329) -/

/-- The oldest record is popped, or all ones is written; a freed entry may release a static copy. -/
def Ctx.popEv (c : Ctx) (f : Fields) (s : State) : State :=
  match c.sk.evq with
  | r :: l => (c.finishD f r (s.modSkein c.sp c.slot fun k => { k with evq := l })).releaseStatic c.sp c.slot
  | [] => c.finishD f ones64 s

def execEvpop (f : Fields) (s : State) : Outcome State Fault Refusal :=
  guarded (.evpop f) s fun f c s =>
    if c.sk.evq.isEmpty && decide (0 < c.sk.evHeld) && !f.m.getLsbD 0 then c.block (.evpop f) s else .done (c.popEv f s)

def execEvpopDeliver (p : Party) (s : State) : Outcome State Fault Refusal :=
  s.forParty p fun c =>
    match c.waitNow with
    | .evpop f => if c.sk.evq.isEmpty && decide (0 < c.sk.evHeld) then s else c.popEv f s
    | _ => s

/-! ## Vertical FIFOs (R330, R331) -/

/-- The base spindle, stack and link of a spindle's own link number. -/
def linkOf (sp l : Nat) : Nat × Nat × Nat :=
  if isBase sp then ((sp - 0x100) / 8, (sp - 0x100) % 8, l)
  else (sp / 64, 2 * (sp / 16 % 4) + sp % 16 / 8, sp % 16 % 8)

/-- A FIFO's key: up is pushed by the base spindle. -/
def fifoKey (sp l : Nat) (up : Bool) : Nat :=
  let (s, b, k) := linkOf sp l
  2 * (64 * s + 8 * b + k) + (if up then 0 else 1)

/-- The FIFO a spindle pushes, and the one it pops. -/
def outFifo (sp l : Nat) : Nat := fifoKey sp l (isBase sp)
def inFifo (sp l : Nat) : Nat := fifoKey sp l (!isBase sp)

def State.fifo (s : State) (k : Nat) : List (BitVec 512) := agetD s.fifos k []
def State.setFifo (s : State) (k : Nat) (l : List (BitVec 512)) : State :=
  { s with fifos := if l.isEmpty then adel s.fifos k else aput s.fifos k l }

/-- The entry that a V register of threads 0 to 15 makes. -/
def Ctx.fifoEntry (c : Ctx) (r : Nat) : BitVec 512 :=
  BitVec.ofNat 512 ((List.range 16).foldl (fun n t => n + (c.ply.rdV r t).toNat * 2 ^ (32 * t)) 0)

/-- SYNC_ARG of the FIFO instructions: the link, and strands 0 and 1. -/
def Ctx.linkOk (c : Ctx) (l : Nat) : Bool :=
  decide (l < (if isBase c.sp then 8 else 1)) && c.strands.contains 0 && c.strands.contains 1

/-- The push, when there is room. -/
def Ctx.vfPush (c : Ctx) (f : Fields) (s : State) : Option State :=
  let k := outFifo c.sp (c.rd1 f.b).toNat
  if 16 ≤ (s.fifo k).length then none
  else some (c.finish0 f (s.setFifo k (s.fifo k ++ [c.fifoEntry f.a.toNat])))

/-- The pop, when there is an entry: word t goes to thread t where it is active. -/
def Ctx.vfPop (c : Ctx) (f : Fields) (s : State) : Option State :=
  let k := inFifo c.sp (c.rd1 f.b).toNat
  match s.fifo k with
  | [] => none
  | e :: l =>
    some (c.finish f 0 (fun st => ((activeIn c.ply.exm st).filter (· < 16)).map fun t => .v f.d.toNat t ((e >>> (32 * t)).setWidth 32))
      (fun _ => 0) (s.setFifo k l))

def execVfpush (f : Fields) (s : State) : Outcome State Fault Refusal :=
  guarded (.vfpush f) s fun f c s =>
    if !c.linkOk (c.rd1 f.b).toNat then syncArg
    else if c.accessPending s then c.awaitAccesses s
    else match c.vfPush f s with
      | some s' => .done s'
      | none => c.block (.vfpush f) s

def execVfpop (f : Fields) (s : State) : Outcome State Fault Refusal :=
  guarded (.vfpop f) s fun f c s =>
    if !c.linkOk (c.rd1 f.b).toNat then syncArg
    else match c.vfPop f s with
      | some s' => .done s'
      | none => c.block (.vfpop f) s

def execVfcnt (f : Fields) (s : State) : Outcome State Fault Refusal :=
  guarded (.vfcnt f) s fun f c s =>
    let l := (c.rd1 f.b).toNat
    if !c.linkOk l then syncArg
    else
      let n := if f.m.getLsbD 0 then (s.fifo (inFifo c.sp l)).length else 16 - (s.fifo (outFifo c.sp l)).length
      .done (c.finishD f (ofN n) s)

def execVfifoWaitEnd (p : Party) (s : State) : Outcome State Fault Refusal :=
  s.forParty p fun c =>
    match c.waitNow with
    | .vfpush f => (c.vfPush f s).getD s
    | .vfpop f => (c.vfPop f s).getD s
    | _ => s

/-! ## The commit token (R332, R333) -/

/-- TOKEN.get: the ply holds the token once it has executed one after the token has reached it (DEDUCED, log 27). -/
def execTokenGet (f : Fields) (s : State) : Outcome State Fault Refusal :=
  guarded (.tokenGet f) s fun f c s =>
    if !c.la.det || c.ply.token then .done (c.finish0 f s)
    else if c.ply.turn then .done (c.finish0 f (c.modPly s fun p => { p with token := true }))
    else c.block .token s

def execTokenPut (f : Fields) (s : State) : Outcome State Fault Refusal :=
  guarded (.tokenPut f) s fun f c s =>
    if !c.la.det || !c.ply.token then .done (c.finish0 f s)
    else if c.accessPending s then c.awaitAccesses s
    else .done (c.finish0 f ((c.modPly s fun p => { p with turn := false, token := false, put := true }).passToken c.la.acc))

/-- A path of the ply that may act waits in TOKEN.get. -/
def Ply.waitsToken (p : Ply) : Bool := p.paths.any fun e => e.valid && e.wait == .token

/-- Where a skein of a launch is resident or saved: its spindle and identity. -/
def State.skeinAt (s : State) (acc index : Nat) : Option (Nat × Skein) :=
  s.spindles.findSome? fun p =>
    ((p.2.slots.filterMap id ++ p.2.saved.map fun v => v.sk).find? fun k => k.launch == acc && k.index == index).map fun k => (p.1, k)

/-- The token of a launch is at some ply. -/
def State.tokenHeld (s : State) (acc : Nat) : Bool :=
  s.spindles.any fun p => (p.2.slots.filterMap id ++ p.2.saved.map fun v => v.sk).any fun k =>
    k.launch == acc && k.plies.any fun y => y.turn

/-- The token of a launch goes one place on: past a ply that has exited, into the next round, or to a ply, whose waiting paths
complete their TOKEN.get. It waits at a skein not yet placed. -/
def execTokenArrive (acc : Nat) (s : State) : Outcome State Fault Refusal :=
  let l := s.launch acc
  if !l.det || (aget? s.launches acc).isNone || s.tokenHeld acc then .next s
  else if l.lrec.skeins * l.hdr.plies ≤ l.tokenAt then .next (s.modLaunch acc fun l => { l with tokenAt := 0, round := l.round + 1 })
  else
    let (i, p) := l.tokenSpot l.tokenAt
    match s.skeinAt acc i with
    | none => if i < l.placed then .next (s.passToken acc) else .next s
    | some (sp, k) =>
      if (k.ply p).gone l.width then .next (s.passToken acc)
      else
        let wants := (k.ply p).waitsToken
        let s := s.modUid sp k.uid fun k => k.modPly p fun y => { y with turn := true, token := wants, put := false }
        match s.whereIs k.uid with
        | none => .next s
        | some (sp, slot) =>
          .next ((List.range 16).foldl (fun s i =>
            match s.ctx? (.path sp slot p i) with
            | none => s
            | some c =>
              match c.waitNow with
              | .token => if c.live then c.goto (c.writes ⟨0, 0, false, .b32, 0, 0, 0, 0, 0, none⟩ 0 (fun _ => []) (fun _ => 0) s) (c.pc + 8) else s
              | _ => s) s)

end Sys2Proof.Machine
end

