-- ==== Sys2Proof/Machine/Copy.lean ====
section
/-! DEFINITION. Asynchronous copies (R239 to R258): issue, shape records (R56, R57), the pieces of a box, the special kinds, format
ranges (R147 to R149), CPY.mig (R252), STAGE and QFENCE, and the events that start, retry and complete a command. -/

namespace Sys2Proof.Machine

open Host (Outcome)

/-! ## Issue (R240 to R244) -/

/-- COPY_ARG (R244). -/
def copyArg : Eff := .trap { kind := .copyArg }

/-- KIND of R248. -/
def CopyKind.code : CopyKind → Nat
  | .cpy => 0 | .cpyc => 1 | .cpyg => 2 | .cpys => 3 | .cpyk => 4

/-- D is read at issue (R243). -/
def CopyKind.readsD : CopyKind → Bool
  | .cpyc | .cpyg | .cpys => true
  | _ => false

/-- The operand values of R244 are legal. -/
def Ctx.copyArgsOk (c : Ctx) (k : CopyKind) (f : Fields) : Bool :=
  let a := (c.rd1 f.a).toNat
  let bar := (c.rd1 f.c).toNat
  let b := (c.rd1 f.b).toNat
  let d := (c.rd1 f.d).toNat
  let sc := c.la.hdr.scratch
  a % 64 == 0 && bar % 32 == 0 && decide (bar < 32 * c.la.hdr.barCount) && decide (bar < 65536)
  && (match k with
      | .cpyk => b % 16 == 0 && decide (b < 4096)
      | _ => f.dir % 2 == 0 || (b % 16 == 0 && decide (b < sc)))
  && (match k with
      | .cpyg => decide (d < sc)
      | .cpys => d % 4 == 0 && decide (d < sc)
      | _ => true)

/-- A copy instruction: the checks of R244, the waits for the side log and for a place (R240, R117), and the command's entry into its queue. -/
def copyIssue (i : Instr) (k : CopyKind) (s : State) : Outcome State Fault Refusal :=
  guarded i s fun f c s =>
    if !c.makes then .done (c.finish0 f s)
    else if !c.copyArgsOk k f then copyArg
    else if c.logBusy then .stall s
    else
      let q := f.low2
      let x := s.spindle c.sp
      let ev := f.m.getLsbD 5
      if x.cqFull q || (ev && c.sk.evFull) then .stall (c.setWait .ready .credit s)
      else
        let (id, s) := s.fresh
        let cmd : CopyCmd :=
          { id, uid := c.sk.uid, who := some c.who, strands := c.strandSet, issued := s.tick, kind := k, dir := f.dir, sks := f.m.getLsbD 4, ev,
            shape := c.rd1 f.a, loc := if k != .cpyk && f.dir % 2 = 0 then f.b.toNat else (c.rd1 f.b).toNat,
            bar := (c.rd1 f.c).toNat, dval := if k.readsD then c.rd1 f.d else 0, entry := none,
            after := x.pendingOf (nth c.sk.marks q []), mig := none }
        let s := s.modSpindle c.sp fun x => x.enterCq q cmd
        let s := if ev then s.modSkein c.sp c.slot fun k => { k with evHeld := k.evHeld + 1 } else s
        .done (c.finish f id (fun _ => [wrAll f.d.toNat 0]) (fun _ => 0) s)

def execCpyc (f : Fields) (s : State) : Outcome State Fault Refusal := copyIssue (.cpyc f) .cpyc s
def execCpyg (f : Fields) (s : State) : Outcome State Fault Refusal := copyIssue (.cpyg f) .cpyg s
def execCpys (f : Fields) (s : State) : Outcome State Fault Refusal := copyIssue (.cpys f) .cpys s
def execCpyk (f : Fields) (s : State) : Outcome State Fault Refusal := copyIssue (.cpyk f) .cpyk s
def execCpy (f : Fields) (s : State) : Outcome State Fault Refusal := copyIssue (.cpy f) .cpy s

/-! ## CPY.mig (R252) -/

/-- A scalar code of a core's word: a general register in the place of a D register, or, as a source, a constant (R88, R210). -/
def coreScalOk (dst : Bool) (r : BitVec 8) : Bool := decide (r.toNat < 0x20) || (!dst && decide (0x80 ≤ r.toNat) && decide (r.toNat < 0x90))

/-- A constant as a core reads it (R89). The spec gives the widths, ply and plies of K3, K12, K13 and K14 no value on a core: it is
free (DESIGN CHOICE, log 5). -/
def coreConst (tick code : Nat) : Word :=
  match code with
  | 0x80 => 0
  | 0x81 => 1
  | 0x82 => ones64
  | 0x84 => 2
  | 0x85 => 4
  | 0x86 => 8
  | 0x87 => 0x3F800000
  | 0x88 => 0x3F000000
  | 0x89 => 0x40000000
  | 0x8A => 0xBF800000
  | 0x8B => 0x7FC00000
  | 0x8F => 0x8000000000000000
  | _ => Config.freeWord tick code

/-- A scalar source of a core. -/
def State.coreRd (s : State) (n : Nat) (r : BitVec 8) : Word :=
  if 0x80 ≤ r.toNat then coreConst s.tick r.toNat else sget (s.core n).gpr r.toNat
def SysCore.wr (k : SysCore) (r : BitVec 8) (v : Word) : SysCore := { k with gpr := sset k.gpr r.toNat v }

/-- A register of the core waits for a CPY.mig status word. -/
def SysCore.busy (k : SysCore) (rs : List (BitVec 8)) : Bool :=
  k.defs.any fun e => rs.any fun r => e.keys.contains (2 * r.toNat + 1)

/-- The core cannot run the instruction now: it waits, for a LAUNCH or for a register. -/
def SysCore.stuck (k : SysCore) (regs : List (BitVec 8)) : Bool := k.busy regs || k.wait != .none

/-- The fields of a core's word name registers. -/
def coreRegsOk (dst src : List (BitVec 8)) : Bool := dst.all (coreScalOk true) && src.all (coreScalOk false)

/-- A core takes a trap: nothing else changes, since what its trap entry does is not in the spec (DESIGN CHOICE, log 5). -/
def State.coreTrap (s : State) (n : Nat) (i : Instr) (kind : TrapKind) (check : Nat) : State :=
  let w := match i.row, i.fields with | some r, some f => f.toWord r.opc r.fn | _, _ => 0
  s.modCore n fun k => { k with trap := some { kind, check, addr := w } }

/-- Bytes of a size code (R225). -/
def migSize (code : Nat) : Nat :=
  match code with
  | 0 => 0x1000 | 1 => 0x10000 | 2 => 0x200000 | 3 => 0x2000000 | 4 => 0x40000000 | _ => 0

/-- CPY.mig: a system core puts the command into its own queue; elsewhere it raises PRIVILEGE at check 8. -/
def execCpyMig (f : Fields) (s : State) : Outcome State Fault Refusal :=
  match s.cur with
  | .core n =>
    let k := s.core n
    let q := f.low2
    if k.stuck [f.d, f.a, f.b, f.c] then .next s
    else if !coreRegsOk [f.d] [f.a, f.b, f.c] then .next (s.coreTrap n (.cpyMig f) .illegalField 6)
    else if 16 ≤ ((nth k.cq q []).filter fun x => !x.started).length then .next s
    else
      let (id, s) := s.fresh
      let cmd : CopyCmd :=
        { id, uid := 0, who := some (.core n), strands := 0, kind := .cpy, dir := 0, sks := false, ev := false, shape := 0, loc := 0,
          issued := s.tick, bar := 0, dval := 0, entry := none, after := [],
          mig := some ((s.coreRd n f.a).toNat % 2 ^ 52, (s.coreRd n f.b).toNat % 2 ^ 52, migSize (s.coreRd n f.c).toNat) }
      .next ((s.modCore n fun k =>
        { k with cq := modNth k.cq q fun l => l ++ [cmd]
                 defs := k.defs ++ [{ strand := 0, land := 0, op := id, writes := [wrAll f.d.toNat 0], flags := 0 }] }).coreRetire n)
  | _ => guarded (.cpyMig f) s fun f c s => .done (c.finish0 f s)

/-! ## STAGE and QFENCE (R254, R255) -/

def execStage (f : Fields) (s : State) : Outcome State Fault Refusal :=
  guarded (.stage f) s fun f c s =>
    if c.dist then .done (c.finishD f (ofN c.sk.stageG) s)
    else
      let s := c.modPly s fun p => { p with stage := c.strands.foldl (fun l st => modNth l st (· + 1)) p.stage }
      let s := c.finish f 0 (fun st => [wrAll f.d.toNat (ofN (nth c.ply.stage st 0 + 1))]) (fun _ => 0) s
      .done (s.releaseStatic c.sp c.slot)

def execQfence (f : Fields) (s : State) : Outcome State Fault Refusal :=
  guarded (.qfence f) s fun f c s =>
    let mask := f.m.toNat % 16
    let x := s.spindle c.sp
    let ahead := x.named c.la c.sk mask false
    let mark := fun (k : Skein) =>
      { k with marks := (List.range 4).map fun q =>
          if mask.testBit q then x.pendingOf (nth k.marks q []) ++ ahead else nth k.marks q [] }
    match c.waitNow, f.m.getLsbD 4 with
    | .commands l, true => if (x.pendingOf l).isEmpty then .done (c.finish0 f s) else .stall s
    | _, true =>
      let s := s.modSkein c.sp c.slot mark
      if ahead.isEmpty then .done (c.finish0 f s) else .stall (c.setWait .ready (.commands ahead) s)
    | _, false => .done (c.finish0 f (s.modSkein c.sp c.slot mark))

/-! ## Shape records (R56) -/

/-- A little-endian field of a record. -/
def leAt (l : List Byte) (off n : Nat) : Nat := bytesNat ((l.drop off).take n)

/-- A signed 32-bit field. -/
def leInt32 (l : List Byte) (off : Nat) : Int := (BitVec.ofNat 32 (leAt l off 4)).toInt

structure Shape where
  base : Nat
  ty : Ty
  rank : Nat
  layout : Nat
  clamp : Bool
  dims : List Nat
  strides : List Nat
  box : List Nat
  org : List Int
  pad : Nat
  steps : List Nat
  version : Nat
  pitch : Nat

/-- The fields of the 192 bytes. -/
def Shape.ofBytes (l : List Byte) : Shape :=
  { base := leAt l 0 8, ty := Ty.ofCode (leAt l 8 1), rank := leAt l 9 1, layout := leAt l 0x0A 1, clamp := leAt l 0x0B 1 == 1
    dims := (List.range 5).map fun k => leAt l (0x10 + 4 * k) 4
    strides := (List.range 5).map fun k => leAt l (0x28 + 8 * k) 8
    box := (List.range 5).map fun k => leAt l (0x50 + 4 * k) 4
    org := (List.range 5).map fun k => leInt32 l (0x68 + 4 * k)
    pad := leAt l 0x7C 4
    steps := (List.range 3).map fun k => leAt l (0x80 + 8 * k) 8
    version := leAt l 0xA0 8, pitch := leAt l 0xA8 4 }

/-- Every field lies in the range of R56, and every reserved byte is zero; `type` is not mask; for e2m1 box0 and org0 are even. -/
def shapeOk (l : List Byte) : Bool :=
  let h := Shape.ofBytes l
  decide (leAt l 8 1 < 15) && decide (1 ≤ h.rank) && decide (h.rank ≤ 5) && decide (h.layout ≤ 1) && decide (leAt l 0x0B 1 ≤ 1)
  && leAt l 0x0C 4 == 0 && leAt l 0x24 4 == 0 && leAt l 0x64 4 == 0 && leAt l 0xAC 20 == 0
  && nth h.strides 0 0 == 0
  && (List.range 5).all (fun k =>
      if k < h.rank then decide (1 ≤ nth h.dims k 0) && decide (1 ≤ nth h.box k 0)
      else nth h.dims k 0 == 0 && nth h.strides k 0 == 0 && nth h.box k 0 == 0 && nth h.org k 0 == 0)
  && (h.ty != .e2m1 || (nth h.box 0 0 % 2 == 0 && nth h.org 0 0 % 2 == 0))

/-- Half bytes of an element. -/
def Shape.unit (h : Shape) : Nat := h.ty.bits / 4

/-- An extent of the box; one at and beyond rank. -/
def Shape.ext (h : Shape) (k : Nat) : Nat := max (nth h.box k 0) 1

/-- Box rows, and bytes of a row. -/
def Shape.nrows (h : Shape) : Nat := h.ext 1 * h.ext 2 * h.ext 3 * h.ext 4
def Shape.rowBytes (h : Shape) : Nat := nth h.box 0 0 * h.unit / 2

/-- The base of a skein's view (R49, R56). -/
def Shape.viewBase (h : Shape) (sks : Bool) (lr : LRecord) (index : Nat) : Nat :=
  if sks then
    let gx := max lr.gridX 1
    let gy := max lr.gridY 1
    (h.base + nth h.steps 0 0 * (index % gx) + nth h.steps 1 0 * (index / gx % gy) + nth h.steps 2 0 * (index / (gx * gy))) % 2 ^ 64
  else h.base

/-- The last byte of the view. -/
def Shape.top (h : Shape) (base : Nat) : Nat :=
  base + (nth h.dims 0 0 * h.unit + 1) / 2 - 1
    + (List.range h.rank).foldl (fun n k => if k = 0 then n else n + nth h.strides k 0 * (nth h.dims k 0 - 1)) 0

/-- The address, in half bytes, of the element of given indices in every dimension. -/
def Shape.elemAt (h : Shape) (base : Nat) (ix : List Int) : Nat :=
  2 * base + (nth ix 0 0).toNat * h.unit
    + (List.range h.rank).foldl (fun n k => if k = 0 then n else n + 2 * (nth h.strides k 0 * (nth ix k 0).toNat)) 0

/-- The indices of element j0 of a box row. -/
def Shape.indices (h : Shape) (r j0 : Nat) : List Int :=
  let j := [j0, r % h.ext 1, r / h.ext 1 % h.ext 2, r / (h.ext 1 * h.ext 2) % h.ext 3, r / (h.ext 1 * h.ext 2 * h.ext 3)]
  (List.range 5).map fun k => nth h.org k 0 + (nth j k 0 : Nat)

/-- Below rank every index is inside the view. -/
def Shape.inView (h : Shape) (ix : List Int) : Bool :=
  (List.range h.rank).all fun k => decide (0 ≤ nth ix k 0) && decide (nth ix k 0 < (nth h.dims k 0 : Nat))

/-- Clamped to the nearest element inside the view (R57). -/
def Shape.clampIx (h : Shape) (ix : List Int) : List Int :=
  (List.range 5).map fun k => if k < h.rank then max 0 (min (nth ix k 0) ((nth h.dims k 0 : Nat) - 1 : Int)) else 0

/-! ## What a box moves, in half bytes (R245) -/

/-- One half byte: its order, its local place, and its memory place. -/
structure Move where
  seq : Nat
  l : Nat
  m : Nat
deriving DecidableEq, Repr

/-- The moves of one element, or the half bytes its padding writes locally; `read` when memory is the source. -/
def Shape.element (h : Shape) (base : Nat) (read : Bool) (seq lrow pitch r j0 : Nat) : List Move × List (Nat × Nat) × Bool :=
  let l := 2 * (lrow * pitch) + j0 * h.unit
  let go := fun ix => (List.range h.unit).map fun u => ({ seq, l := l + u, m := h.elemAt base ix + u } : Move)
  let ix := h.indices r j0
  if h.inView ix then (go ix, [], false)
  else if !read then ([], [], true)
  else if h.clamp then (go (h.clampIx ix), [], true)
  else ([], (List.range h.unit).map fun u => (l + u, h.pad / 16 ^ u % 16), true)

/-- Every element of the rows, in order. -/
def Shape.boxElements (h : Shape) (base : Nat) (read : Bool) (pitch : Nat) (rows : List (Nat × Nat × Nat)) :
    List (List Move × List (Nat × Nat) × Bool) :=
  rows.flatMap fun (r, lrow, seq) => (List.range (nth h.box 0 0)).map fun j0 => h.element base read seq lrow pitch r j0

/-- Puts a piece in its place in ascending order. -/
def insertKey (k : Nat × Nat) : List (Nat × Nat) → List (Nat × Nat)
  | [] => [k]
  | x :: l => if k.1 < x.1 || (k.1 == x.1 && k.2 ≤ x.2) then k :: x :: l else x :: insertKey k l

/-- The pieces: the 64-byte lines the moves touch, in ascending address, and for CPYS row by row (R246, R251). -/
def pieceKeys (ms : List Move) : List (Nat × Nat) :=
  let keys := ms.foldl (fun (l : List (Nat × Nat)) m => if l.contains (m.seq, m.m / 128) then l else (m.seq, m.m / 128) :: l) []
  keys.foldl (fun l k => insertKey k l) []

/-- The moves of a piece. -/
def movesOf (ms : List Move) (key : Nat × Nat) : List Move := ms.filter fun m => m.seq == key.1 && m.m / 128 == key.2

/-! ## Local sides -/

/-- A half byte of a byte. -/
def nib (b : Byte) (i : Nat) : Nat := b.toNat / 16 ^ (i % 2) % 16
/-- A byte with one half replaced. -/
def setNib (b : Byte) (i v : Nat) : Byte :=
  BitVec.ofNat 8 (if i % 2 = 0 then b.toNat / 16 * 16 + v % 16 else v % 16 * 16 + b.toNat % 16)

/-- The command moves from memory. -/
def CopyCmd.reads (k : CopyCmd) : Bool := k.kind == .cpyk || decide (k.dir < 2)
/-- Its local side is a tile. -/
def CopyCmd.onTile (k : CopyCmd) : Bool := k.kind != .cpyk && k.dir % 2 == 0

/-- A half byte of a command's local side. -/
def localGet (s : State) (sp slot : Nat) (k : CopyCmd) (i : Nat) : Nat :=
  match s.skein? sp slot with
  | none => 0
  | some y =>
    if k.onTile then nib (sget (nth y.tiles k.loc {}).bytes (i / 2)) i
    else nib (sget y.scratch (k.loc + i / 2)) i

/-- A half byte written to a command's local side. -/
def localPut (s : State) (sp slot : Nat) (k : CopyCmd) (i v : Nat) : State :=
  if k.kind == .cpyk then
    s.modSpindle sp fun x => let a := 4096 * slot + k.loc + i / 2; { x with scale := sset x.scale a (setNib (sget x.scale a) i v) }
  else if k.onTile then s.modTile sp slot k.loc fun t => { t with bytes := sset t.bytes (i / 2) (setNib (sget t.bytes (i / 2)) i v) }
  else s.modSkein sp slot fun y => let a := k.loc + i / 2; { y with scratch := sset y.scratch a (setNib (sget y.scratch a) i v) }

/-! ## Translation by the engines (R246): the frame TLB and walks -/

/-- A lookup by an engine of a spindle. -/
def engLookup (s : State) (sp asid root va : Nat) : Tr :=
  let f := (frameOf sp).bind fun n => (s.frame n).tlb.find? fun y => y.covers asid va
  pick f (translate s asid root va)

/-- What an engine's lookup leaves in the frame TLB, its walk counted (R236). -/
def engFill (s : State) (sp asid root va : Nat) (t : Tr) : State :=
  match frameOf sp with
  | none => s
  | some n =>
    let held := (s.frame n).tlb.any fun y => y.covers asid va
    let s := if held || !s.hotcfg.getLsbD 63 then s else (s.inForce asid root va).foldl (fun s e => s.hotCount (stackOf sp) e.1 false) s
    match t with
    | .page x | .notMapped x => s.modFrame n fun y => { y with tlb := putXlat frameTlbSize (Config.freeNat s.tick 11) x y.tlb }
    | _ => s

/-- What an engine finds at an address. -/
inductive Reach where
  /-- a physical address, and whether the access bypasses every cache -/
  | at_ (pa : Nat) (sure : Bool)
  | denied
  | missing (mig : Bool)
  | wait

/-- The memory an access needs answers: a load also waits for a retrain (R382, R383). -/
def State.accessible (s : State) (need : Need) (pa : Nat) : Bool := if need == .write then s.reachable pa else s.readable pa

/-- The outcome of translating a piece, which waits for what it is to access. -/
def reach (ready : Nat → Bool) (va : Nat) (need : Need) (t : Tr) : Reach :=
  match t with
  | .wait => .wait
  | .table _ => .denied
  | .notMapped x => .missing x.mig
  | .page x =>
    match x.place va with
    | none => .denied
    | some (pa, a) =>
      if !a.permits need then .denied
      else if !ready pa then .wait
      else .at_ pa (a.attr == 1)

/-- A command's place: the spindle, its queue, the slot of its skein, and the launch. -/
structure CopyAt where
  sp : Nat
  q : Nat
  slot : Nat
  la : Launch
  sk : Skein
deriving DecidableEq, Repr

/-- Changes the command at the head of a queue. -/
def State.modCopy (s : State) (sp q : Nat) (g : CopyCmd → CopyCmd) : State :=
  s.modSpindle sp fun x => { x with cq := modNth x.cq q fun l => modNth l 0 g }

/-- The command has performed its last access, with a code and a count. -/
def finishCopy (a : CopyAt) (code count : Nat) (s : State) : State :=
  s.modCopy a.sp a.q fun k => { k with result := some (code, count), asleep := none }

/-- Bytes moved so far. -/
def CopyCmd.bytes (k : CopyCmd) : Nat := k.moved / 2

/-- The command waits for a page, with a LOAD or STORE record unless the page is being migrated; without room in the ring it waits
for that, whatever becomes of the page (R231, R246). -/
def copyMissing (a : CopyAt) (va : Nat) (write mig : Bool) (s : State) : State :=
  let page := ofN (va / 4096 * 4096)
  let sleep := fun (s : State) => s.modCopy a.sp a.q fun k => { k with asleep := some page, woken := false }
  if mig then sleep s
  else if s.ringFree = 0 then s.modCopy a.sp a.q fun k => { k with asleep := none, ring := true }
  else
    sleep (s.ringWrite { va := ofN va, info := 0
                         word1 := ringWord1 (if write then 1 else 0) a.la.asid a.sp a.slot 0xFF 0xFF 0xFF })

/-! ## Format ranges (R147 to R149) -/

/-- Lines of a view row. -/
def rangeLines (kblk : Nat) : Nat := (32 * kblk + 95) / 96

/-- The range of a die as numbers: base, rows, KBLK, scale base; none while it is not enabled. -/
def Range.get (r : Range) : Option (Nat × Nat × Nat × Nat) :=
  if r.base.getLsbD 63 then some (fld r.base 21 31 * 2 ^ 21, fld r.geom 24 24, fld r.geom 0 16, fld r.scale 6 46 * 64) else none

/-- A line j of row i of a range's view. -/
structure ViewAt where
  base : Nat
  rows : Nat
  kblk : Nat
  sbase : Nat
  i : Nat
  j : Nat

/-- Where the 62 bytes of a view line are read: 96 codes, 12 block scales, the band scale (R148); none for padding. -/
def ViewAt.places (v : ViewAt) : List (Option Nat) :=
  let valid := fun e => decide (e < 32 * v.kblk)
  let bands := ((v.rows + 63) / 64 * 2 + 63) / 64 * 64
  let codes := (List.range 48).map fun b => if valid (96 * v.j + 2 * b) then some (v.base + 16 * v.kblk * v.i + 48 * v.j + b) else none
  let scales := (List.range 12).map fun b => if valid (96 * v.j + 8 * b) then some (v.sbase + bands + 4 * v.kblk * v.i + 12 * v.j + b) else none
  codes ++ scales ++ [some (v.sbase + 2 * (v.i / 64)), some (v.sbase + 2 * (v.i / 64) + 1)]

/-- The 64 bytes of a view line. -/
def viewLine (s : State) (v : ViewAt) : List Byte := v.places.map (fun p => match p with | some pa => s.paByte pa | none => 0) ++ [0, 0]

/-- Everything that a view line needs can be read now (R382, R383). -/
def viewReady (s : State) (v : ViewAt) : Bool := v.places.all fun p => match p with | some pa => s.readable pa | none => true

/-- The view line of a layout-1 read, and the die and number of the range it is decoded by: a range of the die that owns the element line it needs,
which covers the view address. Of ranges whose views overlap the lowest die's and then the lowest-numbered one decodes; element data in
reserved SRAM is owned as its offset would be in GDDR-7 (DESIGN CHOICE, log 68). No range covers an address of another package,
whose dies the model does not hold (DESIGN CHOICE, log 83). -/
def layout1At (s : State) (pa : Nat) : Option ((Nat × Nat) × ViewAt) :=
  (List.range s.nStacks).findSome? fun d =>
    (List.range 8).findSome? fun n =>
      match (nth (s.die d).ranges n {}).get with
      | none => none
      | some (base, rows, kblk, sbase) =>
        let o := pa - base
        let i := o / (64 * rangeLines kblk)
        let j := o / 64 % rangeLines kblk
        if base ≤ pa && i < rows && s.isLocal pa && s.ownerDie (base + i * 16 * kblk + 48 * j) == d then
          some ((d, n), { base, rows, kblk, sbase, i, j })
        else none

/-- The 64 bytes of a layout-1 read of a line. -/
def layout1Line (s : State) (pa : Nat) : Option (List Byte) := (layout1At s pa).map fun v => viewLine s v.2

/-! ## The start of a command (R245) -/

/-- The command's view: base, pitch of a local row, and its elements. -/
def copyElements (a : CopyAt) (k : CopyCmd) : List (List Move × List (Nat × Nat) × Bool) :=
  let h := Shape.ofBytes k.shapeRec
  let pitch := if k.onTile then (nth a.sk.tiles k.loc {}).bpr
    else if k.kind == .cpyk || h.pitch == 0 then h.rowBytes else h.pitch
  h.boxElements (h.viewBase k.sks a.la.lrec a.sk.index) k.reads pitch k.rows

/-- The rows of a command: box row, local row, order; none when the row mask or index list cannot be read (R250, R251). The second
number is how many local rows there are; the last says that an index was skipped. -/
def copyRows (a : CopyAt) (k : CopyCmd) (h : Shape) : Option (List (Nat × Nat × Nat) × Nat × Bool) :=
  let sc := a.la.hdr.scratch
  let o := k.dval.toNat
  match k.kind with
  | .cpyg =>
    let nb := (h.nrows + 7) / 8
    if sc < o + nb then none
    else
      let sel := (List.range h.nrows).filter fun r => (sget a.sk.scratch (o + r / 8)).getLsbD (r % 8)
      some ((List.range sel.length).map fun i => (nth sel i 0, i, 0), sel.length, false)
  | .cpys =>
    let n := (sread a.sk.scratch o 4).toNat
    if sc < o + 4 || sc < o + 4 + 4 * n || (k.onTile && decide ((nth a.sk.tiles k.loc {}).rows < n)) then none
    else
      let all := (List.range n).map fun i => ((sread a.sk.scratch (o + 4 + 4 * i) 4).toNat, i, i)
      let kept := all.filter fun x => decide (x.1 < h.nrows)
      some (kept, n, kept.length != n)
  | _ => some ((List.range h.nrows).map fun r => (r, r, 0), h.nrows, false)

/-- The box fits its local side: its rows, for CPYG those selected (R245), and the rows of an index list (R251; DEDUCED, log 40). -/
def copyFits (a : CopyAt) (k : CopyCmd) (h : Shape) (n : Nat) : Bool :=
  let n := if k.kind == .cpyg then n else max n h.nrows
  if k.kind == .cpyk then decide (k.loc + n * h.rowBytes ≤ 4096)
  else if k.onTile then
    let t := nth a.sk.tiles k.loc {}
    decide (n ≤ t.rows) && decide (h.rowBytes ≤ t.bpr)
  else
    let pitch := if h.pitch = 0 then h.rowBytes else h.pitch
    decide (h.rowBytes ≤ pitch) && (n == 0 || decide (k.loc + (n - 1) * pitch + h.rowBytes ≤ a.la.hdr.scratch))

/-- The checks that need neither the row mask nor the local side. -/
def copyShapeOk (a : CopyAt) (k : CopyCmd) (l : List Byte) : Bool :=
  let h := Shape.ofBytes l
  shapeOk l && decide (h.top (h.viewBase k.sks a.la.lrec a.sk.index) < 2 ^ 56)
  && (k.kind != .cpyc || (h.version != 0 && h.version % 8 == 0 && decide (h.version < 2 ^ 56)))
  && (h.layout == 0 || ((k.kind == .cpy || k.kind == .cpyg) && k.reads && h.ty == .b8))


/-- The command fills a tile. -/
def CopyCmd.fillsTile (k : CopyCmd) : Bool := k.onTile && k.dir == 0

/-- The command fills a tile, each 64-byte piece of it at once (R247), or scale memory, each pair of bytes at once: a band scale is read old or new
(R281). -/
def CopyCmd.gathers (k : CopyCmd) : Bool := k.fillsTile || k.kind == .cpyk

/-- Half bytes of the local side that are stored at once. -/
def CopyCmd.unit (k : CopyCmd) : Nat := if k.kind == .cpyk then 4 else 128

/-- Zeroes the bytes outside the box in some pieces of a tile (R245, R250). -/
def zeroOutside (a : CopyAt) (k : CopyCmd) (h : Shape) (n : Nat) (sel : Nat → Bool) (s : State) : State :=
  if k.fillsTile then
    s.modTile a.sp a.slot k.loc fun t =>
      let kept := fun (b : Nat × Byte) => t.bpr != 0 && decide (b.1 / t.bpr < n) && decide (b.1 % t.bpr < h.rowBytes)
      { t with bytes := t.bytes.filter fun b => !sel (b.1 / 64) || kept b }
  else s

/-- Selected units of the local side take the zeroes around the box, the padding, and what has been read for them. -/
def fillPieces (a : CopyAt) (k : CopyCmd) (sel : Nat → Bool) (s : State) : State :=
  let h := Shape.ofBytes k.shapeRec
  let n := if k.kind == .cpyg then k.packed else h.nrows
  let pads := (copyElements a k).flatMap fun e => e.2.1
  let s := (pads.filter fun p => sel (p.1 / k.unit)).foldl (fun s p => localPut s a.sp a.slot k p.1 p.2) (zeroOutside a k h n sel s)
  let s := (k.buf.filter fun p => sel (p.1 / k.unit)).foldl (fun s p => localPut s a.sp a.slot k p.1 p.2.toNat) s
  s.modCopy a.sp a.q fun k => { k with buf := k.buf.filter fun p => !sel (p.1 / k.unit) }

/-- Every half byte of a unit that comes from memory has been read. -/
def pieceDone (k : CopyCmd) (ms : List Move) (p : Nat) : Bool :=
  (ms.filter fun m => m.l / k.unit == p).all fun m => k.gone.contains (m.seq, m.m / 128)

/-- The end of a command that cannot go on: what it has read for a tile or for scale memory is there. -/
def failCopy (a : CopyAt) (code : Nat) (s : State) : State :=
  match (nth (s.spindle a.sp).cq a.q []).head? with
  | none => s
  | some k =>
    let ms := (copyElements a k).flatMap fun e => e.1
    finishCopy a code k.bytes (if k.prepared && k.gathers then fillPieces a k (fun p => !pieceDone k ms p) s else s)

/-- The record is here: the rows are selected (R250), and the checks of R245 follow that need no memory. The packed count that a CPYG writes is the
number selected once the mask has been read, though it then ends with BAD_SHAPE or ACCESS, and 0 before (R247; DESIGN CHOICE, log 96). -/
def copyPrepare (a : CopyAt) (k : CopyCmd) (l : List Byte) (s : State) : State :=
  let h := Shape.ofBytes l
  match copyRows a k h with
  | none => finishCopy a 2 0 s
  | some (rows, n, skip) =>
    let packed := if k.kind == .cpyg then n else 0
    let s := s.modCopy a.sp a.q fun k => { k with packed := packed }
    if !copyShapeOk a k l || !copyFits a k h n then finishCopy a 2 0 s
    else s.modCopy a.sp a.q fun k => { k with shapeRec := l, rows := rows, bits := k.bits ||| (if skip then 1 <<< 43 else 0) }

/-! ## Accesses (R246, R249) -/

/-- The command, as it stands at the head of its queue. -/
def State.copyHead (s : State) (sp q : Nat) : Option CopyCmd := (nth (s.spindle sp).cq q []).head?

/-- What an engine finds at an address, and what its lookup leaves. -/
def engReach (a : CopyAt) (ready : Nat → Bool) (need : Need) (va : Nat) (s : State) : Reach × State :=
  let t := engLookup s a.sp a.la.asid a.la.root va
  let s := engFill s a.sp a.la.asid a.la.root va t
  (reach ready va need t, s)

/-- What becomes of a command that cannot access an address: it waits, or it ends with ACCESS. A walk of the engine that ends in TABLE_FAULT writes no
TABLE record to the fault ring, for R246 names none (R230, R246; DESIGN CHOICE, log 94). -/
def copyStop (a : CopyAt) (va : Nat) (write : Bool) (r : Reach) (s : State) : State :=
  match r with
  | .at_ .. | .wait => s
  | .denied => failCopy a 3 s
  | .missing mig => copyMissing a va write mig s

/-- The physical lines of a layout-1 view, to see whether every one is covered (R149): none of them is read before that. A line that has no address
yet stands for what stops it. -/
def viewGo (a : CopyAt) : List Nat → State → (List Nat × Option (Nat × Reach)) × State
  | [], s => (([], none), s)
  | line :: l, s =>
    let va := 64 * line
    let t := engLookup s a.sp a.la.asid a.la.root va
    let s := engFill s a.sp a.la.asid a.la.root va t
    match t.place va, t with
    | some (pa, _), _ => let r := viewGo a l s; ((pa :: r.1.1, r.1.2), r.2)
    | none, .notMapped x => (([], some (va, .missing x.mig)), s)
    | none, .wait => (([], some (va, .wait)), s)
    | none, _ => (([], some (va, .denied)), s)

/-- The padding and the zeroes around the box are written, where nothing is to be read for a piece of the local side, and accesses may follow; a command
without any ends. The format ranges that cover a layout-1 view accept all of the command's reads here, until it ends (R149; DESIGN CHOICE, log 105).
PADDED is set here, so that a command which then ends with VERSION_MISMATCH or ACCESS has it too (R248; DESIGN CHOICE, log 95). -/
def copyBegin (a : CopyAt) (k : CopyCmd) (ranges : List (Nat × Nat)) (s : State) : State :=
  let es := copyElements a k
  let pads := es.flatMap fun e => e.2.1
  let ms := es.flatMap fun e => e.1
  let s := fillPieces a k (fun p => !k.gathers || pieceDone k ms p) s
  s.modCopy a.sp a.q fun k =>
    { k with prepared := true, ranges := ranges, bits := k.bits ||| (if es.any fun e => e.2.2 then 1 <<< 44 else 0), moved := pads.length }

/-- A checked command whose view, in layout 1, is covered begins. -/
def copyCover (a : CopyAt) (s : State) : State :=
  match s.copyHead a.sp a.q with
  | none => s
  | some k =>
    if k.result.isSome || k.prepared || k.shapeRec.isEmpty then s
    else if (Shape.ofBytes k.shapeRec).layout != 1 then copyBegin a k [] s
    else
      let lines := (pieceKeys ((copyElements a k).flatMap fun e => e.1)).map Prod.snd
      let (got, s) := viewGo a lines s
      if got.1.any fun pa => (layout1At s pa).isNone then finishCopy a 2 0 s
      else
        match got.2 with
        | none => copyBegin a k ((got.1.filterMap (layout1At s)).map Prod.fst).eraseDups s
        | some (va, r) => copyStop a va false r s

/-- A line read by a piece; a layout-1 read by the ranges as they stand, which accepted reads keep as they were (R149). -/
def pieceLine (s : State) (k : CopyCmd) (pa : Nat) : Option (List Byte) :=
  if (Shape.ofBytes k.shapeRec).layout == 1 then layout1Line s pa else some (s.paBytes pa 64)

/-- What a piece accesses answers: for a layout-1 read the elements and scales it decodes. -/
def pieceReady (s : State) (k : CopyCmd) (pa : Nat) : Bool :=
  if !k.reads then s.accessible .write pa
  else if (Shape.ofBytes k.shapeRec).layout == 1 then (match layout1At s pa with | some v => viewReady s v.2 | none => true)
  else s.accessible .read pa

/-- The half bytes of the tile pieces that some moves take, each piece as it is when the command first reads it (R247). -/
def snapTile (s : State) (a : CopyAt) (k : CopyCmd) (ms : List Move) : List (Nat × BitVec 4) :=
  let new := (ms.map fun m => m.l / 128).eraseDups.filter fun p => !k.buf.any fun x => x.1 / 128 == p
  k.buf ++ new.flatMap fun p => (List.range 128).map fun i => (128 * p + i, BitVec.ofNat 4 (localGet s a.sp a.slot k (128 * p + i)))

/-- One piece performed at a physical line; none when a layout-1 line is not covered. What is read for a tile or for scale
memory waits until the unit it belongs to is complete. -/
def copyPiece (a : CopyAt) (k : CopyCmd) (ms : List Move) (pa : Nat) (s : State) : Option State :=
  if k.reads then
    (pieceLine s k pa).map fun l =>
      let got := ms.map fun m => (m.l, nib (nth l (m.m % 128 / 2) 0) m.m)
      if k.gathers then s.modCopy a.sp a.q fun k => { k with buf := k.buf ++ got.map fun x => (x.1, BitVec.ofNat 4 x.2) }
      else got.foldl (fun s x => localPut s a.sp a.slot k x.1 x.2) s
  else
    let snap := if k.onTile then snapTile s a k ms else []
    let from_ := fun i => if k.onTile then (((snap.find? fun x => x.1 == i).map Prod.snd).getD 0).toNat else localGet s a.sp a.slot k i
    let line := ms.foldl (fun l m => modNth l (m.m % 128 / 2) fun b => setNib b m.m (from_ m.l)) (s.paBytes pa 64)
    some ((s.paPutBytes pa line).modCopy a.sp a.q fun k => { k with buf := snap })

/-- The pieces that may be performed now: any still to be, but for CPYS those of the first row that is not done (R246, R251). -/
def nextPieces (k : CopyCmd) (keys : List (Nat × Nat)) : List (Nat × Nat) :=
  let left := keys.filter fun x => !k.gone.contains x
  match left with
  | [] => []
  | x :: _ => left.filter fun y => y.1 == x.1

/-- The units that a move has completed are written. -/
def tileStep (a : CopyAt) (ms mine : List Move) (s : State) : State :=
  match s.copyHead a.sp a.q with
  | none => s
  | some k => if k.gathers then fillPieces a k (fun p => (mine.any fun m => m.l / k.unit == p) && pieceDone k ms p) s else s

/-- One access of a command that has begun: the compare-and-swap of CPYC first, once, which on a missing page writes a STORE record (R246; DESIGN
CHOICE, log 107); then a piece, of those that may come next a free one (R246, R249; DESIGN CHOICE, log 26); after the last it ends. Counter 9 counts
what a piece moves on the memory side, so no padding (R371; DESIGN CHOICE, log 111). -/
def copyAccess (a : CopyAt) (use : Nat) (s : State) : State :=
  match s.copyHead a.sp a.q with
  | none => s
  | some k =>
    if k.result.isSome || !k.prepared then s
    else if k.kind == .cpyc && !k.casDone then
      let va := (Shape.ofBytes k.shapeRec).version
      match engReach a (s.accessible .both) .both va s with
      | (.at_ pa sure, s) =>
        let old := s.paRead pa 8
        let s := s.hotCount (stackOf a.sp) pa sure
        if old == k.dval then (s.paWrite pa 8 (old + 1)).modCopy a.sp a.q fun k => { k with casDone := true }
        else finishCopy a 1 (old.toNat % 2 ^ 32) s
      | (r, s) => copyStop a va true r s
    else
      let ms := (copyElements a k).flatMap fun e => e.1
      let next := nextPieces k (pieceKeys ms)
      match next with
      | [] => finishCopy a 0 (match k.kind with | .cpyg => k.packed | .cpys => k.rows.length | _ => k.bytes) s
      | first :: _ =>
        let key := nth next (Config.freeNat s.tick use % next.length) first
        let va := 64 * key.2
        match engReach a (pieceReady s k) (if k.reads then .read else .write) va s with
        | (.at_ pa sure, s) =>
          let mine := movesOf ms key
          (match copyPiece a k mine pa s with
           | none => failCopy a 2 s
           | some s =>
             let s := s.modCopy a.sp a.q fun k => { k with gone := key :: k.gone, moved := k.moved + mine.length }
             let s := tileStep a ms mine s
             (s.modSpindle a.sp fun x => x.count 9 ((k.moved + mine.length) / 2 - k.moved / 2)).hotCount (stackOf a.sp) pa sure)
        | (r, s) => copyStop a va (!k.reads) r s

/-- n accesses, one after another; the end of the last is seen with it. -/
def copyAccesses (a : CopyAt) : Nat → State → State
  | 0, s => s
  | n + 1, s => copyAccesses a n (copyAccess a (64 + n) s)

/-- Nothing is left of a command that has begun: it ends. -/
def copyEnd (a : CopyAt) (s : State) : State :=
  match s.copyHead a.sp a.q with
  | none => s
  | some k =>
    if k.prepared && (k.kind != .cpyc || k.casDone) && (nextPieces k (pieceKeys ((copyElements a k).flatMap fun e => e.1))).isEmpty then copyAccess a 64 s
    else s

/-- The bytes of a record on the memory side: its three lines, or why they cannot be read. -/
def recordGo (a : CopyAt) : List Nat → State → (Reach × Nat × List Byte) × State
  | [], s => ((.at_ 0 false, 0, []), s)
  | va :: l, s =>
    match engReach a (s.accessible .read) .read va s with
    | (.at_ pa sure, s) =>
      let r := recordGo a l (s.hotCount (stackOf a.sp) pa sure)
      ((r.1.1, r.1.2.1, s.paBytes pa 64 ++ r.1.2.2), r.2)
    | (r, s) => ((r, va, []), s)

/-- Puts a record into the cache of 16 records; which one leaves a full cache is free (DESIGN CHOICE, log 10). -/
def putRec (s : State) (sp asid : Nat) (addr : Word) (l : List Byte) : State :=
  s.modSpindle sp fun x =>
    let rest := x.recs.filter fun r => !(r.1 == asid && r.2.1 == addr)
    { x with recs := (if rest.length < 16 then rest else rest.eraseIdx (Config.freeNat s.tick 9 % 16)) ++ [(asid, addr, l)] }

/-- Reads the shape record through the record cache. A record the cache holds may be used in place of what memory holds now, freely
where they differ (DESIGN CHOICE, log 10). A copy issued before an SRFENCE that starts after it finds none there (R279; DESIGN CHOICE, log 90). -/
def copyRecord (a : CopyAt) (k : CopyCmd) (s : State) : State :=
  let va := k.shape.toNat
  if 2 ^ 56 ≤ va then finishCopy a 2 0 s
  else
    let (got, s) := recordGo a [va, va + 64, va + 128] s
    let cached := ((s.spindle a.sp).recs.find? fun r => r.1 == a.la.asid && r.2.1 == k.shape).map fun r => r.2.2
    let fromMem := fun (_ : Unit) =>
      match got.1 with
      | .at_ .. => copyPrepare a k got.2.2 (putRec s a.sp a.la.asid k.shape got.2.2)
      | r => copyStop a got.2.1 false r s
    match cached with
    | none => fromMem ()
    | some l => if got.2.2 == l || Config.freeBool s.tick 10 then copyPrepare a k l s else fromMem ()

/-- A started command goes on from where it stands, by so many accesses. -/
def copyRun (a : CopyAt) (n : Nat) (s : State) : State :=
  match s.copyHead a.sp a.q with
  | none => s
  | some k =>
    if k.result.isSome then s
    else copyEnd a (copyAccesses a n (copyCover a (if k.shapeRec.isEmpty then copyRecord a k s else s)))

/-- A skein that resumes has saved accesses, or saved crossbar reads and writes, that come before its engines' commands (R355). -/
def State.heldsBack (s : State) (sp : Nat) (k : Skein) : Bool :=
  s.settling k.uid || (s.spindle sp).xheld.any fun h => k.back.contains h.id

/-- The place of a queue's head command; none when its skein is not resident. -/
def State.copyAt (s : State) (sp q : Nat) (k : CopyCmd) : Option CopyAt :=
  (s.spindle sp).residents.findSome? fun p =>
    if p.2.uid == k.uid && !s.heldsBack sp p.2 then some { sp, q, slot := p.1, la := s.launch p.2.launch, sk := p.2 } else none

/-! ## CPY.mig at work -/

/-- Moves lines in ascending order while their devices are trained and their packages reached; a hole reads all ones and drops
what is written to it. The accesses are those of the core's stack (R236). -/
def migGo (slot src dst : Nat) : Nat → Nat → State → Nat × State
  | 0, done, s => (done, s)
  | n + 1, done, s =>
    if s.readable (src + 64 * done) && s.reachable (dst + 64 * done) then
      migGo slot src dst n (done + 1)
        (((s.paPutBytes (dst + 64 * done) (s.paBytes (src + 64 * done) 64)).hotCount slot (src + 64 * done) false).hotCount slot (dst + 64 * done) false)
    else (done, s)

/-- The head command of a core's queue goes on, by so many lines. -/
def migRun (c q lines : Nat) (s : State) : State :=
  match (nth (s.core c).cq q []).head? with
  | none => s
  | some k =>
    match k.mig with
    | none => s
    | some (src, dst, n) =>
      let r := migGo (c / 2) src dst (min lines (n / 64 - k.pieces)) k.pieces s
      r.2.modCore c fun y => { y with cq := modNth y.cq q fun l => modNth l 0 fun k =>
        { k with pieces := r.1, moved := 128 * r.1, result := if n / 64 ≤ r.1 then some (0, n) else none } }

/-! ## Events: start, retry, complete -/

/-- CE or UE of the command (R248). -/
def memErrBits : MemErr → Word
  | .none => 0
  | .corrected => 1 <<< 41
  | .uncorrected => 1 <<< 42

/-- The head command of a queue starts: once its issuer's earlier accesses have been performed and what a join mark puts ahead of it has completed, it
reads its record, is checked, and moves freely many of its pieces (R240, R245, R255; DESIGN CHOICE, log 26). -/
def execCopyCmdStart (e : Engine) (q : Nat) (err : MemErr) (s : State) : Outcome State Fault Refusal :=
  match e with
  | .core c =>
    if s.nCores ≤ c then .fault .noSuchUnit
    else
      match (nth (s.core c).cq q []).head? with
      | none => .next s
      | some k =>
        if k.started then .next s
        else .next (migRun c q (Config.freeNat s.tick 12) (s.modCore c fun y => { y with cq := modNth y.cq q fun l => modNth l 0 fun k =>
          { k with started := true, bits := memErrBits err } }))
  | .spindle sp =>
    if !s.spindlePresent sp then .fault .noSuchUnit
    else
      match s.copyHead sp q with
      | none => .next s
      | some k =>
        match s.copyAt sp q k with
        | none => .next s
        | some a =>
          if k.started || a.sk.pre != .no || !((s.spindle sp).pendingOf k.after).isEmpty
              || (match k.who with | some w => !s.accessesDone a.sk w k.strands k.issued | none => false) then .next s
          else
            let s := s.modCopy sp q fun k => { k with started := true, bits := memErrBits err }
            let s := if k.onTile && k.dir == 0 then s.stampStart sp a.slot k.loc false else s
            .next ((copyRun a (Config.freeNat s.tick 12) s).releaseSpindle sp)

/-- The status word (R248). -/
def copyStatus (q : Nat) (k : CopyCmd) (code count : Nat) : Word :=
  BitVec.ofNat 64 (2 ^ 63 + code * 2 ^ 48 + (if k.resumed then 2 ^ 40 else 0) + q * 2 ^ 36 + k.kind.code * 2 ^ 32 + count % 2 ^ 32)
    ||| k.bits

/-- A command that has performed every access completes, in the order of R247; of an ended skein nothing is reported (R257). -/
def execCopyCmdComplete (e : Engine) (q : Nat) (s : State) : Outcome State Fault Refusal :=
  match e with
  | .core c =>
    if s.nCores ≤ c then .fault .noSuchUnit
    else
      match (nth (s.core c).cq q []).head? with
      | none => .next s
      | some k =>
        match k.result with
        | none => .next s
        | some (code, count) =>
          let w := copyStatus q k code count
          .next (s.modCore c fun y =>
            let y := { y with cq := modNth y.cq q fun l => l.drop 1 }
            let y := (y.defs.filter fun d => d.op == k.id).foldl (fun y d => d.writes.foldl (fun y w' =>
              match w' with
              | .s r _ _ => { y with gpr := sset y.gpr r w }
              | _ => y) y) y
            { y with defs := y.defs.filter fun d => d.op != k.id })
  | .spindle sp =>
    if !s.spindlePresent sp then .fault .noSuchUnit
    else
      match s.copyHead sp q with
      | none => .next s
      | some k =>
        match s.copyAt sp q k, k.result with
        | some a, some (code, count) =>
          let w := copyStatus q k code count
          let ended := a.sk.life == .ended
          let report := fun (y : Skein) =>
            let y := if k.kind == .cpyg then { y with scratch := swrite y.scratch (k.bar + 16) 8 (ofN k.packed) } else y
            let y := y.complete k.bar w
            let y := if k.ev then y.post (evRecord 0 q (k.entry.getD 0xFF) k.bar code count) else y
            let y := y.deliver k.id w
            if w.getLsbD 42 && s.trapUe a.la then y.uncorrected k.who k.strands w else y
          let s := if ended then s else s.modSkein sp a.slot report
          let s := s.modSpindle sp fun x => { x with cq := modNth x.cq q fun l => l.drop 1 }
          let s := if k.onTile then (if k.dir == 0 then s.stampFilled sp a.slot k.loc else s.stampClose sp a.slot k.loc 0) else s
          .next (s.releaseSpindle sp)
        | _, _ => .next s

/-- A command that has started goes on by at least one access, unless it sleeps on a missing page or the ring it waits for is still full: one that
waits for a wake, for room in the fault ring, for a device or for a link tries again (R226, R231, R246). What the error code finds meanwhile is reported with it (R248). -/
def copyRetry (sp q : Nat) (err : MemErr) (s : State) : State :=
  match s.copyHead sp q with
  | none => s
  | some k =>
    match s.copyAt sp q k with
    | none => s
    | some a =>
      if !k.started || a.sk.pre != .no || (k.asleep.isSome && !k.woken) || (k.ring && s.ringFree == 0) then s
      else copyRun a (Config.freeNat s.tick 12 + 1)
        (s.modCopy sp q fun k => { k with asleep := none, woken := false, ring := false, bits := k.bits ||| memErrBits err })

/-- The same for a core's queue. -/
def migRetry (c q : Nat) (err : MemErr) (s : State) : State :=
  match (nth (s.core c).cq q []).head? with
  | none => s
  | some k =>
    if !k.started then s
    else migRun c q (Config.freeNat s.tick 12 + 1) (s.modCore c fun y => { y with cq := modNth y.cq q fun l => modNth l 0 fun k =>
      { k with bits := k.bits ||| memErrBits err } })

end Sys2Proof.Machine
end

