-- ==== Sys2Proof/Machine/Matrix.lean ====
section
/-! DEFINITION. The matrix engine (R259 to R280): tile shapes, the checks of matrix commands, the products and their summation
(R142 to R146), moves and conversions of tiles, SRFENCE, and the events that start, step and complete a command. -/

namespace Sys2Proof.Machine

open Host (Outcome)

/-! ## Issue -/

/-- MATRIX_ARG (R260, R261), with the thread that R271 names. -/
def matrixArg (elem : Option Nat) : Eff := .trap { kind := .matrixArg, elem }

/-- KIND of R274. -/
def MatKind.code : MatKind → Nat
  | .tld => 5 | .tst => 6 | .tzero => 7 | .mma => 8 | .mmas => 9 | .mmax => 10 | .tcvt => 11

def MatKind.product : MatKind → Bool
  | .mma | .mmas | .mmax => true
  | _ => false

/-- The EV bit of a command's word. -/
def matEv (k : MatKind) (f : Fields) : Bool := match k with | .tcvt => f.m.getLsbD 3 | _ => f.m.getLsbD 5

/-- IL of MMAX (R266). -/
def matIl (k : MatKind) (f : Fields) : Bool := k == .mmax && f.m.getLsbD 4

/-- The tiles a command names. -/
def matTiles (k : MatKind) (f : Fields) : List Nat :=
  match k with
  | .tld | .tst | .tzero => [f.d.toNat]
  | .tcvt => [f.d.toNat, f.a.toNat]
  | _ => [f.d.toNat, f.a.toNat, f.b.toNat]

/-- The command reads block scales from scale memory (R272). -/
def usesScales (k : MatKind) (f : Fields) : Bool := (k == .mmas && f.ty == .e2m1) || (k == .mmax && !matIl k f)

/-- The matrix operation word: BAR, and every field the command does not use zero (R265). -/
def Ctx.opWordOk (c : Ctx) (k : MatKind) (f : Fields) (w : Word) : Bool :=
  let bar := fld w 0 16
  fld w 60 4 == 0 && bar % 32 == 0 && decide (bar < 32 * c.la.hdr.barCount)
  && (usesScales k f || fld w 16 16 == 0)
  && (if k == .mmas then (if c.dist then fld w 32 8 == 0 && fld w 40 20 % 4 == 0 else fld w 40 20 == 0) else fld w 32 28 == 0)

/-- The shape of a tile of the party's skein. -/
def Ctx.tile (c : Ctx) (t : BitVec 8) : Tile := nth c.sk.tiles t.toNat {}

/-- Elements in a number of bytes. -/
def elemsIn (ty : Ty) (bytes : Nat) : Nat := bytes * 8 / ty.bits

/-- Logical K of a product with A's bytes per row. -/
def logicalK (k : MatKind) (f : Fields) (bprA : Nat) : Nat :=
  if matIl k f then 96 * (bprA / 64) else if k == .mmas then 2 * elemsIn f.ty bprA else elemsIn f.ty bprA

/-- Bytes of a scale area up to its end: band scales padded to 16 bytes, then block scales (R272). -/
def bandBytes (rows : Nat) : Nat := ((rows + 63) / 64 * 2 + 15) / 16 * 16
def scaleEnd (col rows k : Nat) : Nat := 16 * col + bandBytes rows + rows * (k / 8)

/-- The conditions of R267 and R272 on the captured shapes. -/
def productShapesOk (k : MatKind) (f : Fields) (w : Word) (d a b : Tile) : Bool :=
  let n := d.bpr / 4
  let kk := logicalK k f a.bpr
  decide (0 < d.rows) && decide (0 < a.rows) && decide (0 < b.rows) && f.d != f.a && f.d != f.b
  && (d.rows == 64 || d.rows == 128) && d.bpr % 4 == 0 && n % 16 == 0 && decide (16 ≤ n) && decide (n ≤ 64)
  && a.rows == d.rows && b.rows == n
  && (if matIl k f then a.bpr == b.bpr && a.bpr % 64 == 0 && decide (64 ≤ a.bpr) && decide (a.bpr ≤ 256)
      else if k == .mmas then elemsIn f.ty a.bpr % 32 == 0 && b.bpr == 2 * a.bpr
      else a.bpr == b.bpr && kk % 32 == 0)
  && (!usesScales k f
      || (decide (scaleEnd (fld w 16 8) d.rows kk ≤ 4096) && decide (scaleEnd (fld w 24 8) n kk ≤ 4096)))

/-- The conditions on the shapes of the other commands (R276 to R278). -/
def moveShapesOk (k : MatKind) (f : Fields) (off scratch : Nat) (d a : Tile) : Bool :=
  match k with
  | .tld | .tst => decide (0 < d.rows) && off % 16 == 0 && decide (off + d.rows * d.bpr ≤ scratch)
  | .tcvt =>
    decide (0 < d.rows) && decide (0 < a.rows) && f.d != f.a && d.rows == a.rows
    && a.bpr * 8 % f.srcTy.bits == 0 && elemsIn f.srcTy a.bpr == elemsIn f.ty d.bpr
  | _ => true

/-! ## The index words of MMAS (R271) -/

/-- Number of index words. -/
def indexCount (f : Fields) (d a : Tile) : Nat := d.rows * elemsIn f.ty a.bpr / 16


/-- SEL of MMAS. -/
def selOf (f : Fields) : Nat := f.m.toNat % 16

/-- An index word, as its issuer supplies it. -/
def Ctx.indexWord (c : Ctx) (f : Fields) (w : Word) (q : Nat) : BitVec 32 :=
  if c.dist then (sread c.sk.scratch (fld w 40 20 + 4 * q) 4).setWidth 32
  else
    let t := c.w - 8 * selOf f
    c.ply.rdV (fld w 32 8 + q / t) (8 * selOf f + q % t)

/-- Every pair of a word is ascending. -/
def pairsOk (x : BitVec 32) : Bool :=
  (List.range 8).all fun g => decide (x.toNat / 2 ^ (4 * g) % 4 < x.toNat / 2 ^ (4 * g + 2) % 4)

/-- The conditions on where the index words lie. -/
def Ctx.indexOk (c : Ctx) (f : Fields) (w : Word) (n : Nat) : Bool :=
  if c.dist then selOf f == 0 && decide (fld w 40 20 + 4 * n ≤ c.la.hdr.scratch)
  else
    let t := c.w - 8 * selOf f
    decide (selOf f < c.w / 8) && (List.range n).all fun q =>
      decide (fld w 32 8 + q / t < c.la.hdr.vregs) && c.strands.contains ((8 * selOf f + q % t) / 8)

/-- The lowest thread that supplies a word with a pair that is not ascending. -/
def Ctx.badIndex (c : Ctx) (f : Fields) (ws : List (BitVec 32)) : Option (Option Nat) :=
  let bad := (List.range ws.length).filter fun q => !pairsOk (nth ws q 0)
  if bad.isEmpty then none
  else if c.dist then some none
  else some ((bad.map fun q => 8 * selOf f + q % (c.w - 8 * selOf f)).min?)

/-! ## Steps (R269, R276 to R278) -/

/-- Steps for one unit of K, and logical K blocks in a unit. -/
def stepUnit (k : MatKind) (ty : Ty) : Nat × Nat :=
  match k, ty with
  | .mma, .bf16 | .mma, .f16 => (4, 1)
  | .mma, _ => (2, 1)
  | .mmas, .bf16 | .mmas, .f16 => (2, 1)
  | .mmas, .e2m1 => (1, 2)
  | _, _ => (1, 1)

/-- Steps of a command in all. -/
def matSteps (k : MatKind) (f : Fields) (d a : Tile) : Nat :=
  match k with
  | .tzero => 256
  | .tld | .tst | .tcvt => (d.rows * d.bpr + 63) / 64
  | _ =>
    let u := stepUnit k f.ty
    d.rows / 64 * (d.bpr / 4 / 16) * (logicalK k f a.bpr / 32 / u.2) * u.1

/-- The V registers that hold the index words of MMAS in ply code. -/
def Ctx.indexKeys (c : Ctx) (f : Fields) (w : Word) (n : Nat) : List Nat :=
  if c.dist then []
  else
    let t := c.w - 8 * selOf f
    (List.range ((n + t - 1) / t)).map fun q => 2 * (fld w 32 8 + q)

/-- A matrix command: the capture and the checks of R261, the waits (R93, R117), and its entry into MQ. -/
def matIssue (i : Instr) (k : MatKind) (s : State) : Outcome State Fault Refusal :=
  guarded i s fun f c s =>
    if !c.makes then .done (c.finish0 f s)
    else
      let w := c.rd1 f.c
      let d := c.tile f.d
      let a := c.tile f.a
      let b := c.tile f.b
      let off := (c.rd1 f.a).toNat
      if !c.opWordOk k f w then matrixArg none
      else if !(if k.product then productShapesOk k f w d a b else moveShapesOk k f off c.la.hdr.scratch d a) then matrixArg none
      else
        let n := if k == .mmas then indexCount f d a else 0
        if k == .mmas && !c.indexOk f w n then matrixArg none
        else if c.waits (c.indexKeys f w n) then .await s
        else
          let idx := (List.range n).map (c.indexWord f w)
          match c.badIndex f idx with
          | some e => matrixArg e
          | none =>
            if (s.spindle c.sp).mqFull || (matEv k f && c.sk.evFull) then .stall (c.setWait .ready .credit s)
            else
              let (id, s) := s.fresh
              let cmd : MatCmd :=
                { id, uid := c.sk.uid, who := c.who, strands := c.strandSet, issued := s.tick, kind := k, f, opw := w, off,
                  rowsD := d.rows, bprD := d.bpr, rowsA := a.rows, bprA := a.bpr, rowsB := b.rows, bprB := b.bpr, idx,
                  steps := matSteps k f d a }
              let s := s.modSpindle c.sp fun x => { x with mq := x.mq ++ [cmd] }
              let s := if matEv k f then s.modSkein c.sp c.slot fun y => { y with evHeld := y.evHeld + 1 } else s
              .done (c.finish0 f s)

def execTld (f : Fields) (s : State) : Outcome State Fault Refusal := matIssue (.tld f) .tld s
def execTst (f : Fields) (s : State) : Outcome State Fault Refusal := matIssue (.tst f) .tst s
def execTzero (f : Fields) (s : State) : Outcome State Fault Refusal := matIssue (.tzero f) .tzero s
def execMma (f : Fields) (s : State) : Outcome State Fault Refusal := matIssue (.mma f) .mma s
def execMmas (f : Fields) (s : State) : Outcome State Fault Refusal := matIssue (.mmas f) .mmas s
def execMmax (f : Fields) (s : State) : Outcome State Fault Refusal := matIssue (.mmax f) .mmax s
def execTcvt (f : Fields) (s : State) : Outcome State Fault Refusal := matIssue (.tcvt f) .tcvt s

/-- A command of the skein that names a tile has not completed; a static entry that has been released is one. -/
def Spindle.tileBusy (x : Spindle) (l : Launch) (y : Skein) (t : Nat) : Bool :=
  x.cq.any (fun q => q.any fun k => k.uid == y.uid && k.onTile && k.loc == t)
  || (y.statWait.any fun e => let k := staticCmd e.2.1 y e.1 (nth l.lrec.copies e.1 (0, 0)); k.onTile && k.loc == t)
  || x.mq.any fun k => k.uid == y.uid && (matTiles k.kind k.f).contains t

/-- TCFG (R260). -/
def execTcfg (f : Fields) (s : State) : Outcome State Fault Refusal :=
  guarded (.tcfg f) s fun f c s =>
    let r := (c.rd1 f.a).toNat
    let b := (c.rd1 f.b).toNat
    if r == 0 || decide (128 < r) || b % 16 != 0 || decide (b < 16) || decide (256 < b) || decide (16384 < r * b) then matrixArg none
    else if (s.spindle c.sp).tileBusy c.la c.sk f.d.toNat then .stall s
    else .done (c.finish0 f (s.modTile c.sp c.slot f.d.toNat fun t => { t with rows := r, bpr := b }))

/-- SRFENCE (R279). -/
def execSrfence (f : Fields) (s : State) : Outcome State Fault Refusal :=
  guarded (.srfence f) s fun f c s =>
    if c.accessPending s then .stall s else .done (c.finish0 f (s.modSpindle c.sp fun x => { x with recs := [] }))

/-! ## Products (R142 to R146, R268) -/

/-- One level of the summation tree: neighbours are added exactly, then a node rounds them. -/
def levelGo (node : Nat → FVal → FVal) : Nat → List FVal → List FVal
  | j, x :: y :: l => node j (x.add .rne y).1 :: levelGo node (j + 1) l
  | _, l => l

/-- The five levels over 32 products; level 3 has a node of its own. -/
def blockTree (node : FVal → FVal) (node3 : Nat → FVal → FVal) (ps : List FVal) : FVal :=
  let l2 := levelGo (fun _ => node) 0 (levelGo (fun _ => node) 0 ps)
  let l5 := levelGo (fun _ => node) 0 (levelGo (fun _ => node) 0 (levelGo node3 0 l2))
  l5.headD (.zero false)

/-- What a step needs of a command's surroundings. -/
structure MatEnv where
  k : MatCmd
  a : Tile
  b : Tile
  /-- bytes of the skein's scale memory -/
  scale : Nat → Byte
  ftz : Bool

/-- A code of a tile row: by element, or in the interleaved layout (R148, R273). -/
def tileCode (t : Tile) (bpr r : Nat) (ty : Ty) (il : Bool) (e : Nat) : Word :=
  if il then
    let b := r * bpr + 64 * (e / 96) + e % 96 / 2
    ofN (nib (sget t.bytes b) (e % 96))
  else if ty == .e2m1 then ofN (nib (sget t.bytes (r * bpr + e / 2)) e)
  else sread t.bytes (r * bpr + e * (ty.bits / 8)) (ty.bits / 8)

/-- A block scale (R272, R273): of A or B, a row, and a block of eight logical elements. -/
def MatEnv.block (v : MatEnv) (isA : Bool) (r j : Nat) : FVal :=
  let t := if isA then v.a else v.b
  let bpr := if isA then v.k.bprA else v.k.bprB
  let rows := if isA then v.k.rowsA else v.k.rowsB
  let kk := logicalK v.k.kind v.k.f v.k.bprA
  let code := if matIl v.k.kind v.k.f then sget t.bytes (r * bpr + 64 * (j / 12) + 48 + j % 12)
    else v.scale (16 * fld v.k.opw (if isA then 16 else 24) 8 + bandBytes rows + r * (kk / 8) + j)
  Ty.unpack .e3m5 v.ftz (code.setWidth 64)

/-- The band scale used for a row's elements of a block. -/
def MatEnv.band (v : MatEnv) (isA : Bool) (r j : Nat) : FVal :=
  let t := if isA then v.a else v.b
  let bpr := if isA then v.k.bprA else v.k.bprB
  let lo := if matIl v.k.kind v.k.f then r * bpr + 64 * (j / 12) + 60 else 16 * fld v.k.opw (if isA then 16 else 24) 8 + 2 * (r / 64)
  let byte := fun i => if matIl v.k.kind v.k.f then sget t.bytes i else v.scale i
  Ty.unpack .bf16 v.ftz (((byte (lo + 1) ++ byte lo : BitVec 16)).setWidth 64)

/-- The stored element of A at a logical position (R271): its number in the row, none at a pruned position. -/
def MatEnv.stored (v : MatEnv) (i pos : Nat) : Option Nat :=
  if v.k.kind != .mmas then some pos
  else
    let ks := elemsIn v.k.f.ty v.k.bprA
    let ix := fun st => let n := i * ks + st; (nth v.k.idx (n / 16) 0).toNat / 2 ^ (2 * (n % 16)) % 4
    [2 * (pos / 4), 2 * (pos / 4) + 1].find? fun st => ix st == pos % 4

/-- SCM of R266. -/
def scm (f : Fields) : Nat := f.src

/-- An element as it enters a product: widened by its scales in `.ws` mode (R145). -/
def MatEnv.elem (v : MatEnv) (isA : Bool) (r e pos : Nat) : FVal :=
  let t := if isA then v.a else v.b
  let bpr := if isA then v.k.bprA else v.k.bprB
  let x := Ty.unpack v.k.f.ty v.ftz (tileCode t bpr r v.k.f.ty (matIl v.k.kind v.k.f) e)
  if v.k.f.ty == .e2m1 && scm v.k.f == 2 then rneW24 (((x.mul (v.block isA r (pos / 8))).1.mul (v.band isA r (pos / 8))).1) else x

/-- The sum of logical block q of an output element (R142, R144, R145). -/
def MatEnv.blockSum (v : MatEnv) (i j q : Nat) : FVal :=
  let ps := (List.range 32).map fun n =>
    let pos := 32 * q + n
    match v.stored i pos with
    | none => FVal.zero false
    | some st => ((v.elem true i st pos).mul (v.elem false j pos pos)).1
  let plain := fun (_ : Nat) x => rneF32 x
  if v.k.f.ty != .e2m1 then blockTree rneF32 plain ps
  else if scm v.k.f == 2 then blockTree rneW24 (fun _ => rneW24) ps
  else
    blockTree rneF32 (fun n x =>
      let g := 4 * q + n
      let s := (((v.block true i g).mul (v.block false j g)).1.mul ((v.band true i g).mul (v.band false j g)).1).1
      rneF32 ((x.mul s).1)) ps

/-- The accumulator after the blocks of a unit, one rounding each (R143). -/
def MatEnv.accumulate (v : MatEnv) (i j : Nat) (blocks : List Nat) (old : Word) : Word :=
  blocks.foldl (fun acc q => (Ty.round .f32 .rne false v.ftz ((Ty.unpack .f32 v.ftz acc).add .rne (v.blockSum i j q)).1).1) old

/-- A band scale used for a row's elements of the blocks is NaN or infinite (R146). -/
def MatEnv.badBand (v : MatEnv) (isA : Bool) (r : Nat) (blocks : List Nat) : Bool :=
  v.k.f.ty == .e2m1 && blocks.any fun q => (List.range 4).any fun n =>
    match v.band isA r (4 * q + n) with
    | .fin _ => false
    | _ => true

/-- Where a product step is: its band, column group, and the blocks of its unit of K. -/
def unitOf (k : MatCmd) : Nat × Nat × List Nat :=
  let u := stepUnit k.kind k.f.ty
  let units := logicalK k.kind k.f k.bprA / 32 / u.2
  let n := k.done / u.1
  let q := n % units
  let g := n / units % (k.bprD / 4 / 16)
  let b := n / units / (k.bprD / 4 / 16)
  (b, g, (List.range u.2).map fun x => u.2 * q + x)

/-- What a product step does: its band, column group, and, when it is the last of its unit of K, the blocks it adds. -/
def stepOf (k : MatCmd) : Nat × Nat × List Nat :=
  let u := stepUnit k.kind k.f.ty
  let x := unitOf k
  (x.1, x.2.1, if k.done % u.1 + 1 = u.1 then x.2.2 else [])

/-- The status bit NAN. -/
def bitNan : Word := 1 <<< 44
/-- The status bit SCALE. -/
def bitScale : Word := 1 <<< 45

/-- A 32-bit value in a byte store. -/
def put4 (m : Sparse 8) (a : Nat) (v : Word) : Sparse 8 := swrite m a 4 v

/-! ### Errors of the tile file (R275) -/

/-- An error after which what is computed from the word is undefined. -/
def tileErrSpoils (e : TileErr) : Bool := e.kind != .corrected

/-- A logical block of K is computed from the word at an offset of a row of A or B: its codes, and in the interleaved layout its scales (R271, R273). -/
def MatCmd.uses (k : MatCmd) (isA : Bool) (q o : Nat) : Bool :=
  if matIl k.kind k.f then
    o / 64 == q / 3 && (if o % 64 < 48 then o % 64 / 16 == q % 3 else o % 64 / 8 == 7 || decide (q % 3 < 2))
  else
    let n := (if k.kind == .mmas && isA then 2 else 4) * k.f.ty.bits
    decide (o < n * q + n) && decide (n * q < o + 8)

/-- The sum of some blocks at an element of D is computed from the word. -/
def MatCmd.feeds (k : MatCmd) (i j : Nat) (blocks : List Nat) (e : TileErr) : Bool :=
  match e.part with
  | .a => 8 * e.word / k.bprA == i && blocks.any fun q => k.uses true q (8 * e.word % k.bprA)
  | .b => 8 * e.word / k.bprB == j && blocks.any fun q => k.uses false q (8 * e.word % k.bprB)
  | .d => e.word == (i * k.bprD + 4 * j) / 8

/-- Bytes of A that a step of a conversion takes, and the start of the 64-byte piece they begin in. -/
def MatCmd.srcStep (k : MatCmd) : Nat := 64 * k.f.srcTy.bits / k.f.ty.bits
def MatCmd.pieceStart (k : MatCmd) : Nat := k.srcStep * k.done / 64 * 64

/-- The next step of a command reads the word. -/
def MatCmd.reads (k : MatCmd) (e : TileErr) : Bool :=
  match k.kind, e.part with
  | .tst, .d => e.word / 8 == k.done
  | .tcvt, .a => let n := k.srcStep; decide (n * k.done < 8 * e.word + 8) && decide (8 * e.word < n * k.done + n)
  | .tst, _ | .tcvt, _ | .tld, _ | .tzero, _ => false
  | _, .d => let x := unitOf k; 8 * e.word / k.bprD / 64 == x.1 && 8 * e.word % k.bprD / 64 == x.2.1
  | _, .a => let x := unitOf k; 8 * e.word / k.bprA / 64 == x.1 && x.2.2.any fun q => k.uses true q (8 * e.word % k.bprA)
  | _, .b => let x := unitOf k; 8 * e.word / k.bprB / 16 == x.2.1 && x.2.2.any fun q => k.uses false q (8 * e.word % k.bprB)

/-- A value that an uncorrected or parity error leaves undefined (R275; DESIGN CHOICE, log 26). -/
def freeIf (bad : Bool) (tick use : Nat) (v : Word) : Word := if bad then Config.freeWord tick use else v

/-- A band scale of a step lies in a word with an error: whether it is NaN or infinite is free too. -/
def MatCmd.bandSpoilt (k : MatCmd) (bad : List TileErr) : Bool :=
  matIl k.kind k.f && bad.any fun e =>
    e.part != .d && 8 * e.word % (if e.part == .a then k.bprA else k.bprB) % 64 / 8 == 7

/-- One step of a product: the accumulator tile after it, and the status bits it sets. What it computes from a tile, the accumulator too, that a copy is
filling is undefined, hence free (R263, R281); where the copy ran between two steps only, each step computes from the pieces it finds (DESIGN CHOICE,
log 98). -/
def MatEnv.productStep (v : MatEnv) (bad : List TileErr) (filling : Bool) (tick : Nat) (d : Tile) : Tile × Word :=
  let (b, g, blocks) := stepOf v.k
  if blocks.isEmpty then (d, 0)
  else
    let cells := (List.range 64).flatMap fun i => (List.range 16).map fun j => (64 * b + i, 16 * g + j)
    let r := cells.foldl (fun (acc : Sparse 8 × Word) ij =>
      let at_ := ij.1 * v.k.bprD + 4 * ij.2
      let x := freeIf (filling || bad.any (v.k.feeds ij.1 ij.2 blocks)) tick (8 * at_ + 6) (v.accumulate ij.1 ij.2 blocks (sread acc.1 at_ 4))
      let nan := if (Ty.unpack .f32 false x).isNan then bitNan else 0
      (put4 acc.1 at_ x, acc.2 ||| nan)) (d.bytes, 0)
    let sc := (List.range 64).any (fun i => v.badBand true (64 * b + i) blocks)
      || (List.range 16).any fun j => v.badBand false (16 * g + j) blocks
    let sc := if v.k.bandSpoilt bad || (filling && matIl v.k.kind v.k.f) then Config.freeBool tick 7 else sc
    ({ d with bytes := r.1 }, r.2 ||| (if sc then bitScale else 0))

/-- A step of a widening conversion goes on with a piece of A that an earlier one has read. -/
def MatCmd.midPiece (k : MatCmd) : Bool := decide (k.srcStep < 64) && k.srcStep * k.done % 64 != 0

/-- A as a conversion sees it: a 64-byte piece it is in the middle of is as when its first step read it, entirely old or entirely new (R247, R263). -/
def MatCmd.seen (k : MatCmd) (a : Tile) : Tile := if k.midPiece then { a with bytes := sputBytes a.bytes k.pieceStart k.piece } else a

/-- The piece that a step of a conversion leaves for the next one. -/
def MatCmd.pieceOf (k : MatCmd) (a : Tile) : List Byte :=
  if k.kind == .tcvt && decide (k.srcStep < 64) then sbytes (k.seen a).bytes k.pieceStart 64 else []

/-- One step of a conversion: 64 bytes of D (R278). -/
def convertStep (k : MatCmd) (a d : Tile) (ftz : Bool) (bad : List TileErr) (tick : Nat) : Tile × Word :=
  let sz := k.f.ty.bits / 8
  let ssz := k.f.srcTy.bits / 8
  let total := k.rowsD * k.bprD
  let first := 64 * k.done / sz
  let r := (List.range ((min 64 (total - 64 * k.done)) / sz)).foldl (fun (acc : Sparse 8 × Word) n =>
    let e := first + n
    let x := (convert k.f.ty k.f.srcTy (RMode.ofCode k.f.low2) (k.f.m.getLsbD 2) ftz (sread a.bytes (e * ssz) ssz)).1
    let x := freeIf (bad.any fun y => y.part == .a && y.word == e * ssz / 8) tick (8 * e + 6) x
    (swrite acc.1 (e * sz) sz x, acc.2 ||| (if (Ty.unpack k.f.ty false x).isNan then bitNan else 0))) (d.bytes, 0)
  ({ d with bytes := r.1 }, r.2)

/-! ## Events -/

/-- The head of MQ with its skein's slot. -/
def State.matHead (s : State) (sp : Nat) : Option (MatCmd × Nat × Skein) :=
  match (s.spindle sp).mq.head? with
  | none => none
  | some k => (s.spindle sp).residents.findSome? fun p => if p.2.uid == k.uid && !s.heldsBack sp p.2 then some (k, p.1, p.2) else none

/-- Changes the head command of MQ. -/
def State.modMat (s : State) (sp : Nat) (g : MatCmd → MatCmd) : State := s.modSpindle sp fun x => { x with mq := modNth x.mq 0 g }

/-- A compute-die spindle that is present: the only kind with a matrix engine or crossbars (R98). -/
def State.computeSpindle (s : State) (sp : Nat) : Bool := !isBase sp && s.spindlePresent sp

/-- The next command of MQ starts, the one before it having completed (R262) and its issuer's earlier accesses having been performed (R261). A TST, which
names its tile but does not fill it, opens no epoch of it (R366; DESIGN CHOICE, log 102). -/
def execMatrixCmdStart (sp : Nat) (s : State) : Outcome State Fault Refusal :=
  if !s.computeSpindle sp then .fault .noSuchUnit
  else
    match s.matHead sp with
    | none => .next s
    | some (k, slot, sk) =>
      if k.started || sk.pre != .no || !s.accessesDone sk k.who k.strands k.issued then .next s
      else
        let s := s.modMat sp fun k => { k with started := true }
        .next (match k.kind with
          | .tst => s
          | .tld | .tzero => s.stampStart sp slot k.f.d.toNat false
          | _ => (matTiles k.kind k.f).foldl (fun s t => s.stampStart sp slot t true) s)

/-- The status bit of an error of the tile file (R274, R275). -/
def tileErrBit (e : TileErr) : Word :=
  match e.kind with
  | .corrected => 1 <<< 41
  | .uncorrected => 1 <<< 42
  | .parity => 1 <<< 39

/-- A product step that does not yet add its K block: an error it met counts when the block is added. -/
def MatCmd.midBlock (k : MatCmd) : Bool := k.kind.product && (stepOf k).2.2.isEmpty

/-- A copy that has started and not completed fills the tile of a skein. -/
def State.filling (s : State) (sp uid tile : Nat) : Bool :=
  (s.spindle sp).cq.any fun q => q.any fun k => k.uid == uid && k.started && k.fillsTile && k.loc == tile

/-- One step on the skein, with the errors that spoil what is computed from their words: its tiles and scratchpad after it, and the status bits. -/
def matStep (s : State) (sp slot : Nat) (k : MatCmd) (sk : Skein) (bad : List TileErr) : Skein × Word :=
  let la := s.launch sk.launch
  let t := k.f.d.toNat
  let d := nth sk.tiles t {}
  let a := nth sk.tiles k.f.a.toNat {}
  let setD := fun (x : Tile) => { sk with tiles := modNth sk.tiles t fun _ => x }
  let o := 64 * k.done
  let n := min 64 (k.rowsD * k.bprD - o)
  match k.kind with
  | .tzero => (setD { d with bytes := sputBytes d.bytes o (List.replicate 64 0) }, 0)
  | .tld => (setD { d with bytes := sputBytes d.bytes o (sbytes sk.scratch (k.off + o) n) }, 0)
  | .tst =>
    let l := (List.range n).map fun i =>
      if bad.any fun e => e.part == .d && e.word == (o + i) / 8 then (Config.freeWord s.tick (8 * (o + i) + 6)).setWidth 8
      else sget d.bytes (o + i)
    ({ sk with scratch := sputBytes sk.scratch (k.off + o) l }, 0)
  | .tcvt => let r := convertStep k (k.seen a) d la.ftz bad s.tick; (setD r.1, r.2)
  | _ =>
    let x := s.spindle sp
    let v : MatEnv := { k, a, b := nth sk.tiles k.f.b.toNat {}, scale := fun i => sget x.scale (4096 * slot + i), ftz := la.ftz }
    let r := v.productStep bad ([k.f.a, k.f.b, k.f.d].any fun t => s.filling sp k.uid t.toNat) s.tick d
    (setD r.1, r.2)

/-- A started command stands at an interrupt mark (R280). -/
def MatCmd.atMark (k : MatCmd) : Bool := k.done != 0 && k.done % 64 == 0

/-- One step of the running command, with the errors it meets in the words it reads (R275); of a skein that is being pre-empted only up to the next
mark (R280). -/
def execMatrixStep (sp : Nat) (errs : List TileErr) (s : State) : Outcome State Fault Refusal :=
  if !s.computeSpindle sp then .fault .noSuchUnit
  else
    match s.matHead sp with
    | none => .next s
    | some (k, slot, sk) =>
      if !k.started || k.steps ≤ k.done || (sk.pre != .no && k.atMark) then .next s
      else
        let met := errs.filter k.reads
        let bad := (k.bad ++ met).filter tileErrSpoils
        let r := matStep s sp slot k sk bad
        let s := s.setSkein sp slot (some r.1)
        let s := s.modMat sp fun y =>
          { y with done := y.done + 1, bits := met.foldl (fun b e => b ||| tileErrBit e) (y.bits ||| r.2), bad := if k.midBlock then bad else []
                   piece := k.pieceOf (nth sk.tiles k.f.a.toNat {}) }
        .next (s.modSpindle sp fun x => x.count 7 1)

/-- The status word (R274). -/
def matStatus (k : MatCmd) : Word :=
  let count := match k.kind with | .tld | .tst => k.rowsD * k.bprD | .tzero => 16384 | _ => k.steps
  BitVec.ofNat 64 (2 ^ 63 + (if k.resumed then 2 ^ 40 else 0) + k.kind.code * 2 ^ 32 + count) ||| k.bits

/-- The command whose last step has been performed completes, in the order of R263. -/
def execMatrixCmdComplete (sp : Nat) (s : State) : Outcome State Fault Refusal :=
  if !s.computeSpindle sp then .fault .noSuchUnit
  else
    match s.matHead sp with
    | none => .next s
    | some (k, slot, sk) =>
      if !k.started || k.done < k.steps then .next s
      else
        let w := matStatus k
        let bar := fld k.opw 0 16
        let report := fun (y : Skein) =>
          let y := y.complete bar w
          let y := if (w.getLsbD 42 || w.getLsbD 39) && s.trapUe (s.launch sk.launch) then y.uncorrected (some k.who) k.strands w else y
          if matEv k.kind k.f then y.post (evRecord 1 0 0xFF bar 0 (w.toNat % 2 ^ 32)) else y
        let s := if sk.life == .ended then s else s.modSkein sp slot report
        let s := s.modSpindle sp fun x => { x with mq := x.mq.drop 1 }
        .next (match k.kind with
          | .tld | .tzero => s.stampFilled sp slot k.f.d.toNat
          | .tst => s.stampClose sp slot k.f.d.toNat 0
          | _ => (matTiles k.kind k.f).foldl (fun s t => s.stampMatrixDone sp slot t) s)

end Sys2Proof.Machine
end

