-- ==== Sys2Proof/Machine/Crossbar.lean ====
section
/-! DEFINITION. The crossbar logic unit (R282 to R311): windows, scratch lines and their rotation, gate steps, fills, schedules,
reads and writes, and the events that start, step and complete a command. -/

namespace Sys2Proof.Machine

open Host (Outcome)

/-! ## Windows and line codes (R285, R287) -/

def winA0 (w : Word) : Nat := fld w 0 10
def winNA (w : Word) : Nat := fld w 10 11
def winL0 (w : Word) : Nat := fld w 32 10
def winNL (w : Word) : Nat := fld w 42 11
def winBase (w : Word) : Nat := fld w 54 10

/-- A legal window word. -/
def winOk (xarrays : Nat) (w : Word) : Bool :=
  fld w 21 11 == 0 && fld w 53 1 == 0 && decide (1 ≤ winNA w) && decide (winA0 w + winNA w ≤ xarrays)
  && decide (1 ≤ winNL w) && decide (winL0 w + winNL w ≤ 896)

/-- A line code that this window makes legal: a scratch line, or a data line that is a storage line. -/
def codeOk (w : Word) (code : Nat) : Bool := decide (code < 0x40) || decide (winBase w + (code - 0x40) ≤ 895)

/-- The window covers a logical array. -/
def winHas (w : Word) (a : Nat) : Bool := decide (winA0 w ≤ a) && decide (a < winA0 w + winNA w)

/-! ## Cells and lifetime counters (R282, R292) -/

/-- The key of a cell of a physical array: a line of an axis and a position along it. -/
def cellKey (arr : Nat) (ca : Bool) (line pos : Nat) : Nat :=
  if ca then (arr * 1024 + line) * 1024 + pos else (arr * 1024 + pos) * 1024 + line

def Spindle.cell (x : Spindle) (arr : Nat) (ca : Bool) (line pos : Nat) : Bool := (sget x.cells (cellKey arr ca line pos)).getLsbD 0

def Spindle.setCell (x : Spindle) (arr : Nat) (ca : Bool) (line pos : Nat) (b : Bool) : Spindle :=
  { x with cells := sset x.cells (cellKey arr ca line pos) (if b then 1 else 0) }

/-- The key of the counter of a logic line. -/
def lifeKey (arr : Nat) (ca : Bool) (line : Nat) : Nat := (arr * 2 + (if ca then 1 else 0)) * 128 + (line - 896)

/-- The 64 cells of a word of a line (R303). -/
def Spindle.xword (x : Spindle) (arr : Nat) (ca : Bool) (line w : Nat) : Word :=
  BitVec.ofNat 64 ((List.range 64).foldl (fun n i => if x.cell arr ca line (64 * w + i) then n + 2 ^ i else n) 0)

/-! ## Rotation maps (R289 to R291) -/

def Skein.axis (k : Skein) (ca : Bool) : AxisMap := if ca then k.colMap else k.rowMap
def Skein.setAxis (k : Skein) (ca : Bool) (m : AxisMap) : Skein := if ca then { k with colMap := m } else { k with rowMap := m }

/-- The maps at skein start. -/
def startMap : AxisMap := { map := (List.range 64).map (896 + ·), pool := (List.range 64).map (960 + ·), cnt := [], tags := [] }

/-- The physical line of a line code. -/
def AxisMap.line (m : AxisMap) (w : Word) (code : Nat) : Nat := if code < 0x40 then nth m.map code 0 else winBase w + (code - 0x40)

/-- The invocation count and the tag of a physical logic line. -/
def AxisMap.count (m : AxisMap) (p : Nat) : Nat := agetD m.cnt (p - 896) 0
def AxisMap.tag (m : AxisMap) (p : Nat) : Tag := agetD m.tags (p - 896) .none
def AxisMap.addCount (m : AxisMap) (p w : Nat) : AxisMap := { m with cnt := aput m.cnt (p - 896) (m.count p + w) }
def AxisMap.setTag (m : AxisMap) (p : Nat) (t : Tag) : AxisMap := { m with tags := aput m.tags (p - 896) t }

/-- Looks through the pool for a line that w more writes keep within the ration: that line, and the pool without it. -/
def poolGo (ration w : Nat) (m : AxisMap) : Nat → List Nat → Option (Nat × List Nat)
  | 0, _ => none
  | _, [] => none
  | k + 1, q :: l => if m.count q + w ≤ ration then some (q, l) else poolGo ration w m k (l ++ [q])

/-- The output line of a step before it writes (R290): the map, the line, and whether it was rotated; none when the pool has no
line under the ration. -/
def AxisMap.rotate (m : AxisMap) (ration sl w : Nat) : Option (AxisMap × Nat × Bool) :=
  let p := nth m.map sl 0
  if m.count p + w ≤ ration then some (m, p, false)
  else (poolGo ration w m m.pool.length m.pool).map fun r =>
    ({ m with map := modNth m.map sl fun _ => r.1, pool := r.2 ++ [p] }, r.1, true)

/-- Every invocation count of the skein is reset. -/
def Skein.resetCounts (k : Skein) : Skein := { k with rowMap := { k.rowMap with cnt := [] }, colMap := { k.colMap with cnt := [] } }

/-! ## Issue (R293) -/

/-- XBAR_ARG. -/
def xbarArg (elem : Option Nat) : Eff := .trap { kind := .xbarArg, elem }

/-- The operation word names a barrier object of the skein, and nothing else (R265, R295). -/
def Ctx.xbarOpOk (c : Ctx) (w : Word) : Bool :=
  w.toNat / 65536 == 0 && fld w 0 16 % 32 == 0 && decide (fld w 0 16 < 32 * c.la.hdr.barCount)

/-- A held access is one of an issuer's own: of the distaff, or of a path that had one of its strands. -/
def XHeld.ownOf (h : XHeld) (uid : Nat) (who : Party) (strands : BitVec 16) : Bool :=
  h.uid == uid && sameIssuer h.who who && (match who with | .path .. => h.strands &&& strands != 0 | _ => true)

/-- The XWR of an issuer that have not been performed. -/
def Spindle.xwrOf (x : Spindle) (uid : Nat) (who : Party) (strands : BitVec 16) : List Nat :=
  (x.xheld.filter fun h => h.write && h.ownOf uid who strands).map fun h => h.id

/-- A command of a party before its operands are filled in. -/
def Ctx.xcmd (c : Ctx) (s : State) (id : Nat) (kind : XKind) (f : Fields) : XqCmd :=
  { id, uid := c.sk.uid, who := c.who, strands := c.strandSet, issued := s.tick, kind, f, form := 0, win := c.sk.win,
    after := (s.spindle c.sp).xwrOf c.sk.uid c.who c.strandSet }

/-- A command enters XQ once there is a place and, with EV, an entry for its record (R117); the instruction ends with the writes that its value will
fill. -/
def Ctx.xenter (c : Ctx) (ev : Bool) (g : Nat → XqCmd) (f : Fields) (ws : Nat → List RegWrite) (s : State) : Eff :=
  if (s.spindle c.sp).xqFull || (ev && c.sk.evFull) then .stall (c.setWait .ready .credit s)
  else
    let (id, s) := s.fresh
    let s := s.modSpindle c.sp fun x => { x with xq := x.xq ++ [g id] }
    let s := if ev then s.modSkein c.sp c.slot fun y => { y with evHeld := y.evHeld + 1 } else s
    .done (c.finish f id ws (fun _ => 0) s)

/-- A gate or preset step on its own (R300, R301). -/
def stepIssue (i : Instr) (form : Nat) (s : State) : Outcome State Fault Refusal :=
  guarded i s fun f c s =>
    let codes := if form = 2 then [] else [f.a.toNat, f.b.toNat, f.c.toNat].take (gateInputs f.gate)
    if !c.makes then .done (c.finish0 f s)
    else if c.sk.win == 0 || !codes.all (codeOk c.sk.win) then xbarArg none
    else c.xenter false (fun id => { c.xcmd s id .step f with form := form }) f (fun _ => []) s

def execXg (f : Fields) (s : State) : Outcome State Fault Refusal := stepIssue (.xg f) 0 s
def execXgP (f : Fields) (s : State) : Outcome State Fault Refusal := stepIssue (.xgP f) 1 s
def execXinit (f : Fields) (s : State) : Outcome State Fault Refusal := stepIssue (.xinit f) 2 s

/-- The pattern of XFILL as 32-bit words, the word of position p being number p / 32, over again (R305); none when a supplying
thread is not of the path. -/
def Ctx.pattern (c : Ctx) (f : Fields) : Option (List Word) :=
  if c.dist || f.src = 1 then
    let v := c.rd1 f.b
    some [v &&& 0xFFFFFFFF, v >>> 32]
  else
    let ts := List.range (min ((winNL c.sk.win + 31) / 32) c.w)
    if ts.all fun t => c.strands.contains (t / 8) then some (ts.map fun t => (c.ply.rdV f.b.toNat t).setWidth 64) else none

def execXfill (f : Fields) (s : State) : Outcome State Fault Refusal :=
  guarded (.xfill f) s fun f c s =>
    let w := c.rd1 f.c
    if !c.makes then .done (c.finish0 f s)
    else if c.sk.win == 0 || !codeOk c.sk.win f.d.toNat || !c.xbarOpOk w then xbarArg none
    else
      match c.pattern f with
      | none => xbarArg none
      | some l => c.xenter (f.m.getLsbD 5) (fun id => { c.xcmd s id .fill f with opw := w, data := l }) f (fun _ => []) s

def execXwin (f : Fields) (s : State) : Outcome State Fault Refusal :=
  guarded (.xwin f) s fun f c s =>
    let w := c.rd1 f.a
    if !c.makes then .done (c.finish0 f s)
    else if !winOk c.la.hdr.xarrays w then xbarArg none
    else .done (c.finish0 f (s.modSkein c.sp c.slot fun k => { k with win := w }))

def execXration (f : Fields) (s : State) : Outcome State Fault Refusal :=
  guarded (.xration f) s fun f c s =>
    let a := c.rd1 f.a
    if !c.makes then .done (c.finish0 f s)
    else if decide (a.toNat < 2) || decide (65535 < a.toNat) then xbarArg none
    else c.xenter false (fun id => { c.xcmd s id .ration f with a := a }) f (fun _ => []) s

/-- The line codes a step word reads. -/
def stepCodes (w : Word) : List Nat :=
  let f := Fields.ofWord w 0
  if fld w 56 8 = 0xC1 then [] else [f.a.toNat, f.b.toNat, f.c.toNat].take (gateInputs f.gate)

def execXrun (f : Fields) (s : State) : Outcome State Fault Refusal :=
  guarded (.xrun f) s fun f c s =>
    let a := c.rd1 f.a
    let b := c.rd1 f.b
    let w := c.rd1 f.c
    if !c.makes then .done (c.finish0 f s)
    else if decide (c.la.hdr.schedCount ≤ a.toNat) || b == 0 || decide (65535 < b.toNat) || c.sk.win == 0 || !c.xbarOpOk w
        || !(nth c.la.scheds a.toNat []).all (fun x => (stepCodes x).all (codeOk c.sk.win)) then xbarArg none
    else c.xenter (f.m.getLsbD 5) (fun id => { c.xcmd s id .run f with opw := w, a := a, b := b }) f (fun _ => []) s

def execXstat (f : Fields) (s : State) : Outcome State Fault Refusal :=
  guarded (.xstat f) s fun f c s =>
    let a := c.rd1 f.a
    let n := fld a 8 10
    if !c.makes then .done (c.finish0 f s)
    else if fld a 18 45 != 0 || (if a.getLsbD 63 then n != 0 else decide (c.la.hdr.xarrays ≤ n)) then xbarArg none
    else c.xenter false (fun id => { c.xcmd s id .stat f with a := a }) f (fun _ => [wrAll f.d.toNat 0]) s

def execXmap (f : Fields) (s : State) : Outcome State Fault Refusal :=
  guarded (.xmap f) s fun f c s =>
    let a := c.rd1 f.a
    if !c.makes then .done (c.finish0 f s)
    else if fld a 8 56 != 0 then xbarArg none
    else c.xenter false (fun id => { c.xcmd s id .map f with a := a }) f (fun _ => [wrAll f.d.toNat 0]) s

def execXmapWr (f : Fields) (s : State) : Outcome State Fault Refusal :=
  guarded (.xmapWr f) s fun f c s =>
    let a := c.rd1 f.a
    let b := c.rd1 f.b
    if !c.makes then .done (c.finish0 f s)
    else if fld a 7 57 != 0 || decide (b.toNat < 896) || decide (1023 < b.toNat) then xbarArg none
    else c.xenter false (fun id => { c.xcmd s id .mapWr f with a := a, b := b }) f (fun _ => []) s

/-! ## Reads and writes (R302 to R304) -/

/-- The crossbar addresses of the threads, ascending; one in distaff code. The base comes from each strand's own copy, and for
XRD.q from the lowest-numbered strand's (R293). -/
def Ctx.xaddrs (c : Ctx) (queued : Bool) (f : Fields) : List (Nat × Word) :=
  if c.dist then [(0, c.rd1 f.a)]
  else c.active.map fun t =>
    let base := if queued then c.rd1 f.a else c.rdScal (t / 8) f.a.toNat
    (t, if f.ix then base + 64 * c.rdVec false f.b.toNat t else base)

/-- The conditions of R302 on one address. -/
def xaddrOk (xarrays : Nat) (sc write : Bool) (a : Word) : Bool :=
  fld a 30 34 == 0 && fld a 0 6 == 0 && decide (fld a 20 10 < xarrays) && (!sc || fld a 16 4 == 0)
  && (!write || (decide (fld a 10 10 ≤ 895) && decide (fld a 6 4 ≤ 13)))

/-- What an access to crossbar space names after the checks of R302; otherwise the lowest failing thread. -/
def Ctx.xbad (c : Ctx) (sc write : Bool) (l : List (Nat × Word)) : Option (Option Nat) :=
  (l.find? fun p => !xaddrOk c.la.hdr.xarrays sc write p.2).map fun p => if c.dist then none else some p.1

/-- The registers a read will fill, in each strand. -/
def Ctx.xreadWrites (c : Ctx) (f : Fields) (st : Nat) : List RegWrite :=
  if c.dist then [wrAll f.d.toNat 0] else (activeIn c.ply.exm st).flatMap fun t => vecWrites true f.d.toNat t 0

def execXrd (f : Fields) (s : State) : Outcome State Fault Refusal :=
  guarded (.xrd f) s fun f c s =>
    let l := c.xaddrs false f
    match c.xbad (f.m.getLsbD 5) false l with
    | some e => xbarArg e
    | none =>
      if l.isEmpty then .done (c.finish0 f s)
      else
        let (id, s) := s.fresh
        let h : XHeld := { id, uid := c.sk.uid, who := c.who, strands := c.strandSet, f, write := false,
                           accs := l.map fun p => (p.1, p.2, 0), after := (s.spindle c.sp).xwrOf c.sk.uid c.who c.strandSet }
        .done (c.finish f id (c.xreadWrites f) (fun _ => 0) (s.modSpindle c.sp fun x => { x with xheld := x.xheld ++ [h] }))

/-- Its checks are those of R302, and the element of a bad address is the lowest failing thread, as R302 has it for both forms, though the failure of a
queued command carries no element in R293 (DESIGN CHOICE, log 99). -/
def execXrdQ (f : Fields) (s : State) : Outcome State Fault Refusal :=
  guarded (.xrdQ f) s fun f c s =>
    let l := c.xaddrs true f
    if !c.makes then .done (c.finish0 f s)
    else
      match c.xbad (f.m.getLsbD 5) false l with
      | some e => xbarArg e
      | none => c.xenter false (fun id => { c.xcmd s id .rdq f with accs := l }) f (c.xreadWrites f) s

/-- Commands of a skein in XQ whose captured window names one of the arrays: an XWR whose threads name several is held as a whole until all of them have
completed (R294; DESIGN CHOICE, log 109). -/
def Spindle.xnaming (x : Spindle) (uid : Nat) (arrays : List Nat) : List Nat :=
  (x.xq.filter fun k => k.uid == uid && arrays.any (winHas k.win)).map fun k => k.id

def execXwr (f : Fields) (s : State) : Outcome State Fault Refusal :=
  guarded (.xwr f) s fun f c s =>
    let l := c.xaddrs false f
    match c.xbad false true l with
    | some e => xbarArg e
    | none =>
      if l.isEmpty then .done (c.finish0 f s)
      else
        let (id, s) := s.fresh
        let h : XHeld := { id, uid := c.sk.uid, who := c.who, strands := c.strandSet, f, write := true,
                           accs := l.map fun p => (p.1, p.2, if c.dist then c.rd1 f.d else c.rdVec true f.d.toNat p.1)
                           after := (s.spindle c.sp).xnaming c.sk.uid (l.map fun p => fld p.2 20 10) }
        .done (c.finish0 f (s.modSpindle c.sp fun x => { x with xheld := x.xheld ++ [h] }))

/-! ## Performing a command -/

/-- The head of XQ with its skein's slot. -/
def State.xqHead (s : State) (sp : Nat) : Option (XqCmd × Nat × Skein) :=
  match (s.spindle sp).xq.head? with
  | none => none
  | some k => (s.spindle sp).residents.findSome? fun p => if p.2.uid == k.uid && !s.heldsBack sp p.2 then some (k, p.1, p.2) else none

def State.modXq (s : State) (sp : Nat) (g : XqCmd → XqCmd) : State := s.modSpindle sp fun x => { x with xq := modNth x.xq 0 g }
def State.dropXq (s : State) (sp : Nat) : State := s.modSpindle sp fun x => { x with xq := x.xq.drop 1 }

/-- The word that a crossbar address names, through the rotation map as it stands (R303). -/
def xreadWord (x : Spindle) (k : Skein) (f : Fields) (a : Word) : Word :=
  let ca := f.m.getLsbD 6
  let line := if f.m.getLsbD 5 then nth (k.axis ca).map (fld a 10 6) 0 else fld a 10 10
  x.xword (nth k.arrays (fld a 20 10) 0) ca line (fld a 6 4)

/-- The strands in which an operation is outstanding; 0 stands for a distaff. -/
def Skein.strandsOf (k : Skein) (op : Nat) : List Nat :=
  ((k.dist.defs ++ k.dist.hdefs ++ k.plies.flatMap fun p => p.defs ++ p.hdefs).filter fun e => e.op == op).map fun e => e.strand

/-- The values of a read reach the registers that wait for them; outside the sense margin they are what was sensed, and where the
region asks for it the uncorrected error comes as they land, with those of the lowest strand that has any (R296). -/
def State.xdeliver (s : State) (sp slot id : Nat) (f : Fields) (accs : List (Nat × Word)) (xre : Bool) : State :=
  match s.skein? sp slot with
  | none => s
  | some k =>
    let x := s.spindle sp
    let word := fun t => if xre then Config.freeWord s.tick t else xreadWord x k f (((accs.find? fun p => p.1 == t).map fun p => p.2).getD 0)
    let put := fun (e : Deferred) => e.writes.map fun w =>
      match w with
      | .v r t _ => .v r t (if r == f.d.toNat then (word t).setWidth 32 else (word t >>> 32).setWidth 32)
      | .s r m _ => .s r m (word 0)
      | .flags v => .flags v
    let ue := if xre && s.trapUe (s.launch k.launch) then ((k.strandsOf id).min?).map fun st => (st, Config.freeWord s.tick 128) else none
    s.modSkein sp slot fun k => k.bring id put ue

/-- XMAP.wr (R309). -/
def AxisMap.place (m : AxisMap) (k q : Nat) : AxisMap :=
  let p := nth m.map k 0
  if m.pool.contains q then { m with map := modNth m.map k fun _ => q, pool := m.pool.filter (· != q) ++ [p] }
  else { m with map := (m.map.map fun y => if y == q then p else y) |> fun l => modNth l k fun _ => q }

/-- The value XSTAT selects (R309). -/
def xstatValue (x : Spindle) (k : Skein) (a : Word) : Word :=
  let ca := a.getLsbD 7
  if a.getLsbD 63 then ofN ((k.axis ca).count (896 + fld a 0 7))
  else (sget x.life (lifeKey (nth k.arrays (fld a 8 10) 0) ca (896 + fld a 0 7))).setWidth 64

/-- The value XMAP selects. -/
def xmapValue (k : Skein) (a : Word) : Word :=
  let m := k.axis (a.getLsbD 6)
  ofN (nth (if a.getLsbD 7 then m.pool else m.map) (fld a 0 6) 0)

/-- The step words a command's skein runs. -/
def xsched (s : State) (sk : Skein) (k : XqCmd) : List Word := nth (s.launch sk.launch).scheds k.a.toNat []

/-- XQ stands at a step boundary. -/
def Spindle.boundary (x : Spindle) : Bool :=
  match x.xq.head? with
  | none => true
  | some k => !k.inStep

/-- The slot of a resident skein of an identity. -/
def Spindle.slotOf (x : Spindle) (uid : Nat) : Option Nat := (x.residents.find? fun p => p.2.uid == uid).map fun p => p.1

/-- A held read or write of a resident skein waits for nothing more. -/
def State.heldFree (s : State) (sp : Nat) (h : XHeld) : Bool :=
  ((s.spindle sp).pendingOf h.after).isEmpty && ((s.spindle sp).slotOf h.uid).isSome && !s.settling h.uid

/-- XQ runs a command: its head has started. -/
def Spindle.xqRuns (x : Spindle) : Bool := (x.xq.head?.map fun k => k.started).getD false

/-- The first read, or the first write, that may be performed (R294). While XQ runs nothing each is due at once, so none passes an earlier one of
the other kind that is free, whoever issued it; at a boundary of a running command only a write after a read of its own issuer keeps their
order, and that of different issuers is open (DESIGN CHOICE, log 103: when the command ends first, they keep their order of issue). -/
def State.xready (s : State) (sp : Nat) (write : Bool) : Option XHeld :=
  let l := (s.spindle sp).xheld
  l.find? fun h => h.write == write && s.heldFree sp h
    && !((l.takeWhile fun r => r.id != h.id).any fun r => r.write != write && s.heldFree sp r
      && (!(s.spindle sp).xqRuns || (write && r.ownOf h.uid h.who h.strands)))

/-- A held read or write is to be performed now, at a boundary, before the next step begins (R294). -/
def State.heldWaits (s : State) (sp : Nat) : Bool := (s.spindle sp).boundary && (s.spindle sp).xheld.any (s.heldFree sp)

/-- The head of XQ starts: its issuer's earlier accesses and every earlier XWR of it have been performed, and everything ahead of it has completed
(R293). A command without steps is performed at once. -/
def execXqCmdStart (sp : Nat) (xre : Bool) (s : State) : Outcome State Fault Refusal :=
  if !s.computeSpindle sp then .fault .noSuchUnit
  else
    match s.xqHead sp with
    | none => .next s
    | some (k, slot, sk) =>
      if k.started || sk.pre != .no || !((s.spindle sp).pendingOf k.after).isEmpty || s.heldWaits sp
          || !s.accessesDone sk k.who k.strands k.issued then .next s
      else
        match k.kind with
        | .step | .fill => .next (s.modXq sp fun k => { k with started := true })
        | .run => .next ((s.modXq sp fun k => { k with started := true, finished := (xsched s sk k).isEmpty }).modSkein sp slot Skein.resetCounts)
        | .ration => .next ((s.dropXq sp).modSkein sp slot fun y => { y.resetCounts with ration := k.a.toNat })
        | .stat => .next ((s.dropXq sp).modSkein sp slot fun y => y.deliver k.id (xstatValue (s.spindle sp) sk k.a))
        | .map => .next ((s.dropXq sp).modSkein sp slot fun y => y.deliver k.id (xmapValue sk k.a))
        | .mapWr =>
          let ca := k.a.getLsbD 6
          .next ((s.dropXq sp).modSkein sp slot fun y => y.setAxis ca ((y.axis ca).place (fld k.a 0 6) k.b.toNat))
        | .rdq => .next ((s.xdeliver sp slot k.id k.f k.accs xre).dropXq sp)

/-! ## The temperature band (R288) -/

/-- How many of the thresholds of R288 a temperature has reached, in eighths of a degree: −20, 0, 45, 75 and 95 °C. -/
def bandOf (t : Int) : Nat := (([-160, 0, 360, 600, 760] : List Int).filter fun x => decide (x ≤ t)).length

/-- The band after a reading: a higher one at its threshold, a lower one 2 °C below it (R288; DEDUCED, log 78). -/
def bandStep (old : Nat) (t : Int) : Nat :=
  if old < bandOf t then bandOf t else min old (bandOf (t + 16))

/-- The band of a spindle of a compute die: that of its latest phase, and before the first that of its die. -/
def State.bandAbove (s : State) (sp : Nat) : Nat := ((s.spindle sp).band).getD (s.die (stackOf sp)).band

/-- A phase begins on a spindle: its band is taken from the sensor above it, whose reading is free (DESIGN
CHOICE, log 20). -/
def State.senseAbove (s : State) (sp : Nat) : State :=
  s.modSpindle sp fun x => { x with band := some (bandStep (s.bandAbove sp) ((Config.freeWord s.tick 129).setWidth 12).toInt) }

/-! ## Steps (R286, R287, R290, R300, R301, R305) -/

/-- The gates, and the value each presets. -/
def gateFn (g : Nat) (l : List Bool) : Bool :=
  match g, l with
  | 0, [a] => !a
  | 1, [a, b] => !(a || b)
  | 2, [a, b, c] => !(a || b || c)
  | 3, [a, b] => !(a && b)
  | 4, [a, b] => a || b
  | _, [a, b] => a && b
  | _, _ => false

def gatePreset (g : Nat) : Bool := decide (g < 4)

/-- Which step a command performs next. -/
inductive StepForm where
  | gate | gateP | init | fill
deriving DecidableEq, Repr

structure StepOp where
  form : StepForm
  ca : Bool
  out : Nat
  codes : List Nat
  g : Nat
  val : Bool
deriving DecidableEq, Repr

/-- A gate or preset step from its fields. -/
def stepOp (form : Nat) (f : Fields) : StepOp :=
  if form = 2 then { form := .init, ca := f.m.getLsbD 6, out := f.d.toNat, codes := [], g := 0, val := f.m.getLsbD 0 }
  else
    { form := if form = 1 then .gateP else .gate, ca := f.m.getLsbD 6, out := f.d.toNat,
      codes := [f.a.toNat, f.b.toNat, f.c.toNat].take (gateInputs f.gate), g := f.gate, val := gatePreset f.gate }

/-- A step word of a schedule. -/
def stepOfWord (w : Word) : StepOp :=
  stepOp (if fld w 56 8 = 0xC1 then 2 else if fld w 52 4 = 1 then 1 else 0) (Fields.ofWord w 0)

/-- The step in hand. -/
def xstep (s : State) (sk : Skein) (k : XqCmd) : StepOp :=
  match k.kind with
  | .fill => { form := .fill, ca := k.f.m.getLsbD 4, out := k.f.d.toNat, codes := [], g := 0, val := false }
  | .run => stepOfWord (nth (xsched s sk k) k.step 0)
  | _ => stepOp k.form k.f

/-- A running XRUN stands at a checkpoint: before its first word, at a repeat's start, or after a word with CK (R297). -/
def atCheckpoint (s : State) (sk : Skein) (k : XqCmd) : Bool :=
  !k.inStep && (k.step == 0 || (nth (xsched s sk k) (k.step - 1) 0).getLsbD 7)

/-- Writes per cell. -/
def StepOp.writes (o : StepOp) : Nat := if o.form == .gateP then 2 else 1

/-- A cell's value in a position of XFILL's pattern (R305). -/
def patternBit (l : List Word) (p : Nat) : Bool := (nth l (p / 32 % max l.length 1) 0).getLsbD (p % 32)

/-- Every written bit of a fill, when they are all the same. -/
def patternTag (k : XqCmd) : Tag :=
  let bits := (List.range (winNL k.win)).map (patternBit k.data)
  if bits.all id then .preset true k.win else if bits.all (!·) then .preset false k.win else .none

/-- Status bits PV, ROT, ROUT and XRE (R296). -/
def bitPv : Word := 1 <<< 47
def bitRot : Word := 1 <<< 46
def bitRout : Word := 1 <<< 45
def bitXre : Word := 1 <<< 43

/-- Begins the step in hand: operands are resolved, the output line rotates when it must, and the tag is checked; or the command
ends for want of a line. -/
def xbegin (s : State) (sp slot : Nat) (sk : Skein) (k : XqCmd) (o : StepOp) : State :=
  let m := sk.axis o.ca
  let ins := o.codes.map fun x => (o.ca, m.line k.win x)
  let start := fun (p : Nat) (bits : Word) (s : State) =>
    s.modXq sp fun k => { k with inStep := true, group := 0, phase := 0, line := p, ins := ins, bits := k.bits ||| bits }
  if o.out < 0x40 then
    match m.rotate sk.ration o.out o.writes with
    | none => s.modXq sp fun k => { k with finished := true, bits := k.bits ||| bitRout }
    | some (m', p, rot) =>
      let pv := o.form == .gate && m'.tag p != .preset o.val k.win
      start p ((if rot then bitRot else 0) ||| (if pv then bitPv else 0)) (s.modSkein sp slot fun y => y.setAxis o.ca m')
  else start (m.line k.win o.out) 0 s

/-- One write phase of one array: every enabled cell of the output line, and one lifetime write of a logic line. -/
def phaseArray (s : State) (sk : Skein) (k : XqCmd) (o : StepOp) (pv xre : Bool) (x : Spindle) (a : Nat) : Spindle :=
  let arr := nth sk.arrays a 0
  let eval := o.form == .gate || (o.form == .gateP && k.phase == 1)
  let bit := fun pos =>
    if eval then
      if pv || xre then Config.freeBool s.tick (cellKey arr o.ca k.line pos)
      else gateFn o.g (k.ins.map fun i => x.cell arr i.1 i.2 pos)
    else if o.form == .fill then patternBit k.data (pos - winL0 k.win)
    else o.val
  let y := (List.range (winNL k.win)).foldl (fun y i => y.setCell arr o.ca k.line (winL0 k.win + i) (bit (winL0 k.win + i))) x
  if 896 ≤ k.line then { y with life := sset y.life (lifeKey arr o.ca k.line) (sget y.life (lifeKey arr o.ca k.line) + 1) } else y

/-- Arrays of a group of the window. -/
def groupArrays (w : Word) (g : Nat) : List Nat :=
  ((List.range 64).map (winA0 w + 64 * g + ·)).filter fun a => decide (a < winA0 w + winNA w)

/-- The end of a step: its count and tag, one step word performed, and the next one or the end of the command. The fill of an XFILL counts as one
(R296; DESIGN CHOICE, log 108). -/
def xend (s : State) (sp slot : Nat) (k : XqCmd) (o : StepOp) (len : Nat) : State :=
  let tag : Tag :=
    match o.form with
    | .init => .preset o.val k.win
    | .fill => patternTag k
    | _ => .none
  let s := if o.out < 0x40 then
      s.modSkein sp slot fun y => y.setAxis o.ca (((y.axis o.ca).addCount k.line o.writes).setTag k.line tag)
    else s
  let s := s.modSpindle sp fun x => x.count 8 1
  let last := k.kind != .run || (decide (len ≤ k.step + 1) && decide (k.b.toNat ≤ k.rep + 1))
  s.modXq sp fun k =>
    { k with inStep := false, words := k.words + 1, finished := last,
             step := if decide (len ≤ k.step + 1) then 0 else k.step + 1
             rep := if decide (len ≤ k.step + 1) then k.rep + 1 else k.rep }

/-- A direct step that has finished leaves the queue, and its bits wait for the next status of its skein (R295). -/
def xretire (sp slot : Nat) (s : State) : State :=
  match (s.spindle sp).xq.head? with
  | none => s
  | some k => if k.kind == .step && k.finished then (s.dropXq sp).modSkein sp slot fun y => { y with xpend := y.xpend ||| k.bits } else s

/-- Performs one phase of one group of the step in hand, which lasts the step time of the band it begins in. -/
def xphase (s : State) (sp slot : Nat) (sk : Skein) (k : XqCmd) (o : StepOp) (xre : Bool) : State :=
  let eval := o.form == .gate || (o.form == .gateP && k.phase == 1)
  let sensed := xre && eval
  let pv := o.form == .gate && (sk.axis o.ca).tag k.line != .preset o.val k.win
  let s := (s.senseAbove sp).modSpindle sp fun x => (groupArrays k.win k.group).foldl (phaseArray s sk k o pv sensed) x
  let s := s.modXq sp fun k => { k with bits := k.bits ||| (if sensed then bitXre else 0) }
  if o.form == .gateP && k.phase == 0 then s.modXq sp fun k => { k with phase := 1 }
  else if 64 * (k.group + 1) < winNA k.win then s.modXq sp fun k => { k with phase := 0, group := k.group + 1 }
  else xend s sp slot k o (xsched s sk k).length

/-- One write phase of the running step or fill, the first of a step after its rotation; a schedule of a skein that is being
pre-empted or has ended stops at its next checkpoint (R298). -/
def execXbarWritePhase (sp : Nat) (xre : Bool) (s : State) : Outcome State Fault Refusal :=
  if !s.computeSpindle sp then .fault .noSuchUnit
  else
    match s.xqHead sp with
    | none => .next s
    | some (k, slot, sk) =>
      if !k.started || k.finished || !((s.spindle sp).pendingOf k.after).isEmpty then .next s
      else if k.kind == .run && atCheckpoint s sk k && sk.life == .ended then .next (s.dropXq sp)
      else if (k.kind == .run && atCheckpoint s sk k && sk.pre != .no) || (!k.inStep && s.heldWaits sp) then .next s
      else
        let o := xstep s sk k
        let s := if k.inStep then s else xbegin s sp slot sk k o
        match s.xqHead sp with
        | none => .next s
        | some (k, _, sk) => .next (xretire sp slot (if k.finished then s else xphase s sp slot sk k o xre))

/-! ## Completion (R295, R296) -/

/-- The status word. -/
def xStatus (k : XqCmd) (pend : Word) : Word :=
  BitVec.ofNat 64 (2 ^ 63 + (if k.resumed then 2 ^ 40 else 0) + (if k.kind == .fill then 13 else 12) * 2 ^ 32 + k.words % 2 ^ 32)
    ||| k.bits ||| pend

/-- An XRUN or XFILL that has performed its last step completes, in the order of R295. -/
def execXqCmdComplete (sp : Nat) (s : State) : Outcome State Fault Refusal :=
  if !s.computeSpindle sp then .fault .noSuchUnit
  else
    match s.xqHead sp with
    | none => .next s
    | some (k, slot, sk) =>
      if !k.finished then .next s
      else
        let w := xStatus k sk.xpend
        let bar := fld k.opw 0 16
        let report := fun (y : Skein) =>
          let y := { y with xpend := 0 }.complete bar w
          let y := if w.getLsbD 43 && s.trapUe (s.launch sk.launch) then y.uncorrected (some k.who) k.strands w else y
          if k.f.m.getLsbD 5 then y.post (evRecord 2 0 0xFF bar 0 (w.toNat % 2 ^ 32)) else y
        .next ((if sk.life == .ended then s else s.modSkein sp slot report).dropXq sp)

/-! ## Ordinary reads and writes (R294) -/

def Spindle.dropHeld (x : Spindle) (id : Nat) : Spindle := { x with xheld := x.xheld.filter fun h => h.id != id }

/-- An ordinary XRD is admitted at a step boundary, and its values are those of the last step completed. -/
def execXrdAdmit (sp : Nat) (xre : Bool) (s : State) : Outcome State Fault Refusal :=
  if !s.computeSpindle sp then .fault .noSuchUnit
  else
    let x := s.spindle sp
    match s.xready sp false with
    | none => .next s
    | some h =>
      match x.slotOf h.uid with
      | none => .next s
      | some slot =>
        if !x.boundary then .next s
        else .next ((s.xdeliver sp slot h.id h.f (h.accs.map fun p => (p.1, p.2.1)) xre).modSpindle sp fun x => x.dropHeld h.id)

/-- The words of an XWR, thread by thread in ascending order. -/
def xwriteAll (k : Skein) (h : XHeld) (x : Spindle) : Spindle :=
  h.accs.foldl (fun x p =>
    let a := p.2.1
    (List.range 64).foldl (fun x i =>
      x.setCell (nth k.arrays (fld a 20 10) 0) (h.f.m.getLsbD 6) (fld a 10 10) (64 * fld a 6 4 + i) (p.2.2.getLsbD i)) x) x

/-- A held XWR is performed at a step boundary, once the earlier XQ commands on its arrays have completed. -/
def execXwrPerform (sp : Nat) (s : State) : Outcome State Fault Refusal :=
  if !s.computeSpindle sp then .fault .noSuchUnit
  else
    let x := s.spindle sp
    match s.xready sp true with
    | none => .next s
    | some h =>
      match x.slotOf h.uid with
      | none => .next s
      | some slot =>
        match s.skein? sp slot with
        | none => .next s
        | some k => if !x.boundary then .next s else .next (s.modSpindle sp fun x => (xwriteAll k h x).dropHeld h.id)

end Sys2Proof.Machine
end

