-- ==== Sys2Proof/Machine/Mmu.lean ====
section
/-! DEFINITION. The memory unit: shootdowns and wakes (R225, R226), the fault ring's registers (R231), replay of side logs (R229),
remote accesses (R317), hotness (R236), reserved SRAM and format ranges (R233, R234, R147), and eviction of private lines (R361). -/

namespace Sys2Proof.Machine

open Host (Outcome)

/-! ## Every skein of the package -/

/-- Changes every skein on every spindle, resident or saved. -/
def State.mapSkeins (s : State) (g : Skein → Skein) : State :=
  { s with spindles := s.spindles.map fun p =>
      (p.1, { p.2 with slots := p.2.slots.map fun o => o.map g, saved := p.2.saved.map fun v => { v with sk := g v.sk } }) }

/-- Every skein with its spindle, resident or saved. -/
def State.allSkeins (s : State) : List (Nat × Skein) := s.spindles.flatMap fun p => p.2.holders.map fun k => (p.1, k)

/-! ## Ranges (R225, R226) -/

/-- The range a value names; none for SIZE 5 and 6, which make the write ignored. -/
def shootRange (v : Word) : Option ShootRange :=
  let r := fun size => some { asid := fld v 56 8, va := fld v 12 44 * 4096, size }
  match fld v 0 3 with
  | 0 => r (some 12)
  | 1 => r (some 16)
  | 2 => r (some 21)
  | 3 => r (some 25)
  | 4 => r (some 30)
  | 7 => r none
  | _ => none

/-- Removes held translations. -/
def State.dropXlats (s : State) (p : Xlat → Bool) : State :=
  { s with
    spindles := s.spindles.map fun y =>
      (y.1, { y.2 with lpr := y.2.lpr.filter fun e => !p e.2, tlb := y.2.tlb.filter fun e => !p e })
    frames := s.frames.map fun y => (y.1, { y.2 with tlb := y.2.tlb.filter fun e => !p e }) }

/-- A shootdown is complete once every access that was translated through a removed entry has been performed (R225): one on its way
to another package is not yet; one withdrawn by a pre-emption is translated afresh (R358). -/
def State.shootReady (s : State) (v : Word) : Bool :=
  match shootRange v with
  | none => true
  | some r => !s.reqs.any fun q => !q.arrived && !q.withdrawn && r.meets q.asid q.size (q.va / 2 ^ q.size)

/-- Shootdown: every translation that covers the range goes, and what has changed in its page tables is in force. -/
def shootdown (v : Word) (s : State) : State :=
  match shootRange v with
  | none => s
  | some r => { s.dropXlats r.covers with known := if s.known.isEmpty then [] else .shot r :: s.known }

def wakeHeld (r : ShootRange) (asid : Nat) (h : Option Held) : Option Held :=
  h.map fun h => if h.pages.any fun p => r.hasPage asid p.toNat then { h with woken := true } else h

/-- A log entry with some page in the range is translated afresh. -/
def wakeEntry (r : ShootRange) (asid : Nat) (base : Nat → Nat → Nat → List Piece) (e : LogEntry) : LogEntry :=
  let n := e.ty.bits / 8
  let vas := e.accs.flatMap fun a =>
    match e.space with
    | .global => (globalPieces a.addr.toNat n).map fun p => p.va
    | .priv => (base a.tid a.addr.toNat n).map fun p => p.va
    | _ => []
  if vas.any (r.hasPage asid) then { e with asleep := false, incomplete := false } else e

/-- The private base of a ply of a spindle (R224). -/
def privBaseOf (l : Launch) (sp : Nat) (p : Ply) : Nat := l.priv * 2 ^ 45 + (64 * sp + p.privNum.getD 0) * 2 ^ 25

/-- A skein's held accesses and log entries in the range. -/
def wakeSkein (r : ShootRange) (l : Launch) (sp : Nat) (k : Skein) : Skein :=
  { k with
    dist := { k.dist with held := wakeHeld r l.asid k.dist.held, sideLog := k.dist.sideLog.map (wakeEntry r l.asid fun _ _ _ => []) }
    plies := k.plies.map fun p =>
      { p with held := wakeHeld r l.asid p.held,
               sideLog := p.sideLog.map (wakeEntry r l.asid fun t a n => privatePieces (privBaseOf l sp p) l.width t a n) } }

/-- A copy that waits for a page in the range. -/
def wakeCopy (r : ShootRange) (asid : Nat) (k : CopyCmd) : CopyCmd :=
  match k.asleep with
  | some va => if r.hasPage asid va.toNat then { k with woken := true } else k
  | none => k

/-- The address space of a command's skein. -/
def State.asidOf (s : State) (x : Spindle) (uid : Nat) : Nat := ((x.skeinOf uid).map fun k => (s.launch k.launch).asid).getD 0

/-- Launch reads and writes of events that wait for a page in the range (R54, R55). -/
def wakeLaunch (r : ShootRange) (l : Launch) : Launch :=
  { l with
    depAsleep := (List.range 4).map fun k =>
      nth l.depAsleep k false && !r.hasPage l.asid (nth l.lrec.deps k 0).toNat
    outAsleep := l.outAsleep && !r.hasPage l.asid l.lrec.done.toNat && !r.hasPage l.asid (l.lrec.done.toNat + 15) }

/-- Wake: cached Not-mapped walks of the range go, and what waits for its pages may try again (R226). -/
def wake (v : Word) (s : State) : State :=
  match shootRange v with
  | none => s
  | some r =>
    let s := s.dropXlats fun x => x.page.isNone && r.covers x
    { s with
      spindles := s.spindles.map fun p =>
        (p.1, { p.2 with
          slots := p.2.slots.map fun o => o.map fun k => wakeSkein r (s.launch k.launch) p.1 k
          saved := p.2.saved.map fun w => { w with
            sk := wakeSkein r (s.launch w.sk.launch) p.1 w.sk
            copies := w.copies.map fun c => (c.1, wakeCopy r (s.launch w.sk.launch).asid c.2) }
          cq := p.2.cq.map fun q => q.map fun k => wakeCopy r (s.asidOf p.2 k.uid) k })
      launches := s.launches.map fun p => (p.1, wakeLaunch r p.2) }

/-! ## Registers of the memory unit -/

/-- mmu.fq: the ring, empty, and what waits for it. -/
def writeFq (v : Word) (s : State) : State :=
  { s with fq := v &&& 0x800FFFFFFFFFF00F, fqHead := 0, fqTail := 0 }.ringFlush

/-- TAIL of mmu.fqptr. -/
def writeFqTail (v : Word) (s : State) : State := { s with fqTail := fld v 0 20 }.ringFlush

/-- mmu.hotcfg; clearing EN zeroes every counter. -/
def writeHotcfg (v : Word) (s : State) : State :=
  { s with hotcfg := v &&& 0xF800FFFFFF00FFFF, hot := if v.getLsbD 63 then s.hot else [], hotAt := s.time }

/-- Skeins resident on a spindle, and in a frame (R76). -/
def Spindle.residentCount (x : Spindle) : Nat := x.residents.length
def State.residentIn (s : State) (frame : Nat) : Nat :=
  ((List.range 16).map fun i => (s.spindle (16 * frame + i)).residentCount).sum

/-- Memory without the cells of a range of offsets. -/
def dropCells (lo hi : Nat) (m : List Host.Cell) : List Host.Cell := m.filter fun c => decide (c.1 < lo) || decide (hi ≤ c.1)

/-- Units of a stack's reserved SRAM hold undefined bytes from now on. -/
def State.scramble (s : State) (d lo hi : Nat) : State :=
  let s := s.modDie d fun y => { y with seed := (List.range (hi - lo)).foldl (fun l i => aput l (lo + i) s.tick) y.seed }
  { s with mem := dropCells (sramBase d + lo * sramUnit) (sramBase d + hi * sramUnit) s.mem }

/-- mem.cfg for the selected stack (R233, R234). SRAM that changes hands holds free bytes (DESIGN CHOICE, log 2). -/
def writeMemCfg (v : Word) (s : State) : State :=
  let d := s.mcStack.toNat
  let y := s.die d
  let l2p := v.getLsbD 9
  let free := (List.range 4).all fun i => s.residentIn (4 * d + i) == 0
  let res := min (fld v 0 5) 16
  let y' : Die := { y with res := res, l2p := if free then l2p else y.l2p, err := if l2p == y.l2p then y.err else !free }
  { (s.setDie d y').scramble d (min res y.res) (max res y.res) with pkg := BitVec.ofNat 6 (fld v 56 6) }

/-! ## Format ranges (R147) -/

/-- Bytes of element data, and of the scale region, of ROWS and KBLK. -/
def frData (rows kblk : Nat) : Nat := rows * 16 * kblk
def frScale (rows kblk : Nat) : Nat := ((rows + 63) / 64 * 2 + 63) / 64 * 64 + rows * 4 * kblk

/-- The two areas of a range, as start and end. -/
def Range.areas (base geom scale : Word) : List (Nat × Nat) :=
  let rows := fld geom 24 24
  let kblk := fld geom 0 16
  let b := fld base 21 31 * 0x200000
  let sb := fld scale 6 46 * 64
  [(b, b + frData rows kblk), (sb, sb + frScale rows kblk)]

def overlap (a b : Nat × Nat) : Bool := decide (a.1 < b.2) && decide (b.1 < a.2)

/-- mc.frbase of the selected range: a write that sets EN is ignored when the range is not acceptable. A range that is enabled already is held to the
seven others only (DESIGN CHOICE, log 85). -/
def writeFrbase (v : Word) (s : State) : State :=
  let d := s.mcStack.toNat
  let n := s.mcRange.toNat
  let y := s.die d
  let r := nth y.ranges n {}
  let v := v &&& 0x8F0FFFFFFFE00000
  let others := (List.range 8).filterMap fun i =>
    let q := nth y.ranges i {}
    if i != n && q.base.getLsbD 63 then some (Range.areas q.base q.geom q.scale) else none
  let bad := v.getLsbD 63 && (fld v 56 4 != 9 || fld r.geom 24 24 == 0 || fld r.geom 0 16 == 0
    || (Range.areas v r.geom r.scale).any fun a => others.any fun l => l.any (overlap a))
  if bad then s else s.setDie d { y with ranges := modNth y.ranges n fun r => { r with base := v } }

/-- A layout-1 copy, a pre-empted one too, whose reads a range has accepted has not completed (R149). -/
def State.rangeBusy (s : State) (d n : Nat) : Bool :=
  s.spindles.any fun p => (p.2.cq.flatten ++ p.2.saved.flatMap fun v => v.copies.map Prod.snd).any fun k => k.result.isNone && k.ranges.contains (d, n)

/-- A write of mc.frbase would change the range while reads that it has accepted go on: it takes effect once they have completed (R149). -/
def State.frbaseWaits (s : State) (v : Word) : Bool :=
  let range := fun (s : State) => nth (s.die s.mcStack.toNat).ranges s.mcRange.toNat {}
  s.rangeBusy s.mcStack.toNat s.mcRange.toNat && range (writeFrbase v s) != range s

/-- mc.frgeom and mc.frscale, while the range is not enabled. -/
def writeFrother (g : Range → Range) (s : State) : State :=
  s.modDie s.mcStack.toNat fun y =>
    { y with ranges := modNth y.ranges s.mcRange.toNat fun r => if r.base.getLsbD 63 then r else g r }

/-! ## Hotness (R236) -/

/-- A counter reaches THRESH: its record, which waits while the ring is disabled or out of reach and is lost when it is full, and the counter from 0 again. Its
SKSLOT and PLY, of which the spec says nothing for HOT, are 0xFF (DESIGN CHOICE, log 72). -/
def execHotThreshold (die block slot : Nat) (s : State) : Outcome State Fault Refusal :=
  if s.nStacks ≤ die then .fault .noSuchUnit
  else
    let key := (die * 0x200000 + block) * 8 + slot
    let n := sget s.hot key
    let th := fld s.hotcfg 0 16
    if !s.hotcfg.getLsbD 63 || th == 0 || n.toNat < th || 8 ≤ slot || 0x200000 ≤ block then .next s
    else
      let s := { s with hot := sset s.hot key 0 }
      let pa := s.pkg.toNat * 0x400000000000 + block * 0x10000
      let r : RingRec := { va := ofN pa, word1 := ringWord1 4 0 slot 0xFF 0xFF 0xFF 0xFF, info := n.setWidth 64 }
      .next (if s.fqWait.isEmpty && s.ringRoom then s.ringWrite r
        else if s.ringFull then s else { s with fqWait := s.fqWait ++ [r] })

/-- Every counter is halved. -/
def execHotDecay (s : State) : Outcome State Fault Refusal :=
  let d := fld s.hotcfg 59 4
  if d == 0 || s.time < s.hotAt + 1000 * 2 ^ d then .next s
  else .next { s with hot := s.hot.filterMap fun p => if p.2.toNat < 2 then none else some (p.1, p.2 / 2), hotAt := s.hotAt + 1000 * 2 ^ d }

/-! ## Side logs (R229) -/

/-- The context of a party that owns a log, whether or not it has a path that runs. -/
def State.owner? (s : State) (p : Party) : Option Ctx :=
  match p with
  | .core _ => none
  | .dist .. => s.ctx? p
  | .path sp slot ply idx =>
    (s.skein? sp slot).bind fun k =>
      if ply < k.plies.length then
        let y := k.ply ply
        let l := s.launch k.launch
        some { who := p, sp, slot, dist := false, plyNo := ply, idx, sk := k, ply := y, path := nth y.paths idx {}, la := l,
               w := l.width, strands := [], handler := y.trap.mode, pc := 0 }
      else none

/-- A party whose log it is has exited, so that a denied entry ends its skein. -/
def Ctx.ownerGone (c : Ctx) : Bool := if c.dist then c.sk.dist.exited else c.ply.gone c.w

/-- The head of a log that its page denies is discarded, and its ply takes an imprecise ACCESS_FAULT with the virtual address of
the entry's lowest thread, or, having exited, ends its skein (R229, R345, R350); the caller has seen that there is room for the record. -/
def Ctx.denyHead (c : Ctx) (rest : List LogEntry) (e : LogEntry) (s : State) : State :=
  let a := e.accs.headD { tid := 0, addr := 0 }
  let va := ((c.piecesOf e.space (e.ty.bits / 8) { tid := a.tid, st := e.strand, acc := a }).head?.map fun q => ofN q.va).getD a.addr
  let t : TrapRec := { kind := .accessFault, prec := .imprecise, addr := va, elem := if c.dist then none else some a.tid }
  let s := c.setSideLog rest s
  if c.ownerGone then
    (s.endSkein c.sp c.slot).ringWrite ({ c with idx := e.path }.ringRec 5 t.addr (trapCause c.dist c.plyNo e.path t) t.elem)
  else if c.dist then c.modDist s fun d => { d with pend := d.pend ++ [t] }
  else c.modPly s fun p => { p with pend := p.pend ++ [t] }

/-- The memory unit replays the head of a log. -/
def execSideLogReplay (p : Party) (s : State) : Outcome State Fault Refusal :=
  match s.owner? p with
  | none => .next s
  | some c =>
    match c.sideLog with
    | [] => .next s
    | e :: rest =>
      if e.asleep || e.incomplete then .next s
      else
        let n := e.ty.bits / 8
        let ps := e.accs.map fun a => c.place s e.space n { tid := a.tid, st := e.strand, acc := a }
        let need : Need := match e.op with | .load => .read | .store => .write | .rmw _ => .both
        if anyFault ps then
          .next (c.setSideLog ({ e with asleep := true } :: rest) (c.fillMissing ps s))
        else if anyUntrained s ps || (need != .write && anyRetrains s ps) then .next s
        else if ps.any fun p => (p.pieces.filterMap fun q => q.2.place q.1.va).any fun x => !x.2.permits need then
          .next (if c.ownerGone && s.ringFree == 0 then s else c.denyHead rest e s)
        else if c.l1Waits s e.space ps then .next s
        else
          let s := (c.fillAll ps (c.setSideLog rest s)).hotLines (stackOf c.sp) (c.touchedLines e.space ps)
          let r := c.performAll e.space n (accessOp e.op e.ty c.la.ftz) 0 e.issued false ps s
          .next r.2

/-! ## Remote accesses (R317) -/

/-- The lane of a line. -/
def laneOf16 (pa : Nat) : Nat := Nat.xor (pa / 64 % 16) (pa / 1024 % 16)

/-- Two requests of a ply or distaff, the first of which stands earlier in the program, keep their order: of one thread to one package and lane
(R317), of one instruction in some byte of both (R198), and withdrawn ones of a thread, which resume in program order (R352). -/
def keepsOrder (q r : RemoteReq) : Bool :=
  q.uid == r.uid && sameIssuer q.who r.who
  && ((q.tid == r.tid && q.pa / 0x400000000000 == r.pa / 0x400000000000 && laneOf16 q.pa == laneOf16 r.pa)
    || (q.issued == r.issued && decide (q.pa < r.pa + r.n) && decide (r.pa < q.pa + q.n))
    || (q.tid == r.tid && (q.withdrawn || r.withdrawn)))

/-- An earlier request before which this one may not be performed has not arrived. -/
def behind (r : RemoteReq) : List RemoteReq → Bool
  | [] => false
  | q :: l => if q.id == r.id then false else (!q.arrived && keepsOrder q r) || behind r l

/-- Where a request is performed: a withdrawn one is translated afresh, and waits while its page is not mapped or denies it (R355, R358). -/
def State.placeOf (s : State) (r : RemoteReq) : Option Nat :=
  if !r.withdrawn then some r.pa
  else
    match s.allSkeins.find? fun p => p.2.uid == r.uid with
    | none => none
    | some (_, k) =>
      let l := s.launch k.launch
      let need : Need := match r.what with | .load => .read | .store _ => .write | .rmw .. => .both
      s.fresh? l.asid l.root r.va need

/-- Performs an access at its owner: the value it found. -/
def ownerAccess (pa n : Nat) (op : RemoteOp) (s : State) : Word × State :=
  let old := s.paRead pa n
  match opNew op old with
  | none => (old, s)
  | some w => (old, s.paWrite pa n w)

/-- The requester slot of a linked package (R236): of slots that name the same package the lowest, which alone counts (DESIGN CHOICE, log 93). -/
def hotSlotOf (s : State) (pkg : Nat) : Option Nat :=
  if pkg == s.pkg.toNat then none
  else ((List.range 4).find? fun i => fld s.hotcfg (24 + 6 * i) 6 == pkg).map (4 + ·)

/-- A skein of an identity is resident and runs. -/
def State.resumed (s : State) (uid : Nat) : Bool :=
  s.spindles.any fun p => p.2.residents.any fun q => q.2.uid == uid && q.2.pre == .no

/-- An access that reads nothing. -/
def isStore (op : RemoteOp) : Bool := match op with | .store _ => true | _ => false

/-- Stores of a skein to a line are on their way, written back earlier. -/
def State.lineSent (s : State) (uid pa : Nat) : Bool := s.reqs.any fun r => r.uid == uid && !r.arrived && r.pa / 64 == pa / 64

/-- A remote access takes its place in the order of the package that owns the address: one of this package's own at another, or
another package's at this one. A withdrawn one waits until its skein is back (R352). -/
def execRemoteAccessArrival (a : Arrival) (s : State) : Outcome State Fault Refusal :=
  match a with
  | .own id =>
    (match s.reqs.find? fun r => r.id == id with
     | none => .next s
     | some r =>
       if r.arrived || behind r s.reqs || (r.withdrawn && !s.resumed r.uid) then .next s
       else
         match s.placeOf r with
         | none => .next s
         | some pa =>
           if !(if isStore r.what then s.reachable pa else s.readable pa) then .next s
           else
             let (old, s) := ownerAccess pa r.n r.what s
             .next { s with reqs := s.reqs.map fun q => if q.id == id then { q with arrived := true, pa, old := old } else q })
  | .foreign pkg off n op =>
    let pa := s.pkg.toNat * 0x400000000000 + off % 0x400000000000
    if pkg == s.pkg.toNat || !s.linked pkg || !(if isStore op then s.reachable pa else s.readable pa) then .next s
    else
      let s := match hotSlotOf s pkg with | none => s | some slot => s.hotCount slot pa true
      .next (ownerAccess pa n op s).2

/-- The values of an operation's threads, from the pieces that came back. -/
def reqValues (rs : List RemoteReq) : List (Nat × Word) :=
  let tids := (rs.map fun r => r.tid).eraseDups
  tids.map fun t => (t, ofN (((rs.filter fun r => r.tid == t).map fun r => r.old.toNat * 2 ^ (8 * r.at_)).sum))

/-- Removes an operation's requests. -/
def State.dropReqs (s : State) (op : Nat) : State := { s with reqs := s.reqs.filter fun r => r.op != op }

/-- A party of an identity's resident skein, wherever its slot is now. -/
def partyAt (p : Party) (sp slot : Nat) : Party :=
  match p with
  | .core c => .core c
  | .dist .. => .dist sp slot
  | .path _ _ ply idx => .path sp slot ply idx

/-- An entry waits for an operation. -/
def Skein.awaits (k : Skein) (op : Nat) : Bool :=
  let has := fun (l : List Deferred) => l.any fun e => e.op == op
  has k.dist.defs || has k.dist.hdefs || k.plies.any fun p => has p.defs || has p.hdefs

def isRemote (w : Wait) (op : Nat) : Bool := match w with | .remote _ _ o => o == op | _ => false

/-- The party set aside by a trap waits for an operation. -/
def Skein.setAside (k : Skein) (op : Nat) : Bool :=
  (k.dist.trap.mode && isRemote k.dist.trap.wait op) || k.plies.any fun p => p.trap.mode && p.trap.paths.any fun e => isRemote e.wait op

/-- The writes of a deferred entry with the values that came back. -/
def fillWrites (ty : Ty) (vals : List (Nat × Word)) (e : Deferred) : List RegWrite :=
  let val := fun (t : Nat) => fillS ty (((vals.find? fun v => v.1 == t).map fun v => v.2).getD 0)
  let low := fun (r t : Nat) => !e.writes.any fun w => match w with | .v r' t' _ => t' == t && r' + 1 == r | _ => false
  e.writes.map fun w =>
    match w with
    | .v r t _ => .v r t (if low r t then (val t).setWidth 32 else (val t >>> 32).setWidth 32)
    | .s r m _ => .s r m (fillS ty (((vals.find? fun v => v.1 / 8 == e.strand).map Prod.snd).getD 0))
    | .flags x => .flags x

/-- Every piece of an operation has come back: its values reach what waits for them. -/
def remoteDone (op : Nat) (s : State) : State :=
  let rs := s.reqs.filter fun r => r.op == op
  match rs with
  | [] => s
  | r :: _ =>
    match s.allSkeins.find? fun p => p.2.uid == r.uid with
    | none => s.dropReqs op
    | some (sp, k) =>
      if k.awaits op then (s.modUid sp r.uid fun k => k.bring op (fillWrites r.ty (reqValues rs)) none).dropReqs op
      else if k.setAside op then s
      else
        match s.whereIs r.uid with
        | none => s.dropReqs op
        | some (sp, slot) =>
          match s.ctx? (partyAt r.who sp slot) with
          | none => s.dropReqs op
          | some c =>
            match c.waitNow with
            | .remote f scalar o =>
              if o == op then (c.finish f 0 (c.valueWrites f scalar (reqValues rs)) (fun _ => 0) s).dropReqs op else s.dropReqs op
            | _ => s.dropReqs op

/-- A reply comes back; the last one of an operation completes it. One that a handler holds up completes at a later arrival of the
same name. -/
def execRemoteReplyArrival (id : Nat) (s : State) : Outcome State Fault Refusal :=
  match s.reqs.find? fun r => r.id == id with
  | none => .next s
  | some r =>
    if !r.arrived || !s.linked (r.pa / 0x400000000000) && !s.isLocal r.pa then .next s
    else
      let s := { s with reqs := s.reqs.map fun q => if q.id == id then { q with replied := true } else q }
      if r.op == 0 then .next { s with reqs := s.reqs.filter fun q => q.id != id }
      else if s.reqs.all fun q => q.op != r.op || q.replied then .next (remoteDone r.op s)
      else .next s

/-! ## Private lines (R361) -/

/-- L1 drops a private line, a dirty one once it has written it back, behind what it wrote back before; the ply's view of its bytes stays (R361).
While the page does not translate the line stays (DEDUCED, log 100). What an ended skein stores is discarded, never written back. -/
def execPrivateLineEviction (sp slot ply line : Nat) (s : State) : Outcome State Fault Refusal :=
  match s.skein? sp slot with
  | none => .next s
  | some k =>
    let l := s.launch k.launch
    let p := k.ply ply
    match p.priv.find? fun x => x.line == line with
    | none => .next s
    | some x =>
      let drop := fun (s : State) =>
        s.modPly sp slot ply fun p => { p with priv := p.priv.map fun y => if y.line == line then { y with dirty := false, cached := false } else y }
      if !x.dirty || k.life == .ended then .next (drop s)
      else
        let va := privBaseOf l sp p + 64 * line
        match (translate s l.asid l.root va).place va with
        | none => .next s
        | some (pa, a) =>
          if !s.reachable pa || s.lineSent k.uid pa then .next s else .next (drop ((s.paPutBytes pa x.bytes).hotLines (stackOf sp) [(pa, a)]))

end Sys2Proof.Machine
end

