-- ==== Sys2Proof/Machine/Launch.lean ====
section
/-! DEFINITION. Launches: the LAUNCH instruction and its offers (R213 to R215), acceptance and its checks (R44, R52, R55, R58, R59,
R65, R390), dependences (R54) and outcomes (R55). -/

namespace Sys2Proof.Machine

open Host (Outcome)

/-! ## Images (R40 to R44, R28, R29, R297) -/

/-- The header's fields from its 128 bytes. -/
def Header.ofBytes (l : List Byte) : Header :=
  { stepping := leAt l 0x06 2, imageSize := leAt l 0x08 4, flags := leAt l 0x0C 4, widthCode := leAt l 0x10 1, plies := leAt l 0x11 1
    vregs := leAt l 0x12 2, tiles := leAt l 0x14 1, xarrays := leAt l 0x16 2, scratch := leAt l 0x18 4, priv := leAt l 0x1C 4
    distOff := leAt l 0x20 4, distSize := leAt l 0x24 4, plyOff := leAt l 0x28 4, plySize := leAt l 0x2C 4, dataOff := leAt l 0x30 4
    dataSize := leAt l 0x34 4, schedOff := leAt l 0x38 4, schedSize := leAt l 0x3C 2, schedCount := leAt l 0x3E 2
    barOff := leAt l 0x40 4, barCount := leAt l 0x44 2 }

/-- W of a header. -/
def Header.width (h : Header) : Nat := 8 * 2 ^ h.widthCode

/-- The parts in their fixed order, as offset and size; an absent part has offset 0 and takes no place (R40). -/
def partsGo : Nat → List (Nat × Nat) → Option Nat
  | end_, [] => some end_
  | end_, (off, n) :: l =>
    if n = 0 then (if off = 0 then partsGo end_ l else none)
    else if off % 64 != 0 || decide (off < end_) then none
    else partsGo (off + n) l

/-- The conditions of R44 on the header alone. Of the bytes after the name only the last, 0x7F, is checked to be zero (DESIGN CHOICE, log 66). -/
def headerOk (l : List Byte) : Bool :=
  let h := Header.ofBytes l
  leAt l 0 4 == 0x314B5250 && leAt l 4 2 == 1 && leAt l 0x15 1 == 0 && leAt l 0x46 10 == 0 && leAt l 0x7F 1 == 0
  && decide (h.flags < 4) && decide (h.widthCode ≤ 4) && decide (1 ≤ h.plies) && decide (h.plies ≤ 16)
  && decide (1 ≤ h.vregs) && decide (h.vregs ≤ 256) && decide (h.tiles ≤ 16) && decide (h.xarrays ≤ 1024)
  && h.scratch % 64 == 0 && decide (h.scratch ≤ 393216) && decide (h.priv ≤ 65536) && h.imageSize % 64 == 0
  && decide (h.schedSize ≤ 4096) && decide (h.barCount ≤ 12288) && decide (32 * h.barCount ≤ h.scratch)
  && decide (h.width * h.plies ≤ 512) && decide (h.vregs * h.width * h.plies ≤ 131072)
  && h.distSize != 0 && h.distSize % 8 == 0 && h.plySize != 0 && h.plySize % 8 == 0
  && ((h.schedCount == 0) == (h.schedSize == 0))
  && (match partsGo 128 [(h.barOff, 32 * h.barCount), (h.distOff, h.distSize), (h.plyOff, h.plySize), (h.dataOff, h.dataSize),
        (h.schedOff, h.schedSize)] with
      | some e => h.imageSize == (e + 63) / 64 * 64
      | none => false)

/-- Every barrier object has an expected count, and nothing else (R29). -/
def barsOk (l : List Byte) (n : Nat) : Bool :=
  (List.range n).all fun i => leAt l (32 * i) 2 != 0 && leAt l (32 * i + 2) 30 == 0

/-- One step word of a schedule follows the rules of its entry, CK apart (R297, R300). -/
def stepWordOk (w : Word) : Bool :=
  let f := Fields.ofWord w 0
  let opc := fld w 56 8
  let fn := fld w 52 4
  f.tc == 0 && f.la == 0 && !f.u && !w.getLsbD 40 && fld w 41 4 == 0
  && (if opc = 0xC0 then decide (fn ≤ 1) && f.m.toNat % 8 == 0 && gateCodesOk f
      else opc == 0xC1 && fn == 0 && decide (f.d.toNat < 0x40) && f.a == 0 && f.b == 0 && f.c == 0 && f.m.toNat % 64 / 2 == 0)

/-- No run between checkpoints exceeds 64 words: n words have passed since the last one. -/
def checkpointsOk : Nat → List Word → Bool
  | _, [] => true
  | n, w :: l => decide (n < 64) && checkpointsOk (if w.getLsbD 7 then 0 else n + 1) l

/-- The step words of each schedule of the section; none when the section breaks R41 or R297. -/
def schedules (l : List Byte) (count : Nat) : Option (List (List Word)) :=
  let first := (4 * count + 7) / 8 * 8
  if decide (l.length < first) || leAt l (4 * count) (first - 4 * count) != 0 then none
  else
    (List.range count).mapM fun i =>
      let off := leAt l (4 * i) 2
      let n := leAt l (4 * i + 2) 2
      let ws := (List.range n).map fun j => BitVec.ofNat 64 (leAt l (off + 8 * j) 8)
      if off % 8 == 0 && decide (first ≤ off) && decide (off + 8 * n ≤ l.length) && ws.all stepWordOk && checkpointsOk 0 ws then some ws
      else none

/-! ## Launch records (R49, R50, R52) -/

def LRecord.ofBytes (addr : Word) (l : List Byte) : LRecord :=
  let w := fun o => BitVec.ofNat 64 (leAt l o 8)
  { addr, image := w 0, args := w 0x08, region := w 0x10, gridX := leAt l 0x18 4, gridY := leAt l 0x1C 4, gridZ := leAt l 0x20 4
    flags := leAt l 0x24 2, ndeps := leAt l 0x26 1, copyCount := leAt l 0x27 1, deps := (List.range 4).map fun k => w (0x28 + 8 * k)
    done := w 0x48, copies := (List.range 16).map fun n => (w (0x80 + 16 * n), w (0x88 + 16 * n)) }

/-- One static copy entry, as far as the record tells. -/
def copyEntryOk (used : Bool) (e : Word × Word) : Bool :=
  if used then e.1.toNat % 64 == 0 && fld e.2 52 12 == 0 && fld e.2 9 7 == 0 && fld e.2 32 20 % 16 == 0 && fld e.2 16 16 % 32 == 0
  else e.1 == 0 && e.2 == 0

/-- The record check of R52. -/
def recordOk (l : List Byte) : Bool :=
  let r := LRecord.ofBytes 0 l
  let grid := fun g => decide (1 ≤ g) && decide (g ≤ 16777216)
  r.image.toNat % 64 == 0 && r.region.toNat % 64 == 0 && grid r.gridX && grid r.gridY && grid r.gridZ && decide (r.skeins ≤ 2 ^ 48)
  && decide (r.flags < 8) && decide (r.ndeps ≤ 4) && decide (r.copyCount ≤ 16) && r.done.toNat % 16 == 0 && leAt l 0x50 48 == 0
  && (List.range 4).all (fun k => let d := nth r.deps k 0; d.toNat % 16 == 0 && (decide (k < r.ndeps) || d == 0))
  && (List.range 16).all fun n => copyEntryOk (decide (n < r.copyCount)) (nth r.copies n (0, 0))

/-- The limits of R50 that need the header. -/
def copiesFit (r : LRecord) (h : Header) : Bool :=
  (r.copies.take r.copyCount).all fun e =>
    decide (fld e.2 32 20 < h.scratch) && decide (fld e.2 16 16 < 32 * h.barCount) && decide (fld e.2 4 4 < h.tiles)

/-! ## Region control blocks (R58 to R60) -/

/-- A block as read, `ok` where no reserved byte or bit is set and every field it owns lies in its range. Blocks are read by
physical address (DEDUCED, log 29). -/
def State.readRcb (s : State) (a : Nat) : Rcb :=
  let l := s.paBytes a 128
  let r : Rcb :=
    { addr := a, parent := leAt l 0 8, inherit := leAt l 8 2, priority := leAt l 0x0A 1, tags := leAt l 0x0B 1, rflags := leAt l 0x0C 4
      spindles := leAt l 0x10 2, bw := leAt l 0x12 2, xarrays := leAt l 0x14 4, boost := leAt l 0x18 1
      handler := BitVec.ofNat 64 (leAt l 0x20 8), saveArea := leAt l 0x28 8, saveSize := leAt l 0x30 4, latency := leAt l 0x34 4 }
  let own := fun b => r.inherit / 2 ^ b % 2 == 1
  { r with ok :=
      decide (r.inherit < 512) && leAt l 0x19 7 == 0 && leAt l 0x38 72 == 0
      && (!own 0 || decide (r.priority ≤ 15)) && (!own 2 || decide (r.rflags < 2)) && (!own 3 || decide (r.spindles ≤ 256))
      && (!own 4 || (decide (1 ≤ r.bw) && decide (r.bw ≤ 1024))) && (!own 5 || decide (r.xarrays ≤ 262144))
      && (!own 6 || decide (r.boost ≤ 64)) && (!own 7 || (r.handler.toNat % 8 == 0 && r.saveArea % 64 == 0)) }

/-- The blocks that a launch into a region reads: those from it to its root that have not been read, as far as a chain may reach (R58, R60). -/
def chainGo (s : State) : Nat → Nat → List Rcb → List Rcb
  | 0, _, got => got
  | k + 1, a, got =>
    if a % 64 != 0 || got.any fun r => r.addr == a then got
    else
      match s.rcb? a with
      | some r => if r.parent = 0 then got else chainGo s k r.parent got
      | none =>
        let r := s.readRcb a
        if r.parent = 0 then got ++ [r] else chainGo s k r.parent (got ++ [r])

/-- The chain of a region is valid (R58): at most eight aligned blocks that pass their checks, up to a root that inherits nothing. -/
def chainOkGo (s : State) : Nat → Nat → Bool
  | 0, _ => false
  | k + 1, a =>
    a % 64 == 0 && (match s.rcb? a with
      | none => false
      | some r => r.ok && (if r.parent = 0 then r.inherit == 0x1FF else chainOkGo s k r.parent))

def State.chainOk (s : State) (a : Nat) : Bool := chainOkGo s 8 a

/-- Some block that a region's first use would read cannot be read yet (R382, R383, R386). A block beyond the physical addresses, of 52 bits, is read
like one in a package without a link, hence never (DESIGN CHOICE, log 104). -/
def chainWaits (s : State) : Nat → Nat → Bool
  | 0, _ => false
  | k + 1, a =>
    if a % 64 != 0 then false
    else
      match s.rcb? a with
      | some r => r.parent != 0 && chainWaits s k r.parent
      | none => !s.readsAll a 128 || ((s.readRcb a).parent != 0 && chainWaits s k (s.readRcb a).parent)

/-- The region of a launch: its blocks are read where they have not been, whether or not its chain is valid, and never again (R60). -/
def State.knowRegion (s : State) (a : Nat) : State := { s with rcbs := s.rcbs ++ chainGo s 9 a [] }

/-- The root of a region's tree. -/
def State.rootOf (s : State) (a : Nat) : Nat := ((s.rcbChain a).getLast?.map fun r => r.addr).getD 0

/-- An address space as its registers stand; 0 is always enabled. -/
def State.space (s : State) (asid : Nat) : AddrSpace := agetD s.spaces asid {}

/-- An address space as an accepted launch sees it before its checks: EN, ROOT and PRIV as it was accepted under, where skeins used the space when
they were changed (R226). -/
def Launch.spaceOf (l : Launch) (s : State) (asid : Nat) : AddrSpace :=
  match aget? l.kept asid with
  | none => s.space asid
  | some x => { x with rcb := (s.space asid).rcb }

/-- The address space of a region tree (R219): the one, enabled, that names its root, of several the least (DESIGN CHOICE, log 89); else 0. -/
def Launch.asidFor (l : Launch) (s : State) (root : Nat) : Nat :=
  ((List.range 256).find? fun i => (i == 0 || (l.spaceOf s i).en) && root != 0 && (l.spaceOf s i).rcb.toNat == root).getD 0

/-! ## Reading through a launch's address space (R44) -/

/-- The translation of each block of k bytes of a range, with an address of it in the range. -/
def State.vaBlocks (s : State) (asid root k va n : Nat) : List (Nat × Tr) :=
  (List.range ((va + n + (k - 1)) / k - va / k)).map fun i =>
    let a := max va ((va / k + i) * k)
    (a, translate s asid root a)

/-- The same for each page. -/
def State.vaPages (s : State) (asid root va n : Nat) : List (Nat × Tr) := s.vaBlocks asid root 4096 va n

/-- Some granule of a range, which lies in one device (R218), waits for that device's training or retrain (R382, R383), or for a link. -/
def State.vaWaits (s : State) (asid root va n : Nat) : Bool :=
  (s.vaBlocks asid root 256 va n).any fun p =>
    match p.2 with
    | .wait => true
    | t => match t.place p.1 with | some (pa, _) => !s.readable pa | none => false

/-- Some byte of a range lies at or beyond 2^56, or on a page that is not there or does not permit the use: whatever waits, it fails. -/
def State.vaDenied (s : State) (asid root va n : Nat) (need : Need) : Bool :=
  decide (2 ^ 56 < va + n) || (s.vaPages asid root va n).any fun p =>
    match p.2 with
    | .wait => false
    | t => match t.place p.1 with | some (_, a) => !a.permits need | none => true

/-! ## Fit (R65, R70, R354, R390) -/

/-- Granules of the vector register file that a skein takes. -/
def Header.granules (h : Header) : Nat := h.plies * ((h.vregs * h.width + 1023) / 1024)

/-- Bytes of a save-area frame. -/
def Header.frameSize (h : Header) : Nat :=
  (8192 + h.scratch + 16384 * h.tiles + 4096 + h.plies * (8192 + 128 * h.width + 4 * h.width * h.vregs) + 4095) / 4096 * 4096

/-- One skein fits an empty base spindle. -/
def Header.fitsBase (h : Header) : Bool :=
  decide (h.width * h.plies ≤ 16) && decide (h.granules ≤ 16) && decide (h.scratch ≤ 65536) && h.tiles == 0 && h.xarrays == 0
  && h.schedCount == 0

/-- Effective budgets of a region. -/
def State.effSpindles (s : State) (a : Nat) : Nat := effMin 3 Rcb.spindles 256 (s.rcbChain a)
def State.effArrays (s : State) (a : Nat) : Nat := effMin 5 Rcb.xarrays 262144 (s.rcbChain a)
def State.effPriority (s : State) (a : Nat) : Nat := effMin 0 Rcb.priority 15 (s.rcbChain a)
def State.effBoost (s : State) (a : Nat) : Nat := effMin 6 Rcb.boost 64 (s.rcbChain a)
def State.effSaveArea (s : State) (a : Nat) : Nat := effOwn 7 Rcb.saveArea 0 (s.rcbChain a)
def State.effSaveSize (s : State) (a : Nat) : Nat := effOwn 7 Rcb.saveSize 0 (s.rcbChain a)
def State.effLatency (s : State) (a : Nat) : Nat := effOwn 8 Rcb.latency 0 (s.rcbChain a)

/-- The NO_FIT check, once, at acceptance. -/
def fitsEver (s : State) (h : Header) (region : Nat) (base : Bool) : Bool :=
  decide (h.xarrays ≤ s.effArrays region) && decide (h.frameSize ≤ s.effSaveSize region)
  && (if base then h.fitsBase else decide (1 ≤ s.effSpindles region) && decide (h.granules ≤ 128))

/-! ## Acceptance (R63, R64) -/

/-- Launches that are accepted and not ENDED. -/
def State.liveLaunches (s : State) : List Launch := (s.launches.map Prod.snd).filter fun l => l.st != .ended

/-- What the checks of a launch find, once every byte they read can be read: none while they wait. -/
inductive Checked where
  | waits
  | fails (r : LaunchResult)
  | passes (h : Header) (bars : List Byte) (scheds : List (List Word))

/-- The checks in the order of R55. The record and the image come first; `region` says whether the chain is valid and permitted. -/
def checkLaunch (s : State) (r : LRecord) (recBytes : List Byte) (asid root : Nat) (region : Bool) (base : Bool) : Checked :=
  let va := r.image.toNat
  let denied := fun a n => s.vaDenied asid root a n .read
  if !recordOk recBytes then .fails .badRecord
  else if denied va 128 then .fails .badImage
  else if s.vaWaits asid root va 128 then .waits
  else
    match s.vaBytes asid root va 128 with
    | none => .fails .badImage
    | some hb =>
      let h := Header.ofBytes hb
      if !headerOk hb || denied (va + h.barOff) (32 * h.barCount) || denied (va + h.schedOff) h.schedSize then .fails .badImage
      else if s.vaWaits asid root (va + h.barOff) (32 * h.barCount) || s.vaWaits asid root (va + h.schedOff) h.schedSize then .waits
      else
        match s.vaBytes asid root (va + h.barOff) (32 * h.barCount), s.vaBytes asid root (va + h.schedOff) h.schedSize with
        | some bars, some sb =>
          (match barsOk bars h.barCount, schedules sb h.schedCount with
           | true, some scheds =>
             if !copiesFit r h then .fails .badRecord
             else if !region then .fails .badRegion
             else if !fitsEver s h r.region.toNat base then .fails .noFit
             else .passes h bars scheds
           | _, _ => .fails .badImage)
        | _, _ => .fails .badImage

/-- The checks of an accepted launch, where every byte they read can be read now; until then it stays as it was. Its region's blocks are read whatever
its record is, for its address space (DEDUCED, log 51), which is that of the moment of its checks: a later write of mmu.asrcb leaves it (DESIGN CHOICE,
log 71); EN, ROOT and PRIV are those of its acceptance where skeins use the space (R226). -/
def checkAccepted (acc : Nat) (s : State) : State :=
  match (s.launch acc).toCheck with
  | none => s
  | some o =>
    let r := LRecord.ofBytes o.addr o.bytes
    let s1 := s.knowRegion r.region.toNat
    let known := s1.chainOk r.region.toNat
    let l := s.launch acc
    let asid := if known then l.asidFor s1 (s1.rootOf r.region.toNat) else o.asid
    let sp := l.spaceOf s1 asid
    let allowed := match o.region with
      | none => true
      | some own => (s1.rcbChain r.region.toNat).any fun b => b.addr == own.toNat
    let put := fun (g : Launch → Launch) => s1.modLaunch acc fun l => g { l with asid, root := sp.root, priv := sp.priv, toCheck := none, kept := [] }
    match if chainWaits s 9 r.region.toNat then .waits
      else checkLaunch s1 r o.bytes asid sp.root (known && allowed) o.base.isSome with
    | .waits => s
    | .fails e => put fun l => { l with result := some e }
    | .passes h bars scheds =>
      put fun l =>
        { l with
          hdr := h, bars, scheds, ilk := decide (h.flags / 2 % 2 = 1) || BitVec.ofNat 64 h.stepping != s1.stepping
          st := if r.ndeps = 0 then .queued else .waiting }

/-- A launch accepted from an offer, whose checks follow at once where they can be made (R213). -/
def acceptOffer (o : Offer) (s : State) : State :=
  checkAccepted s.acceptCount ({ s with acceptCount := s.acceptCount + 1 }.setLaunch s.acceptCount
    { acc := s.acceptCount, lrec := LRecord.ofBytes o.addr o.bytes, base := o.base, toCheck := some o })

/-- Memory has become readable: the checks that waited for it are made, in acceptance order. -/
def State.checkWaiting (s : State) : State := (s.launches.map Prod.fst).foldl (fun s acc => checkAccepted acc s) s

/-- The result of an offer (R213). -/
def offerResult (acc : Nat) : Word := BitVec.ofNat 64 (0x80000000 + acc % 2 ^ 31)

/-- The writes of LAUNCH's results. -/
def Ctx.launchWrites (c : Ctx) (f : Fields) (rs : List (Nat × Word)) (st : Nat) : List RegWrite :=
  if c.dist || f.u then [wrAll f.d.toNat ((rs.headD (0, 0)).2)]
  else (rs.filter fun r => r.1 / 8 == st).map fun r => .v f.d.toNat r.1 (r.2.setWidth 32)

/-- How many offers an issue of LAUNCH makes in all. -/
def Ctx.offerCount (c : Ctx) (f : Fields) : Nat := if c.dist || f.u then 1 else c.active.length

/-- A result reaches the party of its offer; the last one ends its instruction. -/
def deliverResult (o : Offer) (val : Word) (s : State) : State :=
  match s.ctx? o.who with
  | none => s
  | some c =>
    match c.waitNow with
    | .launch f rs off =>
      let rs := rs ++ [(o.tid, val)]
      if c.offerCount f ≤ rs.length then c.finish f 0 (c.launchWrites f rs) (fun _ => 0) s
      else c.setWait .ready (.launch f rs off) s
    | _ => s

/-! ## The replay log of a system core (R372) -/

/-- The log records. -/
def SysCore.recording (k : SysCore) : Bool := k.rplCtl.getLsbD 63 && !k.rplCtl.getLsbD 62
/-- Payload bytes of the entries that software has not taken yet. -/
def payHeld (s : State) (ctl : Word) : Nat → Nat → Nat
  | 0, _ => 0
  | k + 1, i => fld (s.paRead (ringBase ctl + 32 * i + 8) 8) 32 24 + payHeld s ctl k (ringNext ctl i)

/-- Entries whose place in a log is taken before they are written: the result of a LAUNCH that has been offered. -/
def SysCore.owed (k : SysCore) : Nat := match k.wait with | .launch (some _) => 1 | _ => 0

/-- m entries with a payload of n bytes in all fit, beside those that are owed, in memory that can be reached (R382). -/
def State.logFits (s : State) (c m n : Nat) : Bool :=
  let k := s.core c
  let size := ringSize k.rplCtl
  let tail := k.rplTail % size
  let used := (k.rplHead + size - tail) % size
  let base := ringBase k.rplCtl
  decide (used + k.owed + m < size) && decide (payHeld s k.rplCtl used tail + n ≤ 256 * size)
  && ((List.range m).all fun i => s.reachable (base + 32 * ((k.rplHead + i) % size)))
  && (List.range n).all fun i => s.reachable (base + 32 * size + (k.rplPay + i) % (256 * size))

/-- Bytes written into the payload ring from a place on, wrapping. -/
def putRing (base size i : Nat) (l : List Byte) (s : State) : State :=
  let n := size - i % size
  (s.paPutBytes (base + i % size) (l.take n)).paPutBytes base (l.drop n)

/-- Writes an entry of a core's log: its kind, its last two words, and a payload. -/
def State.logPut (s : State) (c kind : Nat) (w2 w3 : Word) (pay : List Byte) : State :=
  let k := s.core c
  let a := ringBase k.rplCtl + 32 * k.rplHead
  let size := ringSize k.rplCtl
  let s := ((s.paWrite a 8 (ofN k.retired)).paWrite (a + 8) 8 (ofN (kind * 2 ^ 56 + pay.length * 2 ^ 32))).paWrite (a + 16) 8 w2
  let s := putRing (ringBase k.rplCtl + 32 * size) (256 * size) k.rplPay pay (s.paWrite (a + 24) 8 w3)
  s.modCore c fun k => { k with rplHead := ringNext k.rplCtl k.rplHead, rplPay := (k.rplPay + pay.length) % (256 * size) }

/-- An event that finds no room in the log of a core holds it until TAIL advances. -/
def State.logHolds (s : State) (c : Nat) : State := s.modCore c fun k => { k with rplHeld := true }

/-- The retired count and the kind of the entry that a replaying core comes to next. -/
def State.nextEntry (s : State) (c : Nat) : Nat × Nat :=
  let a := ringBase (s.core c).rplCtl + 32 * (s.core c).rplHead
  ((s.paRead a 8).toNat, fld (s.paRead (a + 8) 8) 56 8)

/-- A word that takes a logged result, one that reads a logged counter, and one that moves the log's TAIL. -/
def takesResult (i : Instr) : Bool := match i with | .launch _ => true | _ => false
def takesCounter (i : Instr) : Bool := match i with | .csrr f => f.csr == 0x0A04 | _ => false
def movesTail (i : Instr) : Bool := match i with | .csrw f => f.csr == 0x0A08 | _ => false

/-- HEAD has reached TAIL: no entry of a log is left. -/
def SysCore.logEmpty (k : SysCore) : Bool := k.rplHead == k.rplTail % ringSize k.rplCtl

/-- A replaying core stands at no logged count: the next entry is available, and belongs to a later one. -/
def State.betweenEntries (s : State) (c : Nat) : Bool :=
  let k := s.core c
  k.rplVal.isNone && !k.logEmpty && (s.nextEntry c).1 != k.retired

/-- The log lets a core run a word (R372). Recording, it is held by an event that does not fit, but may move TAIL, its own register. Replaying, it
waits for the next entry where none is available, which its own move of TAIL may bring, and at a logged count for what is to be delivered there, or
runs what takes it (DEDUCED, log 47). -/
def State.logLets (s : State) (c : Nat) (i : Instr) : Bool :=
  let k := s.core c
  if k.replaying then
    s.betweenEntries c
    || (if k.rplVal.isSome then takesCounter i
      else if k.logEmpty then movesTail i
      else (s.nextEntry c).2 == 2 && takesResult i)
  else !k.rplHeld || movesTail i

/-- A system core runs: it is there, a verified image runs (R384), the package is not in A4 (R375), and the core waits for no launch. -/
def State.coreRuns (s : State) (c : Nat) : Bool :=
  decide (c < s.nCores) && !s.a4 && s.boot == .running && (s.core c).wait == .none

/-- An interrupt that a core takes before its next word (R231, R372, R387). -/
def SysCore.interrupted (k : SysCore) : Bool := k.faultPend || k.netPend

/-- A pending interrupt comes before a word of the core, but not before the move of TAIL of a core that its log holds: the interrupt itself may be
what does not fit (R372; DEDUCED, log 47). -/
def State.interruptFirst (s : State) (c : Nat) (i : Instr) : Bool := (s.core c).interrupted && !((s.core c).rplHeld && movesTail i)

/-- A core may run a word now. -/
def State.coreReady (s : State) (c : Nat) (i : Instr) : Bool := s.coreRuns c && !s.interruptFirst c i && s.logLets c i

/-- A core takes its pending interrupts; a recording core logs that, or is held where the entry does not fit. What the entry to the interrupt does is
not in the spec (DESIGN CHOICE, log 5). -/
def State.takeInterrupt (s : State) (c : Nat) : State :=
  let k := s.core c
  let cause : Word := BitVec.ofNat 64 ((if k.faultPend then 1 else 0) + (if k.netPend then 2 else 0))
  let taken := fun (s : State) => s.modCore c fun k => { k with faultPend := false, netPend := false }
  if !k.recording then taken s else if s.logFits c 1 0 then taken (s.logPut c 0 cause 0 []) else s.logHolds c

/-- A core's offer has been answered: LAUNCH retires with its result, unless replay has the result still to deliver; a write of
sync.bsq retires. -/
def answerCore (c : Nat) (val : Word) (s : State) : State :=
  let k := s.core c
  match k.wait with
  | .launch (some d) =>
    if k.replaying then s
    else
      let s := if k.recording then s.logPut c 2 val 0 [] else s
      s.modCore c fun k => { k with wait := .none, gpr := sset k.gpr d val, retired := k.retired + 1 }
  | .launch none => s.modCore c fun k => { k with wait := .none, retired := k.retired + 1 }
  | .none => s

/-- The answer to an offer reaches whoever made it. -/
def answerOffer (o : Offer) (val : Word) (s : State) : State :=
  match o.who with
  | .core c => answerCore c val s
  | _ => deliverResult o val s

/-- The result of an offer goes into the log of its core, at a place the LAUNCH has found free, and the memory there cannot be reached now (R372,
R382). -/
def State.logBlocks (s : State) (o : Offer) : Bool :=
  match o.who with
  | .core c =>
    let k := s.core c
    k.recording && k.owed == 1 && !s.reachable (ringBase k.rplCtl + 32 * (k.rplHead % ringSize k.rplCtl))
  | _ => false

/-- The arbiter has room for one more launch (R64). -/
def State.arbiterRoom (s : State) : Bool := decide (s.liveLaunches.length < 4096)

/-- An offer can be answered: accepted, or with NW turned away by a full arbiter. -/
def State.answers (s : State) (o : Offer) : Bool := (s.arbiterRoom || o.nw) && !s.logBlocks o

/-- The arbiter takes the first offer that it can answer: it accepts the launch, or, full, answers 0 to one with NW, wherever that stands. -/
def execLaunchOfferAccepted (s : State) : Outcome State Fault Refusal :=
  match s.offers.find? s.answers with
  | none => .next s
  | some o =>
    let s' := { s with offers := s.offers.eraseP s.answers }
    .next (if s.arbiterRoom then answerOffer o (offerResult s.acceptCount) (acceptOffer o s') else answerOffer o 0 s')

/-! ## LAUNCH (R213 to R215) -/

/-- The offers of an issue: each with its thread and record address. -/
def Ctx.offerAddrs (c : Ctx) (f : Fields) : List (Nat × Word) :=
  if c.dist then [(0, c.rd1 f.a)]
  else if f.u then [((c.active.headD 0), c.rd1 f.a)]
  else c.active.map fun t => (t, c.rdVec true f.a.toNat t)

/-- The six 64-byte loads of a record. -/
def recordAccs (p : Nat × Word) : List ThreadAcc :=
  (List.range 6).map fun k => { tid := p.1, st := p.1 / 8, acc := { tid := p.1, addr := p.2 + BitVec.ofNat 64 (64 * k) } }

/-- The bytes of placed loads. -/
def placedBytes (s : State) (n : Nat) (ps : List Placed) : List Byte :=
  ps.flatMap fun p => match p.pieces.head? with
    | some (q, t) => (match t.place q.va with | some (pa, _) => s.paBytes pa n | none => [])
    | none => []

/-- LAUNCH of a ply or distaff: its checks, then its waits, then its record reads and offers. Of a thread's six loads the first that fails a check gives
the kind (DESIGN CHOICE, log 69). Offers that a pre-emption or a sibling's trap left unmade read their records again (DESIGN CHOICE, log 70). -/
def launchBody (i : Instr) (f : Fields) (c : Ctx) (s : State) : Eff :=
  let done := match c.waitNow with | .launch _ rs _ => rs | _ => []
  if !c.dist && c.active.isEmpty then .done (c.finish0 f s)
  else
    let todo := (c.offerAddrs f).drop done.length
    match todo.find? fun p => p.2.toNat % 64 != 0 with
    | some p => .trap { kind := .recAlign, elem := if c.dist || f.u then none else some p.1 }
    | none =>
      let ps := (todo.flatMap recordAccs).map (c.place s .global 64)
      let looked := c.fillMissing ps s
      match c.accTraps s .global .read 64 false ps with
      | some t => if t.kind.looksUp then .looked looked (.trap t) else .trap t
      | none =>
        if c.logBusy || c.requestPending s then .stall s
        else if anyFault ps then .looked looked (c.pageFault i 0 ps looked)
        else if anyUntrained s ps || anyUnlinked s ps || anyRetrains s ps then .stall s
        else
          let s := (c.fillAll ps s).hotLines (stackOf c.sp) (c.touchedLines .global ps)
          let os : List Offer := todo.map fun p =>
            { who := c.who, tid := p.1, addr := p.2, nw := f.m.getLsbD 0, base := none, region := some c.la.lrec.region, asid := c.la.asid,
              bytes := placedBytes s 64 (ps.filter fun q => q.u.tid == p.1) }
          .done (c.setWait .ready (.launch f done true) { s with offers := s.offers ++ os })

/-- LAUNCH; a system core gives the record's address in a general register, and waits while the record cannot be read (R382, R383), for ever beyond the
52 bits of physical addresses (DESIGN CHOICE, log 104). A recording core
is held before it offers, until its log has a place for the result (R372; DEDUCED, log 47).
With U set the word is the core's one form, for a core has no uniform one (DESIGN CHOICE, log 82). -/
def execLaunch (f : Fields) (s : State) : Outcome State Fault Refusal :=
  match s.cur with
  | .core n =>
    let k := s.core n
    let a := s.coreRd n f.a
    if k.stuck [f.d, f.a] then .next s
    else if !coreRegsOk [f.d] [f.a] then .next (s.coreTrap n (.launch f) .illegalField 6)
    else if a.toNat % 64 != 0 then .next (s.coreTrap n (.launch f) .recAlign 0)
    else if !s.readsAll a.toNat 384 then .next s
    else if k.recording && !s.logFits n 1 0 then .next (s.logHolds n)
    else
      let o : Offer := { who := .core n, tid := 0, addr := a, nw := f.m.getLsbD 0, base := none, region := none, asid := 0,
                         bytes := s.paBytes a.toNat 384 }
      .next ({ s with offers := s.offers ++ [o] }.modCore n fun k => { k with wait := .launch (some f.d.toNat) })
  | _ => guarded (.launch f) s (launchBody (.launch f))

/-! ## Dependences (R54) -/

/-- A record of a launch's own event access (R231). -/
def launchRec (l : Launch) (kind : Nat) (va : Word) : RingRec :=
  { va, word1 := ringWord1 kind l.asid 0xFFFF 0xFF 0xFF 0xFF 0xFF, info := 0 }

/-- A waiting launch reads one of its dependence events. A walk that ends in TABLE_FAULT fails the dependence, and writes no record (DESIGN CHOICE,
log 94). -/
def execDependenceObserved (acc k : Nat) (s : State) : Outcome State Fault Refusal :=
  match aget? s.launches acc with
  | none => .next s
  | some l =>
    let va := nth l.lrec.deps k 0
    if l.st != .waiting || l.result.isSome || l.lrec.ndeps ≤ k || nth l.depSeen k true || nth l.depAsleep k false then .next s
    else
      let fail := s.modLaunch acc fun l => { l with result := some .depFailed }
      if 2 ^ 56 ≤ va.toNat then .next fail
      else
        match translate s l.asid l.root va.toNat with
        | .wait => .next s
        | .table _ => .next fail
        | .notMapped x =>
          let s := if x.mig then s else s.ringPut (launchRec l 0 va)
          .next (s.modLaunch acc fun l => { l with depAsleep := modNth l.depAsleep k fun _ => true })
        | .page x =>
          match x.place va.toNat with
          | none => .next s
          | some (pa, a) =>
            if !a.r then .next fail
            else if !s.readable pa then .next s
            else
              let w := s.paRead pa 8
              if !w.getLsbD 63 then .next s
              else if fld w 0 32 != 0 then .next fail
              else
                let seen := modNth l.depSeen k fun _ => true
                let all := (seen.take l.lrec.ndeps).all id
                .next (s.modLaunch acc fun l => { l with depSeen := seen, st := if all then .queued else l.st })

/-! ## Outcomes (R53, R55) -/

/-- The code of an outcome. -/
def LaunchResult.code : LaunchResult → Nat
  | .doneOk => 0 | .badImage => 1 | .badRecord => 2 | .badRegion => 3 | .noFit => 4 | .depFailed => 5 | .ended => 6

/-- How an event stands for the write of an outcome. -/
inductive EventAt where
  | writable
  | waits
  | drops
  | missing (va : Nat) (x : Xlat)
deriving DecidableEq, Repr

/-- The first place of an event, which a record that fails its checks may put across two pages or two devices, at which it cannot be written. -/
def State.eventAt (s : State) (asid root va : Nat) : EventAt :=
  ((s.vaBlocks asid root 256 va 16).findSome? fun p =>
    match p.2 with
    | .wait => some .waits
    | .table _ => some .drops
    | .notMapped x => some (.missing p.1 x)
    | .page x =>
      match x.place p.1 with
      | none => some .waits
      | some (pa, a) => if !a.w then some .drops else if !s.reachable pa then some .waits else none).getD .writable

/-- Stores a word at a virtual address, piece by piece. -/
def State.vaWrite (s : State) (asid root va : Nat) (v : Word) : State :=
  (globalPieces va 8).foldl (fun t p =>
    match (translate s asid root p.va).place p.va with
    | none => t
    | some (pa, _) => t.paPutBytes pa (((natBytes 8 v.toNat).drop p.at_).take p.n)) s

/-- The outcome of a launch goes to its event, after the records of its skeins (R365): STAMP, then DONE with STATUS, two stores. DONE follows while `$time` is what STAMP says; where time has
gone on meanwhile STAMP is stored anew (R53; DEDUCED, log 13). -/
def execLaunchOutcomeWrite (acc : Nat) (s : State) : Outcome State Fault Refusal :=
  match aget? s.launches acc with
  | none => .next s
  | some l =>
    match l.result with
    | none => .next s
    | some r =>
      let va := l.lrec.done.toNat
      let ended := fun (s : State) => s.modLaunch acc fun l => { l with st := .ended }
      if l.st == .ended || l.outAsleep then .next s
      else if va = 0 then .next (ended s)
      else if s.strWait.any fun r => r.1 == acc then .next s
      else if 2 ^ 56 < va + 16 then .next (ended (s.ringPut (launchRec l 1 l.lrec.done)))
      else
        match s.eventAt l.asid l.root va with
        | .waits => .next s
        | .drops => .next (ended (s.ringPut (launchRec l 1 l.lrec.done)))
        | .missing a x =>
          let s := if x.mig then s else s.ringPut (launchRec l 1 (ofN a))
          .next (s.modLaunch acc fun l => { l with outAsleep := true })
        | .writable =>
          if l.stamped == some s.time then .next (ended (s.vaWrite l.asid l.root va (BitVec.ofNat 64 (2 ^ 63 + r.code))))
          else .next ((s.vaWrite l.asid l.root (va + 8) (ofN s.time)).modLaunch acc fun l => { l with stamped := some s.time })

end Sys2Proof.Machine
end

