-- ==== Sys2Proof/Machine/Place.lean ====
section
/-! DEFINITION. Placing skeins: what fits where (R48, R70, R224, R354, R390), the start of a skein (R47, R72, R73), dealing (R66),
dispatch (R68, R69, R71), theft (R77), deterministic and base-spindle placement (R80, R391), and retirement (R364). -/

namespace Sys2Proof.Machine

open Host (Outcome)

/-! ## What is in use -/

/-- Bytes of the scratchpad of a spindle. -/
def scratchBytes (sp : Nat) : Nat := if isBase sp then 65536 else 393216

/-- A frame's effective limit (R75). -/
def Frame.limit (f : Frame) : Nat := min f.plimit f.swcap

/-- Resident threads of a spindle. -/
def State.threadsOn (s : State) (sp : Nat) : Nat :=
  ((s.spindle sp).residents.map fun p => (s.launch p.2.launch).hdr.plies * (s.launch p.2.launch).width).sum

/-- Sum over the resident skeins of a spindle of something of their headers. -/
def State.sumOn (s : State) (sp : Nat) (g : Header → Nat) : Nat :=
  ((s.spindle sp).residents.map fun p => g (s.launch p.2.launch).hdr).sum

/-- Scratchpad ranges that are held on a spindle, by resident and pre-empted skeins. -/
def State.rangesOn (s : State) (sp : Nat) : List (Nat × Nat) :=
  (s.spindle sp).holders.map fun k => (k.scrBase, k.scrBase + (s.launch k.launch).hdr.scratch)

/-- A range of n bytes from a place is free. -/
def rangeFree (taken : List (Nat × Nat)) (lo n : Nat) : Bool := taken.all fun t => decide (t.2 ≤ lo) || decide (lo + n ≤ t.1)

/-- The first place, in units of a granule from a start, with n free bytes below an end. -/
def firstFit (taken : List (Nat × Nat)) (start granule n end_ : Nat) : Option Nat :=
  let cand := start :: taken.map fun t => start + (t.2 - start + granule - 1) / granule * granule
  (cand.filter fun lo => decide (lo + n ≤ end_) && rangeFree taken lo n).min?

/-- Save-area frames that are taken, wherever their skeins are. -/
def State.framesTaken (s : State) : List (Nat × Nat) := s.allSkeins.map fun p => (p.2.frameAt, p.2.frameAt + p.2.frameLen)

/-- A free frame for a launch in its region's save area (R354). -/
def State.saveFrame (s : State) (l : Launch) : Option Nat :=
  let r := l.lrec.region.toNat
  firstFit s.framesTaken (s.effSaveArea r) 4096 l.hdr.frameSize (s.effSaveArea r + s.effSaveSize r)

/-- Arrays of a spindle allotted to exactly a region and not held (R283). -/
def State.freeArrays (s : State) (sp region : Nat) : List Nat :=
  let x := s.spindle sp
  let held := x.holders.flatMap fun k => k.arrays
  (x.aown.filter fun p => p.2.toNat == region && region != 0 && !held.contains p.1).map Prod.fst

/-- Private-area numbers that are free on a spindle (R224). -/
def State.freePrivates (s : State) (sp : Nat) : List Nat :=
  let taken := (s.spindle sp).holders.flatMap fun k => k.plies.filterMap fun p => p.privNum
  (List.range 64).filter fun n => !taken.contains n

/-- A region is another or lies beneath it. -/
def State.under (s : State) (r g : Nat) : Bool := (s.rcbChain r).any fun b => b.addr == g

/-- The skein counts against a region's budgets. -/
def State.countsFor (s : State) (k : Skein) (g : Nat) : Bool := s.under (s.launch k.launch).lrec.region.toNat g

/-- A region, counted upward, holds a resident skein on a spindle. -/
def State.holdsOn (s : State) (g sp : Nat) : Bool := (s.spindle sp).residents.any fun p => s.countsFor p.2 g

/-- Compute-die spindles on which a region holds skeins, and arrays it holds. -/
def State.spindlesHeld (s : State) (g : Nat) : Nat := (s.spindles.filter fun p => !isBase p.1 && s.holdsOn g p.1).length
def State.arraysHeld (s : State) (g : Nat) : Nat := ((s.allSkeins.filter fun p => s.countsFor p.2 g).map fun p => p.2.arrays.length).sum

/-- The budgets of a region and of every ancestor have room (R59, R70). From the moment when one is lowered below its use until use falls below it
nothing is placed, whatever R70 says (R82). -/
def State.budgetOk (s : State) (region sp xarrays : Nat) : Bool :=
  (s.rcbChain region).all fun b =>
    !b.lowSpindles && !b.lowArrays
    && (s.holdsOn b.addr sp || decide (s.spindlesHeld b.addr + 1 ≤ s.effSpindles b.addr))
    && decide (s.arraysHeld b.addr + xarrays ≤ s.effArrays b.addr)

/-- Use has fallen below some lowered budgets: placement waits for them no longer, whatever use does later (R82; DEDUCED, log 84). -/
def State.unlower (s : State) : State :=
  { s with rcbs := s.rcbs.map fun (b : Rcb) =>
      { b with lowSpindles := b.lowSpindles && decide (s.effSpindles b.addr ≤ s.spindlesHeld b.addr)
               lowArrays := b.lowArrays && decide (s.effArrays b.addr ≤ s.arraysHeld b.addr) } }

/-- Budgets that a sync has lowered below their use, from the state before it (R82). -/
def State.lowered (s old : State) : State :=
  { s with rcbs := s.rcbs.map fun (b : Rcb) =>
      let n := s.effSpindles b.addr
      let m := s.effArrays b.addr
      { b with lowSpindles := b.lowSpindles || (decide (n < old.effSpindles b.addr) && decide (n < s.spindlesHeld b.addr))
               lowArrays := b.lowArrays || (decide (m < old.effArrays b.addr) && decide (m < s.arraysHeld b.addr)) } }

/-- ctl.rcbsync (R60): a block that has been read is read again, but for its parent; where it or its chain then breaks R58, or no launch has named it,
nothing changes. A block beyond the physical addresses keeps the write waiting, as in a package without a link (DESIGN CHOICE, log 104). -/
def writeRcbsync (v : Word) (s : State) : State :=
  let a := v.toNat
  if fld v 0 6 != 0 || fld v 56 8 != 0 then s
  else
    match s.rcb? a with
    | none => s
    | some old =>
      let new := { s.readRcb a with parent := old.parent, lowSpindles := old.lowSpindles, lowArrays := old.lowArrays }
      let s' := { s with rcbs := s.rcbs.map fun (x : Rcb) => if x.addr == a then new else x }
      if s'.chainOk a then (s'.lowered s).unlower else s

/-- The schedules of a launch fit beside those of the launches already there (R48). -/
def State.schedFits (s : State) (sp : Nat) (l : Launch) : Bool :=
  let accs := ((s.spindle sp).residents.map fun p => p.2.launch).eraseDups
  accs.contains l.acc || decide ((accs.map fun a => (s.launch a).hdr.schedSize).sum + l.hdr.schedSize ≤ 4096)

/-- A spindle takes placements: nothing holds it, and no pre-empted skein waits to resume there (R78, R351). -/
def Spindle.takes (x : Spindle) : Bool := !x.swHold && !x.pwrHold && x.saved.isEmpty

/-- Private numbers and a save-area frame can be had. -/
def State.commonFit (s : State) (sp : Nat) (l : Launch) : Bool :=
  (l.hdr.priv == 0 || decide (l.hdr.plies ≤ (s.freePrivates sp).length)) && (s.saveFrame l).isSome && (s.spindle sp).takes

/-- A skein of a launch fits a compute-die spindle (R70). -/
def State.fits (s : State) (sp acc idx : Nat) : Bool :=
  let l := s.launch acc
  let h := l.hdr
  let f := s.frame (sp / 16)
  let x := s.spindle sp
  f.st == 0 && !f.gating && s.cdie.getLsbD (sp / 64)
  && decide (x.residents.length < 4) && decide (s.sumOn sp Header.plies + h.plies ≤ 32)
  && decide (s.threadsOn sp + h.plies * h.width ≤ 512) && decide (s.sumOn sp Header.granules + h.granules ≤ 128)
  && (firstFit (s.rangesOn sp) 0 64 h.scratch (scratchBytes sp)).isSome && decide (s.sumOn sp Header.tiles + h.tiles ≤ 16)
  && decide (h.xarrays ≤ (s.freeArrays sp l.lrec.region.toNat).length) && s.schedFits sp l
  && decide (s.residentIn (sp / 16) < f.limit) && s.budgetOk l.lrec.region.toNat sp h.xarrays
  && (match f.resv with | some (r, a, i) => r != sp || (a == acc && i == idx) | none => true)
  && s.commonFit sp l

/-- A skein of a launch fits a base spindle (R390). -/
def State.fitsOnBase (s : State) (sp acc : Nat) : Bool :=
  let l := s.launch acc
  s.spindlePresent sp && (s.spindle sp).residents.isEmpty && l.hdr.fitsBase && s.commonFit sp l

/-! ## The start of a skein (R47) -/

/-- Slots of a spindle's strands. -/
def slotCount (sp : Nat) : Nat := if isBase sp then 2 else 8

/-- Slots that a ply of width W takes (R74). -/
def footprint (w : Nat) : Nat := min (w / 8) 8

/-- Two home groups share a slot. -/
def groupsMeet (a na b nb : Nat) : Bool := decide (a < b + nb) && decide (b < a + na)

/-- A home group for one ply, given those already there: the aligned group that the fewest share, the lowest among equals (R73). -/
def homeFor (sp w : Nat) (there : List (Nat × Nat)) : Nat :=
  let n := footprint w
  let shared := fun g => (there.filter fun t => groupsMeet g n t.1 t.2).length
  let gs := (List.range (slotCount sp / n)).map (· * n)
  gs.foldl (fun best g => if shared g < shared best then g else best) 0

/-- Home groups for a number of plies in order. -/
def homesGo (sp w : Nat) : Nat → List (Nat × Nat) → List Nat
  | 0, _ => []
  | k + 1, there => let g := homeFor sp w there; g :: homesGo sp w k (there ++ [(g, footprint w)])

/-- The home groups on a spindle. -/
def State.homesOn (s : State) (sp : Nat) : List (Nat × Nat) :=
  (s.spindle sp).residents.flatMap fun p => p.2.plies.map fun y => (y.home, footprint (s.launch p.2.launch).width)

/-- A ply at its start. -/
def startPly (l : Launch) (idx home : Nat) (priv : Option Nat) : Ply :=
  let data := l.lrec.image + BitVec.ofNat 64 l.hdr.dataOff
  let strands := List.range (l.width / 8)
  let put := fun (m : Sparse 64) (r : Nat) (v : Word) => strands.foldl (fun m st => sset m (16 * r + st) v) m
  { s := put (put (put [] 0 l.lrec.args) 1 data) 2 (ofN idx)
    exm := allThreads l.width
    paths := { valid := true, pc := l.lrec.image + BitVec.ofNat 64 l.hdr.plyOff, strands := allStrands l.width } :: List.replicate 15 {}
    pos := List.replicate 16 0, hpos := List.replicate 16 0, stage := List.replicate 16 0, home, privNum := priv }

/-- A skein at its start. -/
def startSkein (s : State) (sp : Nat) (l : Launch) (idx uid : Nat) : Skein :=
  let data := l.lrec.image + BitVec.ofNat 64 l.hdr.dataOff
  let homes := homesGo sp l.width l.hdr.plies (s.homesOn sp)
  let privs := s.freePrivates sp
  { uid, launch := l.acc, index := idx
    dist := { d := sset (sset (sset (sset [] 0 l.lrec.args) 1 data) 2 (ofN idx)) 3 l.lrec.addr
              pc := l.lrec.image + BitVec.ofNat 64 l.hdr.distOff }
    plies := (List.range l.hdr.plies).map fun p =>
      startPly l idx (nth homes p 0) (if l.hdr.priv = 0 then none else some (nth privs p 0))
    scrBase := (firstFit (s.rangesOn sp) 0 64 l.hdr.scratch (scratchBytes sp)).getD 0
    scratch := sputBytes [] 0 l.bars
    tiles := List.replicate 16 {}
    rowMap := startMap, colMap := startMap
    arrays := (s.freeArrays sp l.lrec.region.toNat).take l.hdr.xarrays
    frameAt := (s.saveFrame l).getD 0, frameLen := l.hdr.frameSize }

/-- Something about a frame's residents or queue changed: were it idle, it is so from now (R375). -/
def State.touchFrame (s : State) (n : Nat) : State := s.modFrame n fun f => { f with idleSince := s.time }

/-- A skein becomes resident in the lowest free slot, and its launch runs (R63, R71, R72). -/
def State.placeSkein (s : State) (sp acc idx : Nat) : State :=
  let l := s.launch acc
  let x := s.spindle sp
  match (List.range 4).find? fun i => (nth x.slots i none).isNone with
  | none => s
  | some slot =>
    let (uid, s) := s.fresh
    let s := s.setSkein sp slot (some (startSkein s sp l idx uid))
    let s := s.modLaunch acc fun l =>
      { l with placed := l.placed + 1, st := if l.placed + 1 = l.lrec.skeins then .draining else .running }
    let s := if isBase sp then s else s.touchFrame (sp / 16)
    s.releaseStatic sp slot

/-! ## Dealing (R66, R67) -/

/-- The launch is dealt to frames: it is neither deterministic nor bound to a base spindle. -/
def Launch.isDealt (l : Launch) : Bool := !l.det && l.base.isNone

/-- The skeins of the chunks that a frame gets, ascending. -/
def dealtTo (acc n ptr frames j : Nat) : List (Nat × Nat) :=
  ((List.range ((n + 3) / 4)).filter fun c => (ptr + c) % frames == j).flatMap fun c =>
    ((List.range 4).map fun i => (acc, 4 * c + i)).filter fun p => decide (p.2 < n)

def execDealSkeins (acc : Nat) (s : State) : Outcome State Fault Refusal :=
  match aget? s.launches acc with
  | none => .next s
  | some l =>
    let fs := (List.range s.nFrames).filter fun n => (s.frame n).limit != 0
    if l.st != .queued || l.dealt || l.result.isSome || !l.isDealt || fs.isEmpty then .next s
    else
      let n := l.lrec.skeins
      let s1 := (List.range fs.length).foldl (fun s' j =>
        let q := dealtTo acc n s.dealPtr fs.length j
        if q.isEmpty then s'
        else (s'.modFrame (nth fs j 0) fun f => { f with queue := f.queue ++ q }).touchFrame (nth fs j 0)) s
      .next ({ s1 with dealPtr := (s.dealPtr + (n + 3) / 4) % fs.length }.modLaunch acc fun l => { l with dealt := true })

/-! ## Choosing (R68, R71) -/

/-- Launches of a frame's queue, and the head and tail skein of each (R67). -/
def Frame.accs (f : Frame) : List Nat := (f.queue.map Prod.fst).eraseDups
def Frame.head (f : Frame) (acc : Nat) : Option Nat := (f.queue.find? fun p => p.1 == acc).map Prod.snd
def Frame.tail (f : Frame) (acc : Nat) : Option Nat := (f.queue.reverse.find? fun p => p.1 == acc).map Prod.snd

/-- Spindles of a frame that a skein fits. -/
def State.fitting (s : State) (frame acc idx : Nat) : List Nat :=
  ((List.range 16).map (16 * frame + ·)).filter fun sp => s.fits sp acc idx

/-- The order of R71 between two spindles for a region: a is taken before b. -/
def State.before (s : State) (region a b : Nat) : Bool :=
  let ha := s.holdsOn region a
  let hb := s.holdsOn region b
  if ha != hb then ha
  else if s.threadsOn a != s.threadsOn b then decide (s.threadsOn a < s.threadsOn b)
  else decide (a < b)

/-- The spindle of R71. -/
def State.bestSpindle (s : State) (frame acc idx : Nat) : Option Nat :=
  let region := (s.launch acc).lrec.region.toNat
  match s.fitting frame acc idx with
  | [] => none
  | sp :: l => some (l.foldl (fun best x => if s.before region x best then x else best) sp)

/-- Effective priority and weight of a launch's region. -/
def State.prioOf (s : State) (acc : Nat) : Nat := s.effPriority (s.launch acc).lrec.region.toNat
def State.regionOf (s : State) (acc : Nat) : Nat := (s.launch acc).lrec.region.toNat

/-- A region's credit in a frame at a level. -/
def Frame.creditOf (f : Frame) (level region : Nat) : Int :=
  ((f.credit.find? fun c => c.1 == level && c.2.1 == region).map fun c => c.2.2).getD 0

def setCredit (level region : Nat) (v : Int) (l : List (Nat × Nat × Int)) : List (Nat × Nat × Int) :=
  l.filter (fun c => !(c.1 == level && c.2.1 == region)) ++ [(level, region, v)]

/-- The three stages of R68 over the launches with a candidate: the launch chosen, and the credits afterwards. -/
def State.choose (s : State) (f : Frame) (accs : List Nat) : Option (Nat × List (Nat × Nat × Int)) :=
  match (accs.map s.prioOf).max? with
  | none => none
  | some level =>
    let here := accs.filter fun a => s.prioOf a == level
    let regions := (here.map s.regionOf).eraseDups
    let total := (regions.map fun g => (s.effSpindles g : Int)).sum
    let raised := regions.map fun g => (g, f.creditOf level g + (s.effSpindles g : Int))
    match raised with
    | [] => none
    | r :: l =>
      let pick := l.foldl (fun best x => if best.2 < x.2 || (best.2 == x.2 && decide (x.1 < best.1)) then x else best) r
      let credit := raised.foldl (fun c x => setCredit level x.1 (if x.1 == pick.1 then x.2 - total else x.2) c) f.credit
      ((here.filter fun a => s.regionOf a == pick.1).min?).map fun a => (a, credit)

/-- An earlier deterministic launch of the same region has skeins still to place (R80); one whose checks still wait may turn out to be such. -/
def State.detBehind (s : State) (l : Launch) : Bool :=
  s.launches.any fun p =>
    let e := p.2
    e.base.isNone && e.lrec.region == l.lrec.region && decide (e.acc < l.acc) && e.result.isNone && e.st != .ended
    && (e.toCheck.isSome || (e.det && decide (e.placed < e.lrec.skeins)))

/-- A deterministic launch has a skein to place now. -/
def State.detReady (s : State) (l : Launch) : Bool :=
  l.det && l.base.isNone && l.result.isNone && (l.st == .queued || l.st == .running) && decide (l.placed < l.lrec.skeins) && !s.detBehind l

/-- The first frame with a spindle that the next skein of a deterministic launch fits. -/
def State.detFrame (s : State) (l : Launch) : Option Nat :=
  (List.range s.nFrames).find? fun n => !(s.fitting n l.acc l.placed).isEmpty

/-- The launches with a candidate in a frame: queued ones whose head fits, and deterministic ones whose next skein fits, which take part as if they
were queued at every frame (R80). -/
def State.candidates (s : State) (frame : Nat) : List Nat :=
  let f := s.frame frame
  let q := f.accs.filter fun a => match f.head a with | some i => !(s.fitting frame a i).isEmpty | none => false
  let d := (s.launches.map Prod.snd).filter fun l => s.detReady l && !(s.fitting frame l.acc l.placed).isEmpty
  q ++ d.map fun l => l.acc

/-- The head that has starved longest of those that have failed so often; of two that began together the one whose launch stands first in the queue
(R69; DESIGN CHOICE, log 67). -/
def starved (fails : List (Nat × Nat × Nat)) : Option (Nat × Nat × Nat) :=
  (fails.filter fun x => decide (64 ≤ x.2.2)).foldl (fun b x => match b with
    | none => some x
    | some y => if y.2.2 < x.2.2 then some x else some y) none

/-- A decision's bookkeeping for heads that do not fit (R69): their counts, and the reservation. -/
def State.starveStep (s : State) (frame : Nat) : State :=
  let f := s.frame frame
  let resv := f.resv.filter fun r => f.head r.2.1 == some r.2.2
  let s := s.setFrame frame { f with resv := resv }
  let fails := f.accs.filterMap fun a =>
    match f.head a with
    | some i =>
      if !(s.fitting frame a i).isEmpty then none
      else
        let old := ((f.starve.find? fun x => x.1 == a && x.2.1 == i).map fun x => x.2.2).getD 0
        some (a, i, old + 1)
    | none => none
  let resv := match resv with
    | some r => some r
    | none =>
      (match starved fails with
       | none => none
       | some x =>
         let sps := (List.range 16).map (16 * frame + ·)
         let best := sps.foldl (fun b sp => if s.threadsOn sp < s.threadsOn b then sp else b) (16 * frame)
         some (best, x.1, x.2.1))
  s.modFrame frame fun f => { f with starve := fails, resv := resv }

/-- A skein leaves a frame's queue, and with it the reservation that it had there (R69). -/
def Frame.leave (f : Frame) (q : Nat × Nat) : Frame :=
  { f with queue := f.queue.erase q, resv := if f.resv.any (fun r => r.2 == q) then none else f.resv }

/-- A frame's dispatcher makes a decision: it places at most one head skein. The skeins of deterministic launches take part in the
choice, and are placed by the arbiter: a decision that falls on one places nothing, and leaves the frame's credits as they were (DESIGN CHOICE,
log 79). -/
def execDispatchDecision (frame : Nat) (s : State) : Outcome State Fault Refusal :=
  if s.nFrames ≤ frame then .fault .noSuchUnit
  else
    let f := s.frame frame
    if f.st != 0 || f.gating || s.time < f.decideAt + 50 then .next s
    else
      let s := (s.modFrame frame fun f => { f with decideAt := s.time }).starveStep frame
      let f := s.frame frame
      match s.choose f (s.candidates frame) with
      | none => .next s
      | some (acc, credit) =>
        match f.head acc with
        | none => .next s
        | some idx =>
          match s.bestSpindle frame acc idx with
          | none => .next s
          | some sp =>
            let s := s.modFrame frame fun f => { f.leave (acc, idx) with credit := credit }
            .next (s.placeSkein sp acc idx)

/-- The arbiter places the next skein of a deterministic launch on the first frame that fits it, when R68 chooses it there. -/
def execDeterministicPlace (acc : Nat) (s : State) : Outcome State Fault Refusal :=
  match aget? s.launches acc with
  | none => .next s
  | some l =>
    if !s.detReady l then .next s
    else
      match s.detFrame l with
      | none => .next s
      | some frame =>
        match s.choose (s.frame frame) (s.candidates frame), s.bestSpindle frame acc l.placed with
        | some (a, credit), some sp =>
          if a == acc then .next ((s.modFrame frame fun f => { f with credit := credit }).placeSkein sp acc l.placed) else .next s
        | _, _ => .next s

/-- The next skein of a sync.bsq launch goes to its base spindle, into slot 0. -/
def execBaseSpindlePlace (acc : Nat) (s : State) : Outcome State Fault Refusal :=
  match aget? s.launches acc with
  | none => .next s
  | some l =>
    match l.base with
    | none => .next s
    | some sp =>
      if l.result.isSome || !(l.st == .queued || l.st == .running) || l.lrec.skeins ≤ l.placed || !s.fitsOnBase sp acc then .next s
      else .next (s.placeSkein sp acc l.placed)

/-! ## Theft (R77) -/

/-- A spindle is idle and may ask. Of the candidates that R77 speaks of, only the heads of the frame's queues keep it from that, not the next skein of a
deterministic launch (DESIGN CHOICE, log 80). -/
def State.mayAsk (s : State) (sp : Nat) : Bool :=
  let x := s.spindle sp
  let n := sp / 16
  let f := s.frame n
  decide (x.residents.length < 4) && x.takes && f.st == 0 && !f.gating && decide (s.residentIn n < f.limit)
  && (match f.resv with | some r => r.1 != sp | none => true)
  && !(f.accs.any fun a => match f.head a with | some i => s.fits sp a i | none => false)
  && x.steal.isNone && decide (x.stealAt ≤ s.time)

/-- An idle spindle sends a request; which frame its sequence names is free (DESIGN CHOICE, log 23). -/
def execStealRequest (sp victim : Nat) (s : State) : Outcome State Fault Refusal :=
  if !s.computeSpindle sp || s.nFrames ≤ victim then .fault .noSuchUnit
  else if victim == sp / 16 || !s.mayAsk sp then .next s
  else .next (s.modSpindle sp fun x => { x with steal := some victim })

/-- The victim's queue engine offers the tail of the launch that R68 chooses. -/
def execStealAnswer (sp : Nat) (s : State) : Outcome State Fault Refusal :=
  if !s.computeSpindle sp then .fault .noSuchUnit
  else
    match (s.spindle sp).steal with
    | none => .next s
    | some v =>
      let f := s.frame v
      let empty := s.modSpindle sp fun x => { x with steal := none, stealAt := s.time + 1000 }
      match s.choose f f.accs with
      | none => .next empty
      | some (acc, _) =>
        match f.tail acc with
        | none => .next empty
        | some idx =>
          if !s.fits sp acc idx then .next empty
          else
            let s := s.modSpindle sp fun x => { x with steal := none }
            let s := (s.modFrame v fun f => f.leave (acc, idx)).touchFrame v
            .next (s.placeSkein sp acc idx)

/-! ## Retirement (R364) -/

/-- A slot is given up. -/
def Spindle.vacate (x : Spindle) (slot : Nat) : Spindle := { x with slots := modNth x.slots slot fun _ => none }

/-- Everything that R364 waits for has happened. -/
def State.mayRetire (s : State) (sp : Nat) (k : Skein) : Bool :=
  let w := (s.launch k.launch).width
  let x := s.spindle sp
  k.dist.exited && k.plies.all (fun p => p.gone w)
  && k.dist.sideLog.isEmpty && k.plies.all (fun p => p.sideLog.isEmpty)
  && k.dist.defs.isEmpty && k.plies.all (fun p => p.defs.isEmpty)
  && (x.cq.all fun q => q.all fun c => c.uid != k.uid) && (x.mq.all fun c => c.uid != k.uid)
  && k.statWait.isEmpty && (x.xq.all fun c => c.uid != k.uid) && (x.xheld.all fun c => c.uid != k.uid)
  && s.reqs.all (fun r => r.uid != k.uid || r.arrived)

/-- A skein retires: its epochs close, its resources are free, and with the last one its launch has an outcome. -/
def execSkeinRetire (sp slot : Nat) (s : State) : Outcome State Fault Refusal :=
  match s.skein? sp slot with
  | none => .next s
  | some k =>
    if !s.mayRetire sp k then .next s
    else
      let end_ := if k.life == .ended then 2 else 1
      let s := (List.range 16).foldl (fun s t => s.stampClose sp slot t end_) s
      let s := ((s.keepLast sp slot).modSpindle sp fun x => x.vacate slot).unlower
      let s := { s with reqs := s.reqs.filter fun r => r.uid != k.uid }
      let s := s.modLaunch k.launch fun l =>
        { l with retired := l.retired + 1
                 result := if l.retired + 1 = l.lrec.skeins then some (if l.anyEnded then .ended else .doneOk) else l.result }
      .next (if isBase sp then s else s.touchFrame (sp / 16))

end Sys2Proof.Machine
end

