-- ==== Sys2Proof/Machine/Preempt.lean ====
section
/-! DEFINITION. Pre-emption (R351 to R355): the holds of pre.ctl, how the parties of a skein stop, saving and resuming its context,
remote values that are late (R352), and the end of gating (R357). -/

namespace Sys2Proof.Machine

open Host (Outcome)

/-! ## Stopping (R352) -/

/-- The distaff stops at its boundary: a wait that has taken nothing is left, an abandoned access is made again on resume. -/
def Dist.halt (d : Dist) : Dist := { d with wait := keptWait d.wait, held := none }

/-- The paths of a ply stop. -/
def Ply.halt (p : Ply) : Ply := { p with paths := p.paths.map Path.leaveWait, held := none }

/-- An open epoch notes the pre-emption (R366). -/
def Tile.markPre (t : Tile) : Tile := { t with epoch := t.epoch.map fun e => { e with pre := true } }

/-- A pre-emption, of pre.ctl or of the power controller, reaches a skein: its parties stop, and its offers leave the arbiter. -/
def State.stopSkein (s : State) (byCtl : Bool) (sp slot : Nat) : State :=
  match s.skein? sp slot with
  | none => s
  | some k =>
    if k.pre != .no then s.setSkein sp slot (some { k with preCtl := k.preCtl || byCtl })
    else
      let k := { k with pre := .stopping, preAt := s.time, preCtl := byCtl, dist := k.dist.halt, plies := k.plies.map Ply.halt, tiles := k.tiles.map Tile.markPre }
      { s.setSkein sp slot (some k) with
        offers := s.offers.filter fun o => !inSlot o.who sp slot }

/-- Every resident skein of a spindle. -/
def State.stopSpindle (s : State) (byCtl : Bool) (sp : Nat) : State := (List.range 4).foldl (fun s slot => s.stopSkein byCtl sp slot) s

/-! ## pre.ctl (R351) -/

/-- The spindles in the scope of a value. -/
def State.scopeSpindles (s : State) (scope sp : Nat) : List Nat :=
  if isBase sp || scope < 2 then [sp]
  else
    let n := if scope = 2 then 16 else 64
    ((List.range n).map (sp / n * n + ·)).filter s.spindlePresent

/-- A pre-emption by pre.ctl is not saved yet; those of the power controller are no operation of its. -/
def State.preBusy (s : State) : Bool :=
  s.spindles.any fun p => (p.2.residents.any fun q => q.2.pre != .no && q.2.preCtl) || p.2.saved.any fun v => !v.written && v.sk.preCtl

/-- A write of pre.ctl by a system core; none where SPINDLE names no present spindle, which is UNIT_ABSENT. -/
def writePreCtl (v : Word) (s : State) : Option State :=
  let sp := fld v 8 9
  let scope := fld v 56 2
  if !s.spindlePresent sp then none
  else if s.preBusy then some s
  else
    let s := { s with preScope := BitVec.ofNat 2 scope, preSpindle := BitVec.ofNat 9 sp, preSlot := BitVec.ofNat 2 (fld v 0 2) }
    let sps := s.scopeSpindles scope sp
    match fld v 62 2 with
    | 1 =>
      let s := sps.foldl (fun s q => s.modSpindle q fun x => { x with swHold := true }) s
      some (if scope = 0 then s.stopSkein true sp (if isBase sp then 0 else fld v 0 2) else sps.foldl (fun s q => s.stopSpindle true q) s)
    | 2 => some (sps.foldl (fun s q => s.modSpindle q fun x => { x with swHold := false }) s)
    | _ => some s

/-! ## Values on their way (R352) -/

/-- The operation that a wait is for, when it is a remote one. -/
def remoteOp? (w : Wait) : Option (Fields × Bool × Nat) :=
  match w with
  | .remote f scalar op => some (f, scalar, op)
  | _ => none

/-- Every remote operation that a party of a skein waits for, set-aside parties included. -/
def Skein.remoteWaits (k : Skein) : List (Fields × Bool × Nat) :=
  (k.dist.wait :: k.dist.trap.wait :: k.plies.flatMap fun p => (p.paths ++ p.trap.paths).map fun e => e.wait).filterMap remoteOp?

/-- The threads that an operation's values are for, with values still to come. -/
def State.valuesOf (s : State) (op : Nat) : List (Nat × Word) := reqValues (s.reqs.filter fun r => r.op == op)

/-- The register writes that an operation's values will make. -/
def pendingWrites (dist scalar : Bool) (f : Fields) (vals : List (Nat × Word)) (st : Nat) : List RegWrite :=
  (vals.filter fun v => v.1 / 8 == st).flatMap fun v =>
    if scalar || dist then [wrAll f.d.toNat 0] else vecWrites (f.ty.bits == 64) f.d.toNat v.1 0

/-- A path's entry of an operation among its ply's deferred writes; the path goes on after its instruction. -/
def saveEntry (l : Launch) (s : State) (sel : Nat → Bool) (p : Ply) (e : Path) : Ply × Path :=
  match remoteOp? e.wait with
  | none => (p, e)
  | some (f, scalar, op) =>
    if !sel op then (p, e)
    else
      let la := if l.ilk || p.trap.mode then 0 else f.la.toNat
      ((strandList e.strands).foldl (fun p st => p.write st la op (pendingWrites false scalar f (s.valuesOf op) st) 0) p,
       { e with pc := e.pc + Fields.size f, st := .ready, wait := .none })

/-- The same for every entry of a table. -/
def saveEntries (l : Launch) (s : State) (sel : Nat → Bool) : Ply → List Path → Ply × List Path
  | p, [] => (p, [])
  | p, e :: es =>
    let r := saveEntry l s sel p e
    let q := saveEntries l s sel r.1 es
    (q.1, r.2 :: q.2)

/-- Out of handler mode, and back. -/
def Ply.setMode (p : Ply) (b : Bool) : Ply := { p with trap := { p.trap with mode := b } }
def Dist.setMode (d : Dist) (b : Bool) : Dist := { d with trap := { d.trap with mode := b } }

/-- A ply's waiting paths, and those a trap has set aside, go on without the selected values, which become pending writes. -/
def Ply.savePending (l : Launch) (s : State) (sel : Nat → Bool) (p : Ply) : Ply :=
  let live := saveEntries l s sel p p.paths
  let p := { live.1 with paths := live.2 }
  if !p.trap.mode then p
  else
    let set := saveEntries l s sel (p.setMode false) p.trap.paths
    let e := nth p.trap.paths p.trap.path {}
    let epc := if e.pc == p.trap.epc then (nth set.2 p.trap.path {}).pc else p.trap.epc
    ({ set.1 with trap := { set.1.trap with paths := set.2, epc := epc } }).setMode true

/-- A distaff's. -/
def Dist.savePending (l : Launch) (s : State) (sel : Nat → Bool) (d : Dist) : Dist :=
  let go := fun (d : Dist) (f : Fields) (op : Nat) =>
    d.write (if l.ilk || d.trap.mode then 0 else f.la.toNat) op (pendingWrites true true f (s.valuesOf op) 0)
  let d := match remoteOp? d.wait with
    | some (f, _, op) => if sel op then { go d f op with pc := d.pc + Fields.size f, wait := .none } else d
    | none => d
  if !d.trap.mode then d
  else
    match remoteOp? d.trap.wait with
    | some (f, _, op) =>
      if sel op then
        let e := (go (d.setMode false) f op).setMode true
        { e with trap := { e.trap with epc := d.trap.epc + Fields.size f, wait := .none } }
      else d
    | none => d

/-- The selected operations of a skein become pending. -/
def State.savePending (s : State) (sp slot : Nat) (sel : Nat → Bool) : State :=
  match s.skein? sp slot with
  | none => s
  | some k =>
    let l := s.launch k.launch
    let ws := k.remoteWaits.filter fun w => sel w.2.2
    let k := { k with dist := k.dist.savePending l s sel, plies := k.plies.map (Ply.savePending l s sel) }
    { s.setSkein sp slot (some k) with
      reqs := s.reqs.map fun r => match ws.find? fun w => w.2.2 == r.op with | some w => { r with ty := w.1.ty } | none => r }

/-- Some access of an operation has not been performed. -/
def State.unperformed (s : State) (op : Nat) : Bool := s.reqs.any fun r => r.op == op && !r.arrived

/-- 8 µs after the request the remote values that have not returned are saved as pending. -/
def execRemoteReplyTimeout (sp slot : Nat) (s : State) : Outcome State Fault Refusal :=
  match s.skein? sp slot with
  | none => .next s
  | some k =>
    if k.pre != .stopping || s.time < k.preAt + 8000 then .next s
    else .next (s.savePending sp slot fun op => !s.unperformed op)

/-! ## Halting (R352, R353) -/

/-- The engines have nothing of a skein in progress but what is saved where it stands (R256, R280, R298). -/
def enginesStopped (s : State) (x : Spindle) (k : Skein) : Bool :=
  (x.cq.all fun q => q.all fun c => c.uid != k.uid || !c.started || c.result.isNone)
  && (x.mq.all fun c => c.uid != k.uid || !c.started || (c.atMark && decide (c.done < c.steps)))
  && x.xq.all fun c => c.uid != k.uid || !c.started || (c.kind == .run && !c.finished && atCheckpoint s k c)

/-- A started command goes on after the resume. -/
def CopyCmd.pause (c : CopyCmd) : CopyCmd :=
  { c with resumed := c.resumed || c.started, asleep := none, woken := false }
def MatCmd.pause (c : MatCmd) : MatCmd := { c with resumed := c.resumed || c.started }
def XqCmd.pause (helds : List Nat) (c : XqCmd) : XqCmd := { c with resumed := c.resumed || c.started, after := helds }

/-- What is saved of a skein, out of its spindle. -/
def Spindle.saveOut (x : Spindle) (slot : Nat) (k : Skein) : Spindle :=
  let mine := fun (u : Nat) => u == k.uid
  let helds := x.xheld.filter fun h => mine h.uid
  let ids := helds.map fun h => h.id
  { x.vacate slot with
    cq := x.cq.map fun q => q.filter fun c => !mine c.uid
    mq := x.mq.filter fun c => !mine c.uid
    xq := x.xq.filter fun c => !mine c.uid
    xheld := x.xheld.filter fun h => !mine h.uid
    scale := x.scale.filter fun b => b.1 / 4096 != slot
    saved := x.saved ++ [{
      sk := k, slot
      copies := (List.range 4).flatMap fun q => ((nth x.cq q []).filter fun c => mine c.uid).map fun c => (q, c.pause)
      mats := (x.mq.filter fun c => mine c.uid).map MatCmd.pause
      xqs := (x.xq.filter fun c => mine c.uid).map (XqCmd.pause ids)
      helds := helds.map fun h => { h with after := h.after.filter fun i => ids.contains i }
      scale := (x.scale.filter fun b => b.1 / 4096 == slot).map fun b => (b.1 % 4096, b.2)
      written := false }] }

/-- The thread number of a request that is no thread's, but a write-back of L1. -/
def noThread : Nat := 128

/-- A skein's access that has not been performed is withdrawn. -/
def withdraw (uid : Nat) (r : RemoteReq) : RemoteReq :=
  if r.uid == uid && !r.arrived && r.tid != noThread then { r with withdrawn := true } else r

/-- A frame's resident count has changed, for a compute-die spindle. -/
def State.touchSpindle (s : State) (sp : Nat) : State := if isBase sp then s else s.touchFrame (sp / 16)

/-- Every party has stopped: the accesses not yet performed are withdrawn and saved, and the skein gives up its slot. -/
def execSkeinHalted (sp slot : Nat) (s : State) : Outcome State Fault Refusal :=
  match s.skein? sp slot with
  | none => .next s
  | some k =>
    if k.pre != .stopping || !enginesStopped s (s.spindle sp) k || k.remoteWaits.any fun w => !s.unperformed w.2.2 then .next s
    else
      let s := s.savePending sp slot s.unperformed
      match s.skein? sp slot with
      | none => .next s
      | some k =>
        let s := { s with reqs := s.reqs.map (withdraw k.uid) }
        let s := ((s.keepLast sp slot).modSpindle sp fun x => x.saveOut slot { k with pre := .halted s.time }).unlower
        .next ((s.touchSpindle sp).releaseSpindle sp)

/-! ## Saving (R354) -/

/-- A dirty line on its way back to memory: its virtual and physical address, the size of its translation as a power of two, and its bytes. -/
structure BackLine where
  va : Nat
  pa : Nat
  size : Nat
  bytes : List Byte
deriving DecidableEq, Repr

/-- The dirty private lines of a saved skein, none where one of them has no page now. Those of an ended skein are discarded (R361). -/
def State.dirtyLines (s : State) (l : Launch) (sp : Nat) (k : Skein) : Option (List BackLine) :=
  if k.life == .ended then some []
  else
    (k.plies.flatMap fun p => (p.priv.filter fun x => x.dirty).map fun x => (privBaseOf l sp p + 64 * x.line, x.bytes)).mapM fun b =>
      match translate s l.asid l.root b.1 with
      | .page t => (t.place b.1).map fun y => { va := b.1, pa := y.1, size := t.size, bytes := b.2 }
      | _ => none

/-- A line of a skein sets out for a package that no link reaches: eight stores, performed once one is up (R386). A shootdown of its page waits for
them (R225). -/
def State.sendLine (s : State) (asid uid sp slot : Nat) (d : BackLine) : State :=
  (List.range 8).foldl (fun s i =>
    { s.fresh.2 with reqs := s.reqs ++ [{ id := s.opSeq, op := 0, issued := s.tick, uid, who := .dist sp slot, tid := noThread, pa := d.pa + 8 * i, n := 8
                                          at_ := 0, what := .store (BitVec.ofNat 64 (leAt d.bytes (8 * i) 8)), asid, va := d.va + 8 * i, size := d.size
                                          arrived := false, replied := false, old := 0 }] }) s

/-- A dirty line is written back: at once where its memory can be reached and no older copy of it is on its way, else as far as a pre-emption can
take it. -/
def State.backLine (s : State) (asid uid sp slot : Nat) (d : BackLine) : State :=
  if s.reachable d.pa && !s.lineSent uid d.pa then s.paPutBytes d.pa d.bytes else s.sendLine asid uid sp slot d

/-- The bytes of a frame: the four words, zero up to byte 64, and what the part lays out (DESIGN CHOICE, log 18). -/
def frameBytes (tick acc idx len : Nat) : List Byte :=
  natBytes 8 0x58465250 ++ natBytes 8 acc ++ natBytes 8 idx ++ natBytes 8 len ++ List.replicate 32 0
  ++ (List.range (len - 64)).map fun i => Config.frameByte tick (64 + i)

/-- What is not saved with a ply or distaff: held code lines, and the lines of L1; the ply's view of its private bytes stays (R361). -/
def Ply.unload (p : Ply) : Ply := { p with fbuf := [], priv := p.priv.map fun x => { x with dirty := false, cached := false } }
def Dist.unload (d : Dist) : Dist := { d with fbuf := [] }

/-- The context of the skein that left a slot is written to its frame, its dirty private lines first (R354); it waits for untrained devices of
this package alone (R382), never for a link (R386), and for a page of such a line (DEDUCED, log 100). -/
def execContextSaved (sp slot : Nat) (s : State) : Outcome State Fault Refusal :=
  match (s.spindle sp).saved.find? fun v => v.slot == slot && !v.written with
  | none => .next s
  | some v =>
    let l := s.launch v.sk.launch
    match s.dirtyLines l sp v.sk with
    | none => .next s
    | some lines =>
      if (s.isLocal v.sk.frameAt && !s.reaches v.sk.frameAt v.sk.frameLen) || lines.any fun d => s.isLocal d.pa && !s.reachable d.pa then .next s
      else
        let s := (lines.foldl (fun s d => s.backLine l.asid v.sk.uid sp slot d) s).hotLines (stackOf sp)
          (lines.map fun d => (d.pa, { r := true, w := true, x := false, attr := 0 }))
        let s := s.paPutBytes v.sk.frameAt (frameBytes s.tick l.acc v.sk.index v.sk.frameLen)
        .next (s.modSpindle sp fun x =>
          { x with saved := x.saved.map fun w =>
              if w.sk.uid == v.sk.uid then
                { w with written := true, sk := { w.sk with dist := w.sk.dist.unload, plies := w.sk.plies.map Ply.unload } }
              else w })

/-! ## Resuming (R78, R355) -/

/-- Saved commands go behind the running one and ahead of every other. -/
def ahead {α : Type} (started : α → Bool) (saved queue : List α) : List α :=
  queue.takeWhile started ++ saved ++ queue.dropWhile started

/-- The spindle has room for a saved skein: a slot, plies, threads, registers and tiles. -/
def State.roomFor (s : State) (sp : Nat) (h : Header) : Bool :=
  decide (s.sumOn sp Header.plies + h.plies ≤ 32) && decide (s.threadsOn sp + h.plies * h.width ≤ 512)
  && decide (s.sumOn sp Header.granules + h.granules ≤ 128) && decide (s.sumOn sp Header.tiles + h.tiles ≤ 16)

/-- The slot a skein resumes in: the lowest that is free; slot 0 alone on a base spindle. -/
def Spindle.freeSlot (x : Spindle) (sp : Nat) : Option Nat :=
  (List.range (if isBase sp then 1 else 4)).find? fun i => (nth x.slots i none).isNone

/-- A pre-empted skein may resume: it is saved, nothing holds its spindle, and its frame is in A0. -/
def State.mayResume (s : State) (sp : Nat) (v : Saved) : Bool :=
  let x := s.spindle sp
  v.written && !x.swHold && !x.pwrHold && (x.freeSlot sp).isSome && s.roomFor sp (s.launch v.sk.launch).hdr
  && (isBase sp || ((s.frame (sp / 16)).st == 0 && !(s.frame (sp / 16)).gating && s.cdie.getLsbD (sp / 64)))

/-- What comes before anything a resumed skein issues: its held crossbar reads and writes, and its engines' commands (R355). -/
def Saved.backIds (v : Saved) : List Nat :=
  v.helds.map (fun h => h.id) ++ v.copies.map (fun c => c.2.id) ++ v.mats.map (fun c => c.id) ++ v.xqs.map fun c => c.id

/-- What was saved, back in its spindle; every page is translated afresh, so that no translation of its address space is held (R358). -/
def Spindle.restore (x : Spindle) (asid slot : Nat) (v : Saved) : Spindle :=
  { x with
    slots := modNth x.slots slot fun _ => some { v.sk with pre := .no, preCtl := false, back := v.backIds }
    lpr := x.lpr.filter fun e => e.2.asid != asid
    tlb := x.tlb.filter fun e => e.asid != asid
    saved := x.saved.filter fun w => w.sk.uid != v.sk.uid
    cq := (List.range x.cq.length).map fun q =>
      ahead (fun c => c.started) ((v.copies.filter fun c => c.1 == q).map Prod.snd) (nth x.cq q [])
    mq := ahead (fun c => c.started) v.mats x.mq
    xq := ahead (fun c => c.started) v.xqs x.xq
    xheld := v.helds ++ x.xheld
    scale := v.scale.foldl (fun m b => sset m (4096 * slot + b.1) b.2) (x.scale.filter fun b => b.1 / 4096 != slot) }

/-- A pre-empted skein resumes on its spindle. Its withdrawn accesses, its held crossbar reads and writes and its engines' commands
follow in that order before it issues. -/
def execSkeinResume (sp k : Nat) (s : State) : Outcome State Fault Refusal :=
  let x := s.spindle sp
  match nth (x.saved.map some) k none, x.freeSlot sp with
  | some v, some slot =>
    if !s.mayResume sp v then .next s
    else .next (((s.modSpindle sp fun x => x.restore (s.launch v.sk.launch).asid slot v).touchSpindle sp).releaseSpindle sp)
  | _, _ => .next s

/-! ## The end of gating (R357) -/

/-- Every skein of a frame has been saved. -/
def State.frameSaved (s : State) (n : Nat) : Bool :=
  (List.range 16).all fun i => let x := s.spindle (16 * n + i); x.residents.isEmpty && x.saved.all fun v => v.written

/-- Ingress closes and the frame is in A2. Neighbour accesses are performed as they issue, so none is on its way. -/
def execGateIngressClose (frame : Nat) (s : State) : Outcome State Fault Refusal :=
  if s.nFrames ≤ frame then .fault .noSuchUnit
  else
    let f := s.frame frame
    if !f.gating || !s.frameSaved frame then .next s
    else .next (s.setFrame frame { f with st := 2, since := s.time, gating := false, wakeAt := none })

end Sys2Proof.Machine
end

