-- ==== Sys2Proof/Machine/Power.lean ====
section
/-! DEFINITION. Power states of frames, dies and package (R375, R376), boost (R377, R378, R396), PLIMIT (R379), the adaptive clock
(R124, R380), and the release of a compute die from reset (R381). -/

namespace Sys2Proof.Machine

open Host (Outcome)

/-! ## Sensors (DESIGN CHOICE, log 20) -/

/-- The sensors of a stack are read again: what they report is free. -/
def State.sense (s : State) (d : Nat) : State :=
  s.modDie d fun y =>
    let t := (Config.freeWord s.tick (8 * d + 11)).setWidth 12
    { y with temp := t, baseTemp := (Config.freeWord s.tick (8 * d + 12)).setWidth 12, band := bandStep y.band t.toInt }

/-! ## The adaptive clock (R124, R380) -/

/-- The DRIFT that a report of the monitors asks for, within 224 to 384. -/
def Spindle.asked (x : Spindle) (m : Monitor) : Nat :=
  match m with
  | .lowMargin => min (x.drift + 1) 384
  | .enoughMargin => x.drift
  | .ampleMargin => max (x.drift - 1) 224

/-- A report of the monitors: a step of DRIFT, or none. At 384 a low margin asks for more (R380). -/
def Spindle.driftStep (x : Spindle) (m : Monitor) (now : Nat) : Spindle :=
  { x with drift := x.asked m, overAsk := m == .lowMargin && decide (384 ≤ x.drift), driftAt := if x.asked m = x.drift then x.driftAt else now }

/-- A report of a spindle's monitors; one that moves DRIFT comes at most once in 100 ns (R124), any other at any time. -/
def execDriftStep (sp : Nat) (m : Monitor) (s : State) : Outcome State Fault Refusal :=
  if !s.spindlePresent sp then .fault .noSuchUnit
  else
    let x := s.spindle sp
    if !s.clocked sp || (x.asked m != x.drift && decide (s.time < x.driftAt + 100)) then .next s
    else .next (((s.keepCycle sp).modSpindle sp fun x => x.driftStep m s.time).sense (stackOf sp))

/-! ## PLIMIT (R379) -/

/-- The frames of a die, ascending. -/
def dieFrames (d : Nat) : List Nat := (List.range 4).map (4 * d + ·)

/-- The first frame of the list with the greatest value. -/
def mostOf (g : Nat → Nat) : List Nat → Option Nat
  | [] => none
  | n :: l => some (l.foldl (fun b x => if g b < g x then x else b) n)

/-- The first frame of the list with the least value. -/
def leastOf {α : Type} (g : α → Nat) : List α → Option α
  | [] => none
  | n :: l => some (l.foldl (fun b x => if g x < g b then x else b) n)

/-- The step of a boundary, from the frames' power estimates and the module's. -/
def plimitStep (d : Nat) (est : List Nat) (power : Nat) (s : State) : State :=
  let temp := (s.die d).temp.toInt
  let lim : Int := 8 * (s.tlim.toNat : Int)
  if lim ≤ temp || s.budget.toNat ≤ power then
    match mostOf (fun n => nth est (n - 4 * d) 0) (dieFrames d) with
    | none => s
    | some n => s.modFrame n fun f => { f with plimit := f.plimit - 4 }
  else if temp < lim - 40 && 10 * power < 9 * s.budget.toNat then
    match leastOf (fun n => (s.frame n).plimit) (dieFrames d) with
    | none => s
    | some n => s.modFrame n fun f => { f with plimit := min (f.plimit + 4) 64 }
  else s

/-! ## Boost (R377, R378) -/

/-- Regions of the skeins resident in a frame. -/
def State.regionsIn (s : State) (n : Nat) : List Nat :=
  (List.range 16).flatMap fun i => (s.spindle (16 * n + i)).residents.map fun p => s.regionOf p.2.launch

/-- A frame's region: of the highest effective priority, and of those the lowest address. -/
def State.frameRegion (s : State) (n : Nat) : Option Nat :=
  match s.regionsIn n with
  | [] => none
  | r :: l =>
    some (l.foldl (fun b x =>
      if s.effPriority b < s.effPriority x || (s.effPriority b == s.effPriority x && decide (x < b)) then x else b) r)

/-- The frame claims boost at this boundary. -/
def State.claims (s : State) (n : Nat) : Bool :=
  let f := s.frame n
  f.req != 0 && f.plimit == 64 && (s.frameRegion n).isSome && !((List.range 16).any fun i => (s.spindle (16 * n + i)).overAsk)

/-- The order of two claims: by priority, then in frame order after LASTWIN, cyclic over the die. -/
def State.claimBefore (s : State) (last : Nat) (a b : Nat) : Bool :=
  let p := fun n => s.effPriority ((s.frameRegion n).getD 0)
  let place := fun n => (n + 3 - last % 4) % 4
  decide (p b < p a) || (p a == p b && decide (place a < place b))

/-- A claim put in its place. -/
def insertClaim (before : Nat → Nat → Bool) (n : Nat) : List Nat → List Nat
  | [] => [n]
  | x :: l => if before n x then n :: x :: l else x :: insertClaim before n l

/-- Permits that regions have been charged at this boundary. -/
abbrev Charges := List (Nat × Nat)

def chargedTo (c : Charges) (g : Nat) : Nat := ((c.filter fun x => x.1 == g).map Prod.snd).sum

/-- The greatest cost, at most the one asked for, that the pool and every share on a chain allow. -/
def grantCost (s : State) (pool : Nat) (c : Charges) (chain : List Rcb) : Nat → Nat
  | 0 => 0
  | n + 1 =>
    if pool < n + 1 || chain.any fun r => decide (s.effBoost r.addr < chargedTo c r.addr + (n + 1)) then grantCost s pool c chain n
    else n + 1

/-- What the claims of a die come to: the pool, the charges, whether a claim was cut, and the cost granted to each frame in order. -/
def grantGo (s : State) : List Nat → Nat → Charges → Nat × Bool × List (Nat × Nat)
  | [], pool, _ => (pool, false, [])
  | n :: l, pool, c =>
    let chain := s.rcbChain ((s.frameRegion n).getD 0)
    let asked := (s.frame n).req
    let got := grantCost s pool c chain asked
    let r := grantGo s l (pool - got) (chain.map (fun b => (b.addr, got)) ++ c)
    (r.1, decide (got < asked) || r.2.1, (n, got) :: r.2.2)

/-- A frame's level after a boundary. -/
def Frame.level (f : Frame) (got : Nat) : Frame :=
  if got != 0 then { f with lvl := got, unch := false }
  else if f.lvl == 2 && !f.unch then { f with lvl := 1, unch := true }
  else { f with lvl := 0, unch := false }

/-- The cycles that have begun on a die keep their level. -/
def State.keepCycles (s : State) (d : Nat) : State :=
  (s.spindles.filter fun p => decide (p.1 / 64 = d)).foldl (fun s p => s.keepCycle p.1) s

/-- The grants of a boundary. -/
def boostStep (d : Nat) (s : State) : State :=
  let y := s.die d
  let fs := dieFrames d
  let pool := if fs.any fun n => (s.frame n).lvl != 0 then y.pool else min (y.pool + 1) 64
  let order := (fs.filter s.claims).foldl (fun l n => insertClaim (s.claimBefore y.lastwin) n l) []
  let r := grantGo s order pool []
  let won := (r.2.2.find? fun p => p.2 != 0).map Prod.fst
  let last := if r.2.1 then won.getD y.lastwin else y.lastwin
  let s := s.setDie d { y with pool := r.1, lastwin := last }
  fs.foldl (fun s n => s.modFrame n fun f => f.level (((r.2.2.find? fun p => p.1 == n).map Prod.snd).getD 0)) s

/-- When the next interval boundary of a die is due (R378). -/
def State.boundaryDue (s : State) (d : Nat) : Nat := (max (s.die d).nextB s.time + 1999) / 2000 * 2000

/-- An interval boundary of a die, once at a multiple of 2,000 ns: PLIMIT, then the grants, when its compute die is ready. -/
def execIntervalBoundary (d : Nat) (est : List Nat) (power : Nat) (s : State) : Outcome State Fault Refusal :=
  if s.nStacks ≤ d then .fault .noSuchUnit
  else if s.time < (s.die d).nextB || s.time % 2000 != 0 then .next s
  else
    let s := (s.modDie d fun y => { y with nextB := s.time + 2000 }).sense d
    .next (if s.cdie.getLsbD d then boostStep d (plimitStep d est power (s.keepCycles d)) else s)

/-! ## Power states (R375) -/

/-- Wake times of A1 to A4, in ns. -/
def wakeTime (st : Nat) : Nat := match st with | 0 => 0 | 1 => 500 | 2 => 20000 | 3 => 400000 | _ => 5000000

/-- The tolerance T, in ns. -/
def State.tolerance (s : State) : Nat :=
  let rs := (s.liveLaunches.map fun l => l.lrec.region.toNat).filter s.chainOk
  match (rs.map s.effLatency).min? with
  | some t => t
  | none => s.idlelat.toNat * 1000

/-- Nothing is resident in a frame, queued for it or saved in it. -/
def State.frameEmpty (s : State) (n : Nat) : Bool :=
  s.residentIn n == 0 && (s.frame n).queue.isEmpty && (List.range 16).all fun i => (s.spindle (16 * n + i)).saved.isEmpty

def execFrameEnterA1 (frame : Nat) (s : State) : Outcome State Fault Refusal :=
  if s.nFrames ≤ frame then .fault .noSuchUnit
  else
    let f := s.frame frame
    if f.st != 0 || f.gating || !s.frameEmpty frame || s.time < f.idleSince + 1000 || s.tolerance < wakeTime 1 then .next s
    else .next (s.setFrame frame { f with st := 1, since := s.time })

def execFrameEnterA2 (frame : Nat) (s : State) : Outcome State Fault Refusal :=
  if s.nFrames ≤ frame then .fault .noSuchUnit
  else
    let f := s.frame frame
    if f.st != 1 || f.gating || f.wakeAt.isSome || s.time < f.since + 100000 || s.tolerance < wakeTime 2 then .next s
    else .next (s.setFrame frame { f with st := 2, since := s.time })

/-- Every frame of a list moves to a state. -/
def State.allTo (s : State) (ns : List Nat) (st : Nat) : State :=
  ns.foldl (fun s n => s.modFrame n fun f => { f with st := st, since := s.time, wakeAt := none }) s

/-- A spindle in A3, where a compute die keeps its crossbar arrays alone: translations and records are gone, scale memory and DRIFT are free (R375;
DESIGN CHOICE, log 114). -/
def Spindle.powerOff (x : Spindle) (sp tick : Nat) : Spindle :=
  { x with lpr := [], tlb := [], recs := [], band := none, overAsk := false
           drift := 224 + Config.freeNat tick (1024 + sp) % 161
           scale := ((List.range 16384).map fun i => (i, Config.freeByte tick (16384 * sp + i))).filter fun b => b.2 != 0 }

/-- What the spindles and frames of a die lose in A3. -/
def State.dieOff (s : State) (d : Nat) : State :=
  let s := (List.range 64).foldl (fun t i => t.modSpindle (64 * d + i) fun x => x.powerOff (64 * d + i) s.tick) s
  (dieFrames d).foldl (fun s n => s.modFrame n fun f => { f with tlb := [] }) s

def execDieEnterA3 (d : Nat) (s : State) : Outcome State Fault Refusal :=
  if s.nStacks ≤ d then .fault .noSuchUnit
  else
    let ok := (dieFrames d).all fun n =>
      let f := s.frame n
      f.st == 2 && f.wakeAt.isNone && decide (f.since + 1000000 ≤ s.time)
    if !ok || s.tolerance < wakeTime 3 then .next s else .next ((s.allTo (dieFrames d) 3).dieOff d)

/-- The conditions of A4, but for the write. -/
def State.mayA4 (s : State) : Bool :=
  (List.range s.nFrames).all (fun n => (s.frame n).st == 3 && (s.frame n).wakeAt.isNone) && s.liveLaunches.isEmpty && s.offers.isEmpty
  && decide (wakeTime 4 ≤ s.tolerance)

/-- The package in A4: allotments and vertical FIFO entries are lost (R284, R330). -/
def State.enterA4 (s : State) : State :=
  { s.allTo (List.range s.nFrames) 4 with
    a4 := true, fifos := [], spindles := s.spindles.map fun p => (p.1, { p.2 with aown := [] }) }

/-- pwr.cfg (R376). Another MTRAIN starts its period anew (R383; DESIGN CHOICE, log 76). -/
def writePwrCfg (v : Word) (s : State) : State :=
  let a4 := v.getLsbD 63 && s.mayA4
  let m := BitVec.ofNat 8 (fld v 24 8)
  let s := { s with tlim := BitVec.ofNat 8 (fld v 48 8), budget := BitVec.ofNat 16 (fld v 32 16), idlelat := BitVec.ofNat 24 (fld v 0 24)
                    mtrain := m, retrainAt := if m == s.mtrain then s.retrainAt else s.time + m.toNat * 1000000 }
  if a4 then s.enterA4 else s

/-- What ends A4 has come: its wake begins. -/
def State.wakeA4 (s : State) : State :=
  if s.a4 && s.a4Wake.isNone then { s with a4Wake := some (s.time + wakeTime 4) } else s

/-- Counters from 0 again, at the wake of their die (R125, R371). -/
def Spindle.restart (x : Spindle) : Spindle :=
  { x with ctr := List.replicate 10 0, flow := [], taken := [], cycleOf := none, near := [], affHeld := false }

/-- An Ethernet frame for the package or an access of the host ends A4, 5 ms after it came: the base dies' counters start again, and the compute dies
are in A3 from then on. -/
def execA4Exit (s : State) : Outcome State Fault Refusal :=
  match s.a4Wake with
  | none => .next s.wakeA4
  | some t =>
    if s.time < t then .next s
    else
      let s : State := { s with spindles := s.spindles.map fun p => (p.1, if isBase p.1 then p.2.restart else p.2) }
      .next { s.allTo (List.range s.nFrames) 3 with a4 := false, a4Wake := none }

/-- Some pre-empted skein of a frame can resume once the frame is in A0. -/
def State.resumable (s : State) (n : Nat) : Bool :=
  (List.range 16).any fun i => let x := s.spindle (16 * n + i); !x.swHold && x.saved.any fun v => v.written

/-- A deterministic launch has a skein to place and no frame that is in A0 takes it. -/
def State.detWants (s : State) : Bool := s.launches.any fun p => s.detReady p.2 && (s.detFrame p.2).isNone

/-- Something wakes the frame (R375): work dealt to it, a skein to resume, or a tolerance below its wake time. -/
def State.wakes (s : State) (n : Nat) : Bool :=
  let f := s.frame n
  !f.queue.isEmpty || s.resumable n || decide (s.tolerance < wakeTime f.st) || (s.detWants && f.limit != 0)

/-- The wake of a frame starts. -/
def State.startWake (s : State) (n : Nat) : State := s.modFrame n fun f => { f with wakeAt := some (s.time + wakeTime f.st) }

/-- A wake begins. A frame whose FORCE is set does not wake; its compute die does, out of A3, once the tolerance is below its wake time (R375). -/
def execUnitWake (frame : Nat) (s : State) : Outcome State Fault Refusal :=
  if s.nFrames ≤ frame then .fault .noSuchUnit
  else
    let f := s.frame frame
    let kept := f.force && !(f.st == 3 && decide (s.tolerance < wakeTime 3))
    if s.a4 || f.st == 0 || kept || f.gating || f.wakeAt.isSome || !s.wakes frame then .next s else .next (s.startWake frame)

/-- Counters from 0 again on a die that wakes from A3 (R125, R371). -/
def State.restartCounters (s : State) (d : Nat) : State :=
  (List.range 64).foldl (fun s i => s.modSpindle (64 * d + i) Spindle.restart) s

/-- The hold of a gate is off a frame's spindles. -/
def State.ungate (s : State) (n : Nat) : State :=
  (List.range 16).foldl (fun s i => s.modSpindle (16 * n + i) fun x => { x with pwrHold := false }) s

/-- The wake time is over: the frame is in A0, or in A2 while its FORCE is set; its die, if it was in A3, is awake, and its other frames in A2. -/
def execWakeComplete (frame : Nat) (s : State) : Outcome State Fault Refusal :=
  if s.nFrames ≤ frame then .fault .noSuchUnit
  else
    let f := s.frame frame
    match f.wakeAt with
    | none => .next s
    | some t =>
      if s.time < t then .next s
      else
        let s := if f.st == 3 then
            (dieFrames (frame / 4)).foldl (fun s n => s.modFrame n fun g => if g.st == 3 then { g with st := 2, since := s.time } else g)
              (s.restartCounters (frame / 4))
          else s
        .next (if f.force then s.modFrame frame fun g => { g with wakeAt := none }
          else (s.modFrame frame fun g => { g with st := 0, since := s.time, idleSince := s.time, wakeAt := none }).ungate frame)

/-! ## pwr.frame (R376, R357) -/

/-- Gating starts: dispatch and theft stop, the spindles are held, and the resident skeins are pre-empted. -/
def State.startGate (s : State) (n : Nat) : State :=
  let s := s.modFrame n fun f => { f with gating := true, wakeAt := none }
  (List.range 16).foldl (fun s i => (s.modSpindle (16 * n + i) fun x => { x with pwrHold := true }).stopSpindle false (16 * n + i)) s

/-- pwr.frame for the selected frame. -/
def writePwrFrame (v : Word) (s : State) : State :=
  let n := s.pwrFrame.toNat
  let s := s.modFrame n fun f => { f with force := v.getLsbD 15, req := min (fld v 6 2) 2 }
  let f := s.frame n
  if f.force then
    if f.gating then s
    else if f.st < 2 then s.startGate n
    else s.modFrame n fun f => { f with wakeAt := none }
  else
    let s := if f.gating then (s.modFrame n fun f => { f with gating := false }).ungate n else s
    if f.st != 0 && f.wakeAt.isNone && !s.a4 then s.startWake n else s

/-! ## Cold start (R381) -/

/-- A sensor of the base die reads below −20 °C: the die heats itself, and its compute die stays in reset. -/
def Die.heats (y : Die) : Bool := decide (y.baseTemp.toInt < -160)

/-- A compute die leaves reset, its base die being warm enough: its DRIFT starts at 320, its counters at 0, and its frames' PLIMIT is 64. -/
def execComputeDieResetRelease (d : Nat) (s : State) : Outcome State Fault Refusal :=
  if s.nStacks ≤ d then .fault .noSuchUnit
  else if s.cdie.getLsbD d || !s.bdie.getLsbD d || (s.die d).heats then .next s
  else
    let bit := BitVec.ofNat 4 (2 ^ d)
    let s := (List.range 64).foldl (fun s i => s.modSpindle (64 * d + i) fun x => { x with drift := 320, overAsk := false, driftAt := s.time })
      (({ s with cdie := s.cdie ||| bit }.restartCounters d).sense d)
    .next ((dieFrames d).foldl (fun s n => s.modFrame n fun f => { f with plimit := 64, idleSince := s.time }) s)

end Sys2Proof.Machine
end

