-- ==== Sys2Proof/Machine/Csr.lean ====
section
/-! DEFINITION. Control and status registers (R210 to R212): who may reach each, what each reads and what a write does, with the
writes that the opcode table lists as steps of their own. The trap registers are R345 to R347, sec.op is R385. -/

namespace Sys2Proof.Machine

open Host (Outcome)

/-! ## Who may reach a register (check 8) -/

/-- Registers of system cores alone (R76, R147, R284, R326, R351, R391, and the groups 0x06, 0x09 and 0x0A). -/
def csrCoreOnly (n : Nat) : Bool :=
  [0x0200, 0x0201, 0x0400, 0x0401, 0x0402, 0x0403, 0x0510, 0x0701, 0x0702, 0x0800, 0x0801, 0x0803].contains n
  || n / 256 == 6 || n / 256 == 9 || n / 256 == 0x0A

/-- The trap registers of handler mode (R343, R345). -/
def csrTrap (n : Nat) : Bool := decide (0x0500 ≤ n) && decide (n ≤ 0x050B)

/-- A party that is no system core may make the access. -/
def csrAllowed (handler dist write : Bool) (n : Nat) : Bool :=
  if csrCoreOnly n then false
  else if csrTrap n then handler
  else if n = 0x0100 || n = 0x0101 then !write
  else if n = 0x0802 then !write || dist
  else true

/-- A system core may: every register but the trap registers. -/
def csrCoreAllowed (n : Nat) : Bool := csrAssigned.contains n && !csrTrap n

/-! ## Fields put together -/

/-- A register's value from its fields: lowest bit and value of each. -/
def fields (l : List (Nat × Nat)) : Word := BitVec.ofNat 64 ((l.map fun p => p.2 * 2 ^ p.1).sum)

def bit (b : Bool) : Nat := if b then 1 else 0

/-- HEAD, TAIL and LOST of a ring pointer. -/
def ptrWord (head tail lost : Nat) : Word := fields [(52, lost), (32, head), (0, tail)]

/-! ## Reading the package's registers -/

/-- clu.band of a band (R288). -/
def bandWord (band : Nat) : Word := fields [(16, nth [2600, 2200, 1800, 1900, 2000, 2300] band 2300), (0, band)]

/-- sched.frame (R76). -/
def State.schedFrame (s : State) : Word :=
  let n := s.frsel.toNat
  let f := s.frame n
  fields [(32, min f.queue.length 0xFFFFFFFF), (16, s.residentIn n), (8, f.plimit), (0, f.swcap)]

/-- pwr.frame (R376). -/
def State.pwrFrameWord (s : State) : Word :=
  let f := s.frame s.pwrFrame.toNat
  fields [(15, bit f.force), (10, f.lvl), (9, bit f.unch), (6, f.req), (0, f.st)]

/-- pwr.die (R376). -/
def State.pwrDieWord (s : State) : Word :=
  let y := s.die (s.pwrFrame.toNat / 4)
  fields [(32, y.temp.toNat), (12, y.lastwin), (0, y.pool)]

/-- pwr.ready (R382). -/
def State.readyWord (s : State) : Word :=
  fields [(42, bit (s.hasHost && s.hostUp)), (40, s.ethUp.toNat), (8, s.memReady.toNat % 2 ^ s.nDevices),
          (4, s.cdie.toNat % 2 ^ s.nStacks), (0, s.bdie.toNat % 2 ^ s.nStacks)]

/-- The selected array is held (R284). -/
def State.arrayHeld (s : State) : Bool :=
  (s.spindle s.aselSpindle.toNat).holders.any fun k => k.arrays.contains s.aselArray.toNat

/-- The counter that acct.csel selects (R371). -/
def State.counterWord (s : State) : Word := ofN (nth (s.spindle s.cselSpindle.toNat).ctr s.cselCtr.toNat 0)

/-- What a system core reads (R210, R211). -/
def coreRead (c n : Nat) (s : State) : Word :=
  let r := nth (s.die s.mcStack.toNat).ranges s.mcRange.toNat {}
  let sp := s.space s.assel.toNat
  let t := s.tag s.tbsel.toNat
  let k := s.core c
  match n with
  | 0x0000 => s.units
  | 0x0001 => s.stepping
  | 0x0100 => fields [(16, s.affw.toNat)]
  | 0x0200 => s.frsel.setWidth 64
  | 0x0201 => s.schedFrame
  | 0x0400 => fields [(4, s.mcStack.toNat), (0, s.mcRange.toNat)]
  | 0x0401 => r.base
  | 0x0402 => r.geom
  | 0x0403 => r.scale
  | 0x0510 => fields [(61, bit s.preBusy), (56, s.preScope.toNat), (8, s.preSpindle.toNat), (0, s.preSlot.toNat)]
  | 0x0600 => s.assel.setWidth 64
  | 0x0601 => fields [(63, bit sp.en), (52, sp.priv), (0, sp.root)]
  | 0x0602 => sp.rcb
  | 0x0604 => s.fq
  | 0x0605 => ptrWord s.fqHead s.fqTail 0
  | 0x0606 => s.hotcfg
  | 0x0607 => let y := s.die s.mcStack.toNat; fields [(56, s.pkg.toNat), (9, bit y.l2p), (8, bit y.err), (0, y.res)]
  | 0x0700 => bandWord (s.die (c / 2)).band
  | 0x0701 => fields [(16, s.aselArray.toNat), (0, s.aselSpindle.toNat)]
  | 0x0702 => agetD (s.spindle s.aselSpindle.toNat).aown s.aselArray.toNat 0 ||| (if s.arrayHeld then 1 <<< 63 else 0)
  | 0x0800 => if s.hasTree then s.tbsel.setWidth 64 else 0
  | 0x0801 => if s.hasTree then fields [(63, bit t.en), (32, t.gen.toNat), (16, t.arrived), (0, t.expect)] else 0
  | 0x0900 => fields [(16, s.pwrLink.toNat), (8, s.pwrPort.toNat), (0, s.pwrFrame.toNat)]
  | 0x0901 => fields [(48, s.tlim.toNat), (32, s.budget.toNat), (24, s.mtrain.toNat), (0, s.idlelat.toNat)]
  | 0x0902 => s.pwrFrameWord
  | 0x0903 => s.pwrDieWord
  | 0x0904 => s.readyWord
  | 0x0905 => let l := agetD s.links s.pwrLink.toNat {}; fields [(32, l.crcErr), (16, l.peer), (8, l.lanes), (0, bit l.up)]
  | 0x0906 => (agetD s.eths s.pwrPort.toNat {}).ctl
  | 0x0907 => if s.hasHost then s.hostCtl else 0
  | 0x0908 => s.secOp ||| (if s.secPend == 0 then 0 else 1 <<< 61)
  | 0x0A00 => s.string
  | 0x0A01 => ptrWord s.strHead s.strTail s.strLost
  | 0x0A02 => s.samp
  | 0x0A03 => fields [(16, s.cselSpindle.toNat), (0, s.cselCtr.toNat)]
  | 0x0A04 => s.counterWord
  | 0x0A05 => s.dbgHold
  | 0x0A07 => k.rplCtl
  | 0x0A08 => ptrWord k.rplHead k.rplTail 0
  | _ => 0

/-! ## The trap registers (R345 to R347) -/

/-- The trap state of the party. -/
def Ctx.trapSt (c : Ctx) : TrapState := if c.dist then c.sk.dist.trap else c.ply.trap
def Ctx.modTrap (c : Ctx) (s : State) (g : TrapState → TrapState) : State :=
  if c.dist then c.modDist s fun d => { d with trap := g d.trap } else c.modPly s fun p => { p with trap := g p.trap }

/-- STATE of a ply of the skein; 3 where there is none. One that is to stop has stopped when every path stands at a boundary. -/
def Ctx.plyState (c : Ctx) (q : Nat) : Nat :=
  if c.la.hdr.plies ≤ q then 3
  else
    let p := c.sk.ply q
    if p.trap.mode then 2 else if p.gone c.w then 3 else if p.stopped && !p.inFlight then 1 else 0

/-- The selected ply can be inspected, and whether it is the handler's own. -/
def Ctx.inspects (c : Ctx) (q : Nat) : Option Bool :=
  if c.la.hdr.plies ≤ q then none
  else if !c.dist && q == c.plyNo then some true
  else if c.plyState q == 1 || c.plyState q == 3 then some false
  else none

/-- The items of trap.rsel. -/
def rselClass (r : Word) : Nat := fld r 16 4
def rselNum (r : Word) : Nat := fld r 8 8
def rselThr (r : Word) : Nat := fld r 0 7

/-- What trap.rdat reads of a ply; the handler's own gives its set-aside values. -/
def rdatRead (own ftz : Bool) (w vregs : Nat) (r : Word) (p : Ply) : Word :=
  let paths := if own then p.trap.paths else p.paths
  let e := nth paths (rselNum r) {}
  match rselClass r with
  | 0 => if rselThr r < w && rselNum r < vregs then (p.rdV (rselNum r) (rselThr r)).setWidth 64 else 0
  | 1 => if rselThr r < w && rselNum r < 0x80 then p.rdS (rselNum r) (rselThr r / 8) else 0
  | 2 => (exmOf (if own then p.trap.exm else p.exm) (rselThr r / 8)).setWidth 64
  | 3 => e.word
  | 4 => (if own then p.trap.flags else p.flags).setWidth 64 ||| (if ftz then 0x100 else 0)
  | 5 => pcWord e.pc
  | _ => 0

/-- A path's program counter rewritten: it is no longer at what it waited for, but for a debug hold. -/
def Path.rewrite (pc : Word) (e : Path) : Path :=
  if !e.valid then e
  else if e.pc == pc || e.st == .exited || e.wait == .debug then { e with pc := pc }
  else { e with pc := pc, st := .ready, wait := .none }

/-- What a write of trap.rdat leaves of a ply. -/
def rdatWrite (own : Bool) (w vregs : Nat) (r v : Word) (p : Ply) : Ply :=
  match rselClass r with
  | 0 => if rselThr r < w && rselNum r < vregs then p.wrV (rselNum r) (rselThr r) (v.setWidth 32) else p
  | 1 => if rselThr r < w && rselNum r < 0x80 then p.wrS (rselNum r) (rselThr r / 8) v else p
  | 2 =>
    let g := fun m => if rselThr r < w then setExm m (rselThr r / 8) (v.setWidth 8) else m
    if own then { p with trap := { p.trap with exm := g p.trap.exm } } else { p with exm := g p.exm }
  | 4 => if own then { p with trap := { p.trap with flags := v.setWidth 5 } } else { p with flags := v.setWidth 5 }
  | 5 =>
    let g := fun l => modNth l (rselNum r) (Path.rewrite (pcWord v))
    if own then { p with trap := { p.trap with paths := g p.trap.paths } } else { p with paths := g p.paths }
  | _ => p

/-- Reading a trap register. -/
def Ctx.trapRead (c : Ctx) (n : Nat) : Word :=
  let t := c.trapSt
  match n with
  | 0x0500 => t.cause
  | 0x0501 => t.epc
  | 0x0502 => t.addr
  | 0x0504 => fields [(8, c.plyState t.sel.toNat), (0, t.sel.toNat)]
  | 0x0506 => t.rsel
  | 0x0507 =>
    match c.inspects t.sel.toNat with
    | none => 0
    | some own => rdatRead own c.la.ftz c.w c.la.hdr.vregs t.rsel (c.sk.ply t.sel.toNat)
  | 0x0508 => t.k0
  | 0x0509 => t.k1
  | 0x050A => t.k2
  | 0x050B => t.k3
  | _ => 0

/-- A handler stops a running ply at its boundary (R346). -/
def Ctx.stopPly (c : Ctx) (q : Nat) (s : State) : State :=
  if c.plyState q != 0 then s
  else
    { s.modPly c.sp c.slot q fun p => { p.halt with stopped := true } with
      offers := s.offers.filter fun o =>
        match o.who with
        | .path a b r _ => !(a == c.sp && b == c.slot && r == q)
        | _ => true }

/-- A write of trap.ply that stops a ply does not retire before every path of it stands at a boundary. -/
def Ctx.stopWaits (c : Ctx) (n : Nat) (v : Word) : Bool :=
  n == 0x0504 && !v.getLsbD 63 && fld v 8 2 == 1 && c.plyState (fld v 0 4) == 0 && (c.sk.ply (fld v 0 4)).inFlight

/-- A handler lets a stopped ply run. -/
def Ctx.runPly (c : Ctx) (q : Nat) (s : State) : State :=
  if c.plyState q == 1 then s.modPly c.sp c.slot q fun p => { p with stopped := false } else s

/-- trap.ply. -/
def Ctx.writeTrapPly (c : Ctx) (v : Word) (s : State) : State :=
  if v.getLsbD 63 then s.endSkein c.sp c.slot
  else
    let s := c.modTrap s fun t => { t with sel := BitVec.ofNat 4 (fld v 0 4) }
    match fld v 8 2 with
    | 0 => c.runPly (fld v 0 4) s
    | 1 => c.stopPly (fld v 0 4) s
    | _ => s

/-- trap.rdat. -/
def Ctx.writeRdat (c : Ctx) (v : Word) (s : State) : State :=
  let t := c.trapSt
  match c.inspects t.sel.toNat with
  | none => s
  | some own => s.modPly c.sp c.slot t.sel.toNat (rdatWrite own c.w c.la.hdr.vregs t.rsel v)

/-- trap.epc: a distaff sent elsewhere no longer waits for what it was set aside in. -/
def TrapState.setEpc (t : TrapState) (v : Word) : TrapState :=
  let a := v &&& ~~~7
  { t with epc := a, wait := if a == t.epc then t.wait else .none }

/-- Writing a trap register. -/
def Ctx.trapWrite (c : Ctx) (n : Nat) (v : Word) (s : State) : State :=
  match n with
  | 0x0501 => c.modTrap s fun t => t.setEpc v
  | 0x0504 => c.writeTrapPly v s
  | 0x0506 => c.modTrap s fun t => { t with rsel := v &&& 0xFFF7F }
  | 0x0507 => c.writeRdat v s
  | 0x0508 => c.modTrap s fun t => { t with k0 := v }
  | 0x0509 => c.modTrap s fun t => { t with k1 := v }
  | 0x050A => c.modTrap s fun t => { t with k2 := v }
  | 0x050B => c.modTrap s fun t => { t with k3 := v }
  | _ => s

/-! ## Writing the package's registers -/

/-- What a write by a system core comes to. -/
inductive Written where
  | ok (s : State)
  /-- UNIT_ABSENT, with nothing changed -/
  | absent
  /-- the write does not retire yet -/
  | hold
  /-- its effect is here, but it does not retire yet -/
  | begun (s : State)

/-- Walks of an address space may start at a table already: its registers say so, or a launch's of it do. -/
def State.rootUsed (s : State) (asid root : Nat) : Bool :=
  ((asid == 0 || (s.space asid).en) && (s.space asid).root == root)
  || s.launches.any fun p => (p.2.st != .ended && p.2.asid == asid && p.2.root == root) || p.2.kept.any fun x => x.1 == asid && x.2.root == root

/-- A launch after a write of an address space: while skeins use the space, one accepted before it stays under the old values; else it takes the new
ones (R226). -/
def Launch.takeSpace (l : Launch) (a : Nat) (used : Bool) (old new : AddrSpace) : Launch :=
  if !used then { l with kept := adel l.kept a, root := if l.asid == a then new.root else l.root, priv := if l.asid == a then new.priv else l.priv }
  else if l.toCheck.isSome && (aget? l.kept a).isNone then { l with kept := aput l.kept a old }
  else l

/-- mmu.as. Pre-empted skeins use an address space as resident ones do (R226; DESIGN CHOICE, log 106). -/
def writeAs (v : Word) (s : State) : State :=
  let a := s.assel.toNat
  let sp : AddrSpace := { s.space a with en := v.getLsbD 63, priv := fld v 52 11, root := fld v 12 40 * 4096 }
  let used := s.allSkeins.any fun p => (s.launch p.2.launch).asid == a
  { s with
    known := if s.rootUsed a sp.root then s.known else .rooted a sp.root :: s.known
    spaces := aput s.spaces a sp
    launches := s.launches.map fun p => (p.1, p.2.takeSpace a used (s.space a) sp) }

/-- mmu.asrcb. -/
def writeAsrcb (v : Word) (s : State) : State :=
  { s with spaces := aput s.spaces s.assel.toNat { s.space s.assel.toNat with rcb := v &&& 0x00FFFFFFFFFFFFC0 } }

/-- clu.aown of the selected array, while it is not held. -/
def writeAown (v : Word) (s : State) : State :=
  if s.arrayHeld then s
  else
    let r := v &&& 0x00FFFFFFFFFFFFC0
    s.modSpindle s.aselSpindle.toNat fun x => { x with aown := if r == 0 then adel x.aown s.aselArray.toNat else aput x.aown s.aselArray.toNat r }

/-- sync.tbcfg of the selected tag (R326). -/
def writeTbcfg (v : Word) (s : State) : State :=
  let n := s.tbsel.toNat
  let t := s.tag n
  let expect := max (fld v 0 16) 1
  if t.arrived != 0 && (v.getLsbD 63 != t.en || expect != t.expect) then s
  else { s with tags := aput s.tags n { t with en := v.getLsbD 63, expect := expect } }

/-- pwr.sel (R376). -/
def writePwrSel (v : Word) (s : State) : Written :=
  if s.nFrames ≤ fld v 0 4 || s.nLinks ≤ fld v 16 4 then .absent
  else .ok { s with pwrFrame := BitVec.ofNat 4 (fld v 0 4), pwrPort := BitVec.ofNat 1 (fld v 8 1), pwrLink := BitVec.ofNat 4 (fld v 16 4) }

/-- link.stat: any write clears CRCERR. -/
def writeLinkStat (s : State) : State :=
  { s with links := aput s.links s.pwrLink.toNat { agetD s.links s.pwrLink.toNat {} with crcErr := 0 } }

/-- link.eth of the selected port: its rings start again at their first descriptors. -/
def writeLinkEth (v : Word) (s : State) : State :=
  { s with eths := aput s.eths s.pwrPort.toNat { ctl := v &&& 0x800FFFFFFFFFF00F } }

/-- The first 64 bytes of a digest. -/
def digest64 (l : List Byte) : List Byte := (l ++ List.replicate 64 0).take 64

/-- A measurement slot: 64 bytes. -/
def State.slot (s : State) (n : Nat) : List Byte := digest64 (agetD s.slots n [])

/-- The report of an attestation (R385). -/
def State.report (s : State) (nonce : List Byte) : List Byte :=
  let head := ((List.range 8).flatMap s.slot).take 512 ++ nonce ++ natBytes 8 s.units.toNat ++ natBytes 8 s.stepping.toNat ++ natBytes 8 s.time
  let pad := fun (l : List Byte) (n : Nat) => (l ++ List.replicate n 0).take n
  let front := pad (pad head 0x240 ++ Config.identityKey.take 57) 0x280
  pad (front ++ (Config.identitySign (Config.shake256 front)).take 114) 0x300

/-- sec.op: an extend or an attestation begins; while one is in progress, and for an extend of slot 0, the write is ignored. -/
def writeSecOp (v : Word) (s : State) : State :=
  let op := fld v 62 2
  if s.secPend != 0 || (op == 1 && fld v 56 3 == 0) then s
  else { s with secOp := v &&& 0x070FFFFFFFFFFFC0, secPend := if op == 3 then 0 else op }

/-- The operation in progress ends, once its memory can be reached (R382). -/
def secRun (s : State) : State :=
  let pa := fld s.secOp 6 46 * 64
  let n := fld s.secOp 56 3
  match s.secPend with
  | 1 =>
    if s.readsAll pa 64 then { s with slots := aput s.slots n (digest64 (Config.shake256 (s.slot n ++ s.paBytes pa 64))), secPend := 0 } else s
  | 2 => if s.readsAll pa 32 && s.reaches pa 0x300 then { s.paPutBytes pa (s.report (s.paBytes pa 32)) with secPend := 0 } else s
  | _ => s

/-- acct.string (R367): a write that clears EN leaves open epochs to close without a record. Records that wait for the old ring's device (R382) are
discarded, and not counted (DESIGN CHOICE, log 110). -/
def writeString (v : Word) (s : State) : State :=
  { (if v.getLsbD 63 then s else s.silence) with string := v &&& 0x800FFFFFFFFFF00F, strHead := 0, strTail := 0, strLost := 0, strWait := [] }

/-- A path held at a BKPT goes on after it, its position counted. -/
def releaseHeld (idx : Nat) (p : Ply) : Ply :=
  let go := fun (l : List Path) => modNth l idx fun e => { e with pc := e.pc + 8, st := .ready, wait := .none }
  let held := fun (l : List Path) => (nth l idx {}).valid && (nth l idx {}).wait == .debug
  let step := fun (p : Ply) (l : List Path) => (strandList (nth l idx {}).strands).foldl (fun p st => p.write st 0 0 [] 0) p
  if held p.paths then { step p p.paths with paths := go p.paths }
  else if p.trap.mode && held p.trap.paths then
    let q := step (p.setMode false) p.trap.paths
    ({ q with trap := { q.trap with paths := go p.trap.paths } }).setMode true
  else p

/-- dbg.rel (R370). A slot names its resident skein: a path of a pre-empted one is not named, and stays held (DESIGN CHOICE, log 112). -/
def writeDbgRel (v : Word) (s : State) : State :=
  s.modPly (fld v 15 9) (fld v 13 2) (fld v 9 4) (releaseHeld (fld v 5 4))

/-- sync.bsq (R391): a launch for one base spindle is offered, once its record can be reached (R382); its writer waits until it is
accepted. -/
def writeBsq (c : Nat) (v : Word) (s : State) : Written :=
  let d := fld v 62 2
  let rec_ := fld v 6 50 * 64
  if !s.hasBsv || s.nStacks ≤ d then .absent
  else if v.getLsbD 61 || fld v 56 2 != 0 || fld v 0 6 != 0 then .ok s
  else if !s.readsAll rec_ 384 then .hold
  else
    let o : Offer :=
      { who := .core c, tid := 0, addr := ofN rec_, bytes := s.paBytes rec_ 384, nw := false, base := some (0x100 + 8 * d + fld v 58 3),
        region := none, asid := 0 }
    .ok ({ s with offers := s.offers ++ [o] }.modCore c fun k => { k with wait := .launch none })

/-- What a write by a system core does (R210, R212). acct.samp takes a SPINDLE that is not present, for its map names no trap (DESIGN CHOICE, log 65). -/
def coreWrite (c n : Nat) (v : Word) (s : State) : Written :=
  match n with
  | 0x0100 => .ok { s with affw := BitVec.ofNat 4 (fld v 16 4) }
  | 0x0101 => if fld v 0 6 == 0 && fld v 56 8 == 0 && !s.readsAll v.toNat 128 then .hold else .ok (writeRcbsync v s)
  | 0x0200 => if s.nFrames ≤ fld v 0 4 then .absent else .ok { s with frsel := BitVec.ofNat 4 (fld v 0 4) }
  | 0x0201 => .ok (s.modFrame s.frsel.toNat fun f => { f with swcap := min (fld v 0 7) 64 })
  | 0x0400 =>
    if s.nStacks ≤ fld v 4 2 then .absent
    else .ok { s with mcStack := BitVec.ofNat 2 (fld v 4 2), mcRange := BitVec.ofNat 3 (fld v 0 3) }
  | 0x0401 => if s.frbaseWaits v then .hold else .ok (writeFrbase v s)
  | 0x0402 => .ok (writeFrother (fun r => { r with geom := v &&& 0x0000FFFFFF00FFFF }) s)
  | 0x0403 => .ok (writeFrother (fun r => { r with scale := v &&& 0x000FFFFFFFFFFFC0 }) s)
  | 0x0510 => match writePreCtl v s with | some s => .ok s | none => .absent
  | 0x0600 => .ok { s with assel := BitVec.ofNat 8 (fld v 0 8) }
  | 0x0601 => .ok (writeAs v s)
  | 0x0602 => .ok (writeAsrcb v s)
  | 0x0603 =>
    if v.getLsbD 11 then .ok (wake v s) else if s.shootReady v then .ok (shootdown v s) else .hold
  | 0x0604 => .ok (writeFq v s)
  | 0x0605 => .ok (writeFqTail v s)
  | 0x0606 => .ok (writeHotcfg v s)
  | 0x0607 => .ok (writeMemCfg v s)
  | 0x0701 =>
    if s.nSpindles ≤ fld v 0 8 then .absent
    else .ok { s with aselSpindle := BitVec.ofNat 8 (fld v 0 8), aselArray := BitVec.ofNat 10 (fld v 16 10) }
  | 0x0702 => .ok (writeAown v s)
  | 0x0800 => .ok (if s.hasTree then { s with tbsel := BitVec.ofNat 3 (fld v 0 3) } else s)
  | 0x0801 => .ok (if s.hasTree then writeTbcfg v s else s)
  | 0x0803 => writeBsq c v s
  | 0x0900 => writePwrSel v s
  | 0x0901 => .ok (writePwrCfg v s)
  | 0x0902 => .ok (writePwrFrame v s)
  | 0x0905 => .ok (writeLinkStat s)
  | 0x0906 => .ok (writeLinkEth v s)
  | 0x0907 => .ok (if s.hasHost then { s with hostCtl := v &&& 0x800FFFFFF0000000 } else s)
  | 0x0908 => .ok (writeSecOp v s)
  | 0x0A00 => .ok (writeString v s)
  | 0x0A01 => .ok { s with strTail := fld v 0 20 }
  | 0x0A02 => .ok { s with samp := v &&& 0x80000000FFFF01FF, sampAt := s.time }
  | 0x0A03 =>
    if !s.spindlePresent (fld v 16 9) then .absent
    else .ok { s with cselSpindle := BitVec.ofNat 9 (fld v 16 9), cselCtr := BitVec.ofNat 4 (fld v 0 4) }
  | 0x0A05 => .ok { s with dbgHold := v &&& 0x80FFFFFFFFFFFFC0 }
  | 0x0A06 => .ok (writeDbgRel v s)
  | 0x0A07 => .ok (s.modCore c fun k => { k with rplCtl := v &&& 0xC00FFFFFFFFFF00F, rplHead := 0, rplTail := 0, rplPay := 0, rplVal := none, rplHeld := false })
  | 0x0A08 =>
    let s := s.modCore c fun k => { k with rplTail := fld v 0 20, rplHeld := false }
    if (s.core c).replaying && !s.betweenEntries c then .begun s else .ok s
  | _ => .ok s

/-! ## CSRR -/

/-- PRIVILEGE at check 8. -/
def privilegeTrap (i : Instr) : TrapRec :=
  match i.row, i.fields with
  | some r, some f => decodeTrap .privilege 8 (f.toWord r.opc r.fn)
  | _, _ => decodeTrap .privilege 8 0

/-- ctl.tcscale on a spindle (R122): DRIFT and the level of the cycle in which it is read (R395). -/
def Ctx.tcscale (c : Ctx) (s : State) : Word :=
  let x := (c.passToIssue s).spindle c.sp
  let now := x.cycleOf.getD (x.drift, s.levelOf c.sp)
  fields [(24, now.2), (16, s.affw.toNat), (0, now.1)]

/-- What a ply or distaff reads, where it may. -/
def Ctx.csrRead (c : Ctx) (n : Nat) (s : State) : Word :=
  match n with
  | 0x0000 => s.units
  | 0x0001 => s.stepping
  | 0x0100 => c.tcscale s
  | 0x0300 => c.readFlags
  | 0x0700 => bandWord (if isBase c.sp then (s.die (stackOf c.sp)).band else s.bandAbove c.sp)
  | 0x0802 => c.sk.detwin
  | _ => c.trapRead n

/-- A core's read of a counter, as of now: it is logged in record mode, and comes from the log in replay mode (R372). The value, where it does not
wait, and the state. -/
def coreCounter (c : Nat) (s : State) : Option Word × State :=
  let k := s.core c
  let s := s.passCycles s.cselSpindle.toNat
  let v := s.counterWord
  if k.replaying then (k.rplVal, s.modCore c fun k => { k with rplVal := none })
  else if k.recording then (if s.logFits c 1 0 then (some v, s.logPut c 1 v 0x0A04 []) else (none, s.logHolds c))
  else (some v, s)

/-- A core's CSRR. -/
def coreCsrr (c : Nat) (f : Fields) (s : State) : State :=
  if (s.core c).stuck [f.d] then s
  else if !coreRegsOk [f.d] [] then s.coreTrap c (.csrr f) .illegalField 6
  else if !csrCoreAllowed f.csr then s.coreTrap c (.csrr f) .privilege 8
  else
    match (if f.csr = 0x0A04 then coreCounter c s else (some (coreRead c f.csr s), s)) with
    | (none, s) => s
    | (some v, s) => (s.modCore c fun k => k.wr f.d v).coreRetire c

def execCsrr (f : Fields) (s : State) : Outcome State Fault Refusal :=
  match s.cur with
  | .core c => .next (coreCsrr c f s)
  | _ =>
    guarded (.csrr f) s fun f c s =>
      if !csrAllowed c.handler c.dist false f.csr then .trap (privilegeTrap (.csrr f))
      else .done (c.finishD f (c.csrRead f.csr s) (if f.csr == 0x0300 && !c.dist then c.modPly s fun p => p.landFlags c.strands else s))

/-! ## CSRW -/

/-- LOG2 and BASE of sync.detwin are acceptable (R334). -/
def detwinOk (v : Word) : Bool :=
  let lg := fld v 0 6
  lg == 0 || (decide (12 ≤ lg) && decide (lg ≤ 55) && fld v 12 44 * 4096 % 2 ^ lg == 0)

/-- What a write by a ply or distaff does to the state, fp.flags apart. -/
def Ctx.csrWrite (c : Ctx) (n : Nat) (v : Word) (s : State) : State :=
  if csrTrap n then c.trapWrite n v s
  else if n = 0x0802 && detwinOk v then s.modSkein c.sp c.slot fun k => { k with detwin := v &&& 0x00FFFFFFFFFFF03F }
  else s

/-- The write of fp.flags, as a register write of one strand of the path. -/
def Ctx.flagsWrite (c : Ctx) (n : Nat) (v : Word) (st : Nat) : List RegWrite :=
  if n = 0x0300 && !c.dist && st == c.first then [.flags (v.setWidth 5)] else []

/-- A core's write of a register: it retires, waits, or traps (R7). -/
def corePut (c : Nat) (f : Fields) (v : Word) (s : State) : State :=
  match coreWrite c f.csr v s with
  | .ok s => if (s.core c).wait == .none then s.coreRetire c else s
  | .absent => s.coreTrap c (.csrw f) .unitAbsent 7
  | .hold => s
  | .begun s => s

/-- A core's CSRW. -/
def coreCsrw (c : Nat) (f : Fields) (s : State) : State :=
  if (s.core c).stuck [f.a] then s
  else if !coreRegsOk [] [f.a] then s.coreTrap c (.csrw f) .illegalField 6
  else if !csrCoreAllowed f.csr then s.coreTrap c (.csrw f) .privilege 8
  else corePut c f (s.coreRd c f.a) s

def execCsrw (f : Fields) (s : State) : Outcome State Fault Refusal :=
  match s.cur with
  | .core c => .next (coreCsrw c f s)
  | _ =>
    guarded (.csrw f) s fun f c s =>
      let v := c.rd1 f.a
      if !csrAllowed c.handler c.dist true f.csr then .trap (privilegeTrap (.csrw f))
      else if c.accessPending s then .stall s
      else if c.stopWaits f.csr v then .stall (c.stopPly (fld v 0 4) s)
      else
        let s := c.csrWrite f.csr v (if f.csr == 0x0300 && !c.dist then c.modPly s fun p => p.coverFlags c.strands else s)
        .done (match s.skein? c.sp c.slot with
          | some k => if k.life == .ended && c.sk.life != .ended then s else c.finish f 0 (c.flagsWrite f.csr v) (fun _ => 0) s
          | none => s)

/-! ## Writes that are steps of the table: the same operations, by the party that makes them -/

/-- The fields of a CSRW of a register. -/
def csrwFields (n : Nat) : Fields := Fields.ofWord (BitVec.ofNat 64 (0x0610000000000000 + n * 256)) 0

/-- A write by a system core that may run, when its value is the one the step is about: its CSRW, from whichever register. -/
def coreStep (p : Party) (n : Nat) (sel : Bool) (v : Word) (s : State) : State :=
  match p with
  | .core c => if sel && s.coreReady c (.csrw (csrwFields n)) then corePut c (csrwFields n) v s else s
  | _ => s

/-- A write by a handler. -/
def handlerStep (p : Party) (n : Nat) (sel : Bool) (v : Word) (s : State) : State :=
  match s.ctx? p with
  | some c => if c.handler && c.live && sel && csrAllowed true c.dist true n then c.trapWrite n v s else s
  | none => s

def execMmuShootdown (p : Party) (v : Word) (s : State) : Outcome State Fault Refusal := .next (coreStep p 0x0603 (!v.getLsbD 11) v s)
def execMmuWake (p : Party) (v : Word) (s : State) : Outcome State Fault Refusal := .next (coreStep p 0x0603 (v.getLsbD 11) v s)
def execMmuFqWrite (p : Party) (v : Word) (s : State) : Outcome State Fault Refusal := .next (coreStep p 0x0604 true v s)
def execFqptrTailWrite (p : Party) (v : Word) (s : State) : Outcome State Fault Refusal := .next (coreStep p 0x0605 true v s)
def execHotcfgWrite (p : Party) (v : Word) (s : State) : Outcome State Fault Refusal := .next (coreStep p 0x0606 true v s)
def execMemCfgWrite (p : Party) (v : Word) (s : State) : Outcome State Fault Refusal := .next (coreStep p 0x0607 true v s)
def execMcFrbaseWrite (p : Party) (v : Word) (s : State) : Outcome State Fault Refusal := .next (coreStep p 0x0401 true v s)
def execRcbsyncWrite (p : Party) (v : Word) (s : State) : Outcome State Fault Refusal := .next (coreStep p 0x0101 true v s)
def execAcctStringWrite (p : Party) (v : Word) (s : State) : Outcome State Fault Refusal := .next (coreStep p 0x0A00 true v s)
def execDbgRelease (p : Party) (v : Word) (s : State) : Outcome State Fault Refusal := .next (coreStep p 0x0A06 true v s)
def execPreemptHold (p : Party) (v : Word) (s : State) : Outcome State Fault Refusal := .next (coreStep p 0x0510 (fld v 62 2 == 1) v s)
def execPreemptRelease (p : Party) (v : Word) (s : State) : Outcome State Fault Refusal := .next (coreStep p 0x0510 (fld v 62 2 == 2) v s)
def execPackageA4Request (p : Party) (v : Word) (s : State) : Outcome State Fault Refusal := .next (coreStep p 0x0901 (v.getLsbD 63) v s)
def execPwrForceGate (p : Party) (v : Word) (s : State) : Outcome State Fault Refusal := .next (coreStep p 0x0902 (v.getLsbD 15) v s)
def execPwrForceClear (p : Party) (v : Word) (s : State) : Outcome State Fault Refusal := .next (coreStep p 0x0902 (!v.getLsbD 15) v s)
def execSyncBsqWrite (p : Party) (v : Word) (s : State) : Outcome State Fault Refusal := .next (coreStep p 0x0803 true v s)

/-- A write of sec.op and the operation it begins, or that operation where it is in progress already. -/
def secStep (p : Party) (op : Nat) (v : Word) (s : State) : State :=
  let s := coreStep p 0x0908 (fld v 62 2 == op) v s
  if s.secPend == op && s.secOp == v &&& 0x070FFFFFFFFFFFC0 then secRun s else s
def execSecExtend (p : Party) (v : Word) (s : State) : Outcome State Fault Refusal := .next (secStep p 1 v s)
def execSecAttest (p : Party) (v : Word) (s : State) : Outcome State Fault Refusal := .next (secStep p 2 v s)
def execLinkStatWrite (p : Party) (v : Word) (s : State) : Outcome State Fault Refusal := .next (coreStep p 0x0905 true v s)
def execTrapPlyEnd (p : Party) (v : Word) (s : State) : Outcome State Fault Refusal := .next (handlerStep p 0x0504 (v.getLsbD 63) v s)
def execTrapPlyStop (p : Party) (v : Word) (s : State) : Outcome State Fault Refusal :=
  .next (handlerStep p 0x0504 (!v.getLsbD 63 && fld v 8 2 == 1) v s)
def execTrapPlyRun (p : Party) (v : Word) (s : State) : Outcome State Fault Refusal :=
  .next (handlerStep p 0x0504 (!v.getLsbD 63 && fld v 8 2 == 0) v s)
def execTrapRdatWrite (p : Party) (v : Word) (s : State) : Outcome State Fault Refusal := .next (handlerStep p 0x0507 true v s)

end Sys2Proof.Machine
end

