-- ==== Sys2Proof/Machine/Links.lean ====
section
/-! DEFINITION. Reset and boot (R384), Sweash links (R386), Ethernet ports (R387), the host port (R388), readiness and retraining (R382, R383), sampling
(R369) and replay (R372). -/

namespace Sys2Proof.Machine

open Host (Outcome)

/-! ## Reset and boot (R384) -/

/-- What outlasts package reset: crossbar cells and lifetime counters (R282, R292), GDDR-7 contents (DESIGN CHOICE, log 2), other packages'
memory, and the model's own counters. BUDGET is that of the part (R376). -/
def packageReset (s : State) : State :=
  { State.reset with
    tick := s.tick, agenda := s.agenda, cur := s.cur, opSeq := s.opSeq, units := s.units, stepping := s.stepping
    mem := s.mem.filter fun c => decide (c.1 < 0x2000000000), remote := s.remote
    spindles := s.spindles.map fun p => (p.1, { cells := p.2.cells, life := p.2.life })
    budget := if s.nStacks = 2 then 950 else 1800 }

def execPackageReset (s : State) : Outcome State Fault Refusal := .next (packageReset s)

/-- An image fetched over the port in use is run when its signature over the digest of its payload verifies under the fused key; the digest goes to
measurement slot 0 first. -/
def execBootImageFetched (payload sig : List Byte) (s : State) : Outcome State Fault Refusal :=
  match s.boot with
  | .fetching port =>
    if !s.ethUp.getLsbD port then .next s
    else
      let digest := digest64 (Config.shake256 payload)
      if Config.bootSignatureOk digest sig then .next { s with slots := aput s.slots 0 digest, boot := .running }
      else .next { s with boot := .failed (1 - port) (s.time + 10000000000) }
  | _ => .next s

/-- The other port is tried 10 s after a failure; a fetch over a port that is down has failed (R384; DEDUCED, log 60). -/
def execBootRetry (s : State) : Outcome State Fault Refusal :=
  match s.boot with
  | .failed port at_ => if s.time < at_ then .next s else .next { s with boot := .fetching port }
  | .fetching port => .next (if s.ethUp.getLsbD port then s else { s with boot := .failed (1 - port) (s.time + 10000000000) })
  | .running => .next s

/-! ## Sweash links (R386) -/

def execLinkStateChange (link : Nat) (up : Bool) (lanes peer : Nat) (s : State) : Outcome State Fault Refusal :=
  if s.nLinks ≤ link then .fault .noSuchUnit
  else .next { s with links := aput s.links link { agetD s.links link {} with up := up, lanes := min lanes 8, peer := peer % 64 } }.checkWaiting

def execLinkCrcRetry (link : Nat) (s : State) : Outcome State Fault Refusal :=
  if s.nLinks ≤ link then .fault .noSuchUnit
  else
    let l := agetD s.links link {}
    .next { s with links := aput s.links link { l with crcErr := min (l.crcErr + 1) 0xFFFFFFFF } }

/-! ## GDDR-7 devices (R382, R383) -/

def execGddrTrainingDone (dev : Nat) (s : State) : Outcome State Fault Refusal :=
  if s.nDevices ≤ dev then .fault .noSuchUnit
  else .next { s with memReady := s.memReady ||| BitVec.ofNat 32 (2 ^ dev) }.ringFlush.strFlush.checkWaiting

/-- The device whose turn it is: the first trained one in device order (R383). -/
def State.retrainTurn (s : State) : Nat :=
  (((List.range s.nDevices).map fun i => (s.retrainNext + i) % s.nDevices).find? fun d => s.memReady.getLsbD d).getD s.retrainNext

/-- The time of the next scheduled retrain: every MTRAIN ms (R383). -/
def State.nextRetrain (s : State) : Nat :=
  let n := s.mtrain.toNat * 1000000
  s.time + n - (s.time - s.retrainAt) % max n 1

/-- A retrain starts, when it is the device's turn or a controller finds its margin too low: until it ends, reads that miss wait. -/
def execGddrRetrain (dev : Nat) (lowMargin : Bool) (s : State) : Outcome State Fault Refusal :=
  if s.nDevices ≤ dev then .fault .noSuchUnit
  else if s.retraining.isSome || !s.memReady.getLsbD dev then .next s
  else if lowMargin then .next { s with retraining := some (dev, s.time + 2000) }
  else if s.mtrain == 0 || dev != s.retrainTurn || s.time < s.retrainAt then .next s
  else .next { s with retraining := some (dev, s.time + 2000), retrainNext := (dev + 1) % s.nDevices,
                      retrainAt := s.nextRetrain }

def execRetrainEnd (s : State) : Outcome State Fault Refusal :=
  match s.retraining with
  | none => .next s
  | some (_, t) => if s.time < t then .next s else .next { s with retraining := none }.checkWaiting

/-! ## The log of every core (R372) -/

/-- System cores whose log records, and whether some core replays: the ports are then detached. -/
def State.recorders (s : State) : List Nat := (List.range s.nCores).filter fun c => (s.core c).recording
def State.detached (s : State) : Bool := (List.range s.nCores).any fun c => (s.core c).replaying

/-- m entries, with n bytes in all, fit the log of every recording core. -/
def State.allFit (s : State) (m n : Nat) : Bool := s.recorders.all fun c => s.logFits c m n

/-- An arrival of bytes is logged by every recording core. -/
def State.logAll (s : State) (kind pa : Nat) (bytes : List Byte) : State :=
  s.recorders.foldl (fun s c => s.logPut c kind (ofN pa) (ofN (s.core c).rplPay) bytes) s

/-! ## Ethernet (R387) -/

/-- The network interrupt, on every system core; one that replays takes it from its log. -/
def State.raiseNetwork (s : State) : State :=
  (List.range s.nCores).foldl (fun s n => s.modCore n fun k => if k.replaying then k else { k with netPend := true }) s

/-- A descriptor's OWN, ERR and length. -/
def descWord (own err : Bool) (n : Nat) : Word := fields [(63, bit own), (62, bit err), (0, n % 65536)]

/-- A port's rings are in use now. -/
def State.portReady (s : State) (port : Nat) : Bool :=
  !s.a4 && s.ethUp.getLsbD port && (agetD s.eths port {}).ctl.getLsbD 63 && !s.detached

/-- Every line that a range touches can be reached now. -/
def State.reachesAll (s : State) (pa n : Nat) : Bool := s.reaches (pa / 64 * 64) (n + pa % 64)

/-- Every recording core whose log has no room for them is held (R372). -/
def State.holdMisfits (s : State) (m n : Nat) : State := (s.recorders.filter fun c => !s.logFits c m n).foldl State.logHolds s

/-- What a port writes to memory, logged as KIND 3: a frame, and what it does to a descriptor, so that replay has the same memory (R372, R373;
DEDUCED, log 47). -/
def State.portWrite (s : State) (pa : Nat) (bytes : List Byte) : State := (s.logAll 3 pa bytes).paPutBytes pa bytes

/-- A frame goes into the next receive buffer: its bytes, then its descriptor, then the interrupt. In A4 it begins the wake, and is not received. -/
def execEthReceive (port : Nat) (frame : List Byte) (s : State) : Outcome State Fault Refusal :=
  if 2 ≤ port then .fault .noSuchUnit
  else
    let e := agetD s.eths port {}
    let n := frame.length
    let d := ringBase e.ctl + 16 * e.rx
    let buf := (s.paRead d 8).toNat % 2 ^ 52
    if s.a4 then .next (if s.ethUp.getLsbD port then s.wakeA4 else s)
    else if !s.portReady port || 9216 < n || !s.readsAll d 16 || !(s.paRead (d + 8) 8).getLsbD 63 || !s.reachesAll buf n then .next s
    else if !s.allFit 2 (n + 8) then .next (s.holdMisfits 2 (n + 8))
    else
      let s := (s.portWrite buf frame).portWrite (d + 8) (natBytes 8 (descWord false false n).toNat)
      .next { s with eths := aput s.eths port { e with rx := ringNext e.ctl e.rx } }.raiseNetwork

/-- The frame of the next transmit descriptor leaves the part. -/
def execEthTransmit (port : Nat) (s : State) : Outcome State Fault Refusal :=
  if 2 ≤ port then .fault .noSuchUnit
  else
    let e := agetD s.eths port {}
    let d := ringBase e.ctl + 16 * ringSize e.ctl + 16 * e.tx
    let w := s.paRead (d + 8) 8
    if !s.portReady port || !s.readsAll d 16 || !w.getLsbD 63 || !s.readsAll ((s.paRead d 8).toNat % 2 ^ 52) (fld w 0 16) then .next s
    else if !s.allFit 1 8 then .next (s.holdMisfits 1 8)
    else
      let s := s.portWrite (d + 8) (natBytes 8 (descWord false (decide (9216 < fld w 0 16)) (fld w 0 16)).toNat)
      .next { s with eths := aput s.eths port { e with tx := ringNext e.ctl e.tx } }

def execEthernetPortStateChange (port : Nat) (up : Bool) (s : State) : Outcome State Fault Refusal :=
  if 2 ≤ port then .fault .noSuchUnit
  else
    let b := BitVec.ofNat 2 (2 ^ port)
    .next { s with ethUp := if up then s.ethUp ||| b else s.ethUp &&& ~~~b }

/-! ## The host port (R388) -/

def execHostPortTrained (s : State) : Outcome State Fault Refusal :=
  if !s.hasHost then .fault .noSuchUnit else .next { s with hostUp := true }

/-- An access of the host through BAR0 of up to eight bytes, to local memory from WBASE on: a write stores them, a read is answered with them. With EN
clear, or without HOSTP, a read is answered with all ones and a write dropped. In A4 it begins the wake. -/
def execHostAccess (off n : Nat) (w : Option Word) (s : State) : Outcome State Fault Refusal :=
  let pa := s.pkg.toNat * 0x400000000000 + (fld s.hostCtl 28 24 * 0x10000000 + off) % 0x400000000000
  if 0x10000000 < off + n || 8 < n || s.detached || (s.hasHost && !s.hostUp) then .next s
  else if s.a4 then .next (if s.hasHost then s.wakeA4 else s)
  else if !s.hasHost || !s.hostCtl.getLsbD 63 then
    .next (if w.isNone then { s with hostRead := some (BitVec.ofNat 64 (2 ^ (8 * n) - 1)) } else s)
  else if !(if w.isSome then s.reachesAll pa n else s.readsAll pa n) then .next s
  else
    match w with
    | none => .next { s with hostRead := some (s.paRead pa n) }
    | some v =>
      if !s.allFit 1 n then .next (s.holdMisfits 1 n)
      else .next ((s.logAll 4 pa (natBytes n v.toNat)).paPutBytes pa (natBytes n v.toNat))

/-! ## Sampling (R369) -/

/-- At each multiple of the period, and at no other time, the sampled spindle writes a pair for the path that issued last since the sample before;
`State.upNext` passes none over. The path that issued last is the spindle's own: one that issued before SPINDLE came to name the spindle counts
(DESIGN CHOICE, log 115). -/
def execSampleTick (s : State) : Outcome State Fault Refusal :=
  if s.sampleDue != some s.time then .next s
  else
    let sp := fld s.samp 0 9
    let s := { s with sampAt := s.time }
    match (s.spindle sp).lastPath with
    | none => .next s
    | some p => .next ((s.sampleRecord sp p).modSpindle sp fun x => { x with lastPath := none })

/-! ## Replay (R372) -/

/-- The addresses of n bytes of the payload ring from a place on, wrapping. -/
def ringPlaces (base size i n : Nat) : List Nat := (List.range n).map fun k => base + (i + k) % size

/-- A LAUNCH of the core waits for its value, its offer having been accepted. -/
def State.launchWaits (s : State) (c : Nat) : Option Nat :=
  match (s.core c).wait with
  | .launch (some d) => if s.offers.any fun o => o.who == .core c then none else some d
  | _ => none

/-- At a logged retired count the payload is written, and the interrupt, value or result delivered. -/
def execReplayDeliver (c : Nat) (s : State) : Outcome State Fault Refusal :=
  if s.nCores ≤ c then .fault .noSuchUnit
  else
    let k := s.core c
    let a := ringBase k.rplCtl + 32 * k.rplHead
    let w1 := s.paRead (a + 8) 8
    let w2 := s.paRead (a + 16) 8
    if !k.replaying || k.rplVal.isSome || k.logEmpty || !s.readsAll a 32 || (s.paRead a 8).toNat != k.retired then .next s
    else
      let past := fun (s : State) => s.modCore c fun k => { k with rplHead := ringNext k.rplCtl k.rplHead }
      match fld w1 56 8 with
      | 0 => .next (past (s.modCore c fun k => { k with faultPend := k.faultPend || w2.getLsbD 0, netPend := k.netPend || w2.getLsbD 1 }))
      | 1 => .next (past (s.modCore c fun k => { k with rplVal := some w2 }))
      | 2 =>
        (match s.launchWaits c with
         | none => .next s
         | some d => .next (past (s.modCore c fun k => { k with wait := .none, gpr := sset k.gpr d w2, retired := k.retired + 1 })))
      | _ =>
        let size := ringSize k.rplCtl
        let from_ := ringPlaces (ringBase k.rplCtl + 32 * size) (256 * size) (s.paRead (a + 24) 8).toNat (fld w1 32 24)
        let dst := w2.toNat % 2 ^ 52
        .next (if from_.all s.readable && s.reachesAll dst from_.length then past (s.paPutBytes dst (from_.map s.paByte)) else s)

end Sys2Proof.Machine
end

