-- ==== Sys2Proof/Machine/Run.lean ====
section
/-! DEFINITION. An instruction run by the party that stands in `cur`, from a place that issues one again: a held access that retries
(R227) and a pending trap at its boundary (R349). Events are not run from there. -/

namespace Sys2Proof.Machine

/-- Each instruction's meaning. -/
def runInstr (i : Instr) (s : State) : Host.Outcome State Fault Refusal :=
  match i with
  | .nop f => execNop f s
  | .yield f => execYield f s
  | .halt f => execHalt f s
  | .icsync f => execIcsync f s
  | .bkpt f => execBkpt f s
  | .br f => execBr f s
  | .brz f => execBrz f s
  | .brnz f => execBrnz f s
  | .jmpi f => execJmpi f s
  | .call f => execCall f s
  | .ret f => execRet f s
  | .join f => execJoin f s
  | .exit f => execExit f s
  | .plyw f => execPlyw f s
  | .msave f => execMsave f s
  | .mset f => execMset f s
  | .mand f => execMand f s
  | .mor f => execMor f s
  | .mxor f => execMxor f s
  | .mnot f => execMnot f s
  | .trap f => execTrap f s
  | .syscall f => execSyscall f s
  | .eret f => execEret f s
  | .csrr f => execCsrr f s
  | .csrw f => execCsrw f s
  | .launch f => execLaunch f s
  | .iadd f => execIadd f s
  | .isub f => execIsub f s
  | .imul f => execImul f s
  | .imulh f => execImulh f s
  | .imad f => execImad f s
  | .imin f => execImin f s
  | .imax f => execImax f s
  | .iabs f => execIabs f s
  | .and f => execAnd f s
  | .or f => execOr f s
  | .xor f => execXor f s
  | .not f => execNot f s
  | .shl f => execShl f s
  | .shr f => execShr f s
  | .sar f => execSar f s
  | .rol f => execRol f s
  | .ror f => execRor f s
  | .popc f => execPopc f s
  | .clz f => execClz f s
  | .brev f => execBrev f s
  | .bfe f => execBfe f s
  | .bfi f => execBfi f s
  | .sel f => execSel f s
  | .icmpEq f => execIcmpEq f s
  | .icmpNe f => execIcmpNe f s
  | .icmpLt f => execIcmpLt f s
  | .icmpLe f => execIcmpLe f s
  | .icmpGt f => execIcmpGt f s
  | .icmpGe f => execIcmpGe f s
  | .mov f => execMov f s
  | .movi f => execMovi f s
  | .fadd f => execFadd f s
  | .fsub f => execFsub f s
  | .fmul f => execFmul f s
  | .ffma f => execFfma f s
  | .fmin f => execFmin f s
  | .fmax f => execFmax f s
  | .fcmpEq f => execFcmpEq f s
  | .fcmpNe f => execFcmpNe f s
  | .fcmpLt f => execFcmpLt f s
  | .fcmpLe f => execFcmpLe f s
  | .fcmpGt f => execFcmpGt f s
  | .fcmpGe f => execFcmpGe f s
  | .fcmpUo f => execFcmpUo f s
  | .fcmpOrd f => execFcmpOrd f s
  | .fsel f => execFsel f s
  | .frcp f => execFrcp f s
  | .frsq f => execFrsq f s
  | .fsqrt f => execFsqrt f s
  | .fexp2 f => execFexp2 f s
  | .flog2 f => execFlog2 f s
  | .fsin f => execFsin f s
  | .fcos f => execFcos f s
  | .frnd f => execFrnd f s
  | .cvt f => execCvt f s
  | .packPair f => execPackPair f s
  | .packQuad f => execPackQuad f s
  | .packOct f => execPackOct f s
  | .unpkPair f => execUnpkPair f s
  | .unpkQuad f => execUnpkQuad f s
  | .unpkOct f => execUnpkOct f s
  | .shflIdx f => execShflIdx f s
  | .shflUp f => execShflUp f s
  | .shflDown f => execShflDown f s
  | .shflXor f => execShflXor f s
  | .voteAll f => execVoteAll f s
  | .voteAny f => execVoteAny f s
  | .voteBallot f => execVoteBallot f s
  | .voteEq f => execVoteEq f s
  | .redAdd f => execRedAdd f s
  | .redMin f => execRedMin f s
  | .redMax f => execRedMax f s
  | .redAnd f => execRedAnd f s
  | .redOr f => execRedOr f s
  | .redXor f => execRedXor f s
  | .scanAdd f => execScanAdd f s
  | .scanMin f => execScanMin f s
  | .scanMax f => execScanMax f s
  | .scanAnd f => execScanAnd f s
  | .scanOr f => execScanOr f s
  | .scanXor f => execScanXor f s
  | .bcast f => execBcast f s
  | .rds f => execRds f s
  | .ld f => execLd f s
  | .st f => execSt f s
  | .ldu f => execLdu f s
  | .pref f => execPref f s
  | .atomAdd f => execAtomAdd f s
  | .atomMin f => execAtomMin f s
  | .atomMax f => execAtomMax f s
  | .atomAnd f => execAtomAnd f s
  | .atomOr f => execAtomOr f s
  | .atomXor f => execAtomXor f s
  | .atomXchg f => execAtomXchg f s
  | .atomCas f => execAtomCas f s
  | .atomInc f => execAtomInc f s
  | .mredAdd f => execMredAdd f s
  | .mredMin f => execMredMin f s
  | .mredMax f => execMredMax f s
  | .mredAnd f => execMredAnd f s
  | .mredOr f => execMredOr f s
  | .mredXor f => execMredXor f s
  | .mredInc f => execMredInc f s
  | .bara f => execBara f s
  | .barw f => execBarw f s
  | .barx f => execBarx f s
  | .tbar f => execTbar f s
  | .fenceQ f => execFenceQ f s
  | .fenceSys f => execFenceSys f s
  | .tokenGet f => execTokenGet f s
  | .tokenPut f => execTokenPut f s
  | .dqpush f => execDqpush f s
  | .dqpop f => execDqpop f s
  | .evpop f => execEvpop f s
  | .vfpush f => execVfpush f s
  | .vfpop f => execVfpop f s
  | .vfcnt f => execVfcnt f s
  | .cpy f => execCpy f s
  | .cpyMig f => execCpyMig f s
  | .cpyc f => execCpyc f s
  | .cpyg f => execCpyg f s
  | .cpys f => execCpys f s
  | .cpyk f => execCpyk f s
  | .stage f => execStage f s
  | .qfence f => execQfence f s
  | .tcfg f => execTcfg f s
  | .tld f => execTld f s
  | .tst f => execTst f s
  | .tzero f => execTzero f s
  | .mma f => execMma f s
  | .mmas f => execMmas f s
  | .mmax f => execMmax f s
  | .tcvt f => execTcvt f s
  | .srfence f => execSrfence f s
  | .xg f => execXg f s
  | .xgP f => execXgP f s
  | .xinit f => execXinit f s
  | .xrd f => execXrd f s
  | .xrdQ f => execXrdQ f s
  | .xwr f => execXwr f s
  | .xfill f => execXfill f s
  | .xwin f => execXwin f s
  | .xration f => execXration f s
  | .xrun f => execXrun f s
  | .xstat f => execXstat f s
  | .xmap f => execXmap f s
  | .xmapWr f => execXmapWr f s
  | _ => .next s

end Sys2Proof.Machine
end

