-- ==== Sys2Proof/Machine/Issue.lean ====
section
/-! DEFINITION. Issuing: which parties may issue (R120, R227, R332, R355), what an issue does (R83, R100, R110), the retries and
landings that stand between issues (R93, R109, R111, R117, R226, R227), taking a pending trap (R340, R342, R349), and what the next
action of the part is (DESIGN CHOICE, log 3). -/

namespace Sys2Proof.Machine

open Host (Outcome)

/-! ## Candidates (R120) -/

/-- A wait at whose end the party issues its instruction again. -/
def Wait.issues (w : Wait) : Bool :=
  match w with
  | .none | .again | .commands _ | .launch _ _ false => true
  | _ => false

/-- A path that could issue, as far as its own entry goes: a ready one, or a producer that waits for earlier accesses. -/
def Path.canIssue (e : Path) : Bool := e.valid && e.wait.issues && (e.st == .ready || (e.st == .blocked && e.wait == .again))

/-- Everything that a resumed skein's parties wait for before they issue has been performed (R355). -/
def Ctx.caughtUp (c : Ctx) (s : State) : Bool := !s.settling c.sk.uid && ((s.spindle c.sp).pendingOf c.sk.back).isEmpty

/-! ## One issue -/

/-- Ready paths at the address of a ready path merge with it (R110); the party is then the path of the lowest entry. -/
def Ctx.merged (c : Ctx) (s : State) : Party × State :=
  if c.dist || !c.path.toIssue then (c.who, s)
  else
    let s := c.modPly s fun p => p.mergeReady c.pc
    let at_ := fun (e : Path) => e.toIssue && e.pc == c.pc
    (.path c.sp c.slot c.plyNo ((c.ply.paths.findIdx? at_).getD c.idx), s)

/-- A fetch fault is a trap at the instruction, once its record is in the ring; until then the whole ply is held (R227, R231). -/
def Ctx.fetchTrap (c : Ctx) (va : Word) (kind : TrapKind) (rec? : Option (Nat × Word)) (s : State) : State :=
  let t : TrapRec := { kind, check := 1, addr := va }
  match rec? with
  | none => takeTrap c t c.pc s
  | some (k, info) =>
    let s' := s.ringWrite (c.ringRec k va info none)
    if s.ringFree = 0 || c.trapWaits s' then c.holdRing none s
    else if c.siblingsOut s' then c.hold none [] s
    else takeTrap c t c.pc s'

/-- The trap of a word that does not decode (checks 2, 3 and 5; check 4 comes before 5). -/
def decodeFailure (dist : Bool) (d : Decoded) (w : Word) : Option TrapRec :=
  match d with
  | .instr _ => none
  | .badOpcode => some (decodeTrap .illegalOpcode 2 w)
  | .badFunction => some (decodeTrap .illegalOpcode 3 w)
  | .badField r => some (if runsOk r dist then decodeTrap .illegalField 5 w else decodeTrap .illegalOpcode 4 w)

/-- The party fetches, decodes and runs the instruction at its program counter. -/
def fetchRun (run : Instr → State → Outcome State Fault Refusal) (p : Party) (s : State) : Outcome State Fault Refusal :=
  match s.ctx? p with
  | none => .next s
  | some c =>
    match fetch c s with
    | .wait => .next (c.again s)
    | .fault va k r s' => .next (c.fetchTrap va k r s')
    | .decoded (.instr i) _ s' => run i { s' with cur := p }
    | .decoded d w s' =>
      match decodeFailure c.dist d w with
      | none => .next s'
      | some t => .next (takeTrap c t c.pc s')

/-- It waits at an instruction that it will issue again: nothing but the wait has come of it (R117, R120, R255, R320). -/
def Wait.atIssue (w : Wait) : Bool :=
  match w with
  | .again | .commands _ | .credit | .launch _ _ false => true
  | _ => false

/-- A lower path that waits at its instruction is a candidate once what it waits for has come, whether or not it has been looked at since: a trial
of its issue then does not leave it there, or holds its ply. -/
def Ctx.freed (c : Ctx) (j : Nat) (s : State) : Bool :=
  let p := Party.path c.sp c.slot c.plyNo j
  match s.ctx? p with
  | none => false
  | some l =>
    l.path.wait.atIssue &&
    (match fetchRun runInstr p (if l.path.wait == .credit then l.setWait .ready .none s else s) with
     | .next u => (match u.ctx? p with | some m => m.pc != l.pc || !m.path.wait.atIssue || m.ply.held.isSome | none => true)
     | _ => true)

/-- A lower path of the ply is a candidate and issues first, in a deterministic launch (R332). -/
def Ctx.yields (c : Ctx) (s : State) : Bool :=
  !c.dist && c.la.det && (List.range c.idx).any fun j =>
    let e := nth c.ply.paths j {}
    e.valid && ((e.st == .ready && e.wait == .none) || c.freed j s)

/-- The party may issue. -/
def Ctx.candidate (c : Ctx) (s : State) : Bool :=
  c.live && c.caughtUp s && !c.yields s
  && (if c.dist then !c.sk.dist.exited && c.sk.dist.held.isNone && c.sk.dist.wait.issues
      else c.path.canIssue && c.ply.held.isNone)

/-- One issue by a party: nothing happens where it may not issue. -/
def issueParty (run : Instr → State → Outcome State Fault Refusal) (p : Party) (s : State) : Outcome State Fault Refusal :=
  match s.ctx? p with
  | none => .next s
  | some c =>
    if !c.candidate s then .next s
    else fetchRun run (c.merged s).1 (c.merged s).2

/-- The word's opcode is that of one of the five instructions that a core executes: CSRR and CSRW, LAUNCH, FENCE.sys, and CPY with MIG set. -/
def coreOpcode (w : Word) : Bool :=
  fld w 56 8 == 6 || fld w 56 8 == 7 || fld w 52 12 == 0x941 || (fld w 52 12 == 0xA00 && w.getLsbD 6)

/-- A word executed by a system core: the instructions whose effect on a core the spec gives, once it may run and after a pending interrupt that
can be taken. A malformed word of one of them traps, which the core records (DESIGN CHOICE, log 5). -/
def coreIssue (run : Instr → State → Outcome State Fault Refusal) (n : Nat) (w : Word) (s : State) : Outcome State Fault Refusal :=
  if s.nCores ≤ n then .fault .noSuchUnit
  else if !s.coreRuns n then .next s
  else
    match decode w 0 with
    | .instr i =>
      if s.interruptFirst n i then .next (s.takeInterrupt n) else if s.logLets n i then run i { s with cur := .core n } else .next s
    | d =>
      if (s.core n).interrupted then .next (s.takeInterrupt n)
      else if !coreOpcode w then .refused .coreIsaNotGiven
      else
        match decodeFailure true d w with
        | some t => .next (s.modCore n fun k => { k with trap := some t })
        | none => .next s

/-! ## Taking a pending trap (R340, R342, R349) -/

/-- The party stands before an instruction that is still to be checked: none that it waits at has been (R349). -/
def Ctx.atFetch (c : Ctx) : Bool :=
  let mine := fun (h : Option Held) => match h with | some h => h.path == c.idx | none => false
  (c.waitNow == .none || c.waitNow == .again) && (if c.dist then c.sk.dist.held.isNone else c.path.st != .waiting && !mine c.ply.held)

/-- A party takes a pending trap at its boundary. One that waits at an instruction, which has been checked, takes it there; one that
is about to issue first has that instruction checked in full, though a sibling's access holds the ply. -/
def execTakeTrap (p : Party) (s : State) : Outcome State Fault Refusal :=
  match s.ctx? p with
  | none => .next s
  | some c =>
    match c.pending with
    | [] => .next s
    | t :: _ =>
      if !c.live || !c.caughtUp s || (!c.dist && c.path.st == .exited) || (c.dist && c.sk.dist.exited) || c.waitNow.onItsWay then .next s
      else if c.atFetch then fetchRun runInstr p s
      else .next (takePending c t s)

/-! ## Retries (R117, R226, R227, R231, R246) -/

/-- What is held may try again: a wake covered one of its pages, or it waits for no page, and for the ring no longer (R226, R231). -/
def Held.mayRetry (h : Held) (s : State) : Bool := h.woken || (h.pages.isEmpty && (!h.ring || decide (0 < s.ringFree)))

/-- A party is no longer held, and its instruction runs again. -/
def retryHeld (c : Ctx) (h : Held) (s : State) : Outcome State Fault Refusal :=
  if !c.live || !h.mayRetry s then .next s
  else
    let s := if c.dist then c.modDist s fun d => { d with held := none } else c.modPly s fun p => { p with held := none }
    match h.ins with
    | none => .next s
    | some i => runInstr i { s with cur := c.who }

def execHeldAccessRetry (t : RetryTarget) (s : State) : Outcome State Fault Refusal :=
  match t with
  | .ply sp slot ply =>
    (match (s.skein? sp slot).bind fun k => (k.ply ply).held with
     | none => .next s
     | some h =>
       match s.ctx? (.path sp slot ply h.path) with
       | none => .next s
       | some c => retryHeld c h s)
  | .dist sp slot =>
    (match (s.skein? sp slot).bind fun k => k.dist.held, s.ctx? (.dist sp slot) with
     | some h, some c => retryHeld c h s
     | _, _ => .next s)
  | .copySpindle sp q err => if !s.spindlePresent sp then .fault .noSuchUnit else .next (copyRetry sp q err s)
  | .copyCore c q err => if s.nCores ≤ c then .fault .noSuchUnit else .next (migRetry c q err s)

/-- A party that waits for a queue place or a credit tries its instruction again. -/
def execQueueCreditRetry (p : Party) (s : State) : Outcome State Fault Refusal :=
  s.forParty p fun c => if c.waitNow == .credit then c.setWait .ready .none s else s

/-! ## Landings (R93, R111, R341) -/

/-- How far a party's writes are due: what an exited one still had to write lands whatever its position was. -/
def dueBound (exited : Bool) (pos : Nat) : Nat := if exited then pos + 17 else pos

/-- The values that have come back for a party land at their positions, and an exited path's entry is freed when none is left. -/
def execLongLatencyLanding (p : Party) (s : State) : Outcome State Fault Refusal :=
  match s.ctx? p with
  | none => .next s
  | some c =>
    if c.dist then .next (c.modDist s fun d => (d.landAside (dueBound d.exited d.pos)).land (dueBound d.exited d.curPos))
    else
      let s := s.modSkein c.sp c.slot fun k => k.exitedErrors c.plyNo
      .next (c.modPly s fun p =>
        (c.strands.foldl (fun p st =>
          (p.landAside st (dueBound (p.exited.getLsbD st) (nth p.pos st 0))).land st (dueBound (p.exited.getLsbD st) (p.curPos st))) p).freeExited)

/-! ## Joining (R109) -/

/-- Once no path of the ply runs, those that wait at the lowest JOIN merge. -/
def execJoinMerge (sp slot ply : Nat) (s : State) : Outcome State Fault Refusal :=
  match s.skein? sp slot with
  | none => .next s
  | some k =>
    if k.life != .running || k.pre != .no || (k.ply ply).stopped then .next s
    else .next (s.modPly sp slot ply Ply.joinMerge)

/-! ## The next action (DESIGN CHOICE, log 3) -/

/-- The base dies start at once at power-on (R381). -/
def State.startBase (s : State) : State := if s.bdie == 0 then { s with bdie := BitVec.ofNat 4 (2 ^ s.nStacks - 1) } else s

/-- A boundary of a die, with power estimates that are free (DESIGN CHOICE, log 20). -/
def State.boundaryOf (s : State) (d : Nat) : Action :=
  .event (.intervalBoundary d ((List.range 4).map fun i => Config.freeNat s.tick (8 * i + 13)) (Config.freeNat s.tick 14))

/-- What comes at a fixed time, and when: the interval boundaries (R378) and the samples (R369). -/
def State.timed (s : State) : List (Nat × Action) :=
  ((List.range s.nStacks).map fun d => (s.boundaryDue d, s.boundaryOf d)) ++ (s.sampleDue.map fun t => (t, Action.event .sampleTick)).toList

/-- What happens next and when: the head of the agenda, or a free choice; its time has passed and the tick is a new one. No interval boundary and
no sample is passed over: one that is due before comes first, at its own time, and the rest of the wait remains (R369, R378). -/
def State.upNext (s0 : State) : Action × State :=
  let s := s0.startBase
  let dt := match s.agenda with | (dt, _) :: _ => dt | [] => Config.elapsed s.tick
  match (leastOf Prod.fst s.timed).filter fun x => decide (x.1 < s.time + dt) with
  | some (due, a) => (a, { s with agenda := modNth s.agenda 0 fun x => (x.1 + s.time - due, x.2), time := due, tick := s.tick + 1 })
  | none =>
    match s.agenda with
    | (dt, a) :: rest => (a, { s with agenda := rest, time := s.time + dt, tick := s.tick + 1 })
    | [] => (Config.nextAction s.tick, { s with time := s.time + dt, tick := s.tick + 1 })

/-- A party's fetch runs ahead to a line (R112): it is buffered where a fetch of it would succeed, and nothing else happens. -/
def fetchAhead (p : Party) (va : Word) (s : State) : State :=
  match s.ctx? p with
  | none => s
  | some c =>
    let line := va &&& ~~~63
    if !c.live || !c.caughtUp s then s
    else
      match fetchWord c s line with
      | .word _ l => c.keepLine l s
      | _ => s

/-- One action: an issue, a fetch that runs ahead, a core's word, or an event of the table. An instruction is no event. -/
def perform (run : Instr → State → Outcome State Fault Refusal) (a : Action) (s : State) : Outcome State Fault Refusal :=
  match a with
  | .issue p => issueParty run p s
  | .fetchAhead p va => .next (fetchAhead p va s)
  | .coreWord c w => coreIssue run c w s
  | .event i => if i.row.isSome then .next s else run i s

/-! ## Loading one instruction (DESIGN CHOICE, log 30) -/

/-- The kernel of the loaded skein: 16 threads, one ply, and every kind of register and store. -/
def loadHeader : Header :=
  { widthCode := 1, plies := 1, vregs := 256, tiles := 16, xarrays := 4, scratch := 4096, priv := 4, barOff := 128, barCount := 4 }

/-- Where the code stands: virtual and local physical address. -/
def loadPc : Nat := 0x4000

/-- Table entries that map the first 1 GiB, read, write and execute, to local memory from 0 on; the tables lie at 0x1000. -/
def loadTables (home : Nat) : List (Nat × Nat) :=
  [(0x1000, home + 0x2000 + 3), (0x2000, home + 0x3000 + 3), (0x3000, home + 0x1D)]

/-- The action that runs a word: a core's for CPY.mig, the distaff's where only a distaff may, else a path's. -/
def loadAction (w : Word) (x : Word) : Action :=
  match decode w x with
  | .instr (.cpyMig _) => .coreWord 0 w
  | .instr i => if (i.row.map OpRow.runs).getD .both == .dist then .issue (.dist 0 0) else .issue (.path 0 0 0 0)
  | _ => .issue (.path 0 0 0 0)

/-- A launch and one skein of it, resident on spindle 0 with the program counters at the code. -/
def State.loadWord (s : State) (w : Nat) : State :=
  let home := s.pkg.toNat * 0x400000000000
  let w0 := BitVec.ofNat 64 w
  let w1 := BitVec.ofNat 64 (w / 2 ^ 64)
  let l : Launch :=
    { acc := s.acceptCount, st := .draining, hdr := loadHeader, lrec := { gridX := 1, gridY := 1, gridZ := 1 }, root := home + 0x1000, placed := 1 }
  let ply : Ply :=
    { exm := allThreads 16, paths := { valid := true, pc := ofN loadPc, strands := allStrands 16 } :: List.replicate 15 {}
      pos := List.replicate 16 0, hpos := List.replicate 16 0, stage := List.replicate 16 0, privNum := some 0 }
  let k : Skein :=
    { uid := s.opSeq, launch := s.acceptCount, dist := { pc := ofN loadPc }, plies := [ply], tiles := List.replicate 16 {}
      rowMap := startMap, colMap := startMap, arrays := [0, 1, 2, 3] }
  let s := { s with
    agenda := (0, loadAction w0 w1) :: s.agenda, opSeq := s.opSeq + 1, acceptCount := s.acceptCount + 1, memReady := s.memReady ||| 0xFFFFFFFF
    a4 := false, cdie := s.cdie ||| 1, boot := .running, launches := aput s.launches s.acceptCount l
    spindles := aput s.spindles 0 { s.spindle 0 with slots := [some k, none, none, none], tlb := [] }
    frames := adel s.frames 0 }
  let s := (loadTables home).foldl (fun s e => s.paWrite (home + e.1) 8 (ofN e.2)) s
  let s := (s.paWrite (home + loadPc) 8 w0).paWrite (home + loadPc + 8) 8 w1
  { s with known := .rooted 0 (home + 0x1000) :: s.known }

end Sys2Proof.Machine
end

