-- ==== Sys2Proof/Machine/Dispatch.lean ====
section
/-! DEFINITION. One arm per instruction and per step of spec/opcode_table.json. -/

namespace Sys2Proof.Machine

open Sys2Proof

def exec (i : Instr) (s : State) : Host.Outcome State Fault Refusal :=
  match i with
  | .nop f => Sys2Proof.Machine.execNop f s
  | .yield f => Sys2Proof.Machine.execYield f s
  | .halt f => Sys2Proof.Machine.execHalt f s
  | .icsync f => Sys2Proof.Machine.execIcsync f s
  | .bkpt f => Sys2Proof.Machine.execBkpt f s
  | .br f => Sys2Proof.Machine.execBr f s
  | .brz f => Sys2Proof.Machine.execBrz f s
  | .brnz f => Sys2Proof.Machine.execBrnz f s
  | .jmpi f => Sys2Proof.Machine.execJmpi f s
  | .call f => Sys2Proof.Machine.execCall f s
  | .ret f => Sys2Proof.Machine.execRet f s
  | .join f => Sys2Proof.Machine.execJoin f s
  | .exit f => Sys2Proof.Machine.execExit f s
  | .plyw f => Sys2Proof.Machine.execPlyw f s
  | .msave f => Sys2Proof.Machine.execMsave f s
  | .mset f => Sys2Proof.Machine.execMset f s
  | .mand f => Sys2Proof.Machine.execMand f s
  | .mor f => Sys2Proof.Machine.execMor f s
  | .mxor f => Sys2Proof.Machine.execMxor f s
  | .mnot f => Sys2Proof.Machine.execMnot f s
  | .trap f => Sys2Proof.Machine.execTrap f s
  | .syscall f => Sys2Proof.Machine.execSyscall f s
  | .eret f => Sys2Proof.Machine.execEret f s
  | .csrr f => Sys2Proof.Machine.execCsrr f s
  | .csrw f => Sys2Proof.Machine.execCsrw f s
  | .launch f => Sys2Proof.Machine.execLaunch f s
  | .iadd f => Sys2Proof.Machine.execIadd f s
  | .isub f => Sys2Proof.Machine.execIsub f s
  | .imul f => Sys2Proof.Machine.execImul f s
  | .imulh f => Sys2Proof.Machine.execImulh f s
  | .imad f => Sys2Proof.Machine.execImad f s
  | .imin f => Sys2Proof.Machine.execImin f s
  | .imax f => Sys2Proof.Machine.execImax f s
  | .iabs f => Sys2Proof.Machine.execIabs f s
  | .and f => Sys2Proof.Machine.execAnd f s
  | .or f => Sys2Proof.Machine.execOr f s
  | .xor f => Sys2Proof.Machine.execXor f s
  | .not f => Sys2Proof.Machine.execNot f s
  | .shl f => Sys2Proof.Machine.execShl f s
  | .shr f => Sys2Proof.Machine.execShr f s
  | .sar f => Sys2Proof.Machine.execSar f s
  | .rol f => Sys2Proof.Machine.execRol f s
  | .ror f => Sys2Proof.Machine.execRor f s
  | .popc f => Sys2Proof.Machine.execPopc f s
  | .clz f => Sys2Proof.Machine.execClz f s
  | .brev f => Sys2Proof.Machine.execBrev f s
  | .bfe f => Sys2Proof.Machine.execBfe f s
  | .bfi f => Sys2Proof.Machine.execBfi f s
  | .sel f => Sys2Proof.Machine.execSel f s
  | .icmpEq f => Sys2Proof.Machine.execIcmpEq f s
  | .icmpNe f => Sys2Proof.Machine.execIcmpNe f s
  | .icmpLt f => Sys2Proof.Machine.execIcmpLt f s
  | .icmpLe f => Sys2Proof.Machine.execIcmpLe f s
  | .icmpGt f => Sys2Proof.Machine.execIcmpGt f s
  | .icmpGe f => Sys2Proof.Machine.execIcmpGe f s
  | .mov f => Sys2Proof.Machine.execMov f s
  | .movi f => Sys2Proof.Machine.execMovi f s
  | .fadd f => Sys2Proof.Machine.execFadd f s
  | .fsub f => Sys2Proof.Machine.execFsub f s
  | .fmul f => Sys2Proof.Machine.execFmul f s
  | .ffma f => Sys2Proof.Machine.execFfma f s
  | .fmin f => Sys2Proof.Machine.execFmin f s
  | .fmax f => Sys2Proof.Machine.execFmax f s
  | .fcmpEq f => Sys2Proof.Machine.execFcmpEq f s
  | .fcmpNe f => Sys2Proof.Machine.execFcmpNe f s
  | .fcmpLt f => Sys2Proof.Machine.execFcmpLt f s
  | .fcmpLe f => Sys2Proof.Machine.execFcmpLe f s
  | .fcmpGt f => Sys2Proof.Machine.execFcmpGt f s
  | .fcmpGe f => Sys2Proof.Machine.execFcmpGe f s
  | .fcmpUo f => Sys2Proof.Machine.execFcmpUo f s
  | .fcmpOrd f => Sys2Proof.Machine.execFcmpOrd f s
  | .fsel f => Sys2Proof.Machine.execFsel f s
  | .frcp f => Sys2Proof.Machine.execFrcp f s
  | .frsq f => Sys2Proof.Machine.execFrsq f s
  | .fsqrt f => Sys2Proof.Machine.execFsqrt f s
  | .fexp2 f => Sys2Proof.Machine.execFexp2 f s
  | .flog2 f => Sys2Proof.Machine.execFlog2 f s
  | .fsin f => Sys2Proof.Machine.execFsin f s
  | .fcos f => Sys2Proof.Machine.execFcos f s
  | .frnd f => Sys2Proof.Machine.execFrnd f s
  | .cvt f => Sys2Proof.Machine.execCvt f s
  | .packPair f => Sys2Proof.Machine.execPackPair f s
  | .packQuad f => Sys2Proof.Machine.execPackQuad f s
  | .packOct f => Sys2Proof.Machine.execPackOct f s
  | .unpkPair f => Sys2Proof.Machine.execUnpkPair f s
  | .unpkQuad f => Sys2Proof.Machine.execUnpkQuad f s
  | .unpkOct f => Sys2Proof.Machine.execUnpkOct f s
  | .shflIdx f => Sys2Proof.Machine.execShflIdx f s
  | .shflUp f => Sys2Proof.Machine.execShflUp f s
  | .shflDown f => Sys2Proof.Machine.execShflDown f s
  | .shflXor f => Sys2Proof.Machine.execShflXor f s
  | .voteAll f => Sys2Proof.Machine.execVoteAll f s
  | .voteAny f => Sys2Proof.Machine.execVoteAny f s
  | .voteBallot f => Sys2Proof.Machine.execVoteBallot f s
  | .voteEq f => Sys2Proof.Machine.execVoteEq f s
  | .redAdd f => Sys2Proof.Machine.execRedAdd f s
  | .redMin f => Sys2Proof.Machine.execRedMin f s
  | .redMax f => Sys2Proof.Machine.execRedMax f s
  | .redAnd f => Sys2Proof.Machine.execRedAnd f s
  | .redOr f => Sys2Proof.Machine.execRedOr f s
  | .redXor f => Sys2Proof.Machine.execRedXor f s
  | .scanAdd f => Sys2Proof.Machine.execScanAdd f s
  | .scanMin f => Sys2Proof.Machine.execScanMin f s
  | .scanMax f => Sys2Proof.Machine.execScanMax f s
  | .scanAnd f => Sys2Proof.Machine.execScanAnd f s
  | .scanOr f => Sys2Proof.Machine.execScanOr f s
  | .scanXor f => Sys2Proof.Machine.execScanXor f s
  | .bcast f => Sys2Proof.Machine.execBcast f s
  | .rds f => Sys2Proof.Machine.execRds f s
  | .ld f => Sys2Proof.Machine.execLd f s
  | .st f => Sys2Proof.Machine.execSt f s
  | .ldu f => Sys2Proof.Machine.execLdu f s
  | .pref f => Sys2Proof.Machine.execPref f s
  | .atomAdd f => Sys2Proof.Machine.execAtomAdd f s
  | .atomMin f => Sys2Proof.Machine.execAtomMin f s
  | .atomMax f => Sys2Proof.Machine.execAtomMax f s
  | .atomAnd f => Sys2Proof.Machine.execAtomAnd f s
  | .atomOr f => Sys2Proof.Machine.execAtomOr f s
  | .atomXor f => Sys2Proof.Machine.execAtomXor f s
  | .atomXchg f => Sys2Proof.Machine.execAtomXchg f s
  | .atomCas f => Sys2Proof.Machine.execAtomCas f s
  | .atomInc f => Sys2Proof.Machine.execAtomInc f s
  | .mredAdd f => Sys2Proof.Machine.execMredAdd f s
  | .mredMin f => Sys2Proof.Machine.execMredMin f s
  | .mredMax f => Sys2Proof.Machine.execMredMax f s
  | .mredAnd f => Sys2Proof.Machine.execMredAnd f s
  | .mredOr f => Sys2Proof.Machine.execMredOr f s
  | .mredXor f => Sys2Proof.Machine.execMredXor f s
  | .mredInc f => Sys2Proof.Machine.execMredInc f s
  | .bara f => Sys2Proof.Machine.execBara f s
  | .barw f => Sys2Proof.Machine.execBarw f s
  | .barx f => Sys2Proof.Machine.execBarx f s
  | .tbar f => Sys2Proof.Machine.execTbar f s
  | .fenceQ f => Sys2Proof.Machine.execFenceQ f s
  | .fenceSys f => Sys2Proof.Machine.execFenceSys f s
  | .tokenGet f => Sys2Proof.Machine.execTokenGet f s
  | .tokenPut f => Sys2Proof.Machine.execTokenPut f s
  | .dqpush f => Sys2Proof.Machine.execDqpush f s
  | .dqpop f => Sys2Proof.Machine.execDqpop f s
  | .evpop f => Sys2Proof.Machine.execEvpop f s
  | .vfpush f => Sys2Proof.Machine.execVfpush f s
  | .vfpop f => Sys2Proof.Machine.execVfpop f s
  | .vfcnt f => Sys2Proof.Machine.execVfcnt f s
  | .cpy f => Sys2Proof.Machine.execCpy f s
  | .cpyMig f => Sys2Proof.Machine.execCpyMig f s
  | .cpyc f => Sys2Proof.Machine.execCpyc f s
  | .cpyg f => Sys2Proof.Machine.execCpyg f s
  | .cpys f => Sys2Proof.Machine.execCpys f s
  | .cpyk f => Sys2Proof.Machine.execCpyk f s
  | .stage f => Sys2Proof.Machine.execStage f s
  | .qfence f => Sys2Proof.Machine.execQfence f s
  | .tcfg f => Sys2Proof.Machine.execTcfg f s
  | .tld f => Sys2Proof.Machine.execTld f s
  | .tst f => Sys2Proof.Machine.execTst f s
  | .tzero f => Sys2Proof.Machine.execTzero f s
  | .mma f => Sys2Proof.Machine.execMma f s
  | .mmas f => Sys2Proof.Machine.execMmas f s
  | .mmax f => Sys2Proof.Machine.execMmax f s
  | .tcvt f => Sys2Proof.Machine.execTcvt f s
  | .srfence f => Sys2Proof.Machine.execSrfence f s
  | .xg f => Sys2Proof.Machine.execXg f s
  | .xgP f => Sys2Proof.Machine.execXgP f s
  | .xinit f => Sys2Proof.Machine.execXinit f s
  | .xrd f => Sys2Proof.Machine.execXrd f s
  | .xrdQ f => Sys2Proof.Machine.execXrdQ f s
  | .xwr f => Sys2Proof.Machine.execXwr f s
  | .xfill f => Sys2Proof.Machine.execXfill f s
  | .xwin f => Sys2Proof.Machine.execXwin f s
  | .xration f => Sys2Proof.Machine.execXration f s
  | .xrun f => Sys2Proof.Machine.execXrun f s
  | .xstat f => Sys2Proof.Machine.execXstat f s
  | .xmap f => Sys2Proof.Machine.execXmap f s
  | .xmapWr f => Sys2Proof.Machine.execXmapWr f s
  | .launchOfferAccepted => Sys2Proof.Machine.execLaunchOfferAccepted s
  | .dependenceObserved acc k => Sys2Proof.Machine.execDependenceObserved acc k s
  | .dealSkeins acc => Sys2Proof.Machine.execDealSkeins acc s
  | .dispatchDecision frame => Sys2Proof.Machine.execDispatchDecision frame s
  | .deterministicPlace acc => Sys2Proof.Machine.execDeterministicPlace acc s
  | .baseSpindlePlace acc => Sys2Proof.Machine.execBaseSpindlePlace acc s
  | .stealRequest sp victim => Sys2Proof.Machine.execStealRequest sp victim s
  | .stealAnswer sp => Sys2Proof.Machine.execStealAnswer sp s
  | .skeinRetire sp slot => Sys2Proof.Machine.execSkeinRetire sp slot s
  | .launchOutcomeWrite acc => Sys2Proof.Machine.execLaunchOutcomeWrite acc s
  | .longLatencyLanding p => Sys2Proof.Machine.execLongLatencyLanding p s
  | .joinMerge sp slot ply => Sys2Proof.Machine.execJoinMerge sp slot ply s
  | .queueCreditRetry p => Sys2Proof.Machine.execQueueCreditRetry p s
  | .driftStep sp m => Sys2Proof.Machine.execDriftStep sp m s
  | .intervalBoundary die est power => Sys2Proof.Machine.execIntervalBoundary die est power s
  | .heldAccessRetry t => Sys2Proof.Machine.execHeldAccessRetry t s
  | .sideLogReplay p => Sys2Proof.Machine.execSideLogReplay p s
  | .mmuShootdown p v => Sys2Proof.Machine.execMmuShootdown p v s
  | .mmuWake p v => Sys2Proof.Machine.execMmuWake p v s
  | .mmuFqWrite p v => Sys2Proof.Machine.execMmuFqWrite p v s
  | .fqptrTailWrite p v => Sys2Proof.Machine.execFqptrTailWrite p v s
  | .hotcfgWrite p v => Sys2Proof.Machine.execHotcfgWrite p v s
  | .hotThreshold die block slot => Sys2Proof.Machine.execHotThreshold die block slot s
  | .hotDecay => Sys2Proof.Machine.execHotDecay s
  | .memCfgWrite p v => Sys2Proof.Machine.execMemCfgWrite p v s
  | .mcFrbaseWrite p v => Sys2Proof.Machine.execMcFrbaseWrite p v s
  | .rcbsyncWrite p v => Sys2Proof.Machine.execRcbsyncWrite p v s
  | .remoteAccessArrival a => Sys2Proof.Machine.execRemoteAccessArrival a s
  | .remoteReplyArrival id => Sys2Proof.Machine.execRemoteReplyArrival id s
  | .remoteReplyTimeout sp slot => Sys2Proof.Machine.execRemoteReplyTimeout sp slot s
  | .gddrRetrain dev lowMargin => Sys2Proof.Machine.execGddrRetrain dev lowMargin s
  | .retrainEnd => Sys2Proof.Machine.execRetrainEnd s
  | .copyCmdStart e q err => Sys2Proof.Machine.execCopyCmdStart e q err s
  | .copyCmdComplete e q => Sys2Proof.Machine.execCopyCmdComplete e q s
  | .matrixCmdStart sp => Sys2Proof.Machine.execMatrixCmdStart sp s
  | .matrixStep sp errs => Sys2Proof.Machine.execMatrixStep sp errs s
  | .matrixCmdComplete sp => Sys2Proof.Machine.execMatrixCmdComplete sp s
  | .xqCmdStart sp xre => Sys2Proof.Machine.execXqCmdStart sp xre s
  | .xbarWritePhase sp xre => Sys2Proof.Machine.execXbarWritePhase sp xre s
  | .xqCmdComplete sp => Sys2Proof.Machine.execXqCmdComplete sp s
  | .xrdAdmit sp xre => Sys2Proof.Machine.execXrdAdmit sp xre s
  | .xwrPerform sp => Sys2Proof.Machine.execXwrPerform sp s
  | .barrierWaitEnd p => Sys2Proof.Machine.execBarrierWaitEnd p s
  | .tbarRelease tag => Sys2Proof.Machine.execTbarRelease tag s
  | .dqpopDeliver p => Sys2Proof.Machine.execDqpopDeliver p s
  | .evpopDeliver p => Sys2Proof.Machine.execEvpopDeliver p s
  | .vfifoWaitEnd p => Sys2Proof.Machine.execVfifoWaitEnd p s
  | .tokenArrive acc => Sys2Proof.Machine.execTokenArrive acc s
  | .takeTrap p => Sys2Proof.Machine.execTakeTrap p s
  | .trapPlyEnd p v => Sys2Proof.Machine.execTrapPlyEnd p v s
  | .trapPlyStop p v => Sys2Proof.Machine.execTrapPlyStop p v s
  | .trapPlyRun p v => Sys2Proof.Machine.execTrapPlyRun p v s
  | .trapRdatWrite p v => Sys2Proof.Machine.execTrapRdatWrite p v s
  | .preemptHold p v => Sys2Proof.Machine.execPreemptHold p v s
  | .preemptRelease p v => Sys2Proof.Machine.execPreemptRelease p v s
  | .skeinHalted sp slot => Sys2Proof.Machine.execSkeinHalted sp slot s
  | .contextSaved sp slot => Sys2Proof.Machine.execContextSaved sp slot s
  | .skeinResume sp k => Sys2Proof.Machine.execSkeinResume sp k s
  | .dbgRelease p v => Sys2Proof.Machine.execDbgRelease p v s
  | .acctStringWrite p v => Sys2Proof.Machine.execAcctStringWrite p v s
  | .sampleTick => Sys2Proof.Machine.execSampleTick s
  | .replayDeliver core => Sys2Proof.Machine.execReplayDeliver core s
  | .syncBsqWrite p v => Sys2Proof.Machine.execSyncBsqWrite p v s
  | .frameEnterA1 frame => Sys2Proof.Machine.execFrameEnterA1 frame s
  | .frameEnterA2 frame => Sys2Proof.Machine.execFrameEnterA2 frame s
  | .dieEnterA3 die => Sys2Proof.Machine.execDieEnterA3 die s
  | .packageA4Request p v => Sys2Proof.Machine.execPackageA4Request p v s
  | .a4Exit => Sys2Proof.Machine.execA4Exit s
  | .unitWake frame => Sys2Proof.Machine.execUnitWake frame s
  | .wakeComplete frame => Sys2Proof.Machine.execWakeComplete frame s
  | .pwrForceGate p v => Sys2Proof.Machine.execPwrForceGate p v s
  | .pwrForceClear p v => Sys2Proof.Machine.execPwrForceClear p v s
  | .gateIngressClose frame => Sys2Proof.Machine.execGateIngressClose frame s
  | .computeDieResetRelease die => Sys2Proof.Machine.execComputeDieResetRelease die s
  | .packageReset => Sys2Proof.Machine.execPackageReset s
  | .bootImageFetched payload sig => Sys2Proof.Machine.execBootImageFetched payload sig s
  | .bootRetry => Sys2Proof.Machine.execBootRetry s
  | .secExtend p v => Sys2Proof.Machine.execSecExtend p v s
  | .secAttest p v => Sys2Proof.Machine.execSecAttest p v s
  | .ethReceive port frame => Sys2Proof.Machine.execEthReceive port frame s
  | .ethTransmit port => Sys2Proof.Machine.execEthTransmit port s
  | .hostAccess off n w => Sys2Proof.Machine.execHostAccess off n w s
  | .linkStateChange link up lanes peer => Sys2Proof.Machine.execLinkStateChange link up lanes peer s
  | .linkCrcRetry link => Sys2Proof.Machine.execLinkCrcRetry link s
  | .linkStatWrite p v => Sys2Proof.Machine.execLinkStatWrite p v s
  | .privateLineEviction sp slot ply line => Sys2Proof.Machine.execPrivateLineEviction sp slot ply line s
  | .gddrTrainingDone dev => Sys2Proof.Machine.execGddrTrainingDone dev s
  | .ethernetPortStateChange port up => Sys2Proof.Machine.execEthernetPortStateChange port up s
  | .hostPortTrained => Sys2Proof.Machine.execHostPortTrained s

end Sys2Proof.Machine
end

