-- ==== Sys2Proof/Machine/Step.lean ====
section
/-! DEFINITION. One step: the next action takes place. And the loading of one instruction where the next step fetches it (DESIGN CHOICE, log 30). -/

namespace Sys2Proof.Machine

/-- One step of the part. -/
def step (s : State) : Host.Outcome State Fault Refusal := perform exec s.upNext.1 s.upNext.2

/-- s with one instruction in memory, at the program counter of a skein that is loaded on spindle 0, and its issue next. -/
def State.withFetchWord (s : State) (_nbits w : Nat) : State := s.loadWord w

end Sys2Proof.Machine
end

