-- ==== Sys2Proof/Safety.lean ====
section
/-! DEFINITION. What a safe run is, and the invariant that every step keeps, in the terms that claims use. -/

namespace Sys2Proof.Machine

/-- The step goes on: no fault and no refusal of the model. A trap of the part is a next state, so it goes on too. -/
def State.goesOn (s : State) : Prop := ∃ t, step s = .next t

/-- One state is reached from another by steps that go on. -/
inductive Reaches : State → State → Prop where
  | refl (s : State) : Reaches s s
  | step {s t u : State} : Reaches s t → Machine.step t = .next u → Reaches s u

/-- A safe run: whatever is reached goes on. -/
def State.safe (s : State) : Prop := ∀ t, Reaches s t → t.goesOn

/-- The invariant of every state a run meets: both memories are in canonical form, and identities are counted from 1 (0 marks a write
that waits for nothing). -/
def State.Inv (s : State) : Prop := Memory.wf s.mem = true ∧ Memory.wf s.remote = true ∧ 0 < s.opSeq

/-- What every step keeps of the part in hand: cap.units and cap.stepping, fixed at manufacture (R6, R46). -/
def SamePart (s t : State) : Prop := t.units = s.units ∧ t.stepping = s.stepping

/-! ## When an instruction takes effect -/

/-- The conditions on a state alone under which an instruction takes effect when it issues: its word fields are right, a party
that may execute it is at it, it passes checks 4 to 8 of R100, no register it names waits for a value (R93), it finds room for a
deferred write (R94), and no trap is pending (R349). `s1` is the state in which it reads its operands, with the writes due below
its position performed, and `c` the party's context there. -/
structure Issues (i : Instr) (r : OpRow) (f : Fields) (s : State) (c : Ctx) (s1 : State) : Prop where
  row : i.row = some r
  fields : i.fields = some f
  ok : i.fieldsOk = true
  checked : ∃ c0, s.ctx? s.cur = some c0 ∧ c0.checks s i r f = none ∧ s1 = c0.landed s
  ctx : s1.ctx? s1.cur = some c
  ready : c.waits (c.keys i r f) = false
  room : c.defersFull i r f = false
  quiet : c.pending = []

/-- The class an instruction issues in (R91). -/
def issueClass (r : OpRow) (f : Fields) : Nat := max r.min f.tc.toNat

/-- The party's ply, in a state: what its skein slot holds there. -/
def Ctx.ply? (c : Ctx) (s : State) : Option Ply := (s.skein? c.sp c.slot).map fun k => k.ply c.plyNo

/-- A V register of a thread of the party's ply, in a state. -/
def Ctx.vIn (c : Ctx) (s : State) (r t : Nat) : VWord := ((c.ply? s).map fun p => p.rdV r t).getD 0

/-- A pair of V registers, or one, as 64 bits. -/
def Ctx.vecIn (c : Ctx) (s : State) (wide : Bool) (r t : Nat) : Word :=
  if wide then (c.vIn s (r + 1) t ++ c.vIn s r t : BitVec 64) else (c.vIn s r t).setWidth 64

/-- The party's distaff, in a state. -/
def Ctx.distIn (c : Ctx) (s : State) : Dist := ((s.skein? c.sp c.slot).map Skein.dist).getD {}

/-- An S register of a strand of the party's ply, or a D register of its distaff, in a state. -/
def Ctx.sIn (c : Ctx) (s : State) (r st : Nat) : Word :=
  if c.dist then (c.distIn s).rdD r else ((c.ply? s).map fun p => p.rdS r st).getD 0

/-- fp.flags of the party's ply, in a state. -/
def Ctx.flagsIn (c : Ctx) (s : State) : BitVec 5 := ((c.ply? s).map Ply.flags).getD 0

/-- EXM of the party's ply, in a state. -/
def Ctx.exmIn (c : Ctx) (s : State) : BitVec 128 := ((c.ply? s).map Ply.exm).getD 0

/-- The program counter of the party, in a state. -/
def Ctx.pcIn (c : Ctx) (s : State) : Word :=
  if c.dist then (c.distIn s).pc else ((c.ply? s).map fun p => (nth p.paths c.idx {}).pc).getD 0

/-- What no instruction of register form touches: both memories, launches, frames, dies, cores, FIFOs and every register of the
package. Only the spindles, and the model's own counters, may differ. -/
def SameOutside (s t : State) : Prop :=
  ∃ sp tk op cu ag ti, t = { s with spindles := sp, tick := tk, opSeq := op, cur := cu, agenda := ag, time := ti }

/-- Every skein but the party's own is as before. -/
def SameSkeins (c : Ctx) (s t : State) : Prop :=
  ∀ sp slot, ¬(sp = c.sp ∧ slot = c.slot) → t.skein? sp slot = s.skein? sp slot

end Sys2Proof.Machine
end

