-- ==== Sys2Proof/WellFormed.lean ====
section
/-! DEFINITION. When an instruction or event is well formed: an instruction passes check 5 of R100 for its row; an event names
units that a part can have (R3, R5, R104). -/

namespace Sys2Proof

/-- A spindle number: 0 to 255 on the compute dies, 0x100 to 0x11F on the base dies (R104). -/
def spindleOk (sp : Nat) : Bool := decide (sp < 256) || (decide (256 ≤ sp) && decide (sp < 288))

/-- A party that a part can have. -/
def Party.wf (p : Party) : Bool :=
  match p with
  | .core c => decide (c < 8)
  | .dist sp slot => spindleOk sp && decide (slot < 4)
  | .path sp slot ply idx => spindleOk sp && decide (slot < 4) && decide (ply < 16) && decide (idx < 16)

/-- A copy engine and one of its four queues. -/
def Engine.wf (e : Engine) (q : Nat) : Bool :=
  decide (q < 4) && (match e with | .spindle sp => spindleOk sp | .core c => decide (c < 8))

/-- What a retry can be for. -/
def RetryTarget.wf (t : RetryTarget) : Bool :=
  match t with
  | .ply sp slot y => spindleOk sp && decide (slot < 4) && decide (y < 16)
  | .dist sp slot => spindleOk sp && decide (slot < 4)
  | .copySpindle sp q _ => spindleOk sp && decide (q < 4)
  | .copyCore c q _ => decide (c < 8) && decide (q < 4)

/-- Bytes that one access can have. -/
def sizeOk (n : Nat) : Bool := n == 1 || n == 2 || n == 4 || n == 8

/-- A foreign access names another package and lies in its 46-bit offset space. -/
def Arrival.wf (a : Arrival) : Bool :=
  match a with
  | .own _ => true
  | .foreign pkg off n _ => decide (pkg < 64) && decide (off + n ≤ 0x400000000000) && sizeOk n

/-- Well formed: an instruction by its row's word fields, an event by its units. -/
def Instr.wf (i : Instr) : Bool :=
  match i with
  | .launchOfferAccepted | .hotDecay | .retrainEnd | .sampleTick | .a4Exit | .packageReset | .bootRetry | .hostPortTrained => true
  | .dependenceObserved _ k => decide (k < 4)
  | .dealSkeins _ | .deterministicPlace _ | .baseSpindlePlace _ | .launchOutcomeWrite _ | .tokenArrive _ => true
  | .dispatchDecision fr | .frameEnterA1 fr | .frameEnterA2 fr | .unitWake fr | .wakeComplete fr | .gateIngressClose fr =>
    decide (fr < 16)
  | .stealRequest sp v => decide (sp < 256) && decide (v < 16)
  | .stealAnswer sp => decide (sp < 256)
  | .skeinRetire sp slot | .remoteReplyTimeout sp slot | .skeinHalted sp slot | .contextSaved sp slot =>
    spindleOk sp && decide (slot < 4)
  | .longLatencyLanding p | .queueCreditRetry p | .sideLogReplay p | .barrierWaitEnd p | .dqpopDeliver p | .evpopDeliver p
  | .vfifoWaitEnd p | .takeTrap p => p.wf
  | .joinMerge sp slot ply => spindleOk sp && decide (slot < 4) && decide (ply < 16)
  | .driftStep sp _ => spindleOk sp
  | .intervalBoundary die est _ => decide (die < 4) && est.length == 4
  | .heldAccessRetry t => t.wf
  | .mmuShootdown p _ | .mmuWake p _ | .mmuFqWrite p _ | .fqptrTailWrite p _ | .hotcfgWrite p _ | .memCfgWrite p _
  | .mcFrbaseWrite p _ | .rcbsyncWrite p _ | .trapPlyEnd p _ | .trapPlyStop p _ | .trapPlyRun p _ | .trapRdatWrite p _
  | .preemptHold p _ | .preemptRelease p _ | .dbgRelease p _ | .acctStringWrite p _ | .syncBsqWrite p _
  | .packageA4Request p _ | .pwrForceGate p _ | .pwrForceClear p _ | .secExtend p _ | .secAttest p _ | .linkStatWrite p _ => p.wf
  | .hotThreshold die _ slot => decide (die < 4) && decide (slot < 8)
  | .remoteAccessArrival a => a.wf
  | .remoteReplyArrival _ => true
  | .gddrRetrain dev _ | .gddrTrainingDone dev => decide (dev < 32)
  | .copyCmdStart e q _ | .copyCmdComplete e q => e.wf q
  | .matrixCmdStart sp | .matrixStep sp _ | .matrixCmdComplete sp | .xqCmdStart sp _ | .xbarWritePhase sp _ | .xqCmdComplete sp
  | .xrdAdmit sp _ | .xwrPerform sp => decide (sp < 256)
  | .tbarRelease tag => decide (tag < 8)
  | .skeinResume sp _ => spindleOk sp
  | .replayDeliver c => decide (c < 8)
  | .dieEnterA3 die | .computeDieResetRelease die => decide (die < 4)
  | .bootImageFetched _ sig => sig.length == 114
  | .ethReceive port fr => decide (port < 2) && decide (fr.length < 65536)
  | .ethTransmit port | .ethernetPortStateChange port _ => decide (port < 2)
  | .hostAccess _ n _ => sizeOk n
  | .linkStateChange link _ lanes peer => decide (link < 16) && decide (lanes < 64) && decide (peer < 64)
  | .linkCrcRetry link => decide (link < 16)
  | .privateLineEviction sp slot ply _ => spindleOk sp && decide (slot < 4) && decide (ply < 16)
  | i => i.fieldsOk

end Sys2Proof
end

