-- ==== Sys2Proof/Certificates/Slice0/Obligations.lean ====
section
/-! DEFINITION. The statements for the provers, and the spec's own formulas they compare the machine with. -/

open Sys2Proof Sys2Proof.Machine

/-! ## The spec's formulas (R155 to R162) -/

namespace Sys2Proof.Claims

/-- A value of an integer type, as the spec reads it (R128). -/
def val (ty : Ty) (x : Word) : Int := if ty.signed then (x.setWidth ty.bits).toInt else (x.setWidth ty.bits).toNat

/-- An integer narrowed to a type, as the low bits of a word. -/
def word (ty : Ty) (v : Int) : Word := (BitVec.ofInt ty.bits v).setWidth 64

/-- An integer clamped to a type's range (R128, R156). -/
def satTo (ty : Ty) (v : Int) : Int :=
  if ty.signed then max (-(2 ^ (ty.bits - 1))) (min v (2 ^ (ty.bits - 1) - 1)) else max 0 (min v (2 ^ ty.bits - 1))

/-- The low bits of a word, as a vector of the type's width. -/
def vec (ty : Ty) (x : Word) : BitVec ty.bits := x.setWidth ty.bits

/-- Number of set bits. -/
def ones {n : Nat} (x : BitVec n) : Nat := (List.range n).foldl (fun k i => k + (x.getLsbD i).toNat) 0

/-- Number of zero bits above the highest set bit; n for zero. -/
def leading {n : Nat} (x : BitVec n) : Nat := n - ((List.range n).foldl (fun k i => if x.getLsbD i then i + 1 else k) 0)

/-- One instruction by its fields, and its result from its operands a, b, c. -/
structure IntOp where
  ins : Fields → Instr
  val : Fields → Word → Word → Word → Word

/-- The integer and logic instructions with one result per thread, and the spec's formula of each (R155, R156, R157, R161, R162).
The shift count is the low 32 bits of b; immediates stand in the fields. -/
def intOps : List IntOp := [
  ⟨.iadd, fun f => fun a b _ =>
    word f.ty (if f.m.getLsbD 0 then satTo f.ty (val f.ty a + val f.ty b) else val f.ty a + val f.ty b)⟩,
  ⟨.isub, fun f => fun a b _ =>
    word f.ty (if f.m.getLsbD 0 then satTo f.ty (val f.ty a - val f.ty b) else val f.ty a - val f.ty b)⟩,
  ⟨.imul, fun f => fun a b _ => (vec f.ty a * vec f.ty b).setWidth 64⟩,
  ⟨.imulh, fun f => fun a b _ => word f.ty (val f.ty a * val f.ty b / 2 ^ f.ty.bits)⟩,
  ⟨.imad, fun f => fun a b c => (vec f.ty a * vec f.ty b + vec f.ty c).setWidth 64⟩,
  ⟨.imin, fun f => fun a b _ => if val f.ty a ≤ val f.ty b then (vec f.ty a).setWidth 64 else (vec f.ty b).setWidth 64⟩,
  ⟨.imax, fun f => fun a b _ => if val f.ty a ≤ val f.ty b then (vec f.ty b).setWidth 64 else (vec f.ty a).setWidth 64⟩,
  ⟨.iabs, fun f => fun a _ _ =>
    word f.ty (if f.m.getLsbD 0 then satTo f.ty (val f.ty a).natAbs else (val f.ty a).natAbs)⟩,
  ⟨.and, fun f => fun a b _ => (vec f.ty a &&& vec f.ty b).setWidth 64⟩,
  ⟨.or, fun f => fun a b _ => (vec f.ty a ||| vec f.ty b).setWidth 64⟩,
  ⟨.xor, fun f => fun a b _ => (vec f.ty a ^^^ vec f.ty b).setWidth 64⟩,
  ⟨.not, fun f => fun a _ _ => (~~~(vec f.ty a)).setWidth 64⟩,
  ⟨.shl, fun f => fun a b _ => (vec f.ty a <<< (b.toNat % 2 ^ 32)).setWidth 64⟩,
  ⟨.shr, fun f => fun a b _ => (vec f.ty a >>> (b.toNat % 2 ^ 32)).setWidth 64⟩,
  ⟨.sar, fun f => fun a b _ => ((vec f.ty a).sshiftRight (b.toNat % 2 ^ 32)).setWidth 64⟩,
  ⟨.rol, fun f => fun a b _ => ((vec f.ty a).rotateLeft (b.toNat % 2 ^ 32)).setWidth 64⟩,
  ⟨.ror, fun f => fun a b _ => ((vec f.ty a).rotateRight (b.toNat % 2 ^ 32)).setWidth 64⟩,
  ⟨.popc, fun f => fun a _ _ => BitVec.ofNat 64 (ones (vec f.ty a))⟩,
  ⟨.clz, fun f => fun a _ _ => BitVec.ofNat 64 (leading (vec f.ty a))⟩,
  ⟨.brev, fun f => fun a _ _ => (vec f.ty a).reverse.setWidth 64⟩,
  ⟨.bfe, fun f => fun a _ _ =>
    let x := BitVec.extractLsb' f.c.toNat (f.m.toNat % 128) a
    (if f.ty.signed then x.signExtend f.ty.bits else x.setWidth f.ty.bits).setWidth 64⟩,
  ⟨.bfi, fun f => fun a b _ =>
    let m : BitVec f.ty.bits := (BitVec.allOnes (f.m.toNat % 128)).setWidth f.ty.bits <<< f.c.toNat
    ((vec f.ty b &&& ~~~m) ||| ((vec f.ty a <<< f.c.toNat) &&& m)).setWidth 64⟩,
  ⟨.sel, fun f => fun a b c => if c = 0 then (vec f.ty b).setWidth 64 else (vec f.ty a).setWidth 64⟩,
  ⟨.mov, fun f => fun a _ _ => (vec f.ty a).setWidth 64⟩,
  ⟨.movi, fun f => fun _ _ _ => (vec f.ty (f.x.getD 0)).setWidth 64⟩]

/-- The three operands of a thread, or of a strand's scalar copies, by the classes of the word (R88, R97, R150). -/
def operands (i : Instr) (r : OpRow) (f : Fields) (c : Ctx) (st t : Nat) : Word × Word × Word :=
  let (_, ac, bc, cc) := c.classes i r f
  (c.opnd ac f f.a st t, c.opnd bc f f.b st t, c.opnd cc f f.c st t)

end Sys2Proof.Claims

open Sys2Proof.Claims

/-- R155 to R162: an integer instruction in the ordinary form, with nothing outstanding in its path, answers a next state in which
its vector destination holds the spec's result in every active thread of the path, every other V register and every S register
of the ply is unchanged, and the path is at the next instruction. -/
def Sys2Proof.Claims.IntegerVector : Prop :=
  ∀ op ∈ intOps, ∀ (r : OpRow) (f : Fields) (s s1 : State) (c : Ctx), Issues (op.ins f) r f s c s1 → c.dist = false → f.u = false → c.ply.curDefs = [] →
    ∃ t, exec (op.ins f) s = .next t ∧ c.pcIn t = c.pc + Fields.size f ∧
      (∀ th ∈ c.active, c.vecIn t (f.ty.bits == 64) f.d.toNat th =
        (fun (o : Word × Word × Word) => op.val f o.1 o.2.1 o.2.2) (operands (op.ins f) r f c (th / 8) th)) ∧
      (∀ q th, th < 128 → (th ∉ c.active ∨ (q ≠ f.d.toNat ∧ ¬(f.ty.bits = 64 ∧ q = f.d.toNat + 1))) → c.vIn t q th = c.ply.rdV q th) ∧
      (∀ q st, c.sIn t q st = c.ply.rdS q st) ∧ c.exmIn t = c.ply.exm ∧ c.flagsIn t = c.ply.flags

/-- The same in the uniform form and in distaff code: each strand's copy of the scalar destination, or the D register, holds the
result of that strand's operands, filled to 64 bits under R90. That SEL.U of a 128-wide ply tests both registers of the pair C is the model's reading
(DEDUCED, log 63). -/
def Sys2Proof.Claims.IntegerScalar : Prop :=
  ∀ op ∈ intOps, ∀ (r : OpRow) (f : Fields) (s s1 : State) (c : Ctx), Issues (op.ins f) r f s c s1 → f.u = true ∨ c.dist = true → c.ply.curDefs = [] → c.sk.dist.curDefs = [] →
    ∃ t, exec (op.ins f) s = .next t ∧ c.pcIn t = c.pc + Fields.size f ∧
      (∀ st ∈ c.strands, c.sIn t f.d.toNat st =
        (fun (o : Word × Word × Word) =>
          (if f.ty.signed then (vec f.ty (op.val f o.1 o.2.1 o.2.2)).signExtend 64 else op.val f o.1 o.2.1 o.2.2)) (operands (op.ins f) r f c st (8 * st))) ∧
      (∀ q st, st < 16 → (q ≠ f.d.toNat ∨ (c.dist = false ∧ st ∉ c.strands)) → c.sIn t q st = c.sIn s1 q st) ∧
      (∀ q th, c.vIn t q th = c.vIn s1 q th)

/-- R90, R97, R155 to R162: the integer and logic instructions, in the ordinary form and in the uniform form and distaff code. -/
def Obligations.IntegerResults : Prop := IntegerVector ∧ IntegerScalar

namespace Sys2Proof.Claims

/-- A compare and its condition on the two values (R160). -/
structure CmpOp where
  ins : Fields → Instr
  cond : Int → Int → Bool

/-- The six conditions of ICMP (R160). -/
def cmpOps : List CmpOp := [⟨.icmpEq, fun x y => x == y⟩, ⟨.icmpNe, fun x y => x != y⟩, ⟨.icmpLt, fun x y => decide (x < y)⟩,
  ⟨.icmpLe, fun x y => decide (x ≤ y)⟩, ⟨.icmpGt, fun x y => decide (y < x)⟩, ⟨.icmpGe, fun x y => decide (y ≤ x)⟩]

/-- Bit b of a mask destination that starts at register d, in a strand's copy: register d holds threads 0 to 63, the next one
threads 64 to 127 of a 128-wide ply (R158). -/
def maskBitIn (c : Ctx) (t : State) (d st b : Nat) : Bool := (c.sIn t (d + b / 64) st).getLsbD (b % 64)

/-- Bits of a mask destination: 128 in a 128-wide ply, else the 64 of one register (R158). -/
def maskBits (c : Ctx) : Nat := if c.w = 128 then 128 else 64

/-- The registers of a mask destination (R158). -/
def maskRegs (c : Ctx) (d : Nat) : List Nat := if c.dist = false ∧ c.w = 128 then [d, d + 1] else [d]

/-- What R159 makes of a mask result p: in every touched strand's copy the bit of an active thread of the path is its result, of an
inactive one 0, bits at or beyond W are 0, bits of other threads are kept; every other copy and register is unchanged. -/
def MaskResult (c : Ctx) (s t : State) (d : Nat) (p : Nat → Bool) : Prop :=
  (∀ st ∈ c.strands, c.touched st = true → ∀ b < maskBits c, maskBitIn c t d st b =
    if c.w ≤ b then false else if b / 8 ∈ c.strands then (decide (b ∈ c.active) && p b) else maskBitIn c s d st b) ∧
  (∀ q st, st < 16 → (st ∉ c.strands ∨ c.touched st = false ∨ (q ≠ d ∧ ¬(c.w = 128 ∧ q = d + 1))) → c.sIn t q st = c.sIn s q st)

/-- A floating-point instruction with one result per thread: the result and the flags of its operands. -/
structure FpOp where
  ins : Fields → Instr
  val : Fields → Ctx → Word → Word → Word → Word × FFlags

/-- A value under FTZ with the negation of its M bit (R134, R163). -/
def fin (f : Fields) (c : Ctx) (bit : Nat) (v : Word) : FVal :=
  if f.m.getLsbD bit then (f.ty.unpack c.la.ftz v).negate else f.ty.unpack c.la.ftz v

/-- An exact value rounded once, with its own flags kept (R134 to R138). -/
def fout (f : Fields) (c : Ctx) (x : FVal × FFlags) : Word × FFlags :=
  ((f.ty.round (RMode.ofCode (f.m.toNat % 4)) (f.m.getLsbD 2) c.la.ftz x.1).1,
   (f.ty.round (RMode.ofCode (f.m.toNat % 4)) (f.m.getLsbD 2) c.la.ftz x.1).2 ||| x.2)

/-- The lane-wise floating-point instructions (R164, R165, R167 to R170). -/
def fpOps : List FpOp := [
  ⟨.fadd, fun f c a b _ => fout f c ((fin f c 3 a).add (RMode.ofCode (f.m.toNat % 4)) (fin f c 4 b))⟩,
  ⟨.fsub, fun f c a b _ => fout f c ((fin f c 3 a).add (RMode.ofCode (f.m.toNat % 4)) (fin f c 4 b).negate)⟩,
  ⟨.fmul, fun f c a b _ => fout f c ((fin f c 3 a).mul (fin f c 4 b))⟩,
  ⟨.ffma, fun f c a b e => fout f c (FVal.fma (RMode.ofCode (f.m.toNat % 4)) (fin f c 3 a) (fin f c 4 b) (fin f c 5 e))⟩,
  ⟨.fmin, fun f c a b _ => f.ty.minMax false c.la.ftz (fin f c 3 a) (fin f c 4 b)⟩,
  ⟨.fmax, fun f c a b _ => f.ty.minMax true c.la.ftz (fin f c 3 a) (fin f c 4 b)⟩,
  ⟨.fsel, fun f c a b e =>
    (if atLeastZero (f.ty.unpack c.la.ftz e) then movedF f 3 a else movedF f 4 b, flagIf (f.ty.unpack c.la.ftz e).isSnan fNV)⟩,
  ⟨.frcp, fun f c a _ _ => fout f c (fRcp (fin f c 3 a))⟩,
  ⟨.frsq, fun f c a _ _ => fout f c (fRsq (fin f c 3 a))⟩,
  ⟨.fsqrt, fun f c a _ _ => fout f c (fSqrt (fin f c 3 a))⟩,
  ⟨.fexp2, fun f c a _ _ => fout f c (fExp2 (fin f c 3 a))⟩,
  ⟨.flog2, fun f c a _ _ => fout f c (fLog2 (fin f c 3 a))⟩,
  ⟨.fsin, fun f c a _ _ => fout f c (fSin (fin f c 3 a))⟩,
  ⟨.fcos, fun f c a _ _ => fout f c (fCos (fin f c 3 a))⟩,
  ⟨.frnd, fun f c a _ _ =>
    ((f.ty.round .rne false c.la.ftz ((fin f c 3 a).integral (RMode.ofCode (f.m.toNat % 4))).1).1,
     ((fin f c 3 a).integral (RMode.ofCode (f.m.toNat % 4))).2)⟩,
  ⟨.cvt, fun f c a _ _ => convert f.ty f.srcTy (RMode.ofCode (f.m.toNat % 4)) (f.m.getLsbD 2) c.la.ftz a⟩]

/-- The eight conditions of FCMP: what holds of the order of two numbers, whether it holds when either is a NaN, and whether a quiet
NaN raises NV too (R166). -/
structure FcmpOp where
  ins : Fields → Instr
  ordered : Ordering → Bool
  unordered : Bool
  quiet : Bool

def fcmpOps : List FcmpOp := [⟨.fcmpEq, (· == .eq), false, false⟩, ⟨.fcmpNe, (· != .eq), true, false⟩, ⟨.fcmpLt, (· == .lt), false, true⟩,
  ⟨.fcmpLe, (· != .gt), false, true⟩, ⟨.fcmpGt, (· == .gt), false, true⟩, ⟨.fcmpGe, (· != .lt), false, true⟩,
  ⟨.fcmpUo, fun _ => false, true, false⟩, ⟨.fcmpOrd, fun _ => true, false, false⟩]

/-- The condition on two values. -/
def FcmpOp.holds (o : FcmpOp) (x y : FVal) : Bool := if x.isNan || y.isNan then o.unordered else o.ordered (x.cmp y)

/-- NV of a compare: a signalling NaN raises it always, a quiet one only under the four ordered conditions. -/
def FcmpOp.flags (o : FcmpOp) (x y : FVal) : FFlags :=
  if x.isSnan || y.isSnan || (o.quiet && (x.isNan || y.isNan)) then fNV else 0

/-- The flags of every active thread of a path, ORed into what was there (R141). -/
def orFlags (c : Ctx) (g : Nat → FFlags) : FFlags := c.active.foldl (fun a t => a ||| g t) c.ply.flags

end Sys2Proof.Claims

open Sys2Proof.Claims

/-- R158 to R160: ICMP in the ordinary form writes its mask result, and in the uniform form and in distaff code all ones or zero in
each strand's copy or in the D register. That the uniform form on a 128-wide ply writes the value into both D and D + 1 is the model's reading (DEDUCED,
log 63). -/
def Obligations.IntegerCompare : Prop :=
  ∀ op ∈ cmpOps, ∀ (r : OpRow) (f : Fields) (s s1 : State) (c : Ctx), Issues (op.ins f) r f s c s1 → c.ply.curDefs = [] →
    c.sk.dist.curDefs = [] →
    ∃ t, exec (op.ins f) s = .next t ∧ c.pcIn t = c.pc + Fields.size f ∧ (∀ q th, c.vIn t q th = c.vIn s1 q th) ∧
      (if f.u || c.dist then
        (∀ st ∈ c.strands, ∀ q ∈ maskRegs c f.d.toNat, c.sIn t q st =
          (fun (o : Word × Word × Word) => if op.cond (val f.ty o.1) (val f.ty o.2.1) then ones64 else 0)
            (operands (op.ins f) r f c st (8 * st))) ∧
        (∀ q st, st < 16 → (q ∉ maskRegs c f.d.toNat ∨ (c.dist = false ∧ st ∉ c.strands)) → c.sIn t q st = c.sIn s1 q st)
      else MaskResult c s1 t f.d.toNat fun th =>
        (fun (o : Word × Word × Word) => op.cond (val f.ty o.1) (val f.ty o.2.1)) (operands (op.ins f) r f c (th / 8) th))

/-- R163 to R170, with lookahead 0: a floating-point instruction in the ordinary form leaves the rounded result in its destination in every
active thread, ORs the flags of every active thread into fp.flags, and changes no other register. Two things the spec leaves to the model
stand in it: NA and NB on FSEL (DEDUCED, log 33), and which of the admitted approximations FEXP2, FLOG2, FSIN and FCOS give (DEDUCED, log 15). -/
def Sys2Proof.Claims.FloatVector : Prop :=
  ∀ op ∈ fpOps, ∀ (r : OpRow) (f : Fields) (s s1 : State) (c : Ctx), Issues (op.ins f) r f s c s1 → c.dist = false → f.u = false →
    c.ply.curDefs = [] → c.lookahead f = 0 →
    ∃ t, exec (op.ins f) s = .next t ∧ c.pcIn t = c.pc + Fields.size f ∧
      (∀ th ∈ c.active, c.vecIn t (f.ty.bits == 64) f.d.toNat th =
        (fun (o : Word × Word × Word) =>
          if f.ty.bits == 64 then (op.val f c o.1 o.2.1 o.2.2).1 else ((op.val f c o.1 o.2.1 o.2.2).1.setWidth 32).setWidth 64)
          (operands (op.ins f) r f c (th / 8) th)) ∧
      (∀ q th, th < 128 → (th ∉ c.active ∨ (q ≠ f.d.toNat ∧ ¬(f.ty.bits = 64 ∧ q = f.d.toNat + 1))) → c.vIn t q th = c.ply.rdV q th) ∧
      (∀ q st, c.sIn t q st = c.ply.rdS q st) ∧ c.exmIn t = c.ply.exm ∧
      c.flagsIn t = orFlags c fun th =>
        (fun (o : Word × Word × Word) => (op.val f c o.1 o.2.1 o.2.2).2) (operands (op.ins f) r f c (th / 8) th)

/-- The same in the uniform form: each strand of the path computes once, on its own scalar copies, and contributes flags if one of its threads is
active (R141). No floating-point instruction sets flags in distaff code, which has no fp.flags (R140). -/
def Sys2Proof.Claims.FloatScalar : Prop :=
  ∀ op ∈ fpOps, ∀ (r : OpRow) (f : Fields) (s s1 : State) (c : Ctx), Issues (op.ins f) r f s c s1 → f.u = true ∨ c.dist = true →
    c.ply.curDefs = [] → c.sk.dist.curDefs = [] → c.lookahead f = 0 →
    ∃ t, exec (op.ins f) s = .next t ∧ c.pcIn t = c.pc + Fields.size f ∧
      (∀ st ∈ c.strands, c.sIn t f.d.toNat st =
        (fun (o : Word × Word × Word) => fillS f.ty (op.val f c o.1 o.2.1 o.2.2).1) (operands (op.ins f) r f c st (8 * st))) ∧
      (∀ q st, st < 16 → (q ≠ f.d.toNat ∨ (c.dist = false ∧ st ∉ c.strands)) → c.sIn t q st = c.sIn s1 q st) ∧
      (∀ q th, c.vIn t q th = c.vIn s1 q th) ∧
      (c.dist = false → c.flagsIn t = (c.strands.filter c.touched).foldl (fun a st => a |||
        (fun (o : Word × Word × Word) => (op.val f c o.1 o.2.1 o.2.2).2) (operands (op.ins f) r f c st (8 * st))) c.ply.flags)

/-- R97, R163 to R170: the floating-point instructions and CVT, in the ordinary and in the uniform form, with lookahead 0. NA and NB on FSEL are DEDUCED (log 33), and so is which of the admitted approximations FEXP2, FLOG2, FSIN and FCOS give (log 15). -/
def Obligations.FloatResults : Prop := FloatVector ∧ FloatScalar

/-- R158, R159, R166: FCMP, as ICMP, with the conditions on NaN operands and the NV flag. That the uniform form on a 128-wide ply writes the value into
both D and D + 1 is the model's reading (DEDUCED, log 63). -/
def Obligations.FloatCompare : Prop :=
  ∀ op ∈ fcmpOps, ∀ (r : OpRow) (f : Fields) (s s1 : State) (c : Ctx), Issues (op.ins f) r f s c s1 → c.ply.curDefs = [] →
    c.sk.dist.curDefs = [] → c.lookahead f = 0 →
    ∃ t, exec (op.ins f) s = .next t ∧ c.pcIn t = c.pc + Fields.size f ∧ (∀ q th, c.vIn t q th = c.vIn s1 q th) ∧
      (if f.u || c.dist then
        (∀ st ∈ c.strands, ∀ q ∈ maskRegs c f.d.toNat, c.sIn t q st =
          (fun (o : Word × Word × Word) => if op.holds (fin f c 3 o.1) (fin f c 4 o.2.1) then ones64 else 0)
            (operands (op.ins f) r f c st (8 * st))) ∧
        (∀ q st, st < 16 → (q ∉ maskRegs c f.d.toNat ∨ (c.dist = false ∧ st ∉ c.strands)) → c.sIn t q st = c.sIn s1 q st) ∧
        (c.dist = false → c.flagsIn t = (c.strands.filter c.touched).foldl (fun a st => a |||
          (fun (o : Word × Word × Word) => op.flags (fin f c 3 o.1) (fin f c 4 o.2.1)) (operands (op.ins f) r f c st (8 * st))) c.ply.flags)
      else
        (MaskResult c s1 t f.d.toNat fun th =>
          (fun (o : Word × Word × Word) => op.holds (fin f c 3 o.1) (fin f c 4 o.2.1)) (operands (op.ins f) r f c (th / 8) th)) ∧
        c.flagsIn t = orFlags c fun th =>
          (fun (o : Word × Word × Word) => op.flags (fin f c 3 o.1) (fin f c 4 o.2.1)) (operands (op.ins f) r f c (th / 8) th))

namespace Sys2Proof.Claims

/-- A form of SHFL, and what each active thread of the path receives in its vector destination. -/
structure LaneVec where
  ins : Fields → Instr
  val : Fields → Ctx → Nat → Word

/-- A's value in a thread, as 32 or 64 bits. -/
def aOf (f : Fields) (c : Ctx) (t : Nat) : Word :=
  if f.ty.bits == 64 then (c.ply.rdV (f.a.toNat + 1) t ++ c.ply.rdV f.a.toNat t : BitVec 64) else (c.ply.rdV f.a.toNat t).setWidth 64

/-- R175: the index operand of a thread, unsigned 32 bits. -/
def shflB (f : Fields) (c : Ctx) (t : Nat) : Nat :=
  (if f.m.toNat / 64 = 0 then (c.ply.rdV f.b.toNat t).setWidth 64
   else if f.m.toNat / 64 = 1 then c.rdScal (t / 8) f.b.toNat else f.b.signExtend 64).toNat % 2 ^ 32

/-- R175: the segment. -/
def shflSeg (f : Fields) (c : Ctx) : Nat := min (128 / 2 ^ (f.m.toNat % 8)) c.w

/-- R175: the thread's own value unless the source is in range and active. -/
def shflVal (f : Fields) (c : Ctx) (t : Nat) (ok : Bool) (j : Nat) : Word :=
  if ok && decide (j ∈ c.active) then aOf f c j else aOf f c t

/-- R179: the source thread of BCAST, if it is active. -/
def bcastFrom (f : Fields) (c : Ctx) : Option Nat :=
  let b := (if f.m.toNat / 64 = 1 then c.rdScal (c.strands.headD 0) f.b.toNat else f.b.signExtend 64).toNat % 2 ^ 32
  if b = 2 ^ 32 - 1 then c.active.head? else if b ∈ c.active then some b else none

/-- R177: the reduction of the leaves by a tree over W positions, where absent threads contribute the identity. -/
def redTree (f : Fields) (c : Ctx) (o : LaneOp) : Nat → Nat → Word × FFlags
  | 0, j => (if j ∈ c.active then aOf f c j else o.identity f.ty, 0)
  | l + 1, j =>
    let x := redTree f c o l (2 * j)
    let y := redTree f c o l (2 * j + 1)
    let z := o.combine f.ty c.la.ftz x.1 y.1
    (z.1, z.2 ||| x.2 ||| y.2)

/-- log2 of the declared width (R43). -/
def logW (c : Ctx) : Nat := Nat.log2 c.w

/-- R178: the accumulator after the active threads below t, and after t itself. -/
def scanAcc (f : Fields) (c : Ctx) (o : LaneOp) (l : List Nat) : Word × FFlags :=
  l.foldl (fun acc t => let z := o.combine f.ty c.la.ftz acc.1 (aOf f c t); (z.1, z.2 ||| acc.2)) (o.identity f.ty, 0)

/-- The forms of SHFL (R175). -/
def laneVecs : List LaneVec := [
  ⟨.shflIdx, fun f c t => shflVal f c t true (t - t % shflSeg f c + shflB f c t % shflSeg f c)⟩,
  ⟨.shflUp, fun f c t => shflVal f c t (decide (shflB f c t ≤ t % shflSeg f c)) (t - shflB f c t)⟩,
  ⟨.shflDown, fun f c t => shflVal f c t (decide (t % shflSeg f c + shflB f c t < shflSeg f c)) (t + shflB f c t)⟩,
  ⟨.shflXor, fun f c t => shflVal f c t true (t ^^^ (shflB f c t % shflSeg f c))⟩]

/-- A lane operation by its instruction of RED and of SCAN. -/
structure LaneFold where
  red : Fields → Instr
  scan : Fields → Instr
  op : LaneOp

def laneFolds : List LaneFold := [⟨.redAdd, .scanAdd, .add⟩, ⟨.redMin, .scanMin, .min⟩, ⟨.redMax, .scanMax, .max⟩,
  ⟨.redAnd, .scanAnd, .and⟩, ⟨.redOr, .scanOr, .or⟩, ⟨.redXor, .scanXor, .xor⟩]

/-- VOTE with a scalar result, and its condition on the values of the active threads (R176). -/
structure VoteOp where
  ins : Fields → Instr
  holds : List Word → Prop

def voteOps : List VoteOp := [⟨.voteAll, fun l => ∀ x ∈ l, x ≠ 0⟩, ⟨.voteAny, fun l => ∃ x ∈ l, x ≠ 0⟩, ⟨.voteEq, fun l => ∀ x ∈ l, ∀ y ∈ l, x = y⟩]

/-- R159: a scalar result stands in every touched strand's copy of register d; every other copy and register is unchanged. -/
def ScalarResult (c : Ctx) (s t : State) (d : Nat) (x : Word) : Prop :=
  (∀ st ∈ c.strands, c.touched st = true → c.sIn t d st = x) ∧
  (∀ q st, st < 16 → (q ≠ d ∨ st ∉ c.strands ∨ c.touched st = false) → c.sIn t q st = c.sIn s q st)

/-- A vector result stands in the destination of every active thread; every other V register is unchanged. -/
def VectorResult (c : Ctx) (s t : State) (wide : Bool) (d : Nat) (x : Nat → Word) : Prop :=
  (∀ th ∈ c.active, c.vecIn t wide d th = if wide then x th else ((x th).setWidth 32).setWidth 64) ∧
  (∀ q th, th < 128 → (th ∉ c.active ∨ (q ≠ d ∧ ¬(wide = true ∧ q = d + 1))) → c.vIn t q th = c.vIn s q th)

/-- No V register of the ply changes, no S register, no flag. -/
def SameV (c : Ctx) (s t : State) : Prop := ∀ q th, c.vIn t q th = c.vIn s q th
def SameS (c : Ctx) (s t : State) : Prop := ∀ q st, c.sIn t q st = c.sIn s q st

/-- The special values of ply code (R104). -/
def rdsSpec (c : Ctx) (s : State) (sel t : Nat) : Option Word :=
  match sel with
  | 0x00 => some (BitVec.ofNat 64 t)
  | 0x01 => some (BitVec.ofNat 64 (t % 8))
  | 0x02 => some (BitVec.ofNat 64 (t / 8))
  | 0x03 => some (BitVec.ofNat 64 c.plyNo)
  | 0x04 => some (BitVec.ofNat 64 (8 * c.strands.length))
  | 0x05 => some (c.path.strands.setWidth 64)
  | 0x06 => some (BitVec.ofNat 64 c.idx)
  | 0x07 => some (BitVec.ofNat 64 c.sk.index)
  | 0x08 => some (BitVec.ofNat 64 (c.sk.index % max c.la.lrec.gridX 1))
  | 0x09 => some (BitVec.ofNat 64 (c.sk.index / max c.la.lrec.gridX 1 % max c.la.lrec.gridY 1))
  | 0x0A => some (BitVec.ofNat 64 (c.sk.index / (max c.la.lrec.gridX 1 * max c.la.lrec.gridY 1)))
  | 0x0B => some (BitVec.ofNat 64 c.sp)
  | 0x0D => some (BitVec.ofNat 64 s.time)
  | _ => none

end Sys2Proof.Claims

open Sys2Proof.Claims

/-- R173 to R175: SHFL, with nothing outstanding and no lookahead. -/
def Sys2Proof.Claims.LaneShuffle : Prop :=
  ∀ op ∈ laneVecs, ∀ (r : OpRow) (f : Fields) (s s1 : State) (c : Ctx), Issues (op.ins f) r f s c s1 → c.dist = false →
    c.ply.curDefs = [] → c.lookahead f = 0 →
    ∃ t, exec (op.ins f) s = .next t ∧ c.pcIn t = c.pc + Fields.size f ∧ SameS c s1 t ∧
      VectorResult c s1 t (f.ty.bits == 64) f.d.toNat fun th => op.val f c th

/-- R176: VOTE, with nothing outstanding and no lookahead: the scalar forms, whose all ones are 64 ones for either type (DESIGN CHOICE, log 81), and
the mask of `.ballot`. -/
def Obligations.LaneVote : Prop :=
  (∀ op ∈ voteOps, ∀ (r : OpRow) (f : Fields) (s s1 : State) (c : Ctx), Issues (op.ins f) r f s c s1 → c.dist = false →
    c.ply.curDefs = [] → c.lookahead f = 0 →
    ∃ t, exec (op.ins f) s = .next t ∧ c.pcIn t = c.pc + Fields.size f ∧ SameV c s1 t ∧
      (op.holds (c.active.map (aOf f c)) → ScalarResult c s1 t f.d.toNat ones64) ∧
      (¬op.holds (c.active.map (aOf f c)) → ScalarResult c s1 t f.d.toNat 0)) ∧
  (∀ (r : OpRow) (f : Fields) (s s1 : State) (c : Ctx), Issues (.voteBallot f) r f s c s1 → c.dist = false →
    c.ply.curDefs = [] → c.lookahead f = 0 →
    ∃ t, exec (.voteBallot f) s = .next t ∧ c.pcIn t = c.pc + Fields.size f ∧ SameV c s1 t ∧
      MaskResult c s1 t f.d.toNat fun th => aOf f c th != 0)

/-- R173, R177, R178: RED reduces by a tree over the W positions, to a vector destination or under R159; SCAN folds in ascending order of
threads, including the thread's own value or not. That SCAN sets the flags of all its combinations is the model's (DESIGN CHOICE, log 92). -/
def Obligations.LaneReduce : Prop :=
  ∀ op ∈ laneFolds, ∀ (r : OpRow) (f : Fields) (s s1 : State) (c : Ctx), c.dist = false → c.ply.curDefs = [] → c.lookahead f = 0 →
    c.w ∈ [8, 16, 32, 64, 128] →
    (Issues (op.red f) r f s c s1 →
      ∃ t, exec (op.red f) s = .next t ∧ c.pcIn t = c.pc + Fields.size f ∧
        (if f.m.getLsbD 3 then VectorResult c s1 t (f.ty.bits == 64) f.d.toNat (fun _ => (redTree f c op.op (logW c) 0).1) ∧ SameS c s1 t
         else ScalarResult c s1 t f.d.toNat (fillS f.ty (redTree f c op.op (logW c) 0).1) ∧ SameV c s1 t) ∧
        (c.active ≠ [] → c.flagsIn t = c.ply.flags ||| (redTree f c op.op (logW c) 0).2)) ∧
    (Issues (op.scan f) r f s c s1 →
      ∃ t, exec (op.scan f) s = .next t ∧ c.pcIn t = c.pc + Fields.size f ∧ SameS c s1 t ∧
        VectorResult c s1 t (f.ty.bits == 64) f.d.toNat (fun th =>
          (scanAcc f c op.op (c.active.filter fun u => if f.m.getLsbD 4 then decide (u < th) else decide (u ≤ th))).1) ∧
        (c.active ≠ [] → c.flagsIn t = c.ply.flags ||| (scanAcc f c op.op c.active).2))

/-- R179: BCAST. -/
def Sys2Proof.Claims.LaneBroadcast : Prop :=
  ∀ (r : OpRow) (f : Fields) (s s1 : State) (c : Ctx), Issues (.bcast f) r f s c s1 → c.dist = false → c.ply.curDefs = [] →
    c.lookahead f = 0 →
    ∃ t, exec (.bcast f) s = .next t ∧ c.pcIn t = c.pc + Fields.size f ∧
      (match bcastFrom f c with
       | some j =>
         if f.m.getLsbD 3 then VectorResult c s1 t (f.ty.bits == 64) f.d.toNat (fun _ => aOf f c j) ∧ SameS c s1 t
         else ScalarResult c s1 t f.d.toNat (aOf f c j) ∧ SameV c s1 t
       | none =>
         if f.m.getLsbD 3 then VectorResult c s1 t (f.ty.bits == 64) f.d.toNat (aOf f c) ∧ SameS c s1 t
         else SameV c s1 t ∧ SameS c s1 t)

/-- R175, R179: SHFL and BCAST. -/
def Obligations.LaneMove : Prop := LaneShuffle ∧ LaneBroadcast

/-- R104, R180: RDS writes the special value to every active thread, `$skein` and `$time` to a pair; `$cycles` is left open here,
because how many cycles pass between two issues is free (DESIGN CHOICE, log 24). In distaff code the D register takes the distaff's value. -/
def Obligations.ReadSpecial : Prop :=
  ∀ (r : OpRow) (f : Fields) (s s1 : State) (c : Ctx), Issues (.rds f) r f s c s1 → c.ply.curDefs = [] → c.sk.dist.curDefs = [] →
    ∃ t, exec (.rds f) s = .next t ∧ c.pcIn t = c.pc + Fields.size f ∧
      (c.dist = false → SameS c s1 t ∧ (f.m.toNat ≠ 0x0C →
        VectorResult c s1 t (f.m.toNat == 7 || f.m.toNat == 13) f.d.toNat fun th => (rdsSpec c s1 f.m.toNat th).getD 0)) ∧
      (c.dist = true → (∀ q, q ≠ f.d.toNat → c.sIn t q 0 = c.sIn s1 q 0) ∧ (f.m.toNat ≠ 0x0C → c.sIn t f.d.toNat 0 =
        (if f.m.toNat ∈ [0, 1, 2, 5, 6] then 0 else if f.m.toNat = 3 then ones64 else if f.m.toNat = 4 then BitVec.ofNat 64 c.w
         else (rdsSpec c s1 f.m.toNat 0).getD 0)))

namespace Sys2Proof.Claims

/-- A form of PACK and of UNPK, and its number n of fields (R171, R172). -/
structure PackOp where
  pack : Fields → Instr
  unpk : Fields → Instr
  n : Nat

def packOps : List PackOp := [⟨.packPair, .unpkPair, 2⟩, ⟨.packQuad, .unpkQuad, 4⟩, ⟨.packOct, .unpkOct, 8⟩]

/-- Field k of a 32-bit value with n fields. -/
def fieldOf (n k : Nat) (x : Nat) : Nat := x / 2 ^ (32 / n * k) % 2 ^ (32 / n)

/-- What PACK reads its sources as (R171). -/
def packFrom (ty : Ty) : Ty := if ty.isFloat then .f32 else if ty.signed then .s32 else .b32

/-- Register A + k converted to the field's type. -/
def packField (f : Fields) (c : Ctx) (x : Word) : Word × FFlags :=
  convert f.ty (packFrom f.ty) (RMode.ofCode (f.m.toNat % 4)) (f.m.getLsbD 2) c.la.ftz x

/-- Field k of the source of UNPK converted to 32 bits. -/
def unpkField (f : Fields) (c : Ctx) (x : Nat) : Word × FFlags :=
  if f.ty.isFloat then convert .f32 f.ty .rne false c.la.ftz (BitVec.ofNat 64 x)
  else (if f.ty.signed then (vec f.ty (BitVec.ofNat 64 x)).signExtend 64 else BitVec.ofNat 64 x, 0)

/-- The flags of the fields of one thread or strand, from what each is converted from. -/
def fieldFlags (n : Nat) (g : Nat → Word × FFlags) : FFlags := (List.range n).foldl (fun a k => a ||| (g k).2) 0

/-- What a form of PACK or UNPK leaves beside its n destination registers from d on: in the uniform form the flags of every strand with an active
thread are ORed into fp.flags, else those of every active thread; every other register is unchanged (R141). -/
def PackRest (f : Fields) (c : Ctx) (s t : State) (n : Nat) (flags : Nat → FFlags) : Prop :=
  if f.u then
    SameV c s t ∧ (∀ q st, st < 16 → (¬(f.d.toNat ≤ q ∧ q < f.d.toNat + n) ∨ st ∉ c.strands) → c.sIn t q st = c.sIn s q st) ∧
    c.flagsIn t = (c.strands.filter c.touched).foldl (fun a st => a ||| flags (8 * st)) c.ply.flags
  else
    SameS c s t ∧ (∀ q th, th < 128 → (¬(f.d.toNat ≤ q ∧ q < f.d.toNat + n) ∨ th ∉ c.active) → c.vIn t q th = c.vIn s q th) ∧
    c.flagsIn t = orFlags c flags

/-- The source register r of a thread, or of a strand's scalar copies in the uniform form. -/
def packSource (f : Fields) (c : Ctx) (th r : Nat) : Word := if f.u then c.rdScal (th / 8) r else (c.ply.rdV r th).setWidth 64

/-- What an instruction of register form may touch: its own ply or distaff, and the counters of its spindle. Both memories, every
other spindle, skein and ply, the queues of the spindle's engines and every register of the package are as before. -/
def RegisterFrame (c : Ctx) (s t : State) : Prop :=
  SameOutside s t ∧ (∀ a, t.paByte a = s.paByte a) ∧ (∀ sp, sp ≠ c.sp → t.spindle sp = s.spindle sp) ∧
  (∃ ctr fl ta cy nr af lo lp sl, t.spindle c.sp =
    { s.spindle c.sp with ctr := ctr, flow := fl, taken := ta, cycleOf := cy, near := nr, affHeld := af, looked := lo, lastPath := lp, slots := sl }) ∧
  (∀ slot, slot ≠ c.slot → t.skein? c.sp slot = s.skein? c.sp slot) ∧
  (if c.dist then ∃ d, t.skein? c.sp c.slot = (s.skein? c.sp c.slot).map fun k => { k with dist := d }
   else ∃ p, t.skein? c.sp c.slot = (s.skein? c.sp c.slot).map fun k => k.modPly c.plyNo fun _ => p)

/-- The integer and logic instructions. -/
def integerIns : List (Fields → Instr) :=
  [.iadd, .isub, .imul, .imulh, .imad, .imin, .imax, .iabs, .and, .or, .xor, .not, .shl, .shr, .sar, .rol, .ror, .popc, .clz, .brev,
   .bfe, .bfi, .sel, .icmpEq, .icmpNe, .icmpLt, .icmpLe, .icmpGt, .icmpGe, .mov, .movi]

/-- The floating-point, conversion and packing instructions. -/
def floatIns : List (Fields → Instr) :=
  [.fadd, .fsub, .fmul, .ffma, .fmin, .fmax, .fcmpEq, .fcmpNe, .fcmpLt, .fcmpLe, .fcmpGt, .fcmpGe, .fcmpUo, .fcmpOrd, .fsel, .frcp,
   .frsq, .fsqrt, .fexp2, .flog2, .fsin, .fcos, .frnd, .cvt, .packPair, .packQuad, .packOct, .unpkPair, .unpkQuad, .unpkOct]

/-- The lane instructions and RDS. -/
def laneIns : List (Fields → Instr) :=
  [.shflIdx, .shflUp, .shflDown, .shflXor, .voteAll, .voteAny, .voteBallot, .voteEq, .redAdd, .redMin, .redMax, .redAnd, .redOr,
   .redXor, .scanAdd, .scanMin, .scanMax, .scanAnd, .scanOr, .scanXor, .bcast, .rds]

/-- The control and mask instructions that only move the program counter, EXM or a register. -/
def flowIns : List (Fields → Instr) :=
  [.nop, .yield, .br, .brz, .brnz, .call, .plyw, .msave, .mset, .mand, .mor, .mxor, .mnot]

/-- The instructions of register form: what they compute stays in the party's own registers, EXM, flags and path table. -/
def registerOps : List (Fields → Instr) := integerIns ++ floatIns ++ laneIns ++ flowIns

end Sys2Proof.Claims

open Sys2Proof.Claims

/-- R171, R172: PACK puts the converted register A + k into field k of D, and UNPK the converted field k of A into register D + k,
in the ordinary and in the uniform form; the flags of the conversions are ORed into fp.flags (R141), and no other register changes. -/
def Obligations.PackUnpack : Prop :=
  ∀ op ∈ packOps, ∀ (r : OpRow) (f : Fields) (s s1 : State) (c : Ctx), c.dist = false → c.ply.curDefs = [] → c.lookahead f = 0 →
    (Issues (op.pack f) r f s c s1 →
      ∃ t, exec (op.pack f) s = .next t ∧ c.pcIn t = c.pc + Fields.size f ∧
        PackRest f c s1 t 1 (fun th => fieldFlags op.n fun k => packField f c (packSource f c th (f.a.toNat + k))) ∧
        (if f.u then ∀ st ∈ c.strands, (c.sIn t f.d.toNat st).toNat < 2 ^ 32 ∧ ∀ k < op.n,
            fieldOf op.n k (c.sIn t f.d.toNat st).toNat =
              (packField f c (packSource f c (8 * st) (f.a.toNat + k))).1.toNat % 2 ^ (32 / op.n)
         else ∀ th ∈ c.active, ∀ k < op.n, fieldOf op.n k (c.vIn t f.d.toNat th).toNat =
              (packField f c (packSource f c th (f.a.toNat + k))).1.toNat % 2 ^ (32 / op.n))) ∧
    (Issues (op.unpk f) r f s c s1 →
      ∃ t, exec (op.unpk f) s = .next t ∧ c.pcIn t = c.pc + Fields.size f ∧
        PackRest f c s1 t op.n (fun th => fieldFlags op.n fun k => unpkField f c (fieldOf op.n k (packSource f c th f.a.toNat).toNat)) ∧
        (if f.u then ∀ st ∈ c.strands, ∀ k < op.n, c.sIn t (f.d.toNat + k) st =
            (unpkField f c (fieldOf op.n k (packSource f c (8 * st) f.a.toNat).toNat)).1
         else ∀ th ∈ c.active, ∀ k < op.n, c.vIn t (f.d.toNat + k) th =
            (unpkField f c (fieldOf op.n k (packSource f c th f.a.toNat).toNat)).1.setWidth 32))

/-- Every instruction of register form that takes effect answers a next state, and leaves everything outside its own ply or distaff
and the counters of its spindle as it was: both memories, every other party, the engines, and every register of the package. -/
def Obligations.RegisterFormFrame : Prop :=
  ∀ ins ∈ registerOps, ∀ (r : OpRow) (f : Fields) (s s1 : State) (c : Ctx), Issues (ins f) r f s c s1 →
    ∃ t, exec (ins f) s = .next t ∧ RegisterFrame c s t

/-- R93: with a lookahead window of n, nothing is written now: registers and flags read as before, every strand of the path counts
one position, and what the instruction writes in it waits for the landing position, n further on. What waits is the instruction's result: the same
word without lookahead answers a next state as well, whatever it changes in a strand is in a deferred write of that strand, none of them lands before
its position, and once each strand has passed its own, the registers and the flags are those that the word without lookahead leaves. -/
def Sys2Proof.Claims.LookaheadDefers : Prop :=
  ∀ ins ∈ registerOps, ∀ (r : OpRow) (f : Fields) (s s1 : State) (c : Ctx), Issues (ins f) r f s c s1 → c.dist = false →
    c.ply.curDefs = [] → c.lookahead f ≠ 0 →
    ∃ t p t0 p0, exec (ins f) s = .next t ∧ c.pcIn t = c.pc + Fields.size f ∧ SameV c s1 t ∧ SameS c s1 t ∧ c.flagsIn t = c.ply.flags ∧
      c.ply? t = some p ∧ (∀ st ∈ c.strands, st < c.ply.pos.length → p.curPos st = c.ply.curPos st + 1) ∧
      (∀ e ∈ p.curDefs, e.strand ∈ c.strands ∧ e.land = c.ply.curPos e.strand + f.la.toNat) ∧
      exec (ins { f with la := 0 }) s = .next t0 ∧ c.ply? t0 = some p0 ∧
      (∀ st ∈ c.strands, ((∃ q, p0.rdS q st ≠ c.ply.rdS q st) ∨ (∃ q, ∃ th ∈ activeIn c.ply.exm st, p0.rdV q th ≠ c.ply.rdV q th)) →
        ∃ e ∈ p.curDefs, e.strand = st ∧ e.writes ≠ []) ∧
      (∀ st ∈ c.strands, p.land st (c.ply.curPos st + f.la.toNat) = p) ∧
      (c.strands.foldl (fun q st => q.land st (c.ply.curPos st + f.la.toNat + 1)) p).curDefs = [] ∧
      ∀ q, q = c.strands.foldl (fun q st => q.land st (c.ply.curPos st + f.la.toNat + 1)) p →
        q.v = p0.v ∧ q.s = p0.s ∧ q.flags = p0.flags

/-- R93: a deferred write whose value is here is performed when the strand has passed its landing position, and not before; it then
is outstanding no more. -/
def Sys2Proof.Claims.LandingPerforms : Prop :=
  ∀ (p : Ply) (e : Deferred) (bound reg th : Nat) (x : VWord), p.curDefs = [e] → e.op = 0 → e.ue = none → e.writes = [.v reg th x] →
    th < 128 →
    (e.land < bound → (p.land e.strand bound).curDefs = [] ∧ (p.land e.strand bound).rdV reg th = x ∧
      (p.land e.strand bound).flags = p.flags ||| e.flags) ∧
    (bound ≤ e.land → p.land e.strand bound = p)

/-- R93: what lookahead defers, and when it lands. -/
def Obligations.Lookahead : Prop := LookaheadDefers ∧ LandingPerforms

namespace Sys2Proof.Claims

/-- A control transfer: where a strand goes (R182 to R186). -/
structure BranchOp where
  ins : Fields → Instr
  next : Fields → Ctx → Nat → Word

/-- A scalar operand in a strand's copy, in the D register, or a constant. -/
def scal (c : Ctx) (st : Nat) (code : BitVec 8) : Word := c.rdScal st code.toNat

/-- What BRZ and BRNZ test (R184): a strand's eight mask bits, or the whole register. -/
def testOf (f : Fields) (c : Ctx) (st : Nat) : Nat :=
  if c.dist || f.d.getLsbD 0 then (scal c st f.a).toNat
  else (c.rdScal st (if f.a.toNat < 0x80 then f.a.toNat + st / 8 else f.a.toNat)).toNat / 2 ^ (8 * (st % 8)) % 256

/-- PC + 8 × offset, with the signed 32-bit or 24-bit offset of the word (R182, R183). -/
def target32 (f : Fields) (c : Ctx) : Word := c.pc + 8 * (BitVec.signExtend 64 (f.a ++ f.b ++ f.c ++ f.m : BitVec 32))
def target24 (f : Fields) (c : Ctx) : Word := c.pc + 8 * (BitVec.signExtend 64 (f.b ++ f.c ++ f.m : BitVec 24))

def branchOps : List BranchOp := [⟨.br, fun f c _ => target32 f c⟩,
  ⟨.brz, fun f c st => if testOf f c st = 0 then target24 f c else c.pc + 8⟩,
  ⟨.brnz, fun f c st => if testOf f c st = 0 then c.pc + 8 else target24 f c⟩,
  ⟨.call, fun f c _ => target32 f c⟩, ⟨.jmpi, fun f c st => scal c st f.a⟩, ⟨.ret, fun f c st => scal c st f.a⟩]

/-- JMPI and RET: the two that take their target from a register. -/
def jumpOps : List (Fields → Instr) := [.jmpi, .ret]

/-- A strand stands at an address: a valid, ready path of the ply holds it and is there. -/
def StrandAt (p : Ply) (st : Nat) (a : Word) : Prop :=
  ∃ (i : Nat) (e : Path), p.paths[i]? = some e ∧ e.valid = true ∧ e.st = .ready ∧ e.strands.getLsbD st = true ∧ e.pc = a

/-- The effect of a mask instruction on a thread's EXM bit, from the bit and the mask bit (R190). -/
structure MaskOp where
  ins : Fields → Instr
  bit : Bool → Bool → Bool

def maskOps : List MaskOp := [⟨.mset, fun _ m => m⟩, ⟨.mand, fun e m => e && m⟩, ⟨.mor, fun e m => e || m⟩,
  ⟨.mxor, fun e m => e != m⟩, ⟨.mnot, fun e m => m && !e⟩]

/-- Bits [hi:lo] of a register. -/
def bitsAt (w : Word) (lo n : Nat) : Nat := w.toNat / 2 ^ lo % 2 ^ n

/-- trap.cause (R345) of a trap record, field by field. -/
def CauseIs (w : Word) (dist : Bool) (ply path : Nat) (kind : Nat) (prec check imm : Nat) (elem : Option Nat) (guard : Bool) : Prop :=
  bitsAt w 63 1 = dist.toNat ∧ bitsAt w 62 1 = (elem.isSome && !dist).toNat ∧ bitsAt w 61 1 = guard.toNat ∧ bitsAt w 59 2 = prec ∧
  bitsAt w 56 3 = 0 ∧ bitsAt w 52 4 = check ∧ bitsAt w 48 4 = (if dist then 0 else path % 16) ∧ bitsAt w 44 4 = 0 ∧
  bitsAt w 40 4 = (if dist then 0 else ply % 16) ∧ bitsAt w 32 8 = imm ∧ bitsAt w 15 17 = 0 ∧
  bitsAt w 8 7 = (if dist then 0 else elem.getD 0 % 128) ∧ bitsAt w 0 8 = kind

/-- No path of a ply is inside an access to another package: each stands at a boundary (R317, R342). -/
abbrev AtBoundaries (c : Ctx) : Prop := ∀ e ∈ c.ply.paths, (match e.wait with | .remote .. => true | _ => false) = false

/-- The ring's next record lies in memory of this package. -/
abbrev RingHere (s : State) : Prop :=
  ∀ k < 32, s.isLocal (ringBase s.fq + 32 * s.fqHead + k) = true ∧ s.present (offsetOf (ringBase s.fq + 32 * s.fqHead + k)) = true

/-- One record has been written at HEAD (R231): its four words, and HEAD one further on. -/
def RingAdded (c : Ctx) (s t : State) (kind : Nat) (va info : Word) (tid : Nat) : Prop :=
  let a := ringBase s.fq + 32 * s.fqHead
  let w := t.paRead (a + 8) 8
  t.paRead a 8 = va ∧ t.paRead (a + 16) 8 = info ∧ t.paRead (a + 24) 8 = BitVec.ofNat 64 s.time ∧ bitsAt w 56 8 = kind ∧
  bitsAt w 48 8 = c.la.asid % 256 ∧ bitsAt w 32 16 = c.sp % 65536 ∧ bitsAt w 24 8 = c.slot % 256 ∧
  bitsAt w 16 8 = (if c.dist then 0xFF else c.plyNo % 256) ∧ bitsAt w 8 8 = (if c.dist then 0xFF else c.idx % 256) ∧
  bitsAt w 0 8 = (if c.dist then 0xFF else tid % 256) ∧ t.fqHead = (s.fqHead + 1) % 2 ^ (bitsAt s.fq 0 4 + 4)

/-- A ply in the handler that a trap enters (R342, R345): what was current is set aside, the trap registers are written, and the handler
starts as one path over every strand of the declared width. -/
def InHandler (c : Ctx) (p : Ply) (h cause epc addr : Word) : Prop :=
  p.trap.mode = true ∧ p.trap.cause = cause ∧ p.trap.epc = epc &&& ~~~7 ∧ p.trap.addr = addr ∧ p.trap.sel = BitVec.ofNat 4 c.plyNo ∧
  p.trap.exm = c.ply.exm ∧ p.trap.flags = c.ply.flags ∧ p.trap.path = c.idx ∧ p.trap.k0 = c.ply.trap.k0 ∧ p.trap.k1 = c.ply.trap.k1 ∧
  p.trap.k2 = c.ply.trap.k2 ∧ p.trap.k3 = c.ply.trap.k3 ∧
  (p.trap.paths.map fun e => (e.valid, e.pc, e.strands)) = (c.ply.paths.map fun e => (e.valid, e.pc, e.strands)) ∧
  p.paths.length = 16 ∧ p.paths.head? = some { valid := true, pc := h, strands := allStrands c.w } ∧
  (∀ e ∈ p.paths.tail, e.valid = false) ∧ p.exm = allThreads c.w ∧ p.flags = 0 ∧ p.v = c.ply.v ∧ p.s = c.ply.s

/-- A distaff in its handler. -/
def DistInHandler (c : Ctx) (d : Dist) (h cause epc addr : Word) : Prop :=
  d.trap.mode = true ∧ d.trap.cause = cause ∧ d.trap.epc = epc &&& ~~~7 ∧ d.trap.addr = addr ∧ d.trap.sel = 0 ∧ d.pc = h ∧
  d.wait = .none ∧ d.d = c.sk.dist.d

/-- A skein that has ended (R208): its distaff and every strand of its plies have exited, and its decision queue is empty. -/
def SkeinEnded (w : Nat) (k : Skein) : Prop :=
  k.life = .ended ∧ k.dist.exited = true ∧ k.dq = [] ∧ ∀ p ∈ k.plies, p.exited = allStrands w ∧ (∀ e ∈ p.paths, e.valid = false) ∧ p.token = false

/-- The handler of the launch's region; 0 for none. -/
def handlerAt (c : Ctx) (s : State) : Word := s.handlerOf c.la

/-- A trap of the party ends its skein: it is in its handler, or its region has none (R350). -/
abbrev Unhandled (c : Ctx) (s : State) : Prop := c.handler = true ∨ handlerAt c s = 0

end Sys2Proof.Claims

open Sys2Proof.Claims

/-- R107, R182 to R186: a branch, call or aligned jump in ply code: every strand of the path stands at its own next address, ready;
CALL writes PC + 8 in every strand's copy of D. In distaff code the context is at the target of its own registers. -/
def Sys2Proof.Claims.Branches : Prop :=
  ∀ op ∈ branchOps, ∀ (r : OpRow) (f : Fields) (s s1 : State) (c : Ctx), Issues (op.ins f) r f s c s1 → c.ply.curDefs = [] →
    c.sk.dist.curDefs = [] → (r.opc = 2 ∧ (r.fn = 3 ∨ r.fn = 5) → ∀ st ∈ c.strands, bitsAt (op.next f c st) 0 3 = 0) →
    ∃ t, exec (op.ins f) s = .next t ∧ SameV c s1 t ∧
      (r.fn ≠ 4 → SameS c s1 t) ∧ (r.fn = 4 → ∀ st ∈ c.strands, c.sIn t f.d.toNat st = c.pc + 8) ∧
      (c.dist = true → c.pcIn t = op.next f c 0) ∧
      (c.dist = false → c.strands.length ≤ (c.ply.paths.filter fun e => !e.valid).length + 1 →
        ∃ p, c.ply? t = some p ∧ ∀ st ∈ c.strands, StrandAt p st (op.next f c st))

/-- R182, R185: a misaligned target is a PC_ALIGN trap that reports the first thread of the lowest strand whose target is misaligned, and
the target; it resumes at the jump itself, and no strand transfers. -/
def Sys2Proof.Claims.JumpMisaligned : Prop :=
  ∀ ins ∈ jumpOps, ∀ (r : OpRow) (f : Fields) (s s1 : State) (c : Ctx) (st : Nat), Issues (ins f) r f s c s1 →
    (c.strands.find? fun st => bitsAt (scal c st f.a) 0 3 != 0) = some st →
    exec (ins f) s = .next (takeTrap c { kind := .pcAlign, elem := some (8 * st), addr := scal c st f.a } c.pc s1)

/-- R107, R182 to R186: control transfers, and their misaligned targets. -/
def Obligations.ControlTransfer : Prop := Branches ∧ JumpMisaligned

/-- R190: a mask instruction changes EXM in the strands of its path only, each by its own eight bits of the operand, and nothing
else; MSAVE writes EXM as a mask result in every strand's copy of the path. -/
def Obligations.MaskInstructions : Prop :=
  (∀ op ∈ maskOps, ∀ (r : OpRow) (f : Fields) (s s1 : State) (c : Ctx), Issues (op.ins f) r f s c s1 → c.dist = false →
    c.ply.curDefs = [] →
    ∃ t, exec (op.ins f) s = .next t ∧ c.pcIn t = c.pc + 8 ∧ SameV c s1 t ∧ SameS c s1 t ∧ c.flagsIn t = c.ply.flags ∧
      ∀ th < 128, (c.exmIn t).getLsbD th =
        if th / 8 ∈ c.strands then op.bit (c.ply.exm.getLsbD th) (c.maskBit f.a.toNat th) else c.ply.exm.getLsbD th) ∧
  (∀ (r : OpRow) (f : Fields) (s s1 : State) (c : Ctx), Issues (.msave f) r f s c s1 → c.dist = false → c.ply.curDefs = [] →
    ∃ t, exec (.msave f) s = .next t ∧ c.pcIn t = c.pc + 8 ∧ SameV c s1 t ∧ c.exmIn t = c.ply.exm ∧ c.flagsIn t = c.ply.flags ∧
      (∀ st ∈ c.strands, ∀ b < maskBits c, maskBitIn c t f.d.toNat st b =
        if c.w ≤ b then false else if b / 8 ∈ c.strands then c.ply.exm.getLsbD b else maskBitIn c s1 f.d.toNat st b) ∧
      (∀ q st, st < 16 → (st ∉ c.strands ∨ (q ≠ f.d.toNat ∧ ¬(c.w = 128 ∧ q = f.d.toNat + 1))) → c.sIn t q st = c.sIn s1 q st))

/-- R189, R207: PLYW writes the path's current width in every strand's copy; NOP and YIELD only go on. -/
def Sys2Proof.Claims.PlainControl : Prop :=
  (∀ (r : OpRow) (f : Fields) (s s1 : State) (c : Ctx), Issues (.plyw f) r f s c s1 → c.ply.curDefs = [] →
    ∃ t, exec (.plyw f) s = .next t ∧ c.pcIn t = c.pc + 8 ∧ SameV c s1 t ∧
      (∀ st ∈ c.strands, c.sIn t f.d.toNat st = BitVec.ofNat 64 (8 * c.strands.length)) ∧
      (∀ q st, st < 16 → (q ≠ f.d.toNat ∨ st ∉ c.strands) → c.sIn t q st = c.sIn s1 q st)) ∧
  (∀ (r : OpRow) (f : Fields) (s s1 : State) (c : Ctx), Issues (.nop f) r f s c s1 →
    exec (.nop f) s = .next (countIssue c (issueClass r f) (c.finish0 f s1))) ∧
  (∀ (r : OpRow) (f : Fields) (s s1 : State) (c : Ctx), Issues (.yield f) r f s c s1 →
    exec (.yield f) s = .next (countIssue c (issueClass r f) (c.finish0 f s1)))

/-- An earlier store of the party has not been performed: it is in its side log, or on its way to another package (R207, R229). -/
abbrev StoreOut (c : Ctx) (s : State) : Prop :=
  c.logPending = true ∨ ∃ q ∈ s.reqs, q.ownOf c.sk.uid c.who c.path.strands = true ∧ q.arrived = false ∧ q.what ≠ .load

/-- R114, R207: ICSYNC waits at its own address while an earlier store of its party has not been performed, in its side log or at another package; then
it discards the party's buffered code lines. -/
def Sys2Proof.Claims.Icsync : Prop :=
  ∀ (r : OpRow) (f : Fields) (s s1 : State) (c : Ctx), Issues (.icsync f) r f s c s1 → c.ply.curDefs = [] → c.sk.dist.curDefs = [] →
    (StoreOut c s1 → ∃ t, exec (.icsync f) s = .next t ∧ c.pcIn t = c.pc ∧ SameV c s1 t ∧ SameS c s1 t) ∧
    (¬StoreOut c s1 → ∃ t, exec (.icsync f) s = .next t ∧ c.pcIn t = c.pc + 8 ∧ SameV c s1 t ∧ SameS c s1 t ∧
      (if c.dist then (c.distIn t).fbuf = [] else ∃ p, c.ply? t = some p ∧ p.fbuf = []))

/-- R114, R189, R207: PLYW, NOP, YIELD and ICSYNC. -/
def Obligations.PlainSteps : Prop := PlainControl ∧ Icsync

/-- R208: HALT ends the skein at once. No skein of another spindle changes, and of those beside it at most what a freed queue place lets them do: static
entries of theirs are released and enter their queues (R253, R258). -/
def Sys2Proof.Claims.Halt : Prop :=
  ∀ (r : OpRow) (f : Fields) (s s1 : State) (c : Ctx), Issues (.halt f) r f s c s1 →
    ∃ t k, exec (.halt f) s = .next t ∧ t.skein? c.sp c.slot = some k ∧ SkeinEnded c.w k ∧ (t.launch c.sk.launch).anyEnded = true ∧
      t.mem = s.mem ∧ t.remote = s.remote ∧ (∀ sp slot, sp ≠ c.sp → t.skein? sp slot = s.skein? sp slot) ∧
      (∀ slot, slot ≠ c.slot → ∃ n w e g, t.skein? c.sp slot =
        (s.skein? c.sp slot).map fun y => { y with statNext := n, statWait := w, evHeld := e, stageG := g })

/-- R109, R187: a JOIN of a path without a sibling does not wait; with a sibling that runs, the path waits at its own address and
the sibling goes on unchanged. -/
def Sys2Proof.Claims.Join : Prop :=
  ∀ (r : OpRow) (f : Fields) (s s1 : State) (c : Ctx), Issues (.join f) r f s c s1 → c.dist = false →
    (c.hasSibling = false → c.ply.curDefs = [] → ∃ t, exec (.join f) s = .next t ∧ c.pcIn t = c.pc + 8 ∧ SameV c s1 t ∧ SameS c s1 t) ∧
    (∀ i, i ≠ c.idx → (nth c.ply.paths i {}).running = true → ∃ t p, exec (.join f) s = .next t ∧ c.ply? t = some p ∧
      p.v = c.ply.v ∧ p.s = c.ply.s ∧ p.paths = modNth c.ply.paths c.idx fun e => { e with st := .waiting, wait := .none })

/-- R109, R111, R188: EXIT ends the strands of a path, whatever their EXM bits, and frees its entry when none of their writes is
outstanding; while a sibling runs no other path changes, and when none does those that wait at the lowest JOIN go on at that moment. In distaff code
it ends the distaff. -/
def Sys2Proof.Claims.Exit : Prop :=
  ∀ (r : OpRow) (f : Fields) (s s1 : State) (c : Ctx), Issues (.exit f) r f s c s1 →
    (c.dist = true → ∃ t, exec (.exit f) s = .next t ∧ (c.distIn t).exited = true) ∧
    (c.dist = false → c.ply.defs = [] → c.ply.hdefs = [] → ∃ t p, exec (.exit f) s = .next t ∧ c.ply? t = some p ∧
      (∀ st < 16, p.exited.getLsbD st = (c.ply.exited.getLsbD st || decide (st ∈ c.strands))) ∧ nth p.paths c.idx {} = {} ∧
      ((∃ j, j ≠ c.idx ∧ (nth c.ply.paths j {}).running = true) ∨ (∀ e ∈ c.ply.paths, e.atJoin = false) →
        ∀ i, i ≠ c.idx → (nth c.ply.paths i {}).st ≠ .exited → nth p.paths i {} = nth c.ply.paths i {}) ∧
      (∀ i, i ≠ c.idx → (nth c.ply.paths i {}).atJoin = true →
        (∀ j, j ≠ c.idx → (nth c.ply.paths j {}).running = false ∧ ((nth c.ply.paths j {}).atJoin = true → (nth c.ply.paths i {}).pc ≤ (nth c.ply.paths j {}).pc)) →
        ∃ e ∈ p.paths, e.running = true ∧ e.pc = (nth c.ply.paths i {}).pc + 8 ∧ ∀ st < 16, (nth c.ply.paths i {}).strands.getLsbD st = true → e.strands.getLsbD st = true))

/-- R109, R111, R187, R188, R208: HALT, JOIN and EXIT. -/
def Obligations.Endings : Prop := Halt ∧ Join ∧ Exit

/-- R209, R340, R342, R345: TRAP on a true condition, and SYSCALL, take their trap where the region has a handler and the party is not
in it, and no sibling path of a ply is inside an access to another package: it resumes after the instruction, and the handler starts. -/
def Sys2Proof.Claims.TrapEntry : Prop :=
  ∀ (r : OpRow) (f : Fields) (s s1 : State) (c : Ctx), c.handler = false → handlerAt c s1 ≠ 0 → c.ply.curDefs = [] →
    c.sk.dist.curDefs = [] → (c.dist = false → AtBoundaries c) →
    (Issues (.syscall f) r f s c s1 →
      ∃ t w, exec (.syscall f) s = .next t ∧ CauseIs w c.dist c.plyNo c.idx 0x18 0 0 f.m.toNat none false ∧
        (if c.dist then DistInHandler c (c.distIn t) (handlerAt c s1) w (c.pc + 8) 0
         else ∃ p, c.ply? t = some p ∧ InHandler c p (handlerAt c s1) w (c.pc + 8) 0)) ∧
    (Issues (.trap f) r f s c s1 → c.dist = false → ∀ th, (c.active.find? fun t => c.maskBit f.a.toNat t) = some th →
      ∃ t w p, exec (.trap f) s = .next t ∧ CauseIs w false c.plyNo c.idx 0x17 0 0 f.m.toNat (some th) false ∧
        c.ply? t = some p ∧ InHandler c p (handlerAt c s1) w (c.pc + 8) 0) ∧
    (Issues (.trap f) r f s c s1 → c.dist = true → scal c 0 f.a ≠ 0 →
      ∃ t w, exec (.trap f) s = .next t ∧ CauseIs w true c.plyNo c.idx 0x17 0 0 f.m.toNat none false ∧
        DistInHandler c (c.distIn t) (handlerAt c s1) w (c.pc + 8) 0) ∧
    (Issues (.bkpt f) r f s c s1 → c.dist = true ∨ s1.debugHeld c.la = false →
      ∃ t w, exec (.bkpt f) s = .next t ∧ CauseIs w c.dist c.plyNo c.idx 0x19 0 0 f.m.toNat none false ∧
        (if c.dist then DistInHandler c (c.distIn t) (handlerAt c s1) w (c.pc + 8) 0
         else ∃ p, c.ply? t = some p ∧ InHandler c p (handlerAt c s1) w (c.pc + 8) 0))

/-- R209: TRAP on a false condition only goes on. -/
def Sys2Proof.Claims.TrapNotTaken : Prop :=
  ∀ (r : OpRow) (f : Fields) (s s1 : State) (c : Ctx), Issues (.trap f) r f s c s1 →
    (if c.dist then scal c 0 f.a = 0 else ∀ th ∈ c.active, c.maskBit f.a.toNat th = false) →
    exec (.trap f) s = .next (countIssue c (issueClass r f) (c.finish0 f s1))

/-- R231, R342, R350: a trap in handler mode, or in a region without a handler, ends the skein and writes one record into the ring, of KIND 5 with
trap.addr as its VA and trap.cause as its INFO; while the ring has no room for it the party is held with the trap still to take, and nothing else
changes. So is a ply whose handler would start, while a path of it is inside an access to another package, and stands at no boundary. -/
def Sys2Proof.Claims.UnhandledTrap : Prop :=
  ∀ (c : Ctx) (t : TrapRec) (epc : Word) (s : State), s.skein? c.sp c.slot = some c.sk →
    (Unhandled c s →
      (s.ringFree ≠ 0 → (∃ k, (takeTrap c t epc s).skein? c.sp c.slot = some k ∧ SkeinEnded (s.launch c.sk.launch).width k) ∧
        (takeTrap c t epc s).fqHead = (s.fqHead + 1) % 2 ^ (bitsAt s.fq 0 4 + 4) ∧
        ∃ w, CauseIs w c.dist c.plyNo c.idx t.kind.code t.prec.code (t.check % 16) t.imm.toNat t.elem t.guard ∧
          (RingHere s → RingAdded c s (takeTrap c t epc s) 5 t.addr w (t.elem.getD 0xFF))) ∧
      (s.ringFree = 0 → takeTrap c t epc s = c.holdRing none s)) ∧
    (¬Unhandled c s → c.dist = false → ¬AtBoundaries c → takeTrap c t epc s = c.hold none [] s)

/-- R209, R340, R342, R345, R350: traps taken, not taken, and unhandled. -/
def Obligations.TrapSteps : Prop := TrapEntry ∧ TrapNotTaken ∧ UnhandledTrap

/-- R348: ERET in handler mode, once the handler has nothing outstanding: the path table, EXM and flags set aside become current,
the trapping path resumes at trap.epc, and the fetch buffer is empty. An exited path's entry is free if none of its deferred writes is outstanding, and
else kept, whatever has exited in the handler (R111). A handler path that waits at a JOIN counts as having nothing outstanding (DEDUCED, log 73). -/
def Obligations.ReturnFromTrap : Prop :=
  ∀ (r : OpRow) (f : Fields) (s s1 : State) (c : Ctx), Issues (.eret f) r f s c s1 →
    (c.dist = true → c.sk.dist.hdefs = [] → ∃ t, exec (.eret f) s = .next t ∧ (c.distIn t).trap.mode = false ∧
      (c.distIn t).pc = c.sk.dist.trap.epc ∧ (c.distIn t).fbuf = [] ∧ (c.distIn t).d = c.sk.dist.d ∧
      (c.distIn t).pos = c.sk.dist.pos ∧ (c.distIn t).defs = c.sk.dist.defs) ∧
    (c.dist = false → c.ply.hdefs = [] → (∀ e ∈ c.ply.paths, e.underWay = false) → c.ply.exited = 0 →
      ∃ t p, exec (.eret f) s = .next t ∧ c.ply? t = some p ∧ p.trap.mode = false ∧ p.exm = c.ply.trap.exm ∧
        p.flags = c.ply.trap.flags ∧ p.fbuf = [] ∧ p.v = c.ply.v ∧ p.s = c.ply.s ∧ p.pos = c.ply.pos ∧ p.defs = c.ply.defs ∧
        let was := fun i => nth c.ply.trap.paths i {}
        ((was c.ply.trap.path).strands ≠ 0 → (was c.ply.trap.path).st ≠ .exited → (nth p.paths c.ply.trap.path {}).pc = c.ply.trap.epc) ∧
        (∀ i, i ≠ c.ply.trap.path → (was i).strands ≠ 0 → (was i).st ≠ .exited → nth p.paths i {} = was i) ∧
        ∀ i, i ≠ c.ply.trap.path → (was i).st = .exited → (∀ d ∈ c.ply.defs, (was i).strands.getLsbD d.strand = false) →
          (nth p.paths i {}).valid = false) ∧
    (c.dist = false → c.ply.hdefs = [] → (∀ e ∈ c.ply.paths, e.underWay = false) → ∃ t p, exec (.eret f) s = .next t ∧ c.ply? t = some p ∧
      ∀ i, i ≠ c.ply.trap.path → let e := nth c.ply.trap.paths i {}
        e.valid = true → e.st = .exited → (∃ d ∈ c.ply.defs, e.strands.getLsbD d.strand = true) → nth p.paths i {} = e)

namespace Sys2Proof.Claims

/-- A memory instruction: its kind, and whether it is the uniform load. -/
structure MemOp where
  ins : Fields → Instr
  kind : MemKind
  ldu : Bool

/-- Loads and stores. -/
def moveOps : List MemOp := [⟨.ld, .load, false⟩, ⟨.st, .store, false⟩, ⟨.ldu, .load, true⟩]

/-- ATOM, by operation. -/
def atomOps : List (MemOp × Rmw) := [(⟨.atomAdd, .atom .add, false⟩, .add), (⟨.atomMin, .atom .min, false⟩, .min),
  (⟨.atomMax, .atom .max, false⟩, .max), (⟨.atomAnd, .atom .and, false⟩, .and), (⟨.atomOr, .atom .or, false⟩, .or),
  (⟨.atomXor, .atom .xor, false⟩, .xor), (⟨.atomXchg, .atom .xchg, false⟩, .xchg), (⟨.atomCas, .atom .cas, false⟩, .cas),
  (⟨.atomInc, .atom .inc, false⟩, .inc)]

/-- MRED, by operation. -/
def mredOps : List (MemOp × Rmw) := [(⟨.mredAdd, .mred .add, false⟩, .add), (⟨.mredMin, .mred .min, false⟩, .min),
  (⟨.mredMax, .mred .max, false⟩, .max), (⟨.mredAnd, .mred .and, false⟩, .and), (⟨.mredOr, .mred .or, false⟩, .or),
  (⟨.mredXor, .mred .xor, false⟩, .xor), (⟨.mredInc, .mred .inc, false⟩, .inc)]

def rmwOps : List MemOp := atomOps.map Prod.fst ++ mredOps.map Prod.fst
def memOps : List MemOp := moveOps ++ rmwOps

/-- Bytes of an access (R194). -/
def nBytes (f : Fields) : Nat := f.ty.bits / 8

/-- The bytes an access touches: the place of each within the value, and where it lies. -/
abbrev Cells := List (Nat × Nat)

/-- The little-endian value of some bytes (R8). -/
def valueAt (g : Nat → Byte) (x : Cells) : Nat := x.foldl (fun v p => v + (g p.2).toNat * 256 ^ p.1) 0

/-- Byte k of a value. -/
def byteOf (x : Word) (k : Nat) : Byte := x.extractLsb' (8 * k) 8

/-- A loaded value filled for its destination (R90, R194). -/
def filled (ty : Ty) (x : Nat) : Word :=
  if ty.signed then (BitVec.ofNat ty.bits x).signExtend 64 else (BitVec.ofNat ty.bits x).setWidth 64

/-- a(t) of a thread, in its strand's copies (R193). -/
def addr (disp8 : Bool) (f : Fields) (c : Ctx) (th : Nat) : Word := c.addrOf disp8 f (th / 8) th

/-- The cells of a range. -/
def rangeCells (a n : Nat) : Cells := (List.range n).map fun k => (k, a + k)

/-- The scratchpad cells of a thread's access. -/
def scratchCells (disp8 : Bool) (f : Fields) (c : Ctx) (th : Nat) : Cells := rangeCells (addr disp8 f c th).toNat (nBytes f)

/-- The physical bytes of an access that has been translated, piece by piece (R197, R223). -/
def Ctx.cells (c : Ctx) (s : State) (sp : Space) (n : Nat) (u : ThreadAcc) : Cells :=
  (c.place s sp n u).pieces.flatMap fun q =>
    match q.2.place q.1.va with
    | none => []
    | some (pa, _) => (List.range q.1.n).map fun j => (q.1.at_ + j, pa + j)

/-- The scratchpad byte of the party's skein, in a state. -/
def scratchIn (c : Ctx) (s : State) (b : Nat) : Byte := sget (((s.skein? c.sp c.slot).map Skein.scratch).getD []) b

/-- Nothing of the party waits in a side log, or it is in its handler (R207, R229). -/
abbrev Prompt (c : Ctx) : Prop := c.handler = true ∨ c.sideLog = []

/-- No token is needed (R334): the launch is not deterministic, the ply holds the token, or it is in its handler. -/
abbrev Tokened (c : Ctx) : Prop := c.la.det = false ∨ c.handler = true ∨ (c.dist = false ∧ c.ply.token = true)

/-- Every byte of memory reads as before. -/
def SameMemory (s t : State) : Prop := ∀ a, t.paByte a = s.paByte a

/-- The scratchpad of the party's skein reads as before. -/
def SameScratch (c : Ctx) (s t : State) : Prop := ∀ b, scratchIn c t b = scratchIn c s b

/-- A whole memory instruction can be performed here and now: every access of it passes the checks of R195 and R334, translates, and
lies in trained memory of this package. -/
abbrev Performable (op : MemOp) (f : Fields) (c : Ctx) (s : State) : Prop :=
  let ps := (c.accesses op.kind op.ldu f).map (c.place s (spaceOf f) (nBytes f))
  let rmw := match op.kind with | .atom _ | .mred _ => true | _ => false
  c.accTraps s (spaceOf f) op.kind.need (nBytes f) rmw ps = none ∧ c.tokenLack rmw (spaceOf f) ps = none ∧ anyFault ps = false ∧
  anyUntrained s ps = false ∧ (op.kind.need ≠ .write → anyRetrains s ps = false) ∧ c.l1Waits s (spaceOf f) ps = false ∧
  anyRemote s (spaceOf f) ps = false

/-- What holds the party, in a state. -/
def heldIn (c : Ctx) (t : State) : Option Held := if c.dist then (c.distIn t).held else ((c.ply? t).map Ply.held).getD none

/-- The side log of the party, in a state. -/
def logIn (c : Ctx) (t : State) : List LogEntry := if c.dist then (c.distIn t).sideLog else ((c.ply? t).map Ply.sideLog).getD []

/-- The pending traps of the party's ply or distaff, in a state. -/
def pendIn (c : Ctx) (t : State) : List TrapRec := if c.dist then (c.distIn t).pend else ((c.ply? t).map Ply.pend).getD []

/-- Nothing but the ring's next record has changed in memory. -/
def OnlyRing (s t : State) : Prop :=
  ∀ a, ¬(ringBase s.fq + 32 * s.fqHead ≤ a ∧ a < ringBase s.fq + 32 * s.fqHead + 32) → t.paByte a = s.paByte a

/-- The accesses of a memory instruction, with what each piece's translation finds. -/
def placedOf (op : MemOp) (f : Fields) (c : Ctx) (s : State) : List Placed := (c.accesses op.kind op.ldu f).map (c.place s (spaceOf f) (nBytes f))

/-- A memory instruction that passes the checks of R195 and R334, and meets a page that does not translate. -/
abbrev MeetsFault (op : MemOp) (f : Fields) (c : Ctx) (s : State) : Prop :=
  let rmw := match op.kind with | .atom _ | .mred _ => true | _ => false
  c.accTraps s (spaceOf f) op.kind.need (nBytes f) rmw (placedOf op f c s) = none ∧ c.tokenLack rmw (spaceOf f) (placedOf op f c s) = none ∧
  anyFault (placedOf op f c s) = true

/-- Records that a store or a reduction needs (R228, R230). -/
def recordsOf (op : MemOp) (f : Fields) (c : Ctx) (s : State) : Nat :=
  (if failing Tr.isTable (placedOf op f c s) = [] then 0 else 1) + (if failing Tr.isReported (placedOf op f c s) = [] then 0 else 1)

/-- The instruction has no effect but that the party is held at it, until the ring has room (R231). -/
def Waits (op : MemOp) (f : Fields) (c : Ctx) (s s1 : State) : Prop :=
  ∃ t, exec (op.ins f) s = .next t ∧ c.pcIn t = c.pc ∧ SameMemory s t ∧ SameV c s1 t ∧ SameS c s1 t ∧ SameScratch c s t ∧
    heldIn c t = some { path := c.idx, ins := some (op.ins f), pages := [], woken := false, ring := true }

/-- The access of a thread, by what LD, ST, ATOM and MRED put into it. -/
def accessOf (op : MemOp) (f : Fields) (c : Ctx) (th : Nat) : Option ThreadAcc := (c.accesses op.kind op.ldu f).find? fun u => u.tid == th

/-- The physical bytes of a thread's global access. -/
def globalCells (op : MemOp) (f : Fields) (c : Ctx) (s : State) (th : Nat) : Cells :=
  match accessOf op f c th with
  | none => []
  | some u => Ctx.cells c s .global (nBytes f) u

/-- The new value of a read-modify-write (R204, R206): integers wrap; `f32` rounds to nearest even under the launch's FTZ. -/
def rmwVal (op : Rmw) (ty : Ty) (ftz : Bool) (old x cmp : Word) : Word :=
  match op with
  | .add => if ty.isFloat then (LaneOp.combine .add ty ftz old x).1 else word ty (val ty old + val ty x)
  | .min => if ty.isFloat then (LaneOp.combine .min ty ftz old x).1 else if val ty old ≤ val ty x then old else x
  | .max => if ty.isFloat then (LaneOp.combine .max ty ftz old x).1 else if val ty old ≤ val ty x then x else old
  | .and => old &&& x
  | .or => old ||| x
  | .xor => old ^^^ x
  | .xchg => x
  | .cas => if vec ty old = vec ty cmp then x else old
  | .inc => if (vec ty x).toNat ≤ (vec ty old).toNat then 0 else old + 1

/-- One access of a read-modify-write: its cells, data and compare value. -/
structure RmwAcc where
  th : Nat
  cells : Cells
  data : Word
  cmp : Word

/-- Read-modify-writes one after another, in ascending order of threads (R198): the values they found, and the bytes they left. -/
def rmwRun (op : Rmw) (ty : Ty) (ftz : Bool) : List RmwAcc → (Nat → Byte) → List (Nat × Nat) × (Nat → Byte)
  | [], g => ([], g)
  | u :: l, g =>
    let old := valueAt g u.cells
    let new := rmwVal op ty ftz (BitVec.ofNat 64 old) u.data u.cmp
    let r := rmwRun op ty ftz l fun b => match u.cells.find? fun p => p.2 == b with | none => g b | some p => byteOf new p.1
    ((u.th, old) :: r.1, r.2)

/-- The value a thread's access found. -/
def foundBy (l : List (Nat × Nat)) (th : Nat) : Nat := ((l.find? fun p => p.1 == th).map Prod.snd).getD 0

/-- A register or pair of a thread. -/
def vecOf (f : Fields) (c : Ctx) (v : BitVec 8) (th : Nat) : Word :=
  if f.ty.bits = 64 then (c.ply.rdV (v.toNat + 1) th ++ c.ply.rdV v.toNat th : BitVec 64) else (c.ply.rdV v.toNat th).setWidth 64

/-- The read-modify-writes of the active threads, ascending, on the cells of each. -/
def rmwAccs (cas : Bool) (f : Fields) (c : Ctx) (cells : Nat → Cells) : List RmwAcc :=
  c.active.map fun th => { th, cells := cells th, data := vecOf f c f.c th, cmp := if cas then vecOf f c f.d th else 0 }

end Sys2Proof.Claims

open Sys2Proof.Claims

/-- R90, R193, R194, R200, R201, R203: loads from the scratchpad, with every access inside the skein's range: LD by thread, LDU by
touched strand with that strand's own address, and the distaff's. No byte of the scratchpad or of memory changes. -/
def Sys2Proof.Claims.ScratchLoads : Prop :=
  ∀ (r : OpRow) (f : Fields) (s s1 : State) (c : Ctx), spaceOf f = .scratch → c.ply.curDefs = [] → c.sk.dist.curDefs = [] →
    c.lookahead f = 0 → Prompt c →
    (Issues (.ld f) r f s c s1 → c.dist = false → (∀ th ∈ c.active, (addr true f c th).toNat + nBytes f ≤ c.la.hdr.scratch) →
      ∃ t, exec (.ld f) s = .next t ∧ c.pcIn t = c.pc + Fields.size f ∧ SameS c s1 t ∧ SameMemory s t ∧ SameScratch c s t ∧
        VectorResult c s1 t (f.ty.bits == 64) f.d.toNat fun th => filled f.ty (valueAt (scratchIn c s) (scratchCells true f c th))) ∧
    (Issues (.ldu f) r f s c s1 → c.dist = false → (∀ st ∈ c.strands, c.touched st = true → (addr true f c (8 * st)).toNat + nBytes f ≤ c.la.hdr.scratch) →
      ∃ t, exec (.ldu f) s = .next t ∧ c.pcIn t = c.pc + Fields.size f ∧ SameV c s1 t ∧ SameMemory s t ∧ SameScratch c s t ∧
        (∀ st ∈ c.strands, c.touched st = true → c.sIn t f.d.toNat st = filled f.ty (valueAt (scratchIn c s) (scratchCells true f c (8 * st)))) ∧
        (∀ q st, st < 16 → (q ≠ f.d.toNat ∨ st ∉ c.strands ∨ c.touched st = false) → c.sIn t q st = c.sIn s1 q st)) ∧
    (∀ ins ∈ [Instr.ld, Instr.ldu], Issues (ins f) r f s c s1 → c.dist = true → (addr true f c 0).toNat + nBytes f ≤ c.la.hdr.scratch →
      ∃ t, exec (ins f) s = .next t ∧ c.pcIn t = c.pc + Fields.size f ∧ SameMemory s t ∧ SameScratch c s t ∧
        c.sIn t f.d.toNat 0 = filled f.ty (valueAt (scratchIn c s) (scratchCells true f c 0)) ∧ (∀ q, q ≠ f.d.toNat → c.sIn t q 0 = c.sIn s1 q 0))

/-- R193, R198, R200: a store to the scratchpad leaves in every byte the data of the highest thread that stores to it; every other
byte, every register and all of memory are as before. -/
def Sys2Proof.Claims.ScratchStores : Prop :=
  ∀ (r : OpRow) (f : Fields) (s s1 : State) (c : Ctx), Issues (.st f) r f s c s1 → spaceOf f = .scratch → c.ply.curDefs = [] →
    c.sk.dist.curDefs = [] → Prompt c →
    (c.dist = false → (∀ th ∈ c.active, (addr true f c th).toNat + nBytes f ≤ c.la.hdr.scratch) →
      ∃ t, exec (.st f) s = .next t ∧ c.pcIn t = c.pc + Fields.size f ∧ SameV c s1 t ∧ SameS c s1 t ∧ SameMemory s t ∧
        (∀ th ∈ c.active, ∀ x ∈ scratchCells true f c th, (∀ u ∈ c.active, th < u → ∀ y ∈ scratchCells true f c u, y.2 ≠ x.2) →
          scratchIn c t x.2 = byteOf (vecOf f c f.d th) x.1) ∧
        (∀ b, (∀ th ∈ c.active, ∀ x ∈ scratchCells true f c th, x.2 ≠ b) → scratchIn c t b = scratchIn c s b)) ∧
    (c.dist = true → (addr true f c 0).toNat + nBytes f ≤ c.la.hdr.scratch →
      ∃ t, exec (.st f) s = .next t ∧ c.pcIn t = c.pc + Fields.size f ∧ SameMemory s t ∧ (∀ q, c.sIn t q 0 = c.sIn s1 q 0) ∧
        (∀ x ∈ scratchCells true f c 0, scratchIn c t x.2 = byteOf (c.rdScal 0 f.d.toNat) x.1) ∧
        (∀ b, (∀ x ∈ scratchCells true f c 0, x.2 ≠ b) → scratchIn c t b = scratchIn c s b))

/-- R193, R194, R198, R200, R201, R203: loads and stores in the scratchpad. -/
def Obligations.ScratchMoves : Prop := ScratchLoads ∧ ScratchStores

/-- R198, R204, R205, R206: ATOM and MRED on the scratchpad act one thread after another in ascending order; ATOM leaves in each
thread what it found, MRED writes no register. -/
def Sys2Proof.Claims.ScratchAtomics : Prop :=
  ∀ (r : OpRow) (f : Fields) (s s1 : State) (c : Ctx), spaceOf f = .scratch → c.dist = false → c.ply.curDefs = [] → c.lookahead f = 0 →
    Prompt c → Tokened c →
    (∀ th ∈ c.active, (addr false f c th).toNat % nBytes f = 0 ∧ (addr false f c th).toNat + nBytes f ≤ c.la.hdr.scratch) →
    (∀ op ∈ atomOps, Issues (op.1.ins f) r f s c s1 →
      let run := rmwRun op.2 f.ty c.la.ftz (rmwAccs (op.2 == .cas) f c (scratchCells false f c)) (scratchIn c s)
      ∃ t, exec (op.1.ins f) s = .next t ∧ c.pcIn t = c.pc + Fields.size f ∧ SameS c s1 t ∧ SameMemory s t ∧
        VectorResult c s1 t (f.ty.bits == 64) f.d.toNat (fun th => filled f.ty (foundBy run.1 th)) ∧ ∀ b, scratchIn c t b = run.2 b) ∧
    (∀ op ∈ mredOps, Issues (op.1.ins f) r f s c s1 →
      let run := rmwRun op.2 f.ty c.la.ftz (rmwAccs false f c (scratchCells false f c)) (scratchIn c s)
      ∃ t, exec (op.1.ins f) s = .next t ∧ c.pcIn t = c.pc + Fields.size f ∧ SameS c s1 t ∧ SameV c s1 t ∧ SameMemory s t ∧
        ∀ b, scratchIn c t b = run.2 b)

/-- R193, R194, R197, R200: LD in `.g`, where every access translates to this package: each active thread receives the bytes at the
physical addresses of its pieces, and no byte of memory changes. -/
def Sys2Proof.Claims.GlobalLoads : Prop :=
  ∀ (r : OpRow) (f : Fields) (s s1 : State) (c : Ctx), Issues (.ld f) r f s c s1 → spaceOf f = .global → c.dist = false →
    c.ply.curDefs = [] → c.lookahead f = 0 → Prompt c → Performable ⟨.ld, .load, false⟩ f c s1 →
    ∃ t, exec (.ld f) s = .next t ∧ c.pcIn t = c.pc + Fields.size f ∧ SameS c s1 t ∧ SameMemory s t ∧ SameScratch c s t ∧
      VectorResult c s1 t (f.ty.bits == 64) f.d.toNat fun th => filled f.ty (valueAt s1.paByte (globalCells ⟨.ld, .load, false⟩ f c s1 th))

/-- R193, R197, R198, R200, R217: ST in `.g` leaves in every stored byte of memory the data of the highest thread that stores to it (a
hole of the map stores nothing and reads all ones); every byte outside the stored ones reads as before, in all of memory. -/
def Sys2Proof.Claims.GlobalStores : Prop :=
  ∀ (r : OpRow) (f : Fields) (s s1 : State) (c : Ctx), Issues (.st f) r f s c s1 → spaceOf f = .global → c.dist = false →
    c.ply.curDefs = [] → Prompt c → Performable ⟨.st, .store, false⟩ f c s1 →
    ∃ t, exec (.st f) s = .next t ∧ c.pcIn t = c.pc + Fields.size f ∧ SameV c s1 t ∧ SameS c s1 t ∧ SameScratch c s t ∧
      (∀ th ∈ c.active, ∀ x ∈ globalCells ⟨.st, .store, false⟩ f c s1 th,
        (∀ u ∈ c.active, th < u → ∀ y ∈ globalCells ⟨.st, .store, false⟩ f c s1 u, y.2 ≠ x.2) →
        t.paByte x.2 = if s1.present (offsetOf x.2) then byteOf (vecOf f c f.d th) x.1 else 0xFF) ∧
      (∀ a, (∀ th ∈ c.active, ∀ x ∈ globalCells ⟨.st, .store, false⟩ f c s1 th, x.2 ≠ a) → t.paByte a = s1.paByte a)

/-- R193, R194, R197, R198, R200: loads and stores in global memory. -/
def Obligations.GlobalMoves : Prop := GlobalLoads ∧ GlobalStores

/-- R198, R204 to R206: ATOM and MRED in `.g`, likewise one thread after another, on present memory of this package. -/
def Sys2Proof.Claims.GlobalAtomics : Prop :=
  ∀ (r : OpRow) (f : Fields) (s s1 : State) (c : Ctx), spaceOf f = .global → c.dist = false → c.ply.curDefs = [] → c.lookahead f = 0 →
    Prompt c →
    (∀ op ∈ atomOps, Issues (op.1.ins f) r f s c s1 → Performable op.1 f c s1 →
      (∀ th ∈ c.active, ∀ x ∈ globalCells op.1 f c s1 th, s1.present (offsetOf x.2) = true) →
      let run := rmwRun op.2 f.ty c.la.ftz (rmwAccs (op.2 == .cas) f c (globalCells op.1 f c s1)) s1.paByte
      ∃ t, exec (op.1.ins f) s = .next t ∧ c.pcIn t = c.pc + Fields.size f ∧ SameS c s1 t ∧ SameScratch c s t ∧
        VectorResult c s1 t (f.ty.bits == 64) f.d.toNat (fun th => filled f.ty (foundBy run.1 th)) ∧ ∀ a, t.paByte a = run.2 a) ∧
    (∀ op ∈ mredOps, Issues (op.1.ins f) r f s c s1 → Performable op.1 f c s1 →
      (∀ th ∈ c.active, ∀ x ∈ globalCells op.1 f c s1 th, s1.present (offsetOf x.2) = true) →
      let run := rmwRun op.2 f.ty c.la.ftz (rmwAccs false f c (globalCells op.1 f c s1)) s1.paByte
      ∃ t, exec (op.1.ins f) s = .next t ∧ c.pcIn t = c.pc + Fields.size f ∧ SameS c s1 t ∧ SameV c s1 t ∧ SameScratch c s t ∧
        ∀ a, t.paByte a = run.2 a)

/-- R198, R204 to R206: ATOM and MRED in the scratchpad and in global memory. -/
def Obligations.Atomics : Prop := ScratchAtomics ∧ GlobalAtomics

/-- Every memory instruction completes in every space, `.n` and `.p` among them, when its accesses can be performed here: they are
performed in ascending order of threads, and a load's values are written as its row says. With no access at all, as on a path without
an active thread, it completes with no effect (R196). -/
def Obligations.MemoryCompletes : Prop :=
  ∀ op ∈ memOps, ∀ (r : OpRow) (f : Fields) (s s1 : State) (c : Ctx), Issues (op.ins f) r f s c s1 → Prompt c →
    (c.accesses op.kind op.ldu f = [] → exec (op.ins f) s = .next (countIssue c (issueClass r f) (c.finish0 f s1))) ∧
    (c.accesses op.kind op.ldu f ≠ [] → Performable op f c s1 →
      let ps := (c.accesses op.kind op.ldu f).map (c.place s1 (spaceOf f) (nBytes f))
      let s2 := (c.fillAll ps s1).hotLines (stackOf c.sp) (c.touchedLines (spaceOf f) ps)
      let did := c.performAll (spaceOf f) (nBytes f) (accessOp op.kind.logOp f.ty c.la.ftz) 0 s2.tick false ps s2
      exec (op.ins f) s = .next (countIssue c (issueClass r f)
        (if op.kind.returns then c.finish f 0 (c.valueWrites f op.ldu did.1) (fun _ => 0) did.2 else c.finish0 f did.2)))

/-- R202: PREF admits only `.g`, whatever its level; it writes no register and no byte of memory, and changes no other state of its party
but the program counter, whatever its lookahead window. -/
def Obligations.Prefetch : Prop :=
  (∀ f : Fields, (Instr.pref f).fieldsOk = true → spaceOf f = .global) ∧
  ∀ (r : OpRow) (f : Fields) (s s1 : State) (c : Ctx), Issues (.pref f) r f s c s1 → c.ply.curDefs = [] → c.sk.dist.curDefs = [] →
    ∃ t, exec (.pref f) s = .next t ∧ c.pcIn t = c.pc + Fields.size f ∧ SameV c s1 t ∧ SameS c s1 t ∧ c.flagsIn t = c.flagsIn s1 ∧
      c.exmIn t = c.exmIn s1 ∧ SameMemory s t ∧ SameScratch c s t ∧ SameOutside s t

/-- R193, R195: an access beyond the skein's scratchpad: no thread accesses anything, and the lowest thread that fails is reported in a
precise SCRATCH_LIMIT trap at the instruction itself. -/
def Sys2Proof.Claims.ScratchLimitTrap : Prop :=
  ∀ op ∈ memOps, ∀ (r : OpRow) (f : Fields) (s s1 : State) (c : Ctx) (th : Nat), Issues (op.ins f) r f s c s1 → spaceOf f = .scratch →
    c.dist = false → op.ldu = false → Prompt c → (∀ u ∈ c.active, (addr (op.kind == .load || op.kind == .store) f c u).toNat % nBytes f = 0) →
    (c.active.find? fun u => decide (c.la.hdr.scratch < (addr (op.kind == .load || op.kind == .store) f c u).toNat + nBytes f)) = some th →
    exec (op.ins f) s =
      .next (takeTrap c { kind := .scratchLimit, elem := some th, addr := addr (op.kind == .load || op.kind == .store) f c th } c.pc s1)

/-- R195, R197, R204: a misaligned ATOM or MRED on the scratchpad, inside its range, is a precise ATOM_ALIGN trap of the lowest such
thread. -/
def Sys2Proof.Claims.AtomicAlignTrap : Prop :=
  ∀ op ∈ rmwOps, ∀ (r : OpRow) (f : Fields) (s s1 : State) (c : Ctx) (th : Nat), Issues (op.ins f) r f s c s1 → spaceOf f = .scratch →
    c.dist = false → Prompt c → (∀ u ∈ c.active, (addr false f c u).toNat + nBytes f ≤ c.la.hdr.scratch) →
    (c.active.find? fun u => decide ((addr false f c u).toNat % nBytes f ≠ 0)) = some th →
    exec (op.ins f) s = .next (takeTrap c { kind := .atomAlign, elem := some th, addr := addr false f c th } c.pc s1)

/-- R227 to R231, R343: what a memory instruction does that passes its checks and meets a page that does not translate, with room in the fault ring.
One that returns a value, or any of a handler's (R343), is held at itself with one LOAD or STORE record, and with nothing performed; where a walk meets
a malformed table it takes a precise TABLE_FAULT, with a TABLE record, whatever pages of other threads are missing (DESIGN CHOICE, log 86); no other
byte of memory, no register and no byte of the scratchpad has then changed. The record of a load names the lowest thread whose page is not being migrated, as that of a store does (DESIGN CHOICE, log 87). A store or a reduction outside a handler enters the side log and goes on, with a deferred
TABLE_FAULT pending where a walk met a malformed table. Without room in the ring for its records the party is held until there is, and has changed
nothing. -/
def Sys2Proof.Claims.PageFaults : Prop :=
  ∀ op ∈ memOps, ∀ (r : OpRow) (f : Fields) (s s1 : State) (c : Ctx), Issues (op.ins f) r f s c s1 → Prompt c → MeetsFault op f c s1 →
    c.ply.curDefs = [] → c.sk.dist.curDefs = [] →
    (op.kind.returns = true ∨ c.handler = true →
      (∀ th va x l, failing Tr.isTable (placedOf op f c s1) = [] → failing Tr.isReported (placedOf op f c s1) = (th, va, x) :: l →
        s1.ringFree ≠ 0 → RingHere s1 →
        ∃ t, exec (op.ins f) s = .next t ∧ RingAdded c s1 t (if op.kind.returns then 0 else 1) (BitVec.ofNat 64 va) 0 th ∧
          heldIn c t = some { path := c.idx, ins := some (op.ins f), pages := missingPages (placedOf op f c s1), woken := false } ∧
          OnlyRing s1 t ∧ c.pcIn t = c.pc ∧ SameV c s1 t ∧ SameS c s1 t ∧ SameScratch c s t) ∧
      (∀ th va pa l, failing Tr.isTable (placedOf op f c s1) = (th, va, .table pa) :: l → s1.ringFree ≠ 0 → RingHere s1 →
        (Unhandled c s1 → 2 ≤ s1.ringFree ∧ s1.ringReaches s1.fq s1.fqHead 2 = true) → (c.dist = false → AtBoundaries c) →
        ∃ s2, RingAdded c s1 s2 3 (BitVec.ofNat 64 va) (BitVec.ofNat 64 pa) th ∧ OnlyRing s1 s2 ∧ SameV c s1 s2 ∧ SameS c s1 s2 ∧
          SameScratch c s s2 ∧ exec (op.ins f) s =
          .next (takeTrap c { kind := .tableFault, elem := some th, addr := BitVec.ofNat 64 va } c.pc s2)) ∧
      (failing Tr.isTable (placedOf op f c s1) ≠ [] ∨ failing Tr.isReported (placedOf op f c s1) ≠ [] → s1.ringFree = 0 →
        Waits op f c s s1)) ∧
    (op.kind.returns = false → c.handler = false → s1.ringFree < recordsOf op f c s1 →
      Waits op f c s s1 ∧ ∀ t, exec (op.ins f) s = .next t → logIn c t = logIn c s1 ∧ pendIn c t = pendIn c s1) ∧
    (op.kind.returns = false → c.handler = false → 2 ≤ s1.ringFree →
      (∀ i < 2, s1.trained (offsetOf (ringBase s1.fq + 32 * ((s1.fqHead + i) % ringSize s1.fq))) = true) → c.strands.length ≤ 64 →
      ∃ t, exec (op.ins f) s = .next t ∧ c.pcIn t = c.pc + Fields.size f ∧ SameV c s1 t ∧ SameS c s1 t ∧ SameScratch c s t ∧
        logIn c t = c.logEntries s1.tick (spaceOf f) op.kind.logOp f.ty (placedOf op f c s1) ∧
        (∀ a, (∀ i < 2, ¬(ringBase s1.fq + 32 * ((s1.fqHead + i) % ringSize s1.fq) ≤ a ∧
          a < ringBase s1.fq + 32 * ((s1.fqHead + i) % ringSize s1.fq) + 32)) → t.paByte a = s1.paByte a) ∧
        pendIn c t = pendIn c s1 ++ (match failing Tr.isTable (placedOf op f c s1) with
          | [] => []
          | x :: _ => [{ kind := .tableFault, prec := .deferred, elem := some x.1, addr := BitVec.ofNat 64 x.2.1, strand := some c.first }]))

/-- R193, R195, R197, R204, R227 to R231, R343: the precise traps of a scratchpad access, and what an access does that meets an unmapped page or a malformed table. -/
def Obligations.MemoryTraps : Prop := ScratchLimitTrap ∧ AtomicAlignTrap ∧ PageFaults

namespace Sys2Proof.Claims

/-- EXPECT, ARRIVED and PHASE of the barrier object at an offset (R264). -/
def expectAt (g : Nat → Byte) (o : Nat) : Nat := valueAt g (rangeCells o 2)
def arrivedAt (g : Nat → Byte) (o : Nat) : Nat := valueAt g (rangeCells (o + 2) 2)
def phaseAt (g : Nat → Byte) (o : Nat) : Nat := valueAt g (rangeCells (o + 4) 4)

/-- An arrival with a count (R264): the flip, or the count; no other byte changes. -/
def Arrival (g h : Nat → Byte) (o n : Nat) : Prop :=
  (if expectAt g o ≤ arrivedAt g o + n then arrivedAt h o = 0 ∧ phaseAt h o = (phaseAt g o + 1) % 2 ^ 32
   else arrivedAt h o = arrivedAt g o + n ∧ phaseAt h o = phaseAt g o) ∧
  ∀ b, ¬(o + 2 ≤ b ∧ b < o + 8) → h b = g b

/-- A scalar result in every copy of the path, whatever the EXM bits, or in the D register (R320); every other register is as before. -/
def AllCopies (c : Ctx) (s t : State) (d : Nat) (x : Word) : Prop :=
  (∀ st ∈ c.strands, c.sIn t d st = x) ∧
  (∀ q st, st < 16 → (q ≠ d ∨ (c.dist = false ∧ st ∉ c.strands)) → c.sIn t q st = c.sIn s q st) ∧ ∀ q th, c.vIn t q th = c.vIn s q th

/-- What the party waits for, in a state, and that it stands at its instruction. -/
def waitIn (c : Ctx) (s : State) : Wait :=
  if c.dist then (c.distIn s).wait else ((c.ply? s).map fun p => (nth p.paths c.idx {}).wait).getD .none
def blockedIn (c : Ctx) (s : State) : Prop :=
  c.dist = false → ((c.ply? s).map fun p => (nth p.paths c.idx {}).st) = some .blocked

/-- The party blocks at its instruction for a reason. -/
def Blocks (c : Ctx) (t : State) (w : Wait) : Prop := c.pcIn t = c.pc ∧ waitIn c t = w ∧ blockedIn c t

/-- Nothing outstanding that could land as the instruction ends. -/
abbrev Settled (c : Ctx) : Prop := c.ply.curDefs = [] ∧ c.sk.dist.curDefs = []

/-- The operand of the path's lowest-numbered strand (R320). -/
def opA (f : Fields) (c : Ctx) : Word := c.rdScal (c.strands.headD 0) f.a.toNat
def opB (f : Fields) (c : Ctx) : Word := c.rdScal (c.strands.headD 0) f.b.toNat

/-- A barrier operand: a multiple of 32 with its object in the scratchpad (R322). -/
abbrev BarOperand (f : Fields) (c : Ctx) : Prop := (opA f c).toNat % 32 = 0 ∧ (opA f c).toNat + 32 ≤ c.la.hdr.scratch

/-- How many BARX counts: the strands of the path, or 1 (R322). -/
def barxCount (c : Ctx) : Nat := if c.dist then 1 else c.strands.length

/-- The party's skein, in a state. -/
def skeinIn (c : Ctx) (s : State) : Skein := (s.skein? c.sp c.slot).getD {}

/-- Word t of a FIFO entry (R331). -/
def fifoWord (e : BitVec 512) (t : Nat) : VWord := e.extractLsb' (32 * t) 32

/-- Link operand and strands of a FIFO instruction (R331). -/
abbrev LinkOperand (f : Fields) (c : Ctx) (both : Bool) : Prop :=
  (opB f c).toNat < (if isBase c.sp then 8 else 1) ∧ (both = true → 0 ∈ c.strands ∧ 1 ∈ c.strands)

/-- Registers of system cores alone, by number (R76, R147, R284, R326, R351, R391, and groups 0x06, 0x09 and 0x0A). -/
def coreNumbers : List Nat := [0x0200, 0x0201, 0x0400, 0x0401, 0x0402, 0x0403, 0x0510, 0x0600, 0x0601, 0x0602, 0x0603, 0x0604, 0x0605,
  0x0606, 0x0607, 0x0701, 0x0702, 0x0800, 0x0801, 0x0803, 0x0900, 0x0901, 0x0902, 0x0903, 0x0904, 0x0905, 0x0906, 0x0907, 0x0908,
  0x0A00, 0x0A01, 0x0A02, 0x0A03, 0x0A04, 0x0A05, 0x0A06, 0x0A07, 0x0A08]

/-- The trap registers (R345). -/
def trapNumbers : List Nat := [0x0500, 0x0501, 0x0502, 0x0504, 0x0506, 0x0507, 0x0508, 0x0509, 0x050A, 0x050B]

/-- A PRIVILEGE trap at check 8, with the word. -/
def privTrap (r : OpRow) (f : Fields) : TrapRec := { kind := .privilege, check := 8, addr := f.toWord r.opc r.fn }

/-- A system core can run an instruction now. -/
abbrev CoreReady (k : SysCore) : Prop := k.defs = [] ∧ k.wait = .none

/-- A general register of a core. -/
def gprOf (s : State) (n : Nat) (r : BitVec 8) : Word := sget (s.core n).gpr r.toNat

/-- Registers of the package that read back what was written, in these bits (R226, R369, R370). -/
def plainNumbers : List (Nat × Word) := [(0x0600, 0xFF), (0x0602, 0x00FFFFFFFFFFFFC0), (0x0A05, 0x80FFFFFFFFFFFFC0), (0x0A02, 0x80000000FFFF01FF)]

/-- The record reads of a LAUNCH: six 64-byte loads for each offer (R213). -/
def recordReads (f : Fields) (c : Ctx) (s : State) : List Placed := ((c.offerAddrs f).flatMap recordAccs).map (c.place s .global 64)

/-- The 384 bytes of a record as they are, 64 at a time where its address translates (R49, R213). -/
def recordBytes (c : Ctx) (s : State) (p : Nat × Word) : List Byte :=
  (List.range 6).flatMap fun k =>
    match (lookup s c.sp (c.laneOf p.1) c.la.asid c.la.root (p.2 + BitVec.ofNat 64 (64 * k)).toNat).place (p.2 + BitVec.ofNat 64 (64 * k)).toNat with
    | some (pa, _) => s.paBytes pa 64
    | none => []

/-- The trap registers of the party, in a state. -/
def trapIn (c : Ctx) (t : State) : TrapState := if c.dist then (c.distIn t).trap else ((c.ply? t).getD {}).trap

/-- A producer whose operands are legal: its barrier, FIFO or queue operands (R320). -/
def producerOk (i : Instr) (f : Fields) (c : Ctx) : Prop :=
  match i with
  | .bara _ => BarOperand f c ∧ 1 ≤ (opB f c).toNat ∧ (opB f c).toNat ≤ 65535
  | .barx _ => BarOperand f c
  | .vfpush _ => LinkOperand f c true
  | .dqpush _ => (opB f c).toNat < c.la.hdr.plies ∨ (opB f c).toNat = 0xFF
  | .tokenPut _ => c.la.det = true ∧ c.ply.token = true
  | _ => False

end Sys2Proof.Claims

open Sys2Proof.Claims

/-- R319: FENCE.q with no command of its skein in a named queue goes on, and otherwise waits for just those commands; FENCE.sys goes
on when every access of its issuer has been performed and acknowledged, and otherwise stays: in handler mode too, for what was logged before the trap
(DEDUCED, log 91). On a system core it retires. -/
def Obligations.Fences : Prop :=
  (∀ (r : OpRow) (f : Fields) (s s1 : State) (c : Ctx), Issues (.fenceQ f) r f s c s1 → (∀ l, c.waitNow ≠ .commands l) →
    let named := (s1.spindle c.sp).named c.la c.sk (f.m.toNat % 16) (f.m.getLsbD 4)
    (named = [] → Settled c → ∃ t, exec (.fenceQ f) s = .next t ∧ c.pcIn t = c.pc + 8 ∧ SameV c s1 t ∧ SameS c s1 t ∧ SameMemory s t) ∧
    (named ≠ [] → ∃ t, exec (.fenceQ f) s = .next t ∧ c.pcIn t = c.pc ∧ waitIn c t = .commands named ∧ SameV c s1 t ∧ SameS c s1 t)) ∧
  (∀ (r : OpRow) (f : Fields) (s s1 : State) (c : Ctx), Issues (.fenceSys f) r f s c s1 →
    (c.unacknowledged s1 = false → Settled c →
      ∃ t, exec (.fenceSys f) s = .next t ∧ c.pcIn t = c.pc + 8 ∧ SameV c s1 t ∧ SameS c s1 t ∧ SameMemory s t) ∧
    (c.unacknowledged s1 = true → exec (.fenceSys f) s = .next (c.again s1))) ∧
  (∀ (f : Fields) (s : State) (n : Nat), s.cur = .core n →
    ∃ t, exec (.fenceSys f) s = .next t ∧ (t.core n).retired = (s.core n).retired + 1 ∧ (t.core n).gpr = (s.core n).gpr ∧ SameMemory s t)

/-- R264, R322, R323: BARA arrives with its count, and D takes the phase before the arrival. -/
def Sys2Proof.Claims.BarrierArrive : Prop :=
  ∀ (r : OpRow) (f : Fields) (s s1 : State) (c : Ctx), Issues (.bara f) r f s c s1 → Settled c → BarOperand f c →
    1 ≤ (opB f c).toNat → (opB f c).toNat ≤ 65535 → c.accessPending s1 = false →
    ∃ t, exec (.bara f) s = .next t ∧ c.pcIn t = c.pc + 8 ∧ SameMemory s t ∧
      AllCopies c s1 t f.d.toNat (BitVec.ofNat 64 (phaseAt (scratchIn c s) (opA f c).toNat)) ∧
      Arrival (scratchIn c s) (scratchIn c t) (opA f c).toNat (opB f c).toNat

/-- R322, R323: BARX arrives with the strands of its path, or 1; it goes on with the new phase when its own arrival flips it, and
otherwise blocks on the old one. -/
def Sys2Proof.Claims.BarrierExchange : Prop :=
  ∀ (r : OpRow) (f : Fields) (s s1 : State) (c : Ctx), Issues (.barx f) r f s c s1 → Settled c → BarOperand f c →
    c.accessPending s1 = false →
    let g := scratchIn c s
    let o := (opA f c).toNat
    ∃ t, exec (.barx f) s = .next t ∧ SameMemory s t ∧ Arrival g (scratchIn c t) o (barxCount c) ∧
      (if expectAt g o ≤ arrivedAt g o + barxCount c then
        c.pcIn t = c.pc + 8 ∧ AllCopies c s1 t f.d.toNat (BitVec.ofNat 64 ((phaseAt g o + 1) % 2 ^ 32))
       else Blocks c t (.barx f o (BitVec.ofNat 32 (phaseAt g o))) ∧ SameV c s1 t ∧ SameS c s1 t)

/-- R323: BARW goes on when the phase is another than its operand, with the phase in D, and otherwise blocks. -/
def Sys2Proof.Claims.BarrierWait : Prop :=
  ∀ (r : OpRow) (f : Fields) (s s1 : State) (c : Ctx), Issues (.barw f) r f s c s1 → Settled c → BarOperand f c →
    let o := (opA f c).toNat
    ∃ t, exec (.barw f) s = .next t ∧ SameMemory s t ∧ SameScratch c s t ∧
      (if phaseAt (scratchIn c s) o ≠ (opB f c).toNat % 2 ^ 32 then
        c.pcIn t = c.pc + 8 ∧ AllCopies c s1 t f.d.toNat (BitVec.ofNat 64 (phaseAt (scratchIn c s) o))
       else Blocks c t (.barw f o ((opB f c).setWidth 32)) ∧ SameV c s1 t ∧ SameS c s1 t)

/-- R320: a producer with an access of its issuer outstanding blocks at its instruction, and has done nothing yet; in handler mode too, for what was
logged before the trap (DEDUCED, log 91). -/
def Sys2Proof.Claims.ProducersWait : Prop :=
  ∀ ins ∈ [Instr.bara, Instr.barx, Instr.vfpush, Instr.dqpush, Instr.tokenPut], ∀ (r : OpRow) (f : Fields) (s s1 : State) (c : Ctx),
    Issues (ins f) r f s c s1 → Settled c → producerOk (ins f) f c → c.accessPending s1 = true →
    ∃ t, exec (ins f) s = .next t ∧ Blocks c t .again ∧ SameV c s1 t ∧ SameS c s1 t ∧ SameMemory s t ∧ SameScratch c s t ∧
      (skeinIn c t).dq = c.sk.dq ∧ (∀ j, t.fifo j = s1.fifo j) ∧ (t.launch c.la.acc).tokenAt = (s1.launch c.la.acc).tokenAt

/-- R320, R322, R323: a barrier operand outside its limits, or a count of BARA outside 1 to 65,535, raises SYNC_ARG, precisely and with
no element, and nothing is performed. -/
def Sys2Proof.Claims.BarrierArgumentTrap : Prop :=
  ∀ (r : OpRow) (f : Fields) (s s1 : State) (c : Ctx),
    (∀ ins ∈ [Instr.bara, Instr.barw, Instr.barx], Issues (ins f) r f s c s1 → ¬BarOperand f c →
      exec (ins f) s = .next (takeTrap c { kind := .syncArg } c.pc s1)) ∧
    (Issues (.bara f) r f s c s1 → (opB f c).toNat = 0 ∨ 65535 < (opB f c).toNat →
      exec (.bara f) s = .next (takeTrap c { kind := .syncArg } c.pc s1))

/-- R264, R320, R322, R323: BARA, BARX and BARW. -/
def Obligations.SkeinBarriers : Prop := BarrierArrive ∧ BarrierExchange ∧ BarrierWait ∧ BarrierArgumentTrap ∧ ProducersWait

/-- R325: TBAR with a tag that the region may use and that is enabled arrives at the tag's counter, writes the generation before the arrival to D at
that moment, and the distaff waits on that generation; the arrival that reaches EXPECT starts the next generation. -/
def Sys2Proof.Claims.TreeBarrier : Prop :=
  ∀ (r : OpRow) (f : Fields) (s s1 : State) (c : Ctx), Issues (.tbar f) r f s c s1 → c.dist = true → (opA f c).toNat < 8 →
    (effOwn 1 Rcb.tags 0 (s1.rcbChain c.la.lrec.region.toNat)).testBit (opA f c).toNat = true → (s1.tag (opA f c).toNat).en = true →
    c.accessPending s1 = false →
    let g := s1.tag (opA f c).toNat
    ∃ t, exec (.tbar f) s = .next t ∧ Blocks c t (.tbar f (opA f c).toNat g.gen) ∧ (Settled c → AllCopies c s1 t f.d.toNat (g.gen.setWidth 64)) ∧
      (t.tag (opA f c).toNat).expect = g.expect ∧ (t.tag (opA f c).toNat).en = true ∧
      (if g.expect ≤ g.arrived + 1 then (t.tag (opA f c).toNat).arrived = 0 ∧ (t.tag (opA f c).toNat).gen = g.gen + 1
       else (t.tag (opA f c).toNat).arrived = g.arrived + 1 ∧ (t.tag (opA f c).toNat).gen = g.gen) ∧
      ∀ k, k ≠ (opA f c).toNat → t.tag k = s1.tag k

/-- R327: DQPUSH appends its value for the addressed plies that have not exited, drops it when there is none, and waits while 64
entries are held. -/
def Sys2Proof.Claims.DecisionPush : Prop :=
  ∀ (r : OpRow) (f : Fields) (s s1 : State) (c : Ctx), Issues (.dqpush f) r f s c s1 → c.dist = true → c.accessPending s1 = false →
    (opB f c).toNat < c.la.hdr.plies ∨ (opB f c).toNat = 0xFF →
    let all := if (opB f c).toNat = 0xFF then List.range c.la.hdr.plies else [(opB f c).toNat]
    let live := all.filter fun p => !(c.sk.ply p).gone c.w
    (live = [] → ∃ t, exec (.dqpush f) s = .next t ∧ c.pcIn t = c.pc + 8 ∧ (skeinIn c t).dq = c.sk.dq) ∧
    (live ≠ [] → c.sk.dq.length < 64 →
      ∃ t, exec (.dqpush f) s = .next t ∧ c.pcIn t = c.pc + 8 ∧ (skeinIn c t).dq = c.sk.dq ++ [{ val := opA f c, dests := live }]) ∧
    (live ≠ [] → 64 ≤ c.sk.dq.length →
      ∃ t, exec (.dqpush f) s = .next t ∧ c.pcIn t = c.pc ∧ waitIn c t = .credit ∧ (skeinIn c t).dq = c.sk.dq)

/-- R328: DQPOP takes the oldest entry deliverable to its ply, which then is deliverable to it no more; without one it blocks, or raises
DQ_DRAINED when the distaff has exited. -/
def Sys2Proof.Claims.DecisionPop : Prop :=
  ∀ (r : OpRow) (f : Fields) (s s1 : State) (c : Ctx), Issues (.dqpop f) r f s c s1 → c.dist = false → Settled c →
    (∀ e ∈ c.ply.paths, ∀ g n, e.wait ≠ .dqpop g n) →
    (∀ pre e post, c.sk.dq = pre ++ e :: post → (∀ x ∈ pre, c.plyNo ∉ x.dests) → c.plyNo ∈ e.dests →
      ∃ t, exec (.dqpop f) s = .next t ∧ c.pcIn t = c.pc + 8 ∧ AllCopies c s1 t f.d.toNat e.val ∧
        (skeinIn c t).dq = pre ++ (if ∀ q ∈ e.dests, q = c.plyNo then post
          else { val := e.val, dests := e.dests.filter fun q => q != c.plyNo } :: post)) ∧
    ((∀ e ∈ c.sk.dq, c.plyNo ∉ e.dests) → c.sk.dist.exited = false →
      ∃ t n, exec (.dqpop f) s = .next t ∧ Blocks c t (.dqpop f n) ∧ (skeinIn c t).dq = c.sk.dq) ∧
    ((∀ e ∈ c.sk.dq, c.plyNo ∉ e.dests) → c.sk.dist.exited = true →
      exec (.dqpop f) s = .next (takeTrap c { kind := .dqDrained } c.pc s1))

/-- R329: EVPOP takes the oldest record; on an empty queue it writes all ones at once when no record is still to come, or in the form
that never waits, and otherwise waits. -/
def Sys2Proof.Claims.EventPop : Prop :=
  ∀ (r : OpRow) (f : Fields) (s s1 : State) (c : Ctx), Issues (.evpop f) r f s c s1 → c.dist = true → Settled c →
    (∀ x l, c.sk.evq = x :: l → c.la.lrec.copyCount ≤ c.sk.statNext →
      ∃ t, exec (.evpop f) s = .next t ∧ c.pcIn t = c.pc + 8 ∧ AllCopies c s1 t f.d.toNat x ∧ (skeinIn c t).evq = l) ∧
    (c.sk.evq = [] → c.sk.evHeld = 0 ∨ f.m.getLsbD 0 = true →
      ∃ t, exec (.evpop f) s = .next t ∧ c.pcIn t = c.pc + 8 ∧ AllCopies c s1 t f.d.toNat ones64 ∧ (skeinIn c t).evq = []) ∧
    (c.sk.evq = [] → 0 < c.sk.evHeld → f.m.getLsbD 0 = false → ∃ t, exec (.evpop f) s = .next t ∧ Blocks c t (.evpop f))

/-- R327 to R329: the decision queue and the event queue. -/
def Obligations.SkeinQueues : Prop := DecisionPush ∧ DecisionPop ∧ EventPop

/-- R330, R331: VFPUSH appends the entry of threads 0 to 15, whatever their EXM bits, and blocks while the outgoing FIFO is full; VFPOP
removes the oldest entry into the active threads below 16, and blocks while the incoming FIFO is empty; VFCNT counts. A path without strands 0 and 1,
or a link that is not there, raises SYNC_ARG in each of them. -/
def Obligations.VerticalFifos : Prop :=
  (∀ (r : OpRow) (f : Fields) (s s1 : State) (c : Ctx), Issues (.vfpush f) r f s c s1 → c.dist = false → Settled c →
    LinkOperand f c true → c.accessPending s1 = false →
    let k := outFifo c.sp (opB f c).toNat
    ((s1.fifo k).length < 16 → ∃ t e, exec (.vfpush f) s = .next t ∧ c.pcIn t = c.pc + 8 ∧ SameV c s1 t ∧ SameS c s1 t ∧
      t.fifo k = s1.fifo k ++ [e] ∧ (∀ j, j ≠ k → t.fifo j = s1.fifo j) ∧ ∀ th < 16, fifoWord e th = c.ply.rdV f.a.toNat th) ∧
    (16 ≤ (s1.fifo k).length → ∃ t, exec (.vfpush f) s = .next t ∧ Blocks c t (.vfpush f) ∧ ∀ j, t.fifo j = s1.fifo j)) ∧
  (∀ (r : OpRow) (f : Fields) (s s1 : State) (c : Ctx), Issues (.vfpop f) r f s c s1 → c.dist = false → Settled c → LinkOperand f c true →
    let k := inFifo c.sp (opB f c).toNat
    (∀ e l, s1.fifo k = e :: l → ∃ t, exec (.vfpop f) s = .next t ∧ c.pcIn t = c.pc + 8 ∧ SameS c s1 t ∧ t.fifo k = l ∧
      (∀ j, j ≠ k → t.fifo j = s1.fifo j) ∧ (∀ th ∈ c.active, th < 16 → c.vIn t f.d.toNat th = fifoWord e th) ∧
      ∀ q th, th < 128 → (q ≠ f.d.toNat ∨ th ∉ c.active ∨ 16 ≤ th) → c.vIn t q th = c.vIn s1 q th) ∧
    (s1.fifo k = [] → ∃ t, exec (.vfpop f) s = .next t ∧ Blocks c t (.vfpop f) ∧ ∀ j, t.fifo j = s1.fifo j)) ∧
  (∀ (r : OpRow) (f : Fields) (s s1 : State) (c : Ctx), Issues (.vfcnt f) r f s c s1 → c.dist = false → Settled c → LinkOperand f c true →
    ∃ t, exec (.vfcnt f) s = .next t ∧ c.pcIn t = c.pc + 8 ∧ AllCopies c s1 t f.d.toNat (BitVec.ofNat 64
      (if f.m.getLsbD 0 then (s1.fifo (inFifo c.sp (opB f c).toNat)).length else 16 - (s1.fifo (outFifo c.sp (opB f c).toNat)).length))) ∧
  (∀ ins ∈ [Instr.vfpush, Instr.vfpop, Instr.vfcnt], ∀ (r : OpRow) (f : Fields) (s s1 : State) (c : Ctx), Issues (ins f) r f s c s1 →
    ¬LinkOperand f c true → exec (ins f) s = .next (takeTrap c { kind := .syncArg } c.pc s1))

/-- R332, R333: TOKEN.get goes on when the ply holds the token or the token has reached it, and blocks otherwise; TOKEN.put passes it on when the ply
holds it. In a launch that is not deterministic, neither has an effect. That a ply holds the token only once it has executed a TOKEN.get is DEDUCED
(log 27). -/
def Obligations.CommitToken : Prop :=
  (∀ (r : OpRow) (f : Fields) (s s1 : State) (c : Ctx), Issues (.tokenGet f) r f s c s1 → c.dist = false →
    (c.la.det = false ∨ c.ply.token = true → exec (.tokenGet f) s = .next (countIssue c (issueClass r f) (c.finish0 f s1))) ∧
    (c.la.det = true → c.ply.token = false → c.ply.turn = true → ∃ t p, exec (.tokenGet f) s = .next t ∧ c.pcIn t = c.pc + 8 ∧ c.ply? t = some p ∧
      p.token = true) ∧
    (c.la.det = true → c.ply.token = false → c.ply.turn = false → Settled c →
      ∃ t, exec (.tokenGet f) s = .next t ∧ Blocks c t .token ∧ SameV c s1 t ∧ SameS c s1 t)) ∧
  (∀ (r : OpRow) (f : Fields) (s s1 : State) (c : Ctx), Issues (.tokenPut f) r f s c s1 → c.dist = false →
    (c.la.det = false ∨ c.ply.token = false → exec (.tokenPut f) s = .next (countIssue c (issueClass r f) (c.finish0 f s1))) ∧
    (c.la.det = true → c.ply.token = true → c.accessPending s1 = false →
      ∃ t p, exec (.tokenPut f) s = .next t ∧ c.pcIn t = c.pc + 8 ∧ c.ply? t = some p ∧ p.token = false ∧ p.turn = false ∧
        (t.launch c.la.acc).tokenAt = (s1.launch c.la.acc).tokenAt + 1))

/-- R6, R46: cap.units and cap.stepping are read with CSRR, the same on every core and in every ply and distaff; a CSRW of either and
every step leaves both as they are; and their reserved bits read 0 in the part after reset. -/
def Obligations.CapabilityRegisters : Prop :=
  (∀ (f : Fields) (s : State) (n : Nat), s.cur = .core n → CoreReady (s.core n) → f.d.toNat < 0x20 →
    (f.csr = 0x0000 → ∃ t, exec (.csrr f) s = .next t ∧ gprOf t n f.d = s.units) ∧
    (f.csr = 0x0001 → ∃ t, exec (.csrr f) s = .next t ∧ gprOf t n f.d = s.stepping)) ∧
  (∀ (r : OpRow) (f : Fields) (s s1 : State) (c : Ctx), Issues (.csrr f) r f s c s1 → Settled c →
    (f.csr = 0x0000 → ∃ t, exec (.csrr f) s = .next t ∧ c.pcIn t = c.pc + 8 ∧ AllCopies c s1 t f.d.toNat s.units) ∧
    (f.csr = 0x0001 → ∃ t, exec (.csrr f) s = .next t ∧ c.pcIn t = c.pc + 8 ∧ AllCopies c s1 t f.d.toNat s.stepping)) ∧
  (∀ s t, step s = .next t → SamePart s t) ∧
  (∀ (f : Fields) (s t : State), exec (.csrw f) s = .next t → SamePart s t) ∧
  (let u := State.reset.units
   bitsAt u 48 16 = 0 ∧ (bitsAt u 32 16 = 256 ∨ bitsAt u 32 16 = 128) ∧ bitsAt u 21 11 = 0 ∧ 4 ≤ bitsAt u 16 5 ∧ bitsAt u 16 5 ≤ 16 ∧
   (bitsAt u 12 4 = 4 ∨ bitsAt u 12 4 = 2) ∧ bitsAt u 6 6 = 0 ∧ bitsAt u 5 1 = 1 ∧ bitsAt u 0 1 = 0 ∧ bitsAt State.reset.stepping 16 48 = 0)

/-- R210, R212, R326, R345: an access that a register's map forbids raises PRIVILEGE at check 8, precisely and at the instruction: a register of
system cores from a ply or distaff, a trap register outside handler mode, a write of ctl.tcscale or ctl.rcbsync, and a write of
sync.detwin from a ply. -/
def Obligations.RegisterPrivilege : Prop :=
  ∀ (r : OpRow) (f : Fields) (s s1 : State) (c : Ctx),
    (f.csr ∈ coreNumbers ∨ (f.csr ∈ trapNumbers ∧ c.handler = false) → Issues (.csrr f) r f s c s1 →
      exec (.csrr f) s = .next (takeTrap c (privTrap r f) c.pc s1)) ∧
    (f.csr ∈ coreNumbers ∨ (f.csr ∈ trapNumbers ∧ c.handler = false) ∨ f.csr = 0x0100 ∨ f.csr = 0x0101 ∨ (f.csr = 0x0802 ∧ c.dist = false) →
      Issues (.csrw f) r f s c s1 → exec (.csrw f) s = .next (takeTrap c (privTrap r f) c.pc s1))

/-- R334, and R140, R345 for the others: what CSRW writes in a ply or distaff: fp.flags from a ply, sync.detwin from the distaff (a
malformed window is ignored), and of a handler its scratch registers, trap.epc with bits [2:0] zero, and trap.rsel in its fields. A read-only
register ignores the write: cap.units, cap.stepping and clu.band, and of a handler trap.cause and trap.addr (R6, R288, R345). -/
def Sys2Proof.Claims.RegisterWrite : Prop :=
  ∀ (r : OpRow) (f : Fields) (s s1 : State) (c : Ctx), Issues (.csrw f) r f s c s1 → c.accessPending s1 = false → Settled c →
    (f.csr = 0x0300 → c.dist = false → c.strands ≠ [] →
      ∃ t, exec (.csrw f) s = .next t ∧ c.pcIn t = c.pc + 8 ∧ c.flagsIn t = (opA f c).setWidth 5 ∧ SameV c s1 t ∧ SameS c s1 t) ∧
    (f.csr = 0x0802 → c.dist = true → ∃ t, exec (.csrw f) s = .next t ∧ c.pcIn t = c.pc + 8 ∧ (skeinIn c t).detwin =
      (if bitsAt (opA f c) 0 6 = 0 ∨ (12 ≤ bitsAt (opA f c) 0 6 ∧ bitsAt (opA f c) 0 6 ≤ 55 ∧
          bitsAt (opA f c) 12 44 * 4096 % 2 ^ bitsAt (opA f c) 0 6 = 0)
       then opA f c &&& 0x00FFFFFFFFFFF03F else c.sk.detwin)) ∧
    (∀ p ∈ [(0x0508, TrapState.k0), (0x0509, TrapState.k1), (0x050A, TrapState.k2), (0x050B, TrapState.k3)], f.csr = p.1 → c.handler = true →
      ∃ t, exec (.csrw f) s = .next t ∧ c.pcIn t = c.pc + 8 ∧ p.2 (trapIn c t) = opA f c ∧ (trapIn c t).cause = (trapIn c s1).cause ∧
        (trapIn c t).epc = (trapIn c s1).epc) ∧
    (f.csr = 0x0501 → c.handler = true → ∃ t, exec (.csrw f) s = .next t ∧ c.pcIn t = c.pc + 8 ∧ (trapIn c t).epc = opA f c &&& ~~~7 ∧
      (trapIn c t).cause = (trapIn c s1).cause) ∧
    (f.csr = 0x0506 → c.handler = true → ∃ t, exec (.csrw f) s = .next t ∧ c.pcIn t = c.pc + 8 ∧ (trapIn c t).rsel = opA f c &&& 0xFFF7F ∧
      (trapIn c t).cause = (trapIn c s1).cause) ∧
    (f.csr ∈ [0x0000, 0x0001, 0x0700] ∨ (c.handler = true ∧ f.csr ∈ [0x0500, 0x0502]) →
      ∃ t, exec (.csrw f) s = .next t ∧ c.pcIn t = c.pc + 8 ∧ SameV c s1 t ∧ SameS c s1 t ∧ SameMemory s t ∧ trapIn c t = trapIn c s1 ∧
        c.flagsIn t = c.flagsIn s1)

/-- STATE of a ply of the skein (R346): 3 where the skein has none of that number or it has exited, 2 in its handler, 1 once it has stopped, each
path at a boundary. -/
def stateOf (c : Ctx) (q : Nat) : Nat :=
  let p := c.sk.ply q
  if c.la.hdr.plies ≤ q then 3
  else if p.trap.mode then 2
  else if (List.range (c.w / 8)).all fun st => p.exited.getLsbD st then 3
  else if p.stopped && p.paths.all fun e => match e.wait with | .remote .. => false | _ => true then 1
  else 0

/-- What trap.rdat reads of the ply that trap.ply selects, by the classes of trap.rsel (R347): of a handler's own ply what is set aside. -/
def RdatReads (c : Ctx) (tr : TrapState) (x : Word) : Prop :=
  let q := tr.sel.toNat
  let own := c.dist = false ∧ q = c.plyNo
  let p := c.sk.ply q
  let num := bitsAt tr.rsel 8 8
  let thr := bitsAt tr.rsel 0 7
  let e := nth (if own then p.trap.paths else p.paths) num {}
  if c.la.hdr.plies ≤ q ∨ (¬own ∧ stateOf c q ≠ 1 ∧ stateOf c q ≠ 3) then x = 0
  else match bitsAt tr.rsel 16 4 with
  | 0 => thr < c.w → num < c.la.hdr.vregs → x = (p.rdV num thr).setWidth 64
  | 1 => thr < c.w → num < 0x80 → x = p.rdS num (thr / 8)
  | 2 => thr < c.w → ∀ i < 64, x.getLsbD i = (decide (i < 8) && (if own then p.trap.exm else p.exm).getLsbD (8 * (thr / 8) + i))
  | 3 => x = BitVec.ofNat 64 (e.valid.toNat * 2 ^ 63 + e.st.code * 2 ^ 61 + e.strands.toNat * 2 ^ 45)
  | 4 => x = (if own then p.trap.flags else p.flags).setWidth 64 ||| if c.la.ftz then 0x100 else 0
  | 5 => x = e.pc &&& 0x00FFFFFFFFFFFFF8
  | _ => x = 0

/-- R140, R210, R334, R345 to R347: what CSRR reads in a ply or distaff of fp.flags (FTZ in bit 8), sync.detwin and the trap registers, among them
trap.ply, with the state of the selected ply, and trap.rdat. -/
def Sys2Proof.Claims.RegisterRead : Prop :=
  ∀ (r : OpRow) (f : Fields) (s s1 : State) (c : Ctx), Issues (.csrr f) r f s c s1 → Settled c →
    let tr := if c.dist then c.sk.dist.trap else c.ply.trap
    let reads := fun (x : Word) => ∃ t, exec (.csrr f) s = .next t ∧ c.pcIn t = c.pc + 8 ∧ AllCopies c s1 t f.d.toNat x
    (f.csr = 0x0300 → c.dist = false → reads (c.ply.flags.setWidth 64 ||| if c.la.ftz then 0x100 else 0)) ∧ (f.csr = 0x0802 → reads c.sk.detwin) ∧
    (c.handler = true → (f.csr = 0x0500 → reads tr.cause) ∧ (f.csr = 0x0501 → reads tr.epc) ∧ (f.csr = 0x0502 → reads tr.addr) ∧
      (f.csr = 0x0506 → reads tr.rsel) ∧ (f.csr = 0x0508 → reads tr.k0) ∧ (f.csr = 0x0509 → reads tr.k1) ∧ (f.csr = 0x050A → reads tr.k2) ∧
      (f.csr = 0x050B → reads tr.k3) ∧ (f.csr = 0x0504 → reads (BitVec.ofNat 64 (stateOf c tr.sel.toNat * 2 ^ 8 + tr.sel.toNat))) ∧
      (f.csr = 0x0507 → ∃ x, RdatReads c tr x ∧ reads x))

/-- R210, R226, R367, R370: on a system core, a CSRW of a plain register of the package followed by a CSRR of it gives back the bits the
register has; both complete, and the cores' other general registers are as before. That acct.samp takes a SPINDLE that is not present is the model's
choice (DESIGN CHOICE, log 65). -/
def Sys2Proof.Claims.CoreRegisterReadBack : Prop :=
  ∀ p ∈ plainNumbers, ∀ (f g : Fields) (s : State) (n : Nat), s.cur = .core n → CoreReady (s.core n) → f.csr = p.1 → g.csr = p.1 →
    f.a.toNat < 0x20 → g.d.toNat < 0x20 →
    ∃ t u, exec (.csrw f) s = .next t ∧ exec (.csrr g) t = .next u ∧ gprOf u n g.d = gprOf s n f.a &&& p.2 ∧
      (∀ q, q ≠ g.d → gprOf u n q = gprOf s n q) ∧ SameMemory s u

/-- R76, R376, R382: what a system core reads of the status and power registers, field by field: sched.frame, pwr.frame and pwr.die of the selected
frame, and pwr.ready. -/
def Sys2Proof.Claims.CoreStatusRead : Prop :=
  ∀ (f : Fields) (s : State) (n : Nat), s.cur = .core n → CoreReady (s.core n) → f.d.toNat < 0x20 →
    let reads := fun (x : Nat) => ∃ t, exec (.csrr f) s = .next t ∧ gprOf t n f.d = BitVec.ofNat 64 x ∧ (∀ q, q ≠ f.d → gprOf t n q = gprOf s n q)
    let b := fun (x : Bool) => if x then 1 else 0
    let fr := s.frame s.frsel.toNat
    let pf := s.frame s.pwrFrame.toNat
    let pd := s.die (s.pwrFrame.toNat / 4)
    let resident := ((List.range 16).map fun j => (s.spindle (16 * s.frsel.toNat + j)).residents.length).sum
    (f.csr = 0x0201 → reads (min fr.queue.length (2 ^ 32 - 1) * 2 ^ 32 + resident * 2 ^ 16 + fr.plimit * 2 ^ 8 + fr.swcap)) ∧
    (f.csr = 0x0902 → reads (b pf.force * 2 ^ 15 + pf.lvl * 2 ^ 10 + b pf.unch * 2 ^ 9 + pf.req * 2 ^ 6 + pf.st)) ∧
    (f.csr = 0x0903 → reads (pd.temp.toNat * 2 ^ 32 + pd.lastwin * 2 ^ 12 + pd.pool)) ∧
    (f.csr = 0x0904 → reads (b (s.hasHost && s.hostUp) * 2 ^ 42 + s.ethUp.toNat * 2 ^ 40 + s.memReady.toNat % 2 ^ s.nDevices * 2 ^ 8 +
      s.cdie.toNat % 2 ^ s.nStacks * 2 ^ 4 + s.bdie.toNat % 2 ^ s.nStacks))

/-- R76, R140, R210, R212, R226, R334, R345, R367, R370, R376, R382: what CSRW writes and CSRR reads. -/
def Obligations.RegisterAccess : Prop := RegisterWrite ∧ RegisterRead ∧ CoreRegisterReadBack ∧ CoreStatusRead

/-- R326: a write of sync.tbcfg sets EN and EXPECT of the selected tag, a written 0 stored as 1; while ARRIVED is nonzero, a write that
changes either is ignored. -/
def Sys2Proof.Claims.TreeConfiguration : Prop :=
  ∀ (f : Fields) (s : State) (n : Nat), s.cur = .core n → CoreReady (s.core n) → f.csr = 0x0801 → f.a.toNat < 0x20 → s.hasTree = true →
    let v := gprOf s n f.a
    let g := s.tag s.tbsel.toNat
    let en := v.getLsbD 63
    let expect := if bitsAt v 0 16 = 0 then 1 else bitsAt v 0 16
    ∃ t, exec (.csrw f) s = .next t ∧ (∀ k, k ≠ s.tbsel.toNat → t.tag k = s.tag k) ∧ (t.tag s.tbsel.toNat).arrived = g.arrived ∧
      (t.tag s.tbsel.toNat).gen = g.gen ∧
      (if g.arrived ≠ 0 ∧ (en ≠ g.en ∨ expect ≠ g.expect) then (t.tag s.tbsel.toNat).en = g.en ∧ (t.tag s.tbsel.toNat).expect = g.expect
       else (t.tag s.tbsel.toNat).en = en ∧ (t.tag s.tbsel.toNat).expect = expect)

/-- R325, R326: TBAR, and the configuration of its tags. -/
def Obligations.TreeBarriers : Prop := TreeBarrier ∧ TreeConfiguration

/-- R81, R213, R214: LAUNCH in a ply or distaff, with every record aligned, mapped, readable and within reach, and its issuer's earlier accesses
performed, makes one offer per active thread, path or distaff, each with the 384 bytes of its record as they are now, and waits for its results. On a
path without an active thread it goes on and offers nothing. -/
def Sys2Proof.Claims.LaunchOffers : Prop :=
  (∀ (r : OpRow) (f : Fields) (s s1 : State) (c : Ctx), Issues (.launch f) r f s c s1 → c.dist = false → c.active = [] →
    exec (.launch f) s = .next (countIssue c (issueClass r f) (c.finish0 f s1))) ∧
  ∀ (r : OpRow) (f : Fields) (s s1 : State) (c : Ctx), Issues (.launch f) r f s c s1 → Prompt c → c.waitNow = .none →
    (c.dist = false → c.active ≠ []) → (∀ p ∈ c.offerAddrs f, p.2.toNat % 64 = 0) → c.accessPending s1 = false →
    c.accTraps s1 .global .read 64 false (recordReads f c s1) = none → anyFault (recordReads f c s1) = false →
    anyUntrained s1 (recordReads f c s1) = false → anyUnlinked s1 (recordReads f c s1) = false → anyRetrains s1 (recordReads f c s1) = false →
    ∃ t os, exec (.launch f) s = .next t ∧ t.offers = s1.offers ++ os ∧ waitIn c t = .launch f [] true ∧ c.pcIn t = c.pc ∧
      os.map (fun o => (o.who, o.tid, o.addr, o.nw)) = (c.offerAddrs f).map (fun p => (c.who, p.1, p.2, f.m.getLsbD 0)) ∧
      os.map (fun o => o.bytes) = (c.offerAddrs f).map (recordBytes c s1) ∧ (∀ o ∈ os, o.base = none ∧ o.region = some c.la.lrec.region) ∧
      SameMemory s t

/-- R213, R341: a record address that is not a multiple of 64 is a REC_ALIGN trap of the first such offer, with its thread as the element in the
vector form of a ply and with none elsewhere, and no offer is made; a system core's
LAUNCH of an aligned record makes one offer with its bytes, whatever its U (DESIGN CHOICE, log 82), once its log, where it records, has a place for
the result; until then it is held (R372; DEDUCED, log 47). -/
def Sys2Proof.Claims.LaunchRecords : Prop :=
  (∀ (r : OpRow) (f : Fields) (s s1 : State) (c : Ctx) (p : Nat × Word), Issues (.launch f) r f s c s1 → Prompt c → c.waitNow = .none →
    (c.dist = false → c.active ≠ []) → ((c.offerAddrs f).find? fun p => decide (p.2.toNat % 64 ≠ 0)) = some p →
    exec (.launch f) s = .next (takeTrap c { kind := .recAlign, elem := if c.dist || f.u then none else some p.1 } c.pc s1)) ∧
  (∀ (f : Fields) (s : State) (n : Nat), s.cur = .core n → CoreReady (s.core n) → f.a.toNat < 0x20 → f.d.toNat < 0x20 →
    (gprOf s n f.a).toNat % 64 = 0 → s.readsAll (gprOf s n f.a).toNat 384 = true →
    ((s.core n).recording = false ∨ s.logFits n 1 0 = true →
      ∃ t, exec (.launch f) s = .next t ∧ SameMemory s t ∧ t.offers = s.offers ++ [
        { who := .core n, tid := 0, addr := gprOf s n f.a, nw := f.m.getLsbD 0, base := none, region := none, asid := 0,
          bytes := s.paBytes (gprOf s n f.a).toNat 384 }]) ∧
    ((s.core n).recording = true → s.logFits n 1 0 = false → exec (.launch f) s = .next (s.logHolds n)))

/-- R81, R213, R214: LAUNCH in a ply, in a distaff and on a system core. -/
def Obligations.LaunchIssue : Prop := LaunchOffers ∧ LaunchRecords

namespace Sys2Proof.Claims

/-- The copy instructions of plies and distaffs, by kind (R243). -/
def copyOps : List ((Fields → Instr) × CopyKind) := [(.cpy, .cpy), (.cpyc, .cpyc), (.cpyg, .cpyg), (.cpys, .cpys), (.cpyk, .cpyk)]

/-- The matrix commands, by kind (R261). -/
def matOps : List ((Fields → Instr) × MatKind) := [(.tld, .tld), (.tst, .tst), (.tzero, .tzero), (.mma, .mma), (.mmas, .mmas),
  (.mmax, .mmax), (.tcvt, .tcvt)]

/-- The operand of the path's lowest-numbered strand in a field. -/
def op1 (v : BitVec 8) (c : Ctx) : Word := c.rdScal (c.strands.headD 0) v.toNat

/-- The operand values of a copy command are legal (R244). -/
abbrev CopyOperands (k : CopyKind) (f : Fields) (c : Ctx) : Prop :=
  let dir := f.m.toNat / 4 % 4
  (op1 f.a c).toNat % 64 = 0 ∧ (op1 f.c c).toNat % 32 = 0 ∧ (op1 f.c c).toNat < 32 * c.la.hdr.barCount ∧ (op1 f.c c).toNat < 65536 ∧
  (k = .cpyk → (op1 f.b c).toNat % 16 = 0 ∧ (op1 f.b c).toNat < 4096) ∧
  (k ≠ .cpyk → dir % 2 = 1 → (op1 f.b c).toNat % 16 = 0 ∧ (op1 f.b c).toNat < c.la.hdr.scratch) ∧
  (k = .cpyg → (op1 f.d c).toNat < c.la.hdr.scratch) ∧ (k = .cpys → (op1 f.d c).toNat % 4 = 0 ∧ (op1 f.d c).toNat < c.la.hdr.scratch)

/-- The issuer makes a command: distaff code, or a path with an active thread (R244, R261, R293). -/
abbrev MakesCommand (c : Ctx) : Prop := c.dist = true ∨ c.active ≠ []

/-- The matrix operation word is legal (R265): a barrier object of the skein, and zero in every field that the command does not use. -/
abbrev OpWordLegal (c : Ctx) (k : MatKind) (f : Fields) (w : Word) : Prop :=
  bitsAt w 60 4 = 0 ∧ bitsAt w 0 16 % 32 = 0 ∧ bitsAt w 0 16 < 32 * c.la.hdr.barCount ∧
  ((k = .mmas ∧ f.ty = .e2m1) ∨ (k = .mmax ∧ f.m.getLsbD 4 = false) ∨ bitsAt w 16 16 = 0) ∧
  (if k = .mmas then (if c.dist then bitsAt w 32 8 = 0 ∧ bitsAt w 40 20 % 4 = 0 else bitsAt w 40 20 = 0) else bitsAt w 32 28 = 0)

/-- The tiles of a product are configured and named as R267 says, with one number of rows in D and A. -/
abbrev ProductTiles (f : Fields) (d a b : Tile) : Prop :=
  d.rows ≠ 0 ∧ a.rows ≠ 0 ∧ b.rows ≠ 0 ∧ f.d ≠ f.a ∧ f.d ≠ f.b ∧ (d.rows = 64 ∨ d.rows = 128) ∧
  (d.bpr = 64 ∨ d.bpr = 128 ∨ d.bpr = 192 ∨ d.bpr = 256) ∧ a.rows = d.rows ∧ b.rows = d.bpr / 4

/-- What R267, R273 and R276 to R278 ask of the tiles of a matrix command. -/
abbrev TilesLegal (k : MatKind) (f : Fields) (off scratch : Nat) (d a b : Tile) : Prop :=
  match k with
  | .tld | .tst => d.rows ≠ 0 ∧ off % 16 = 0 ∧ off + d.rows * d.bpr ≤ scratch
  | .tzero => True
  | .tcvt => d.rows ≠ 0 ∧ a.rows ≠ 0 ∧ f.d ≠ f.a ∧ d.rows = a.rows ∧ a.bpr * 8 / f.srcTy.bits = d.bpr * 8 / f.ty.bits
  | .mma => ProductTiles f d a b ∧ a.bpr = b.bpr ∧ a.bpr * 8 / f.ty.bits % 32 = 0
  | .mmas => ProductTiles f d a b ∧ b.bpr = 2 * a.bpr ∧ a.bpr * 8 / f.ty.bits % 32 = 0
  | .mmax => ProductTiles f d a b ∧ a.bpr = b.bpr ∧ (f.m.getLsbD 4 = true → a.bpr % 64 = 0 ∧ 64 ≤ a.bpr)

/-- The areas of a command's block scales end in scale memory (R272). -/
abbrev ScalesFit (k : MatKind) (f : Fields) (w : Word) (d a : Tile) : Prop :=
  (k = .mmas ∧ f.ty = .e2m1) ∨ (k = .mmax ∧ f.m.getLsbD 4 = false) →
    scaleEnd (bitsAt w 16 8) d.rows (logicalK k f a.bpr) ≤ 4096 ∧ scaleEnd (bitsAt w 24 8) (d.bpr / 4) (logicalK k f a.bpr) ≤ 4096

/-- Some pair of an index word of MMAS is not ascending (R271). -/
abbrev NotAscending (x : BitVec 32) : Prop := ∃ g < 8, x.toNat / 2 ^ (4 * g + 2) % 4 ≤ x.toNat / 2 ^ (4 * g) % 4

/-- The vector register pair of the destination field waits for an operation in every active thread. -/
def AwaitsV (c : Ctx) (t : State) (d id : Nat) : Prop :=
  ∀ th ∈ c.active, ∃ p, c.ply? t = some p ∧ ∃ e ∈ p.curDefs, e.strand = th / 8 ∧ e.op = id ∧ ∀ h < 2, ∃ x, RegWrite.v (d + h) th x ∈ e.writes

/-- Registers of the destination field wait for an operation: some outstanding write of each strand of the party names it. -/
def AwaitsD (c : Ctx) (t : State) (d id : Nat) : Prop :=
  if c.dist then ∃ e ∈ (c.distIn t).curDefs, e.op = id ∧ (2 * d + 1) ∈ e.keys
  else ∀ st ∈ c.strands, ∃ p, c.ply? t = some p ∧ ∃ e ∈ p.curDefs, e.strand = st ∧ e.op = id ∧ (2 * d + 1) ∈ e.keys

/-- The window word is legal (R285, R287): its reserved bits are zero, its arrays lie in the skein's, its lines in the storage lines. -/
abbrev WindowLegal (xarrays : Nat) (w : Word) : Prop :=
  bitsAt w 21 11 = 0 ∧ bitsAt w 53 1 = 0 ∧ 1 ≤ bitsAt w 10 11 ∧ bitsAt w 0 10 + bitsAt w 10 11 ≤ xarrays ∧ 1 ≤ bitsAt w 42 11 ∧
  bitsAt w 32 10 + bitsAt w 42 11 ≤ 896

/-- An XQ instruction, the operands it needs, the command it makes, whether it writes D, and
whether it posts a record. -/
structure XqOp where
  ins : Fields → Instr
  ok : Fields → Ctx → Prop
  cmd : Fields → Ctx → State → Nat → XqCmd
  writes : Bool
  ev : Fields → Bool

/-- Every line code of a gate is a scratch line, or a data line that the window makes a storage line (R287, R300). -/
abbrev CodesLegal (win : Word) (l : List Nat) : Prop := ∀ x ∈ l, x < 0x40 ∨ bitsAt win 54 10 + (x - 0x40) ≤ 895

/-- The inputs a gate step names. -/
def gateCodes (f : Fields) : List Nat := [f.a.toNat, f.b.toNat, f.c.toNat].take (gateInputs f.gate)

/-- The operation word names a barrier object of the skein, and nothing else (R265, R295). -/
abbrev BarWord (c : Ctx) (w : Word) : Prop := w.toNat < 65536 ∧ w.toNat % 32 = 0 ∧ w.toNat < 32 * c.la.hdr.barCount

/-- The XQ instructions (R293, R300, R301, R305, R307 to R309). -/
def xqOps : List XqOp := [
  ⟨.xg, fun f c => c.sk.win ≠ 0 ∧ CodesLegal c.sk.win (gateCodes f), fun f c s id => { c.xcmd s id .step f with form := 0 }, false, fun _ => false⟩,
  ⟨.xgP, fun f c => c.sk.win ≠ 0 ∧ CodesLegal c.sk.win (gateCodes f), fun f c s id => { c.xcmd s id .step f with form := 1 }, false, fun _ => false⟩,
  ⟨.xinit, fun _ c => c.sk.win ≠ 0, fun f c s id => { c.xcmd s id .step f with form := 2 }, false, fun _ => false⟩,
  ⟨.xfill, fun f c => c.sk.win ≠ 0 ∧ CodesLegal c.sk.win [f.d.toNat] ∧ BarWord c (op1 f.c c) ∧ (c.pattern f).isSome = true,
    fun f c s id => { c.xcmd s id .fill f with opw := op1 f.c c, data := (c.pattern f).getD [] }, false, fun f => f.m.getLsbD 5⟩,
  ⟨.xration, fun f c => 2 ≤ (op1 f.a c).toNat ∧ (op1 f.a c).toNat ≤ 65535, fun f c s id => { c.xcmd s id .ration f with a := op1 f.a c }, false, fun _ => false⟩,
  ⟨.xrun, fun f c => (op1 f.a c).toNat < c.la.hdr.schedCount ∧ 1 ≤ (op1 f.b c).toNat ∧ (op1 f.b c).toNat ≤ 65535 ∧ c.sk.win ≠ 0 ∧
      BarWord c (op1 f.c c) ∧ ∀ w ∈ nth c.la.scheds (op1 f.a c).toNat [], CodesLegal c.sk.win (stepCodes w),
    fun f c s id => { c.xcmd s id .run f with opw := op1 f.c c, a := op1 f.a c, b := op1 f.b c }, false, fun f => f.m.getLsbD 5⟩,
  ⟨.xstat, fun f c => bitsAt (op1 f.a c) 18 45 = 0 ∧
      (if (op1 f.a c).getLsbD 63 then bitsAt (op1 f.a c) 8 10 = 0 else bitsAt (op1 f.a c) 8 10 < c.la.hdr.xarrays),
    fun f c s id => { c.xcmd s id .stat f with a := op1 f.a c }, true, fun _ => false⟩,
  ⟨.xmap, fun f c => bitsAt (op1 f.a c) 8 56 = 0, fun f c s id => { c.xcmd s id .map f with a := op1 f.a c }, true, fun _ => false⟩,
  ⟨.xmapWr, fun f c => bitsAt (op1 f.a c) 7 57 = 0 ∧ 896 ≤ (op1 f.b c).toNat ∧ (op1 f.b c).toNat ≤ 1023,
    fun f c s id => { c.xcmd s id .mapWr f with a := op1 f.a c, b := op1 f.b c }, false, fun _ => false⟩]

/-- A crossbar address is legal (R302): reserved bits zero, its array held, and for a write a storage line and cell word. -/
abbrev CrossAddress (c : Ctx) (sc write : Bool) (a : Word) : Prop :=
  bitsAt a 30 34 = 0 ∧ bitsAt a 0 6 = 0 ∧ bitsAt a 20 10 < c.la.hdr.xarrays ∧ (sc = true → bitsAt a 16 4 = 0) ∧
  (write = true → bitsAt a 10 10 ≤ 895 ∧ bitsAt a 6 4 ≤ 13)

end Sys2Proof.Claims

open Sys2Proof.Claims

/-- R240, R243, R244: a copy instruction whose operands are legal, once its ply's or distaff's side log has drained, puts one command into its queue, behind those that are there, and D
waits for its status word; nothing moves yet, and no register changes. -/
def Sys2Proof.Claims.CopyIssue : Prop :=
  ∀ op ∈ copyOps, ∀ (r : OpRow) (f : Fields) (s s1 : State) (c : Ctx), Issues (op.1 f) r f s c s1 → Settled c → MakesCommand c →
    CopyOperands op.2 f c → c.logBusy = false → (s1.spindle c.sp).cqFull (f.m.toNat % 4) = false →
    (f.m.getLsbD 5 = true → c.sk.evFull = false) → 0 < s1.opSeq →
    ∃ t cmd, exec (op.1 f) s = .next t ∧ c.pcIn t = c.pc + 8 ∧ SameV c s1 t ∧ SameS c s1 t ∧ SameMemory s t ∧ SameScratch c s t ∧
      (t.spindle c.sp).cq = modNth (s1.spindle c.sp).cq (f.m.toNat % 4) (fun l => l ++ [cmd]) ∧
      cmd.kind = op.2 ∧ cmd.uid = c.sk.uid ∧ cmd.started = false ∧ cmd.shape = op1 f.a c ∧ cmd.bar = (op1 f.c c).toNat ∧
      cmd.dir = f.m.toNat / 4 % 4 ∧ cmd.ev = f.m.getLsbD 5 ∧ cmd.sks = f.m.getLsbD 4 ∧
      cmd.loc = (if op.2 ≠ .cpyk ∧ cmd.dir % 2 = 0 then f.b.toNat else (op1 f.b c).toNat) ∧
      (op.2 = .cpyc ∨ op.2 = .cpyg ∨ op.2 = .cpys → cmd.dval = op1 f.d c) ∧ AwaitsD c t f.d.toNat cmd.id ∧
      (skeinIn c t).evHeld = c.sk.evHeld + (if f.m.getLsbD 5 then 1 else 0)

/-- R244: an illegal operand value of a copy raises COPY_ARG, precisely and with no element, and no command is made; a path without an
active thread makes none and checks nothing. -/
def Sys2Proof.Claims.CopyArgumentTrap : Prop :=
  ∀ op ∈ copyOps, ∀ (r : OpRow) (f : Fields) (s s1 : State) (c : Ctx), Issues (op.1 f) r f s c s1 →
    (MakesCommand c → ¬CopyOperands op.2 f c → exec (op.1 f) s = .next (takeTrap c { kind := .copyArg } c.pc s1)) ∧
    (¬MakesCommand c → exec (op.1 f) s = .next (countIssue c (issueClass r f) (c.finish0 f s1)))

/-- R240, R243, R244: the copy instructions. -/
def Obligations.CopyCommands : Prop := CopyIssue ∧ CopyArgumentTrap

/-- R252: CPY.mig on a system core puts one command into the core's own queue, with its physical addresses and size; anywhere else it
does not get past its checks. That addresses are taken modulo 2^52, that their alignment is not checked and that a size code above 4 moves nothing is
DEDUCED (log 40), and what a core does around the command, its registers and its retired count among them, is the model's (DESIGN CHOICE, log 5). -/
def Obligations.MigrateCommand : Prop :=
  (∀ (f : Fields) (s : State) (n : Nat), s.cur = .core n → CoreReady (s.core n) → f.d.toNat < 0x20 → f.a.toNat < 0x20 → f.b.toNat < 0x20 →
    f.c.toNat < 0x20 → ((nth (s.core n).cq (f.m.toNat % 4) []).filter fun k => !k.started).length < 16 →
    ∃ t cmd, exec (.cpyMig f) s = .next t ∧ SameMemory s t ∧ (t.core n).retired = (s.core n).retired + 1 ∧ (t.core n).gpr = (s.core n).gpr ∧
      (t.core n).cq = modNth (s.core n).cq (f.m.toNat % 4) (fun l => l ++ [cmd]) ∧ cmd.started = false ∧
      cmd.mig = some ((gprOf s n f.a).toNat % 2 ^ 52, (gprOf s n f.b).toNat % 2 ^ 52, migSize (gprOf s n f.c).toNat)) ∧
  (∀ (f : Fields) (s : State) (c : Ctx), s.ctx? s.cur = some c → ∃ tr, exec (.cpyMig f) s = .next (takeTrap c tr c.pc s))

/-- R253, R254: STAGE in ply code adds 1 to the stage count of each strand of its path, whatever its EXM bits, and writes the new count
into that strand's copy; in distaff code it writes the stage counter, which keeps its last value once every strand has exited, and changes none. -/
def Sys2Proof.Claims.StageCount : Prop :=
  ∀ (r : OpRow) (f : Fields) (s s1 : State) (c : Ctx), Issues (.stage f) r f s c s1 → Settled c → c.lookahead f = 0 →
    (c.dist = true → ∃ t, exec (.stage f) s = .next t ∧ c.pcIn t = c.pc + 8 ∧
      AllCopies c s1 t f.d.toNat (BitVec.ofNat 64 c.sk.stageG) ∧ (skeinIn c t).plies = c.sk.plies) ∧
    (c.dist = false → ∃ t p, exec (.stage f) s = .next t ∧ c.pcIn t = c.pc + 8 ∧ c.ply? t = some p ∧ SameV c s1 t ∧
      (∀ st < c.ply.stage.length, nth p.stage st 0 = nth c.ply.stage st 0 + (if st ∈ c.strands then 1 else 0)) ∧
      (∀ st ∈ c.strands, c.sIn t f.d.toNat st = BitVec.ofNat 64 (nth c.ply.stage st 0 + 1)) ∧
      ∀ q st, st < 16 → (q ≠ f.d.toNat ∨ st ∉ c.strands) → c.sIn t q st = c.sIn s1 q st)

/-- R255: QFENCE places a join mark in each named queue, on every command of the skein ahead of it in every named queue, released entries
that wait for a place among them; with WAIT the
issuer also waits for them, and goes on at once when there is none. -/
def Sys2Proof.Claims.QueueFence : Prop :=
  ∀ (r : OpRow) (f : Fields) (s s1 : State) (c : Ctx), Issues (.qfence f) r f s c s1 → (∀ l, c.waitNow ≠ .commands l) →
    let ahead := (s1.spindle c.sp).named c.la c.sk (f.m.toNat % 16) false
    ∃ t, exec (.qfence f) s = .next t ∧
      (∀ q < 4, nth (skeinIn c t).marks q [] = if (f.m.toNat % 16).testBit q then (s1.spindle c.sp).pendingOf (nth c.sk.marks q []) ++ ahead
        else nth c.sk.marks q []) ∧
      (if f.m.getLsbD 4 = true ∧ ahead ≠ [] then c.pcIn t = c.pc ∧ waitIn c t = .commands ahead else c.pcIn t = c.pc + 8)

/-- R260: TCFG sets the shape of its tile at once, clears no byte, and changes no other tile; it waits while a command that names the tile is
outstanding, and an illegal shape raises MATRIX_ARG. -/
def Sys2Proof.Claims.TileConfigure : Prop :=
  ∀ (r : OpRow) (f : Fields) (s s1 : State) (c : Ctx), Issues (.tcfg f) r f s c s1 →
    let rows := (opA f c).toNat
    let bpr := (opB f c).toNat
    let legal := 1 ≤ rows ∧ rows ≤ 128 ∧ bpr % 16 = 0 ∧ 16 ≤ bpr ∧ bpr ≤ 256 ∧ rows * bpr ≤ 16384
    (legal → (s1.spindle c.sp).tileBusy c.la c.sk f.d.toNat = false →
      ∃ t, exec (.tcfg f) s = .next t ∧ c.pcIn t = c.pc + 8 ∧ (skeinIn c t).tiles = modNth c.sk.tiles f.d.toNat fun x => { x with rows := rows, bpr := bpr }) ∧
    (legal → (s1.spindle c.sp).tileBusy c.la c.sk f.d.toNat = true → exec (.tcfg f) s = .next (c.again s1)) ∧
    (¬legal → exec (.tcfg f) s = .next (takeTrap c { kind := .matrixArg } c.pc s1))

/-- R261, R265 to R267, R271, R272, R276 to R278: a matrix command whose operands are legal captures the shapes of its tiles and enters MQ behind
those that are there, whatever earlier access of its issuer is outstanding; no tile, register or byte of memory changes as it issues. -/
def Sys2Proof.Claims.MatrixIssue : Prop :=
  ∀ op ∈ matOps, ∀ (r : OpRow) (f : Fields) (s s1 : State) (c : Ctx), Issues (op.1 f) r f s c s1 → Settled c → MakesCommand c →
    c.opWordOk op.2 f (op1 f.c c) = true →
    (if op.2.product then productShapesOk op.2 f (op1 f.c c) (c.tile f.d) (c.tile f.a) (c.tile f.b)
      else moveShapesOk op.2 f (op1 f.a c).toNat c.la.hdr.scratch (c.tile f.d) (c.tile f.a)) = true →
    let n := if op.2 = .mmas then indexCount f (c.tile f.d) (c.tile f.a) else 0
    let idx := (List.range n).map (c.indexWord f (op1 f.c c))
    (op.2 = .mmas → c.indexOk f (op1 f.c c) n = true) → (∀ x ∈ idx, pairsOk x = true) →
    (s1.spindle c.sp).mqFull = false → (matEv op.2 f = true → c.sk.evFull = false) →
    ∃ t cmd, exec (op.1 f) s = .next t ∧ c.pcIn t = c.pc + 8 ∧ SameV c s1 t ∧ SameS c s1 t ∧ SameMemory s t ∧ SameScratch c s t ∧
      (skeinIn c t).tiles = c.sk.tiles ∧ (t.spindle c.sp).mq = (s1.spindle c.sp).mq ++ [cmd] ∧ cmd.kind = op.2 ∧ cmd.uid = c.sk.uid ∧
      cmd.started = false ∧ cmd.done = 0 ∧ cmd.f = f ∧ cmd.opw = op1 f.c c ∧ cmd.idx = idx ∧
      (cmd.rowsD, cmd.bprD, cmd.rowsA, cmd.bprA, cmd.rowsB, cmd.bprB) =
        ((c.tile f.d).rows, (c.tile f.d).bpr, (c.tile f.a).rows, (c.tile f.a).bpr, (c.tile f.b).rows, (c.tile f.b).bpr)

/-- R261, R265, R267, R271 to R273, R276 to R278: an operation word that is not legal, tiles or scale areas that are not, and index words that lie where the issuer may
not read them raise MATRIX_ARG with no element, and no command is made; an index word of MMAS with a pair that is not ascending raises it too, with the
lowest thread that supplies such a word in ply code, and no element in distaff code; a path without an active thread makes none and checks nothing. -/
def Sys2Proof.Claims.MatrixArgumentTrap : Prop :=
  ∀ op ∈ matOps, ∀ (r : OpRow) (f : Fields) (s s1 : State) (c : Ctx), Issues (op.1 f) r f s c s1 →
    (MakesCommand c → ¬OpWordLegal c op.2 f (op1 f.c c) ∨
        ¬TilesLegal op.2 f (op1 f.a c).toNat c.la.hdr.scratch (c.tile f.d) (c.tile f.a) (c.tile f.b) ∨
        ¬ScalesFit op.2 f (op1 f.c c) (c.tile f.d) (c.tile f.a) ∨
        (op.2 = .mmas ∧ c.indexOk f (op1 f.c c) (indexCount f (c.tile f.d) (c.tile f.a)) = false) →
      exec (op.1 f) s = .next (takeTrap c { kind := .matrixArg } c.pc s1)) ∧
    (op.2 = .mmas → MakesCommand c → Settled c → OpWordLegal c op.2 f (op1 f.c c) →
      TilesLegal op.2 f (op1 f.a c).toNat c.la.hdr.scratch (c.tile f.d) (c.tile f.a) (c.tile f.b) →
      ScalesFit op.2 f (op1 f.c c) (c.tile f.d) (c.tile f.a) → c.indexOk f (op1 f.c c) (indexCount f (c.tile f.d) (c.tile f.a)) = true →
      let bad := fun q => q < indexCount f (c.tile f.d) (c.tile f.a) ∧ NotAscending (c.indexWord f (op1 f.c c) q)
      let sel := f.m.toNat % 16
      let by_ := fun q => 8 * sel + q % (c.w - 8 * sel)
      (c.dist = true → (∃ q, bad q) → exec (op.1 f) s = .next (takeTrap c { kind := .matrixArg } c.pc s1)) ∧
      (c.dist = false → ∀ q, bad q → (∀ q', bad q' → by_ q ≤ by_ q') →
        exec (op.1 f) s = .next (takeTrap c { kind := .matrixArg, elem := some (by_ q) } c.pc s1))) ∧
    (¬MakesCommand c → exec (op.1 f) s = .next (countIssue c (issueClass r f) (c.finish0 f s1)))

/-- R260, R261, R265 to R267, R271 to R273, R276 to R278: TCFG and the matrix commands. -/
def Obligations.MatrixCommands : Prop := TileConfigure ∧ MatrixIssue ∧ MatrixArgumentTrap

/-- R279: SRFENCE, after its issuer's earlier accesses, empties the spindle's record cache. That it waits in a handler for its path's earlier
side-log entries too is DEDUCED (log 91). -/
def Sys2Proof.Claims.RecordFence : Prop :=
  ∀ (r : OpRow) (f : Fields) (s s1 : State) (c : Ctx), Issues (.srfence f) r f s c s1 → c.accessPending s1 = false →
    ∃ t, exec (.srfence f) s = .next t ∧ c.pcIn t = c.pc + 8 ∧ (t.spindle c.sp).recs = [] ∧ (t.spindle c.sp).cq = (s1.spindle c.sp).cq ∧
      SameMemory s t

/-- R253 to R255, R279: STAGE, QFENCE and SRFENCE. -/
def Obligations.CopyStaging : Prop := StageCount ∧ QueueFence ∧ RecordFence

/-- R306: XWIN A sets the skein's window word to S[A] at issue; an illegal word raises XBAR_ARG and leaves the window unchanged; commands
issued earlier keep the window they captured. On a path without an active thread nothing is checked and nothing changes (R293). -/
def Obligations.SetWindow : Prop :=
  ∀ (r : OpRow) (f : Fields) (s s1 : State) (c : Ctx), Issues (.xwin f) r f s c s1 →
   (¬MakesCommand c → exec (.xwin f) s = .next (countIssue c (issueClass r f) (c.finish0 f s1))) ∧
   (MakesCommand c → s1.skein? c.sp c.slot = some c.sk →
    (WindowLegal c.la.hdr.xarrays (opA f c) → ∃ t, exec (.xwin f) s = .next t ∧ c.pcIn t = c.pc + 8 ∧ (skeinIn c t).win = opA f c ∧
      (t.spindle c.sp).xq = (s1.spindle c.sp).xq) ∧
    (¬WindowLegal c.la.hdr.xarrays (opA f c) → ∃ t, exec (.xwin f) s = .next t ∧ t = takeTrap c { kind := .xbarArg } c.pc s1 ∧
      (skeinIn c t).win = c.sk.win ∧ ∀ k ∈ (t.spindle c.sp).xq, k ∈ (s1.spindle c.sp).xq))

/-- R293, R295, R300, R301, R305, R307 to R309: a crossbar command whose operands are legal enters XQ behind those that are there, with the
window captured at issue, whatever earlier access of its issuer is outstanding; where it returns a value, D waits for it. No cell, count or register
changes as it issues. That XFILL needs a window is DEDUCED (log 50). -/
def Sys2Proof.Claims.CrossbarIssue : Prop :=
  ∀ op ∈ xqOps, ∀ (r : OpRow) (f : Fields) (s s1 : State) (c : Ctx), Issues (op.ins f) r f s c s1 → Settled c → MakesCommand c → op.ok f c →
    (s1.spindle c.sp).xqFull = false → (op.ev f = true → c.sk.evFull = false) → 0 < s1.opSeq →
    ∃ t id, exec (op.ins f) s = .next t ∧ c.pcIn t = c.pc + 8 ∧ SameV c s1 t ∧ SameS c s1 t ∧ SameMemory s t ∧
      (t.spindle c.sp).xq = (s1.spindle c.sp).xq ++ [op.cmd f c s1 id] ∧ (op.cmd f c s1 id).win = c.sk.win ∧
      (t.spindle c.sp).cells = (s1.spindle c.sp).cells ∧ (t.spindle c.sp).life = (s1.spindle c.sp).life ∧
      (op.writes = true → AwaitsD c t f.d.toNat id)

/-- R293: an operand of a crossbar command outside its entry's limits raises XBAR_ARG, precisely and with no element, and no command is
made; a path without an active thread issues nothing and checks nothing. That XFILL without a window is such an operand is DEDUCED (log 50). -/
def Sys2Proof.Claims.CrossbarArgumentTrap : Prop :=
  ∀ op ∈ xqOps, ∀ (r : OpRow) (f : Fields) (s s1 : State) (c : Ctx), Issues (op.ins f) r f s c s1 →
    (MakesCommand c → ¬op.ok f c → exec (op.ins f) s = .next (takeTrap c { kind := .xbarArg } c.pc s1)) ∧
    (¬MakesCommand c → exec (op.ins f) s = .next (countIssue c (issueClass r f) (c.finish0 f s1)))

/-- R293, R295, R300, R301, R305, R307 to R309: the crossbar commands; that XFILL needs a window is DEDUCED (log 50). -/
def Obligations.CrossbarCommands : Prop := CrossbarIssue ∧ CrossbarArgumentTrap

/-- R293, R294, R302 to R304: XRD and XWR with legal addresses are held for the next step boundary, XRD.q enters XQ; the destination of a read,
in a ply the register pair of every active thread, waits, and what a write will store is as of its issue. The lowest thread whose address is not
legal is reported in XBAR_ARG, which for XRD.q is the model's (DESIGN CHOICE, log 99); a path without an active thread only goes on. -/
def Obligations.CrossbarAccess : Prop :=
  (∀ (r : OpRow) (f : Fields) (s s1 : State) (c : Ctx), Issues (.xrd f) r f s c s1 → Settled c → MakesCommand c → 0 < s1.opSeq →
    (∀ p ∈ c.xaddrs false f, CrossAddress c (f.m.getLsbD 5) false p.2) →
    ∃ t h, exec (.xrd f) s = .next t ∧ c.pcIn t = c.pc + 8 ∧ SameV c s1 t ∧ SameS c s1 t ∧ (t.spindle c.sp).xheld = (s1.spindle c.sp).xheld ++ [h] ∧
      h.write = false ∧ h.accs = (c.xaddrs false f).map (fun p => (p.1, p.2, 0)) ∧ (if c.dist then AwaitsD c t f.d.toNat h.id else AwaitsV c t f.d.toNat h.id)) ∧
  (∀ (r : OpRow) (f : Fields) (s s1 : State) (c : Ctx), Issues (.xrdQ f) r f s c s1 → Settled c → MakesCommand c → 0 < s1.opSeq →
    (∀ p ∈ c.xaddrs true f, CrossAddress c (f.m.getLsbD 5) false p.2) → (s1.spindle c.sp).xqFull = false →
    ∃ t k, exec (.xrdQ f) s = .next t ∧ c.pcIn t = c.pc + 8 ∧ SameV c s1 t ∧ SameS c s1 t ∧ (t.spindle c.sp).xq = (s1.spindle c.sp).xq ++ [k] ∧
      k.kind = .rdq ∧ k.accs = c.xaddrs true f ∧ (if c.dist then AwaitsD c t f.d.toNat k.id else AwaitsV c t f.d.toNat k.id)) ∧
  (∀ (r : OpRow) (f : Fields) (s s1 : State) (c : Ctx), Issues (.xwr f) r f s c s1 → Settled c → MakesCommand c →
    (∀ p ∈ c.xaddrs false f, CrossAddress c false true p.2) →
    ∃ t h, exec (.xwr f) s = .next t ∧ c.pcIn t = c.pc + 8 ∧ SameV c s1 t ∧ SameS c s1 t ∧ (t.spindle c.sp).xheld = (s1.spindle c.sp).xheld ++ [h] ∧
      h.write = true ∧ h.accs = (c.xaddrs false f).map fun p =>
        (p.1, p.2, if c.dist then op1 f.d c else (c.ply.rdV (f.d.toNat + 1) p.1 ++ c.ply.rdV f.d.toNat p.1 : BitVec 64))) ∧
  (∀ x ∈ [(Instr.xrd, false, false), (Instr.xrdQ, true, false), (Instr.xwr, false, true)], ∀ (r : OpRow) (f : Fields) (s s1 : State) (c : Ctx)
    (p : Nat × Word), Issues (x.1 f) r f s c s1 →
    (c.xaddrs x.2.1 f).find? (fun p => decide (¬CrossAddress c (!x.2.2 && f.m.getLsbD 5) x.2.2 p.2)) = some p →
    exec (x.1 f) s = .next (takeTrap c { kind := .xbarArg, elem := if c.dist then none else some p.1 } c.pc s1)) ∧
  (∀ ins ∈ [Instr.xrd, Instr.xrdQ, Instr.xwr], ∀ (r : OpRow) (f : Fields) (s s1 : State) (c : Ctx), Issues (ins f) r f s c s1 → ¬MakesCommand c →
    exec (ins f) s = .next (countIssue c (issueClass r f) (c.finish0 f s1)))

namespace Sys2Proof.Claims

/-- Physical bytes at an address that can be read and written here: local, present, and in trained memory. -/
abbrev Owned (s : State) (pa n : Nat) : Prop :=
  ∀ i < n, s.isLocal (pa + i) = true ∧ s.present (offsetOf (pa + i)) = true ∧ s.reachable (pa + i) = true

/-- A page of an address space that a translation finds, with its place and permissions. -/
abbrev MappedAt (s : State) (asid root va pa : Nat) (attr : PageAttr) : Prop := (translate s asid root va).place va = some (pa, attr)

/-- A static copy entry in use is legal as far as the record tells (R50, R52). -/
abbrev EntryLegal (e : Word × Word) : Prop :=
  e.1.toNat % 64 = 0 ∧ bitsAt e.2 52 12 = 0 ∧ bitsAt e.2 9 7 = 0 ∧ bitsAt e.2 32 20 % 16 = 0 ∧ bitsAt e.2 16 16 % 32 = 0

/-- The record check (R49, R50, R52): every field in its range, every address aligned, every reserved bit zero. -/
abbrev RecordLegal (l : List Byte) : Prop :=
  let r := LRecord.ofBytes 0 l
  r.image.toNat % 64 = 0 ∧ r.region.toNat % 64 = 0 ∧ r.done.toNat % 16 = 0 ∧
  (∀ g ∈ [r.gridX, r.gridY, r.gridZ], 1 ≤ g ∧ g ≤ 16777216) ∧ r.gridX * r.gridY * r.gridZ ≤ 2 ^ 48 ∧ r.flags < 8 ∧ r.ndeps ≤ 4 ∧ r.copyCount ≤ 16 ∧
  (∀ i < 48, nth l (0x50 + i) 0 = 0) ∧ (∀ k < 4, (nth r.deps k 0).toNat % 16 = 0 ∧ (k < r.ndeps ∨ nth r.deps k 0 = 0)) ∧
  ∀ n < 16, if n < r.copyCount then EntryLegal (nth r.copies n (0, 0)) else nth r.copies n (0, 0) = (0, 0)

/-- The image of a launch fails its check in a state whose regions are known (R44): its header, barrier table or schedule section lies where it may not
be read, or, readable now, breaks a rule. -/
def ImageFails (s : State) (asid root va : Nat) : Prop :=
  s.vaDenied asid root va 128 .read = true ∨
  (s.vaWaits asid root va 128 = false ∧ ∃ hb, s.vaBytes asid root va 128 = some hb ∧
    let h := Header.ofBytes hb
    let bars := (va + h.barOff, 32 * h.barCount)
    let sched := (va + h.schedOff, h.schedSize)
    (headerOk hb = false ∨ s.vaDenied asid root bars.1 bars.2 .read = true ∨ s.vaDenied asid root sched.1 sched.2 .read = true ∨
     (s.vaWaits asid root bars.1 bars.2 = false ∧ s.vaWaits asid root sched.1 sched.2 = false ∧ ∃ b c, s.vaBytes asid root bars.1 bars.2 = some b ∧
       s.vaBytes asid root sched.1 sched.2 = some c ∧ (barsOk b h.barCount = false ∨ schedules c h.schedCount = none))))

/-- The image of a launch passes its check, and its header is this one. -/
def ImagePasses (s : State) (asid root va : Nat) (h : Header) : Prop :=
  ∃ hb b c scheds, s.vaDenied asid root va 128 .read = false ∧ s.vaWaits asid root va 128 = false ∧ s.vaBytes asid root va 128 = some hb ∧
    h = Header.ofBytes hb ∧ headerOk hb = true ∧ s.vaDenied asid root (va + h.barOff) (32 * h.barCount) .read = false ∧
    s.vaDenied asid root (va + h.schedOff) h.schedSize .read = false ∧ s.vaWaits asid root (va + h.barOff) (32 * h.barCount) = false ∧
    s.vaWaits asid root (va + h.schedOff) h.schedSize = false ∧ s.vaBytes asid root (va + h.barOff) (32 * h.barCount) = some b ∧
    s.vaBytes asid root (va + h.schedOff) h.schedSize = some c ∧ barsOk b h.barCount = true ∧ schedules c h.schedCount = some scheds

/-- The outcome of the first check that an offer's record, image or region fails, in the order of R55: the record; the image, through the address space of
the region's tree; the record's limits that depend on the header; the region's chain, and whether the launcher may name it; and fit. -/
def FirstFailure (s : State) (o : Offer) (e : LaunchResult) : Prop :=
  let r := LRecord.ofBytes o.addr o.bytes
  let s1 := s.knowRegion r.region.toNat
  let known := s1.chainOk r.region.toNat = true
  let asid := if known then ({} : Launch).asidFor s1 (s1.rootOf r.region.toNat) else o.asid
  let root := (s1.space asid).root
  let within := ∀ own, o.region = some own → ∃ b ∈ s1.rcbChain r.region.toNat, b.addr = own.toNat
  (¬RecordLegal o.bytes ∧ e = .badRecord) ∨ (RecordLegal o.bytes ∧ ImageFails s1 asid root r.image.toNat ∧ e = .badImage) ∨
  (RecordLegal o.bytes ∧ ∃ h, ImagePasses s1 asid root r.image.toNat h ∧
    ((copiesFit r h = false ∧ e = .badRecord) ∨ (copiesFit r h = true ∧ ¬(known ∧ within) ∧ e = .badRegion) ∨
     (copiesFit r h = true ∧ known ∧ within ∧ fitsEver s1 h r.region.toNat o.base.isSome = false ∧ e = .noFit)))

/-- R55, R63, R64, R213, R216: with fewer than 4,096 launches accepted and not ended, the arbiter takes the first offer: the launch gets the next
acceptance number, and the system core that offered it that result; once its checks have been made, the first failed one is its outcome, and a launch
that passes waits for its dependences or is queued. With 4,096, an offer with NW is answered 0, also behind others that wait, and those stay. An
offer of a recording core whose log cannot be reached for its result stays too (R372, R382). -/
def LaunchAccepted : Prop :=
  (∀ (s : State) (o : Offer) (pre rest : List Offer) (n d : Nat), s.offers = pre ++ o :: rest → o.who = .core n → (s.core n).recording = false →
    (s.core n).replaying = false → (s.core n).wait = .launch (some d) →
    (s.liveLaunches.length < 4096 → (∀ x ∈ pre, s.logBlocks x = true) →
      ∃ t l, exec .launchOfferAccepted s = .next t ∧ t.offers = pre ++ rest ∧ t.acceptCount = s.acceptCount + 1 ∧
        sget (t.core n).gpr d = BitVec.ofNat 64 (2 ^ 31 + s.acceptCount % 2 ^ 31) ∧ (t.core n).wait = .none ∧ SameMemory s t ∧
        aget? t.launches s.acceptCount = some l ∧ l.acc = s.acceptCount ∧ l.lrec = LRecord.ofBytes o.addr o.bytes ∧ l.base = o.base ∧
        (∀ e, chainWaits s 9 l.lrec.region.toNat = false → FirstFailure s o e → l.toCheck = none ∧ l.result = some e ∧ l.st = .accepted) ∧
        (l.toCheck = none → l.result = none → l.st = if l.lrec.ndeps = 0 then .queued else .waiting)) ∧
    (4096 ≤ s.liveLaunches.length → o.nw = true → (∀ x ∈ pre, x.nw = false ∨ s.logBlocks x = true) →
      ∃ t, exec .launchOfferAccepted s = .next t ∧ t.offers = pre ++ rest ∧ t.acceptCount = s.acceptCount ∧ sget (t.core n).gpr d = 0 ∧
        t.launches = s.launches)) ∧
  ∀ (s : State), 4096 ≤ s.liveLaunches.length → (∀ x ∈ s.offers, x.nw = false) → exec .launchOfferAccepted s = .next s

/-- R54: a waiting launch that finds a dependence DONE with status 0 has seen it, and is queued when it has seen all; any other status is
DEP_FAILED; a dependence that is not DONE changes nothing. -/
def DependenceObserved : Prop :=
  ∀ (s : State) (acc k pa : Nat) (l : Launch) (attr : PageAttr), aget? s.launches acc = some l → l.st = .waiting → l.result = none →
    k < l.lrec.ndeps → nth l.depSeen k true = false → nth l.depAsleep k false = false →
    (nth l.lrec.deps k 0).toNat < 2 ^ 56 → MappedAt s l.asid l.root (nth l.lrec.deps k 0).toNat pa attr → attr.r = true →
    s.readable pa = true →
    let w := s.paRead pa 8
    let seen := modNth l.depSeen k fun _ => true
    (w.getLsbD 63 = false → exec (.dependenceObserved acc k) s = .next s) ∧
    (w.getLsbD 63 = true → bitsAt w 0 32 ≠ 0 →
      ∃ t, exec (.dependenceObserved acc k) s = .next t ∧ aget? t.launches acc = some { l with result := some .depFailed }) ∧
    (w.getLsbD 63 = true → bitsAt w 0 32 = 0 →
      ∃ t, exec (.dependenceObserved acc k) s = .next t ∧ SameMemory s t ∧ aget? t.launches acc = some { l with
        depSeen := seen, st := if ∀ b ∈ seen.take l.lrec.ndeps, b = true then .queued else .waiting })

/-- R53, R55, R365: the outcome of a launch of which no record waits for the accounting ring goes to its done event in two stores: first the time, as its stamp, and then, while that is still the time, DONE
with the outcome as its status, with which the launch ends; without a done event the launch only ends. That a stamp which is no longer the time is
stored anew is DEDUCED (log 13). -/
def OutcomeWritten : Prop :=
  ∀ (s : State) (acc : Nat) (l : Launch) (r : LaunchResult), aget? s.launches acc = some l → l.result = some r → l.st ≠ .ended →
    l.outAsleep = false → (∀ x ∈ s.strWait, x.1 ≠ acc) →
    (l.lrec.done = 0 → ∃ t, exec (.launchOutcomeWrite acc) s = .next t ∧ SameMemory s t ∧ (t.launch acc).st = .ended) ∧
    (∀ (pa : Nat) (attr : PageAttr), l.lrec.done ≠ 0 → l.lrec.done.toNat % 16 = 0 → l.lrec.done.toNat + 16 ≤ 2 ^ 56 →
      MappedAt s l.asid l.root l.lrec.done.toNat pa attr → attr.w = true → Owned s pa 16 →
      (l.stamped ≠ some s.time → ∃ t, exec (.launchOutcomeWrite acc) s = .next t ∧ aget? t.launches acc = some { l with stamped := some s.time } ∧
        t.paRead (pa + 8) 8 = BitVec.ofNat 64 s.time ∧ ∀ a, ¬(pa + 8 ≤ a ∧ a < pa + 16) → t.paByte a = s.paByte a) ∧
      (l.stamped = some s.time → ∃ t, exec (.launchOutcomeWrite acc) s = .next t ∧ (t.launch acc).st = .ended ∧
        t.paRead pa 8 = BitVec.ofNat 64 (2 ^ 63 + r.code) ∧ ∀ a, ¬(pa ≤ a ∧ a < pa + 8) → t.paByte a = s.paByte a))

/-- R66, R67: a queued launch is dealt once, in chunks of four skeins, to the frames whose limit is not 0, in turn from the deal pointer on. That
the deal pointer is kept modulo the number of those frames is DEDUCED (log 45). -/
def SkeinsDealt : Prop :=
  ∀ (s : State) (acc : Nat) (l : Launch), aget? s.launches acc = some l → l.st = .queued → l.dealt = false → l.result = none →
    l.isDealt = true →
    let fs := (List.range s.nFrames).filter fun n => (s.frame n).limit != 0
    fs ≠ [] →
    ∃ t, exec (.dealSkeins acc) s = .next t ∧ (t.launch acc).dealt = true ∧ SameMemory s t ∧
      t.dealPtr = (s.dealPtr + (l.lrec.skeins + 3) / 4) % fs.length ∧
      (∀ j < fs.length, (t.frame (nth fs j 0)).queue = (s.frame (nth fs j 0)).queue ++
        ((List.range l.lrec.skeins).filter fun i => (s.dealPtr + i / 4) % fs.length == j).map fun i => (acc, i)) ∧
      ∀ n, n ∉ fs → t.frame n = s.frame n

/-- A skein of a launch is placed on a spindle: it takes a slot that was free, and the launch counts it. -/
def PlacedOn (s t : State) (sp acc idx : Nat) : Prop :=
  (t.launch acc).placed = (s.launch acc).placed + 1 ∧ ∃ slot k, slot < 4 ∧ s.skein? sp slot = none ∧
    (t.spindle sp).slots = modNth (s.spindle sp).slots slot (fun _ => some k) ∧ k.launch = (s.launch acc).acc ∧ k.index = idx ∧
    k.life = .running

/-- R68, R69, R71: a decision of a frame's dispatcher, at least 50 ns after the one before, counts the heads that do not fit, and then places the skein
that R68 chooses when it stands at the head of its launch in the frame's queue, on the spindle of R71; it places no other, and never two. That a
decision which falls on a deterministic launch places nothing is the model's (DESIGN CHOICE, log 79). -/
def Dispatched : Prop :=
  ∀ (s : State) (n : Nat), n < s.nFrames → (s.frame n).st = 0 → (s.frame n).gating = false → (s.frame n).decideAt + 50 ≤ s.time →
    let s' := (s.modFrame n fun f => { f with decideAt := s.time }).starveStep n
    ∃ t, exec (.dispatchDecision n) s = .next t ∧ (t.frame n).decideAt = s.time ∧ SameMemory s t ∧
      (∀ acc idx sp credit, s'.choose (s'.frame n) (s'.candidates n) = some (acc, credit) → (s'.frame n).head acc = some idx →
        s'.bestSpindle n acc idx = some sp → PlacedOn s t sp acc idx ∧ (t.frame n).queue = (s.frame n).queue.erase (acc, idx) ∧
          (t.frame n).credit = credit) ∧
      ((t.spindles = s.spindles ∧ (t.frame n).queue = (s.frame n).queue) ∨ ∃ acc idx sp, (s.frame n).head acc = some idx ∧ sp / 16 = n ∧
        PlacedOn s t sp acc idx ∧ (t.frame n).queue = (s.frame n).queue.erase (acc, idx))

/-- R80: the next skein of a deterministic launch goes to the first frame with a spindle that it fits, and there to the spindle of R71,
when R68 chooses it; R391: the next skein of a launch for one base spindle goes to that spindle. -/
def PlacedInOrder : Prop :=
  (∀ (s : State) (acc n sp : Nat) (l : Launch) (credit : List (Nat × Nat × Int)), aget? s.launches acc = some l → s.detReady l = true →
    s.detFrame l = some n → s.choose (s.frame n) (s.candidates n) = some (acc, credit) → s.bestSpindle n acc l.placed = some sp →
    ∃ t, exec (.deterministicPlace acc) s = .next t ∧ PlacedOn s t sp acc l.placed ∧ SameMemory s t) ∧
  (∀ (s : State) (acc sp : Nat) (l : Launch), aget? s.launches acc = some l → l.base = some sp → l.result = none →
    l.st = .queued ∨ l.st = .running → l.placed < l.lrec.skeins → s.fitsOnBase sp acc = true →
    ∃ t, exec (.baseSpindlePlace acc) s = .next t ∧ PlacedOn s t sp acc l.placed ∧ SameMemory s t)

/-- R77: an idle spindle asks one other frame; the frame gives the tail skein of the launch that R68 chooses, if the skein fits the
spindle, and otherwise nothing, and no new request leaves the spindle for 1,000 ns. That only a queue's heads keep a spindle from being idle is
the model's (DESIGN CHOICE, log 80). -/
def Stolen : Prop :=
  (∀ (s : State) (sp v : Nat), s.computeSpindle sp = true → v < s.nFrames → v ≠ sp / 16 → s.mayAsk sp = true →
    ∃ t, exec (.stealRequest sp v) s = .next t ∧ (t.spindle sp).steal = some v ∧ ∀ q, q ≠ sp → t.spindle q = s.spindle q) ∧
  (∀ (s : State) (sp v : Nat), s.computeSpindle sp = true → (s.spindle sp).steal = some v →
    (s.choose (s.frame v) (s.frame v).accs = none → ∃ t, exec (.stealAnswer sp) s = .next t ∧ (t.spindle sp).steal = none ∧
      (t.spindle sp).stealAt = s.time + 1000 ∧ t.frames = s.frames) ∧
    (∀ acc idx credit, s.choose (s.frame v) (s.frame v).accs = some (acc, credit) → (s.frame v).tail acc = some idx →
      (s.fits sp acc idx = true → ∃ t, exec (.stealAnswer sp) s = .next t ∧ (t.spindle sp).steal = none ∧ PlacedOn s t sp acc idx ∧
        (t.frame v).queue = (s.frame v).queue.erase (acc, idx)) ∧
      (s.fits sp acc idx = false → ∃ t, exec (.stealAnswer sp) s = .next t ∧ (t.spindle sp).steal = none ∧
        (t.spindle sp).stealAt = s.time + 1000 ∧ t.frames = s.frames)))

/-- R55, R364: a skein retires once nothing of it is outstanding: its slot is free, and with the last skein its launch has an outcome, ENDED
where one of its skeins was ended, else OK. -/
def Retired : Prop :=
  ∀ (s : State) (sp slot : Nat) (k : Skein) (l : Launch), s.skein? sp slot = some k → s.mayRetire sp k = true →
    aget? s.launches k.launch = some l →
    ∃ t, exec (.skeinRetire sp slot) s = .next t ∧ t.skein? sp slot = none ∧ (t.launch k.launch).retired = l.retired + 1 ∧
      (t.launch k.launch).result = (if l.retired + 1 = l.lrec.skeins then some (if l.anyEnded then .ended else .doneOk) else l.result) ∧
      ∀ q j, ¬(q = sp ∧ j = slot) → t.skein? q j = s.skein? q j

end Sys2Proof.Claims

open Sys2Proof.Claims

/-- R53 to R55, R63 to R67, R213: the steps of a launch from its offer to its outcome. -/
def Obligations.LaunchSteps : Prop := LaunchAccepted ∧ DependenceObserved ∧ OutcomeWritten ∧ SkeinsDealt

/-- R55, R68 to R71, R77, R80, R364, R391: how skeins come to a spindle and leave it. -/
def Obligations.PlacementSteps : Prop := Dispatched ∧ PlacedInOrder ∧ Stolen ∧ Retired

namespace Sys2Proof.Claims

/-- A party that stands there and may act. -/
abbrev Acts (p : Party) (s : State) (c : Ctx) : Prop := s.ctx? p = some c ∧ c.live = true ∧ Settled c

/-- R323, R324: a party that waits in BARW or BARX goes on once the phase of its object is another than the one it waits on, with the phase in
D; until then nothing changes. -/
def BarrierEnds : Prop :=
  ∀ (p : Party) (s : State) (c : Ctx) (f : Fields) (o : Nat) (w : BitVec 32), Acts p s c → c.waitNow = .barw f o w ∨ c.waitNow = .barx f o w →
    c.lookahead f = 0 → (phaseAt (scratchIn c s) o ≠ w.toNat → ∃ t, exec (.barrierWaitEnd p) s = .next t ∧ c.pcIn t = c.pc + Fields.size f ∧
      AllCopies c s t f.d.toNat (BitVec.ofNat 64 (phaseAt (scratchIn c s) o)) ∧ SameMemory s t) ∧
    (phaseAt (scratchIn c s) o = w.toNat → exec (.barrierWaitEnd p) s = .next s)

/-- R325: 256 ns after the last arrival of a generation of a tag, every distaff that waits on it goes on, with the D register that its
arrival wrote as it is; a distaff whose generation is the current one, or ended less than 256 ns ago, waits on. -/
def TreeReleases : Prop :=
  ∀ (tag : Nat) (s : State), tag < 8 →
    ∃ t, exec (.tbarRelease tag) s = .next t ∧ t.tags = s.tags ∧ SameMemory s t ∧
      ∀ (sp slot : Nat) (c : Ctx) (f : Fields) (g : BitVec 16), slot < 4 → s.ctx? (.dist sp slot) = some c → c.live = true →
        c.waitNow = .tbar f tag g →
        (g ≠ (s.tag tag).gen → (∀ q ∈ (s.tag tag).flips, q.1 = g → q.2 + 256 ≤ s.time) →
          c.pcIn t = c.pc + Fields.size f ∧ waitIn c t = .none ∧ SameS c s t) ∧
        (g = (s.tag tag).gen ∨ (∃ q ∈ (s.tag tag).flips, q.1 = g ∧ s.time < q.2 + 256) → t.skein? sp slot = s.skein? sp slot)

/-- R327, R328: a waiting DQPOP that no sibling's issued before it takes the oldest entry deliverable to its ply; with none left and the
distaff exited it raises DQ_DRAINED. -/
def DecisionDelivered : Prop :=
  ∀ (p : Party) (s : State) (c : Ctx) (f : Fields) (n : Nat), Acts p s c → c.dist = false → c.waitNow = .dqpop f n → c.ply.dqBefore n = false →
    c.lookahead f = 0 →
    (∀ pre e post, c.sk.dq = pre ++ e :: post → (∀ x ∈ pre, c.plyNo ∉ x.dests) → c.plyNo ∈ e.dests →
      ∃ t, exec (.dqpopDeliver p) s = .next t ∧ c.pcIn t = c.pc + Fields.size f ∧ AllCopies c s t f.d.toNat e.val ∧
        (skeinIn c t).dq = pre ++ (if ∀ q ∈ e.dests, q = c.plyNo then post
          else { val := e.val, dests := e.dests.filter fun q => q != c.plyNo } :: post)) ∧
    ((∀ e ∈ c.sk.dq, c.plyNo ∉ e.dests) → c.sk.dist.exited = true →
      exec (.dqpopDeliver p) s = .next (takeTrap c { kind := .dqDrained } c.pc s)) ∧
    ((∀ e ∈ c.sk.dq, c.plyNo ∉ e.dests) → c.sk.dist.exited = false → exec (.dqpopDeliver p) s = .next s)

/-- R329: a waiting EVPOP takes the oldest record once one is there. -/
def EventDelivered : Prop :=
  ∀ (p : Party) (s : State) (c : Ctx) (f : Fields), Acts p s c → c.dist = true → c.waitNow = .evpop f → c.lookahead f = 0 →
    (∀ x l, c.sk.evq = x :: l → c.la.lrec.copyCount ≤ c.sk.statNext →
      ∃ t, exec (.evpopDeliver p) s = .next t ∧ c.pcIn t = c.pc + Fields.size f ∧ AllCopies c s t f.d.toNat x ∧ (skeinIn c t).evq = l) ∧
    (c.sk.evq = [] → 0 < c.sk.evHeld → exec (.evpopDeliver p) s = .next s)

/-- R331: a waiting VFPUSH appends its entry once there is room, a waiting VFPOP takes the oldest entry once there is one. -/
def FifoWaitEnds : Prop :=
  ∀ (p : Party) (s : State) (c : Ctx) (f : Fields), Acts p s c → c.dist = false → c.lookahead f = 0 →
    (c.waitNow = .vfpush f →
      let k := outFifo c.sp (opB f c).toNat
      ((s.fifo k).length < 16 → ∃ t e, exec (.vfifoWaitEnd p) s = .next t ∧ c.pcIn t = c.pc + Fields.size f ∧ SameV c s t ∧
        t.fifo k = s.fifo k ++ [e] ∧ (∀ j, j ≠ k → t.fifo j = s.fifo j) ∧ ∀ th < 16, fifoWord e th = c.ply.rdV f.a.toNat th) ∧
      (16 ≤ (s.fifo k).length → exec (.vfifoWaitEnd p) s = .next s)) ∧
    (c.waitNow = .vfpop f →
      let k := inFifo c.sp (opB f c).toNat
      (∀ e l, s.fifo k = e :: l → ∃ t, exec (.vfifoWaitEnd p) s = .next t ∧ c.pcIn t = c.pc + Fields.size f ∧ t.fifo k = l ∧
        (∀ j, j ≠ k → t.fifo j = s.fifo j) ∧ ∀ th ∈ c.active, th < 16 → c.vIn t f.d.toNat th = fifoWord e th) ∧
      (s.fifo k = [] → exec (.vfifoWaitEnd p) s = .next s))

/-- R332, R333: the token of a deterministic launch that is at no ply goes to the ply at its place, whose paths that wait for it go on and which
then holds it; a ply with no path waiting holds it only once it executes TOKEN.get (DEDUCED, log 27). It goes past a ply that has exited, and, past
the last one, into the next round. -/
def TokenArrives : Prop :=
  ∀ (s : State) (acc : Nat) (l : Launch), aget? s.launches acc = some l → l.det = true → s.tokenHeld acc = false →
    (l.lrec.skeins * l.hdr.plies ≤ l.tokenAt → ∃ t, exec (.tokenArrive acc) s = .next t ∧ (t.launch acc).tokenAt = 0 ∧
      (t.launch acc).round = l.round + 1) ∧
    (∀ sp k, l.tokenAt < l.lrec.skeins * l.hdr.plies → s.skeinAt acc (l.tokenSpot l.tokenAt).1 = some (sp, k) →
      ((k.ply (l.tokenSpot l.tokenAt).2).gone l.width = true → ∃ t, exec (.tokenArrive acc) s = .next t ∧
        (t.launch acc).tokenAt = l.tokenAt + 1 ∧ t.spindles = s.spindles) ∧
      (∀ slot, (k.ply (l.tokenSpot l.tokenAt).2).gone l.width = false → (l.tokenSpot l.tokenAt).2 < k.plies.length →
        s.whereIs k.uid = some (sp, slot) → s.skein? sp slot = some k → (k.ply (l.tokenSpot l.tokenAt).2).curDefs = [] →
        ∃ t p, exec (.tokenArrive acc) s = .next t ∧ ((t.skein? sp slot).map fun y => y.ply (l.tokenSpot l.tokenAt).2) = some p ∧
          p.turn = true ∧ p.token = (k.ply (l.tokenSpot l.tokenAt).2).waitsToken ∧ ∀ i < 16, ∀ c, Acts (.path sp slot (l.tokenSpot l.tokenAt).2 i) s c → c.waitNow = .token →
            (nth p.paths i {}).pc = c.pc + 8 ∧ (nth p.paths i {}).st = .ready ∧ (nth p.paths i {}).wait = .none))

/-- R93: a value that has come back for a deferred write lands once its strand is past the landing position, in a ply and in a distaff. -/
def ValueLands : Prop :=
  (∀ (p : Party) (s : State) (c : Ctx) (e : Deferred) (reg th : Nat) (x : VWord), s.ctx? p = some c → c.dist = false → c.ply.exited = 0 →
    c.ply.trap.mode = false → c.plyNo < c.sk.plies.length → c.ply.defs = [e] → e.op = 0 → e.ue = none → e.writes = [.v reg th x] →
    e.strand ∈ c.strands → e.land < c.ply.curPos e.strand → th < 128 →
    ∃ t q, exec (.longLatencyLanding p) s = .next t ∧ c.ply? t = some q ∧ q.defs = [] ∧ q.rdV reg th = x ∧
      (∀ r u, u < 128 → ¬(r = reg ∧ u = th) → q.rdV r u = c.ply.rdV r u) ∧ q.s = c.ply.s ∧ q.flags = c.ply.flags ||| e.flags) ∧
  (∀ (p : Party) (s : State) (c : Ctx) (e : Deferred) (reg : Nat) (x : Word), s.ctx? p = some c → c.dist = true → c.sk.dist.exited = false →
    c.sk.dist.curDefs = [e] → e.op = 0 → e.ue = none → e.strand = 0 → e.writes = [wrAll reg x] → e.land < c.sk.dist.curPos →
    ∃ t, exec (.longLatencyLanding p) s = .next t ∧ (c.distIn t).curDefs = [] ∧ c.sIn t reg 0 = x ∧
      ∀ r, r ≠ reg → c.sIn t r 0 = c.sIn s r 0)

/-- R109: once no path of a ply runs, the paths that wait at the lowest JOIN become one ready path after it, in the lowest of their
entries (DESIGN CHOICE, log 64); paths that wait elsewhere are as before. -/
def JoinMerges : Prop :=
  ∀ (s : State) (sp slot ply : Nat) (k : Skein) (a : Word), s.skein? sp slot = some k → k.life = .running → k.pre = .no →
    (k.ply ply).stopped = false → ply < k.plies.length → (k.ply ply).curDefs = [] → (∀ e ∈ (k.ply ply).paths, e.running = false) →
    joinAddr (k.ply ply).paths = some a →
    ∃ t p, exec (.joinMerge sp slot ply) s = .next t ∧ ((t.skein? sp slot).map fun y => y.ply ply) = some p ∧ p.v = (k.ply ply).v ∧
      p.s = (k.ply ply).s ∧ p.exm = (k.ply ply).exm ∧ (∃ i, (nth p.paths i {}).valid = true ∧ (nth p.paths i {}).pc = a + 8 ∧
        (nth p.paths i {}).st = .ready ∧ ∀ (j : Nat) (e : Path), (k.ply ply).paths[j]? = some e → e.atJoin = true → e.pc = a →
          i ≤ j ∧ ∀ st, e.strands.getLsbD st = true → (nth p.paths i {}).strands.getLsbD st = true) ∧
      ∀ (j : Nat) (e : Path), (k.ply ply).paths[j]? = some e → ¬(e.atJoin = true ∧ e.pc = a) → p.paths[j]? = some e

/-- R117: a party that waits for a queue place or a credit tries its instruction again. -/
def CreditRetries : Prop :=
  ∀ (p : Party) (s : State) (c : Ctx), s.ctx? p = some c → c.live = true → c.waitNow = .credit →
    ∃ t, exec (.queueCreditRetry p) s = .next t ∧ c.pcIn t = c.pc ∧ waitIn c t = .none ∧ SameV c s t ∧ SameS c s t ∧ SameMemory s t

/-- R226, R227, R231: a held instruction whose page a wake has covered, or which only lacked room, runs again, for its path or distaff;
one held at its fetch is free to fetch again; one without a wake stays held, and so does a copy; and one that needs a record, while the ring has no
room, a copy's too. -/
def HeldRetries : Prop :=
  (∀ (s : State) (sp slot ply : Nat) (k : Skein) (h : Held) (c : Ctx), s.skein? sp slot = some k → (k.ply ply).held = some h →
    s.ctx? (.path sp slot ply h.path) = some c → c.live = true →
    (∀ i, h.mayRetry s = true → h.ins = some i → i.row.isSome = true → exec (.heldAccessRetry (.ply sp slot ply)) s =
      exec i { c.modPly s (fun p => { p with held := none }) with cur := .path sp slot ply h.path }) ∧
    (h.mayRetry s = true → h.ins = none → exec (.heldAccessRetry (.ply sp slot ply)) s =
      .next (c.modPly s (fun p => { p with held := none }))) ∧
    (h.mayRetry s = false → exec (.heldAccessRetry (.ply sp slot ply)) s = .next s) ∧
    (h.ring = true → s.ringFree = 0 → exec (.heldAccessRetry (.ply sp slot ply)) s = .next s)) ∧
  (∀ (s : State) (sp slot : Nat) (h : Held) (c : Ctx), s.ctx? (.dist sp slot) = some c → c.sk.dist.held = some h → c.live = true →
    (∀ i, h.mayRetry s = true → h.ins = some i → i.row.isSome = true → exec (.heldAccessRetry (.dist sp slot)) s =
      exec i { c.modDist s (fun d => { d with held := none }) with cur := .dist sp slot }) ∧
    (h.mayRetry s = false → exec (.heldAccessRetry (.dist sp slot)) s = .next s)) ∧
  (∀ (s : State) (sp q : Nat) (k : CopyCmd) (err : MemErr), s.spindlePresent sp = true → s.copyHead sp q = some k → k.asleep.isSome = true →
    k.woken = false → exec (.heldAccessRetry (.copySpindle sp q err)) s = .next s) ∧
  (∀ (s : State) (sp q : Nat) (k : CopyCmd) (err : MemErr), s.spindlePresent sp = true → s.copyHead sp q = some k → k.ring = true →
    s.ringFree = 0 → exec (.heldAccessRetry (.copySpindle sp q err)) s = .next s) ∧
  (∀ (s : State) (sp q : Nat) (err : MemErr), s.spindlePresent sp = true → ∃ t, exec (.heldAccessRetry (.copySpindle sp q err)) s = .next t)

/-- R228, R229: the memory unit performs the store at the head of a log as its bytes, once its page is there, and the log goes on to the next
entry; a head that sleeps stays. -/
def LogReplays : Prop :=
  ∀ (p : Party) (s : State) (c : Ctx) (e : LogEntry) (rest : List LogEntry) (a : Access), s.owner? p = some c → c.dist = false →
    c.plyNo < c.sk.plies.length → c.sideLog = e :: rest →
    (e.asleep = true → exec (.sideLogReplay p) s = .next s) ∧
    (e.asleep = false → e.incomplete = false → e.op = .store → e.space = .global → e.accs = [a] →
      let u : ThreadAcc := { tid := a.tid, st := e.strand, acc := a }
      let n := e.ty.bits / 8
      anyFault [c.place s .global n u] = false → anyUntrained s [c.place s .global n u] = false → c.l1Waits s .global [c.place s .global n u] = false →
      (∀ q ∈ (c.place s .global n u).pieces, ∀ x, q.2.place q.1.va = some x → x.2.w = true) →
      (∀ x ∈ Ctx.cells c s .global n u, s.isLocal x.2 = true ∧ s.present (offsetOf x.2) = true) →
      ∃ t q, exec (.sideLogReplay p) s = .next t ∧ c.ply? t = some q ∧ q.sideLog = rest ∧
        (∀ x ∈ Ctx.cells c s .global n u, t.paByte x.2 = byteOf a.data x.1) ∧
        ∀ b, (∀ x ∈ Ctx.cells c s .global n u, x.2 ≠ b) → t.paByte b = s.paByte b)

/-- R340, R342, R349: a party that waits at an instruction, which has been checked, takes its oldest pending trap there, unless a value of its is
still on the way: it is pending no more, and the handler of its region starts, with the trap's cause and the address of the instruction. -/
def PendingTaken : Prop :=
  ∀ (p : Party) (s : State) (c : Ctx) (t : TrapRec) (l : List TrapRec), s.ctx? p = some c → c.pending = t :: l → c.live = true →
    c.caughtUp s = true → c.waitNow.onItsWay = false → c.atFetch = false → handlerAt c s ≠ 0 →
    (c.dist = false → c.path.st ≠ .exited → c.plyNo < c.sk.plies.length → AtBoundaries c →
      ∃ u q w, exec (.takeTrap p) s = .next u ∧ c.ply? u = some q ∧ q.pend = c.ply.pend.erase t ∧
        CauseIs w false c.plyNo c.idx t.kind.code t.prec.code (t.check % 16) t.imm.toNat t.elem t.guard ∧
        InHandler c q (handlerAt c s) w c.pc t.addr) ∧
    (c.dist = true → c.sk.dist.exited = false →
      ∃ u w, exec (.takeTrap p) s = .next u ∧ (c.distIn u).pend = c.sk.dist.pend.erase t ∧
        CauseIs w true c.plyNo c.idx t.kind.code t.prec.code (t.check % 16) t.imm.toNat none t.guard ∧
        DistInHandler c (c.distIn u) (handlerAt c s) w c.pc t.addr)

end Sys2Proof.Claims

open Sys2Proof.Claims

/-- R323 to R333: how the waits of the synchronising instructions end. -/
def Obligations.WaitsEnd : Prop :=
  BarrierEnds ∧ TreeReleases ∧ DecisionDelivered ∧ EventDelivered ∧ FifoWaitEnds ∧ TokenArrives

/-- R93, R109, R117, R226 to R229: how what a party has left behind comes to its end: landings, joins, retries, its side log. -/
def Obligations.PartySteps : Prop := ValueLands ∧ JoinMerges ∧ CreditRetries ∧ HeldRetries ∧ LogReplays ∧ PendingTaken

namespace Sys2Proof.Claims

/-- The scratchpad byte of the skein in a slot. -/
def scratchAt (s : State) (sp slot b : Nat) : Byte := sget (((s.skein? sp slot).map Skein.scratch).getD []) b

/-- An engine's completion at a barrier object (R247, R263, R264, R295): STATUS, then one arrival. -/
def Completed (g h : Nat → Byte) (o : Nat) (w : Word) : Prop :=
  valueAt h (rangeCells (o + 8) 8) = w.toNat ∧
  (if expectAt g o ≤ arrivedAt g o + 1 then arrivedAt h o = 0 ∧ phaseAt h o = (phaseAt g o + 1) % 2 ^ 32
   else arrivedAt h o = arrivedAt g o + 1 ∧ phaseAt h o = phaseAt g o) ∧
  ∀ b, ¬(o + 2 ≤ b ∧ b < o + 8) → ¬(o + 8 ≤ b ∧ b < o + 16) → h b = g b

/-- A status word (R248, R274, R296): DONE, the code, RESUMED, the queue, the command's number, and the count. -/
def statusOf (code : Nat) (resumed : Bool) (q kind count : Nat) : Word :=
  BitVec.ofNat 64 (2 ^ 63 + code * 2 ^ 48 + resumed.toNat * 2 ^ 40 + q * 2 ^ 36 + kind * 2 ^ 32 + count)

/-- The distaff's whole-register writes that wait for an operation have a value now. -/
def Delivered (s t : State) (sp slot id : Nat) (x : Word) : Prop :=
  ∀ k k', s.skein? sp slot = some k → t.skein? sp slot = some k' → ∀ (i : Nat) (e : Deferred) (r : Nat) (y : Word),
    k.dist.defs[i]? = some e → e.op = id → e.writes = [wrAll r y] →
    ∃ e', k'.dist.defs[i]? = some e' ∧ e'.op = 0 ∧ e'.land = e.land ∧ e'.writes = [wrAll r x]

/-- What a CPY.mig has done by a step: the lines from those it had moved to those it has moved now, and with the last it has its result. -/
def MigMoved (s t : State) (n q : Nat) (k k' : CopyCmd) (src dst len : Nat) : Prop :=
  (nth (t.core n).cq q []).head? = some k' ∧ k'.id = k.id ∧ k.pieces ≤ k'.pieces ∧ k'.pieces ≤ len / 64 ∧
  (k'.pieces = len / 64 → k'.result = some (0, len)) ∧ (k'.pieces < len / 64 → k'.result = none) ∧
  (∀ i, 64 * k.pieces ≤ i → i < 64 * k'.pieces → t.paByte (dst + i) = s.paByte (src + i)) ∧
  ∀ b, ¬(dst + 64 * k.pieces ≤ b ∧ b < dst + 64 * k'.pieces) → t.paByte b = s.paByte b

/-- R240, R243, R255: the head of a copy queue starts once its issuer's earlier accesses have been performed and what a join mark puts ahead of it has
completed, and stays the head until it completes. A CPY.mig of a system core moves its lines in ascending order: some as it starts, at least one more
whenever it goes on, and with the last it is done. How many at a time is free (DESIGN CHOICE, log 26). -/
def CopyStarts : Prop :=
  (∀ (s : State) (sp q : Nat) (k : CopyCmd) (a : CopyAt) (err : MemErr), s.spindlePresent sp = true → s.copyHead sp q = some k →
    s.copyAt sp q k = some a → k.started = false → a.sk.pre = .no → (s.spindle sp).pendingOf k.after = [] →
    (∀ w, k.who = some w → s.accessesDone a.sk w k.strands k.issued = true) →
    ∃ t k', exec (.copyCmdStart (.spindle sp) q err) s = .next t ∧ t.copyHead sp q = some k' ∧ k'.id = k.id ∧ k'.kind = k.kind ∧
      k'.started = true) ∧
  (∀ (s : State) (n q : Nat) (k : CopyCmd) (err : MemErr) (src dst len : Nat), n < s.nCores → (nth (s.core n).cq q []).head? = some k →
    k.mig = some (src, dst, len) → k.result = none → k.pieces ≤ len / 64 → len % 64 = 0 → Owned s dst len → (∀ i < len, s.readable (src + i) = true) →
    src + len ≤ dst ∨ dst + len ≤ src →
    (k.started = false → ∃ t k', exec (.copyCmdStart (.core n) q err) s = .next t ∧ k'.started = true ∧ MigMoved s t n q k k' src dst len) ∧
    (k.started = true → ∃ t k', exec (.heldAccessRetry (.copyCore n q err)) s = .next t ∧ (k.pieces < len / 64 → k.pieces < k'.pieces) ∧
      MigMoved s t n q k k' src dst len))

/-- A half byte of a byte: bits [3:0] for an even number. -/
def half (b : Byte) (i : Nat) : Nat := b.toNat / 16 ^ (i % 2) % 16

/-- The tiles of the skein in a slot. -/
def tileAt (s : State) (sp slot n : Nat) : Tile := nth (((s.skein? sp slot).map Skein.tiles).getD []) n {}

/-- A half byte of a copy's local side (R245): of its tile, of the scratchpad from its offset on, or of its slot's quarter of scale memory. -/
def localHalf (s : State) (sp slot : Nat) (k : CopyCmd) (i : Nat) : Nat :=
  if k.kind = .cpyk then half (sget (s.spindle sp).scale (4096 * slot + k.loc + i / 2)) i
  else if k.onTile then half (sget (tileAt s sp slot k.loc).bytes (i / 2)) i
  else half (scratchAt s sp slot (k.loc + i / 2)) i

/-- Bytes from one local row of a copy to the next (R245). -/
def localPitch (s : State) (sp slot : Nat) (k : CopyCmd) (h : Shape) : Nat :=
  if k.onTile then (tileAt s sp slot k.loc).bpr else if k.kind = .cpyk ∨ h.pitch = 0 then h.rowBytes else h.pitch

/-- A half byte that a store takes from its local side: of a 64-byte piece of a tile it has read already, as it was then (R247). -/
def sourceHalf (s : State) (sp slot : Nat) (k : CopyCmd) (i : Nat) : Nat :=
  match k.onTile, k.buf.find? (fun x => x.1 == i) with
  | true, some x => x.2.toNat
  | _, _ => localHalf s sp slot k i

/-- A copy that has begun, in layout 0, with one piece left to perform, whose 64-byte line is mapped with the permission it needs, present and
trained in this package. -/
structure LastPiece (s : State) (sp q : Nat) (k : CopyCmd) (a : CopyAt) (key : Nat × Nat) (pa : Nat) : Prop where
  present : s.spindlePresent sp = true
  head : s.copyHead sp q = some k
  place : s.copyAt sp q k = some a
  goesOn : k.started = true ∧ a.sk.pre = .no ∧ k.asleep = none ∧ (k.ring = true → s.ringFree ≠ 0) ∧ k.result = none ∧ k.prepared = true ∧ k.shapeRec ≠ [] ∧ (k.kind = .cpyc → k.casDone = true)
  plain : (Shape.ofBytes k.shapeRec).layout ≠ 1
  tile : k.onTile = true → k.loc < a.sk.tiles.length
  left : (pieceKeys ((copyElements a k).flatMap fun e => e.1)).filter (fun y => !k.gone.contains y) = [key]
  whole : k.reads = false → k.onTile = true → ∀ x ∈ k.buf, ∀ i, i / 128 = x.1 / 128 → ∃ y ∈ k.buf, y.1 = i
  apart : ((movesOf ((copyElements a k).flatMap fun e => e.1) key).map Move.l).Nodup ∧
    ((movesOf ((copyElements a k).flatMap fun e => e.1) key).map Move.m).Nodup
  mapped : ∃ x attr, engLookup s sp a.la.asid a.la.root (64 * key.2) = .page x ∧ x.place (64 * key.2) = some (pa, attr) ∧
    attr.permits (if k.reads then .read else .write) = true
  there : s.retraining = none ∧ s.reachable pa = true ∧ pa % 64 = 0 ∧ ∀ i < 64, s.isLocal (pa + i) = true ∧ s.present (offsetOf (pa + i)) = true

/-- R245, R246, R249 to R251: the last piece of a copy. Every element of a selected box row that lies in the view and whose memory bytes are in the
piece goes from its memory place, base + i(0) × esize + the strides' sum, to its local place, or the other way in DIR 2 and 3, from a tile as its
64-byte piece was when the copy first read it (R247); a piece that reads
changes no byte of memory, and one that writes no other byte. The command then has its result: code 0, and the count of its kind. -/
def CopyMoves : Prop :=
  ∀ (s : State) (sp q : Nat) (k : CopyCmd) (a : CopyAt) (key : Nat × Nat) (pa : Nat) (err : MemErr), LastPiece s sp q k a key pa →
    let h := Shape.ofBytes k.shapeRec
    ∃ t k', exec (.heldAccessRetry (.copySpindle sp q err)) s = .next t ∧ t.copyHead sp q = some k' ∧ k'.id = k.id ∧
      k'.result = some (0, match k.kind with
        | .cpyg => k.packed
        | .cpys => k.rows.length
        | _ => (k.moved + (movesOf ((copyElements a k).flatMap fun e => e.1) key).length) / 2) ∧
      (∀ r lrow seq j0 u, (r, lrow, seq) ∈ k.rows → seq = key.1 → j0 < nth h.box 0 0 → u < h.unit → h.inView (h.indices r j0) = true →
        let m := h.elemAt (h.viewBase k.sks a.la.lrec a.sk.index) (h.indices r j0) + u
        let l := 2 * (lrow * localPitch s sp a.slot k h) + j0 * h.unit + u
        m / 128 = key.2 →
        if k.reads then localHalf t sp a.slot k l = half (s.paByte (pa + m % 128 / 2)) m
        else half (t.paByte (pa + m % 128 / 2)) m = sourceHalf s sp a.slot k l) ∧
      (k.reads = true → SameMemory s t) ∧ ∀ b, ¬(pa ≤ b ∧ b < pa + 64) → t.paByte b = s.paByte b

/-- R247, R248, R252: a copy that has performed every access leaves its queue, its status word goes to its barrier object and to the
register that waits for it. -/
def CopyCompletes : Prop :=
  (∀ (s : State) (sp q code count : Nat) (k : CopyCmd) (a : CopyAt), s.spindlePresent sp = true → s.copyHead sp q = some k →
    s.copyAt sp q k = some a → k.result = some (code, count) → a.sk.life = .running → k.kind ≠ .cpyg →
    let w := statusOf code k.resumed q k.kind.code (count % 2 ^ 32) ||| k.bits
    ∃ t l, exec (.copyCmdComplete (.spindle sp) q) s = .next t ∧ nth (t.spindle sp).cq q [] = (nth (s.spindle sp).cq q []).drop 1 ++ l ∧
      Completed (scratchAt s sp a.slot) (scratchAt t sp a.slot) k.bar w ∧ Delivered s t sp a.slot k.id w) ∧
  (∀ (s : State) (n q code count r : Nat) (k : CopyCmd) (d : Deferred) (m x : Word), n < s.nCores → (nth (s.core n).cq q []).head? = some k →
    k.result = some (code, count) → (s.core n).defs = [d] → d.op = k.id → d.writes = [.s r m x] →
    ∃ t, exec (.copyCmdComplete (.core n) q) s = .next t ∧ (t.core n).defs = [] ∧ nth (t.core n).cq q [] = (nth (s.core n).cq q []).drop 1 ∧
      sget (t.core n).gpr r = statusOf code k.resumed q k.kind.code (count % 2 ^ 32) ||| k.bits ∧ SameMemory s t)

/-- An error of the tile file leaves a value defined: it is corrected, or the value is computed from other words (R275). -/
abbrev Defined (e : TileErr) (other : Prop) : Prop := e.kind = .corrected ∨ other

/-- R261, R262: a matrix command starts when it heads MQ and its issuer's earlier accesses have been performed; R276, R277: a step of TZERO clears, of
TLD loads and of TST stores the next 64 bytes, but for those of a word with an uncorrected or parity error (R275); any step of a command counts one,
and changes no tile but its D. That the 64-byte pieces of TLD and TST count from the start of the tile and of the offset is DEDUCED (log 41). -/
def MatrixSteps : Prop :=
  ∀ (s : State) (sp slot : Nat) (k : MatCmd) (sk : Skein), s.computeSpindle sp = true → s.matHead sp = some (k, slot, sk) → sk.pre = .no →
    (k.started = false → s.accessesDone sk k.who k.strands k.issued = true → ∃ t k', exec (.matrixCmdStart sp) s = .next t ∧ (t.spindle sp).mq.head? = some k' ∧ k'.started = true ∧
      k'.id = k.id ∧ k'.done = k.done) ∧
    (k.started = true → k.done < k.steps → ∀ errs, ∃ t k', exec (.matrixStep sp errs) s = .next t ∧ (t.spindle sp).mq.head? = some k' ∧
      k'.id = k.id ∧ k'.done = k.done + 1 ∧ (∀ n, n ≠ k.f.d.toNat → tileAt t sp slot n = tileAt s sp slot n) ∧
      (k.kind ≠ .tst → ∀ b, scratchAt t sp slot b = scratchAt s sp slot b) ∧
      (k.kind = .tzero → ∀ i < 64, sget (tileAt t sp slot k.f.d.toNat).bytes (64 * k.done + i) = 0) ∧
      (k.kind = .tld → k.f.d.toNat < sk.tiles.length → ∀ i < min 64 (k.rowsD * k.bprD - 64 * k.done),
        sget (tileAt t sp slot k.f.d.toNat).bytes (64 * k.done + i) = scratchAt s sp slot (k.off + 64 * k.done + i)) ∧
      (k.kind = .tst → ∀ i < min 64 (k.rowsD * k.bprD - 64 * k.done),
        (∀ e ∈ k.bad ++ errs, Defined e (e.part ≠ .d ∨ e.word ≠ (64 * k.done + i) / 8)) →
        scratchAt t sp slot (k.off + 64 * k.done + i) = sget (tileAt s sp slot k.f.d.toNat).bytes (64 * k.done + i)))

/-- A product command: the operand that is A, or B, its bytes per row, and its rows. -/
def opTile (sk : Skein) (k : MatCmd) (isA : Bool) : Tile := nth sk.tiles (if isA then k.f.a else k.f.b).toNat {}
def opBpr (k : MatCmd) (isA : Bool) : Nat := if isA then k.bprA else k.bprB
def opRows (k : MatCmd) (isA : Bool) : Nat := if isA then k.rowsA else k.rowsB

/-- IL of MMAX, and the logical K of a command (R266, R267, R271, R273). -/
def interleaved (k : MatCmd) : Bool := k.kind == .mmax && k.f.m.getLsbD 4
def kOf (k : MatCmd) : Nat :=
  if interleaved k then 96 * (k.bprA / 64) else (if k.kind = .mmas then 2 else 1) * (k.bprA * 8 / k.f.ty.bits)

/-- The value of stored element e of a row (R268, R273). -/
def storedVal (sk : Skein) (k : MatCmd) (ftz isA : Bool) (r e : Nat) : FVal :=
  let g := fun i => sget (opTile sk k isA).bytes i
  let row := r * opBpr k isA
  Ty.unpack k.f.ty ftz (BitVec.ofNat 64 (
    if interleaved k then half (g (row + 64 * (e / 96) + e % 96 / 2)) (e % 96)
    else if k.f.ty == .e2m1 then half (g (row + e / 2)) e
    else valueAt g (rangeCells (row + e * (k.f.ty.bits / 8)) (k.f.ty.bits / 8))))

/-- The first byte of an operand's scale area, and the bytes of its band scales, padded to 16 (R272). -/
def scaleArea (k : MatCmd) (isA : Bool) : Nat := 16 * bitsAt k.opw (if isA then 16 else 24) 8
def bandArea (rows : Nat) : Nat := (2 * ((rows + 63) / 64) + 15) / 16 * 16

/-- A byte that holds scales: of the tile in the interleaved layout, else of the skein's quarter of scale memory (R272, R273). -/
def scaleByte (s : State) (sp slot : Nat) (sk : Skein) (k : MatCmd) (isA : Bool) (i : Nat) : Byte :=
  if interleaved k then sget (opTile sk k isA).bytes i else sget (s.spindle sp).scale (4096 * slot + i)

/-- Block scale j of a row, of logical positions 8j to 8j + 7, and the band scale used with it (R272, R273). -/
def blockVal (s : State) (sp slot : Nat) (sk : Skein) (k : MatCmd) (ftz isA : Bool) (r j : Nat) : FVal :=
  Ty.unpack .e3m5 ftz ((scaleByte s sp slot sk k isA (if interleaved k then r * opBpr k isA + 64 * (j / 12) + 48 + j % 12
    else scaleArea k isA + bandArea (opRows k isA) + r * (kOf k / 8) + j)).setWidth 64)
def bandVal (s : State) (sp slot : Nat) (sk : Skein) (k : MatCmd) (ftz isA : Bool) (r j : Nat) : FVal :=
  let lo := if interleaved k then r * opBpr k isA + 64 * (j / 12) + 60 else scaleArea k isA + 2 * (r / 64)
  Ty.unpack .bf16 ftz (BitVec.ofNat 64 (valueAt (scaleByte s sp slot sk k isA) (rangeCells lo 2)))

/-- The stored element of row i of A at a logical position: of MMAS the one of its pair whose index says so, if there is one (R271). -/
def storedAt (k : MatCmd) (i pos : Nat) : Option Nat :=
  if k.kind = .mmas then
    [2 * (pos / 4), 2 * (pos / 4) + 1].find? fun e =>
      let n := i * (k.bprA * 8 / k.f.ty.bits) + e
      (nth k.idx (n / 16) 0).toNat / 4 ^ (n % 16) % 4 == pos % 4
  else some pos

/-- An element as it enters a product: in `.ws` mode expanded by its scales (R145). -/
def opVal (s : State) (sp slot : Nat) (sk : Skein) (k : MatCmd) (ftz isA : Bool) (r e pos : Nat) : FVal :=
  let x := storedVal sk k ftz isA r e
  if k.f.ty = .e2m1 ∧ bitsAt (k.f.m.setWidth 64) 6 2 = 2 then
    rneW24 ((x.mul (blockVal s sp slot sk k ftz isA r (pos / 8))).1.mul (bandVal s sp slot sk k ftz isA r (pos / 8))).1
  else x

/-- Node j of a level of the summation tree over the products of a block (R142). -/
def treeNode (node : Nat → Nat → FVal → FVal) (p : Nat → FVal) : Nat → Nat → FVal
  | 0, j => p j
  | n + 1, j => node (n + 1) j ((treeNode node p n (2 * j)).add .rne (treeNode node p n (2 * j + 1))).1

/-- The sum of logical K block q of output element (i, j): R142, with the nodes of R144 or R145 under SCM. -/
def productBlock (s : State) (sp slot : Nat) (sk : Skein) (k : MatCmd) (ftz : Bool) (i j q : Nat) : FVal :=
  let val := opVal s sp slot sk k ftz
  let block := blockVal s sp slot sk k ftz
  let band := bandVal s sp slot sk k ftz
  let p := fun n => match storedAt k i (32 * q + n) with
    | none => FVal.zero false
    | some e => ((val true i e (32 * q + n)).mul (val false j (32 * q + n) (32 * q + n))).1
  let node := fun (level n : Nat) (x : FVal) =>
    if k.f.ty ≠ .e2m1 then rneF32 x
    else if bitsAt (k.f.m.setWidth 64) 6 2 = 2 then rneW24 x
    else if level = 3 then
      rneF32 (x.mul ((((block true i (4 * q + n)).mul (block false j (4 * q + n))).1.mul
        ((band true i (4 * q + n)).mul (band false j (4 * q + n))).1).1)).1
    else rneF32 x
  treeNode node p 5 0

/-- The FP32 value of a tile's byte offset. -/
def tileWord (t : Tile) (a : Nat) : Word := BitVec.ofNat 64 (valueAt (fun i => sget t.bytes i) (rangeCells a 4))

/-- No copy of the skein that has started fills the tiles of a product (R281). -/
abbrev NotFilled (s : State) (sp : Nat) (k : MatCmd) : Prop :=
  ∀ q ∈ (s.spindle sp).cq, ∀ y ∈ q, y.uid = k.uid → y.started = true → y.onTile = true → y.dir = 0 → 
    y.loc ≠ k.f.a.toNat ∧ y.loc ≠ k.f.b.toNat ∧ y.loc ≠ k.f.d.toNat

/-- A byte of A that TCVT converts: of a 64-byte piece that a step before has read, as it was then (R247, R263). -/
def convertSource (sk : Skein) (k : MatCmd) (y : Nat) : Byte :=
  let taken := 64 * k.f.srcTy.bits / k.f.ty.bits
  let at_ := taken * k.done
  if taken < 64 ∧ at_ % 64 ≠ 0 ∧ at_ / 64 * 64 ≤ y ∧ y < at_ / 64 * 64 + k.piece.length then nth k.piece (y - at_ / 64 * 64) 0
  else sget (opTile sk k true).bytes y

/-- R142 to R145, R268 to R273, R275, R278: what a step of MMA, MMAS, MMAX or TCVT computes, but for values of words with an uncorrected or parity
error, in its row of A, its row of B or its word of D (R275), and while no copy that has started fills A, B or D (R281). A step that is not the last of its K
block leaves D as it is; the last adds the block's sum (in `e2m1` sparse form, two blocks' sums one after the other) to each element of its band and
column group of D, with one rounding each, under the launch's FTZ, and changes no other byte. A step of TCVT converts the elements of the next 64
bytes of D as CVT does, of a 64-byte piece of A as it was when the piece's first step read it (R263). That a copy which ran between two steps
leaves each step its own pieces is the model's (DESIGN CHOICE, log 98). -/
def ProductResults : Prop :=
  ∀ (s : State) (sp slot : Nat) (k : MatCmd) (sk : Skein) (errs : List TileErr), s.computeSpindle sp = true → s.matHead sp = some (k, slot, sk) →
    sk.pre = .no → k.started = true → k.done < k.steps → k.f.d ≠ k.f.a →
    k.f.d.toNat < sk.tiles.length →
    let ftz := (s.launch sk.launch).ftz
    let d := nth sk.tiles k.f.d.toNat {}
    (∀ b g blocks, k.kind = .mma ∨ k.kind = .mmas ∨ k.kind = .mmax → k.f.d ≠ k.f.b → NotFilled s sp k → stepOf k = (b, g, blocks) → k.bprD % 4 = 0 →
      16 * g + 16 ≤ k.bprD / 4 → ∃ t, exec (.matrixStep sp errs) s = .next t ∧
        (blocks = [] → tileAt t sp slot k.f.d.toNat = d) ∧
        (∀ i < 64, ∀ j < 16, (∀ e ∈ k.bad ++ errs, Defined e (match e.part with
            | .a => 8 * e.word / k.bprA ≠ 64 * b + i
            | .b => 8 * e.word / k.bprB ≠ 16 * g + j
            | .d => e.word ≠ ((64 * b + i) * k.bprD + 4 * (16 * g + j)) / 8)) →
          tileWord (tileAt t sp slot k.f.d.toNat) ((64 * b + i) * k.bprD + 4 * (16 * g + j)) =
          blocks.foldl (fun acc q => (Ty.round .f32 .rne false ftz
            ((Ty.unpack .f32 ftz acc).add .rne (productBlock s sp slot sk k ftz (64 * b + i) (16 * g + j) q)).1).1)
            (tileWord d ((64 * b + i) * k.bprD + 4 * (16 * g + j)))) ∧
        ∀ a, (∀ i < 64, ∀ j < 16, ∀ y < 4, a ≠ (64 * b + i) * k.bprD + 4 * (16 * g + j) + y) →
          sget (tileAt t sp slot k.f.d.toNat).bytes a = sget d.bytes a) ∧
    (k.kind = .tcvt → ∃ t, exec (.matrixStep sp errs) s = .next t ∧
      let n := k.f.ty.bits / 8
      let m := k.f.srcTy.bits / 8
      ∀ i < min 64 (k.rowsD * k.bprD - 64 * k.done) / n,
        let e := 64 * k.done / n + i
        (∀ y ∈ k.bad ++ errs, Defined y (y.part ≠ .a ∨ y.word ≠ e * m / 8)) →
        valueAt (fun y => sget (tileAt t sp slot k.f.d.toNat).bytes y) (rangeCells (e * n) n) =
          (convert k.f.ty k.f.srcTy (RMode.ofCode (bitsAt (k.f.m.setWidth 64) 0 2)) (k.f.m.getLsbD 2) ftz
            (BitVec.ofNat 64 (valueAt (convertSource sk k) (rangeCells (e * m) m)))).1.toNat % 2 ^ (8 * n))

/-- A stamp record in the ring at an address (R366): its four words, for an epoch of a tile that closes now. -/
def StampAt (t : State) (a end_ slot tile sp skein now cyc : Nat) (e : Epoch) : Prop :=
  let w := t.paRead a 8
  let span := fun (x y : Nat) => min (y - x) 0xFFFF
  let tIn := e.tIn.getD e.tOpen
  let m0 := e.tM0.getD tIn
  let m1 := if e.tM0 = none then tIn else e.tM1.getD m0
  bitsAt w 62 2 = 0 ∧ bitsAt w 60 2 = end_ ∧ bitsAt w 59 1 = e.pre.toNat ∧ bitsAt w 58 1 = 0 ∧ bitsAt w 56 2 = slot ∧ bitsAt w 52 4 = tile ∧
  bitsAt w 49 3 = 0 ∧ bitsAt w 40 9 = sp ∧ bitsAt w 32 8 = 0 ∧ bitsAt w 0 32 = skein % 2 ^ 32 ∧ t.paRead (a + 8) 8 = BitVec.ofNat 64 now ∧
  bitsAt (t.paRead (a + 16) 8) 48 16 = span e.tOpen tIn ∧ bitsAt (t.paRead (a + 16) 8) 32 16 = span tIn m0 ∧
  bitsAt (t.paRead (a + 16) 8) 16 16 = span m0 m1 ∧ bitsAt (t.paRead (a + 16) 8) 0 16 = span m1 now ∧
  bitsAt (t.paRead (a + 24) 8) 32 32 = min (cyc - e.cOpen) 0xFFFFFFFF ∧ bitsAt (t.paRead (a + 24) 8) 0 32 = cyc % 2 ^ 32

/-- n records of the accounting ring have room, in trained memory of this package, and none waits (R367, R382). -/
def RecordsFit (s : State) (n : Nat) : Prop :=
  s.string.getLsbD 63 = true ∧ n ≤ (s.strTail + ringSize s.string - s.strHead - 1) % ringSize s.string ∧ s.strWait = [] ∧ s.strReady n = true ∧
  s.strHead + n ≤ ringSize s.string ∧ ∀ i < 32 * n, s.isLocal (ringBase s.string + 32 * s.strHead + i) = true ∧
    s.present (offsetOf (ringBase s.string + 32 * s.strHead + i)) = true

/-- R366, R367: the completion of TST closes the open epoch of its tile with a record at HEAD, which goes one on, and with no other byte of memory
changed; where the ring is full or not enabled the record is lost, and counted, and an epoch that a cleared EN left open closes without one, which
counts as no loss (DEDUCED, log 36). That t_m1 is t_m0 where a matrix command has started and none has completed is the model's (DESIGN CHOICE,
log 101). -/
def StampWritten : Prop :=
  ∀ (s : State) (sp slot : Nat) (k : MatCmd) (sk : Skein) (e : Epoch), s.computeSpindle sp = true → s.matHead sp = some (k, slot, sk) →
    k.started = true → k.steps ≤ k.done → sk.life = .running → k.kind = .tst → k.f.d.toNat < 16 → slot < 4 →
    (nth sk.tiles k.f.d.toNat {}).epoch = some e →
    ∃ t, exec (.matrixCmdComplete sp) s = .next t ∧ (tileAt t sp slot k.f.d.toNat).epoch = none ∧
      (e.silent = false → RecordsFit s 1 →
        let a := ringBase s.string + 32 * s.strHead
        StampAt t a 0 slot k.f.d.toNat sp sk.index s.time (nth (t.spindle sp).ctr 0 0) e ∧ t.strHead = (s.strHead + 1) % ringSize s.string ∧
          t.strLost = s.strLost ∧ ∀ b, ¬(a ≤ b ∧ b < a + 32) → t.paByte b = s.paByte b) ∧
      (e.silent = false → s.string.getLsbD 63 = false ∨ (s.strTail + ringSize s.string - s.strHead - 1) % ringSize s.string = 0 →
        t.strLost = min (s.strLost + 1) 0xFFF ∧ t.strHead = s.strHead ∧ SameMemory s t) ∧
      (e.silent = true → t.strLost = s.strLost ∧ t.strHead = s.strHead ∧ SameMemory s t)

/-- R263, R274: a matrix command whose last step has been performed leaves MQ, and its status word goes to its barrier object. -/
def MatrixCompletes : Prop :=
  ∀ (s : State) (sp slot : Nat) (k : MatCmd) (sk : Skein), s.computeSpindle sp = true → s.matHead sp = some (k, slot, sk) →
    k.started = true → k.steps ≤ k.done → sk.life = .running →
    ∃ t, exec (.matrixCmdComplete sp) s = .next t ∧ (t.spindle sp).mq = (s.spindle sp).mq.drop 1 ∧
      Completed (scratchAt s sp slot) (scratchAt t sp slot) (bitsAt k.opw 0 16)
        (statusOf 0 k.resumed 0 k.kind.code
          (match k.kind with | .tld | .tst => k.rowsD * k.bprD | .tzero => 16384 | _ => k.steps) ||| k.bits)

/-- The skein in a slot has an axis map. -/
def axisAt (s : State) (sp slot : Nat) (ca : Bool) : AxisMap := ((s.skein? sp slot).getD {}).axis ca

/-- R292, R293, R294, R297, R307, R309: the head of XQ starts when its issuer's earlier accesses have been performed, what it waits for has completed
and no admitted read or write stands at the boundary. A step or fill has its phases to come; a schedule
starts from counts of 0; XRATION, XSTAT, XMAP and XMAP.wr are performed at once and leave the queue. -/
def CrossbarStarts : Prop :=
  ∀ (s : State) (sp slot : Nat) (k : XqCmd) (sk : Skein) (xre : Bool), s.computeSpindle sp = true → s.xqHead sp = some (k, slot, sk) →
    k.started = false → sk.pre = .no → (s.spindle sp).pendingOf k.after = [] → s.heldWaits sp = false →
    s.accessesDone sk k.who k.strands k.issued = true →
    let gone := fun (t : State) => (t.spindle sp).xq = (s.spindle sp).xq.drop 1
    (k.kind = .step ∨ k.kind = .fill → ∃ t, exec (.xqCmdStart sp xre) s = .next t ∧ (t.spindle sp).xq.head? = some { k with started := true }) ∧
    (k.kind = .run → ∃ t k', exec (.xqCmdStart sp xre) s = .next t ∧ (t.spindle sp).xq.head? = some k' ∧ k'.started = true ∧ k'.step = k.step ∧
      ∀ ca line, (axisAt t sp slot ca).count line = 0) ∧
    (k.kind = .ration → ∃ t, exec (.xqCmdStart sp xre) s = .next t ∧ gone t ∧ ((t.skein? sp slot).map Skein.ration) = some k.a.toNat ∧
      ∀ ca line, (axisAt t sp slot ca).count line = 0) ∧
    (k.kind = .stat → ∃ t, exec (.xqCmdStart sp xre) s = .next t ∧ gone t ∧ Delivered s t sp slot k.id
      (if k.a.getLsbD 63 then BitVec.ofNat 64 ((sk.axis (k.a.getLsbD 7)).count (896 + bitsAt k.a 0 7))
       else (sget (s.spindle sp).life (lifeKey (nth sk.arrays (bitsAt k.a 8 10) 0) (k.a.getLsbD 7) (896 + bitsAt k.a 0 7))).setWidth 64)) ∧
    (k.kind = .map → ∃ t, exec (.xqCmdStart sp xre) s = .next t ∧ gone t ∧ Delivered s t sp slot k.id (BitVec.ofNat 64
      (nth (if k.a.getLsbD 7 then (sk.axis (k.a.getLsbD 6)).pool else (sk.axis (k.a.getLsbD 6)).map) (bitsAt k.a 0 6) 0))) ∧
    (k.kind = .mapWr → bitsAt k.a 0 6 < (sk.axis (k.a.getLsbD 6)).map.length → ∃ t, exec (.xqCmdStart sp xre) s = .next t ∧ gone t ∧
      nth (axisAt t sp slot (k.a.getLsbD 6)).map (bitsAt k.a 0 6) 0 = k.b.toNat) ∧
    (k.kind = .rdq → ∃ t, exec (.xqCmdStart sp xre) s = .next t ∧ gone t ∧ (xre = false → ∀ a, k.accs = [(0, a)] →
      Delivered s t sp slot k.id (xreadWord (s.spindle sp) sk k.f a)))

/-- The gates (R300): NOT, NOR, three-input NOR, NAND, OR and AND, by number; and the value each presets (R301). -/
def gateOut (g : Nat) (a b e : Bool) : Bool :=
  match g with
  | 0 => !a | 1 => !(a || b) | 2 => !(a || b || e) | 3 => !(a && b) | 4 => a || b | _ => a && b

/-- A command whose next step may begin: over at most 64 arrays, with nothing to wait for (R287, R293, R294). -/
abbrev StepReady (s : State) (sp slot : Nat) (k : XqCmd) (sk : Skein) : Prop :=
  s.computeSpindle sp = true ∧ s.xqHead sp = some (k, slot, sk) ∧ k.started = true ∧ k.finished = false ∧ sk.pre = .no ∧ sk.life = .running ∧
  s.heldWaits sp = false ∧ (s.spindle sp).pendingOf k.after = [] ∧ WindowLegal sk.arrays.length k.win ∧ bitsAt k.win 10 11 ≤ 64 ∧
  sk.arrays.Nodup ∧ (∀ ca, ∀ y ∈ (sk.axis ca).map, 896 ≤ y ∧ y < 1024)

/-- A direct step whose scratch line needs no rotation (R288 to R290). -/
abbrev DirectStep (s : State) (sp slot : Nat) (k : XqCmd) (sk : Skein) (writes : Nat) : Prop :=
  StepReady s sp slot k sk ∧ k.kind = .step ∧ k.inStep = false ∧
  k.f.d.toNat < 0x40 ∧ (sk.axis (k.f.m.getLsbD 6)).map.length = 64 ∧
  (sk.axis (k.f.m.getLsbD 6)).count (nth (sk.axis (k.f.m.getLsbD 6)).map k.f.d.toNat 0) + writes ≤ sk.ration

/-- The cells that a step writes on a line of an axis, from a value for each physical array and position; every other cell is as before (R282). -/
def StepWrites (s t : State) (sp : Nat) (k : XqCmd) (sk : Skein) (ca : Bool) (line : Nat) (val : Nat → Nat → Bool) : Prop :=
  let there := fun arr pos => ∃ a, bitsAt k.win 0 10 ≤ a ∧ a < bitsAt k.win 0 10 + bitsAt k.win 10 11 ∧ sk.arrays[a]? = some arr ∧
    bitsAt k.win 32 10 ≤ pos ∧ pos < bitsAt k.win 32 10 + bitsAt k.win 42 11
  (∀ arr pos, there arr pos → (t.spindle sp).cell arr ca line pos = val arr pos) ∧
  ∀ key, (∀ arr pos, there arr pos → key ≠ cellKey arr ca line pos) → sget (t.spindle sp).cells key = sget (s.spindle sp).cells key

/-- R289, R291, R300, R301: the phase of an XINIT presets every cell of its output line in the window, counts one write and notes the
preset; the phase of an XG on a line that the preceding step of this window preset leaves the gate's value of the input lines. -/
def CrossbarPhase : Prop :=
  ∀ (s : State) (sp slot : Nat) (k : XqCmd) (sk : Skein), DirectStep s sp slot k sk 1 →
    let ca := k.f.m.getLsbD 6
    let m := sk.axis ca
    let line := nth m.map k.f.d.toNat 0
    (k.form = 2 → ∃ t, exec (.xbarWritePhase sp false) s = .next t ∧ (t.spindle sp).xq = (s.spindle sp).xq.drop 1 ∧
      StepWrites s t sp k sk ca line (fun _ _ => k.f.m.getLsbD 0) ∧ (axisAt t sp slot ca).count line = m.count line + 1 ∧
      (axisAt t sp slot ca).tag line = .preset (k.f.m.getLsbD 0) k.win) ∧
    (k.form = 0 → k.f.gate < 6 → CodesLegal k.win [k.f.a.toNat, k.f.b.toNat, k.f.c.toNat] →
      m.tag line = .preset (decide (k.f.gate < 4)) k.win →
      ∃ t, exec (.xbarWritePhase sp false) s = .next t ∧ (t.spindle sp).xq = (s.spindle sp).xq.drop 1 ∧
        StepWrites s t sp k sk ca line (fun arr pos => gateOut k.f.gate
          ((s.spindle sp).cell arr ca (m.line k.win k.f.a.toNat) pos) ((s.spindle sp).cell arr ca (m.line k.win k.f.b.toNat) pos)
          ((s.spindle sp).cell arr ca (m.line k.win k.f.c.toNat) pos)) ∧
        (axisAt t sp slot ca).count line = m.count line + 1 ∧ (axisAt t sp slot ca).tag line = .none) ∧
    (k.form = 0 → k.f.gate < 6 → m.tag line ≠ .preset (decide (k.f.gate < 4)) k.win →
      ∃ t, exec (.xbarWritePhase sp false) s = .next t ∧ (t.spindle sp).xq = (s.spindle sp).xq.drop 1 ∧
        ((t.skein? sp slot).map fun y => y.xpend.getLsbD 47) = some true ∧
        ∃ val, StepWrites s t sp k sk ca line val)

/-- R300: XG.p takes two phases: the first presets every cell of the output line in the window to the gate's value, with the operands resolved; the
second leaves the gate's value of the input lines as they are then, counts two writes, and leaves no tag. -/
def PresetGate : Prop :=
  ∀ (s : State) (sp slot : Nat) (k : XqCmd) (sk : Skein), k.form = 1 → k.f.gate < 6 → CodesLegal k.win [k.f.a.toNat, k.f.b.toNat, k.f.c.toNat] →
    let ca := k.f.m.getLsbD 6
    let m := sk.axis ca
    (DirectStep s sp slot k sk 2 → let line := nth m.map k.f.d.toNat 0
      ∃ t k', exec (.xbarWritePhase sp false) s = .next t ∧ (t.spindle sp).xq.head? = some k' ∧ k'.inStep = true ∧ k'.phase = 1 ∧ k'.group = 0 ∧
        k'.line = line ∧ k'.ins = ([k.f.a.toNat, k.f.b.toNat, k.f.c.toNat].take (gateInputs k.f.gate)).map (fun x => (ca, m.line k.win x)) ∧
        StepWrites s t sp k sk ca line (fun _ _ => decide (k.f.gate < 4)) ∧ (axisAt t sp slot ca).count line = m.count line) ∧
    (StepReady s sp slot k sk → k.kind = .step → k.inStep = true → k.phase = 1 → k.group = 0 → 896 ≤ k.line → k.line < 1024 → k.f.d.toNat < 0x40 →
      ∀ l0 l1 l2, k.ins = ([l0, l1, l2].take (gateInputs k.f.gate)).map (fun x => (ca, x)) →
      ∃ t, exec (.xbarWritePhase sp false) s = .next t ∧ (t.spindle sp).xq = (s.spindle sp).xq.drop 1 ∧
        StepWrites s t sp k sk ca k.line (fun arr pos => gateOut k.f.gate ((s.spindle sp).cell arr ca l0 pos) ((s.spindle sp).cell arr ca l1 pos)
          ((s.spindle sp).cell arr ca l2 pos)) ∧
        (axisAt t sp slot ca).count k.line = m.count k.line + 2 ∧ (axisAt t sp slot ca).tag k.line = .none)

/-- R305: XFILL writes bit p of its pattern to position p of the window, p counted from L0, on a data line or, with one write counted, on a scratch
line; the command has then performed its one step. That the pattern, kept in 32-bit words, comes over again is DEDUCED (log 43). -/
def FillPhase : Prop :=
  ∀ (s : State) (sp slot : Nat) (k : XqCmd) (sk : Skein), StepReady s sp slot k sk → k.kind = .fill → k.inStep = false → k.data ≠ [] →
    CodesLegal k.win [k.f.d.toNat] →
    let ca := k.f.m.getLsbD 4
    let m := sk.axis ca
    let line := if k.f.d.toNat < 0x40 then nth m.map k.f.d.toNat 0 else bitsAt k.win 54 10 + (k.f.d.toNat - 0x40)
    (k.f.d.toNat < 0x40 → m.map.length = 64 ∧ m.count line + 1 ≤ sk.ration) →
    ∃ t k', exec (.xbarWritePhase sp false) s = .next t ∧ (t.spindle sp).xq.head? = some k' ∧ k'.finished = true ∧ k'.words = k.words + 1 ∧
      StepWrites s t sp k sk ca line (fun _ pos =>
        let p := pos - bitsAt k.win 32 10
        (nth k.data (p / 32 % k.data.length) 0).getLsbD (p % 32)) ∧
      (k.f.d.toNat < 0x40 → (axisAt t sp slot ca).count line = m.count line + 1)

/-- R290: a step of an XINIT whose line would pass the ration writes the first line of the pool that would not, in its place: the lines before it in the
pool go to its tail, and the old line behind them; status bit ROT is noted. With no such line nothing is written, the step ends, and ROUT is noted. -/
def Rotation : Prop :=
  ∀ (s : State) (sp slot : Nat) (k : XqCmd) (sk : Skein), StepReady s sp slot k sk → k.kind = .step → k.form = 2 → k.inStep = false →
    k.f.d.toNat < 0x40 →
    let ca := k.f.m.getLsbD 6
    let m := sk.axis ca
    let line := nth m.map k.f.d.toNat 0
    m.map.length = 64 → sk.ration < m.count line + 1 → (∀ y ∈ m.pool, 896 ≤ y ∧ y < 1024) →
    (∀ pre q post, m.pool = pre ++ q :: post → (∀ y ∈ pre, sk.ration < m.count y + 1) → m.count q + 1 ≤ sk.ration →
      ∃ t, exec (.xbarWritePhase sp false) s = .next t ∧ (t.spindle sp).xq = (s.spindle sp).xq.drop 1 ∧
        StepWrites s t sp k sk ca q (fun _ _ => k.f.m.getLsbD 0) ∧ nth (axisAt t sp slot ca).map k.f.d.toNat 0 = q ∧
        (axisAt t sp slot ca).pool = post ++ pre ++ [line] ∧ (axisAt t sp slot ca).count q = m.count q + 1 ∧
        ((t.skein? sp slot).map fun y => y.xpend.getLsbD 46) = some true) ∧
    ((∀ y ∈ m.pool, sk.ration < m.count y + 1) →
      ∃ t, exec (.xbarWritePhase sp false) s = .next t ∧ (t.spindle sp).xq = (s.spindle sp).xq.drop 1 ∧
        (t.spindle sp).cells = (s.spindle sp).cells ∧ axisAt t sp slot ca = m ∧ ((t.skein? sp slot).map fun y => y.xpend.getLsbD 45) = some true)

/-- R297: a step word of a schedule does to the cells, the lifetime counters and the maps what the instruction of the same word does as a direct step;
of an XINIT or XG word that finds its line, the command is then at the next word, or at the first of the next repeat, or, after the last
repeat's last word, has finished. -/
def ScheduleWord : Prop :=
  ∀ (s : State) (sp slot : Nat) (k : XqCmd) (sk : Skein) (w : Word) (xre : Bool), StepReady s sp slot k sk → k.kind = .run → k.inStep = false →
    let sched := nth (s.launch sk.launch).scheds k.a.toNat []
    sched[k.step]? = some w →
    let form := if bitsAt w 56 8 = 0xC1 then 2 else if bitsAt w 52 4 = 1 then 1 else 0
    let d : XqCmd := { k with kind := .step, form := form, f := Fields.ofWord w 0 }
    ∃ t u, exec (.xbarWritePhase sp xre) s = .next t ∧ exec (.xbarWritePhase sp xre) (s.modXq sp fun _ => d) = .next u ∧
      (t.spindle sp).cells = (u.spindle sp).cells ∧ (t.spindle sp).life = (u.spindle sp).life ∧ (∀ ca, axisAt t sp slot ca = axisAt u sp slot ca) ∧
      (form ≠ 1 → (Fields.ofWord w 0).d.toNat < 0x40 → (sk.axis ((Fields.ofWord w 0).m.getLsbD 6)).map.length = 64 →
        (sk.axis ((Fields.ofWord w 0).m.getLsbD 6)).count (nth (sk.axis ((Fields.ofWord w 0).m.getLsbD 6)).map (Fields.ofWord w 0).d.toNat 0) + 1 ≤ sk.ration →
        ∃ k', (t.spindle sp).xq.head? = some k' ∧ k'.words = k.words + 1 ∧
          (k.step + 1 < sched.length → k'.step = k.step + 1 ∧ k'.rep = k.rep ∧ k'.finished = false) ∧
          (k.step + 1 = sched.length → k'.step = 0 ∧ k'.rep = k.rep + 1 ∧ k'.finished = decide (k.b.toNat ≤ k.rep + 1)))

/-- R295, R296: a finished XRUN or XFILL leaves XQ; its status word, with what direct steps before it left for the next status, goes to its
barrier object. -/
def CrossbarCompletes : Prop :=
  ∀ (s : State) (sp slot : Nat) (k : XqCmd) (sk : Skein), s.computeSpindle sp = true → s.xqHead sp = some (k, slot, sk) → k.finished = true →
    sk.life = .running →
    ∃ t, exec (.xqCmdComplete sp) s = .next t ∧ (t.spindle sp).xq = (s.spindle sp).xq.drop 1 ∧ ((t.skein? sp slot).map Skein.xpend) = some 0 ∧
      Completed (scratchAt s sp slot) (scratchAt t sp slot) (bitsAt k.opw 0 16)
        (statusOf 0 k.resumed 0 (if k.kind = .fill then 13 else 12) (k.words % 2 ^ 32) ||| k.bits ||| sk.xpend)

/-- R294, R303: at a step boundary the first read that waits for nothing is admitted, and the distaff's register takes the word its address
names; the first such write, no earlier read of its issuer being free, stores its words in its cells, thread by thread. How a read and a write of different
issuers are ordered at a boundary is the model's (DESIGN CHOICE, log 103). -/
def CrossbarAdmits : Prop :=
  ∀ (s : State) (sp slot : Nat) (h : XHeld) (k : Skein), s.computeSpindle sp = true → (s.spindle sp).boundary = true →
    (s.spindle sp).slotOf h.uid = some slot → s.skein? sp slot = some k → s.settling h.uid = false →
    (s.xready sp false = some h → ∃ t, exec (.xrdAdmit sp false) s = .next t ∧
      (t.spindle sp).xheld = (s.spindle sp).xheld.filter (fun x => x.id != h.id) ∧ (t.spindle sp).cells = (s.spindle sp).cells ∧
      ∀ a z, h.accs = [(0, a, z)] → Delivered s t sp slot h.id (xreadWord (s.spindle sp) k h.f a)) ∧
    (s.xready sp true = some h → ∃ t, exec (.xwrPerform sp) s = .next t ∧
      (t.spindle sp).xheld = (s.spindle sp).xheld.filter (fun x => x.id != h.id) ∧ ∀ th a x, h.accs = [(th, a, x)] → ∀ i < 64,
        (t.spindle sp).cell (nth k.arrays (bitsAt a 20 10) 0) (h.f.m.getLsbD 6) (bitsAt a 10 10) (64 * bitsAt a 6 4 + i) = x.getLsbD i)

end Sys2Proof.Claims

open Sys2Proof.Claims

/-- R240, R243 to R252, R255: the life of a copy command, from its start over its pieces to its status. -/
def Sys2Proof.Claims.CopySteps : Prop := CopyStarts ∧ CopyCompletes

/-- R142 to R145, R261 to R263, R268 to R278: the life of a matrix command, and the results of the products. -/
def Sys2Proof.Claims.MatrixCommandSteps : Prop := MatrixSteps ∧ MatrixCompletes

/-- R282 to R309: the life of a crossbar command, and of ordinary reads and writes. -/
def Sys2Proof.Claims.CrossbarSteps : Prop := CrossbarStarts ∧ CrossbarPhase ∧ CrossbarCompletes ∧ CrossbarAdmits

/-- R239 to R257, R262 to R278, R289 to R309: commands start, go on and complete in the copy engine, the matrix engine and the crossbar unit. -/
def Obligations.EngineSteps : Prop := CopySteps ∧ MatrixCommandSteps ∧ CrossbarSteps

namespace Sys2Proof.Claims

/-- A system core may run a write of a register now: it is there and runs, no interrupt is pending on it, and its log lets it (R372, R384). -/
abbrev CoreMay (s : State) (n reg : Nat) : Prop := s.coreReady n (.csrw (csrwFields reg)) = true

/-- The core's instruction has retired, and no register of it has changed. -/
def Retires (s t : State) (n : Nat) : Prop := (t.core n).retired = (s.core n).retired + 1 ∧ (t.core n).gpr = (s.core n).gpr

/-- A translation of a value of mmu.shoot lies in its range (R225): every translation of the address space, or those that meet the block. -/
def InRange (v : Word) (x : Xlat) : Prop := ∃ r, shootRange v = some r ∧ r.covers x = true

/-- R225, R226: a shootdown whose accesses have all been performed removes every held translation of its range and no other, and until then does not
retire; from then on a walk in its range reads its entries in memory, and one in another address space those it read before. A wake removes the held
Not-mapped walks of its range and no other, and marks the held accesses whose page it covers. -/
def TranslationWrites : Prop :=
  ∀ (s : State) (n : Nat) (v : Word), CoreMay s n 0x0603 →
    (v.getLsbD 11 = false → s.shootReady v = true → ∃ t, exec (.mmuShootdown (.core n) v) s = .next t ∧ SameMemory s t ∧ Retires s t n ∧
      (∀ r, shootRange v = some r → ∀ asid root va, (r.hasPage asid va = true → t.inForce asid root va = walkFrom t (fun a => t.paRead a 8) va levels root) ∧
        (asid ≠ r.asid → t.inForce asid root va = s.inForce asid root va)) ∧
      (∀ sp x, x ∈ (t.spindle sp).tlb ↔ x ∈ (s.spindle sp).tlb ∧ ¬InRange v x) ∧ ∀ fr x, x ∈ (t.frame fr).tlb ↔ x ∈ (s.frame fr).tlb ∧ ¬InRange v x) ∧
    (v.getLsbD 11 = false → s.shootReady v = false → exec (.mmuShootdown (.core n) v) s = .next s) ∧
    (v.getLsbD 11 = true → ∃ t, exec (.mmuWake (.core n) v) s = .next t ∧ SameMemory s t ∧ Retires s t n ∧
      (∀ sp x, x ∈ (t.spindle sp).tlb ↔ x ∈ (s.spindle sp).tlb ∧ ¬(InRange v x ∧ x.page = none)) ∧
      ∀ r, shootRange v = some r → ∀ sp slot k y h pg, s.skein? sp slot = some k → y < k.plies.length → (k.ply y).held = some h → pg ∈ h.pages →
        r.hasPage (s.launch k.launch).asid pg.toNat = true →
        ((t.skein? sp slot).bind fun k' => (k'.ply y).held) = some { h with woken := true })

/-- R231, R233, R236: a write of mmu.fq sets the ring up, empty; of TAIL makes room; of mmu.hotcfg sets it, and clears every counter where EN is 0;
of mem.cfg sets the package number and the selected stack's reserved SRAM, at most 16. Each where no record waits. -/
def MemoryUnitWrites : Prop :=
  ∀ (s : State) (n : Nat) (v : Word),
    (CoreMay s n 0x0604 → s.fqWait = [] → ∃ t, exec (.mmuFqWrite (.core n) v) s = .next t ∧ t.fq = v &&& 0x800FFFFFFFFFF00F ∧ t.fqHead = 0 ∧ t.fqTail = 0 ∧
      SameMemory s t ∧ Retires s t n) ∧
    (CoreMay s n 0x0605 → s.fqWait = [] → ∃ t, exec (.fqptrTailWrite (.core n) v) s = .next t ∧ t.fqTail = bitsAt v 0 20 ∧ t.fqHead = s.fqHead ∧
      SameMemory s t ∧ Retires s t n) ∧
    (CoreMay s n 0x0606 → ∃ t, exec (.hotcfgWrite (.core n) v) s = .next t ∧ t.hotcfg = v &&& 0xF800FFFFFF00FFFF ∧
      (∀ key, sget t.hot key = if v.getLsbD 63 then sget s.hot key else 0) ∧ SameMemory s t ∧ Retires s t n) ∧
    (CoreMay s n 0x0607 → ∃ t, exec (.memCfgWrite (.core n) v) s = .next t ∧ Retires s t n ∧ t.pkg.toNat = bitsAt v 56 6 ∧ (t.die s.mcStack.toNat).res = min (bitsAt v 0 5) 16 ∧
      ∀ off, off < 0x2000000000 → sget t.mem off = sget s.mem off)

/-- R226: a write of mmu.as by a system core sets EN, PRIV and ROOT of the selected address space. While skeins use it, of pre-empted ones too (DESIGN
CHOICE, log 106), a launch accepted before stays under the values before: its root, and what its checks will take where they are still to be made. With
none, a launch of the space takes the new ones. -/
def SpaceWrites : Prop :=
  ∀ (f : Fields) (s : State) (n : Nat), s.cur = .core n → CoreReady (s.core n) → f.csr = 0x0601 → f.a.toNat < 0x20 →
    let v := gprOf s n f.a
    let a := s.assel.toNat
    let used := ∃ p ∈ s.allSkeins, (s.launch p.2.launch).asid = a
    ∃ t, exec (.csrw f) s = .next t ∧ SameMemory s t ∧ Retires s t n ∧ (∀ b, b ≠ a → t.space b = s.space b) ∧
      t.space a = { s.space a with en := v.getLsbD 63, priv := bitsAt v 52 11, root := bitsAt v 12 40 * 4096 } ∧
      ∀ acc l, aget? s.launches acc = some l → ∃ l', aget? t.launches acc = some l' ∧ l'.asid = l.asid ∧
        (used → l'.root = l.root ∧ l'.priv = l.priv ∧ (l.toCheck.isSome = true → l.kept = [] →
          (l'.spaceOf t a).en = (s.space a).en ∧ (l'.spaceOf t a).root = (s.space a).root ∧ (l'.spaceOf t a).priv = (s.space a).priv)) ∧
        (¬used → l'.spaceOf t a = t.space a ∧ (l.asid = a → l'.root = (t.space a).root ∧ l'.priv = (t.space a).priv))

/-- The element data and the scale region of a range, each from its first byte to its end (R147, R148). -/
def rangeAreas (base geom scale : Word) : List (Nat × Nat) :=
  let rows := bitsAt geom 24 24
  let kblk := bitsAt geom 0 16
  let b := bitsAt base 21 31 * 2 ^ 21
  let sb := bitsAt scale 6 46 * 64
  [(b, b + rows * 16 * kblk), (sb, sb + ((rows + 63) / 64 * 2 + 63) / 64 * 64 + rows * 4 * kblk)]

/-- An area of a range that would be enabled overlaps one of another enabled range of the die. -/
def Overlaps (s : State) (r : Range) (v : Word) : Prop :=
  ∃ i < 8, i ≠ s.mcRange.toNat ∧ let q := nth (s.die s.mcStack.toNat).ranges i {}
    q.base.getLsbD 63 = true ∧ ∃ a ∈ rangeAreas v r.geom r.scale, ∃ b ∈ rangeAreas q.base q.geom q.scale, a.1 < b.2 ∧ b.1 < a.2

/-- The selected range has accepted reads of a copy that has not completed, of a resident skein or of a pre-empted one (R149). -/
abbrev RangeAccepts (s : State) : Prop :=
  ∃ p ∈ s.spindles, ∃ k : CopyCmd, (k ∈ p.2.cq.flatten ∨ ∃ v ∈ p.2.saved, ∃ q ∈ v.copies, q.2 = k) ∧ k.result = none ∧
    (s.mcStack.toNat, s.mcRange.toNat) ∈ k.ranges

/-- R147, R149: a write of mc.frbase that leaves EN clear sets the selected range; one that sets EN sets it too where the format is 9, the range has rows and K
blocks, and neither of its areas overlaps another enabled range of the die, and is ignored otherwise, but retires. That a range which is enabled
already is not held to its own present areas is the model's (DESIGN CHOICE, log 85). While reads that the range has accepted go on, a write that would
change the range waits (R149); that a range accepts the reads of a whole command when the command begins is the model's (DESIGN CHOICE, log 105). -/
def RangeWrites : Prop :=
  ∀ (s : State) (n : Nat) (v : Word), CoreMay s n 0x0401 →
    let r := nth (s.die s.mcStack.toNat).ranges s.mcRange.toNat {}
    let legal := bitsAt v 56 4 = 9 ∧ bitsAt r.geom 24 24 ≠ 0 ∧ bitsAt r.geom 0 16 ≠ 0 ∧ ¬Overlaps s r v
    (v.getLsbD 63 = false ∨ legal → s.mcRange.toNat < (s.die s.mcStack.toNat).ranges.length →
      (¬RangeAccepts s → ∃ t, exec (.mcFrbaseWrite (.core n) v) s = .next t ∧
        nth (t.die s.mcStack.toNat).ranges s.mcRange.toNat {} = { r with base := v &&& 0x8F0FFFFFFFE00000 } ∧ SameMemory s t ∧ Retires s t n) ∧
      (RangeAccepts s → r.base ≠ v &&& 0x8F0FFFFFFFE00000 → exec (.mcFrbaseWrite (.core n) v) s = .next s)) ∧
    (v.getLsbD 63 = true → ¬legal → exec (.mcFrbaseWrite (.core n) v) s = .next (s.coreRetire n))

/-- A block but for what the model keeps of R82: whether its budgets have been lowered below use. -/
def plainRcb (b : Rcb) : Rcb := { b with lowSpindles := false, lowArrays := false }

/-- R82: after a sync from s to t, no skein of a region or of one below it fits while the use of one of its budgets has not fallen below the budget since a
sync lowered it below use; once use is below, or the budget raised above it, the wait is over. That it is over for good is DEDUCED (log 84). -/
def BudgetsWait (s t : State) : Prop :=
  ∀ (a : Nat) (b old : Rcb), t.rcb? a = some b → s.rcb? a = some old →
    (t.effSpindles a < s.effSpindles a → t.effSpindles a < t.spindlesHeld a → b.lowSpindles = true) ∧
    (t.effArrays a < s.effArrays a → t.effArrays a < t.arraysHeld a → b.lowArrays = true) ∧
    (t.spindlesHeld a < t.effSpindles a → b.lowSpindles = false) ∧ (t.arraysHeld a < t.effArrays a → b.lowArrays = false) ∧
    (old.lowSpindles = true → t.effSpindles a ≤ t.spindlesHeld a → b.lowSpindles = true) ∧
    (old.lowArrays = true → t.effArrays a ≤ t.arraysHeld a → b.lowArrays = true) ∧
    (b.lowSpindles = true ∨ b.lowArrays = true → ∀ sp acc idx, t.under (t.launch acc).lrec.region.toNat a = true → t.fits sp acc idx = false)

/-- R58, R60, R82: a write of ctl.rcbsync reads a region's block again, but for its parent, once its memory can be reached; where the block or its chain then
breaks R58, or the value has a reserved bit set, nothing changes; nor where no launch has named the block (DEDUCED, log 52). Where it lowers a budget
below its use, placement for the region and those below it waits until use falls below the budget. -/
def RegionWrites : Prop :=
  ∀ (s : State) (n : Nat) (v : Word), CoreMay s n 0x0101 →
    (v.toNat % 64 ≠ 0 ∨ bitsAt v 56 8 ≠ 0 → exec (.rcbsyncWrite (.core n) v) s = .next (s.coreRetire n)) ∧
    (v.toNat % 64 = 0 → bitsAt v 56 8 = 0 → s.readsAll v.toNat 128 = false → exec (.rcbsyncWrite (.core n) v) s = .next s) ∧
    (v.toNat % 64 = 0 → bitsAt v 56 8 = 0 → s.readsAll v.toNat 128 = true → s.rcb? v.toNat = none →
      exec (.rcbsyncWrite (.core n) v) s = .next (s.coreRetire n)) ∧
    (∀ old, v.toNat % 64 = 0 → bitsAt v 56 8 = 0 → s.rcb? v.toNat = some old → s.readsAll v.toNat 128 = true →
      let new : Rcb := { s.readRcb v.toNat with parent := old.parent, lowSpindles := old.lowSpindles, lowArrays := old.lowArrays }
      let s' : State := { s with rcbs := s.rcbs.map fun x => if x.addr == v.toNat then new else x }
      (s'.chainOk v.toNat = true → ∃ t, exec (.rcbsyncWrite (.core n) v) s = .next t ∧ (t.rcb? v.toNat).map plainRcb = some (plainRcb new) ∧
        (∀ a, a ≠ v.toNat → (t.rcb? a).map plainRcb = (s.rcb? a).map plainRcb) ∧ BudgetsWait s t ∧ SameMemory s t ∧ Retires s t n) ∧
      (s'.chainOk v.toNat = false → exec (.rcbsyncWrite (.core n) v) s = .next (s.coreRetire n)))

/-- R367, R386: a write of acct.string starts the ring again, with nothing lost, and one that clears EN leaves the open epochs to close without a
record; any write of link.stat clears the selected link's error count and nothing else of it. -/
def RecordWrites : Prop :=
  ∀ (s : State) (n : Nat) (v : Word),
    (CoreMay s n 0x0A00 → ∃ t, exec (.acctStringWrite (.core n) v) s = .next t ∧ Retires s t n ∧
      (∀ sp slot i, (tileAt t sp slot i).epoch = if v.getLsbD 63 then (tileAt s sp slot i).epoch
        else (tileAt s sp slot i).epoch.map fun e => { e with silent := true }) ∧ t.string = v &&& 0x800FFFFFFFFFF00F ∧ t.strHead = 0 ∧ t.strTail = 0 ∧ t.strLost = 0 ∧
      SameMemory s t) ∧
    (CoreMay s n 0x0905 → ∃ t, exec (.linkStatWrite (.core n) v) s = .next t ∧ Retires s t n ∧ agetD t.links s.pwrLink.toNat {} =
      { agetD s.links s.pwrLink.toNat {} with crcErr := 0 } ∧ ∀ k, k ≠ s.pwrLink.toNat → agetD t.links k {} = agetD s.links k {})

/-- R370: a write of dbg.rel lets the path it names, held at a BKPT, go on. -/
def HoldReleased : Prop :=
  ∀ (s : State) (n : Nat) (v : Word) (c : Ctx), CoreMay s n 0x0A06 → s.ctx? (.path (bitsAt v 15 9) (bitsAt v 13 2) (bitsAt v 9 4) (bitsAt v 5 4)) = some c →
    c.waitNow = .debug → c.ply.curDefs = [] →
    ∃ t, exec (.dbgRelease (.core n) v) s = .next t ∧ c.pcIn t = c.pc + 8 ∧ waitIn c t = .none ∧ SameV c s t ∧ SameS c s t ∧ SameMemory s t ∧ Retires s t n

/-- R391: a write of sync.bsq by a core offers a launch, with the record at its address, for one base spindle; the write
retires once it is accepted. -/
def BaseOffer : Prop :=
  ∀ (s : State) (n : Nat) (v : Word), CoreMay s n 0x0803 → s.hasBsv = true → bitsAt v 62 2 < s.nStacks →
    v.getLsbD 61 = false → bitsAt v 56 2 = 0 → bitsAt v 0 6 = 0 → s.readsAll (bitsAt v 6 50 * 64) 384 = true →
    ∃ t o, exec (.syncBsqWrite (.core n) v) s = .next t ∧ t.offers = s.offers ++ [o] ∧ o.who = .core n ∧ o.addr.toNat = bitsAt v 6 50 * 64 ∧
      o.bytes = s.paBytes (bitsAt v 6 50 * 64) 384 ∧
      o.base = some (0x100 + 8 * bitsAt v 62 2 + bitsAt v 58 3) ∧ o.nw = false ∧ (t.core n).wait = .launch none ∧
      (t.core n).retired = (s.core n).retired ∧ SameMemory s t

/-- A value of a register that selects a unit names one that the part does not have (R7, R76, R147, R284, R351, R371, R376, R391). -/
def NamesAbsent (s : State) (reg : Nat) (v : Word) : Prop :=
  match reg with
  | 0x0200 => s.nFrames ≤ bitsAt v 0 4
  | 0x0400 => s.nStacks ≤ bitsAt v 4 2
  | 0x0510 => s.spindlePresent (bitsAt v 8 9) = false
  | 0x0701 => s.nSpindles ≤ bitsAt v 0 8
  | 0x0803 => s.hasBsv = false ∨ s.nStacks ≤ bitsAt v 62 2
  | 0x0900 => s.nFrames ≤ bitsAt v 0 4 ∨ s.nLinks ≤ bitsAt v 16 4
  | 0x0A03 => s.spindlePresent (bitsAt v 16 9) = false
  | _ => False

/-- R7: a write that selects, or starts work on, a unit beyond the part's count is UNIT_ABSENT at check 7, and changes nothing but that trap, which the
core records (DESIGN CHOICE, log 5). -/
def UnitAbsent : Prop :=
  ∀ (s : State) (n : Nat) (f : Fields), s.cur = .core n → (s.core n).stuck [f.a] = false → coreRegsOk [] [f.a] = true →
    NamesAbsent s f.csr (s.coreRd n f.a) →
    ∃ tr, exec (.csrw f) s = .next (s.modCore n fun k => { k with trap := some tr }) ∧ tr.kind = .unitAbsent ∧ tr.check = 7

/-- R384, R385: while no operation is in progress, a write of sec.op begins an extension of a measurement slot other than 0, which hashes the slot with 64
bytes of memory into it, or an attestation, which writes its report to memory, each ending once its memory can be reached; slot 0 is never extended,
and a write meanwhile is ignored. -/
def SecurityWrites : Prop :=
  ∀ (s : State) (n : Nat) (v : Word), let slot := bitsAt v 56 3
    let pa := bitsAt v 6 46 * 64
    let mine := v &&& 0x070FFFFFFFFFFFC0
    ((CoreMay s n 0x0908 ∧ s.secPend = 0 ∧ bitsAt v 62 2 = 1) ∨ (s.secPend = 1 ∧ s.secOp = mine) → slot ≠ 0 → s.readsAll pa 64 = true →
      ∃ t, exec (.secExtend (.core n) v) s = .next t ∧ SameMemory s t ∧ t.secPend = 0 ∧ t.secOp = mine ∧
      (∀ i < 64, nth (t.slot slot) i 0 = nth (Config.shake256 (s.slot slot ++ s.paBytes pa 64)) i 0) ∧ ∀ k, k ≠ slot → t.slot k = s.slot k) ∧
    (CoreMay s n 0x0908 → s.secPend = 0 → bitsAt v 62 2 = 1 → slot ≠ 0 → s.readsAll pa 64 = false →
      ∃ t, exec (.secExtend (.core n) v) s = .next t ∧ SameMemory s t ∧ t.secPend = 1 ∧ t.secOp = mine ∧ t.slots = s.slots ∧ Retires s t n) ∧
    (CoreMay s n 0x0908 → s.secPend = 0 → bitsAt v 62 2 = 1 → slot = 0 → exec (.secExtend (.core n) v) s = .next (s.coreRetire n)) ∧
    (CoreMay s n 0x0908 → s.secPend = 2 → bitsAt v 62 2 = 1 → exec (.secExtend (.core n) v) s = .next (s.coreRetire n)) ∧
    (CoreMay s n 0x0908 → s.secPend = 1 → bitsAt v 62 2 = 2 → exec (.secAttest (.core n) v) s = .next (s.coreRetire n)) ∧
    ((CoreMay s n 0x0908 ∧ s.secPend = 0 ∧ bitsAt v 62 2 = 2) ∨ (s.secPend = 2 ∧ s.secOp = mine) → s.readsAll pa 32 = true → s.reaches pa 0x300 = true → (∀ i < 0x300, s.isLocal (pa + i) = true ∧ s.present (offsetOf (pa + i)) = true) → ∃ t, exec (.secAttest (.core n) v) s = .next t ∧
      t.slots = s.slots ∧ t.secPend = 0 ∧ (∀ a, ¬(pa ≤ a ∧ a < pa + 0x300) → t.paByte a = s.paByte a) ∧
      (∀ i < 32, t.paByte (pa + 0x200 + i) = s.paByte (pa + i)) ∧ (∀ j < 8, ∀ i < 64, t.paByte (pa + 64 * j + i) = nth (s.slot j) i 0) ∧ t.paRead (pa + 0x220) 8 = s.units ∧
      t.paRead (pa + 0x228) 8 = s.stepping ∧ t.paRead (pa + 0x230) 8 = BitVec.ofNat 64 s.time)

/-- R351: while no earlier operation of pre.ctl is still being saved, a hold by pre.ctl of one slot reaches its skein, and nothing is placed on its
spindle until a release; a write meanwhile has no effect. -/
def PreemptWrites : Prop :=
  ∀ (s : State) (n : Nat) (v : Word), CoreMay s n 0x0510 → s.spindlePresent (bitsAt v 8 9) = true →
    (s.preBusy = true → bitsAt v 62 2 = 1 → exec (.preemptHold (.core n) v) s = .next (s.coreRetire n)) ∧
    (s.preBusy = true → bitsAt v 62 2 = 2 → exec (.preemptRelease (.core n) v) s = .next (s.coreRetire n)) ∧
    (s.preBusy = false → bitsAt v 62 2 = 1 → bitsAt v 56 2 = 0 → isBase (bitsAt v 8 9) = false → ∃ t, exec (.preemptHold (.core n) v) s = .next t ∧ Retires s t n ∧
      (t.spindle (bitsAt v 8 9)).swHold = true ∧ SameMemory s t ∧ (∀ k, s.skein? (bitsAt v 8 9) (bitsAt v 0 2) = some k → k.pre = .no →
        ∃ k', t.skein? (bitsAt v 8 9) (bitsAt v 0 2) = some k' ∧ k'.pre = .stopping ∧ k'.preAt = s.time ∧ k'.preCtl = true ∧ k'.scratch = k.scratch ∧ k'.uid = k.uid) ∧
      ∀ sp slot, ¬(sp = bitsAt v 8 9 ∧ slot = bitsAt v 0 2) → t.skein? sp slot = s.skein? sp slot) ∧
    (s.preBusy = false → bitsAt v 62 2 = 2 → bitsAt v 56 2 = 0 → ∃ t, exec (.preemptRelease (.core n) v) s = .next t ∧ Retires s t n ∧ (t.spindle (bitsAt v 8 9)).swHold = false ∧
      SameMemory s t ∧ ∀ sp slot, t.skein? sp slot = s.skein? sp slot)

/-- R357, R375, R376: a write of FORCE to a frame in A0 or A1 starts its gating; a write of FORCE = 0 to one that gates ends the gating (DEDUCED, log 55),
and to one that is asleep, gating or not, starts its wake. A write of A4 to pwr.cfg takes the package there when nothing stands against it. -/
def PowerWrites : Prop :=
  ∀ (s : State) (n : Nat) (v : Word), let fr := s.pwrFrame.toNat
    (CoreMay s n 0x0902 → v.getLsbD 15 = true → (s.frame fr).gating = false → (s.frame fr).st < 2 → ∃ t, exec (.pwrForceGate (.core n) v) s = .next t ∧
      (t.frame fr).force = true ∧ (t.frame fr).gating = true ∧ (t.frame fr).st = (s.frame fr).st ∧ SameMemory s t ∧
      ∀ i < 16, (t.spindle (16 * fr + i)).pwrHold = true) ∧
    (CoreMay s n 0x0902 → v.getLsbD 15 = false → (s.frame fr).gating = true → ∃ t, exec (.pwrForceClear (.core n) v) s = .next t ∧ (t.frame fr).force = false ∧
      (t.frame fr).gating = false ∧ SameMemory s t ∧ ∀ i < 16, (t.spindle (16 * fr + i)).pwrHold = false) ∧
    (CoreMay s n 0x0902 → v.getLsbD 15 = false → (s.frame fr).st ≠ 0 → (s.frame fr).wakeAt = none →
      ∃ t, exec (.pwrForceClear (.core n) v) s = .next t ∧ (t.frame fr).wakeAt = some (s.time + wakeTime (s.frame fr).st)) ∧
    (CoreMay s n 0x0901 → v.getLsbD 63 = true → s.mayA4 = true → ∃ t, exec (.packageA4Request (.core n) v) s = .next t ∧ t.a4 = true ∧
      t.fifos = [] ∧ (∀ fr < s.nFrames, (t.frame fr).st = 4) ∧ (∀ sp, (t.spindle sp).aown = []) ∧ t.tlim.toNat = bitsAt v 48 8 ∧
      t.budget.toNat = bitsAt v 32 16)

/-- What a path becomes as its ply stops (R342 step 1). -/
def Stops (e0 e : Path) : Prop :=
  e.valid = e0.valid ∧ e.pc = e0.pc ∧ e.strands = e0.strands ∧ match e0.wait with
  | .barx .. => e = e0
  | .barw .. | .dqpop .. | .vfpush .. | .vfpop .. | .token | .credit | .again | .none =>
    if e0.st = .exited then e = e0 else e.st = .ready ∧ e.wait = .none
  | .launch f rs _ => e.st = .ready ∧ e.wait = .launch f rs false
  | _ => True

/-- R346, R347: what a handler does to its skein's plies with trap.ply and trap.rdat: END ends the skein; it stops a running ply, whose
paths leave their waits, but for an arrival at a barrier (and the results of a LAUNCH: DESIGN CHOICE, log 70), and lets a stopped one run;
and it writes a V register of a stopped ply. That one write takes PLY and acts on that ply is DEDUCED (log 56). -/
def HandlerWrites : Prop :=
  ∀ (p : Party) (s : State) (c : Ctx) (v : Word), s.ctx? p = some c → c.handler = true → c.live = true →
    (v.getLsbD 63 = true → ∃ t k, exec (.trapPlyEnd p v) s = .next t ∧ t.skein? c.sp c.slot = some k ∧ SkeinEnded c.w k ∧ t.mem = s.mem) ∧
    (∀ q, v.getLsbD 63 = false → q = bitsAt v 0 4 → q < c.sk.plies.length → (c.dist = false → q ≠ c.plyNo) →
      (bitsAt v 8 2 = 1 → c.plyState q = 0 → ∃ t y, exec (.trapPlyStop p v) s = .next t ∧ ((t.skein? c.sp c.slot).map fun k => k.ply q) = some y ∧
        y.stopped = true ∧ y.held = none ∧ y.v = (c.sk.ply q).v ∧ y.s = (c.sk.ply q).s ∧ y.exm = (c.sk.ply q).exm ∧
        y.paths.length = (c.sk.ply q).paths.length ∧ ∀ (i : Nat) (e0 e : Path), (c.sk.ply q).paths[i]? = some e0 → y.paths[i]? = some e → Stops e0 e) ∧
      (bitsAt v 8 2 = 0 → c.plyState q = 1 → ∃ t y, exec (.trapPlyRun p v) s = .next t ∧ ((t.skein? c.sp c.slot).map fun k => k.ply q) = some y ∧
        y = { c.sk.ply q with stopped := false })) ∧
    let r := c.trapSt.rsel
    ∃ t, exec (.trapRdatWrite p v) s = .next t ∧ SameMemory s t ∧ (∀ sp slot, ¬(sp = c.sp ∧ slot = c.slot) → t.skein? sp slot = s.skein? sp slot) ∧
      ∀ q, q = c.trapSt.sel.toNat → c.plyState q = 1 → q < c.sk.plies.length → (c.dist = false → q ≠ c.plyNo) → bitsAt r 16 4 = 0 →
        bitsAt r 0 7 < c.w → bitsAt r 8 8 < c.la.hdr.vregs →
        ((t.skein? c.sp c.slot).map fun k => (k.ply q).rdV (bitsAt r 8 8) (bitsAt r 0 7)) = some (v.setWidth 32)

end Sys2Proof.Claims

open Sys2Proof.Claims

/-- R60, R82, R147, R149, R225, R226, R231, R233, R236: the writes of system cores that act on memory and translation. -/
def Obligations.CoreMemoryWrites : Prop := TranslationWrites ∧ MemoryUnitWrites ∧ SpaceWrites ∧ RangeWrites ∧ RegionWrites

/-- R7, R346, R347, R351, R357, R367, R370, R375, R385, R386, R391: the other writes that are steps of the part, by system cores and handlers. -/
def Obligations.ControlWrites : Prop :=
  RecordWrites ∧ HoldReleased ∧ BaseOffer ∧ UnitAbsent ∧ SecurityWrites ∧ PreemptWrites ∧ PowerWrites ∧ HandlerWrites

namespace Sys2Proof.Claims

/-- What a foreign access leaves at its place (R317), from the value it found. -/
def ownerLeaves (s t : State) (pa n : Nat) (op : RemoteOp) : Prop :=
  (∀ w, opNew op (s.paRead pa n) = some w → ∀ i < n, t.paByte (pa + i) = byteOf w i) ∧
  (opNew op (s.paRead pa n) = none → ∀ i < n, t.paByte (pa + i) = s.paByte (pa + i)) ∧
  ∀ a, ¬(pa ≤ a ∧ a < pa + n) → t.paByte a = s.paByte a

/-- What an operation needs of its page. -/
def needOf : RemoteOp → Need
  | .load => .read
  | .store _ => .write
  | .rmw .. => .both

/-- Where a request is performed: at the address of its issue, or, when a pre-emption withdrew it, once its skein runs again, where its page lies now
(R352, R358). -/
def PlaceOf (s : State) (r : RemoteReq) (pa : Nat) : Prop :=
  (r.withdrawn = false ∧ pa = r.pa) ∨
  (r.withdrawn = true ∧ s.resumed r.uid = true ∧ ∃ sp k attr, s.allSkeins.find? (fun p => p.2.uid == r.uid) = some (sp, k) ∧
    MappedAt s (s.launch k.launch).asid (s.launch k.launch).root r.va pa attr ∧ attr.permits (needOf r.what) = true)

/-- An earlier request of the ply or distaff, not yet performed, that keeps its order before this one: of the same thread to the same package and lane
(R317), of the same instruction to a byte of both (R198), or, where one was withdrawn, of the same thread (R352). -/
def StandsBefore (s : State) (r q : RemoteReq) : Prop :=
  q ∈ s.reqs.takeWhile (fun q => q.id != r.id) ∧ q.arrived = false ∧ q.uid = r.uid ∧ sameIssuer q.who r.who = true ∧
  ((q.tid = r.tid ∧ q.pa / 0x400000000000 = r.pa / 0x400000000000 ∧ laneOf16 q.pa = laneOf16 r.pa) ∨
   (q.issued = r.issued ∧ q.pa < r.pa + r.n ∧ r.pa < q.pa + q.n) ∨ (q.tid = r.tid ∧ (q.withdrawn = true ∨ r.withdrawn = true)))

/-- R198, R317, R352: an access reaches the package that owns its address: this package's own, once none that it keeps its order behind is still on
its way, or another package's at this one. It performs its operation there, and a request keeps the value it found; a load or an atomic whose memory is
being trained again waits for it (R383). -/
def RemoteArrives : Prop :=
  (∀ (s : State) (id : Nat) (r : RemoteReq), s.reqs.find? (fun r => r.id == id) = some r → r.arrived = false → r.n ≤ 8 →
    (∀ pa, PlaceOf s r pa → (∀ q, ¬StandsBefore s r q) →
      ((s.readable pa = true ∨ ((∃ w, r.what = .store w) ∧ s.reachable pa = true)) →
        (∀ i < r.n, s.isLocal (pa + i) = true → s.present (offsetOf (pa + i)) = true) →
        ∃ t, exec (.remoteAccessArrival (.own id)) s = .next t ∧ t.reqs = s.reqs.map (fun q => if q.id = id then
          { q with arrived := true, pa := pa, old := s.paRead pa r.n } else q) ∧ ownerLeaves s t pa r.n r.what) ∧
      (s.readable pa = false → (∀ w, r.what ≠ .store w) → exec (.remoteAccessArrival (.own id)) s = .next s)) ∧
    ((∃ q, StandsBefore s r q) → exec (.remoteAccessArrival (.own id)) s = .next s)) ∧
  (∀ (s : State) (pkg off n : Nat) (op : RemoteOp), pkg ≠ s.pkg.toNat → s.linked pkg = true → n ≤ 8 → off + n ≤ 0x400000000000 →
    let pa := s.pkg.toNat * 0x400000000000 + off
    s.readable pa = true ∨ ((∃ w, op = .store w) ∧ s.reachable pa = true) → (∀ i < n, s.present (off + i) = true) →
    ∃ t, exec (.remoteAccessArrival (.foreign pkg off n op)) s = .next t ∧ ownerLeaves s t pa n op ∧ t.reqs = s.reqs)

/-- R317, R352: the reply of an access that no instruction waits for ends it; the last reply of a load that a path waits for writes its value and the
path goes on. After 8 µs of a pre-emption the values still to come are saved as pending, and their paths stand behind their instructions. -/
def RemoteReplies : Prop :=
  (∀ (s : State) (id : Nat) (r : RemoteReq), s.reqs.find? (fun r => r.id == id) = some r → r.arrived = true → r.op = 0 →
    s.linked (r.pa / 0x400000000000) = true →
    ∃ t, exec (.remoteReplyArrival id) s = .next t ∧ t.reqs = s.reqs.filter (fun q => q.id != id) ∧ SameMemory s t) ∧
  (∀ (s : State) (id sp slot : Nat) (r : RemoteReq) (c : Ctx) (f : Fields) (k : Skein), s.reqs = [r] → r.id = id → r.arrived = true → r.op ≠ 0 →
    r.at_ = 0 → r.tid = 0 → s.linked (r.pa / 0x400000000000) = true → s.whereIs r.uid = some (sp, slot) → s.skein? sp slot = some k → k.uid = r.uid →
    s.allSkeins.find? (fun p => p.2.uid == r.uid) = some (sp, k) → k.awaits r.op = false → k.setAside r.op = false → r.who = .dist sp slot →
    s.ctx? (.dist sp slot) = some c → Settled c → c.waitNow = .remote f true r.op → c.lookahead f = 0 →
    ∃ t, exec (.remoteReplyArrival id) s = .next t ∧ t.reqs = [] ∧ c.pcIn t = c.pc + Fields.size f ∧ waitIn c t = .none ∧
      c.sIn t f.d.toNat 0 = fillS f.ty r.old) ∧
  (∀ (s : State) (sp slot : Nat) (k : Skein), s.skein? sp slot = some k →
    (k.pre = .stopping → k.preAt + 8000 ≤ s.time → ∃ t k', exec (.remoteReplyTimeout sp slot) s = .next t ∧ t.skein? sp slot = some k' ∧
      k'.scratch = k.scratch ∧ k'.pre = .stopping ∧ SameMemory s t ∧
      ∀ f b op, k.dist.trap.mode = false → k.dist.wait = .remote f b op → s.unperformed op = false →
        k'.dist.pc = k.dist.pc + Fields.size f ∧ k'.dist.wait = .none) ∧
    (k.pre ≠ .stopping ∨ s.time < k.preAt + 8000 → exec (.remoteReplyTimeout sp slot) s = .next s))

/-- R231, R236: a hotness counter that reaches THRESH starts again from 0. Its record goes to the fault ring where it has room, waits while the ring is
disabled, and is lost where it is full; its SKSLOT, PLY, PATH and TID are 0xFF (of the first two the spec is silent: log 72). A decay step halves
every counter, and the next comes a period after it was due (DESIGN CHOICE, log 44). -/
def HotnessSteps : Prop :=
  (∀ (s : State) (die block slot : Nat), die < s.nStacks → block < 0x200000 → slot < 8 → s.hotcfg.getLsbD 63 = true → bitsAt s.hotcfg 0 16 ≠ 0 →
    let key := (die * 0x200000 + block) * 8 + slot
    (bitsAt s.hotcfg 0 16 ≤ (sget s.hot key).toNat → ∃ t, exec (.hotThreshold die block slot) s = .next t ∧ sget t.hot key = 0 ∧
      (∀ j, j ≠ key → sget t.hot j = sget s.hot j) ∧
      (s.fqWait = [] → s.ringRoom = true → RingHere s →
        let a := ringBase s.fq + 32 * s.fqHead
        let w := t.paRead (a + 8) 8
        t.fqHead = (s.fqHead + 1) % 2 ^ (bitsAt s.fq 0 4 + 4) ∧ t.fqWait = [] ∧
        t.paRead a 8 = BitVec.ofNat 64 (s.pkg.toNat * 0x400000000000 + block * 0x10000) ∧ t.paRead (a + 16) 8 = (sget s.hot key).setWidth 64 ∧
        t.paRead (a + 24) 8 = BitVec.ofNat 64 s.time ∧ bitsAt w 56 8 = 4 ∧ bitsAt w 48 8 = 0 ∧ bitsAt w 32 16 = slot ∧ bitsAt w 0 32 = 0xFFFFFFFF ∧
        ∀ b, ¬(a ≤ b ∧ b < a + 32) → t.paByte b = s.paByte b) ∧
      (s.ringFull = true → s.fqHead < ringSize s.fq → t.fqHead = s.fqHead ∧ t.fqWait = s.fqWait ∧ SameMemory s t) ∧
      (s.fq.getLsbD 63 = false → t.fqHead = s.fqHead ∧ t.fqWait.length = s.fqWait.length + 1 ∧ SameMemory s t)) ∧
    ((sget s.hot key).toNat < bitsAt s.hotcfg 0 16 → exec (.hotThreshold die block slot) s = .next s)) ∧
  (∀ (s : State), bitsAt s.hotcfg 59 4 ≠ 0 → s.hotAt + 1000 * 2 ^ bitsAt s.hotcfg 59 4 ≤ s.time →
    ∃ t, exec .hotDecay s = .next t ∧ (∀ p, p ∈ t.hot ↔ ∃ q ∈ s.hot, 2 ≤ q.2.toNat ∧ p = (q.1, q.2 / 2)) ∧ SameMemory s t ∧
      t.hotAt = s.hotAt + 1000 * 2 ^ bitsAt s.hotcfg 59 4)

/-- R224, R361: L1 drops a private line; a dirty one is written back where its ply's private page lies, once no earlier store to it is on its way. The ply reads its private bytes as before. -/
def LineEvicted : Prop :=
  ∀ (s : State) (sp slot ply line : Nat) (k : Skein) (x : PrivLine), s.skein? sp slot = some k → ply < k.plies.length →
    (k.ply ply).priv.find? (fun x => x.line == line) = some x →
    let l := s.launch k.launch
    let gone := fun (t : State) => ((t.skein? sp slot).map fun y => (y.ply ply).priv) =
      some ((k.ply ply).priv.map fun y => if y.line = line then { y with dirty := false, cached := false } else y)
    (x.dirty = false → ∃ t, exec (.privateLineEviction sp slot ply line) s = .next t ∧ gone t ∧ SameMemory s t) ∧
    (∀ pa attr, x.dirty = true → MappedAt s l.asid l.root (l.priv * 2 ^ 45 + (64 * sp + (k.ply ply).privNum.getD 0) * 2 ^ 25 + 64 * line) pa attr →
      s.reachable pa = true → s.lineSent k.uid pa = false → (∀ i < x.bytes.length, s.isLocal (pa + i) = true ∧ s.present (offsetOf (pa + i)) = true) →
      ∃ t, exec (.privateLineEviction sp slot ply line) s = .next t ∧ gone t ∧ (∀ i < x.bytes.length, t.paByte (pa + i) = nth x.bytes i 0) ∧
        ∀ a, ¬(pa ≤ a ∧ a < pa + x.bytes.length) → t.paByte a = s.paByte a)

/-- R382, R383: a device is trained once; it retrains for 2 µs, every period the next trained one in turn, or when its margin is low, one device at a time;
retraining changes no byte. That a retrain not taken in time moves the next to a multiple of the period is the model's (DESIGN CHOICE, log 76). -/
def DeviceSteps : Prop :=
  (∀ (s : State) (dev : Nat), dev < s.nDevices → dev < 32 → ∃ t, exec (.gddrTrainingDone dev) s = .next t ∧ t.memReady.getLsbD dev = true ∧
    (∀ d, d ≠ dev → t.memReady.getLsbD d = s.memReady.getLsbD d) ∧ (s.fqWait = [] → s.strWait = [] → SameMemory s t)) ∧
  (∀ (s : State) (dev : Nat), dev < s.nDevices → s.retraining = none → s.memReady.getLsbD dev = true →
    (∃ t, exec (.gddrRetrain dev true) s = .next t ∧ t.retraining = some (dev, s.time + 2000) ∧ t.retrainNext = s.retrainNext ∧ SameMemory s t) ∧
    (∀ k < s.nDevices, dev = (s.retrainNext + k) % s.nDevices →
      (∀ j < k, s.memReady.getLsbD ((s.retrainNext + j) % s.nDevices) = false) → s.mtrain ≠ 0 → s.retrainAt ≤ s.time → ∃ t, exec (.gddrRetrain dev false) s = .next t ∧
      t.retraining = some (dev, s.time + 2000) ∧ t.retrainNext = (dev + 1) % s.nDevices ∧
      s.time < t.retrainAt ∧ (t.retrainAt - s.retrainAt) % (s.mtrain.toNat * 1000000) = 0 ∧
      t.retrainAt ≤ s.time + s.mtrain.toNat * 1000000 ∧ SameMemory s t)) ∧
  (∀ (s : State) (dev at_ : Nat), s.retraining = some (dev, at_) → at_ ≤ s.time →
    ∃ t, exec .retrainEnd s = .next t ∧ t.retraining = none ∧ SameMemory s t)

/-- R351 to R354: a skein whose parties and engines have stopped and that waits for nothing leaves its slot, saved; its save-area frame is then
written: the magic word, the acceptance number, the index and the length first, and zero up to byte 64. -/
def ContextSaves : Prop :=
  (∀ (s : State) (sp slot : Nat) (k : Skein), s.skein? sp slot = some k → k.pre = .stopping → enginesStopped s (s.spindle sp) k = true →
    k.remoteWaits = [] → ∃ t v, exec (.skeinHalted sp slot) s = .next t ∧ t.skein? sp slot = none ∧
      (t.spindle sp).saved = (s.spindle sp).saved ++ [v] ∧ v.slot = slot ∧ v.written = false ∧ v.sk.uid = k.uid ∧ v.sk.scratch = k.scratch ∧
      v.sk.tiles = k.tiles ∧ (v.sk.plies.map fun p => (p.v, p.s, p.exm, p.flags)) = (k.plies.map fun p => (p.v, p.s, p.exm, p.flags)) ∧
      v.sk.dist.d = k.dist.d ∧ SameMemory s t) ∧
  (∀ (s : State) (sp slot : Nat) (v : Saved), (s.spindle sp).saved.find? (fun v => v.slot == slot && !v.written) = some v →
    (∀ p ∈ v.sk.plies, p.priv = []) → 64 ≤ v.sk.frameLen → s.reaches v.sk.frameAt v.sk.frameLen = true →
    (∀ i < v.sk.frameLen, s.isLocal (v.sk.frameAt + i) = true ∧ s.present (offsetOf (v.sk.frameAt + i)) = true) →
    ∃ t, exec (.contextSaved sp slot) s = .next t ∧ t.paRead v.sk.frameAt 8 = 0x58465250 ∧
      t.paRead (v.sk.frameAt + 8) 8 = BitVec.ofNat 64 (s.launch v.sk.launch).acc ∧ t.paRead (v.sk.frameAt + 16) 8 = BitVec.ofNat 64 v.sk.index ∧
      t.paRead (v.sk.frameAt + 24) 8 = BitVec.ofNat 64 v.sk.frameLen ∧ (∀ i < 32, t.paByte (v.sk.frameAt + 32 + i) = 0) ∧
      (∀ a, ¬(v.sk.frameAt ≤ a ∧ a < v.sk.frameAt + v.sk.frameLen) → t.paByte a = s.paByte a) ∧
      ∃ w ∈ (t.spindle sp).saved, w.sk.uid = v.sk.uid ∧ w.written = true)

/-- R78, R355, R358: a saved skein that nothing stands against resumes in the lowest free slot, as it was saved, with what comes before anything it
issues; no translation of its address space is held on the spindle. -/
def ContextResumes : Prop :=
  ∀ (s : State) (sp i slot : Nat) (v : Saved), (s.spindle sp).saved[i]? = some v → s.mayResume sp v = true →
    (s.spindle sp).freeSlot sp = some slot → slot < (s.spindle sp).slots.length → (s.launch v.sk.launch).lrec.copyCount ≤ v.sk.statNext →
    v.sk.statWait = [] → (∀ p ∈ (s.spindle sp).residents, (s.launch p.2.launch).lrec.copyCount ≤ p.2.statNext ∧ p.2.statWait = []) →
    let asid := (s.launch v.sk.launch).asid
    let still := fun (k : Skein) => { k with stageG := 0 }
    ∃ t, exec (.skeinResume sp i) s = .next t ∧ SameMemory s t ∧
      (t.skein? sp slot).map still = some (still { v.sk with pre := .no, preCtl := false, back := v.backIds }) ∧
      (∀ w ∈ (t.spindle sp).saved, w.sk.uid ≠ v.sk.uid) ∧ (∀ e ∈ (t.spindle sp).tlb, e.asid ≠ asid) ∧
      (∀ e ∈ (t.spindle sp).lpr, e.2.asid ≠ asid) ∧
      ∀ q j, ¬(q = sp ∧ j = slot) → (t.skein? q j).map still = (s.skein? q j).map still

/-- The frames of a die have been in A2 for a millisecond and are not waking. -/
abbrev DieSleeps (s : State) (d : Nat) : Prop :=
  ∀ n, 4 * d ≤ n → n < 4 * d + 4 → (s.frame n).st = 2 ∧ (s.frame n).wakeAt = none ∧ (s.frame n).since + 1000000 ≤ s.time

/-- R375: an empty frame goes to A1 after 1 µs and to A2 after 100 µs more, a die to A3 after 1 ms, where the tolerance allows the wake time;
what wakes a frame starts its wake, which ends after the wake time of its state, in A0; a gated frame is in A2 once its skeins are saved. A frame whose
FORCE is set does not wake, but its die does from A3 at a tolerance below the die's wake time. In A3 the spindles keep their crossbar cells and lose what
they hold of translations, codes and records. What ends A4 begins a wake of 5 ms. -/
def SleepAndWake : Prop :=
  (∀ (s : State) (n : Nat), n < s.nFrames → let f := s.frame n
    (f.st = 0 → f.gating = false → s.frameEmpty n = true → f.idleSince + 1000 ≤ s.time → wakeTime 1 ≤ s.tolerance →
      ∃ t, exec (.frameEnterA1 n) s = .next t ∧ (t.frame n).st = 1 ∧ (t.frame n).since = s.time ∧ SameMemory s t) ∧
    (f.st = 1 → f.gating = false → f.wakeAt = none → f.since + 100000 ≤ s.time → wakeTime 2 ≤ s.tolerance →
      ∃ t, exec (.frameEnterA2 n) s = .next t ∧ (t.frame n).st = 2 ∧ (t.frame n).since = s.time ∧ SameMemory s t) ∧
    (s.a4 = false → f.st ≠ 0 → f.gating = false → f.wakeAt = none → s.wakes n = true → f.force = false ∨ (f.st = 3 ∧ s.tolerance < wakeTime 3) →
      ∃ t, exec (.unitWake n) s = .next t ∧ (t.frame n).wakeAt = some (s.time + wakeTime f.st) ∧ (t.frame n).st = f.st) ∧
    (f.force = true → f.st ≠ 3 ∨ wakeTime 3 ≤ s.tolerance → exec (.unitWake n) s = .next s) ∧
    (∀ at_, f.wakeAt = some at_ → at_ ≤ s.time → ∃ t, exec (.wakeComplete n) s = .next t ∧ (t.frame n).wakeAt = none ∧
      (f.force = false → (t.frame n).st = 0 ∧ ∀ i < 16, (t.spindle (16 * n + i)).pwrHold = false) ∧
      (f.force = true → (t.frame n).st = if f.st = 3 then 2 else f.st) ∧
      (f.st = 3 → ∀ m, m ≠ n → m / 4 = n / 4 → (s.frame m).st = 3 → (t.frame m).st = 2)) ∧
    (f.gating = true → s.frameSaved n = true → ∃ t, exec (.gateIngressClose n) s = .next t ∧ (t.frame n).st = 2 ∧ (t.frame n).gating = false ∧
      SameMemory s t)) ∧
  (∀ (s : State) (d : Nat), d < s.nStacks → DieSleeps s d → wakeTime 3 ≤ s.tolerance →
    ∃ t, exec (.dieEnterA3 d) s = .next t ∧ (∀ n, 4 * d ≤ n → n < 4 * d + 4 → (t.frame n).st = 3 ∧ (t.frame n).tlb = []) ∧ SameMemory s t ∧
      ∀ i < 64, let x := t.spindle (64 * d + i)
        x.lpr = [] ∧ x.tlb = [] ∧ x.recs = [] ∧ x.cells = (s.spindle (64 * d + i)).cells ∧ x.life = (s.spindle (64 * d + i)).life) ∧
  (∀ (s : State), s.a4 = true →
    (s.a4Wake = none → ∃ t, exec .a4Exit s = .next t ∧ t.a4 = true ∧ t.a4Wake = some (s.time + 5000000) ∧ SameMemory s t) ∧
    (∀ at_, s.a4Wake = some at_ → (s.time < at_ → exec .a4Exit s = .next s) ∧ (at_ ≤ s.time → ∃ t, exec .a4Exit s = .next t ∧ t.a4 = false ∧
      t.a4Wake = none ∧ (∀ n < s.nFrames, (t.frame n).st = 3) ∧ (∀ sp, 0x100 ≤ sp → ∀ i < 10, nth (t.spindle sp).ctr i 0 = 0) ∧ SameMemory s t)))

/-- R124, R376 to R381: a report of a spindle's monitors adds or takes 1 of DRIFT within 224 to 384, or leaves it, at least 100 ns after the step before; at
384 one of low margin is an ask for more, until the next report; an interval boundary of a die comes at every multiple of 2,000 ns, past which no action takes place before it, and takes 4 from the PLIMIT of its frame with the greatest estimate where the module's power reaches its budget; a compute die
that leaves reset starts with DRIFT 320 and PLIMIT 64. -/
def ClockAndPower : Prop :=
  (∀ (s : State) (sp : Nat) (m : Monitor), s.spindlePresent sp = true → s.clocked sp = true → let x := s.spindle sp
    let y := match m with | .lowMargin => min (x.drift + 1) 384 | .enoughMargin => x.drift | .ampleMargin => max (x.drift - 1) 224
    (y = x.drift ∨ x.driftAt + 100 ≤ s.time → ∃ t, exec (.driftStep sp m) s = .next t ∧ (t.spindle sp).drift = y ∧
      ((t.spindle sp).overAsk = true ↔ m = .lowMargin ∧ 384 ≤ x.drift) ∧ (t.spindle sp).driftAt = if y = x.drift then x.driftAt else s.time) ∧
    (y ≠ x.drift → s.time < x.driftAt + 100 → exec (.driftStep sp m) s = .next s)) ∧
  (∀ (s : State) (d power : Nat) (e0 e1 e2 e3 : Nat), d < s.nStacks → (s.die d).nextB ≤ s.time → s.time % 2000 = 0 →
    ∃ t, exec (.intervalBoundary d [e0, e1, e2, e3] power) s = .next t ∧ (t.die d).nextB = s.time + 2000 ∧ SameMemory s t ∧
      (s.cdie.getLsbD d = true → s.budget.toNat ≤ power → e1 ≤ e0 → e2 ≤ e0 → e3 ≤ e0 →
        (t.frame (4 * d)).plimit = (s.frame (4 * d)).plimit - 4 ∧ ∀ n, n ≠ 4 * d → (t.frame n).plimit = (s.frame n).plimit)) ∧
  (∀ (s : State) (d : Nat), d < s.nStacks → s.upNext.2.time ≤ (max (s.die d).nextB s.time + 1999) / 2000 * 2000) ∧
  (∀ (s : State) (d power : Nat) (est : List Nat), s.time < (s.die d).nextB ∨ s.time % 2000 ≠ 0 → d < s.nStacks →
    exec (.intervalBoundary d est power) s = .next s) ∧
  (∀ (s : State) (d : Nat), d < s.nStacks → d < 4 → s.cdie.getLsbD d = false → s.bdie.getLsbD d = true → -160 ≤ (s.die d).baseTemp.toInt → ∃ t, exec (.computeDieResetRelease d) s = .next t ∧
    t.cdie.getLsbD d = true ∧ SameMemory s t ∧ (∀ i < 64, (t.spindle (64 * d + i)).drift = 320) ∧
    ∀ n, 4 * d ≤ n → n < 4 * d + 4 → (t.frame n).plimit = 64)

/-- The permits that the pool of a die and the shares on a frame's chain allow a claim that comes first at a boundary (R377). -/
def Allowed (s : State) (pool n g : Nat) : Prop := g ≤ pool ∧ ∀ b ∈ s.rcbChain ((s.frameRegion n).getD 0), g ≤ s.effBoost b.addr

/-- R377, R378: where one frame of a die claims boost, the pool is filled by one permit, up to 64, when no frame of the die held boost; the frame gets the
greatest level that the pool and the shares of its region's chain allow, and a charged B2 that is not granted again becomes an uncharged B1. LASTWIN
changes only where the claim was cut. Every other frame of the die holds none. -/
def BoostGrants : Prop :=
  ∀ (s : State) (d n m power : Nat) (est : List Nat), d < s.nStacks → s.cdie.getLsbD d = true → (s.die d).nextB ≤ s.time → s.time % 2000 = 0 →
    4 * d ≤ n → n < 4 * d + 4 → (s.frame n).req ≠ 0 → (s.frame n).plimit = 64 → s.regionsIn n ≠ [] →
    (∀ i < 16, (s.spindle (16 * n + i)).overAsk = false) →
    4 * d ≤ m → m < 4 * d + 4 → nth est (n - 4 * d) 0 < nth est (m - 4 * d) 0 →
    (∀ q, 4 * d ≤ q → q < 4 * d + 4 → q ≠ n → (s.frame q).req = 0 ∧ (s.frame q).lvl = 0) →
    let asked := (s.frame n).req
    let pool := if (s.frame n).lvl = 0 then min ((s.die d).pool + 1) 64 else (s.die d).pool
    ∃ t g, exec (.intervalBoundary d est power) s = .next t ∧ g ≤ asked ∧ Allowed s pool n g ∧ (∀ h, h ≤ asked → Allowed s pool n h → h ≤ g) ∧
      (t.die d).pool = pool - g ∧ (t.die d).lastwin = (if g < asked ∧ g ≠ 0 then n else (s.die d).lastwin) ∧
      (t.frame n).lvl = (if g ≠ 0 then g else if (s.frame n).lvl = 2 ∧ (s.frame n).unch = false then 1 else 0) ∧
      (t.frame n).unch = decide (g = 0 ∧ (s.frame n).lvl = 2 ∧ (s.frame n).unch = false) ∧
      ∀ q, 4 * d ≤ q → q < 4 * d + 4 → q ≠ n → (t.frame q).lvl = 0

/-- R282, R292, R384: package reset puts every register at its value right after reset; crossbar cells, lifetime counters, GDDR-7 and the capability
registers keep theirs. -/
def PackageResets : Prop :=
  ∀ (s : State), ∃ t, exec .packageReset s = .next t ∧ (∀ sp, (t.spindle sp).cells = (s.spindle sp).cells ∧ (t.spindle sp).life = (s.spindle sp).life ∧
      (t.spindle sp).slots = [none, none, none, none]) ∧
    (∀ off, off < 0x2000000000 → sget t.mem off = sget s.mem off) ∧ t.units = s.units ∧ t.stepping = s.stepping ∧ t.boot = .fetching 0 ∧
    t.affw = 4 ∧ t.tlim = 95 ∧ t.budget = (if s.nStacks = 2 then 950 else 1800) ∧ t.bdie = 0 ∧ t.cdie = 0 ∧ t.memReady = 0 ∧ t.launches = [] ∧ t.time = 0 ∧
    (∀ sp, t.spindle sp = { cells := (s.spindle sp).cells, life := (s.spindle sp).life } ∧ (t.spindle sp).drift = 320) ∧
    (∀ fr, (t.frame fr).swcap = 64 ∧ (t.frame fr).plimit = 0) ∧ t.mtrain = 10 ∧ t.idlelat = 0 ∧
    (∀ d < 4, (t.die d).lastwin = BitVec.ofNat 4 (4 * d + 3) ∧ (t.die d).pool = 64) ∧
    (∀ k < 8, (t.tag k).expect = 1 ∧ (t.tag k).en = false ∧ (t.tag k).arrived = 0 ∧ (t.tag k).gen = 0) ∧
    t.fq = 0 ∧ t.hotcfg = 0 ∧ t.string = 0 ∧ t.samp = 0 ∧ t.ethUp = 0 ∧ t.offers = [] ∧
    let r := State.reset
    { t with tick := r.tick, agenda := r.agenda, cur := r.cur, opSeq := r.opSeq, units := r.units, stepping := r.stepping, mem := r.mem,
             remote := r.remote, spindles := r.spindles, budget := r.budget } = r

/-- R384: an image whose signature verifies is measured into slot 0 and runs; one whose signature does not fails, and is fetched over the other
port 10 s later. That a fetch over a port that is down waits is DEDUCED (log 60). -/
def Boots : Prop :=
  (∀ (s : State) (payload sig : List Byte) (port : Nat), s.boot = .fetching port → s.ethUp.getLsbD port = true →
    let d := (Config.shake256 payload ++ List.replicate 64 0).take 64
    (Config.bootSignatureOk d sig = true → ∃ t, exec (.bootImageFetched payload sig) s = .next t ∧ t.boot = .running ∧ t.slot 0 = d ∧
      ∀ k, k ≠ 0 → t.slot k = s.slot k) ∧
    (Config.bootSignatureOk d sig = false → ∃ t, exec (.bootImageFetched payload sig) s = .next t ∧
      t.boot = .failed (1 - port) (s.time + 10000000000) ∧ t.slots = s.slots)) ∧
  (∀ (s : State) (payload sig : List Byte) (port : Nat), s.boot = .fetching port → s.ethUp.getLsbD port = false →
    exec (.bootImageFetched payload sig) s = .next s) ∧
  (∀ (s : State) (port at_ : Nat), s.boot = .failed port at_ → at_ ≤ s.time →
    ∃ t, exec .bootRetry s = .next t ∧ t.boot = .fetching port)

/-- R375, R382, R387: a received frame goes to the next receive buffer, its descriptor says its length and is the software's again, and the network interrupt
is raised on every core; a frame is sent from the next transmit descriptor, which says ERR where it is longer than 9,216 bytes (DEDUCED, log 60). Where no core's
log records, and descriptors and buffers can be reached. In A4 a frame begins the wake, and is not received (log 61). -/
def EthernetMoves : Prop :=
  ∀ (s : State) (port : Nat), port < 2 → s.portReady port = true → s.recorders = [] →
    let e := agetD s.eths port {}
    (∀ frame, frame.length ≤ 9216 →
      let d := ringBase e.ctl + 16 * e.rx
      let buf := (s.paRead d 8).toNat % 2 ^ 52
      (s.paRead (d + 8) 8).getLsbD 63 = true → s.readsAll d 16 = true → s.reachesAll buf frame.length = true → (∀ i < frame.length, s.isLocal (buf + i) = true ∧ s.present (offsetOf (buf + i)) = true) →
      (∀ i < 16, s.isLocal (d + i) = true ∧ s.present (offsetOf (d + i)) = true) → d + 16 ≤ buf ∨ buf + frame.length ≤ d →
      ∃ t, exec (.ethReceive port frame) s = .next t ∧ (∀ i < frame.length, t.paByte (buf + i) = nth frame i 0) ∧
        t.paRead (d + 8) 8 = BitVec.ofNat 64 frame.length ∧ (agetD t.eths port {}).rx = (e.rx + 1) % 2 ^ (bitsAt e.ctl 0 4 + 4) ∧
        ∀ n < s.nCores, (t.core n).netPend = true) ∧
    (let d := ringBase e.ctl + 16 * 2 ^ (bitsAt e.ctl 0 4 + 4) + 16 * e.tx
     let len := bitsAt (s.paRead (d + 8) 8) 0 16
     (s.paRead (d + 8) 8).getLsbD 63 = true → s.readsAll d 16 = true → s.readsAll ((s.paRead d 8).toNat % 2 ^ 52) len = true →
      (∀ i < 16, s.isLocal (d + i) = true ∧ s.present (offsetOf (d + i)) = true) →
      ∃ t, exec (.ethTransmit port) s = .next t ∧ t.paRead (d + 8) 8 = BitVec.ofNat 64 (len + if len ≤ 9216 then 0 else 2 ^ 62) ∧
        (agetD t.eths port {}).tx = (e.tx + 1) % 2 ^ (bitsAt e.ctl 0 4 + 4))

/-- R375, R387, R388: in A4 a frame at a port that is up, or an access of the host, begins the wake and does nothing else. -/
def PortsWake : Prop :=
  ∀ (s : State), s.a4 = true → s.a4Wake = none →
    (∀ port frame, port < 2 → s.ethUp.getLsbD port = true →
      exec (.ethReceive port frame) s = .next { s with a4Wake := some (s.time + 5000000) }) ∧
    ∀ off n w, off + n ≤ 0x10000000 → n ≤ 8 → s.detached = false → s.hasHost = true → s.hostUp = true →
      exec (.hostAccess off n w) s = .next { s with a4Wake := some (s.time + 5000000) }

/-- R386 to R388: what the links and ports report: the state of a link, a counted CRC error (at most all ones), an Ethernet port up or down, a trained host
port; and a write of the host through its window stores its bytes from WBASE on, a read is answered with them. With EN clear, or without HOSTP, a
read is answered with all ones, and a write dropped. -/
def PortsReport : Prop :=
  (∀ (s : State) (link lanes peer : Nat) (up : Bool), link < s.nLinks → ∃ t, exec (.linkStateChange link up lanes peer) s = .next t ∧
    (agetD t.links link {}).up = up ∧ (agetD t.links link {}).lanes = min lanes 8 ∧ (agetD t.links link {}).peer = peer % 64 ∧
    (agetD t.links link {}).crcErr = (agetD s.links link {}).crcErr ∧ ∀ k, k ≠ link → agetD t.links k {} = agetD s.links k {}) ∧
  (∀ (s : State) (link : Nat), link < s.nLinks → ∃ t, exec (.linkCrcRetry link) s = .next t ∧
    (agetD t.links link {}).crcErr = min ((agetD s.links link {}).crcErr + 1) 0xFFFFFFFF ∧ SameMemory s t) ∧
  (∀ (s : State) (port : Nat) (up : Bool), port < 2 → ∃ t, exec (.ethernetPortStateChange port up) s = .next t ∧ t.ethUp.getLsbD port = up ∧
    t.ethUp.getLsbD (1 - port) = s.ethUp.getLsbD (1 - port)) ∧
  (∀ (s : State), s.hasHost = true → ∃ t, exec .hostPortTrained s = .next t ∧ t.hostUp = true ∧ SameMemory s t) ∧
  (∀ (s : State) (off n : Nat), s.a4 = false → off + n ≤ 0x10000000 → n ≤ 8 → s.detached = false → (s.hasHost = true → s.hostUp = true) →
    let pa := s.pkg.toNat * 0x400000000000 + (bitsAt s.hostCtl 28 24 * 0x10000000 + off) % 0x400000000000
    (s.hasHost = true → s.hostCtl.getLsbD 63 = true →
      (s.readsAll pa n = true → exec (.hostAccess off n none) s = .next { s with hostRead := some (s.paRead pa n) }) ∧
      (∀ v, s.reachesAll pa n = true → s.recorders = [] → (∀ i < n, s.isLocal (pa + i) = true ∧ s.present (offsetOf (pa + i)) = true) →
        ∃ t, exec (.hostAccess off n (some v)) s = .next t ∧ (∀ i < n, t.paByte (pa + i) = byteOf v i) ∧
          ∀ a, ¬(pa ≤ a ∧ a < pa + n) → t.paByte a = s.paByte a)) ∧
    (s.hasHost = false ∨ s.hostCtl.getLsbD 63 = false →
      exec (.hostAccess off n none) s = .next { s with hostRead := some (BitVec.ofNat 64 (2 ^ (8 * n) - 1)) } ∧
      ∀ v, exec (.hostAccess off n (some v)) s = .next s))

/-- One record of a path in the accounting ring (R368): KIND and HI, where the path is, the time, and two words. -/
def PathRecordAt (t : State) (a kind hi slot ply sp path skein now : Nat) (x y : Word) : Prop :=
  let w := t.paRead a 8
  bitsAt w 62 2 = kind ∧ bitsAt w 59 3 = 0 ∧ bitsAt w 58 1 = hi ∧ bitsAt w 56 2 = slot ∧ bitsAt w 52 4 = ply ∧ bitsAt w 49 3 = 0 ∧
  bitsAt w 40 9 = sp ∧ bitsAt w 36 4 = path ∧ bitsAt w 32 4 = 0 ∧ bitsAt w 0 32 = skein % 2 ^ 32 ∧ t.paRead (a + 8) 8 = BitVec.ofNat 64 now ∧
  t.paRead (a + 16) 8 = x ∧ t.paRead (a + 24) 8 = y

/-- The state word of a path-table entry (R347). -/
def PathWord (e : Path) (w : Word) : Prop :=
  bitsAt w 63 1 = e.valid.toNat ∧ bitsAt w 61 2 = (match e.st with | .ready => 0 | .waiting => 1 | .blocked => 2 | .exited => 3) ∧
  bitsAt w 45 16 = e.strands.toNat ∧ bitsAt w 0 45 = 0

/-- R368, R369: at each multiple of the period, past which nothing happens before it, and at no other time, a sample writes the pair of the path that
issued last on the sampled spindle since the sample before, if one has; as it left, if its skein has left its slot (DESIGN CHOICE, log 113). -/
def Samples : Prop :=
  ∀ (s : State), s.samp.getLsbD 63 = true → let period := 100 * bitsAt s.samp 16 16
    let sp := bitsAt s.samp 0 9
    period ≠ 0 →
    (s.time % period ≠ 0 ∨ s.time ≤ s.sampAt → exec .sampleTick s = .next s ∧ s.upNext.2.time ≤ (s.time / period + 1) * period) ∧
    (s.time % period = 0 → s.sampAt < s.time → s.upNext.2.time = s.time ∧ ∃ t, exec .sampleTick s = .next t ∧ t.sampAt = s.time ∧
      (t.spindle sp).lastPath = none ∧ ((s.spindle sp).lastPath = none → SameMemory s t) ∧
      let a := ringBase s.string + 32 * s.strHead
      let written := t.strHead = (s.strHead + 2) % ringSize s.string ∧ t.strLost = s.strLost ∧ ∀ b, ¬(a ≤ b ∧ b < a + 64) → t.paByte b = s.paByte b
      (∀ slot ply path k, (s.spindle sp).lastPath = some (.here slot ply path) → s.skein? sp slot = some k → slot < 4 → ply < 16 → path < 16 →
        RecordsFit s 2 → let e := nth (k.ply ply).paths path {}
        (∃ w, PathWord e w ∧ PathRecordAt t a 1 0 slot ply sp path k.index s.time w ((k.ply ply).exm.setWidth 64)) ∧
        PathRecordAt t (a + 32) 1 1 slot ply sp path k.index s.time (e.pc &&& 0x00FFFFFFFFFFFFF8) (((k.ply ply).exm >>> 64).setWidth 64) ∧ written) ∧
      ∀ acc w0 w1 u0 u1 x0 x1 y0 y1, (s.spindle sp).lastPath = some (.left acc [[w0, u0, x0, y0], [w1, u1, x1, y1]]) → RecordsFit s 2 →
        let now := BitVec.ofNat 64 s.time
        (t.paRead a 8 = w0 ∧ t.paRead (a + 8) 8 = now ∧ t.paRead (a + 16) 8 = x0 ∧ t.paRead (a + 24) 8 = y0) ∧
        (t.paRead (a + 32) 8 = w1 ∧ t.paRead (a + 40) 8 = now ∧ t.paRead (a + 48) 8 = x1 ∧ t.paRead (a + 56) 8 = y1) ∧ written)

/-- R372: at its logged count, and not before, a core that replays takes its interrupts, its read value, or the result of its LAUNCH from its log, or
the bytes of an arrival go from its payload ring to their place. That bits 0 and 1 of an interrupt's cause word are the two interrupts is DEDUCED
(log 47). -/
def Replays : Prop :=
  ∀ (s : State) (n : Nat), n < s.nCores → (s.core n).replaying = true → (s.core n).logEmpty = false → (s.core n).rplVal = none →
    let size := 2 ^ (bitsAt (s.core n).rplCtl 0 4 + 4)
    let a := ringBase (s.core n).rplCtl + 32 * (s.core n).rplHead
    let next := (s.core n).rplHead + 1
    s.readsAll a 32 = true →
    ((s.paRead a 8).toNat ≠ (s.core n).retired → exec (.replayDeliver n) s = .next s) ∧
    ((s.paRead a 8).toNat = (s.core n).retired →
    (bitsAt (s.paRead (a + 8) 8) 56 8 = 0 → ∃ t, exec (.replayDeliver n) s = .next t ∧ SameMemory s t ∧
      (t.core n).rplHead = next % size ∧
      (t.core n).faultPend = ((s.core n).faultPend || (s.paRead (a + 16) 8).getLsbD 0) ∧
      (t.core n).netPend = ((s.core n).netPend || (s.paRead (a + 16) 8).getLsbD 1)) ∧
    (bitsAt (s.paRead (a + 8) 8) 56 8 = 1 → ∃ t, exec (.replayDeliver n) s = .next t ∧
      (t.core n).rplVal = some (s.paRead (a + 16) 8) ∧ (t.core n).rplHead = next % size ∧ SameMemory s t) ∧
    (bitsAt (s.paRead (a + 8) 8) 56 8 = 2 → ∀ d, s.launchWaits n = some d → ∃ t, exec (.replayDeliver n) s = .next t ∧
      sget (t.core n).gpr d = s.paRead (a + 16) 8 ∧ (t.core n).wait = .none ∧ (t.core n).retired = (s.core n).retired + 1 ∧
      (t.core n).rplHead = next % size ∧ SameMemory s t) ∧
    (let dest := (s.paRead (a + 16) 8).toNat % 2 ^ 52
     let len := bitsAt (s.paRead (a + 8) 8) 32 24
     3 ≤ bitsAt (s.paRead (a + 8) 8) 56 8 → s.reachesAll dest len = true →
      (∀ i < len, s.readable (ringBase (s.core n).rplCtl + 32 * size + ((s.paRead (a + 24) 8).toNat + i) % (256 * size)) = true) →
      (∀ i < len, s.isLocal (dest + i) = true ∧ s.present (offsetOf (dest + i)) = true) →
      ∃ t, exec (.replayDeliver n) s = .next t ∧ (t.core n).rplHead = next % size ∧
        (∀ i < len, t.paByte (dest + i) =
          s.paByte (ringBase (s.core n).rplCtl + 32 * size + ((s.paRead (a + 24) 8).toNat + i) % (256 * size))) ∧
        ∀ b, ¬(dest ≤ b ∧ b < dest + len) → t.paByte b = s.paByte b))

end Sys2Proof.Claims

open Sys2Proof.Claims

/-- R224, R236, R317, R352, R361, R382, R383: the steps of memory: remote accesses, hotness, private lines, and the devices. -/
def Obligations.MemorySteps : Prop := RemoteArrives ∧ RemoteReplies ∧ HotnessSteps ∧ LineEvicted ∧ DeviceSteps

/-- R78, R351 to R355: how a pre-empted skein leaves its spindle and comes back. -/
def Obligations.ContextSwitch : Prop := ContextSaves ∧ ContextResumes

/-- R124, R375 to R381: power states, the adaptive clock, PLIMIT and boost, and the release of a compute die from reset. -/
def Obligations.PowerSteps : Prop := SleepAndWake ∧ ClockAndPower ∧ BoostGrants

/-- R368, R369, R372, R375, R384, R386 to R388: reset and boot, and what comes in from outside. -/
def Obligations.OutsideSteps : Prop := PackageResets ∧ Boots ∧ EthernetMoves ∧ PortsWake ∧ PortsReport ∧ Samples ∧ Replays

namespace Sys2Proof.Claims

/-- Words written out from the encodings of R84 to R99 (and R150; all are worked words of the spec), and the instruction of each with
its fields. -/
def wordSamples : List (Word × Instr) := [
  -- R100: FFMA.f32.rz V8, V2, V3, V8 with tc = 2, and the same with D at V144
  (0x3308080802030801, .ffma { tc := 2, la := 0, u := false, ty := .f32, d := 0x08, a := 0x02, b := 0x03, c := 0x08, m := 0x01, x := none }),
  (0x3308089002030801, .ffma { tc := 2, la := 0, u := false, ty := .f32, d := 0x90, a := 0x02, b := 0x03, c := 0x08, m := 0x01, x := none }),
  -- R162: IADD.s32.sat V3, V1, -5 and IADD.U.s64 S4, S4, K1
  (0x1000020301FB0081, .iadd { tc := 0, la := 0, u := false, ty := .s32, d := 0x03, a := 0x01, b := 0xFB, c := 0, m := 0x81, x := none }),
  (0x1000260404810000, .iadd { tc := 0, la := 0, u := true, ty := .s64, d := 0x04, a := 0x04, b := 0x81, c := 0, m := 0, x := none }),
  -- R160: ICMP.eq.b32 S4, V2, 0
  (0x2500000402000080, .icmpEq { tc := 0, la := 0, u := false, ty := .b32, d := 0x04, a := 0x02, b := 0, c := 0, m := 0x80, x := none }),
  -- R184: BRZ S4, four words on
  (0x0210000004000004, .brz { tc := 0, la := 0, u := false, ty := .b32, d := 0, a := 0x04, b := 0, c := 0, m := 0x04, x := none }),
  -- R194: LD.b32.g V4, [S2 + V1.zx*4 + 16] with la = 3
  (0x7004C00402011024, .ld { tc := 1, la := 3, u := false, ty := .b32, d := 0x04, a := 0x02, b := 0x01, c := 0x10, m := 0x24, x := none }),
  -- R204: ATOM.add.b32.g V6, [S6], V7
  (0x7404000606000700, .atomAdd { tc := 1, la := 0, u := false, ty := .b32, d := 0x06, a := 0x06, b := 0, c := 0x07, m := 0, x := none }),
  -- R210, R213: CSRR S9, cap.units and LAUNCH.U S10, S12
  (0x0600000900000000, .csrr { tc := 0, la := 0, u := false, ty := .b32, d := 0x09, a := 0, b := 0, c := 0, m := 0, x := none }),
  (0x0700200A0C000000, .launch { tc := 0, la := 0, u := true, ty := .b32, d := 0x0A, a := 0x0C, b := 0, c := 0, m := 0, x := none }),
  -- R175: SHFL.down.b32 V4, V3, 16
  (0x6024000403100080, .shflDown { tc := 1, la := 0, u := false, ty := .b32, d := 0x04, a := 0x03, b := 0x10, c := 0, m := 0x80, x := none }),
  -- R170: CVT.U.f32.b32 S21, S20
  (0x5004281514000000, .cvt { tc := 1, la := 0, u := true, ty := .f32, d := 0x15, a := 0x14, b := 0, c := 0, m := 0, x := none }),
  -- R323: BARX S9, K0
  (0x9200000980000000, .barx { tc := 0, la := 0, u := false, ty := .b32, d := 0x09, a := 0x80, b := 0, c := 0, m := 0, x := none }),
  -- R243: CPYG.m2s D8, D7, D9, K0
  (0xA200000807098004, .cpyg { tc := 0, la := 0, u := false, ty := .b32, d := 0x08, a := 0x07, b := 0x09, c := 0x80, m := 0x04, x := none }),
  -- R266: MMAS.e2m1.xs T2, T0, T1, S8, 2
  (0xB504120200010842, .mmas { tc := 1, la := 0, u := false, ty := .e2m1, d := 0x02, a := 0, b := 0x01, c := 0x08, m := 0x42, x := none }),
  -- R301, R302: XG.p.nor2.ra s0, 0, 1 and XRD
  (0xC010000040410008, .xgP { tc := 0, la := 0, u := false, ty := .b32, d := 0, a := 0x40, b := 0x41, c := 0, m := 0x08, x := none }),
  (0xC200000A0B000020, .xrd { tc := 0, la := 0, u := false, ty := .b32, d := 0x0A, a := 0x0B, b := 0, c := 0, m := 0x20, x := none })]

/-- An instruction of the map has this opcode and, for `some`, this function. -/
def Mapped (opc : Nat) (fn : Option Nat) : Prop := ∃ i r, Instr.row i = some r ∧ r.opc = opc ∧ ∀ n, fn = some n → r.fn = n

/-- The package's registers that only a system core, or an event, may change. -/
def SamePackage (s t : State) : Prop :=
  t.units = s.units ∧ t.stepping = s.stepping ∧ t.time = s.time ∧ t.affw = s.affw ∧ t.frsel = s.frsel ∧ t.mcStack = s.mcStack ∧
  t.mcRange = s.mcRange ∧ t.assel = s.assel ∧ t.spaces = s.spaces ∧ t.fq = s.fq ∧ t.hotcfg = s.hotcfg ∧
  t.pkg = s.pkg ∧ t.aselArray = s.aselArray ∧ t.aselSpindle = s.aselSpindle ∧ t.tbsel = s.tbsel ∧ t.preScope = s.preScope ∧
  t.preSpindle = s.preSpindle ∧ t.preSlot = s.preSlot ∧ t.pwrLink = s.pwrLink ∧ t.pwrPort = s.pwrPort ∧ t.pwrFrame = s.pwrFrame ∧
  t.tlim = s.tlim ∧ t.budget = s.budget ∧ t.mtrain = s.mtrain ∧ t.idlelat = s.idlelat ∧ t.a4 = s.a4 ∧ t.links = s.links ∧ t.eths = s.eths ∧
  t.hostCtl = s.hostCtl ∧ t.secOp = s.secOp ∧ t.slots = s.slots ∧ t.boot = s.boot ∧ t.string = s.string ∧ t.samp = s.samp ∧
  t.cselSpindle = s.cselSpindle ∧ t.cselCtr = s.cselCtr ∧ t.dbgHold = s.dbgHold ∧ t.secPend = s.secPend ∧ t.rcbs = s.rcbs ∧
  (∀ n, (t.frame n).swcap = (s.frame n).swcap ∧ (t.frame n).req = (s.frame n).req ∧ (t.frame n).force = (s.frame n).force) ∧
  (∀ d, (t.die d).ranges = (s.die d).ranges ∧ (t.die d).res = (s.die d).res ∧ (t.die d).l2p = (s.die d).l2p) ∧
  (∀ k, (t.tag k).en = (s.tag k).en ∧ (t.tag k).expect = (s.tag k).expect) ∧
  ∀ sp, (t.spindle sp).aown = (s.spindle sp).aown ∧ (t.spindle sp).swHold = (s.spindle sp).swHold

end Sys2Proof.Claims

open Sys2Proof.Claims

/-- R83 to R99: the word of an instruction whose fields are right decodes to it, with every operand at every value its encoding
admits; so do its bytes, the extension word among them. -/
def Obligations.EncodeDecodeRoundTrip : Prop :=
  ∀ (i : Instr) (r : OpRow) (f : Fields), i.row = some r → i.fields = some f → r.fieldsOk f = true →
    decode (f.toWord r.opc r.fn) (f.x.getD 0) = .instr i ∧ encode i = f.toWord r.opc r.fn :: f.x.toList ∧
    decodeBytes ((encode i).flatMap wordBytes) = .instr i

/-- R84, R99, R100: the other direction, and what is refused: a word decodes to an instruction only if that instruction's encoding is
the word; a reserved major opcode fails check 2, an assigned opcode with an unlisted function check 3, and a listed one is an
instruction or fails check 5. -/
def Obligations.DecodeExact : Prop :=
  ∀ w x : Word,
    (∀ i, decode w x = .instr i → i.fieldsOk = true ∧ encode i = w :: (if hasExt w then [x] else [])) ∧
    (decode w x = .badOpcode ↔ ¬Mapped (bitsOf w 56 8) none) ∧
    (decode w x = .badFunction ↔ Mapped (bitsOf w 56 8) none ∧ ¬Mapped (bitsOf w 56 8) (some (bitsOf w 52 4)))

/-- Words written out from the spec's encodings decode to the instructions they stand for; the all-zero word, OPC 0x4F, and a lookahead
window on FFMA are refused, each at its check (R100). -/
def Obligations.DecodeWords : Prop :=
  (∀ p ∈ wordSamples, decode p.1 0 = .instr p.2) ∧ decode 0 0 = .badOpcode ∧ decode 0x4F08080802030801 0 = .badOpcode ∧
  decode 0x3318080802030801 0 = .badFunction ∧ decode 0x3308480802030801 0 = .badField .ply

/-- R83, R100, R120: when the next action is an issue of a party that may issue, the word at its program counter is fetched and decoded, and
the step is the exec of that instruction, with its party as `cur` and its line kept; a word that does not decode traps. An event of the
table happens in the same way, and so does a system core's word, once a verified image runs, in A4 never, and after the interrupts that are pending
(R372, R375, R384; that the core's log may hold it is R372; that a core takes its interrupts before its next word, which clears them, is the model's:
DESIGN CHOICE, logs 5 and 28). A core's CPY.mig word with DIR, SKS or EV set is ILLEGAL_FIELD at check 5 (R242, R252), which the core records (DESIGN
CHOICE, log 5). A fetch that runs ahead changes no byte of memory (R112). -/
def Obligations.StepRunsDecoded : Prop :=
  (∀ (s s1 s2 s3 : State) (p q : Party) (c c2 : Ctx) (d : Decoded) (w : Word), s.upNext = (.issue p, s1) → s1.ctx? p = some c →
    c.candidate s1 = true → c.merged s1 = (q, s2) → s2.ctx? q = some c2 → fetch c2 s2 = .decoded d w s3 →
    (∀ i, d = .instr i → step s = exec i { s3 with cur := q }) ∧
    (∀ t, decodeFailure c2.dist d w = some t → step s = .next (takeTrap c2 t c2.pc s3))) ∧
  (∀ (s s1 : State) (i : Instr), s.upNext = (.event i, s1) → i.row = none → step s = exec i s1) ∧
  (∀ (s s1 : State) (n : Nat) (w : Word) (i : Instr), s.upNext = (.coreWord n w, s1) → n < s1.nCores →
    (s1.boot = .running → s1.a4 = false → (s1.core n).wait = .none →
      ((s1.core n).faultPend = true ∨ (s1.core n).netPend = true → step s = .next (s1.takeInterrupt n)) ∧
      ((s1.core n).faultPend = false → (s1.core n).netPend = false → s1.logLets n i = true → decode w 0 = .instr i →
        step s = exec i { s1 with cur := .core n }) ∧
      ((s1.core n).faultPend = false → (s1.core n).netPend = false → bitsAt w 52 12 = 0xA00 → w.getLsbD 6 = true → bitsAt w 2 4 ≠ 0 →
        step s = .next (s1.modCore n fun k => { k with trap := some { kind := .illegalField, check := 5, addr := w } }))) ∧
    (s1.boot ≠ .running ∨ s1.a4 = true → step s = .next s1)) ∧
  (∀ (s s1 : State) (p : Party) (va : Word), s.upNext = (.fetchAhead p va, s1) → ∃ t, step s = .next t ∧ SameMemory s t) ∧
  (∀ (s : State) (c : Ctx) (x : Xlat) (pa : Nat) (acc : PageAttr) (w : Word), c.fbuf = [] → c.pc.toNat < 2 ^ 56 →
    lookup s c.sp none c.la.asid c.la.root c.pc.toNat = .page x → x.place c.pc.toNat = some (pa, acc) → acc.x = true →
    s.isLocal pa = true → s.readable pa = true → s.paRead pa 8 = w → hasExt w = false →
    ∃ s', fetch c s = .decoded (decode w 0) w s' ∧ s'.mem = s.mem)

/-- The invariant holds of the part right after reset. -/
def Obligations.ResetInv : Prop := State.reset.Inv

/-- Every step keeps the canonical form of both memories and the numbering of operations. -/
def Obligations.StepKeepsInv : Prop := ∀ s t : State, s.Inv → step s = .next t → t.Inv

/-- R66, R76, R122, R124, R264, R325, R326, R376: the values that the spec gives at reset: nothing is resident, queued or pending, and each
register named here reads its reset value. The capability registers, which are fused, are no part of this. -/
def Obligations.ResetValues : Prop :=
  (∀ sp slot, State.reset.skein? sp slot = none) ∧ State.reset.launches = [] ∧ State.reset.offers = [] ∧ State.reset.time = 0 ∧
  State.reset.affw = 4 ∧ (∀ fr, (State.reset.frame fr).swcap = 64 ∧ (State.reset.frame fr).plimit = 0) ∧
  (∀ sp, (State.reset.spindle sp).drift = 320) ∧ State.reset.tlim = 95 ∧ State.reset.mtrain = 10 ∧ State.reset.idlelat = 0 ∧
  (∀ d < 4, (State.reset.die d).lastwin = BitVec.ofNat 4 (4 * d + 3) ∧ (State.reset.die d).pool = 64) ∧
  (∀ k < 8, (State.reset.tag k).expect = 1 ∧ (State.reset.tag k).en = false ∧ (State.reset.tag k).arrived = 0 ∧ (State.reset.tag k).gen = 0) ∧
  State.reset.fq = 0 ∧ State.reset.hotcfg = 0 ∧ State.reset.string = 0 ∧ State.reset.samp = 0 ∧ State.reset.memReady = 0 ∧ State.reset.ethUp = 0

/-- R76, R106, R147, R226, R231, R236, R284, R326, R351, R376, R391: what an instruction executed by a ply or distaff cannot do, whatever it is and whether
it completes or traps: it changes no skein but its own, except that a store to a neighbour's scratchpad reaches that one (R235), and that static
entries of its spindle's other skeins take the queue places that its own skein's end frees (R208, R258); no system core's general registers, and none of the package's registers. -/
def Obligations.PartiesIsolated : Prop :=
  ∀ (i : Instr) (s t : State) (c : Ctx), i.row ≠ none → s.ctx? s.cur = some c → exec i s = .next t →
    let still := fun (sp : Nat) (k : Skein) => if sp = c.sp then { k with statNext := 0, statWait := [], evHeld := 0, stageG := 0 } else k
    (∀ f, i.fields = some f → spaceOf f ≠ .neighbour → ((t.skein? c.sp c.slot).map Skein.life = some .running → SameSkeins c s t) ∧
      ∀ sp slot, ¬(sp = c.sp ∧ slot = c.slot) → (t.skein? sp slot).map (still sp) = (s.skein? sp slot).map (still sp)) ∧
    (∀ sp slot, ¬(sp = c.sp ∧ slot = c.slot) → (t.skein? sp slot).map (fun k => still sp { k with scratch := [] }) =
      (s.skein? sp slot).map (fun k => still sp { k with scratch := [] })) ∧
    SamePackage s t ∧ ∀ n r, gprOf t n r = gprOf s n r

/-- R142 to R145, R149, R245, R246, R268, R271 to R273, R278, R290, R297, R300, R305, R366, R367: what the engines compute: the bytes a copy moves, the numbers
of the products and of TCVT, the stamp record of TST, and the cells that gates, fills, rotations and schedule words leave. -/
def Obligations.EngineResults : Prop :=
  CopyMoves ∧ ProductResults ∧ StampWritten ∧ PresetGate ∧ FillPhase ∧ Rotation ∧ ScheduleWord
end

