-- ==== Sys2Proof/Laws/Mem.lean ====
section
/-! SUPPORT. Laws of the stores and of memory: read after write, and that every write keeps the canonical form. -/

namespace Sys2Proof.Machine

variable {α : Type} {n : Nat}

/-! ## Read after write -/

theorem aget?_aput_same (l : Assoc α) (k : Nat) (v : α) : aget? (aput l k v) k = some v := by
  induction l with
  | nil => simp [aput, aget?]
  | cons p l ih =>
    obtain ⟨k', v'⟩ := p
    by_cases h : k = k'
    · simp [aput, aget?, h]
    · by_cases h2 : k < k' <;> simp [aput, aget?, h, h2, ih]

theorem aget?_aput_other (l : Assoc α) (k j : Nat) (v : α) (h : j ≠ k) : aget? (aput l k v) j = aget? l j := by
  induction l with
  | nil => simp [aput, aget?, h]
  | cons p l ih =>
    obtain ⟨k', v'⟩ := p
    by_cases h1 : k = k'
    · subst h1; simp [aput, aget?, h]
    · by_cases h2 : k < k'
      · simp [aput, aget?, h, h1, h2]
      · simp [aput, aget?, h1, h2, ih]

theorem aget?_adel_same (l : Assoc α) (k : Nat) : aget? (adel l k) k = none := by
  induction l with
  | nil => rfl
  | cons p l ih =>
    obtain ⟨k', v'⟩ := p
    by_cases h : k = k' <;> simp [adel, aget?, h, ih]
    subst h; exact ih

theorem aget?_adel_other (l : Assoc α) (k j : Nat) (h : j ≠ k) : aget? (adel l k) j = aget? l j := by
  induction l with
  | nil => rfl
  | cons p l ih =>
    obtain ⟨k', v'⟩ := p
    by_cases h1 : k = k'
    · subst h1; simp [adel, aget?, h, ih]
    · simp [adel, aget?, h1, ih]

@[simp] theorem agetD_aput_same (l : Assoc α) (k : Nat) (v d : α) : agetD (aput l k v) k d = v := by
  simp [agetD, aget?_aput_same]

theorem agetD_aput_other (l : Assoc α) (k j : Nat) (v d : α) (h : j ≠ k) : agetD (aput l k v) j d = agetD l j d := by
  simp [agetD, aget?_aput_other, h]

@[simp] theorem sget_sset_same (m : Sparse n) (k : Nat) (v : BitVec n) : sget (sset m k v) k = v := by
  unfold sget sset agetD
  split
  · next h => simp [aget?_adel_same, h]
  · simp [aget?_aput_same]

theorem sget_sset_other (m : Sparse n) (k j : Nat) (v : BitVec n) (h : j ≠ k) : sget (sset m k v) j = sget m j := by
  unfold sget sset agetD
  split <;> simp [aget?_adel_other, aget?_aput_other, h]

theorem sget_sset (m : Sparse n) (k j : Nat) (v : BitVec n) : sget (sset m k v) j = if j = k then v else sget m j := by
  by_cases h : j = k
  · subst h; simp
  · simp [h, sget_sset_other]

/-- Bytes below or beyond the stored ones read as before. -/
theorem sget_sputBytes_outside (m : Sparse 8) (a j : Nat) (l : List Byte) (h : j < a ∨ a + l.length ≤ j) :
    sget (sputBytes m a l) j = sget m j := by
  induction l generalizing m a with
  | nil => rfl
  | cons b l ih =>
    simp only [List.length_cons] at h
    rw [sputBytes, ih _ _ (by omega), sget_sset_other _ _ _ _ (by omega)]

/-- A stored byte reads as stored. -/
theorem sget_sputBytes_inside (m : Sparse 8) (a i : Nat) (l : List Byte) (h : i < l.length) :
    sget (sputBytes m a l) (a + i) = l[i] := by
  induction l generalizing m a i with
  | nil => simp at h
  | cons b l ih =>
    cases i with
    | zero => rw [sputBytes, sget_sputBytes_outside _ _ _ _ (by omega)]; simp
    | succ i =>
      simp only [List.length_cons] at h
      have := ih (sset m a b) (a + 1) i (by omega)
      rw [sputBytes, show a + (i + 1) = a + 1 + i by omega, this]
      simp

/-! ## The canonical form -/

theorem aabove_aput (l : Assoc α) (b k : Nat) (v : α) (h : aabove b l = true) (hk : b < k) : aabove b (aput l k v) = true := by
  cases l with
  | nil => simp [aput, aabove, hk]
  | cons p l =>
    obtain ⟨k', v'⟩ := p
    unfold aput
    split
    · simp [aabove, hk]
    · split
      · simp [aabove, hk]
      · simpa [aabove] using h

theorem asorted_aput (l : Assoc α) (k : Nat) (v : α) (h : asorted l = true) : asorted (aput l k v) = true := by
  induction l with
  | nil => simp [aput, asorted, aabove]
  | cons p l ih =>
    obtain ⟨k', v'⟩ := p
    simp only [asorted, Bool.and_eq_true] at h
    unfold aput
    split
    · next e => subst e; simp [asorted, h.1, h.2]
    · split
      · next h2 =>
        simp only [asorted, Bool.and_eq_true]
        exact ⟨by simp [aabove, h2], h.1, h.2⟩
      · next h1 h2 => simp [asorted, ih h.2, aabove_aput l k' k v h.1 (by omega)]

theorem aabove_adel (l : Assoc α) (b k : Nat) (hs : asorted l = true) (h : aabove b l = true) : aabove b (adel l k) = true := by
  induction l generalizing b with
  | nil => rfl
  | cons p l ih =>
    obtain ⟨k', v'⟩ := p
    simp only [asorted, Bool.and_eq_true] at hs
    simp only [aabove, decide_eq_true_eq] at h
    unfold adel
    split
    · refine ih b hs.2 ?_
      cases l with
      | nil => rfl
      | cons q l =>
        have := hs.1
        simp only [aabove, decide_eq_true_eq] at this ⊢
        omega
    · simpa [aabove] using h

theorem asorted_adel (l : Assoc α) (k : Nat) (h : asorted l = true) : asorted (adel l k) = true := by
  induction l with
  | nil => rfl
  | cons p l ih =>
    obtain ⟨k', v'⟩ := p
    simp only [asorted, Bool.and_eq_true] at h
    unfold adel
    split
    · exact ih h.2
    · simp [asorted, ih h.2, aabove_adel l k' k h.2 h.1]

theorem all_aput (l : Assoc α) (k : Nat) (v : α) (q : α → Bool) (h : (l.all fun p => q p.2) = true) (hv : q v = true) :
    ((aput l k v).all fun p => q p.2) = true := by
  induction l with
  | nil => simp [aput, hv]
  | cons p l ih =>
    obtain ⟨k', v'⟩ := p
    simp only [List.all_cons, Bool.and_eq_true] at h
    unfold aput
    split
    · simp [hv, h.2]
    · split
      · simp [hv, h.1, h.2]
      · simp [h.1, ih h.2]

theorem all_adel (l : Assoc α) (k : Nat) (q : α → Bool) (h : (l.all fun p => q p.2) = true) :
    ((adel l k).all fun p => q p.2) = true := by
  induction l with
  | nil => rfl
  | cons p l ih =>
    obtain ⟨k', v'⟩ := p
    simp only [List.all_cons, Bool.and_eq_true] at h
    unfold adel
    split
    · exact ih h.2
    · simp [h.1, ih h.2]

/-- A write of one cell keeps the canonical form. -/
theorem sset_swf (m : Sparse n) (k : Nat) (v : BitVec n) (h : swf m = true) : swf (sset m k v) = true := by
  simp only [swf, Bool.and_eq_true] at h ⊢
  unfold sset
  split
  · exact ⟨asorted_adel _ _ h.1, all_adel _ _ (fun x => x != 0) h.2⟩
  · next hv => exact ⟨asorted_aput _ _ _ h.1, all_aput _ _ _ (fun x => x != 0) h.2 (by simpa using hv)⟩

theorem sputBytes_swf (m : Sparse 8) (a : Nat) (l : List Byte) (h : swf m = true) : swf (sputBytes m a l) = true := by
  induction l generalizing m a with
  | nil => exact h
  | cons b l ih => exact ih _ _ (sset_swf _ _ _ h)

theorem swrite_swf (m : Sparse 8) (a k : Nat) (v : Word) (h : swf m = true) : swf (swrite m a k v) = true :=
  sputBytes_swf _ _ _ h

/-- An empty store is in canonical form. -/
@[simp] theorem swf_nil : swf ([] : Sparse n) = true := rfl

/-! ## Memory by physical address (R217) -/

/-- What a write of one byte does: it changes one cell of local or of remote memory, or nothing where a local hole is. -/
theorem paPut_cases (s : State) (pa : Nat) (b : Byte) :
    (s.isLocal pa = true ∧ s.present (offsetOf pa) = true ∧ s.paPut pa b = { s with mem := sset s.mem (offsetOf pa) (b ^^^ s.blank (offsetOf pa)) }) ∨
    (s.isLocal pa = true ∧ s.present (offsetOf pa) = false ∧ s.paPut pa b = s) ∨
    (s.isLocal pa = false ∧ s.paPut pa b = { s with remote := sset s.remote pa b }) := by
  unfold State.paPut
  cases h : s.isLocal pa <;> cases h2 : s.present (offsetOf pa) <;> simp

theorem paPut_mem_wf (s : State) (pa : Nat) (b : Byte) (h : Memory.wf s.mem = true) : Memory.wf (s.paPut pa b).mem = true := by
  obtain ⟨-, -, e⟩ | ⟨-, -, e⟩ | ⟨-, e⟩ := paPut_cases s pa b <;> rw [e]
  · exact sset_swf _ _ _ h
  · exact h
  · exact h

theorem paPut_remote_wf (s : State) (pa : Nat) (b : Byte) (h : Memory.wf s.remote = true) :
    Memory.wf (s.paPut pa b).remote = true := by
  obtain ⟨-, -, e⟩ | ⟨-, -, e⟩ | ⟨-, e⟩ := paPut_cases s pa b <;> rw [e]
  · exact h
  · exact h
  · exact sset_swf _ _ _ h

theorem paPutBytes_mem_wf (s : State) (pa : Nat) (l : List Byte) (h : Memory.wf s.mem = true) :
    Memory.wf (s.paPutBytes pa l).mem = true := by
  induction l generalizing s pa with
  | nil => exact h
  | cons b l ih => exact ih _ _ (paPut_mem_wf _ _ _ h)

theorem paPutBytes_remote_wf (s : State) (pa : Nat) (l : List Byte) (h : Memory.wf s.remote = true) :
    Memory.wf (s.paPutBytes pa l).remote = true := by
  induction l generalizing s pa with
  | nil => exact h
  | cons b l ih => exact ih _ _ (paPut_remote_wf _ _ _ h)

theorem paWrite_mem_wf (s : State) (pa k : Nat) (v : Word) (h : Memory.wf s.mem = true) : Memory.wf (s.paWrite pa k v).mem = true :=
  paPutBytes_mem_wf _ _ _ h

theorem paWrite_remote_wf (s : State) (pa k : Nat) (v : Word) (h : Memory.wf s.remote = true) :
    Memory.wf (s.paWrite pa k v).remote = true :=
  paPutBytes_remote_wf _ _ _ h

/-- Reset memory is in canonical form. -/
theorem reset_mem_wf : Memory.wf State.reset.mem = true := rfl

theorem reset_remote_wf : Memory.wf State.reset.remote = true := rfl

/-- Another byte reads as before. -/
theorem paByte_paPut_other (s : State) (pa qa : Nat) (b : Byte) (h : qa ≠ pa) : (s.paPut pa b).paByte qa = s.paByte qa := by
  have offs : s.isLocal pa = true → s.isLocal qa = true → offsetOf qa ≠ offsetOf pa := by
    simp only [State.isLocal, offsetOf, decide_eq_true_eq]
    omega
  obtain ⟨hl, -, e⟩ | ⟨-, -, e⟩ | ⟨hl, e⟩ := paPut_cases s pa b <;> rw [e]
  · unfold State.paByte
    generalize b ^^^ s.blank (offsetOf pa) = v
    have h1 : State.isLocal { s with mem := sset s.mem (offsetOf pa) v } qa = s.isLocal qa := rfl
    have h2 : State.present { s with mem := sset s.mem (offsetOf pa) v } (offsetOf qa) = s.present (offsetOf qa) := rfl
    have h3 : State.blank { s with mem := sset s.mem (offsetOf pa) v } (offsetOf qa) = s.blank (offsetOf qa) := rfl
    rw [h1, h2, h3]
    cases hq : s.isLocal qa
    · rfl
    · simp [sget_sset_other _ _ _ _ (offs hl hq)]
  · unfold State.paByte
    have h1 : State.isLocal { s with remote := sset s.remote pa b } qa = s.isLocal qa := rfl
    have h2 : State.present { s with remote := sset s.remote pa b } (offsetOf qa) = s.present (offsetOf qa) := rfl
    have h3 : State.blank { s with remote := sset s.remote pa b } (offsetOf qa) = s.blank (offsetOf qa) := rfl
    rw [h1, h2, h3, sget_sset_other _ _ _ _ h]

/-- A byte that memory holds reads as written. -/
theorem paByte_paPut_same (s : State) (pa : Nat) (b : Byte) (h : s.isLocal pa = true → s.present (offsetOf pa) = true) :
    (s.paPut pa b).paByte pa = b := by
  obtain ⟨hl, hp, e⟩ | ⟨hl, hp, e⟩ | ⟨hl, e⟩ := paPut_cases s pa b
  · rw [e]
    unfold State.paByte
    generalize hv : b ^^^ s.blank (offsetOf pa) = v
    have h1 : State.isLocal { s with mem := sset s.mem (offsetOf pa) v } pa = true := hl
    have h2 : State.present { s with mem := sset s.mem (offsetOf pa) v } (offsetOf pa) = true := hp
    have h3 : State.blank { s with mem := sset s.mem (offsetOf pa) v } (offsetOf pa) = s.blank (offsetOf pa) := rfl
    simp only [h1, h2, h3, if_true, sget_sset_same]
    rw [← hv, BitVec.xor_assoc, BitVec.xor_self, BitVec.xor_zero]
  · simp [h hl] at hp
  · rw [e]
    unfold State.paByte
    have h1 : State.isLocal { s with remote := sset s.remote pa b } pa = false := hl
    simp [h1]

/-! ## Lists by index -/

theorem nth_modNth_same (l : List α) (i : Nat) (g : α → α) (d : α) (h : i < l.length) : nth (modNth l i g) i d = g (nth l i d) := by
  induction l generalizing i with
  | nil => simp at h
  | cons x l ih =>
    cases i with
    | zero => rfl
    | succ i => simpa [modNth, nth] using ih i (by simpa using h)

theorem nth_modNth_other (l : List α) (i j : Nat) (g : α → α) (d : α) (h : j ≠ i) : nth (modNth l i g) j d = nth l j d := by
  induction l generalizing i j with
  | nil => rfl
  | cons x l ih =>
    cases i with
    | zero => cases j <;> first | exact absurd rfl h | rfl
    | succ i =>
      cases j with
      | zero => rfl
      | succ j => simpa [modNth, nth] using ih i j (by omega)

@[simp] theorem modNth_length (l : List α) (i : Nat) (g : α → α) : (modNth l i g).length = l.length := by
  induction l generalizing i with
  | nil => rfl
  | cons x l ih => cases i <;> simp [modNth, ih]

end Sys2Proof.Machine
end

