-- ==== Sys2Proof/Laws/State.lean ====
section
/-! SUPPORT. What each update of a part of the state leaves of every field of the state, so that no later proof unfolds an update;
and what a part reads as after it is written. -/

namespace Sys2Proof.Machine

/-! ## setSpindle -/

@[simp] theorem setSpindle_tick (s : State) (sp : Nat) (x : Spindle) : (s.setSpindle sp x).tick = s.tick := rfl
@[simp] theorem setSpindle_agenda (s : State) (sp : Nat) (x : Spindle) : (s.setSpindle sp x).agenda = s.agenda := rfl
@[simp] theorem setSpindle_cur (s : State) (sp : Nat) (x : Spindle) : (s.setSpindle sp x).cur = s.cur := rfl
@[simp] theorem setSpindle_opSeq (s : State) (sp : Nat) (x : Spindle) : (s.setSpindle sp x).opSeq = s.opSeq := rfl
@[simp] theorem setSpindle_units (s : State) (sp : Nat) (x : Spindle) : (s.setSpindle sp x).units = s.units := rfl
@[simp] theorem setSpindle_stepping (s : State) (sp : Nat) (x : Spindle) : (s.setSpindle sp x).stepping = s.stepping := rfl
@[simp] theorem setSpindle_time (s : State) (sp : Nat) (x : Spindle) : (s.setSpindle sp x).time = s.time := rfl
@[simp] theorem setSpindle_mem (s : State) (sp : Nat) (x : Spindle) : (s.setSpindle sp x).mem = s.mem := rfl
@[simp] theorem setSpindle_remote (s : State) (sp : Nat) (x : Spindle) : (s.setSpindle sp x).remote = s.remote := rfl
@[simp] theorem setSpindle_reqs (s : State) (sp : Nat) (x : Spindle) : (s.setSpindle sp x).reqs = s.reqs := rfl
@[simp] theorem setSpindle_frames (s : State) (sp : Nat) (x : Spindle) : (s.setSpindle sp x).frames = s.frames := rfl
@[simp] theorem setSpindle_dies (s : State) (sp : Nat) (x : Spindle) : (s.setSpindle sp x).dies = s.dies := rfl
@[simp] theorem setSpindle_cores (s : State) (sp : Nat) (x : Spindle) : (s.setSpindle sp x).cores = s.cores := rfl
@[simp] theorem setSpindle_fifos (s : State) (sp : Nat) (x : Spindle) : (s.setSpindle sp x).fifos = s.fifos := rfl
@[simp] theorem setSpindle_launches (s : State) (sp : Nat) (x : Spindle) : (s.setSpindle sp x).launches = s.launches := rfl
@[simp] theorem setSpindle_acceptCount (s : State) (sp : Nat) (x : Spindle) : (s.setSpindle sp x).acceptCount = s.acceptCount := rfl
@[simp] theorem setSpindle_offers (s : State) (sp : Nat) (x : Spindle) : (s.setSpindle sp x).offers = s.offers := rfl
@[simp] theorem setSpindle_dealPtr (s : State) (sp : Nat) (x : Spindle) : (s.setSpindle sp x).dealPtr = s.dealPtr := rfl
@[simp] theorem setSpindle_rcbs (s : State) (sp : Nat) (x : Spindle) : (s.setSpindle sp x).rcbs = s.rcbs := rfl
@[simp] theorem setSpindle_affw (s : State) (sp : Nat) (x : Spindle) : (s.setSpindle sp x).affw = s.affw := rfl
@[simp] theorem setSpindle_frsel (s : State) (sp : Nat) (x : Spindle) : (s.setSpindle sp x).frsel = s.frsel := rfl
@[simp] theorem setSpindle_mcStack (s : State) (sp : Nat) (x : Spindle) : (s.setSpindle sp x).mcStack = s.mcStack := rfl
@[simp] theorem setSpindle_mcRange (s : State) (sp : Nat) (x : Spindle) : (s.setSpindle sp x).mcRange = s.mcRange := rfl
@[simp] theorem setSpindle_assel (s : State) (sp : Nat) (x : Spindle) : (s.setSpindle sp x).assel = s.assel := rfl
@[simp] theorem setSpindle_spaces (s : State) (sp : Nat) (x : Spindle) : (s.setSpindle sp x).spaces = s.spaces := rfl
@[simp] theorem setSpindle_fq (s : State) (sp : Nat) (x : Spindle) : (s.setSpindle sp x).fq = s.fq := rfl
@[simp] theorem setSpindle_fqHead (s : State) (sp : Nat) (x : Spindle) : (s.setSpindle sp x).fqHead = s.fqHead := rfl
@[simp] theorem setSpindle_fqTail (s : State) (sp : Nat) (x : Spindle) : (s.setSpindle sp x).fqTail = s.fqTail := rfl
@[simp] theorem setSpindle_fqWait (s : State) (sp : Nat) (x : Spindle) : (s.setSpindle sp x).fqWait = s.fqWait := rfl
@[simp] theorem setSpindle_known (s : State) (sp : Nat) (x : Spindle) : (s.setSpindle sp x).known = s.known := rfl
@[simp] theorem setSpindle_hotcfg (s : State) (sp : Nat) (x : Spindle) : (s.setSpindle sp x).hotcfg = s.hotcfg := rfl
@[simp] theorem setSpindle_hot (s : State) (sp : Nat) (x : Spindle) : (s.setSpindle sp x).hot = s.hot := rfl
@[simp] theorem setSpindle_hotAt (s : State) (sp : Nat) (x : Spindle) : (s.setSpindle sp x).hotAt = s.hotAt := rfl
@[simp] theorem setSpindle_pkg (s : State) (sp : Nat) (x : Spindle) : (s.setSpindle sp x).pkg = s.pkg := rfl
@[simp] theorem setSpindle_aselArray (s : State) (sp : Nat) (x : Spindle) : (s.setSpindle sp x).aselArray = s.aselArray := rfl
@[simp] theorem setSpindle_aselSpindle (s : State) (sp : Nat) (x : Spindle) : (s.setSpindle sp x).aselSpindle = s.aselSpindle := rfl
@[simp] theorem setSpindle_tbsel (s : State) (sp : Nat) (x : Spindle) : (s.setSpindle sp x).tbsel = s.tbsel := rfl
@[simp] theorem setSpindle_tags (s : State) (sp : Nat) (x : Spindle) : (s.setSpindle sp x).tags = s.tags := rfl
@[simp] theorem setSpindle_preScope (s : State) (sp : Nat) (x : Spindle) : (s.setSpindle sp x).preScope = s.preScope := rfl
@[simp] theorem setSpindle_preSpindle (s : State) (sp : Nat) (x : Spindle) : (s.setSpindle sp x).preSpindle = s.preSpindle := rfl
@[simp] theorem setSpindle_preSlot (s : State) (sp : Nat) (x : Spindle) : (s.setSpindle sp x).preSlot = s.preSlot := rfl
@[simp] theorem setSpindle_pwrLink (s : State) (sp : Nat) (x : Spindle) : (s.setSpindle sp x).pwrLink = s.pwrLink := rfl
@[simp] theorem setSpindle_pwrPort (s : State) (sp : Nat) (x : Spindle) : (s.setSpindle sp x).pwrPort = s.pwrPort := rfl
@[simp] theorem setSpindle_pwrFrame (s : State) (sp : Nat) (x : Spindle) : (s.setSpindle sp x).pwrFrame = s.pwrFrame := rfl
@[simp] theorem setSpindle_tlim (s : State) (sp : Nat) (x : Spindle) : (s.setSpindle sp x).tlim = s.tlim := rfl
@[simp] theorem setSpindle_budget (s : State) (sp : Nat) (x : Spindle) : (s.setSpindle sp x).budget = s.budget := rfl
@[simp] theorem setSpindle_mtrain (s : State) (sp : Nat) (x : Spindle) : (s.setSpindle sp x).mtrain = s.mtrain := rfl
@[simp] theorem setSpindle_idlelat (s : State) (sp : Nat) (x : Spindle) : (s.setSpindle sp x).idlelat = s.idlelat := rfl
@[simp] theorem setSpindle_a4 (s : State) (sp : Nat) (x : Spindle) : (s.setSpindle sp x).a4 = s.a4 := rfl
@[simp] theorem setSpindle_a4Wake (s : State) (sp : Nat) (x : Spindle) : (s.setSpindle sp x).a4Wake = s.a4Wake := rfl
@[simp] theorem setSpindle_bdie (s : State) (sp : Nat) (x : Spindle) : (s.setSpindle sp x).bdie = s.bdie := rfl
@[simp] theorem setSpindle_cdie (s : State) (sp : Nat) (x : Spindle) : (s.setSpindle sp x).cdie = s.cdie := rfl
@[simp] theorem setSpindle_memReady (s : State) (sp : Nat) (x : Spindle) : (s.setSpindle sp x).memReady = s.memReady := rfl
@[simp] theorem setSpindle_ethUp (s : State) (sp : Nat) (x : Spindle) : (s.setSpindle sp x).ethUp = s.ethUp := rfl
@[simp] theorem setSpindle_hostUp (s : State) (sp : Nat) (x : Spindle) : (s.setSpindle sp x).hostUp = s.hostUp := rfl
@[simp] theorem setSpindle_retraining (s : State) (sp : Nat) (x : Spindle) : (s.setSpindle sp x).retraining = s.retraining := rfl
@[simp] theorem setSpindle_retrainNext (s : State) (sp : Nat) (x : Spindle) : (s.setSpindle sp x).retrainNext = s.retrainNext := rfl
@[simp] theorem setSpindle_retrainAt (s : State) (sp : Nat) (x : Spindle) : (s.setSpindle sp x).retrainAt = s.retrainAt := rfl
@[simp] theorem setSpindle_links (s : State) (sp : Nat) (x : Spindle) : (s.setSpindle sp x).links = s.links := rfl
@[simp] theorem setSpindle_eths (s : State) (sp : Nat) (x : Spindle) : (s.setSpindle sp x).eths = s.eths := rfl
@[simp] theorem setSpindle_hostCtl (s : State) (sp : Nat) (x : Spindle) : (s.setSpindle sp x).hostCtl = s.hostCtl := rfl
@[simp] theorem setSpindle_hostRead (s : State) (sp : Nat) (x : Spindle) : (s.setSpindle sp x).hostRead = s.hostRead := rfl
@[simp] theorem setSpindle_secOp (s : State) (sp : Nat) (x : Spindle) : (s.setSpindle sp x).secOp = s.secOp := rfl
@[simp] theorem setSpindle_secPend (s : State) (sp : Nat) (x : Spindle) : (s.setSpindle sp x).secPend = s.secPend := rfl
@[simp] theorem setSpindle_slots (s : State) (sp : Nat) (x : Spindle) : (s.setSpindle sp x).slots = s.slots := rfl
@[simp] theorem setSpindle_boot (s : State) (sp : Nat) (x : Spindle) : (s.setSpindle sp x).boot = s.boot := rfl
@[simp] theorem setSpindle_string (s : State) (sp : Nat) (x : Spindle) : (s.setSpindle sp x).string = s.string := rfl
@[simp] theorem setSpindle_strHead (s : State) (sp : Nat) (x : Spindle) : (s.setSpindle sp x).strHead = s.strHead := rfl
@[simp] theorem setSpindle_strTail (s : State) (sp : Nat) (x : Spindle) : (s.setSpindle sp x).strTail = s.strTail := rfl
@[simp] theorem setSpindle_strLost (s : State) (sp : Nat) (x : Spindle) : (s.setSpindle sp x).strLost = s.strLost := rfl
@[simp] theorem setSpindle_strWait (s : State) (sp : Nat) (x : Spindle) : (s.setSpindle sp x).strWait = s.strWait := rfl
@[simp] theorem setSpindle_samp (s : State) (sp : Nat) (x : Spindle) : (s.setSpindle sp x).samp = s.samp := rfl
@[simp] theorem setSpindle_sampAt (s : State) (sp : Nat) (x : Spindle) : (s.setSpindle sp x).sampAt = s.sampAt := rfl
@[simp] theorem setSpindle_cselSpindle (s : State) (sp : Nat) (x : Spindle) : (s.setSpindle sp x).cselSpindle = s.cselSpindle := rfl
@[simp] theorem setSpindle_cselCtr (s : State) (sp : Nat) (x : Spindle) : (s.setSpindle sp x).cselCtr = s.cselCtr := rfl
@[simp] theorem setSpindle_dbgHold (s : State) (sp : Nat) (x : Spindle) : (s.setSpindle sp x).dbgHold = s.dbgHold := rfl

/-! ## modSpindle -/

@[simp] theorem modSpindle_tick (s : State) (sp : Nat) (g : Spindle → Spindle) : (s.modSpindle sp g).tick = s.tick := rfl
@[simp] theorem modSpindle_agenda (s : State) (sp : Nat) (g : Spindle → Spindle) : (s.modSpindle sp g).agenda = s.agenda := rfl
@[simp] theorem modSpindle_cur (s : State) (sp : Nat) (g : Spindle → Spindle) : (s.modSpindle sp g).cur = s.cur := rfl
@[simp] theorem modSpindle_opSeq (s : State) (sp : Nat) (g : Spindle → Spindle) : (s.modSpindle sp g).opSeq = s.opSeq := rfl
@[simp] theorem modSpindle_units (s : State) (sp : Nat) (g : Spindle → Spindle) : (s.modSpindle sp g).units = s.units := rfl
@[simp] theorem modSpindle_stepping (s : State) (sp : Nat) (g : Spindle → Spindle) : (s.modSpindle sp g).stepping = s.stepping := rfl
@[simp] theorem modSpindle_time (s : State) (sp : Nat) (g : Spindle → Spindle) : (s.modSpindle sp g).time = s.time := rfl
@[simp] theorem modSpindle_mem (s : State) (sp : Nat) (g : Spindle → Spindle) : (s.modSpindle sp g).mem = s.mem := rfl
@[simp] theorem modSpindle_remote (s : State) (sp : Nat) (g : Spindle → Spindle) : (s.modSpindle sp g).remote = s.remote := rfl
@[simp] theorem modSpindle_reqs (s : State) (sp : Nat) (g : Spindle → Spindle) : (s.modSpindle sp g).reqs = s.reqs := rfl
@[simp] theorem modSpindle_frames (s : State) (sp : Nat) (g : Spindle → Spindle) : (s.modSpindle sp g).frames = s.frames := rfl
@[simp] theorem modSpindle_dies (s : State) (sp : Nat) (g : Spindle → Spindle) : (s.modSpindle sp g).dies = s.dies := rfl
@[simp] theorem modSpindle_cores (s : State) (sp : Nat) (g : Spindle → Spindle) : (s.modSpindle sp g).cores = s.cores := rfl
@[simp] theorem modSpindle_fifos (s : State) (sp : Nat) (g : Spindle → Spindle) : (s.modSpindle sp g).fifos = s.fifos := rfl
@[simp] theorem modSpindle_launches (s : State) (sp : Nat) (g : Spindle → Spindle) : (s.modSpindle sp g).launches = s.launches := rfl
@[simp] theorem modSpindle_acceptCount (s : State) (sp : Nat) (g : Spindle → Spindle) : (s.modSpindle sp g).acceptCount = s.acceptCount := rfl
@[simp] theorem modSpindle_offers (s : State) (sp : Nat) (g : Spindle → Spindle) : (s.modSpindle sp g).offers = s.offers := rfl
@[simp] theorem modSpindle_dealPtr (s : State) (sp : Nat) (g : Spindle → Spindle) : (s.modSpindle sp g).dealPtr = s.dealPtr := rfl
@[simp] theorem modSpindle_rcbs (s : State) (sp : Nat) (g : Spindle → Spindle) : (s.modSpindle sp g).rcbs = s.rcbs := rfl
@[simp] theorem modSpindle_affw (s : State) (sp : Nat) (g : Spindle → Spindle) : (s.modSpindle sp g).affw = s.affw := rfl
@[simp] theorem modSpindle_frsel (s : State) (sp : Nat) (g : Spindle → Spindle) : (s.modSpindle sp g).frsel = s.frsel := rfl
@[simp] theorem modSpindle_mcStack (s : State) (sp : Nat) (g : Spindle → Spindle) : (s.modSpindle sp g).mcStack = s.mcStack := rfl
@[simp] theorem modSpindle_mcRange (s : State) (sp : Nat) (g : Spindle → Spindle) : (s.modSpindle sp g).mcRange = s.mcRange := rfl
@[simp] theorem modSpindle_assel (s : State) (sp : Nat) (g : Spindle → Spindle) : (s.modSpindle sp g).assel = s.assel := rfl
@[simp] theorem modSpindle_spaces (s : State) (sp : Nat) (g : Spindle → Spindle) : (s.modSpindle sp g).spaces = s.spaces := rfl
@[simp] theorem modSpindle_fq (s : State) (sp : Nat) (g : Spindle → Spindle) : (s.modSpindle sp g).fq = s.fq := rfl
@[simp] theorem modSpindle_fqHead (s : State) (sp : Nat) (g : Spindle → Spindle) : (s.modSpindle sp g).fqHead = s.fqHead := rfl
@[simp] theorem modSpindle_fqTail (s : State) (sp : Nat) (g : Spindle → Spindle) : (s.modSpindle sp g).fqTail = s.fqTail := rfl
@[simp] theorem modSpindle_fqWait (s : State) (sp : Nat) (g : Spindle → Spindle) : (s.modSpindle sp g).fqWait = s.fqWait := rfl
@[simp] theorem modSpindle_known (s : State) (sp : Nat) (g : Spindle → Spindle) : (s.modSpindle sp g).known = s.known := rfl
@[simp] theorem modSpindle_hotcfg (s : State) (sp : Nat) (g : Spindle → Spindle) : (s.modSpindle sp g).hotcfg = s.hotcfg := rfl
@[simp] theorem modSpindle_hot (s : State) (sp : Nat) (g : Spindle → Spindle) : (s.modSpindle sp g).hot = s.hot := rfl
@[simp] theorem modSpindle_hotAt (s : State) (sp : Nat) (g : Spindle → Spindle) : (s.modSpindle sp g).hotAt = s.hotAt := rfl
@[simp] theorem modSpindle_pkg (s : State) (sp : Nat) (g : Spindle → Spindle) : (s.modSpindle sp g).pkg = s.pkg := rfl
@[simp] theorem modSpindle_aselArray (s : State) (sp : Nat) (g : Spindle → Spindle) : (s.modSpindle sp g).aselArray = s.aselArray := rfl
@[simp] theorem modSpindle_aselSpindle (s : State) (sp : Nat) (g : Spindle → Spindle) : (s.modSpindle sp g).aselSpindle = s.aselSpindle := rfl
@[simp] theorem modSpindle_tbsel (s : State) (sp : Nat) (g : Spindle → Spindle) : (s.modSpindle sp g).tbsel = s.tbsel := rfl
@[simp] theorem modSpindle_tags (s : State) (sp : Nat) (g : Spindle → Spindle) : (s.modSpindle sp g).tags = s.tags := rfl
@[simp] theorem modSpindle_preScope (s : State) (sp : Nat) (g : Spindle → Spindle) : (s.modSpindle sp g).preScope = s.preScope := rfl
@[simp] theorem modSpindle_preSpindle (s : State) (sp : Nat) (g : Spindle → Spindle) : (s.modSpindle sp g).preSpindle = s.preSpindle := rfl
@[simp] theorem modSpindle_preSlot (s : State) (sp : Nat) (g : Spindle → Spindle) : (s.modSpindle sp g).preSlot = s.preSlot := rfl
@[simp] theorem modSpindle_pwrLink (s : State) (sp : Nat) (g : Spindle → Spindle) : (s.modSpindle sp g).pwrLink = s.pwrLink := rfl
@[simp] theorem modSpindle_pwrPort (s : State) (sp : Nat) (g : Spindle → Spindle) : (s.modSpindle sp g).pwrPort = s.pwrPort := rfl
@[simp] theorem modSpindle_pwrFrame (s : State) (sp : Nat) (g : Spindle → Spindle) : (s.modSpindle sp g).pwrFrame = s.pwrFrame := rfl
@[simp] theorem modSpindle_tlim (s : State) (sp : Nat) (g : Spindle → Spindle) : (s.modSpindle sp g).tlim = s.tlim := rfl
@[simp] theorem modSpindle_budget (s : State) (sp : Nat) (g : Spindle → Spindle) : (s.modSpindle sp g).budget = s.budget := rfl
@[simp] theorem modSpindle_mtrain (s : State) (sp : Nat) (g : Spindle → Spindle) : (s.modSpindle sp g).mtrain = s.mtrain := rfl
@[simp] theorem modSpindle_idlelat (s : State) (sp : Nat) (g : Spindle → Spindle) : (s.modSpindle sp g).idlelat = s.idlelat := rfl
@[simp] theorem modSpindle_a4 (s : State) (sp : Nat) (g : Spindle → Spindle) : (s.modSpindle sp g).a4 = s.a4 := rfl
@[simp] theorem modSpindle_a4Wake (s : State) (sp : Nat) (g : Spindle → Spindle) : (s.modSpindle sp g).a4Wake = s.a4Wake := rfl
@[simp] theorem modSpindle_bdie (s : State) (sp : Nat) (g : Spindle → Spindle) : (s.modSpindle sp g).bdie = s.bdie := rfl
@[simp] theorem modSpindle_cdie (s : State) (sp : Nat) (g : Spindle → Spindle) : (s.modSpindle sp g).cdie = s.cdie := rfl
@[simp] theorem modSpindle_memReady (s : State) (sp : Nat) (g : Spindle → Spindle) : (s.modSpindle sp g).memReady = s.memReady := rfl
@[simp] theorem modSpindle_ethUp (s : State) (sp : Nat) (g : Spindle → Spindle) : (s.modSpindle sp g).ethUp = s.ethUp := rfl
@[simp] theorem modSpindle_hostUp (s : State) (sp : Nat) (g : Spindle → Spindle) : (s.modSpindle sp g).hostUp = s.hostUp := rfl
@[simp] theorem modSpindle_retraining (s : State) (sp : Nat) (g : Spindle → Spindle) : (s.modSpindle sp g).retraining = s.retraining := rfl
@[simp] theorem modSpindle_retrainNext (s : State) (sp : Nat) (g : Spindle → Spindle) : (s.modSpindle sp g).retrainNext = s.retrainNext := rfl
@[simp] theorem modSpindle_retrainAt (s : State) (sp : Nat) (g : Spindle → Spindle) : (s.modSpindle sp g).retrainAt = s.retrainAt := rfl
@[simp] theorem modSpindle_links (s : State) (sp : Nat) (g : Spindle → Spindle) : (s.modSpindle sp g).links = s.links := rfl
@[simp] theorem modSpindle_eths (s : State) (sp : Nat) (g : Spindle → Spindle) : (s.modSpindle sp g).eths = s.eths := rfl
@[simp] theorem modSpindle_hostCtl (s : State) (sp : Nat) (g : Spindle → Spindle) : (s.modSpindle sp g).hostCtl = s.hostCtl := rfl
@[simp] theorem modSpindle_hostRead (s : State) (sp : Nat) (g : Spindle → Spindle) : (s.modSpindle sp g).hostRead = s.hostRead := rfl
@[simp] theorem modSpindle_secOp (s : State) (sp : Nat) (g : Spindle → Spindle) : (s.modSpindle sp g).secOp = s.secOp := rfl
@[simp] theorem modSpindle_secPend (s : State) (sp : Nat) (g : Spindle → Spindle) : (s.modSpindle sp g).secPend = s.secPend := rfl
@[simp] theorem modSpindle_slots (s : State) (sp : Nat) (g : Spindle → Spindle) : (s.modSpindle sp g).slots = s.slots := rfl
@[simp] theorem modSpindle_boot (s : State) (sp : Nat) (g : Spindle → Spindle) : (s.modSpindle sp g).boot = s.boot := rfl
@[simp] theorem modSpindle_string (s : State) (sp : Nat) (g : Spindle → Spindle) : (s.modSpindle sp g).string = s.string := rfl
@[simp] theorem modSpindle_strHead (s : State) (sp : Nat) (g : Spindle → Spindle) : (s.modSpindle sp g).strHead = s.strHead := rfl
@[simp] theorem modSpindle_strTail (s : State) (sp : Nat) (g : Spindle → Spindle) : (s.modSpindle sp g).strTail = s.strTail := rfl
@[simp] theorem modSpindle_strLost (s : State) (sp : Nat) (g : Spindle → Spindle) : (s.modSpindle sp g).strLost = s.strLost := rfl
@[simp] theorem modSpindle_strWait (s : State) (sp : Nat) (g : Spindle → Spindle) : (s.modSpindle sp g).strWait = s.strWait := rfl
@[simp] theorem modSpindle_samp (s : State) (sp : Nat) (g : Spindle → Spindle) : (s.modSpindle sp g).samp = s.samp := rfl
@[simp] theorem modSpindle_sampAt (s : State) (sp : Nat) (g : Spindle → Spindle) : (s.modSpindle sp g).sampAt = s.sampAt := rfl
@[simp] theorem modSpindle_cselSpindle (s : State) (sp : Nat) (g : Spindle → Spindle) : (s.modSpindle sp g).cselSpindle = s.cselSpindle := rfl
@[simp] theorem modSpindle_cselCtr (s : State) (sp : Nat) (g : Spindle → Spindle) : (s.modSpindle sp g).cselCtr = s.cselCtr := rfl
@[simp] theorem modSpindle_dbgHold (s : State) (sp : Nat) (g : Spindle → Spindle) : (s.modSpindle sp g).dbgHold = s.dbgHold := rfl

/-! ## setFrame -/

@[simp] theorem setFrame_tick (s : State) (n : Nat) (x : Frame) : (s.setFrame n x).tick = s.tick := rfl
@[simp] theorem setFrame_agenda (s : State) (n : Nat) (x : Frame) : (s.setFrame n x).agenda = s.agenda := rfl
@[simp] theorem setFrame_cur (s : State) (n : Nat) (x : Frame) : (s.setFrame n x).cur = s.cur := rfl
@[simp] theorem setFrame_opSeq (s : State) (n : Nat) (x : Frame) : (s.setFrame n x).opSeq = s.opSeq := rfl
@[simp] theorem setFrame_units (s : State) (n : Nat) (x : Frame) : (s.setFrame n x).units = s.units := rfl
@[simp] theorem setFrame_stepping (s : State) (n : Nat) (x : Frame) : (s.setFrame n x).stepping = s.stepping := rfl
@[simp] theorem setFrame_time (s : State) (n : Nat) (x : Frame) : (s.setFrame n x).time = s.time := rfl
@[simp] theorem setFrame_mem (s : State) (n : Nat) (x : Frame) : (s.setFrame n x).mem = s.mem := rfl
@[simp] theorem setFrame_remote (s : State) (n : Nat) (x : Frame) : (s.setFrame n x).remote = s.remote := rfl
@[simp] theorem setFrame_reqs (s : State) (n : Nat) (x : Frame) : (s.setFrame n x).reqs = s.reqs := rfl
@[simp] theorem setFrame_spindles (s : State) (n : Nat) (x : Frame) : (s.setFrame n x).spindles = s.spindles := rfl
@[simp] theorem setFrame_dies (s : State) (n : Nat) (x : Frame) : (s.setFrame n x).dies = s.dies := rfl
@[simp] theorem setFrame_cores (s : State) (n : Nat) (x : Frame) : (s.setFrame n x).cores = s.cores := rfl
@[simp] theorem setFrame_fifos (s : State) (n : Nat) (x : Frame) : (s.setFrame n x).fifos = s.fifos := rfl
@[simp] theorem setFrame_launches (s : State) (n : Nat) (x : Frame) : (s.setFrame n x).launches = s.launches := rfl
@[simp] theorem setFrame_acceptCount (s : State) (n : Nat) (x : Frame) : (s.setFrame n x).acceptCount = s.acceptCount := rfl
@[simp] theorem setFrame_offers (s : State) (n : Nat) (x : Frame) : (s.setFrame n x).offers = s.offers := rfl
@[simp] theorem setFrame_dealPtr (s : State) (n : Nat) (x : Frame) : (s.setFrame n x).dealPtr = s.dealPtr := rfl
@[simp] theorem setFrame_rcbs (s : State) (n : Nat) (x : Frame) : (s.setFrame n x).rcbs = s.rcbs := rfl
@[simp] theorem setFrame_affw (s : State) (n : Nat) (x : Frame) : (s.setFrame n x).affw = s.affw := rfl
@[simp] theorem setFrame_frsel (s : State) (n : Nat) (x : Frame) : (s.setFrame n x).frsel = s.frsel := rfl
@[simp] theorem setFrame_mcStack (s : State) (n : Nat) (x : Frame) : (s.setFrame n x).mcStack = s.mcStack := rfl
@[simp] theorem setFrame_mcRange (s : State) (n : Nat) (x : Frame) : (s.setFrame n x).mcRange = s.mcRange := rfl
@[simp] theorem setFrame_assel (s : State) (n : Nat) (x : Frame) : (s.setFrame n x).assel = s.assel := rfl
@[simp] theorem setFrame_spaces (s : State) (n : Nat) (x : Frame) : (s.setFrame n x).spaces = s.spaces := rfl
@[simp] theorem setFrame_fq (s : State) (n : Nat) (x : Frame) : (s.setFrame n x).fq = s.fq := rfl
@[simp] theorem setFrame_fqHead (s : State) (n : Nat) (x : Frame) : (s.setFrame n x).fqHead = s.fqHead := rfl
@[simp] theorem setFrame_fqTail (s : State) (n : Nat) (x : Frame) : (s.setFrame n x).fqTail = s.fqTail := rfl
@[simp] theorem setFrame_fqWait (s : State) (n : Nat) (x : Frame) : (s.setFrame n x).fqWait = s.fqWait := rfl
@[simp] theorem setFrame_known (s : State) (n : Nat) (x : Frame) : (s.setFrame n x).known = s.known := rfl
@[simp] theorem setFrame_hotcfg (s : State) (n : Nat) (x : Frame) : (s.setFrame n x).hotcfg = s.hotcfg := rfl
@[simp] theorem setFrame_hot (s : State) (n : Nat) (x : Frame) : (s.setFrame n x).hot = s.hot := rfl
@[simp] theorem setFrame_hotAt (s : State) (n : Nat) (x : Frame) : (s.setFrame n x).hotAt = s.hotAt := rfl
@[simp] theorem setFrame_pkg (s : State) (n : Nat) (x : Frame) : (s.setFrame n x).pkg = s.pkg := rfl
@[simp] theorem setFrame_aselArray (s : State) (n : Nat) (x : Frame) : (s.setFrame n x).aselArray = s.aselArray := rfl
@[simp] theorem setFrame_aselSpindle (s : State) (n : Nat) (x : Frame) : (s.setFrame n x).aselSpindle = s.aselSpindle := rfl
@[simp] theorem setFrame_tbsel (s : State) (n : Nat) (x : Frame) : (s.setFrame n x).tbsel = s.tbsel := rfl
@[simp] theorem setFrame_tags (s : State) (n : Nat) (x : Frame) : (s.setFrame n x).tags = s.tags := rfl
@[simp] theorem setFrame_preScope (s : State) (n : Nat) (x : Frame) : (s.setFrame n x).preScope = s.preScope := rfl
@[simp] theorem setFrame_preSpindle (s : State) (n : Nat) (x : Frame) : (s.setFrame n x).preSpindle = s.preSpindle := rfl
@[simp] theorem setFrame_preSlot (s : State) (n : Nat) (x : Frame) : (s.setFrame n x).preSlot = s.preSlot := rfl
@[simp] theorem setFrame_pwrLink (s : State) (n : Nat) (x : Frame) : (s.setFrame n x).pwrLink = s.pwrLink := rfl
@[simp] theorem setFrame_pwrPort (s : State) (n : Nat) (x : Frame) : (s.setFrame n x).pwrPort = s.pwrPort := rfl
@[simp] theorem setFrame_pwrFrame (s : State) (n : Nat) (x : Frame) : (s.setFrame n x).pwrFrame = s.pwrFrame := rfl
@[simp] theorem setFrame_tlim (s : State) (n : Nat) (x : Frame) : (s.setFrame n x).tlim = s.tlim := rfl
@[simp] theorem setFrame_budget (s : State) (n : Nat) (x : Frame) : (s.setFrame n x).budget = s.budget := rfl
@[simp] theorem setFrame_mtrain (s : State) (n : Nat) (x : Frame) : (s.setFrame n x).mtrain = s.mtrain := rfl
@[simp] theorem setFrame_idlelat (s : State) (n : Nat) (x : Frame) : (s.setFrame n x).idlelat = s.idlelat := rfl
@[simp] theorem setFrame_a4 (s : State) (n : Nat) (x : Frame) : (s.setFrame n x).a4 = s.a4 := rfl
@[simp] theorem setFrame_a4Wake (s : State) (n : Nat) (x : Frame) : (s.setFrame n x).a4Wake = s.a4Wake := rfl
@[simp] theorem setFrame_bdie (s : State) (n : Nat) (x : Frame) : (s.setFrame n x).bdie = s.bdie := rfl
@[simp] theorem setFrame_cdie (s : State) (n : Nat) (x : Frame) : (s.setFrame n x).cdie = s.cdie := rfl
@[simp] theorem setFrame_memReady (s : State) (n : Nat) (x : Frame) : (s.setFrame n x).memReady = s.memReady := rfl
@[simp] theorem setFrame_ethUp (s : State) (n : Nat) (x : Frame) : (s.setFrame n x).ethUp = s.ethUp := rfl
@[simp] theorem setFrame_hostUp (s : State) (n : Nat) (x : Frame) : (s.setFrame n x).hostUp = s.hostUp := rfl
@[simp] theorem setFrame_retraining (s : State) (n : Nat) (x : Frame) : (s.setFrame n x).retraining = s.retraining := rfl
@[simp] theorem setFrame_retrainNext (s : State) (n : Nat) (x : Frame) : (s.setFrame n x).retrainNext = s.retrainNext := rfl
@[simp] theorem setFrame_retrainAt (s : State) (n : Nat) (x : Frame) : (s.setFrame n x).retrainAt = s.retrainAt := rfl
@[simp] theorem setFrame_links (s : State) (n : Nat) (x : Frame) : (s.setFrame n x).links = s.links := rfl
@[simp] theorem setFrame_eths (s : State) (n : Nat) (x : Frame) : (s.setFrame n x).eths = s.eths := rfl
@[simp] theorem setFrame_hostCtl (s : State) (n : Nat) (x : Frame) : (s.setFrame n x).hostCtl = s.hostCtl := rfl
@[simp] theorem setFrame_hostRead (s : State) (n : Nat) (x : Frame) : (s.setFrame n x).hostRead = s.hostRead := rfl
@[simp] theorem setFrame_secOp (s : State) (n : Nat) (x : Frame) : (s.setFrame n x).secOp = s.secOp := rfl
@[simp] theorem setFrame_secPend (s : State) (n : Nat) (x : Frame) : (s.setFrame n x).secPend = s.secPend := rfl
@[simp] theorem setFrame_slots (s : State) (n : Nat) (x : Frame) : (s.setFrame n x).slots = s.slots := rfl
@[simp] theorem setFrame_boot (s : State) (n : Nat) (x : Frame) : (s.setFrame n x).boot = s.boot := rfl
@[simp] theorem setFrame_string (s : State) (n : Nat) (x : Frame) : (s.setFrame n x).string = s.string := rfl
@[simp] theorem setFrame_strHead (s : State) (n : Nat) (x : Frame) : (s.setFrame n x).strHead = s.strHead := rfl
@[simp] theorem setFrame_strTail (s : State) (n : Nat) (x : Frame) : (s.setFrame n x).strTail = s.strTail := rfl
@[simp] theorem setFrame_strLost (s : State) (n : Nat) (x : Frame) : (s.setFrame n x).strLost = s.strLost := rfl
@[simp] theorem setFrame_strWait (s : State) (n : Nat) (x : Frame) : (s.setFrame n x).strWait = s.strWait := rfl
@[simp] theorem setFrame_samp (s : State) (n : Nat) (x : Frame) : (s.setFrame n x).samp = s.samp := rfl
@[simp] theorem setFrame_sampAt (s : State) (n : Nat) (x : Frame) : (s.setFrame n x).sampAt = s.sampAt := rfl
@[simp] theorem setFrame_cselSpindle (s : State) (n : Nat) (x : Frame) : (s.setFrame n x).cselSpindle = s.cselSpindle := rfl
@[simp] theorem setFrame_cselCtr (s : State) (n : Nat) (x : Frame) : (s.setFrame n x).cselCtr = s.cselCtr := rfl
@[simp] theorem setFrame_dbgHold (s : State) (n : Nat) (x : Frame) : (s.setFrame n x).dbgHold = s.dbgHold := rfl

/-! ## modFrame -/

@[simp] theorem modFrame_tick (s : State) (n : Nat) (g : Frame → Frame) : (s.modFrame n g).tick = s.tick := rfl
@[simp] theorem modFrame_agenda (s : State) (n : Nat) (g : Frame → Frame) : (s.modFrame n g).agenda = s.agenda := rfl
@[simp] theorem modFrame_cur (s : State) (n : Nat) (g : Frame → Frame) : (s.modFrame n g).cur = s.cur := rfl
@[simp] theorem modFrame_opSeq (s : State) (n : Nat) (g : Frame → Frame) : (s.modFrame n g).opSeq = s.opSeq := rfl
@[simp] theorem modFrame_units (s : State) (n : Nat) (g : Frame → Frame) : (s.modFrame n g).units = s.units := rfl
@[simp] theorem modFrame_stepping (s : State) (n : Nat) (g : Frame → Frame) : (s.modFrame n g).stepping = s.stepping := rfl
@[simp] theorem modFrame_time (s : State) (n : Nat) (g : Frame → Frame) : (s.modFrame n g).time = s.time := rfl
@[simp] theorem modFrame_mem (s : State) (n : Nat) (g : Frame → Frame) : (s.modFrame n g).mem = s.mem := rfl
@[simp] theorem modFrame_remote (s : State) (n : Nat) (g : Frame → Frame) : (s.modFrame n g).remote = s.remote := rfl
@[simp] theorem modFrame_reqs (s : State) (n : Nat) (g : Frame → Frame) : (s.modFrame n g).reqs = s.reqs := rfl
@[simp] theorem modFrame_spindles (s : State) (n : Nat) (g : Frame → Frame) : (s.modFrame n g).spindles = s.spindles := rfl
@[simp] theorem modFrame_dies (s : State) (n : Nat) (g : Frame → Frame) : (s.modFrame n g).dies = s.dies := rfl
@[simp] theorem modFrame_cores (s : State) (n : Nat) (g : Frame → Frame) : (s.modFrame n g).cores = s.cores := rfl
@[simp] theorem modFrame_fifos (s : State) (n : Nat) (g : Frame → Frame) : (s.modFrame n g).fifos = s.fifos := rfl
@[simp] theorem modFrame_launches (s : State) (n : Nat) (g : Frame → Frame) : (s.modFrame n g).launches = s.launches := rfl
@[simp] theorem modFrame_acceptCount (s : State) (n : Nat) (g : Frame → Frame) : (s.modFrame n g).acceptCount = s.acceptCount := rfl
@[simp] theorem modFrame_offers (s : State) (n : Nat) (g : Frame → Frame) : (s.modFrame n g).offers = s.offers := rfl
@[simp] theorem modFrame_dealPtr (s : State) (n : Nat) (g : Frame → Frame) : (s.modFrame n g).dealPtr = s.dealPtr := rfl
@[simp] theorem modFrame_rcbs (s : State) (n : Nat) (g : Frame → Frame) : (s.modFrame n g).rcbs = s.rcbs := rfl
@[simp] theorem modFrame_affw (s : State) (n : Nat) (g : Frame → Frame) : (s.modFrame n g).affw = s.affw := rfl
@[simp] theorem modFrame_frsel (s : State) (n : Nat) (g : Frame → Frame) : (s.modFrame n g).frsel = s.frsel := rfl
@[simp] theorem modFrame_mcStack (s : State) (n : Nat) (g : Frame → Frame) : (s.modFrame n g).mcStack = s.mcStack := rfl
@[simp] theorem modFrame_mcRange (s : State) (n : Nat) (g : Frame → Frame) : (s.modFrame n g).mcRange = s.mcRange := rfl
@[simp] theorem modFrame_assel (s : State) (n : Nat) (g : Frame → Frame) : (s.modFrame n g).assel = s.assel := rfl
@[simp] theorem modFrame_spaces (s : State) (n : Nat) (g : Frame → Frame) : (s.modFrame n g).spaces = s.spaces := rfl
@[simp] theorem modFrame_fq (s : State) (n : Nat) (g : Frame → Frame) : (s.modFrame n g).fq = s.fq := rfl
@[simp] theorem modFrame_fqHead (s : State) (n : Nat) (g : Frame → Frame) : (s.modFrame n g).fqHead = s.fqHead := rfl
@[simp] theorem modFrame_fqTail (s : State) (n : Nat) (g : Frame → Frame) : (s.modFrame n g).fqTail = s.fqTail := rfl
@[simp] theorem modFrame_fqWait (s : State) (n : Nat) (g : Frame → Frame) : (s.modFrame n g).fqWait = s.fqWait := rfl
@[simp] theorem modFrame_known (s : State) (n : Nat) (g : Frame → Frame) : (s.modFrame n g).known = s.known := rfl
@[simp] theorem modFrame_hotcfg (s : State) (n : Nat) (g : Frame → Frame) : (s.modFrame n g).hotcfg = s.hotcfg := rfl
@[simp] theorem modFrame_hot (s : State) (n : Nat) (g : Frame → Frame) : (s.modFrame n g).hot = s.hot := rfl
@[simp] theorem modFrame_hotAt (s : State) (n : Nat) (g : Frame → Frame) : (s.modFrame n g).hotAt = s.hotAt := rfl
@[simp] theorem modFrame_pkg (s : State) (n : Nat) (g : Frame → Frame) : (s.modFrame n g).pkg = s.pkg := rfl
@[simp] theorem modFrame_aselArray (s : State) (n : Nat) (g : Frame → Frame) : (s.modFrame n g).aselArray = s.aselArray := rfl
@[simp] theorem modFrame_aselSpindle (s : State) (n : Nat) (g : Frame → Frame) : (s.modFrame n g).aselSpindle = s.aselSpindle := rfl
@[simp] theorem modFrame_tbsel (s : State) (n : Nat) (g : Frame → Frame) : (s.modFrame n g).tbsel = s.tbsel := rfl
@[simp] theorem modFrame_tags (s : State) (n : Nat) (g : Frame → Frame) : (s.modFrame n g).tags = s.tags := rfl
@[simp] theorem modFrame_preScope (s : State) (n : Nat) (g : Frame → Frame) : (s.modFrame n g).preScope = s.preScope := rfl
@[simp] theorem modFrame_preSpindle (s : State) (n : Nat) (g : Frame → Frame) : (s.modFrame n g).preSpindle = s.preSpindle := rfl
@[simp] theorem modFrame_preSlot (s : State) (n : Nat) (g : Frame → Frame) : (s.modFrame n g).preSlot = s.preSlot := rfl
@[simp] theorem modFrame_pwrLink (s : State) (n : Nat) (g : Frame → Frame) : (s.modFrame n g).pwrLink = s.pwrLink := rfl
@[simp] theorem modFrame_pwrPort (s : State) (n : Nat) (g : Frame → Frame) : (s.modFrame n g).pwrPort = s.pwrPort := rfl
@[simp] theorem modFrame_pwrFrame (s : State) (n : Nat) (g : Frame → Frame) : (s.modFrame n g).pwrFrame = s.pwrFrame := rfl
@[simp] theorem modFrame_tlim (s : State) (n : Nat) (g : Frame → Frame) : (s.modFrame n g).tlim = s.tlim := rfl
@[simp] theorem modFrame_budget (s : State) (n : Nat) (g : Frame → Frame) : (s.modFrame n g).budget = s.budget := rfl
@[simp] theorem modFrame_mtrain (s : State) (n : Nat) (g : Frame → Frame) : (s.modFrame n g).mtrain = s.mtrain := rfl
@[simp] theorem modFrame_idlelat (s : State) (n : Nat) (g : Frame → Frame) : (s.modFrame n g).idlelat = s.idlelat := rfl
@[simp] theorem modFrame_a4 (s : State) (n : Nat) (g : Frame → Frame) : (s.modFrame n g).a4 = s.a4 := rfl
@[simp] theorem modFrame_a4Wake (s : State) (n : Nat) (g : Frame → Frame) : (s.modFrame n g).a4Wake = s.a4Wake := rfl
@[simp] theorem modFrame_bdie (s : State) (n : Nat) (g : Frame → Frame) : (s.modFrame n g).bdie = s.bdie := rfl
@[simp] theorem modFrame_cdie (s : State) (n : Nat) (g : Frame → Frame) : (s.modFrame n g).cdie = s.cdie := rfl
@[simp] theorem modFrame_memReady (s : State) (n : Nat) (g : Frame → Frame) : (s.modFrame n g).memReady = s.memReady := rfl
@[simp] theorem modFrame_ethUp (s : State) (n : Nat) (g : Frame → Frame) : (s.modFrame n g).ethUp = s.ethUp := rfl
@[simp] theorem modFrame_hostUp (s : State) (n : Nat) (g : Frame → Frame) : (s.modFrame n g).hostUp = s.hostUp := rfl
@[simp] theorem modFrame_retraining (s : State) (n : Nat) (g : Frame → Frame) : (s.modFrame n g).retraining = s.retraining := rfl
@[simp] theorem modFrame_retrainNext (s : State) (n : Nat) (g : Frame → Frame) : (s.modFrame n g).retrainNext = s.retrainNext := rfl
@[simp] theorem modFrame_retrainAt (s : State) (n : Nat) (g : Frame → Frame) : (s.modFrame n g).retrainAt = s.retrainAt := rfl
@[simp] theorem modFrame_links (s : State) (n : Nat) (g : Frame → Frame) : (s.modFrame n g).links = s.links := rfl
@[simp] theorem modFrame_eths (s : State) (n : Nat) (g : Frame → Frame) : (s.modFrame n g).eths = s.eths := rfl
@[simp] theorem modFrame_hostCtl (s : State) (n : Nat) (g : Frame → Frame) : (s.modFrame n g).hostCtl = s.hostCtl := rfl
@[simp] theorem modFrame_hostRead (s : State) (n : Nat) (g : Frame → Frame) : (s.modFrame n g).hostRead = s.hostRead := rfl
@[simp] theorem modFrame_secOp (s : State) (n : Nat) (g : Frame → Frame) : (s.modFrame n g).secOp = s.secOp := rfl
@[simp] theorem modFrame_secPend (s : State) (n : Nat) (g : Frame → Frame) : (s.modFrame n g).secPend = s.secPend := rfl
@[simp] theorem modFrame_slots (s : State) (n : Nat) (g : Frame → Frame) : (s.modFrame n g).slots = s.slots := rfl
@[simp] theorem modFrame_boot (s : State) (n : Nat) (g : Frame → Frame) : (s.modFrame n g).boot = s.boot := rfl
@[simp] theorem modFrame_string (s : State) (n : Nat) (g : Frame → Frame) : (s.modFrame n g).string = s.string := rfl
@[simp] theorem modFrame_strHead (s : State) (n : Nat) (g : Frame → Frame) : (s.modFrame n g).strHead = s.strHead := rfl
@[simp] theorem modFrame_strTail (s : State) (n : Nat) (g : Frame → Frame) : (s.modFrame n g).strTail = s.strTail := rfl
@[simp] theorem modFrame_strLost (s : State) (n : Nat) (g : Frame → Frame) : (s.modFrame n g).strLost = s.strLost := rfl
@[simp] theorem modFrame_strWait (s : State) (n : Nat) (g : Frame → Frame) : (s.modFrame n g).strWait = s.strWait := rfl
@[simp] theorem modFrame_samp (s : State) (n : Nat) (g : Frame → Frame) : (s.modFrame n g).samp = s.samp := rfl
@[simp] theorem modFrame_sampAt (s : State) (n : Nat) (g : Frame → Frame) : (s.modFrame n g).sampAt = s.sampAt := rfl
@[simp] theorem modFrame_cselSpindle (s : State) (n : Nat) (g : Frame → Frame) : (s.modFrame n g).cselSpindle = s.cselSpindle := rfl
@[simp] theorem modFrame_cselCtr (s : State) (n : Nat) (g : Frame → Frame) : (s.modFrame n g).cselCtr = s.cselCtr := rfl
@[simp] theorem modFrame_dbgHold (s : State) (n : Nat) (g : Frame → Frame) : (s.modFrame n g).dbgHold = s.dbgHold := rfl

/-! ## setDie -/

@[simp] theorem setDie_tick (s : State) (n : Nat) (x : Die) : (s.setDie n x).tick = s.tick := rfl
@[simp] theorem setDie_agenda (s : State) (n : Nat) (x : Die) : (s.setDie n x).agenda = s.agenda := rfl
@[simp] theorem setDie_cur (s : State) (n : Nat) (x : Die) : (s.setDie n x).cur = s.cur := rfl
@[simp] theorem setDie_opSeq (s : State) (n : Nat) (x : Die) : (s.setDie n x).opSeq = s.opSeq := rfl
@[simp] theorem setDie_units (s : State) (n : Nat) (x : Die) : (s.setDie n x).units = s.units := rfl
@[simp] theorem setDie_stepping (s : State) (n : Nat) (x : Die) : (s.setDie n x).stepping = s.stepping := rfl
@[simp] theorem setDie_time (s : State) (n : Nat) (x : Die) : (s.setDie n x).time = s.time := rfl
@[simp] theorem setDie_mem (s : State) (n : Nat) (x : Die) : (s.setDie n x).mem = s.mem := rfl
@[simp] theorem setDie_remote (s : State) (n : Nat) (x : Die) : (s.setDie n x).remote = s.remote := rfl
@[simp] theorem setDie_reqs (s : State) (n : Nat) (x : Die) : (s.setDie n x).reqs = s.reqs := rfl
@[simp] theorem setDie_spindles (s : State) (n : Nat) (x : Die) : (s.setDie n x).spindles = s.spindles := rfl
@[simp] theorem setDie_frames (s : State) (n : Nat) (x : Die) : (s.setDie n x).frames = s.frames := rfl
@[simp] theorem setDie_cores (s : State) (n : Nat) (x : Die) : (s.setDie n x).cores = s.cores := rfl
@[simp] theorem setDie_fifos (s : State) (n : Nat) (x : Die) : (s.setDie n x).fifos = s.fifos := rfl
@[simp] theorem setDie_launches (s : State) (n : Nat) (x : Die) : (s.setDie n x).launches = s.launches := rfl
@[simp] theorem setDie_acceptCount (s : State) (n : Nat) (x : Die) : (s.setDie n x).acceptCount = s.acceptCount := rfl
@[simp] theorem setDie_offers (s : State) (n : Nat) (x : Die) : (s.setDie n x).offers = s.offers := rfl
@[simp] theorem setDie_dealPtr (s : State) (n : Nat) (x : Die) : (s.setDie n x).dealPtr = s.dealPtr := rfl
@[simp] theorem setDie_rcbs (s : State) (n : Nat) (x : Die) : (s.setDie n x).rcbs = s.rcbs := rfl
@[simp] theorem setDie_affw (s : State) (n : Nat) (x : Die) : (s.setDie n x).affw = s.affw := rfl
@[simp] theorem setDie_frsel (s : State) (n : Nat) (x : Die) : (s.setDie n x).frsel = s.frsel := rfl
@[simp] theorem setDie_mcStack (s : State) (n : Nat) (x : Die) : (s.setDie n x).mcStack = s.mcStack := rfl
@[simp] theorem setDie_mcRange (s : State) (n : Nat) (x : Die) : (s.setDie n x).mcRange = s.mcRange := rfl
@[simp] theorem setDie_assel (s : State) (n : Nat) (x : Die) : (s.setDie n x).assel = s.assel := rfl
@[simp] theorem setDie_spaces (s : State) (n : Nat) (x : Die) : (s.setDie n x).spaces = s.spaces := rfl
@[simp] theorem setDie_fq (s : State) (n : Nat) (x : Die) : (s.setDie n x).fq = s.fq := rfl
@[simp] theorem setDie_fqHead (s : State) (n : Nat) (x : Die) : (s.setDie n x).fqHead = s.fqHead := rfl
@[simp] theorem setDie_fqTail (s : State) (n : Nat) (x : Die) : (s.setDie n x).fqTail = s.fqTail := rfl
@[simp] theorem setDie_fqWait (s : State) (n : Nat) (x : Die) : (s.setDie n x).fqWait = s.fqWait := rfl
@[simp] theorem setDie_known (s : State) (n : Nat) (x : Die) : (s.setDie n x).known = s.known := rfl
@[simp] theorem setDie_hotcfg (s : State) (n : Nat) (x : Die) : (s.setDie n x).hotcfg = s.hotcfg := rfl
@[simp] theorem setDie_hot (s : State) (n : Nat) (x : Die) : (s.setDie n x).hot = s.hot := rfl
@[simp] theorem setDie_hotAt (s : State) (n : Nat) (x : Die) : (s.setDie n x).hotAt = s.hotAt := rfl
@[simp] theorem setDie_pkg (s : State) (n : Nat) (x : Die) : (s.setDie n x).pkg = s.pkg := rfl
@[simp] theorem setDie_aselArray (s : State) (n : Nat) (x : Die) : (s.setDie n x).aselArray = s.aselArray := rfl
@[simp] theorem setDie_aselSpindle (s : State) (n : Nat) (x : Die) : (s.setDie n x).aselSpindle = s.aselSpindle := rfl
@[simp] theorem setDie_tbsel (s : State) (n : Nat) (x : Die) : (s.setDie n x).tbsel = s.tbsel := rfl
@[simp] theorem setDie_tags (s : State) (n : Nat) (x : Die) : (s.setDie n x).tags = s.tags := rfl
@[simp] theorem setDie_preScope (s : State) (n : Nat) (x : Die) : (s.setDie n x).preScope = s.preScope := rfl
@[simp] theorem setDie_preSpindle (s : State) (n : Nat) (x : Die) : (s.setDie n x).preSpindle = s.preSpindle := rfl
@[simp] theorem setDie_preSlot (s : State) (n : Nat) (x : Die) : (s.setDie n x).preSlot = s.preSlot := rfl
@[simp] theorem setDie_pwrLink (s : State) (n : Nat) (x : Die) : (s.setDie n x).pwrLink = s.pwrLink := rfl
@[simp] theorem setDie_pwrPort (s : State) (n : Nat) (x : Die) : (s.setDie n x).pwrPort = s.pwrPort := rfl
@[simp] theorem setDie_pwrFrame (s : State) (n : Nat) (x : Die) : (s.setDie n x).pwrFrame = s.pwrFrame := rfl
@[simp] theorem setDie_tlim (s : State) (n : Nat) (x : Die) : (s.setDie n x).tlim = s.tlim := rfl
@[simp] theorem setDie_budget (s : State) (n : Nat) (x : Die) : (s.setDie n x).budget = s.budget := rfl
@[simp] theorem setDie_mtrain (s : State) (n : Nat) (x : Die) : (s.setDie n x).mtrain = s.mtrain := rfl
@[simp] theorem setDie_idlelat (s : State) (n : Nat) (x : Die) : (s.setDie n x).idlelat = s.idlelat := rfl
@[simp] theorem setDie_a4 (s : State) (n : Nat) (x : Die) : (s.setDie n x).a4 = s.a4 := rfl
@[simp] theorem setDie_a4Wake (s : State) (n : Nat) (x : Die) : (s.setDie n x).a4Wake = s.a4Wake := rfl
@[simp] theorem setDie_bdie (s : State) (n : Nat) (x : Die) : (s.setDie n x).bdie = s.bdie := rfl
@[simp] theorem setDie_cdie (s : State) (n : Nat) (x : Die) : (s.setDie n x).cdie = s.cdie := rfl
@[simp] theorem setDie_memReady (s : State) (n : Nat) (x : Die) : (s.setDie n x).memReady = s.memReady := rfl
@[simp] theorem setDie_ethUp (s : State) (n : Nat) (x : Die) : (s.setDie n x).ethUp = s.ethUp := rfl
@[simp] theorem setDie_hostUp (s : State) (n : Nat) (x : Die) : (s.setDie n x).hostUp = s.hostUp := rfl
@[simp] theorem setDie_retraining (s : State) (n : Nat) (x : Die) : (s.setDie n x).retraining = s.retraining := rfl
@[simp] theorem setDie_retrainNext (s : State) (n : Nat) (x : Die) : (s.setDie n x).retrainNext = s.retrainNext := rfl
@[simp] theorem setDie_retrainAt (s : State) (n : Nat) (x : Die) : (s.setDie n x).retrainAt = s.retrainAt := rfl
@[simp] theorem setDie_links (s : State) (n : Nat) (x : Die) : (s.setDie n x).links = s.links := rfl
@[simp] theorem setDie_eths (s : State) (n : Nat) (x : Die) : (s.setDie n x).eths = s.eths := rfl
@[simp] theorem setDie_hostCtl (s : State) (n : Nat) (x : Die) : (s.setDie n x).hostCtl = s.hostCtl := rfl
@[simp] theorem setDie_hostRead (s : State) (n : Nat) (x : Die) : (s.setDie n x).hostRead = s.hostRead := rfl
@[simp] theorem setDie_secOp (s : State) (n : Nat) (x : Die) : (s.setDie n x).secOp = s.secOp := rfl
@[simp] theorem setDie_secPend (s : State) (n : Nat) (x : Die) : (s.setDie n x).secPend = s.secPend := rfl
@[simp] theorem setDie_slots (s : State) (n : Nat) (x : Die) : (s.setDie n x).slots = s.slots := rfl
@[simp] theorem setDie_boot (s : State) (n : Nat) (x : Die) : (s.setDie n x).boot = s.boot := rfl
@[simp] theorem setDie_string (s : State) (n : Nat) (x : Die) : (s.setDie n x).string = s.string := rfl
@[simp] theorem setDie_strHead (s : State) (n : Nat) (x : Die) : (s.setDie n x).strHead = s.strHead := rfl
@[simp] theorem setDie_strTail (s : State) (n : Nat) (x : Die) : (s.setDie n x).strTail = s.strTail := rfl
@[simp] theorem setDie_strLost (s : State) (n : Nat) (x : Die) : (s.setDie n x).strLost = s.strLost := rfl
@[simp] theorem setDie_strWait (s : State) (n : Nat) (x : Die) : (s.setDie n x).strWait = s.strWait := rfl
@[simp] theorem setDie_samp (s : State) (n : Nat) (x : Die) : (s.setDie n x).samp = s.samp := rfl
@[simp] theorem setDie_sampAt (s : State) (n : Nat) (x : Die) : (s.setDie n x).sampAt = s.sampAt := rfl
@[simp] theorem setDie_cselSpindle (s : State) (n : Nat) (x : Die) : (s.setDie n x).cselSpindle = s.cselSpindle := rfl
@[simp] theorem setDie_cselCtr (s : State) (n : Nat) (x : Die) : (s.setDie n x).cselCtr = s.cselCtr := rfl
@[simp] theorem setDie_dbgHold (s : State) (n : Nat) (x : Die) : (s.setDie n x).dbgHold = s.dbgHold := rfl

/-! ## modDie -/

@[simp] theorem modDie_tick (s : State) (n : Nat) (g : Die → Die) : (s.modDie n g).tick = s.tick := rfl
@[simp] theorem modDie_agenda (s : State) (n : Nat) (g : Die → Die) : (s.modDie n g).agenda = s.agenda := rfl
@[simp] theorem modDie_cur (s : State) (n : Nat) (g : Die → Die) : (s.modDie n g).cur = s.cur := rfl
@[simp] theorem modDie_opSeq (s : State) (n : Nat) (g : Die → Die) : (s.modDie n g).opSeq = s.opSeq := rfl
@[simp] theorem modDie_units (s : State) (n : Nat) (g : Die → Die) : (s.modDie n g).units = s.units := rfl
@[simp] theorem modDie_stepping (s : State) (n : Nat) (g : Die → Die) : (s.modDie n g).stepping = s.stepping := rfl
@[simp] theorem modDie_time (s : State) (n : Nat) (g : Die → Die) : (s.modDie n g).time = s.time := rfl
@[simp] theorem modDie_mem (s : State) (n : Nat) (g : Die → Die) : (s.modDie n g).mem = s.mem := rfl
@[simp] theorem modDie_remote (s : State) (n : Nat) (g : Die → Die) : (s.modDie n g).remote = s.remote := rfl
@[simp] theorem modDie_reqs (s : State) (n : Nat) (g : Die → Die) : (s.modDie n g).reqs = s.reqs := rfl
@[simp] theorem modDie_spindles (s : State) (n : Nat) (g : Die → Die) : (s.modDie n g).spindles = s.spindles := rfl
@[simp] theorem modDie_frames (s : State) (n : Nat) (g : Die → Die) : (s.modDie n g).frames = s.frames := rfl
@[simp] theorem modDie_cores (s : State) (n : Nat) (g : Die → Die) : (s.modDie n g).cores = s.cores := rfl
@[simp] theorem modDie_fifos (s : State) (n : Nat) (g : Die → Die) : (s.modDie n g).fifos = s.fifos := rfl
@[simp] theorem modDie_launches (s : State) (n : Nat) (g : Die → Die) : (s.modDie n g).launches = s.launches := rfl
@[simp] theorem modDie_acceptCount (s : State) (n : Nat) (g : Die → Die) : (s.modDie n g).acceptCount = s.acceptCount := rfl
@[simp] theorem modDie_offers (s : State) (n : Nat) (g : Die → Die) : (s.modDie n g).offers = s.offers := rfl
@[simp] theorem modDie_dealPtr (s : State) (n : Nat) (g : Die → Die) : (s.modDie n g).dealPtr = s.dealPtr := rfl
@[simp] theorem modDie_rcbs (s : State) (n : Nat) (g : Die → Die) : (s.modDie n g).rcbs = s.rcbs := rfl
@[simp] theorem modDie_affw (s : State) (n : Nat) (g : Die → Die) : (s.modDie n g).affw = s.affw := rfl
@[simp] theorem modDie_frsel (s : State) (n : Nat) (g : Die → Die) : (s.modDie n g).frsel = s.frsel := rfl
@[simp] theorem modDie_mcStack (s : State) (n : Nat) (g : Die → Die) : (s.modDie n g).mcStack = s.mcStack := rfl
@[simp] theorem modDie_mcRange (s : State) (n : Nat) (g : Die → Die) : (s.modDie n g).mcRange = s.mcRange := rfl
@[simp] theorem modDie_assel (s : State) (n : Nat) (g : Die → Die) : (s.modDie n g).assel = s.assel := rfl
@[simp] theorem modDie_spaces (s : State) (n : Nat) (g : Die → Die) : (s.modDie n g).spaces = s.spaces := rfl
@[simp] theorem modDie_fq (s : State) (n : Nat) (g : Die → Die) : (s.modDie n g).fq = s.fq := rfl
@[simp] theorem modDie_fqHead (s : State) (n : Nat) (g : Die → Die) : (s.modDie n g).fqHead = s.fqHead := rfl
@[simp] theorem modDie_fqTail (s : State) (n : Nat) (g : Die → Die) : (s.modDie n g).fqTail = s.fqTail := rfl
@[simp] theorem modDie_fqWait (s : State) (n : Nat) (g : Die → Die) : (s.modDie n g).fqWait = s.fqWait := rfl
@[simp] theorem modDie_known (s : State) (n : Nat) (g : Die → Die) : (s.modDie n g).known = s.known := rfl
@[simp] theorem modDie_hotcfg (s : State) (n : Nat) (g : Die → Die) : (s.modDie n g).hotcfg = s.hotcfg := rfl
@[simp] theorem modDie_hot (s : State) (n : Nat) (g : Die → Die) : (s.modDie n g).hot = s.hot := rfl
@[simp] theorem modDie_hotAt (s : State) (n : Nat) (g : Die → Die) : (s.modDie n g).hotAt = s.hotAt := rfl
@[simp] theorem modDie_pkg (s : State) (n : Nat) (g : Die → Die) : (s.modDie n g).pkg = s.pkg := rfl
@[simp] theorem modDie_aselArray (s : State) (n : Nat) (g : Die → Die) : (s.modDie n g).aselArray = s.aselArray := rfl
@[simp] theorem modDie_aselSpindle (s : State) (n : Nat) (g : Die → Die) : (s.modDie n g).aselSpindle = s.aselSpindle := rfl
@[simp] theorem modDie_tbsel (s : State) (n : Nat) (g : Die → Die) : (s.modDie n g).tbsel = s.tbsel := rfl
@[simp] theorem modDie_tags (s : State) (n : Nat) (g : Die → Die) : (s.modDie n g).tags = s.tags := rfl
@[simp] theorem modDie_preScope (s : State) (n : Nat) (g : Die → Die) : (s.modDie n g).preScope = s.preScope := rfl
@[simp] theorem modDie_preSpindle (s : State) (n : Nat) (g : Die → Die) : (s.modDie n g).preSpindle = s.preSpindle := rfl
@[simp] theorem modDie_preSlot (s : State) (n : Nat) (g : Die → Die) : (s.modDie n g).preSlot = s.preSlot := rfl
@[simp] theorem modDie_pwrLink (s : State) (n : Nat) (g : Die → Die) : (s.modDie n g).pwrLink = s.pwrLink := rfl
@[simp] theorem modDie_pwrPort (s : State) (n : Nat) (g : Die → Die) : (s.modDie n g).pwrPort = s.pwrPort := rfl
@[simp] theorem modDie_pwrFrame (s : State) (n : Nat) (g : Die → Die) : (s.modDie n g).pwrFrame = s.pwrFrame := rfl
@[simp] theorem modDie_tlim (s : State) (n : Nat) (g : Die → Die) : (s.modDie n g).tlim = s.tlim := rfl
@[simp] theorem modDie_budget (s : State) (n : Nat) (g : Die → Die) : (s.modDie n g).budget = s.budget := rfl
@[simp] theorem modDie_mtrain (s : State) (n : Nat) (g : Die → Die) : (s.modDie n g).mtrain = s.mtrain := rfl
@[simp] theorem modDie_idlelat (s : State) (n : Nat) (g : Die → Die) : (s.modDie n g).idlelat = s.idlelat := rfl
@[simp] theorem modDie_a4 (s : State) (n : Nat) (g : Die → Die) : (s.modDie n g).a4 = s.a4 := rfl
@[simp] theorem modDie_a4Wake (s : State) (n : Nat) (g : Die → Die) : (s.modDie n g).a4Wake = s.a4Wake := rfl
@[simp] theorem modDie_bdie (s : State) (n : Nat) (g : Die → Die) : (s.modDie n g).bdie = s.bdie := rfl
@[simp] theorem modDie_cdie (s : State) (n : Nat) (g : Die → Die) : (s.modDie n g).cdie = s.cdie := rfl
@[simp] theorem modDie_memReady (s : State) (n : Nat) (g : Die → Die) : (s.modDie n g).memReady = s.memReady := rfl
@[simp] theorem modDie_ethUp (s : State) (n : Nat) (g : Die → Die) : (s.modDie n g).ethUp = s.ethUp := rfl
@[simp] theorem modDie_hostUp (s : State) (n : Nat) (g : Die → Die) : (s.modDie n g).hostUp = s.hostUp := rfl
@[simp] theorem modDie_retraining (s : State) (n : Nat) (g : Die → Die) : (s.modDie n g).retraining = s.retraining := rfl
@[simp] theorem modDie_retrainNext (s : State) (n : Nat) (g : Die → Die) : (s.modDie n g).retrainNext = s.retrainNext := rfl
@[simp] theorem modDie_retrainAt (s : State) (n : Nat) (g : Die → Die) : (s.modDie n g).retrainAt = s.retrainAt := rfl
@[simp] theorem modDie_links (s : State) (n : Nat) (g : Die → Die) : (s.modDie n g).links = s.links := rfl
@[simp] theorem modDie_eths (s : State) (n : Nat) (g : Die → Die) : (s.modDie n g).eths = s.eths := rfl
@[simp] theorem modDie_hostCtl (s : State) (n : Nat) (g : Die → Die) : (s.modDie n g).hostCtl = s.hostCtl := rfl
@[simp] theorem modDie_hostRead (s : State) (n : Nat) (g : Die → Die) : (s.modDie n g).hostRead = s.hostRead := rfl
@[simp] theorem modDie_secOp (s : State) (n : Nat) (g : Die → Die) : (s.modDie n g).secOp = s.secOp := rfl
@[simp] theorem modDie_secPend (s : State) (n : Nat) (g : Die → Die) : (s.modDie n g).secPend = s.secPend := rfl
@[simp] theorem modDie_slots (s : State) (n : Nat) (g : Die → Die) : (s.modDie n g).slots = s.slots := rfl
@[simp] theorem modDie_boot (s : State) (n : Nat) (g : Die → Die) : (s.modDie n g).boot = s.boot := rfl
@[simp] theorem modDie_string (s : State) (n : Nat) (g : Die → Die) : (s.modDie n g).string = s.string := rfl
@[simp] theorem modDie_strHead (s : State) (n : Nat) (g : Die → Die) : (s.modDie n g).strHead = s.strHead := rfl
@[simp] theorem modDie_strTail (s : State) (n : Nat) (g : Die → Die) : (s.modDie n g).strTail = s.strTail := rfl
@[simp] theorem modDie_strLost (s : State) (n : Nat) (g : Die → Die) : (s.modDie n g).strLost = s.strLost := rfl
@[simp] theorem modDie_strWait (s : State) (n : Nat) (g : Die → Die) : (s.modDie n g).strWait = s.strWait := rfl
@[simp] theorem modDie_samp (s : State) (n : Nat) (g : Die → Die) : (s.modDie n g).samp = s.samp := rfl
@[simp] theorem modDie_sampAt (s : State) (n : Nat) (g : Die → Die) : (s.modDie n g).sampAt = s.sampAt := rfl
@[simp] theorem modDie_cselSpindle (s : State) (n : Nat) (g : Die → Die) : (s.modDie n g).cselSpindle = s.cselSpindle := rfl
@[simp] theorem modDie_cselCtr (s : State) (n : Nat) (g : Die → Die) : (s.modDie n g).cselCtr = s.cselCtr := rfl
@[simp] theorem modDie_dbgHold (s : State) (n : Nat) (g : Die → Die) : (s.modDie n g).dbgHold = s.dbgHold := rfl

/-! ## setCore -/

@[simp] theorem setCore_tick (s : State) (n : Nat) (x : SysCore) : (s.setCore n x).tick = s.tick := rfl
@[simp] theorem setCore_agenda (s : State) (n : Nat) (x : SysCore) : (s.setCore n x).agenda = s.agenda := rfl
@[simp] theorem setCore_cur (s : State) (n : Nat) (x : SysCore) : (s.setCore n x).cur = s.cur := rfl
@[simp] theorem setCore_opSeq (s : State) (n : Nat) (x : SysCore) : (s.setCore n x).opSeq = s.opSeq := rfl
@[simp] theorem setCore_units (s : State) (n : Nat) (x : SysCore) : (s.setCore n x).units = s.units := rfl
@[simp] theorem setCore_stepping (s : State) (n : Nat) (x : SysCore) : (s.setCore n x).stepping = s.stepping := rfl
@[simp] theorem setCore_time (s : State) (n : Nat) (x : SysCore) : (s.setCore n x).time = s.time := rfl
@[simp] theorem setCore_mem (s : State) (n : Nat) (x : SysCore) : (s.setCore n x).mem = s.mem := rfl
@[simp] theorem setCore_remote (s : State) (n : Nat) (x : SysCore) : (s.setCore n x).remote = s.remote := rfl
@[simp] theorem setCore_reqs (s : State) (n : Nat) (x : SysCore) : (s.setCore n x).reqs = s.reqs := rfl
@[simp] theorem setCore_spindles (s : State) (n : Nat) (x : SysCore) : (s.setCore n x).spindles = s.spindles := rfl
@[simp] theorem setCore_frames (s : State) (n : Nat) (x : SysCore) : (s.setCore n x).frames = s.frames := rfl
@[simp] theorem setCore_dies (s : State) (n : Nat) (x : SysCore) : (s.setCore n x).dies = s.dies := rfl
@[simp] theorem setCore_fifos (s : State) (n : Nat) (x : SysCore) : (s.setCore n x).fifos = s.fifos := rfl
@[simp] theorem setCore_launches (s : State) (n : Nat) (x : SysCore) : (s.setCore n x).launches = s.launches := rfl
@[simp] theorem setCore_acceptCount (s : State) (n : Nat) (x : SysCore) : (s.setCore n x).acceptCount = s.acceptCount := rfl
@[simp] theorem setCore_offers (s : State) (n : Nat) (x : SysCore) : (s.setCore n x).offers = s.offers := rfl
@[simp] theorem setCore_dealPtr (s : State) (n : Nat) (x : SysCore) : (s.setCore n x).dealPtr = s.dealPtr := rfl
@[simp] theorem setCore_rcbs (s : State) (n : Nat) (x : SysCore) : (s.setCore n x).rcbs = s.rcbs := rfl
@[simp] theorem setCore_affw (s : State) (n : Nat) (x : SysCore) : (s.setCore n x).affw = s.affw := rfl
@[simp] theorem setCore_frsel (s : State) (n : Nat) (x : SysCore) : (s.setCore n x).frsel = s.frsel := rfl
@[simp] theorem setCore_mcStack (s : State) (n : Nat) (x : SysCore) : (s.setCore n x).mcStack = s.mcStack := rfl
@[simp] theorem setCore_mcRange (s : State) (n : Nat) (x : SysCore) : (s.setCore n x).mcRange = s.mcRange := rfl
@[simp] theorem setCore_assel (s : State) (n : Nat) (x : SysCore) : (s.setCore n x).assel = s.assel := rfl
@[simp] theorem setCore_spaces (s : State) (n : Nat) (x : SysCore) : (s.setCore n x).spaces = s.spaces := rfl
@[simp] theorem setCore_fq (s : State) (n : Nat) (x : SysCore) : (s.setCore n x).fq = s.fq := rfl
@[simp] theorem setCore_fqHead (s : State) (n : Nat) (x : SysCore) : (s.setCore n x).fqHead = s.fqHead := rfl
@[simp] theorem setCore_fqTail (s : State) (n : Nat) (x : SysCore) : (s.setCore n x).fqTail = s.fqTail := rfl
@[simp] theorem setCore_fqWait (s : State) (n : Nat) (x : SysCore) : (s.setCore n x).fqWait = s.fqWait := rfl
@[simp] theorem setCore_known (s : State) (n : Nat) (x : SysCore) : (s.setCore n x).known = s.known := rfl
@[simp] theorem setCore_hotcfg (s : State) (n : Nat) (x : SysCore) : (s.setCore n x).hotcfg = s.hotcfg := rfl
@[simp] theorem setCore_hot (s : State) (n : Nat) (x : SysCore) : (s.setCore n x).hot = s.hot := rfl
@[simp] theorem setCore_hotAt (s : State) (n : Nat) (x : SysCore) : (s.setCore n x).hotAt = s.hotAt := rfl
@[simp] theorem setCore_pkg (s : State) (n : Nat) (x : SysCore) : (s.setCore n x).pkg = s.pkg := rfl
@[simp] theorem setCore_aselArray (s : State) (n : Nat) (x : SysCore) : (s.setCore n x).aselArray = s.aselArray := rfl
@[simp] theorem setCore_aselSpindle (s : State) (n : Nat) (x : SysCore) : (s.setCore n x).aselSpindle = s.aselSpindle := rfl
@[simp] theorem setCore_tbsel (s : State) (n : Nat) (x : SysCore) : (s.setCore n x).tbsel = s.tbsel := rfl
@[simp] theorem setCore_tags (s : State) (n : Nat) (x : SysCore) : (s.setCore n x).tags = s.tags := rfl
@[simp] theorem setCore_preScope (s : State) (n : Nat) (x : SysCore) : (s.setCore n x).preScope = s.preScope := rfl
@[simp] theorem setCore_preSpindle (s : State) (n : Nat) (x : SysCore) : (s.setCore n x).preSpindle = s.preSpindle := rfl
@[simp] theorem setCore_preSlot (s : State) (n : Nat) (x : SysCore) : (s.setCore n x).preSlot = s.preSlot := rfl
@[simp] theorem setCore_pwrLink (s : State) (n : Nat) (x : SysCore) : (s.setCore n x).pwrLink = s.pwrLink := rfl
@[simp] theorem setCore_pwrPort (s : State) (n : Nat) (x : SysCore) : (s.setCore n x).pwrPort = s.pwrPort := rfl
@[simp] theorem setCore_pwrFrame (s : State) (n : Nat) (x : SysCore) : (s.setCore n x).pwrFrame = s.pwrFrame := rfl
@[simp] theorem setCore_tlim (s : State) (n : Nat) (x : SysCore) : (s.setCore n x).tlim = s.tlim := rfl
@[simp] theorem setCore_budget (s : State) (n : Nat) (x : SysCore) : (s.setCore n x).budget = s.budget := rfl
@[simp] theorem setCore_mtrain (s : State) (n : Nat) (x : SysCore) : (s.setCore n x).mtrain = s.mtrain := rfl
@[simp] theorem setCore_idlelat (s : State) (n : Nat) (x : SysCore) : (s.setCore n x).idlelat = s.idlelat := rfl
@[simp] theorem setCore_a4 (s : State) (n : Nat) (x : SysCore) : (s.setCore n x).a4 = s.a4 := rfl
@[simp] theorem setCore_a4Wake (s : State) (n : Nat) (x : SysCore) : (s.setCore n x).a4Wake = s.a4Wake := rfl
@[simp] theorem setCore_bdie (s : State) (n : Nat) (x : SysCore) : (s.setCore n x).bdie = s.bdie := rfl
@[simp] theorem setCore_cdie (s : State) (n : Nat) (x : SysCore) : (s.setCore n x).cdie = s.cdie := rfl
@[simp] theorem setCore_memReady (s : State) (n : Nat) (x : SysCore) : (s.setCore n x).memReady = s.memReady := rfl
@[simp] theorem setCore_ethUp (s : State) (n : Nat) (x : SysCore) : (s.setCore n x).ethUp = s.ethUp := rfl
@[simp] theorem setCore_hostUp (s : State) (n : Nat) (x : SysCore) : (s.setCore n x).hostUp = s.hostUp := rfl
@[simp] theorem setCore_retraining (s : State) (n : Nat) (x : SysCore) : (s.setCore n x).retraining = s.retraining := rfl
@[simp] theorem setCore_retrainNext (s : State) (n : Nat) (x : SysCore) : (s.setCore n x).retrainNext = s.retrainNext := rfl
@[simp] theorem setCore_retrainAt (s : State) (n : Nat) (x : SysCore) : (s.setCore n x).retrainAt = s.retrainAt := rfl
@[simp] theorem setCore_links (s : State) (n : Nat) (x : SysCore) : (s.setCore n x).links = s.links := rfl
@[simp] theorem setCore_eths (s : State) (n : Nat) (x : SysCore) : (s.setCore n x).eths = s.eths := rfl
@[simp] theorem setCore_hostCtl (s : State) (n : Nat) (x : SysCore) : (s.setCore n x).hostCtl = s.hostCtl := rfl
@[simp] theorem setCore_hostRead (s : State) (n : Nat) (x : SysCore) : (s.setCore n x).hostRead = s.hostRead := rfl
@[simp] theorem setCore_secOp (s : State) (n : Nat) (x : SysCore) : (s.setCore n x).secOp = s.secOp := rfl
@[simp] theorem setCore_secPend (s : State) (n : Nat) (x : SysCore) : (s.setCore n x).secPend = s.secPend := rfl
@[simp] theorem setCore_slots (s : State) (n : Nat) (x : SysCore) : (s.setCore n x).slots = s.slots := rfl
@[simp] theorem setCore_boot (s : State) (n : Nat) (x : SysCore) : (s.setCore n x).boot = s.boot := rfl
@[simp] theorem setCore_string (s : State) (n : Nat) (x : SysCore) : (s.setCore n x).string = s.string := rfl
@[simp] theorem setCore_strHead (s : State) (n : Nat) (x : SysCore) : (s.setCore n x).strHead = s.strHead := rfl
@[simp] theorem setCore_strTail (s : State) (n : Nat) (x : SysCore) : (s.setCore n x).strTail = s.strTail := rfl
@[simp] theorem setCore_strLost (s : State) (n : Nat) (x : SysCore) : (s.setCore n x).strLost = s.strLost := rfl
@[simp] theorem setCore_strWait (s : State) (n : Nat) (x : SysCore) : (s.setCore n x).strWait = s.strWait := rfl
@[simp] theorem setCore_samp (s : State) (n : Nat) (x : SysCore) : (s.setCore n x).samp = s.samp := rfl
@[simp] theorem setCore_sampAt (s : State) (n : Nat) (x : SysCore) : (s.setCore n x).sampAt = s.sampAt := rfl
@[simp] theorem setCore_cselSpindle (s : State) (n : Nat) (x : SysCore) : (s.setCore n x).cselSpindle = s.cselSpindle := rfl
@[simp] theorem setCore_cselCtr (s : State) (n : Nat) (x : SysCore) : (s.setCore n x).cselCtr = s.cselCtr := rfl
@[simp] theorem setCore_dbgHold (s : State) (n : Nat) (x : SysCore) : (s.setCore n x).dbgHold = s.dbgHold := rfl

/-! ## modCore -/

@[simp] theorem modCore_tick (s : State) (n : Nat) (g : SysCore → SysCore) : (s.modCore n g).tick = s.tick := rfl
@[simp] theorem modCore_agenda (s : State) (n : Nat) (g : SysCore → SysCore) : (s.modCore n g).agenda = s.agenda := rfl
@[simp] theorem modCore_cur (s : State) (n : Nat) (g : SysCore → SysCore) : (s.modCore n g).cur = s.cur := rfl
@[simp] theorem modCore_opSeq (s : State) (n : Nat) (g : SysCore → SysCore) : (s.modCore n g).opSeq = s.opSeq := rfl
@[simp] theorem modCore_units (s : State) (n : Nat) (g : SysCore → SysCore) : (s.modCore n g).units = s.units := rfl
@[simp] theorem modCore_stepping (s : State) (n : Nat) (g : SysCore → SysCore) : (s.modCore n g).stepping = s.stepping := rfl
@[simp] theorem modCore_time (s : State) (n : Nat) (g : SysCore → SysCore) : (s.modCore n g).time = s.time := rfl
@[simp] theorem modCore_mem (s : State) (n : Nat) (g : SysCore → SysCore) : (s.modCore n g).mem = s.mem := rfl
@[simp] theorem modCore_remote (s : State) (n : Nat) (g : SysCore → SysCore) : (s.modCore n g).remote = s.remote := rfl
@[simp] theorem modCore_reqs (s : State) (n : Nat) (g : SysCore → SysCore) : (s.modCore n g).reqs = s.reqs := rfl
@[simp] theorem modCore_spindles (s : State) (n : Nat) (g : SysCore → SysCore) : (s.modCore n g).spindles = s.spindles := rfl
@[simp] theorem modCore_frames (s : State) (n : Nat) (g : SysCore → SysCore) : (s.modCore n g).frames = s.frames := rfl
@[simp] theorem modCore_dies (s : State) (n : Nat) (g : SysCore → SysCore) : (s.modCore n g).dies = s.dies := rfl
@[simp] theorem modCore_fifos (s : State) (n : Nat) (g : SysCore → SysCore) : (s.modCore n g).fifos = s.fifos := rfl
@[simp] theorem modCore_launches (s : State) (n : Nat) (g : SysCore → SysCore) : (s.modCore n g).launches = s.launches := rfl
@[simp] theorem modCore_acceptCount (s : State) (n : Nat) (g : SysCore → SysCore) : (s.modCore n g).acceptCount = s.acceptCount := rfl
@[simp] theorem modCore_offers (s : State) (n : Nat) (g : SysCore → SysCore) : (s.modCore n g).offers = s.offers := rfl
@[simp] theorem modCore_dealPtr (s : State) (n : Nat) (g : SysCore → SysCore) : (s.modCore n g).dealPtr = s.dealPtr := rfl
@[simp] theorem modCore_rcbs (s : State) (n : Nat) (g : SysCore → SysCore) : (s.modCore n g).rcbs = s.rcbs := rfl
@[simp] theorem modCore_affw (s : State) (n : Nat) (g : SysCore → SysCore) : (s.modCore n g).affw = s.affw := rfl
@[simp] theorem modCore_frsel (s : State) (n : Nat) (g : SysCore → SysCore) : (s.modCore n g).frsel = s.frsel := rfl
@[simp] theorem modCore_mcStack (s : State) (n : Nat) (g : SysCore → SysCore) : (s.modCore n g).mcStack = s.mcStack := rfl
@[simp] theorem modCore_mcRange (s : State) (n : Nat) (g : SysCore → SysCore) : (s.modCore n g).mcRange = s.mcRange := rfl
@[simp] theorem modCore_assel (s : State) (n : Nat) (g : SysCore → SysCore) : (s.modCore n g).assel = s.assel := rfl
@[simp] theorem modCore_spaces (s : State) (n : Nat) (g : SysCore → SysCore) : (s.modCore n g).spaces = s.spaces := rfl
@[simp] theorem modCore_fq (s : State) (n : Nat) (g : SysCore → SysCore) : (s.modCore n g).fq = s.fq := rfl
@[simp] theorem modCore_fqHead (s : State) (n : Nat) (g : SysCore → SysCore) : (s.modCore n g).fqHead = s.fqHead := rfl
@[simp] theorem modCore_fqTail (s : State) (n : Nat) (g : SysCore → SysCore) : (s.modCore n g).fqTail = s.fqTail := rfl
@[simp] theorem modCore_fqWait (s : State) (n : Nat) (g : SysCore → SysCore) : (s.modCore n g).fqWait = s.fqWait := rfl
@[simp] theorem modCore_known (s : State) (n : Nat) (g : SysCore → SysCore) : (s.modCore n g).known = s.known := rfl
@[simp] theorem modCore_hotcfg (s : State) (n : Nat) (g : SysCore → SysCore) : (s.modCore n g).hotcfg = s.hotcfg := rfl
@[simp] theorem modCore_hot (s : State) (n : Nat) (g : SysCore → SysCore) : (s.modCore n g).hot = s.hot := rfl
@[simp] theorem modCore_hotAt (s : State) (n : Nat) (g : SysCore → SysCore) : (s.modCore n g).hotAt = s.hotAt := rfl
@[simp] theorem modCore_pkg (s : State) (n : Nat) (g : SysCore → SysCore) : (s.modCore n g).pkg = s.pkg := rfl
@[simp] theorem modCore_aselArray (s : State) (n : Nat) (g : SysCore → SysCore) : (s.modCore n g).aselArray = s.aselArray := rfl
@[simp] theorem modCore_aselSpindle (s : State) (n : Nat) (g : SysCore → SysCore) : (s.modCore n g).aselSpindle = s.aselSpindle := rfl
@[simp] theorem modCore_tbsel (s : State) (n : Nat) (g : SysCore → SysCore) : (s.modCore n g).tbsel = s.tbsel := rfl
@[simp] theorem modCore_tags (s : State) (n : Nat) (g : SysCore → SysCore) : (s.modCore n g).tags = s.tags := rfl
@[simp] theorem modCore_preScope (s : State) (n : Nat) (g : SysCore → SysCore) : (s.modCore n g).preScope = s.preScope := rfl
@[simp] theorem modCore_preSpindle (s : State) (n : Nat) (g : SysCore → SysCore) : (s.modCore n g).preSpindle = s.preSpindle := rfl
@[simp] theorem modCore_preSlot (s : State) (n : Nat) (g : SysCore → SysCore) : (s.modCore n g).preSlot = s.preSlot := rfl
@[simp] theorem modCore_pwrLink (s : State) (n : Nat) (g : SysCore → SysCore) : (s.modCore n g).pwrLink = s.pwrLink := rfl
@[simp] theorem modCore_pwrPort (s : State) (n : Nat) (g : SysCore → SysCore) : (s.modCore n g).pwrPort = s.pwrPort := rfl
@[simp] theorem modCore_pwrFrame (s : State) (n : Nat) (g : SysCore → SysCore) : (s.modCore n g).pwrFrame = s.pwrFrame := rfl
@[simp] theorem modCore_tlim (s : State) (n : Nat) (g : SysCore → SysCore) : (s.modCore n g).tlim = s.tlim := rfl
@[simp] theorem modCore_budget (s : State) (n : Nat) (g : SysCore → SysCore) : (s.modCore n g).budget = s.budget := rfl
@[simp] theorem modCore_mtrain (s : State) (n : Nat) (g : SysCore → SysCore) : (s.modCore n g).mtrain = s.mtrain := rfl
@[simp] theorem modCore_idlelat (s : State) (n : Nat) (g : SysCore → SysCore) : (s.modCore n g).idlelat = s.idlelat := rfl
@[simp] theorem modCore_a4 (s : State) (n : Nat) (g : SysCore → SysCore) : (s.modCore n g).a4 = s.a4 := rfl
@[simp] theorem modCore_a4Wake (s : State) (n : Nat) (g : SysCore → SysCore) : (s.modCore n g).a4Wake = s.a4Wake := rfl
@[simp] theorem modCore_bdie (s : State) (n : Nat) (g : SysCore → SysCore) : (s.modCore n g).bdie = s.bdie := rfl
@[simp] theorem modCore_cdie (s : State) (n : Nat) (g : SysCore → SysCore) : (s.modCore n g).cdie = s.cdie := rfl
@[simp] theorem modCore_memReady (s : State) (n : Nat) (g : SysCore → SysCore) : (s.modCore n g).memReady = s.memReady := rfl
@[simp] theorem modCore_ethUp (s : State) (n : Nat) (g : SysCore → SysCore) : (s.modCore n g).ethUp = s.ethUp := rfl
@[simp] theorem modCore_hostUp (s : State) (n : Nat) (g : SysCore → SysCore) : (s.modCore n g).hostUp = s.hostUp := rfl
@[simp] theorem modCore_retraining (s : State) (n : Nat) (g : SysCore → SysCore) : (s.modCore n g).retraining = s.retraining := rfl
@[simp] theorem modCore_retrainNext (s : State) (n : Nat) (g : SysCore → SysCore) : (s.modCore n g).retrainNext = s.retrainNext := rfl
@[simp] theorem modCore_retrainAt (s : State) (n : Nat) (g : SysCore → SysCore) : (s.modCore n g).retrainAt = s.retrainAt := rfl
@[simp] theorem modCore_links (s : State) (n : Nat) (g : SysCore → SysCore) : (s.modCore n g).links = s.links := rfl
@[simp] theorem modCore_eths (s : State) (n : Nat) (g : SysCore → SysCore) : (s.modCore n g).eths = s.eths := rfl
@[simp] theorem modCore_hostCtl (s : State) (n : Nat) (g : SysCore → SysCore) : (s.modCore n g).hostCtl = s.hostCtl := rfl
@[simp] theorem modCore_hostRead (s : State) (n : Nat) (g : SysCore → SysCore) : (s.modCore n g).hostRead = s.hostRead := rfl
@[simp] theorem modCore_secOp (s : State) (n : Nat) (g : SysCore → SysCore) : (s.modCore n g).secOp = s.secOp := rfl
@[simp] theorem modCore_secPend (s : State) (n : Nat) (g : SysCore → SysCore) : (s.modCore n g).secPend = s.secPend := rfl
@[simp] theorem modCore_slots (s : State) (n : Nat) (g : SysCore → SysCore) : (s.modCore n g).slots = s.slots := rfl
@[simp] theorem modCore_boot (s : State) (n : Nat) (g : SysCore → SysCore) : (s.modCore n g).boot = s.boot := rfl
@[simp] theorem modCore_string (s : State) (n : Nat) (g : SysCore → SysCore) : (s.modCore n g).string = s.string := rfl
@[simp] theorem modCore_strHead (s : State) (n : Nat) (g : SysCore → SysCore) : (s.modCore n g).strHead = s.strHead := rfl
@[simp] theorem modCore_strTail (s : State) (n : Nat) (g : SysCore → SysCore) : (s.modCore n g).strTail = s.strTail := rfl
@[simp] theorem modCore_strLost (s : State) (n : Nat) (g : SysCore → SysCore) : (s.modCore n g).strLost = s.strLost := rfl
@[simp] theorem modCore_strWait (s : State) (n : Nat) (g : SysCore → SysCore) : (s.modCore n g).strWait = s.strWait := rfl
@[simp] theorem modCore_samp (s : State) (n : Nat) (g : SysCore → SysCore) : (s.modCore n g).samp = s.samp := rfl
@[simp] theorem modCore_sampAt (s : State) (n : Nat) (g : SysCore → SysCore) : (s.modCore n g).sampAt = s.sampAt := rfl
@[simp] theorem modCore_cselSpindle (s : State) (n : Nat) (g : SysCore → SysCore) : (s.modCore n g).cselSpindle = s.cselSpindle := rfl
@[simp] theorem modCore_cselCtr (s : State) (n : Nat) (g : SysCore → SysCore) : (s.modCore n g).cselCtr = s.cselCtr := rfl
@[simp] theorem modCore_dbgHold (s : State) (n : Nat) (g : SysCore → SysCore) : (s.modCore n g).dbgHold = s.dbgHold := rfl

/-! ## setLaunch -/

@[simp] theorem setLaunch_tick (s : State) (n : Nat) (x : Launch) : (s.setLaunch n x).tick = s.tick := rfl
@[simp] theorem setLaunch_agenda (s : State) (n : Nat) (x : Launch) : (s.setLaunch n x).agenda = s.agenda := rfl
@[simp] theorem setLaunch_cur (s : State) (n : Nat) (x : Launch) : (s.setLaunch n x).cur = s.cur := rfl
@[simp] theorem setLaunch_opSeq (s : State) (n : Nat) (x : Launch) : (s.setLaunch n x).opSeq = s.opSeq := rfl
@[simp] theorem setLaunch_units (s : State) (n : Nat) (x : Launch) : (s.setLaunch n x).units = s.units := rfl
@[simp] theorem setLaunch_stepping (s : State) (n : Nat) (x : Launch) : (s.setLaunch n x).stepping = s.stepping := rfl
@[simp] theorem setLaunch_time (s : State) (n : Nat) (x : Launch) : (s.setLaunch n x).time = s.time := rfl
@[simp] theorem setLaunch_mem (s : State) (n : Nat) (x : Launch) : (s.setLaunch n x).mem = s.mem := rfl
@[simp] theorem setLaunch_remote (s : State) (n : Nat) (x : Launch) : (s.setLaunch n x).remote = s.remote := rfl
@[simp] theorem setLaunch_reqs (s : State) (n : Nat) (x : Launch) : (s.setLaunch n x).reqs = s.reqs := rfl
@[simp] theorem setLaunch_spindles (s : State) (n : Nat) (x : Launch) : (s.setLaunch n x).spindles = s.spindles := rfl
@[simp] theorem setLaunch_frames (s : State) (n : Nat) (x : Launch) : (s.setLaunch n x).frames = s.frames := rfl
@[simp] theorem setLaunch_dies (s : State) (n : Nat) (x : Launch) : (s.setLaunch n x).dies = s.dies := rfl
@[simp] theorem setLaunch_cores (s : State) (n : Nat) (x : Launch) : (s.setLaunch n x).cores = s.cores := rfl
@[simp] theorem setLaunch_fifos (s : State) (n : Nat) (x : Launch) : (s.setLaunch n x).fifos = s.fifos := rfl
@[simp] theorem setLaunch_acceptCount (s : State) (n : Nat) (x : Launch) : (s.setLaunch n x).acceptCount = s.acceptCount := rfl
@[simp] theorem setLaunch_offers (s : State) (n : Nat) (x : Launch) : (s.setLaunch n x).offers = s.offers := rfl
@[simp] theorem setLaunch_dealPtr (s : State) (n : Nat) (x : Launch) : (s.setLaunch n x).dealPtr = s.dealPtr := rfl
@[simp] theorem setLaunch_rcbs (s : State) (n : Nat) (x : Launch) : (s.setLaunch n x).rcbs = s.rcbs := rfl
@[simp] theorem setLaunch_affw (s : State) (n : Nat) (x : Launch) : (s.setLaunch n x).affw = s.affw := rfl
@[simp] theorem setLaunch_frsel (s : State) (n : Nat) (x : Launch) : (s.setLaunch n x).frsel = s.frsel := rfl
@[simp] theorem setLaunch_mcStack (s : State) (n : Nat) (x : Launch) : (s.setLaunch n x).mcStack = s.mcStack := rfl
@[simp] theorem setLaunch_mcRange (s : State) (n : Nat) (x : Launch) : (s.setLaunch n x).mcRange = s.mcRange := rfl
@[simp] theorem setLaunch_assel (s : State) (n : Nat) (x : Launch) : (s.setLaunch n x).assel = s.assel := rfl
@[simp] theorem setLaunch_spaces (s : State) (n : Nat) (x : Launch) : (s.setLaunch n x).spaces = s.spaces := rfl
@[simp] theorem setLaunch_fq (s : State) (n : Nat) (x : Launch) : (s.setLaunch n x).fq = s.fq := rfl
@[simp] theorem setLaunch_fqHead (s : State) (n : Nat) (x : Launch) : (s.setLaunch n x).fqHead = s.fqHead := rfl
@[simp] theorem setLaunch_fqTail (s : State) (n : Nat) (x : Launch) : (s.setLaunch n x).fqTail = s.fqTail := rfl
@[simp] theorem setLaunch_fqWait (s : State) (n : Nat) (x : Launch) : (s.setLaunch n x).fqWait = s.fqWait := rfl
@[simp] theorem setLaunch_known (s : State) (n : Nat) (x : Launch) : (s.setLaunch n x).known = s.known := rfl
@[simp] theorem setLaunch_hotcfg (s : State) (n : Nat) (x : Launch) : (s.setLaunch n x).hotcfg = s.hotcfg := rfl
@[simp] theorem setLaunch_hot (s : State) (n : Nat) (x : Launch) : (s.setLaunch n x).hot = s.hot := rfl
@[simp] theorem setLaunch_hotAt (s : State) (n : Nat) (x : Launch) : (s.setLaunch n x).hotAt = s.hotAt := rfl
@[simp] theorem setLaunch_pkg (s : State) (n : Nat) (x : Launch) : (s.setLaunch n x).pkg = s.pkg := rfl
@[simp] theorem setLaunch_aselArray (s : State) (n : Nat) (x : Launch) : (s.setLaunch n x).aselArray = s.aselArray := rfl
@[simp] theorem setLaunch_aselSpindle (s : State) (n : Nat) (x : Launch) : (s.setLaunch n x).aselSpindle = s.aselSpindle := rfl
@[simp] theorem setLaunch_tbsel (s : State) (n : Nat) (x : Launch) : (s.setLaunch n x).tbsel = s.tbsel := rfl
@[simp] theorem setLaunch_tags (s : State) (n : Nat) (x : Launch) : (s.setLaunch n x).tags = s.tags := rfl
@[simp] theorem setLaunch_preScope (s : State) (n : Nat) (x : Launch) : (s.setLaunch n x).preScope = s.preScope := rfl
@[simp] theorem setLaunch_preSpindle (s : State) (n : Nat) (x : Launch) : (s.setLaunch n x).preSpindle = s.preSpindle := rfl
@[simp] theorem setLaunch_preSlot (s : State) (n : Nat) (x : Launch) : (s.setLaunch n x).preSlot = s.preSlot := rfl
@[simp] theorem setLaunch_pwrLink (s : State) (n : Nat) (x : Launch) : (s.setLaunch n x).pwrLink = s.pwrLink := rfl
@[simp] theorem setLaunch_pwrPort (s : State) (n : Nat) (x : Launch) : (s.setLaunch n x).pwrPort = s.pwrPort := rfl
@[simp] theorem setLaunch_pwrFrame (s : State) (n : Nat) (x : Launch) : (s.setLaunch n x).pwrFrame = s.pwrFrame := rfl
@[simp] theorem setLaunch_tlim (s : State) (n : Nat) (x : Launch) : (s.setLaunch n x).tlim = s.tlim := rfl
@[simp] theorem setLaunch_budget (s : State) (n : Nat) (x : Launch) : (s.setLaunch n x).budget = s.budget := rfl
@[simp] theorem setLaunch_mtrain (s : State) (n : Nat) (x : Launch) : (s.setLaunch n x).mtrain = s.mtrain := rfl
@[simp] theorem setLaunch_idlelat (s : State) (n : Nat) (x : Launch) : (s.setLaunch n x).idlelat = s.idlelat := rfl
@[simp] theorem setLaunch_a4 (s : State) (n : Nat) (x : Launch) : (s.setLaunch n x).a4 = s.a4 := rfl
@[simp] theorem setLaunch_a4Wake (s : State) (n : Nat) (x : Launch) : (s.setLaunch n x).a4Wake = s.a4Wake := rfl
@[simp] theorem setLaunch_bdie (s : State) (n : Nat) (x : Launch) : (s.setLaunch n x).bdie = s.bdie := rfl
@[simp] theorem setLaunch_cdie (s : State) (n : Nat) (x : Launch) : (s.setLaunch n x).cdie = s.cdie := rfl
@[simp] theorem setLaunch_memReady (s : State) (n : Nat) (x : Launch) : (s.setLaunch n x).memReady = s.memReady := rfl
@[simp] theorem setLaunch_ethUp (s : State) (n : Nat) (x : Launch) : (s.setLaunch n x).ethUp = s.ethUp := rfl
@[simp] theorem setLaunch_hostUp (s : State) (n : Nat) (x : Launch) : (s.setLaunch n x).hostUp = s.hostUp := rfl
@[simp] theorem setLaunch_retraining (s : State) (n : Nat) (x : Launch) : (s.setLaunch n x).retraining = s.retraining := rfl
@[simp] theorem setLaunch_retrainNext (s : State) (n : Nat) (x : Launch) : (s.setLaunch n x).retrainNext = s.retrainNext := rfl
@[simp] theorem setLaunch_retrainAt (s : State) (n : Nat) (x : Launch) : (s.setLaunch n x).retrainAt = s.retrainAt := rfl
@[simp] theorem setLaunch_links (s : State) (n : Nat) (x : Launch) : (s.setLaunch n x).links = s.links := rfl
@[simp] theorem setLaunch_eths (s : State) (n : Nat) (x : Launch) : (s.setLaunch n x).eths = s.eths := rfl
@[simp] theorem setLaunch_hostCtl (s : State) (n : Nat) (x : Launch) : (s.setLaunch n x).hostCtl = s.hostCtl := rfl
@[simp] theorem setLaunch_hostRead (s : State) (n : Nat) (x : Launch) : (s.setLaunch n x).hostRead = s.hostRead := rfl
@[simp] theorem setLaunch_secOp (s : State) (n : Nat) (x : Launch) : (s.setLaunch n x).secOp = s.secOp := rfl
@[simp] theorem setLaunch_secPend (s : State) (n : Nat) (x : Launch) : (s.setLaunch n x).secPend = s.secPend := rfl
@[simp] theorem setLaunch_slots (s : State) (n : Nat) (x : Launch) : (s.setLaunch n x).slots = s.slots := rfl
@[simp] theorem setLaunch_boot (s : State) (n : Nat) (x : Launch) : (s.setLaunch n x).boot = s.boot := rfl
@[simp] theorem setLaunch_string (s : State) (n : Nat) (x : Launch) : (s.setLaunch n x).string = s.string := rfl
@[simp] theorem setLaunch_strHead (s : State) (n : Nat) (x : Launch) : (s.setLaunch n x).strHead = s.strHead := rfl
@[simp] theorem setLaunch_strTail (s : State) (n : Nat) (x : Launch) : (s.setLaunch n x).strTail = s.strTail := rfl
@[simp] theorem setLaunch_strLost (s : State) (n : Nat) (x : Launch) : (s.setLaunch n x).strLost = s.strLost := rfl
@[simp] theorem setLaunch_strWait (s : State) (n : Nat) (x : Launch) : (s.setLaunch n x).strWait = s.strWait := rfl
@[simp] theorem setLaunch_samp (s : State) (n : Nat) (x : Launch) : (s.setLaunch n x).samp = s.samp := rfl
@[simp] theorem setLaunch_sampAt (s : State) (n : Nat) (x : Launch) : (s.setLaunch n x).sampAt = s.sampAt := rfl
@[simp] theorem setLaunch_cselSpindle (s : State) (n : Nat) (x : Launch) : (s.setLaunch n x).cselSpindle = s.cselSpindle := rfl
@[simp] theorem setLaunch_cselCtr (s : State) (n : Nat) (x : Launch) : (s.setLaunch n x).cselCtr = s.cselCtr := rfl
@[simp] theorem setLaunch_dbgHold (s : State) (n : Nat) (x : Launch) : (s.setLaunch n x).dbgHold = s.dbgHold := rfl

/-! ## modLaunch -/

@[simp] theorem modLaunch_tick (s : State) (n : Nat) (g : Launch → Launch) : (s.modLaunch n g).tick = s.tick := rfl
@[simp] theorem modLaunch_agenda (s : State) (n : Nat) (g : Launch → Launch) : (s.modLaunch n g).agenda = s.agenda := rfl
@[simp] theorem modLaunch_cur (s : State) (n : Nat) (g : Launch → Launch) : (s.modLaunch n g).cur = s.cur := rfl
@[simp] theorem modLaunch_opSeq (s : State) (n : Nat) (g : Launch → Launch) : (s.modLaunch n g).opSeq = s.opSeq := rfl
@[simp] theorem modLaunch_units (s : State) (n : Nat) (g : Launch → Launch) : (s.modLaunch n g).units = s.units := rfl
@[simp] theorem modLaunch_stepping (s : State) (n : Nat) (g : Launch → Launch) : (s.modLaunch n g).stepping = s.stepping := rfl
@[simp] theorem modLaunch_time (s : State) (n : Nat) (g : Launch → Launch) : (s.modLaunch n g).time = s.time := rfl
@[simp] theorem modLaunch_mem (s : State) (n : Nat) (g : Launch → Launch) : (s.modLaunch n g).mem = s.mem := rfl
@[simp] theorem modLaunch_remote (s : State) (n : Nat) (g : Launch → Launch) : (s.modLaunch n g).remote = s.remote := rfl
@[simp] theorem modLaunch_reqs (s : State) (n : Nat) (g : Launch → Launch) : (s.modLaunch n g).reqs = s.reqs := rfl
@[simp] theorem modLaunch_spindles (s : State) (n : Nat) (g : Launch → Launch) : (s.modLaunch n g).spindles = s.spindles := rfl
@[simp] theorem modLaunch_frames (s : State) (n : Nat) (g : Launch → Launch) : (s.modLaunch n g).frames = s.frames := rfl
@[simp] theorem modLaunch_dies (s : State) (n : Nat) (g : Launch → Launch) : (s.modLaunch n g).dies = s.dies := rfl
@[simp] theorem modLaunch_cores (s : State) (n : Nat) (g : Launch → Launch) : (s.modLaunch n g).cores = s.cores := rfl
@[simp] theorem modLaunch_fifos (s : State) (n : Nat) (g : Launch → Launch) : (s.modLaunch n g).fifos = s.fifos := rfl
@[simp] theorem modLaunch_acceptCount (s : State) (n : Nat) (g : Launch → Launch) : (s.modLaunch n g).acceptCount = s.acceptCount := rfl
@[simp] theorem modLaunch_offers (s : State) (n : Nat) (g : Launch → Launch) : (s.modLaunch n g).offers = s.offers := rfl
@[simp] theorem modLaunch_dealPtr (s : State) (n : Nat) (g : Launch → Launch) : (s.modLaunch n g).dealPtr = s.dealPtr := rfl
@[simp] theorem modLaunch_rcbs (s : State) (n : Nat) (g : Launch → Launch) : (s.modLaunch n g).rcbs = s.rcbs := rfl
@[simp] theorem modLaunch_affw (s : State) (n : Nat) (g : Launch → Launch) : (s.modLaunch n g).affw = s.affw := rfl
@[simp] theorem modLaunch_frsel (s : State) (n : Nat) (g : Launch → Launch) : (s.modLaunch n g).frsel = s.frsel := rfl
@[simp] theorem modLaunch_mcStack (s : State) (n : Nat) (g : Launch → Launch) : (s.modLaunch n g).mcStack = s.mcStack := rfl
@[simp] theorem modLaunch_mcRange (s : State) (n : Nat) (g : Launch → Launch) : (s.modLaunch n g).mcRange = s.mcRange := rfl
@[simp] theorem modLaunch_assel (s : State) (n : Nat) (g : Launch → Launch) : (s.modLaunch n g).assel = s.assel := rfl
@[simp] theorem modLaunch_spaces (s : State) (n : Nat) (g : Launch → Launch) : (s.modLaunch n g).spaces = s.spaces := rfl
@[simp] theorem modLaunch_fq (s : State) (n : Nat) (g : Launch → Launch) : (s.modLaunch n g).fq = s.fq := rfl
@[simp] theorem modLaunch_fqHead (s : State) (n : Nat) (g : Launch → Launch) : (s.modLaunch n g).fqHead = s.fqHead := rfl
@[simp] theorem modLaunch_fqTail (s : State) (n : Nat) (g : Launch → Launch) : (s.modLaunch n g).fqTail = s.fqTail := rfl
@[simp] theorem modLaunch_fqWait (s : State) (n : Nat) (g : Launch → Launch) : (s.modLaunch n g).fqWait = s.fqWait := rfl
@[simp] theorem modLaunch_known (s : State) (n : Nat) (g : Launch → Launch) : (s.modLaunch n g).known = s.known := rfl
@[simp] theorem modLaunch_hotcfg (s : State) (n : Nat) (g : Launch → Launch) : (s.modLaunch n g).hotcfg = s.hotcfg := rfl
@[simp] theorem modLaunch_hot (s : State) (n : Nat) (g : Launch → Launch) : (s.modLaunch n g).hot = s.hot := rfl
@[simp] theorem modLaunch_hotAt (s : State) (n : Nat) (g : Launch → Launch) : (s.modLaunch n g).hotAt = s.hotAt := rfl
@[simp] theorem modLaunch_pkg (s : State) (n : Nat) (g : Launch → Launch) : (s.modLaunch n g).pkg = s.pkg := rfl
@[simp] theorem modLaunch_aselArray (s : State) (n : Nat) (g : Launch → Launch) : (s.modLaunch n g).aselArray = s.aselArray := rfl
@[simp] theorem modLaunch_aselSpindle (s : State) (n : Nat) (g : Launch → Launch) : (s.modLaunch n g).aselSpindle = s.aselSpindle := rfl
@[simp] theorem modLaunch_tbsel (s : State) (n : Nat) (g : Launch → Launch) : (s.modLaunch n g).tbsel = s.tbsel := rfl
@[simp] theorem modLaunch_tags (s : State) (n : Nat) (g : Launch → Launch) : (s.modLaunch n g).tags = s.tags := rfl
@[simp] theorem modLaunch_preScope (s : State) (n : Nat) (g : Launch → Launch) : (s.modLaunch n g).preScope = s.preScope := rfl
@[simp] theorem modLaunch_preSpindle (s : State) (n : Nat) (g : Launch → Launch) : (s.modLaunch n g).preSpindle = s.preSpindle := rfl
@[simp] theorem modLaunch_preSlot (s : State) (n : Nat) (g : Launch → Launch) : (s.modLaunch n g).preSlot = s.preSlot := rfl
@[simp] theorem modLaunch_pwrLink (s : State) (n : Nat) (g : Launch → Launch) : (s.modLaunch n g).pwrLink = s.pwrLink := rfl
@[simp] theorem modLaunch_pwrPort (s : State) (n : Nat) (g : Launch → Launch) : (s.modLaunch n g).pwrPort = s.pwrPort := rfl
@[simp] theorem modLaunch_pwrFrame (s : State) (n : Nat) (g : Launch → Launch) : (s.modLaunch n g).pwrFrame = s.pwrFrame := rfl
@[simp] theorem modLaunch_tlim (s : State) (n : Nat) (g : Launch → Launch) : (s.modLaunch n g).tlim = s.tlim := rfl
@[simp] theorem modLaunch_budget (s : State) (n : Nat) (g : Launch → Launch) : (s.modLaunch n g).budget = s.budget := rfl
@[simp] theorem modLaunch_mtrain (s : State) (n : Nat) (g : Launch → Launch) : (s.modLaunch n g).mtrain = s.mtrain := rfl
@[simp] theorem modLaunch_idlelat (s : State) (n : Nat) (g : Launch → Launch) : (s.modLaunch n g).idlelat = s.idlelat := rfl
@[simp] theorem modLaunch_a4 (s : State) (n : Nat) (g : Launch → Launch) : (s.modLaunch n g).a4 = s.a4 := rfl
@[simp] theorem modLaunch_a4Wake (s : State) (n : Nat) (g : Launch → Launch) : (s.modLaunch n g).a4Wake = s.a4Wake := rfl
@[simp] theorem modLaunch_bdie (s : State) (n : Nat) (g : Launch → Launch) : (s.modLaunch n g).bdie = s.bdie := rfl
@[simp] theorem modLaunch_cdie (s : State) (n : Nat) (g : Launch → Launch) : (s.modLaunch n g).cdie = s.cdie := rfl
@[simp] theorem modLaunch_memReady (s : State) (n : Nat) (g : Launch → Launch) : (s.modLaunch n g).memReady = s.memReady := rfl
@[simp] theorem modLaunch_ethUp (s : State) (n : Nat) (g : Launch → Launch) : (s.modLaunch n g).ethUp = s.ethUp := rfl
@[simp] theorem modLaunch_hostUp (s : State) (n : Nat) (g : Launch → Launch) : (s.modLaunch n g).hostUp = s.hostUp := rfl
@[simp] theorem modLaunch_retraining (s : State) (n : Nat) (g : Launch → Launch) : (s.modLaunch n g).retraining = s.retraining := rfl
@[simp] theorem modLaunch_retrainNext (s : State) (n : Nat) (g : Launch → Launch) : (s.modLaunch n g).retrainNext = s.retrainNext := rfl
@[simp] theorem modLaunch_retrainAt (s : State) (n : Nat) (g : Launch → Launch) : (s.modLaunch n g).retrainAt = s.retrainAt := rfl
@[simp] theorem modLaunch_links (s : State) (n : Nat) (g : Launch → Launch) : (s.modLaunch n g).links = s.links := rfl
@[simp] theorem modLaunch_eths (s : State) (n : Nat) (g : Launch → Launch) : (s.modLaunch n g).eths = s.eths := rfl
@[simp] theorem modLaunch_hostCtl (s : State) (n : Nat) (g : Launch → Launch) : (s.modLaunch n g).hostCtl = s.hostCtl := rfl
@[simp] theorem modLaunch_hostRead (s : State) (n : Nat) (g : Launch → Launch) : (s.modLaunch n g).hostRead = s.hostRead := rfl
@[simp] theorem modLaunch_secOp (s : State) (n : Nat) (g : Launch → Launch) : (s.modLaunch n g).secOp = s.secOp := rfl
@[simp] theorem modLaunch_secPend (s : State) (n : Nat) (g : Launch → Launch) : (s.modLaunch n g).secPend = s.secPend := rfl
@[simp] theorem modLaunch_slots (s : State) (n : Nat) (g : Launch → Launch) : (s.modLaunch n g).slots = s.slots := rfl
@[simp] theorem modLaunch_boot (s : State) (n : Nat) (g : Launch → Launch) : (s.modLaunch n g).boot = s.boot := rfl
@[simp] theorem modLaunch_string (s : State) (n : Nat) (g : Launch → Launch) : (s.modLaunch n g).string = s.string := rfl
@[simp] theorem modLaunch_strHead (s : State) (n : Nat) (g : Launch → Launch) : (s.modLaunch n g).strHead = s.strHead := rfl
@[simp] theorem modLaunch_strTail (s : State) (n : Nat) (g : Launch → Launch) : (s.modLaunch n g).strTail = s.strTail := rfl
@[simp] theorem modLaunch_strLost (s : State) (n : Nat) (g : Launch → Launch) : (s.modLaunch n g).strLost = s.strLost := rfl
@[simp] theorem modLaunch_strWait (s : State) (n : Nat) (g : Launch → Launch) : (s.modLaunch n g).strWait = s.strWait := rfl
@[simp] theorem modLaunch_samp (s : State) (n : Nat) (g : Launch → Launch) : (s.modLaunch n g).samp = s.samp := rfl
@[simp] theorem modLaunch_sampAt (s : State) (n : Nat) (g : Launch → Launch) : (s.modLaunch n g).sampAt = s.sampAt := rfl
@[simp] theorem modLaunch_cselSpindle (s : State) (n : Nat) (g : Launch → Launch) : (s.modLaunch n g).cselSpindle = s.cselSpindle := rfl
@[simp] theorem modLaunch_cselCtr (s : State) (n : Nat) (g : Launch → Launch) : (s.modLaunch n g).cselCtr = s.cselCtr := rfl
@[simp] theorem modLaunch_dbgHold (s : State) (n : Nat) (g : Launch → Launch) : (s.modLaunch n g).dbgHold = s.dbgHold := rfl

/-! ## passToken -/

@[simp] theorem passToken_tick (s : State) (n : Nat) : (s.passToken n).tick = s.tick := rfl
@[simp] theorem passToken_agenda (s : State) (n : Nat) : (s.passToken n).agenda = s.agenda := rfl
@[simp] theorem passToken_cur (s : State) (n : Nat) : (s.passToken n).cur = s.cur := rfl
@[simp] theorem passToken_opSeq (s : State) (n : Nat) : (s.passToken n).opSeq = s.opSeq := rfl
@[simp] theorem passToken_units (s : State) (n : Nat) : (s.passToken n).units = s.units := rfl
@[simp] theorem passToken_stepping (s : State) (n : Nat) : (s.passToken n).stepping = s.stepping := rfl
@[simp] theorem passToken_time (s : State) (n : Nat) : (s.passToken n).time = s.time := rfl
@[simp] theorem passToken_mem (s : State) (n : Nat) : (s.passToken n).mem = s.mem := rfl
@[simp] theorem passToken_remote (s : State) (n : Nat) : (s.passToken n).remote = s.remote := rfl
@[simp] theorem passToken_reqs (s : State) (n : Nat) : (s.passToken n).reqs = s.reqs := rfl
@[simp] theorem passToken_spindles (s : State) (n : Nat) : (s.passToken n).spindles = s.spindles := rfl
@[simp] theorem passToken_frames (s : State) (n : Nat) : (s.passToken n).frames = s.frames := rfl
@[simp] theorem passToken_dies (s : State) (n : Nat) : (s.passToken n).dies = s.dies := rfl
@[simp] theorem passToken_cores (s : State) (n : Nat) : (s.passToken n).cores = s.cores := rfl
@[simp] theorem passToken_fifos (s : State) (n : Nat) : (s.passToken n).fifos = s.fifos := rfl
@[simp] theorem passToken_acceptCount (s : State) (n : Nat) : (s.passToken n).acceptCount = s.acceptCount := rfl
@[simp] theorem passToken_offers (s : State) (n : Nat) : (s.passToken n).offers = s.offers := rfl
@[simp] theorem passToken_dealPtr (s : State) (n : Nat) : (s.passToken n).dealPtr = s.dealPtr := rfl
@[simp] theorem passToken_rcbs (s : State) (n : Nat) : (s.passToken n).rcbs = s.rcbs := rfl
@[simp] theorem passToken_affw (s : State) (n : Nat) : (s.passToken n).affw = s.affw := rfl
@[simp] theorem passToken_frsel (s : State) (n : Nat) : (s.passToken n).frsel = s.frsel := rfl
@[simp] theorem passToken_mcStack (s : State) (n : Nat) : (s.passToken n).mcStack = s.mcStack := rfl
@[simp] theorem passToken_mcRange (s : State) (n : Nat) : (s.passToken n).mcRange = s.mcRange := rfl
@[simp] theorem passToken_assel (s : State) (n : Nat) : (s.passToken n).assel = s.assel := rfl
@[simp] theorem passToken_spaces (s : State) (n : Nat) : (s.passToken n).spaces = s.spaces := rfl
@[simp] theorem passToken_fq (s : State) (n : Nat) : (s.passToken n).fq = s.fq := rfl
@[simp] theorem passToken_fqHead (s : State) (n : Nat) : (s.passToken n).fqHead = s.fqHead := rfl
@[simp] theorem passToken_fqTail (s : State) (n : Nat) : (s.passToken n).fqTail = s.fqTail := rfl
@[simp] theorem passToken_fqWait (s : State) (n : Nat) : (s.passToken n).fqWait = s.fqWait := rfl
@[simp] theorem passToken_known (s : State) (n : Nat) : (s.passToken n).known = s.known := rfl
@[simp] theorem passToken_hotcfg (s : State) (n : Nat) : (s.passToken n).hotcfg = s.hotcfg := rfl
@[simp] theorem passToken_hot (s : State) (n : Nat) : (s.passToken n).hot = s.hot := rfl
@[simp] theorem passToken_hotAt (s : State) (n : Nat) : (s.passToken n).hotAt = s.hotAt := rfl
@[simp] theorem passToken_pkg (s : State) (n : Nat) : (s.passToken n).pkg = s.pkg := rfl
@[simp] theorem passToken_aselArray (s : State) (n : Nat) : (s.passToken n).aselArray = s.aselArray := rfl
@[simp] theorem passToken_aselSpindle (s : State) (n : Nat) : (s.passToken n).aselSpindle = s.aselSpindle := rfl
@[simp] theorem passToken_tbsel (s : State) (n : Nat) : (s.passToken n).tbsel = s.tbsel := rfl
@[simp] theorem passToken_tags (s : State) (n : Nat) : (s.passToken n).tags = s.tags := rfl
@[simp] theorem passToken_preScope (s : State) (n : Nat) : (s.passToken n).preScope = s.preScope := rfl
@[simp] theorem passToken_preSpindle (s : State) (n : Nat) : (s.passToken n).preSpindle = s.preSpindle := rfl
@[simp] theorem passToken_preSlot (s : State) (n : Nat) : (s.passToken n).preSlot = s.preSlot := rfl
@[simp] theorem passToken_pwrLink (s : State) (n : Nat) : (s.passToken n).pwrLink = s.pwrLink := rfl
@[simp] theorem passToken_pwrPort (s : State) (n : Nat) : (s.passToken n).pwrPort = s.pwrPort := rfl
@[simp] theorem passToken_pwrFrame (s : State) (n : Nat) : (s.passToken n).pwrFrame = s.pwrFrame := rfl
@[simp] theorem passToken_tlim (s : State) (n : Nat) : (s.passToken n).tlim = s.tlim := rfl
@[simp] theorem passToken_budget (s : State) (n : Nat) : (s.passToken n).budget = s.budget := rfl
@[simp] theorem passToken_mtrain (s : State) (n : Nat) : (s.passToken n).mtrain = s.mtrain := rfl
@[simp] theorem passToken_idlelat (s : State) (n : Nat) : (s.passToken n).idlelat = s.idlelat := rfl
@[simp] theorem passToken_a4 (s : State) (n : Nat) : (s.passToken n).a4 = s.a4 := rfl
@[simp] theorem passToken_a4Wake (s : State) (n : Nat) : (s.passToken n).a4Wake = s.a4Wake := rfl
@[simp] theorem passToken_bdie (s : State) (n : Nat) : (s.passToken n).bdie = s.bdie := rfl
@[simp] theorem passToken_cdie (s : State) (n : Nat) : (s.passToken n).cdie = s.cdie := rfl
@[simp] theorem passToken_memReady (s : State) (n : Nat) : (s.passToken n).memReady = s.memReady := rfl
@[simp] theorem passToken_ethUp (s : State) (n : Nat) : (s.passToken n).ethUp = s.ethUp := rfl
@[simp] theorem passToken_hostUp (s : State) (n : Nat) : (s.passToken n).hostUp = s.hostUp := rfl
@[simp] theorem passToken_retraining (s : State) (n : Nat) : (s.passToken n).retraining = s.retraining := rfl
@[simp] theorem passToken_retrainNext (s : State) (n : Nat) : (s.passToken n).retrainNext = s.retrainNext := rfl
@[simp] theorem passToken_retrainAt (s : State) (n : Nat) : (s.passToken n).retrainAt = s.retrainAt := rfl
@[simp] theorem passToken_links (s : State) (n : Nat) : (s.passToken n).links = s.links := rfl
@[simp] theorem passToken_eths (s : State) (n : Nat) : (s.passToken n).eths = s.eths := rfl
@[simp] theorem passToken_hostCtl (s : State) (n : Nat) : (s.passToken n).hostCtl = s.hostCtl := rfl
@[simp] theorem passToken_hostRead (s : State) (n : Nat) : (s.passToken n).hostRead = s.hostRead := rfl
@[simp] theorem passToken_secOp (s : State) (n : Nat) : (s.passToken n).secOp = s.secOp := rfl
@[simp] theorem passToken_secPend (s : State) (n : Nat) : (s.passToken n).secPend = s.secPend := rfl
@[simp] theorem passToken_slots (s : State) (n : Nat) : (s.passToken n).slots = s.slots := rfl
@[simp] theorem passToken_boot (s : State) (n : Nat) : (s.passToken n).boot = s.boot := rfl
@[simp] theorem passToken_string (s : State) (n : Nat) : (s.passToken n).string = s.string := rfl
@[simp] theorem passToken_strHead (s : State) (n : Nat) : (s.passToken n).strHead = s.strHead := rfl
@[simp] theorem passToken_strTail (s : State) (n : Nat) : (s.passToken n).strTail = s.strTail := rfl
@[simp] theorem passToken_strLost (s : State) (n : Nat) : (s.passToken n).strLost = s.strLost := rfl
@[simp] theorem passToken_strWait (s : State) (n : Nat) : (s.passToken n).strWait = s.strWait := rfl
@[simp] theorem passToken_samp (s : State) (n : Nat) : (s.passToken n).samp = s.samp := rfl
@[simp] theorem passToken_sampAt (s : State) (n : Nat) : (s.passToken n).sampAt = s.sampAt := rfl
@[simp] theorem passToken_cselSpindle (s : State) (n : Nat) : (s.passToken n).cselSpindle = s.cselSpindle := rfl
@[simp] theorem passToken_cselCtr (s : State) (n : Nat) : (s.passToken n).cselCtr = s.cselCtr := rfl
@[simp] theorem passToken_dbgHold (s : State) (n : Nat) : (s.passToken n).dbgHold = s.dbgHold := rfl

/-! ## setSkein -/

@[simp] theorem setSkein_tick (s : State) (sp slot : Nat) (k : Option Skein) : (s.setSkein sp slot k).tick = s.tick := rfl
@[simp] theorem setSkein_agenda (s : State) (sp slot : Nat) (k : Option Skein) : (s.setSkein sp slot k).agenda = s.agenda := rfl
@[simp] theorem setSkein_cur (s : State) (sp slot : Nat) (k : Option Skein) : (s.setSkein sp slot k).cur = s.cur := rfl
@[simp] theorem setSkein_opSeq (s : State) (sp slot : Nat) (k : Option Skein) : (s.setSkein sp slot k).opSeq = s.opSeq := rfl
@[simp] theorem setSkein_units (s : State) (sp slot : Nat) (k : Option Skein) : (s.setSkein sp slot k).units = s.units := rfl
@[simp] theorem setSkein_stepping (s : State) (sp slot : Nat) (k : Option Skein) : (s.setSkein sp slot k).stepping = s.stepping := rfl
@[simp] theorem setSkein_time (s : State) (sp slot : Nat) (k : Option Skein) : (s.setSkein sp slot k).time = s.time := rfl
@[simp] theorem setSkein_mem (s : State) (sp slot : Nat) (k : Option Skein) : (s.setSkein sp slot k).mem = s.mem := rfl
@[simp] theorem setSkein_remote (s : State) (sp slot : Nat) (k : Option Skein) : (s.setSkein sp slot k).remote = s.remote := rfl
@[simp] theorem setSkein_reqs (s : State) (sp slot : Nat) (k : Option Skein) : (s.setSkein sp slot k).reqs = s.reqs := rfl
@[simp] theorem setSkein_frames (s : State) (sp slot : Nat) (k : Option Skein) : (s.setSkein sp slot k).frames = s.frames := rfl
@[simp] theorem setSkein_dies (s : State) (sp slot : Nat) (k : Option Skein) : (s.setSkein sp slot k).dies = s.dies := rfl
@[simp] theorem setSkein_cores (s : State) (sp slot : Nat) (k : Option Skein) : (s.setSkein sp slot k).cores = s.cores := rfl
@[simp] theorem setSkein_fifos (s : State) (sp slot : Nat) (k : Option Skein) : (s.setSkein sp slot k).fifos = s.fifos := rfl
@[simp] theorem setSkein_launches (s : State) (sp slot : Nat) (k : Option Skein) : (s.setSkein sp slot k).launches = s.launches := rfl
@[simp] theorem setSkein_acceptCount (s : State) (sp slot : Nat) (k : Option Skein) : (s.setSkein sp slot k).acceptCount = s.acceptCount := rfl
@[simp] theorem setSkein_offers (s : State) (sp slot : Nat) (k : Option Skein) : (s.setSkein sp slot k).offers = s.offers := rfl
@[simp] theorem setSkein_dealPtr (s : State) (sp slot : Nat) (k : Option Skein) : (s.setSkein sp slot k).dealPtr = s.dealPtr := rfl
@[simp] theorem setSkein_rcbs (s : State) (sp slot : Nat) (k : Option Skein) : (s.setSkein sp slot k).rcbs = s.rcbs := rfl
@[simp] theorem setSkein_affw (s : State) (sp slot : Nat) (k : Option Skein) : (s.setSkein sp slot k).affw = s.affw := rfl
@[simp] theorem setSkein_frsel (s : State) (sp slot : Nat) (k : Option Skein) : (s.setSkein sp slot k).frsel = s.frsel := rfl
@[simp] theorem setSkein_mcStack (s : State) (sp slot : Nat) (k : Option Skein) : (s.setSkein sp slot k).mcStack = s.mcStack := rfl
@[simp] theorem setSkein_mcRange (s : State) (sp slot : Nat) (k : Option Skein) : (s.setSkein sp slot k).mcRange = s.mcRange := rfl
@[simp] theorem setSkein_assel (s : State) (sp slot : Nat) (k : Option Skein) : (s.setSkein sp slot k).assel = s.assel := rfl
@[simp] theorem setSkein_spaces (s : State) (sp slot : Nat) (k : Option Skein) : (s.setSkein sp slot k).spaces = s.spaces := rfl
@[simp] theorem setSkein_fq (s : State) (sp slot : Nat) (k : Option Skein) : (s.setSkein sp slot k).fq = s.fq := rfl
@[simp] theorem setSkein_fqHead (s : State) (sp slot : Nat) (k : Option Skein) : (s.setSkein sp slot k).fqHead = s.fqHead := rfl
@[simp] theorem setSkein_fqTail (s : State) (sp slot : Nat) (k : Option Skein) : (s.setSkein sp slot k).fqTail = s.fqTail := rfl
@[simp] theorem setSkein_fqWait (s : State) (sp slot : Nat) (k : Option Skein) : (s.setSkein sp slot k).fqWait = s.fqWait := rfl
@[simp] theorem setSkein_known (s : State) (sp slot : Nat) (k : Option Skein) : (s.setSkein sp slot k).known = s.known := rfl
@[simp] theorem setSkein_hotcfg (s : State) (sp slot : Nat) (k : Option Skein) : (s.setSkein sp slot k).hotcfg = s.hotcfg := rfl
@[simp] theorem setSkein_hot (s : State) (sp slot : Nat) (k : Option Skein) : (s.setSkein sp slot k).hot = s.hot := rfl
@[simp] theorem setSkein_hotAt (s : State) (sp slot : Nat) (k : Option Skein) : (s.setSkein sp slot k).hotAt = s.hotAt := rfl
@[simp] theorem setSkein_pkg (s : State) (sp slot : Nat) (k : Option Skein) : (s.setSkein sp slot k).pkg = s.pkg := rfl
@[simp] theorem setSkein_aselArray (s : State) (sp slot : Nat) (k : Option Skein) : (s.setSkein sp slot k).aselArray = s.aselArray := rfl
@[simp] theorem setSkein_aselSpindle (s : State) (sp slot : Nat) (k : Option Skein) : (s.setSkein sp slot k).aselSpindle = s.aselSpindle := rfl
@[simp] theorem setSkein_tbsel (s : State) (sp slot : Nat) (k : Option Skein) : (s.setSkein sp slot k).tbsel = s.tbsel := rfl
@[simp] theorem setSkein_tags (s : State) (sp slot : Nat) (k : Option Skein) : (s.setSkein sp slot k).tags = s.tags := rfl
@[simp] theorem setSkein_preScope (s : State) (sp slot : Nat) (k : Option Skein) : (s.setSkein sp slot k).preScope = s.preScope := rfl
@[simp] theorem setSkein_preSpindle (s : State) (sp slot : Nat) (k : Option Skein) : (s.setSkein sp slot k).preSpindle = s.preSpindle := rfl
@[simp] theorem setSkein_preSlot (s : State) (sp slot : Nat) (k : Option Skein) : (s.setSkein sp slot k).preSlot = s.preSlot := rfl
@[simp] theorem setSkein_pwrLink (s : State) (sp slot : Nat) (k : Option Skein) : (s.setSkein sp slot k).pwrLink = s.pwrLink := rfl
@[simp] theorem setSkein_pwrPort (s : State) (sp slot : Nat) (k : Option Skein) : (s.setSkein sp slot k).pwrPort = s.pwrPort := rfl
@[simp] theorem setSkein_pwrFrame (s : State) (sp slot : Nat) (k : Option Skein) : (s.setSkein sp slot k).pwrFrame = s.pwrFrame := rfl
@[simp] theorem setSkein_tlim (s : State) (sp slot : Nat) (k : Option Skein) : (s.setSkein sp slot k).tlim = s.tlim := rfl
@[simp] theorem setSkein_budget (s : State) (sp slot : Nat) (k : Option Skein) : (s.setSkein sp slot k).budget = s.budget := rfl
@[simp] theorem setSkein_mtrain (s : State) (sp slot : Nat) (k : Option Skein) : (s.setSkein sp slot k).mtrain = s.mtrain := rfl
@[simp] theorem setSkein_idlelat (s : State) (sp slot : Nat) (k : Option Skein) : (s.setSkein sp slot k).idlelat = s.idlelat := rfl
@[simp] theorem setSkein_a4 (s : State) (sp slot : Nat) (k : Option Skein) : (s.setSkein sp slot k).a4 = s.a4 := rfl
@[simp] theorem setSkein_a4Wake (s : State) (sp slot : Nat) (k : Option Skein) : (s.setSkein sp slot k).a4Wake = s.a4Wake := rfl
@[simp] theorem setSkein_bdie (s : State) (sp slot : Nat) (k : Option Skein) : (s.setSkein sp slot k).bdie = s.bdie := rfl
@[simp] theorem setSkein_cdie (s : State) (sp slot : Nat) (k : Option Skein) : (s.setSkein sp slot k).cdie = s.cdie := rfl
@[simp] theorem setSkein_memReady (s : State) (sp slot : Nat) (k : Option Skein) : (s.setSkein sp slot k).memReady = s.memReady := rfl
@[simp] theorem setSkein_ethUp (s : State) (sp slot : Nat) (k : Option Skein) : (s.setSkein sp slot k).ethUp = s.ethUp := rfl
@[simp] theorem setSkein_hostUp (s : State) (sp slot : Nat) (k : Option Skein) : (s.setSkein sp slot k).hostUp = s.hostUp := rfl
@[simp] theorem setSkein_retraining (s : State) (sp slot : Nat) (k : Option Skein) : (s.setSkein sp slot k).retraining = s.retraining := rfl
@[simp] theorem setSkein_retrainNext (s : State) (sp slot : Nat) (k : Option Skein) : (s.setSkein sp slot k).retrainNext = s.retrainNext := rfl
@[simp] theorem setSkein_retrainAt (s : State) (sp slot : Nat) (k : Option Skein) : (s.setSkein sp slot k).retrainAt = s.retrainAt := rfl
@[simp] theorem setSkein_links (s : State) (sp slot : Nat) (k : Option Skein) : (s.setSkein sp slot k).links = s.links := rfl
@[simp] theorem setSkein_eths (s : State) (sp slot : Nat) (k : Option Skein) : (s.setSkein sp slot k).eths = s.eths := rfl
@[simp] theorem setSkein_hostCtl (s : State) (sp slot : Nat) (k : Option Skein) : (s.setSkein sp slot k).hostCtl = s.hostCtl := rfl
@[simp] theorem setSkein_hostRead (s : State) (sp slot : Nat) (k : Option Skein) : (s.setSkein sp slot k).hostRead = s.hostRead := rfl
@[simp] theorem setSkein_secOp (s : State) (sp slot : Nat) (k : Option Skein) : (s.setSkein sp slot k).secOp = s.secOp := rfl
@[simp] theorem setSkein_secPend (s : State) (sp slot : Nat) (k : Option Skein) : (s.setSkein sp slot k).secPend = s.secPend := rfl
@[simp] theorem setSkein_slots (s : State) (sp slot : Nat) (k : Option Skein) : (s.setSkein sp slot k).slots = s.slots := rfl
@[simp] theorem setSkein_boot (s : State) (sp slot : Nat) (k : Option Skein) : (s.setSkein sp slot k).boot = s.boot := rfl
@[simp] theorem setSkein_string (s : State) (sp slot : Nat) (k : Option Skein) : (s.setSkein sp slot k).string = s.string := rfl
@[simp] theorem setSkein_strHead (s : State) (sp slot : Nat) (k : Option Skein) : (s.setSkein sp slot k).strHead = s.strHead := rfl
@[simp] theorem setSkein_strTail (s : State) (sp slot : Nat) (k : Option Skein) : (s.setSkein sp slot k).strTail = s.strTail := rfl
@[simp] theorem setSkein_strLost (s : State) (sp slot : Nat) (k : Option Skein) : (s.setSkein sp slot k).strLost = s.strLost := rfl
@[simp] theorem setSkein_strWait (s : State) (sp slot : Nat) (k : Option Skein) : (s.setSkein sp slot k).strWait = s.strWait := rfl
@[simp] theorem setSkein_samp (s : State) (sp slot : Nat) (k : Option Skein) : (s.setSkein sp slot k).samp = s.samp := rfl
@[simp] theorem setSkein_sampAt (s : State) (sp slot : Nat) (k : Option Skein) : (s.setSkein sp slot k).sampAt = s.sampAt := rfl
@[simp] theorem setSkein_cselSpindle (s : State) (sp slot : Nat) (k : Option Skein) : (s.setSkein sp slot k).cselSpindle = s.cselSpindle := rfl
@[simp] theorem setSkein_cselCtr (s : State) (sp slot : Nat) (k : Option Skein) : (s.setSkein sp slot k).cselCtr = s.cselCtr := rfl
@[simp] theorem setSkein_dbgHold (s : State) (sp slot : Nat) (k : Option Skein) : (s.setSkein sp slot k).dbgHold = s.dbgHold := rfl

/-! ## modSkein -/

@[simp] theorem modSkein_tick (s : State) (sp slot : Nat) (g : Skein → Skein) : (s.modSkein sp slot g).tick = s.tick := by unfold State.modSkein; split <;> rfl
@[simp] theorem modSkein_agenda (s : State) (sp slot : Nat) (g : Skein → Skein) : (s.modSkein sp slot g).agenda = s.agenda := by unfold State.modSkein; split <;> rfl
@[simp] theorem modSkein_cur (s : State) (sp slot : Nat) (g : Skein → Skein) : (s.modSkein sp slot g).cur = s.cur := by unfold State.modSkein; split <;> rfl
@[simp] theorem modSkein_opSeq (s : State) (sp slot : Nat) (g : Skein → Skein) : (s.modSkein sp slot g).opSeq = s.opSeq := by unfold State.modSkein; split <;> rfl
@[simp] theorem modSkein_units (s : State) (sp slot : Nat) (g : Skein → Skein) : (s.modSkein sp slot g).units = s.units := by unfold State.modSkein; split <;> rfl
@[simp] theorem modSkein_stepping (s : State) (sp slot : Nat) (g : Skein → Skein) : (s.modSkein sp slot g).stepping = s.stepping := by unfold State.modSkein; split <;> rfl
@[simp] theorem modSkein_time (s : State) (sp slot : Nat) (g : Skein → Skein) : (s.modSkein sp slot g).time = s.time := by unfold State.modSkein; split <;> rfl
@[simp] theorem modSkein_mem (s : State) (sp slot : Nat) (g : Skein → Skein) : (s.modSkein sp slot g).mem = s.mem := by unfold State.modSkein; split <;> rfl
@[simp] theorem modSkein_remote (s : State) (sp slot : Nat) (g : Skein → Skein) : (s.modSkein sp slot g).remote = s.remote := by unfold State.modSkein; split <;> rfl
@[simp] theorem modSkein_reqs (s : State) (sp slot : Nat) (g : Skein → Skein) : (s.modSkein sp slot g).reqs = s.reqs := by unfold State.modSkein; split <;> rfl
@[simp] theorem modSkein_frames (s : State) (sp slot : Nat) (g : Skein → Skein) : (s.modSkein sp slot g).frames = s.frames := by unfold State.modSkein; split <;> rfl
@[simp] theorem modSkein_dies (s : State) (sp slot : Nat) (g : Skein → Skein) : (s.modSkein sp slot g).dies = s.dies := by unfold State.modSkein; split <;> rfl
@[simp] theorem modSkein_cores (s : State) (sp slot : Nat) (g : Skein → Skein) : (s.modSkein sp slot g).cores = s.cores := by unfold State.modSkein; split <;> rfl
@[simp] theorem modSkein_fifos (s : State) (sp slot : Nat) (g : Skein → Skein) : (s.modSkein sp slot g).fifos = s.fifos := by unfold State.modSkein; split <;> rfl
@[simp] theorem modSkein_launches (s : State) (sp slot : Nat) (g : Skein → Skein) : (s.modSkein sp slot g).launches = s.launches := by unfold State.modSkein; split <;> rfl
@[simp] theorem modSkein_acceptCount (s : State) (sp slot : Nat) (g : Skein → Skein) : (s.modSkein sp slot g).acceptCount = s.acceptCount := by unfold State.modSkein; split <;> rfl
@[simp] theorem modSkein_offers (s : State) (sp slot : Nat) (g : Skein → Skein) : (s.modSkein sp slot g).offers = s.offers := by unfold State.modSkein; split <;> rfl
@[simp] theorem modSkein_dealPtr (s : State) (sp slot : Nat) (g : Skein → Skein) : (s.modSkein sp slot g).dealPtr = s.dealPtr := by unfold State.modSkein; split <;> rfl
@[simp] theorem modSkein_rcbs (s : State) (sp slot : Nat) (g : Skein → Skein) : (s.modSkein sp slot g).rcbs = s.rcbs := by unfold State.modSkein; split <;> rfl
@[simp] theorem modSkein_affw (s : State) (sp slot : Nat) (g : Skein → Skein) : (s.modSkein sp slot g).affw = s.affw := by unfold State.modSkein; split <;> rfl
@[simp] theorem modSkein_frsel (s : State) (sp slot : Nat) (g : Skein → Skein) : (s.modSkein sp slot g).frsel = s.frsel := by unfold State.modSkein; split <;> rfl
@[simp] theorem modSkein_mcStack (s : State) (sp slot : Nat) (g : Skein → Skein) : (s.modSkein sp slot g).mcStack = s.mcStack := by unfold State.modSkein; split <;> rfl
@[simp] theorem modSkein_mcRange (s : State) (sp slot : Nat) (g : Skein → Skein) : (s.modSkein sp slot g).mcRange = s.mcRange := by unfold State.modSkein; split <;> rfl
@[simp] theorem modSkein_assel (s : State) (sp slot : Nat) (g : Skein → Skein) : (s.modSkein sp slot g).assel = s.assel := by unfold State.modSkein; split <;> rfl
@[simp] theorem modSkein_spaces (s : State) (sp slot : Nat) (g : Skein → Skein) : (s.modSkein sp slot g).spaces = s.spaces := by unfold State.modSkein; split <;> rfl
@[simp] theorem modSkein_fq (s : State) (sp slot : Nat) (g : Skein → Skein) : (s.modSkein sp slot g).fq = s.fq := by unfold State.modSkein; split <;> rfl
@[simp] theorem modSkein_fqHead (s : State) (sp slot : Nat) (g : Skein → Skein) : (s.modSkein sp slot g).fqHead = s.fqHead := by unfold State.modSkein; split <;> rfl
@[simp] theorem modSkein_fqTail (s : State) (sp slot : Nat) (g : Skein → Skein) : (s.modSkein sp slot g).fqTail = s.fqTail := by unfold State.modSkein; split <;> rfl
@[simp] theorem modSkein_fqWait (s : State) (sp slot : Nat) (g : Skein → Skein) : (s.modSkein sp slot g).fqWait = s.fqWait := by unfold State.modSkein; split <;> rfl
@[simp] theorem modSkein_known (s : State) (sp slot : Nat) (g : Skein → Skein) : (s.modSkein sp slot g).known = s.known := by unfold State.modSkein; split <;> rfl
@[simp] theorem modSkein_hotcfg (s : State) (sp slot : Nat) (g : Skein → Skein) : (s.modSkein sp slot g).hotcfg = s.hotcfg := by unfold State.modSkein; split <;> rfl
@[simp] theorem modSkein_hot (s : State) (sp slot : Nat) (g : Skein → Skein) : (s.modSkein sp slot g).hot = s.hot := by unfold State.modSkein; split <;> rfl
@[simp] theorem modSkein_hotAt (s : State) (sp slot : Nat) (g : Skein → Skein) : (s.modSkein sp slot g).hotAt = s.hotAt := by unfold State.modSkein; split <;> rfl
@[simp] theorem modSkein_pkg (s : State) (sp slot : Nat) (g : Skein → Skein) : (s.modSkein sp slot g).pkg = s.pkg := by unfold State.modSkein; split <;> rfl
@[simp] theorem modSkein_aselArray (s : State) (sp slot : Nat) (g : Skein → Skein) : (s.modSkein sp slot g).aselArray = s.aselArray := by unfold State.modSkein; split <;> rfl
@[simp] theorem modSkein_aselSpindle (s : State) (sp slot : Nat) (g : Skein → Skein) : (s.modSkein sp slot g).aselSpindle = s.aselSpindle := by unfold State.modSkein; split <;> rfl
@[simp] theorem modSkein_tbsel (s : State) (sp slot : Nat) (g : Skein → Skein) : (s.modSkein sp slot g).tbsel = s.tbsel := by unfold State.modSkein; split <;> rfl
@[simp] theorem modSkein_tags (s : State) (sp slot : Nat) (g : Skein → Skein) : (s.modSkein sp slot g).tags = s.tags := by unfold State.modSkein; split <;> rfl
@[simp] theorem modSkein_preScope (s : State) (sp slot : Nat) (g : Skein → Skein) : (s.modSkein sp slot g).preScope = s.preScope := by unfold State.modSkein; split <;> rfl
@[simp] theorem modSkein_preSpindle (s : State) (sp slot : Nat) (g : Skein → Skein) : (s.modSkein sp slot g).preSpindle = s.preSpindle := by unfold State.modSkein; split <;> rfl
@[simp] theorem modSkein_preSlot (s : State) (sp slot : Nat) (g : Skein → Skein) : (s.modSkein sp slot g).preSlot = s.preSlot := by unfold State.modSkein; split <;> rfl
@[simp] theorem modSkein_pwrLink (s : State) (sp slot : Nat) (g : Skein → Skein) : (s.modSkein sp slot g).pwrLink = s.pwrLink := by unfold State.modSkein; split <;> rfl
@[simp] theorem modSkein_pwrPort (s : State) (sp slot : Nat) (g : Skein → Skein) : (s.modSkein sp slot g).pwrPort = s.pwrPort := by unfold State.modSkein; split <;> rfl
@[simp] theorem modSkein_pwrFrame (s : State) (sp slot : Nat) (g : Skein → Skein) : (s.modSkein sp slot g).pwrFrame = s.pwrFrame := by unfold State.modSkein; split <;> rfl
@[simp] theorem modSkein_tlim (s : State) (sp slot : Nat) (g : Skein → Skein) : (s.modSkein sp slot g).tlim = s.tlim := by unfold State.modSkein; split <;> rfl
@[simp] theorem modSkein_budget (s : State) (sp slot : Nat) (g : Skein → Skein) : (s.modSkein sp slot g).budget = s.budget := by unfold State.modSkein; split <;> rfl
@[simp] theorem modSkein_mtrain (s : State) (sp slot : Nat) (g : Skein → Skein) : (s.modSkein sp slot g).mtrain = s.mtrain := by unfold State.modSkein; split <;> rfl
@[simp] theorem modSkein_idlelat (s : State) (sp slot : Nat) (g : Skein → Skein) : (s.modSkein sp slot g).idlelat = s.idlelat := by unfold State.modSkein; split <;> rfl
@[simp] theorem modSkein_a4 (s : State) (sp slot : Nat) (g : Skein → Skein) : (s.modSkein sp slot g).a4 = s.a4 := by unfold State.modSkein; split <;> rfl
@[simp] theorem modSkein_a4Wake (s : State) (sp slot : Nat) (g : Skein → Skein) : (s.modSkein sp slot g).a4Wake = s.a4Wake := by unfold State.modSkein; split <;> rfl
@[simp] theorem modSkein_bdie (s : State) (sp slot : Nat) (g : Skein → Skein) : (s.modSkein sp slot g).bdie = s.bdie := by unfold State.modSkein; split <;> rfl
@[simp] theorem modSkein_cdie (s : State) (sp slot : Nat) (g : Skein → Skein) : (s.modSkein sp slot g).cdie = s.cdie := by unfold State.modSkein; split <;> rfl
@[simp] theorem modSkein_memReady (s : State) (sp slot : Nat) (g : Skein → Skein) : (s.modSkein sp slot g).memReady = s.memReady := by unfold State.modSkein; split <;> rfl
@[simp] theorem modSkein_ethUp (s : State) (sp slot : Nat) (g : Skein → Skein) : (s.modSkein sp slot g).ethUp = s.ethUp := by unfold State.modSkein; split <;> rfl
@[simp] theorem modSkein_hostUp (s : State) (sp slot : Nat) (g : Skein → Skein) : (s.modSkein sp slot g).hostUp = s.hostUp := by unfold State.modSkein; split <;> rfl
@[simp] theorem modSkein_retraining (s : State) (sp slot : Nat) (g : Skein → Skein) : (s.modSkein sp slot g).retraining = s.retraining := by unfold State.modSkein; split <;> rfl
@[simp] theorem modSkein_retrainNext (s : State) (sp slot : Nat) (g : Skein → Skein) : (s.modSkein sp slot g).retrainNext = s.retrainNext := by unfold State.modSkein; split <;> rfl
@[simp] theorem modSkein_retrainAt (s : State) (sp slot : Nat) (g : Skein → Skein) : (s.modSkein sp slot g).retrainAt = s.retrainAt := by unfold State.modSkein; split <;> rfl
@[simp] theorem modSkein_links (s : State) (sp slot : Nat) (g : Skein → Skein) : (s.modSkein sp slot g).links = s.links := by unfold State.modSkein; split <;> rfl
@[simp] theorem modSkein_eths (s : State) (sp slot : Nat) (g : Skein → Skein) : (s.modSkein sp slot g).eths = s.eths := by unfold State.modSkein; split <;> rfl
@[simp] theorem modSkein_hostCtl (s : State) (sp slot : Nat) (g : Skein → Skein) : (s.modSkein sp slot g).hostCtl = s.hostCtl := by unfold State.modSkein; split <;> rfl
@[simp] theorem modSkein_hostRead (s : State) (sp slot : Nat) (g : Skein → Skein) : (s.modSkein sp slot g).hostRead = s.hostRead := by unfold State.modSkein; split <;> rfl
@[simp] theorem modSkein_secOp (s : State) (sp slot : Nat) (g : Skein → Skein) : (s.modSkein sp slot g).secOp = s.secOp := by unfold State.modSkein; split <;> rfl
@[simp] theorem modSkein_secPend (s : State) (sp slot : Nat) (g : Skein → Skein) : (s.modSkein sp slot g).secPend = s.secPend := by unfold State.modSkein; split <;> rfl
@[simp] theorem modSkein_slots (s : State) (sp slot : Nat) (g : Skein → Skein) : (s.modSkein sp slot g).slots = s.slots := by unfold State.modSkein; split <;> rfl
@[simp] theorem modSkein_boot (s : State) (sp slot : Nat) (g : Skein → Skein) : (s.modSkein sp slot g).boot = s.boot := by unfold State.modSkein; split <;> rfl
@[simp] theorem modSkein_string (s : State) (sp slot : Nat) (g : Skein → Skein) : (s.modSkein sp slot g).string = s.string := by unfold State.modSkein; split <;> rfl
@[simp] theorem modSkein_strHead (s : State) (sp slot : Nat) (g : Skein → Skein) : (s.modSkein sp slot g).strHead = s.strHead := by unfold State.modSkein; split <;> rfl
@[simp] theorem modSkein_strTail (s : State) (sp slot : Nat) (g : Skein → Skein) : (s.modSkein sp slot g).strTail = s.strTail := by unfold State.modSkein; split <;> rfl
@[simp] theorem modSkein_strLost (s : State) (sp slot : Nat) (g : Skein → Skein) : (s.modSkein sp slot g).strLost = s.strLost := by unfold State.modSkein; split <;> rfl
@[simp] theorem modSkein_strWait (s : State) (sp slot : Nat) (g : Skein → Skein) : (s.modSkein sp slot g).strWait = s.strWait := by unfold State.modSkein; split <;> rfl
@[simp] theorem modSkein_samp (s : State) (sp slot : Nat) (g : Skein → Skein) : (s.modSkein sp slot g).samp = s.samp := by unfold State.modSkein; split <;> rfl
@[simp] theorem modSkein_sampAt (s : State) (sp slot : Nat) (g : Skein → Skein) : (s.modSkein sp slot g).sampAt = s.sampAt := by unfold State.modSkein; split <;> rfl
@[simp] theorem modSkein_cselSpindle (s : State) (sp slot : Nat) (g : Skein → Skein) : (s.modSkein sp slot g).cselSpindle = s.cselSpindle := by unfold State.modSkein; split <;> rfl
@[simp] theorem modSkein_cselCtr (s : State) (sp slot : Nat) (g : Skein → Skein) : (s.modSkein sp slot g).cselCtr = s.cselCtr := by unfold State.modSkein; split <;> rfl
@[simp] theorem modSkein_dbgHold (s : State) (sp slot : Nat) (g : Skein → Skein) : (s.modSkein sp slot g).dbgHold = s.dbgHold := by unfold State.modSkein; split <;> rfl

/-! ## modPly -/

@[simp] theorem modPly_tick (s : State) (sp slot p : Nat) (g : Ply → Ply) : (s.modPly sp slot p g).tick = s.tick := modSkein_tick ..
@[simp] theorem modPly_agenda (s : State) (sp slot p : Nat) (g : Ply → Ply) : (s.modPly sp slot p g).agenda = s.agenda := modSkein_agenda ..
@[simp] theorem modPly_cur (s : State) (sp slot p : Nat) (g : Ply → Ply) : (s.modPly sp slot p g).cur = s.cur := modSkein_cur ..
@[simp] theorem modPly_opSeq (s : State) (sp slot p : Nat) (g : Ply → Ply) : (s.modPly sp slot p g).opSeq = s.opSeq := modSkein_opSeq ..
@[simp] theorem modPly_units (s : State) (sp slot p : Nat) (g : Ply → Ply) : (s.modPly sp slot p g).units = s.units := modSkein_units ..
@[simp] theorem modPly_stepping (s : State) (sp slot p : Nat) (g : Ply → Ply) : (s.modPly sp slot p g).stepping = s.stepping := modSkein_stepping ..
@[simp] theorem modPly_time (s : State) (sp slot p : Nat) (g : Ply → Ply) : (s.modPly sp slot p g).time = s.time := modSkein_time ..
@[simp] theorem modPly_mem (s : State) (sp slot p : Nat) (g : Ply → Ply) : (s.modPly sp slot p g).mem = s.mem := modSkein_mem ..
@[simp] theorem modPly_remote (s : State) (sp slot p : Nat) (g : Ply → Ply) : (s.modPly sp slot p g).remote = s.remote := modSkein_remote ..
@[simp] theorem modPly_reqs (s : State) (sp slot p : Nat) (g : Ply → Ply) : (s.modPly sp slot p g).reqs = s.reqs := modSkein_reqs ..
@[simp] theorem modPly_frames (s : State) (sp slot p : Nat) (g : Ply → Ply) : (s.modPly sp slot p g).frames = s.frames := modSkein_frames ..
@[simp] theorem modPly_dies (s : State) (sp slot p : Nat) (g : Ply → Ply) : (s.modPly sp slot p g).dies = s.dies := modSkein_dies ..
@[simp] theorem modPly_cores (s : State) (sp slot p : Nat) (g : Ply → Ply) : (s.modPly sp slot p g).cores = s.cores := modSkein_cores ..
@[simp] theorem modPly_fifos (s : State) (sp slot p : Nat) (g : Ply → Ply) : (s.modPly sp slot p g).fifos = s.fifos := modSkein_fifos ..
@[simp] theorem modPly_launches (s : State) (sp slot p : Nat) (g : Ply → Ply) : (s.modPly sp slot p g).launches = s.launches := modSkein_launches ..
@[simp] theorem modPly_acceptCount (s : State) (sp slot p : Nat) (g : Ply → Ply) : (s.modPly sp slot p g).acceptCount = s.acceptCount := modSkein_acceptCount ..
@[simp] theorem modPly_offers (s : State) (sp slot p : Nat) (g : Ply → Ply) : (s.modPly sp slot p g).offers = s.offers := modSkein_offers ..
@[simp] theorem modPly_dealPtr (s : State) (sp slot p : Nat) (g : Ply → Ply) : (s.modPly sp slot p g).dealPtr = s.dealPtr := modSkein_dealPtr ..
@[simp] theorem modPly_rcbs (s : State) (sp slot p : Nat) (g : Ply → Ply) : (s.modPly sp slot p g).rcbs = s.rcbs := modSkein_rcbs ..
@[simp] theorem modPly_affw (s : State) (sp slot p : Nat) (g : Ply → Ply) : (s.modPly sp slot p g).affw = s.affw := modSkein_affw ..
@[simp] theorem modPly_frsel (s : State) (sp slot p : Nat) (g : Ply → Ply) : (s.modPly sp slot p g).frsel = s.frsel := modSkein_frsel ..
@[simp] theorem modPly_mcStack (s : State) (sp slot p : Nat) (g : Ply → Ply) : (s.modPly sp slot p g).mcStack = s.mcStack := modSkein_mcStack ..
@[simp] theorem modPly_mcRange (s : State) (sp slot p : Nat) (g : Ply → Ply) : (s.modPly sp slot p g).mcRange = s.mcRange := modSkein_mcRange ..
@[simp] theorem modPly_assel (s : State) (sp slot p : Nat) (g : Ply → Ply) : (s.modPly sp slot p g).assel = s.assel := modSkein_assel ..
@[simp] theorem modPly_spaces (s : State) (sp slot p : Nat) (g : Ply → Ply) : (s.modPly sp slot p g).spaces = s.spaces := modSkein_spaces ..
@[simp] theorem modPly_fq (s : State) (sp slot p : Nat) (g : Ply → Ply) : (s.modPly sp slot p g).fq = s.fq := modSkein_fq ..
@[simp] theorem modPly_fqHead (s : State) (sp slot p : Nat) (g : Ply → Ply) : (s.modPly sp slot p g).fqHead = s.fqHead := modSkein_fqHead ..
@[simp] theorem modPly_fqTail (s : State) (sp slot p : Nat) (g : Ply → Ply) : (s.modPly sp slot p g).fqTail = s.fqTail := modSkein_fqTail ..
@[simp] theorem modPly_fqWait (s : State) (sp slot p : Nat) (g : Ply → Ply) : (s.modPly sp slot p g).fqWait = s.fqWait := modSkein_fqWait ..
@[simp] theorem modPly_known (s : State) (sp slot p : Nat) (g : Ply → Ply) : (s.modPly sp slot p g).known = s.known := modSkein_known ..
@[simp] theorem modPly_hotcfg (s : State) (sp slot p : Nat) (g : Ply → Ply) : (s.modPly sp slot p g).hotcfg = s.hotcfg := modSkein_hotcfg ..
@[simp] theorem modPly_hot (s : State) (sp slot p : Nat) (g : Ply → Ply) : (s.modPly sp slot p g).hot = s.hot := modSkein_hot ..
@[simp] theorem modPly_hotAt (s : State) (sp slot p : Nat) (g : Ply → Ply) : (s.modPly sp slot p g).hotAt = s.hotAt := modSkein_hotAt ..
@[simp] theorem modPly_pkg (s : State) (sp slot p : Nat) (g : Ply → Ply) : (s.modPly sp slot p g).pkg = s.pkg := modSkein_pkg ..
@[simp] theorem modPly_aselArray (s : State) (sp slot p : Nat) (g : Ply → Ply) : (s.modPly sp slot p g).aselArray = s.aselArray := modSkein_aselArray ..
@[simp] theorem modPly_aselSpindle (s : State) (sp slot p : Nat) (g : Ply → Ply) : (s.modPly sp slot p g).aselSpindle = s.aselSpindle := modSkein_aselSpindle ..
@[simp] theorem modPly_tbsel (s : State) (sp slot p : Nat) (g : Ply → Ply) : (s.modPly sp slot p g).tbsel = s.tbsel := modSkein_tbsel ..
@[simp] theorem modPly_tags (s : State) (sp slot p : Nat) (g : Ply → Ply) : (s.modPly sp slot p g).tags = s.tags := modSkein_tags ..
@[simp] theorem modPly_preScope (s : State) (sp slot p : Nat) (g : Ply → Ply) : (s.modPly sp slot p g).preScope = s.preScope := modSkein_preScope ..
@[simp] theorem modPly_preSpindle (s : State) (sp slot p : Nat) (g : Ply → Ply) : (s.modPly sp slot p g).preSpindle = s.preSpindle := modSkein_preSpindle ..
@[simp] theorem modPly_preSlot (s : State) (sp slot p : Nat) (g : Ply → Ply) : (s.modPly sp slot p g).preSlot = s.preSlot := modSkein_preSlot ..
@[simp] theorem modPly_pwrLink (s : State) (sp slot p : Nat) (g : Ply → Ply) : (s.modPly sp slot p g).pwrLink = s.pwrLink := modSkein_pwrLink ..
@[simp] theorem modPly_pwrPort (s : State) (sp slot p : Nat) (g : Ply → Ply) : (s.modPly sp slot p g).pwrPort = s.pwrPort := modSkein_pwrPort ..
@[simp] theorem modPly_pwrFrame (s : State) (sp slot p : Nat) (g : Ply → Ply) : (s.modPly sp slot p g).pwrFrame = s.pwrFrame := modSkein_pwrFrame ..
@[simp] theorem modPly_tlim (s : State) (sp slot p : Nat) (g : Ply → Ply) : (s.modPly sp slot p g).tlim = s.tlim := modSkein_tlim ..
@[simp] theorem modPly_budget (s : State) (sp slot p : Nat) (g : Ply → Ply) : (s.modPly sp slot p g).budget = s.budget := modSkein_budget ..
@[simp] theorem modPly_mtrain (s : State) (sp slot p : Nat) (g : Ply → Ply) : (s.modPly sp slot p g).mtrain = s.mtrain := modSkein_mtrain ..
@[simp] theorem modPly_idlelat (s : State) (sp slot p : Nat) (g : Ply → Ply) : (s.modPly sp slot p g).idlelat = s.idlelat := modSkein_idlelat ..
@[simp] theorem modPly_a4 (s : State) (sp slot p : Nat) (g : Ply → Ply) : (s.modPly sp slot p g).a4 = s.a4 := modSkein_a4 ..
@[simp] theorem modPly_a4Wake (s : State) (sp slot p : Nat) (g : Ply → Ply) : (s.modPly sp slot p g).a4Wake = s.a4Wake := modSkein_a4Wake ..
@[simp] theorem modPly_bdie (s : State) (sp slot p : Nat) (g : Ply → Ply) : (s.modPly sp slot p g).bdie = s.bdie := modSkein_bdie ..
@[simp] theorem modPly_cdie (s : State) (sp slot p : Nat) (g : Ply → Ply) : (s.modPly sp slot p g).cdie = s.cdie := modSkein_cdie ..
@[simp] theorem modPly_memReady (s : State) (sp slot p : Nat) (g : Ply → Ply) : (s.modPly sp slot p g).memReady = s.memReady := modSkein_memReady ..
@[simp] theorem modPly_ethUp (s : State) (sp slot p : Nat) (g : Ply → Ply) : (s.modPly sp slot p g).ethUp = s.ethUp := modSkein_ethUp ..
@[simp] theorem modPly_hostUp (s : State) (sp slot p : Nat) (g : Ply → Ply) : (s.modPly sp slot p g).hostUp = s.hostUp := modSkein_hostUp ..
@[simp] theorem modPly_retraining (s : State) (sp slot p : Nat) (g : Ply → Ply) : (s.modPly sp slot p g).retraining = s.retraining := modSkein_retraining ..
@[simp] theorem modPly_retrainNext (s : State) (sp slot p : Nat) (g : Ply → Ply) : (s.modPly sp slot p g).retrainNext = s.retrainNext := modSkein_retrainNext ..
@[simp] theorem modPly_retrainAt (s : State) (sp slot p : Nat) (g : Ply → Ply) : (s.modPly sp slot p g).retrainAt = s.retrainAt := modSkein_retrainAt ..
@[simp] theorem modPly_links (s : State) (sp slot p : Nat) (g : Ply → Ply) : (s.modPly sp slot p g).links = s.links := modSkein_links ..
@[simp] theorem modPly_eths (s : State) (sp slot p : Nat) (g : Ply → Ply) : (s.modPly sp slot p g).eths = s.eths := modSkein_eths ..
@[simp] theorem modPly_hostCtl (s : State) (sp slot p : Nat) (g : Ply → Ply) : (s.modPly sp slot p g).hostCtl = s.hostCtl := modSkein_hostCtl ..
@[simp] theorem modPly_hostRead (s : State) (sp slot p : Nat) (g : Ply → Ply) : (s.modPly sp slot p g).hostRead = s.hostRead := modSkein_hostRead ..
@[simp] theorem modPly_secOp (s : State) (sp slot p : Nat) (g : Ply → Ply) : (s.modPly sp slot p g).secOp = s.secOp := modSkein_secOp ..
@[simp] theorem modPly_secPend (s : State) (sp slot p : Nat) (g : Ply → Ply) : (s.modPly sp slot p g).secPend = s.secPend := modSkein_secPend ..
@[simp] theorem modPly_slots (s : State) (sp slot p : Nat) (g : Ply → Ply) : (s.modPly sp slot p g).slots = s.slots := modSkein_slots ..
@[simp] theorem modPly_boot (s : State) (sp slot p : Nat) (g : Ply → Ply) : (s.modPly sp slot p g).boot = s.boot := modSkein_boot ..
@[simp] theorem modPly_string (s : State) (sp slot p : Nat) (g : Ply → Ply) : (s.modPly sp slot p g).string = s.string := modSkein_string ..
@[simp] theorem modPly_strHead (s : State) (sp slot p : Nat) (g : Ply → Ply) : (s.modPly sp slot p g).strHead = s.strHead := modSkein_strHead ..
@[simp] theorem modPly_strTail (s : State) (sp slot p : Nat) (g : Ply → Ply) : (s.modPly sp slot p g).strTail = s.strTail := modSkein_strTail ..
@[simp] theorem modPly_strLost (s : State) (sp slot p : Nat) (g : Ply → Ply) : (s.modPly sp slot p g).strLost = s.strLost := modSkein_strLost ..
@[simp] theorem modPly_strWait (s : State) (sp slot p : Nat) (g : Ply → Ply) : (s.modPly sp slot p g).strWait = s.strWait := modSkein_strWait ..
@[simp] theorem modPly_samp (s : State) (sp slot p : Nat) (g : Ply → Ply) : (s.modPly sp slot p g).samp = s.samp := modSkein_samp ..
@[simp] theorem modPly_sampAt (s : State) (sp slot p : Nat) (g : Ply → Ply) : (s.modPly sp slot p g).sampAt = s.sampAt := modSkein_sampAt ..
@[simp] theorem modPly_cselSpindle (s : State) (sp slot p : Nat) (g : Ply → Ply) : (s.modPly sp slot p g).cselSpindle = s.cselSpindle := modSkein_cselSpindle ..
@[simp] theorem modPly_cselCtr (s : State) (sp slot p : Nat) (g : Ply → Ply) : (s.modPly sp slot p g).cselCtr = s.cselCtr := modSkein_cselCtr ..
@[simp] theorem modPly_dbgHold (s : State) (sp slot p : Nat) (g : Ply → Ply) : (s.modPly sp slot p g).dbgHold = s.dbgHold := modSkein_dbgHold ..

/-! ## modDist -/

@[simp] theorem modDist_tick (s : State) (sp slot : Nat) (g : Dist → Dist) : (s.modDist sp slot g).tick = s.tick := modSkein_tick ..
@[simp] theorem modDist_agenda (s : State) (sp slot : Nat) (g : Dist → Dist) : (s.modDist sp slot g).agenda = s.agenda := modSkein_agenda ..
@[simp] theorem modDist_cur (s : State) (sp slot : Nat) (g : Dist → Dist) : (s.modDist sp slot g).cur = s.cur := modSkein_cur ..
@[simp] theorem modDist_opSeq (s : State) (sp slot : Nat) (g : Dist → Dist) : (s.modDist sp slot g).opSeq = s.opSeq := modSkein_opSeq ..
@[simp] theorem modDist_units (s : State) (sp slot : Nat) (g : Dist → Dist) : (s.modDist sp slot g).units = s.units := modSkein_units ..
@[simp] theorem modDist_stepping (s : State) (sp slot : Nat) (g : Dist → Dist) : (s.modDist sp slot g).stepping = s.stepping := modSkein_stepping ..
@[simp] theorem modDist_time (s : State) (sp slot : Nat) (g : Dist → Dist) : (s.modDist sp slot g).time = s.time := modSkein_time ..
@[simp] theorem modDist_mem (s : State) (sp slot : Nat) (g : Dist → Dist) : (s.modDist sp slot g).mem = s.mem := modSkein_mem ..
@[simp] theorem modDist_remote (s : State) (sp slot : Nat) (g : Dist → Dist) : (s.modDist sp slot g).remote = s.remote := modSkein_remote ..
@[simp] theorem modDist_reqs (s : State) (sp slot : Nat) (g : Dist → Dist) : (s.modDist sp slot g).reqs = s.reqs := modSkein_reqs ..
@[simp] theorem modDist_frames (s : State) (sp slot : Nat) (g : Dist → Dist) : (s.modDist sp slot g).frames = s.frames := modSkein_frames ..
@[simp] theorem modDist_dies (s : State) (sp slot : Nat) (g : Dist → Dist) : (s.modDist sp slot g).dies = s.dies := modSkein_dies ..
@[simp] theorem modDist_cores (s : State) (sp slot : Nat) (g : Dist → Dist) : (s.modDist sp slot g).cores = s.cores := modSkein_cores ..
@[simp] theorem modDist_fifos (s : State) (sp slot : Nat) (g : Dist → Dist) : (s.modDist sp slot g).fifos = s.fifos := modSkein_fifos ..
@[simp] theorem modDist_launches (s : State) (sp slot : Nat) (g : Dist → Dist) : (s.modDist sp slot g).launches = s.launches := modSkein_launches ..
@[simp] theorem modDist_acceptCount (s : State) (sp slot : Nat) (g : Dist → Dist) : (s.modDist sp slot g).acceptCount = s.acceptCount := modSkein_acceptCount ..
@[simp] theorem modDist_offers (s : State) (sp slot : Nat) (g : Dist → Dist) : (s.modDist sp slot g).offers = s.offers := modSkein_offers ..
@[simp] theorem modDist_dealPtr (s : State) (sp slot : Nat) (g : Dist → Dist) : (s.modDist sp slot g).dealPtr = s.dealPtr := modSkein_dealPtr ..
@[simp] theorem modDist_rcbs (s : State) (sp slot : Nat) (g : Dist → Dist) : (s.modDist sp slot g).rcbs = s.rcbs := modSkein_rcbs ..
@[simp] theorem modDist_affw (s : State) (sp slot : Nat) (g : Dist → Dist) : (s.modDist sp slot g).affw = s.affw := modSkein_affw ..
@[simp] theorem modDist_frsel (s : State) (sp slot : Nat) (g : Dist → Dist) : (s.modDist sp slot g).frsel = s.frsel := modSkein_frsel ..
@[simp] theorem modDist_mcStack (s : State) (sp slot : Nat) (g : Dist → Dist) : (s.modDist sp slot g).mcStack = s.mcStack := modSkein_mcStack ..
@[simp] theorem modDist_mcRange (s : State) (sp slot : Nat) (g : Dist → Dist) : (s.modDist sp slot g).mcRange = s.mcRange := modSkein_mcRange ..
@[simp] theorem modDist_assel (s : State) (sp slot : Nat) (g : Dist → Dist) : (s.modDist sp slot g).assel = s.assel := modSkein_assel ..
@[simp] theorem modDist_spaces (s : State) (sp slot : Nat) (g : Dist → Dist) : (s.modDist sp slot g).spaces = s.spaces := modSkein_spaces ..
@[simp] theorem modDist_fq (s : State) (sp slot : Nat) (g : Dist → Dist) : (s.modDist sp slot g).fq = s.fq := modSkein_fq ..
@[simp] theorem modDist_fqHead (s : State) (sp slot : Nat) (g : Dist → Dist) : (s.modDist sp slot g).fqHead = s.fqHead := modSkein_fqHead ..
@[simp] theorem modDist_fqTail (s : State) (sp slot : Nat) (g : Dist → Dist) : (s.modDist sp slot g).fqTail = s.fqTail := modSkein_fqTail ..
@[simp] theorem modDist_fqWait (s : State) (sp slot : Nat) (g : Dist → Dist) : (s.modDist sp slot g).fqWait = s.fqWait := modSkein_fqWait ..
@[simp] theorem modDist_known (s : State) (sp slot : Nat) (g : Dist → Dist) : (s.modDist sp slot g).known = s.known := modSkein_known ..
@[simp] theorem modDist_hotcfg (s : State) (sp slot : Nat) (g : Dist → Dist) : (s.modDist sp slot g).hotcfg = s.hotcfg := modSkein_hotcfg ..
@[simp] theorem modDist_hot (s : State) (sp slot : Nat) (g : Dist → Dist) : (s.modDist sp slot g).hot = s.hot := modSkein_hot ..
@[simp] theorem modDist_hotAt (s : State) (sp slot : Nat) (g : Dist → Dist) : (s.modDist sp slot g).hotAt = s.hotAt := modSkein_hotAt ..
@[simp] theorem modDist_pkg (s : State) (sp slot : Nat) (g : Dist → Dist) : (s.modDist sp slot g).pkg = s.pkg := modSkein_pkg ..
@[simp] theorem modDist_aselArray (s : State) (sp slot : Nat) (g : Dist → Dist) : (s.modDist sp slot g).aselArray = s.aselArray := modSkein_aselArray ..
@[simp] theorem modDist_aselSpindle (s : State) (sp slot : Nat) (g : Dist → Dist) : (s.modDist sp slot g).aselSpindle = s.aselSpindle := modSkein_aselSpindle ..
@[simp] theorem modDist_tbsel (s : State) (sp slot : Nat) (g : Dist → Dist) : (s.modDist sp slot g).tbsel = s.tbsel := modSkein_tbsel ..
@[simp] theorem modDist_tags (s : State) (sp slot : Nat) (g : Dist → Dist) : (s.modDist sp slot g).tags = s.tags := modSkein_tags ..
@[simp] theorem modDist_preScope (s : State) (sp slot : Nat) (g : Dist → Dist) : (s.modDist sp slot g).preScope = s.preScope := modSkein_preScope ..
@[simp] theorem modDist_preSpindle (s : State) (sp slot : Nat) (g : Dist → Dist) : (s.modDist sp slot g).preSpindle = s.preSpindle := modSkein_preSpindle ..
@[simp] theorem modDist_preSlot (s : State) (sp slot : Nat) (g : Dist → Dist) : (s.modDist sp slot g).preSlot = s.preSlot := modSkein_preSlot ..
@[simp] theorem modDist_pwrLink (s : State) (sp slot : Nat) (g : Dist → Dist) : (s.modDist sp slot g).pwrLink = s.pwrLink := modSkein_pwrLink ..
@[simp] theorem modDist_pwrPort (s : State) (sp slot : Nat) (g : Dist → Dist) : (s.modDist sp slot g).pwrPort = s.pwrPort := modSkein_pwrPort ..
@[simp] theorem modDist_pwrFrame (s : State) (sp slot : Nat) (g : Dist → Dist) : (s.modDist sp slot g).pwrFrame = s.pwrFrame := modSkein_pwrFrame ..
@[simp] theorem modDist_tlim (s : State) (sp slot : Nat) (g : Dist → Dist) : (s.modDist sp slot g).tlim = s.tlim := modSkein_tlim ..
@[simp] theorem modDist_budget (s : State) (sp slot : Nat) (g : Dist → Dist) : (s.modDist sp slot g).budget = s.budget := modSkein_budget ..
@[simp] theorem modDist_mtrain (s : State) (sp slot : Nat) (g : Dist → Dist) : (s.modDist sp slot g).mtrain = s.mtrain := modSkein_mtrain ..
@[simp] theorem modDist_idlelat (s : State) (sp slot : Nat) (g : Dist → Dist) : (s.modDist sp slot g).idlelat = s.idlelat := modSkein_idlelat ..
@[simp] theorem modDist_a4 (s : State) (sp slot : Nat) (g : Dist → Dist) : (s.modDist sp slot g).a4 = s.a4 := modSkein_a4 ..
@[simp] theorem modDist_a4Wake (s : State) (sp slot : Nat) (g : Dist → Dist) : (s.modDist sp slot g).a4Wake = s.a4Wake := modSkein_a4Wake ..
@[simp] theorem modDist_bdie (s : State) (sp slot : Nat) (g : Dist → Dist) : (s.modDist sp slot g).bdie = s.bdie := modSkein_bdie ..
@[simp] theorem modDist_cdie (s : State) (sp slot : Nat) (g : Dist → Dist) : (s.modDist sp slot g).cdie = s.cdie := modSkein_cdie ..
@[simp] theorem modDist_memReady (s : State) (sp slot : Nat) (g : Dist → Dist) : (s.modDist sp slot g).memReady = s.memReady := modSkein_memReady ..
@[simp] theorem modDist_ethUp (s : State) (sp slot : Nat) (g : Dist → Dist) : (s.modDist sp slot g).ethUp = s.ethUp := modSkein_ethUp ..
@[simp] theorem modDist_hostUp (s : State) (sp slot : Nat) (g : Dist → Dist) : (s.modDist sp slot g).hostUp = s.hostUp := modSkein_hostUp ..
@[simp] theorem modDist_retraining (s : State) (sp slot : Nat) (g : Dist → Dist) : (s.modDist sp slot g).retraining = s.retraining := modSkein_retraining ..
@[simp] theorem modDist_retrainNext (s : State) (sp slot : Nat) (g : Dist → Dist) : (s.modDist sp slot g).retrainNext = s.retrainNext := modSkein_retrainNext ..
@[simp] theorem modDist_retrainAt (s : State) (sp slot : Nat) (g : Dist → Dist) : (s.modDist sp slot g).retrainAt = s.retrainAt := modSkein_retrainAt ..
@[simp] theorem modDist_links (s : State) (sp slot : Nat) (g : Dist → Dist) : (s.modDist sp slot g).links = s.links := modSkein_links ..
@[simp] theorem modDist_eths (s : State) (sp slot : Nat) (g : Dist → Dist) : (s.modDist sp slot g).eths = s.eths := modSkein_eths ..
@[simp] theorem modDist_hostCtl (s : State) (sp slot : Nat) (g : Dist → Dist) : (s.modDist sp slot g).hostCtl = s.hostCtl := modSkein_hostCtl ..
@[simp] theorem modDist_hostRead (s : State) (sp slot : Nat) (g : Dist → Dist) : (s.modDist sp slot g).hostRead = s.hostRead := modSkein_hostRead ..
@[simp] theorem modDist_secOp (s : State) (sp slot : Nat) (g : Dist → Dist) : (s.modDist sp slot g).secOp = s.secOp := modSkein_secOp ..
@[simp] theorem modDist_secPend (s : State) (sp slot : Nat) (g : Dist → Dist) : (s.modDist sp slot g).secPend = s.secPend := modSkein_secPend ..
@[simp] theorem modDist_slots (s : State) (sp slot : Nat) (g : Dist → Dist) : (s.modDist sp slot g).slots = s.slots := modSkein_slots ..
@[simp] theorem modDist_boot (s : State) (sp slot : Nat) (g : Dist → Dist) : (s.modDist sp slot g).boot = s.boot := modSkein_boot ..
@[simp] theorem modDist_string (s : State) (sp slot : Nat) (g : Dist → Dist) : (s.modDist sp slot g).string = s.string := modSkein_string ..
@[simp] theorem modDist_strHead (s : State) (sp slot : Nat) (g : Dist → Dist) : (s.modDist sp slot g).strHead = s.strHead := modSkein_strHead ..
@[simp] theorem modDist_strTail (s : State) (sp slot : Nat) (g : Dist → Dist) : (s.modDist sp slot g).strTail = s.strTail := modSkein_strTail ..
@[simp] theorem modDist_strLost (s : State) (sp slot : Nat) (g : Dist → Dist) : (s.modDist sp slot g).strLost = s.strLost := modSkein_strLost ..
@[simp] theorem modDist_strWait (s : State) (sp slot : Nat) (g : Dist → Dist) : (s.modDist sp slot g).strWait = s.strWait := modSkein_strWait ..
@[simp] theorem modDist_samp (s : State) (sp slot : Nat) (g : Dist → Dist) : (s.modDist sp slot g).samp = s.samp := modSkein_samp ..
@[simp] theorem modDist_sampAt (s : State) (sp slot : Nat) (g : Dist → Dist) : (s.modDist sp slot g).sampAt = s.sampAt := modSkein_sampAt ..
@[simp] theorem modDist_cselSpindle (s : State) (sp slot : Nat) (g : Dist → Dist) : (s.modDist sp slot g).cselSpindle = s.cselSpindle := modSkein_cselSpindle ..
@[simp] theorem modDist_cselCtr (s : State) (sp slot : Nat) (g : Dist → Dist) : (s.modDist sp slot g).cselCtr = s.cselCtr := modSkein_cselCtr ..
@[simp] theorem modDist_dbgHold (s : State) (sp slot : Nat) (g : Dist → Dist) : (s.modDist sp slot g).dbgHold = s.dbgHold := modSkein_dbgHold ..

/-! ## Parts as read after a write -/

@[simp] theorem setSpindle_spindle (s : State) (sp : Nat) (x : Spindle) : (s.setSpindle sp x).spindle sp = x := agetD_aput_same ..
theorem setSpindle_spindle_other (s : State) (sp sq : Nat) (x : Spindle) (h : sq ≠ sp) : (s.setSpindle sp x).spindle sq = s.spindle sq :=
  agetD_aput_other _ _ _ _ _ h
@[simp] theorem modSpindle_spindle (s : State) (sp : Nat) (g : Spindle → Spindle) : (s.modSpindle sp g).spindle sp = g (s.spindle sp) :=
  agetD_aput_same ..
theorem modSpindle_spindle_other (s : State) (sp sq : Nat) (g : Spindle → Spindle) (h : sq ≠ sp) :
    (s.modSpindle sp g).spindle sq = s.spindle sq := agetD_aput_other _ _ _ _ _ h
@[simp] theorem setFrame_frame (s : State) (n : Nat) (x : Frame) : (s.setFrame n x).frame n = x := agetD_aput_same ..
@[simp] theorem modFrame_frame (s : State) (n : Nat) (g : Frame → Frame) : (s.modFrame n g).frame n = g (s.frame n) := agetD_aput_same ..
theorem modFrame_frame_other (s : State) (n m : Nat) (g : Frame → Frame) (h : m ≠ n) : (s.modFrame n g).frame m = s.frame m :=
  agetD_aput_other _ _ _ _ _ h
@[simp] theorem setDie_die (s : State) (n : Nat) (x : Die) : (s.setDie n x).die n = x := agetD_aput_same ..
@[simp] theorem modDie_die (s : State) (n : Nat) (g : Die → Die) : (s.modDie n g).die n = g (s.die n) := agetD_aput_same ..
@[simp] theorem setCore_core (s : State) (n : Nat) (x : SysCore) : (s.setCore n x).core n = x := agetD_aput_same ..
@[simp] theorem modCore_core (s : State) (n : Nat) (g : SysCore → SysCore) : (s.modCore n g).core n = g (s.core n) := agetD_aput_same ..
theorem modCore_core_other (s : State) (n m : Nat) (g : SysCore → SysCore) (h : m ≠ n) : (s.modCore n g).core m = s.core m :=
  agetD_aput_other _ _ _ _ _ h
@[simp] theorem setLaunch_launch (s : State) (n : Nat) (x : Launch) : (s.setLaunch n x).launch n = x := agetD_aput_same ..
@[simp] theorem modLaunch_launch (s : State) (n : Nat) (g : Launch → Launch) : (s.modLaunch n g).launch n = g (s.launch n) :=
  agetD_aput_same ..

/-- A resident skein's slot is a slot. -/
theorem slot_lt_of_skein? {s : State} {sp slot : Nat} {k : Skein} (h : s.skein? sp slot = some k) :
    slot < (s.spindle sp).slots.length := by
  unfold State.skein? nth at h
  by_contra hn
  simp [List.getD, List.getElem?_eq_none (Nat.le_of_not_lt hn)] at h

/-- A changed skein reads as changed. -/
theorem modSkein_skein? {s : State} {sp slot : Nat} {k : Skein} (g : Skein → Skein) (h : s.skein? sp slot = some k) :
    (s.modSkein sp slot g).skein? sp slot = some (g k) := by
  have hl := slot_lt_of_skein? h
  unfold State.modSkein
  rw [h]
  simp only [State.skein?, State.setSkein, modSpindle_spindle]
  exact nth_modNth_same _ _ _ _ hl

/-- Every other skein of the part reads as before. -/
theorem modSkein_skein?_other (s : State) (sp slot sq sl : Nat) (g : Skein → Skein) (h : ¬(sq = sp ∧ sl = slot)) :
    (s.modSkein sp slot g).skein? sq sl = s.skein? sq sl := by
  unfold State.modSkein
  split
  · rfl
  · by_cases hq : sq = sp
    · subst hq
      simp only [State.skein?, State.setSkein, modSpindle_spindle]
      exact nth_modNth_other _ _ _ _ _ (fun e => h ⟨rfl, e⟩)
    · simp only [State.skein?, State.setSkein]
      rw [modSpindle_spindle_other _ _ _ _ hq]

/-- A changed ply of a resident skein reads as changed. -/
theorem modPly_ply (k : Skein) (p : Nat) (g : Ply → Ply) (h : p < k.plies.length) : (k.modPly p g).ply p = g (k.ply p) :=
  nth_modNth_same _ _ _ _ h

theorem modPly_ply_other (k : Skein) (p q : Nat) (g : Ply → Ply) (h : q ≠ p) : (k.modPly p g).ply q = k.ply q :=
  nth_modNth_other _ _ _ _ _ h

end Sys2Proof.Machine
end

