-- ==== Sys2Proof/Laws/Ops.lean ====
section
/-! SUPPORT. What each shared operation can do, said once: the party that acts, immediate register writes, the end of an
instruction, and the shape of every instruction of a ply or distaff. -/

namespace Sys2Proof.Machine

open Host (Outcome)

/-! ## Changing one part twice -/

theorem aput_aput {α : Type} (l : Assoc α) (k : Nat) (v w : α) : aput (aput l k v) k w = aput l k w := by
  induction l with
  | nil => simp [aput]
  | cons p l ih =>
    obtain ⟨k', v'⟩ := p
    by_cases h : k = k'
    · simp [aput, h]
    · by_cases h2 : k < k' <;> simp [aput, h, h2, ih]

theorem modNth_modNth {α : Type} (l : List α) (i : Nat) (g h : α → α) : modNth (modNth l i g) i h = modNth l i fun x => h (g x) := by
  induction l generalizing i with
  | nil => rfl
  | cons x l ih => cases i <;> simp [modNth, ih]

theorem modSkein_modSkein (s : State) (sp slot : Nat) (g h : Skein → Skein) :
    (s.modSkein sp slot g).modSkein sp slot h = s.modSkein sp slot fun k => h (g k) := by
  cases hk : s.skein? sp slot with
  | none => simp [State.modSkein, hk]
  | some k =>
    have h1 := modSkein_skein? g hk
    have e1 : s.modSkein sp slot g = s.setSkein sp slot (some (g k)) := by simp [State.modSkein, hk]
    have e2 : (s.modSkein sp slot fun k => h (g k)) = s.setSkein sp slot (some (h (g k))) := by simp [State.modSkein, hk]
    rw [e1] at h1 ⊢
    rw [e2]
    unfold State.modSkein
    rw [h1]
    simp only [State.setSkein, State.modSpindle, State.setSpindle, State.spindle, agetD_aput_same, aput_aput, modNth_modNth]

theorem modPly_modPly (s : State) (sp slot p : Nat) (g h : Ply → Ply) :
    (s.modPly sp slot p g).modPly sp slot p h = s.modPly sp slot p fun y => h (g y) := by
  unfold State.modPly
  rw [modSkein_modSkein]
  simp only [Skein.modPly, modNth_modNth]

theorem modDist_modDist (s : State) (sp slot : Nat) (g h : Dist → Dist) :
    (s.modDist sp slot g).modDist sp slot h = s.modDist sp slot fun y => h (g y) := by
  unfold State.modDist
  rw [modSkein_modSkein]
  rfl

/-! ## The party that acts -/

/-- A context is that of a resident skein. -/
theorem ctx?_skein {s : State} {p : Party} {c : Ctx} (h : s.ctx? p = some c) : s.skein? c.sp c.slot = some c.sk := by
  cases p with
  | core n => simp [State.ctx?] at h
  | dist sp slot =>
    simp only [State.ctx?, Option.map_eq_some_iff] at h
    obtain ⟨k, hk, rfl⟩ := h
    exact hk
  | path sp slot ply idx =>
    simp only [State.ctx?] at h
    split at h
    · cases h
    · next k hk => split at h <;> cases h; exact hk

/-- In ply code the context's ply is that of its skein, its entry is valid, and its strands are the entry's. -/
theorem ctx?_ply {s : State} {p : Party} {c : Ctx} (h : s.ctx? p = some c) (hd : c.dist = false) :
    c.ply = c.sk.ply c.plyNo ∧ c.path = nth c.ply.paths c.idx {} ∧ c.path.valid = true ∧ c.strands = strandList c.path.strands
      ∧ c.pc = c.path.pc ∧ c.handler = c.ply.trap.mode := by
  cases p with
  | core n => simp [State.ctx?] at h
  | dist sp slot =>
    simp only [State.ctx?, Option.map_eq_some_iff] at h
    obtain ⟨k, hk, rfl⟩ := h
    simp at hd
  | path sp slot ply idx =>
    simp only [State.ctx?] at h
    split at h
    · cases h
    · split at h <;> cases h
      next hv => exact ⟨rfl, rfl, hv, rfl, rfl, rfl⟩

/-- In distaff code the context's position and mode are the distaff's. -/
theorem ctx?_dist {s : State} {p : Party} {c : Ctx} (h : s.ctx? p = some c) (hd : c.dist = true) :
    c.pc = c.sk.dist.pc ∧ c.handler = c.sk.dist.trap.mode ∧ c.strands = [0] := by
  cases p with
  | core n => simp [State.ctx?] at h
  | dist sp slot =>
    simp only [State.ctx?, Option.map_eq_some_iff] at h
    obtain ⟨k, hk, rfl⟩ := h
    exact ⟨rfl, rfl, rfl⟩
  | path sp slot ply idx =>
    simp only [State.ctx?] at h
    split at h
    · cases h
    · split at h <;> cases h
      simp at hd

/-- A valid path's ply exists. -/
theorem ctx?_ply_lt {s : State} {p : Party} {c : Ctx} (h : s.ctx? p = some c) (hd : c.dist = false) : c.plyNo < c.sk.plies.length := by
  obtain ⟨h1, h2, h3, -⟩ := ctx?_ply h hd
  by_contra hn
  rw [h2, h1] at h3
  simp [Skein.ply, nth, List.getD, List.getElem?_eq_none (Nat.le_of_not_lt hn)] at h3

/-- A path's entry exists. -/
theorem ctx?_idx_lt {s : State} {p : Party} {c : Ctx} (h : s.ctx? p = some c) (hd : c.dist = false) : c.idx < c.ply.paths.length := by
  obtain ⟨-, h2, h3, -⟩ := ctx?_ply h hd
  by_contra hn
  rw [h2] at h3
  simp [nth, List.getD, List.getElem?_eq_none (Nat.le_of_not_lt hn)] at h3

/-- What a change of the party's ply leaves in it. -/
theorem ctx_modPly_ply? {s : State} {c : Ctx} {k : Skein} (g : Ply → Ply) (h : s.skein? c.sp c.slot = some k)
    (hl : c.plyNo < k.plies.length) : c.ply? (c.modPly s g) = some (g (k.ply c.plyNo)) := by
  unfold Ctx.ply? Ctx.modPly State.modPly
  rw [modSkein_skein? _ h]
  simp [modPly_ply, hl]

/-! ## Writes that are performed at once (R93) -/

/-- The register writes of one strand, performed. -/
def Ply.putRegs (p : Ply) (st : Nat) (ws : List RegWrite) (fl : FFlags) : Ply :=
  Ply.apply { strand := st, land := 0, op := 0, writes := ws, flags := fl } p

/-- The same for a distaff. -/
def Dist.putRegs (d : Dist) (ws : List RegWrite) : Dist :=
  Dist.apply { strand := 0, land := 0, op := 0, writes := ws, flags := 0 } d

/-- What writing registers never touches. -/
structure Ply.SameButRegs (p q : Ply) : Prop where
  exm : q.exm = p.exm
  paths : q.paths = p.paths
  pos : q.pos = p.pos
  defs : q.defs = p.defs
  hpos : q.hpos = p.hpos
  hdefs : q.hdefs = p.hdefs
  stage : q.stage = p.stage
  sideLog : q.sideLog = p.sideLog
  held : q.held = p.held
  exited : q.exited = p.exited
  priv : q.priv = p.priv
  token : q.token = p.token
  trap : q.trap = p.trap
  pend : q.pend = p.pend

theorem Ply.SameButRegs.refl (p : Ply) : Ply.SameButRegs p p := ⟨rfl, rfl, rfl, rfl, rfl, rfl, rfl, rfl, rfl, rfl, rfl, rfl, rfl, rfl⟩

theorem Ply.SameButRegs.trans {p q r : Ply} (h : Ply.SameButRegs p q) (g : Ply.SameButRegs q r) : Ply.SameButRegs p r :=
  ⟨g.exm.trans h.exm, g.paths.trans h.paths, g.pos.trans h.pos, g.defs.trans h.defs, g.hpos.trans h.hpos, g.hdefs.trans h.hdefs,
   g.stage.trans h.stage, g.sideLog.trans h.sideLog, g.held.trans h.held, g.exited.trans h.exited, g.priv.trans h.priv,
   g.token.trans h.token, g.trap.trans h.trap, g.pend.trans h.pend⟩

/-- One write as `Ply.apply` performs it. -/
def Ply.put1 (st : Nat) (p : Ply) (w : RegWrite) : Ply :=
  match w with
  | .v r t x => p.wrV r t x
  | .s r m x => p.wrS r st (maskIn (p.rdS r st) m x)
  | .flags x => { p with flags := x }

theorem Ply.putRegs_eq (p : Ply) (st : Nat) (ws : List RegWrite) (fl : FFlags) :
    p.putRegs st ws fl = { ws.foldl (Ply.put1 st) p with flags := (ws.foldl (Ply.put1 st) p).flags ||| fl } := rfl

theorem Ply.put1_same (st : Nat) (p : Ply) (w : RegWrite) : Ply.SameButRegs p (Ply.put1 st p w) := by
  cases w <;> exact ⟨rfl, rfl, rfl, rfl, rfl, rfl, rfl, rfl, rfl, rfl, rfl, rfl, rfl, rfl⟩

theorem Ply.foldl_put1_same (st : Nat) (ws : List RegWrite) (p : Ply) : Ply.SameButRegs p (ws.foldl (Ply.put1 st) p) := by
  induction ws generalizing p with
  | nil => exact .refl p
  | cons w ws ih => exact (Ply.put1_same st p w).trans (ih _)

theorem Ply.putRegs_same (p : Ply) (st : Nat) (ws : List RegWrite) (fl : FFlags) : Ply.SameButRegs p (p.putRegs st ws fl) := by
  have h := Ply.foldl_put1_same st ws p
  rw [Ply.putRegs_eq]
  exact ⟨h.exm, h.paths, h.pos, h.defs, h.hpos, h.hdefs, h.stage, h.sideLog, h.held, h.exited, h.priv, h.token, h.trap, h.pend⟩

/-- Writing registers and changing the positions and the deferred writes are independent. -/
theorem Ply.foldl_put1_with (st : Nat) (ws : List RegWrite) (p : Ply) (a b : List Nat) (c d : List Deferred) :
    ws.foldl (Ply.put1 st) { p with pos := a, hpos := b, defs := c, hdefs := d } =
      { ws.foldl (Ply.put1 st) p with pos := a, hpos := b, defs := c, hdefs := d } := by
  induction ws generalizing p with
  | nil => rfl
  | cons w ws ih =>
    have e : Ply.put1 st { p with pos := a, hpos := b, defs := c, hdefs := d } w =
        { Ply.put1 st p w with pos := a, hpos := b, defs := c, hdefs := d } := by cases w <;> rfl
    simp only [List.foldl_cons]
    rw [e, ih]

@[simp] theorem landDue_nil {α : Type} (app : Deferred → α → α) (st b : Nat) (x : α) : landDue app st b [] x = ([], x) := rfl

/-- A due write that waits for no value is performed. -/
theorem landDue_one {α : Type} (app : Deferred → α → α) (st b : Nat) (e : Deferred) (x : α) (h1 : e.strand = st) (h2 : e.land < b)
    (h3 : e.op = 0) : landDue app st b [e] x = ([], app e x) := by
  simp [landDue, h1, h2, h3, byLand, insertByLand, landGo, shares]

theorem Ply.land_eq (p : Ply) (st b : Nat) (l : List Deferred) (h : p.curDefs = l) :
    p.land st b = (landDue Ply.apply st b l p).2.setDefs (landDue Ply.apply st b l p).1 := by
  subst h; rfl

theorem Ply.setDefs_same (p : Ply) (l : List Deferred) (h : p.curDefs = l) : p.setDefs l = p := by
  subst h
  unfold Ply.setDefs Ply.curDefs
  split <;> rfl

@[simp] theorem Ply.curDefs_bumpPos (p : Ply) (st : Nat) : (p.bumpPos st).curDefs = p.curDefs := by
  unfold Ply.bumpPos Ply.curDefs
  cases hm : p.trap.mode <;> simp [hm]

@[simp] theorem Ply.curDefs_setDefs (p : Ply) (l : List Deferred) : (p.setDefs l).curDefs = l := by
  unfold Ply.setDefs Ply.curDefs
  cases hm : p.trap.mode <;> simp [hm]

/-- Performing a write commutes with the positions and the deferred writes. -/
theorem Ply.apply_bump (p : Ply) (e : Deferred) (st : Nat) (l m : List Deferred) (h : e.ue = none) :
    (Ply.apply e ((p.setDefs l).bumpPos st)).setDefs m = ((Ply.apply e p).setDefs m).bumpPos st := by
  have same := Ply.foldl_put1_same e.strand e.writes p
  have swap := Ply.foldl_put1_with e.strand e.writes p
  have ap : ∀ q : Ply, Ply.apply e q = { e.writes.foldl (Ply.put1 e.strand) q with
      flags := (e.writes.foldl (Ply.put1 e.strand) q).flags ||| e.flags } := by
    intro q; unfold Ply.apply; rw [h]; rfl
  rw [ap, ap]
  cases hm : p.trap.mode
  · have e1 : (p.setDefs l).bumpPos st = { p with pos := modNth p.pos st (· + 1), hpos := p.hpos, defs := l, hdefs := p.hdefs } := by
      simp [Ply.setDefs, Ply.bumpPos, hm]
    rw [e1, swap]
    obtain ⟨-, -, h3, h4, h5, h6, -, -, -, -, -, -, h13, -⟩ := same
    generalize e.writes.foldl (Ply.put1 e.strand) p = X at *
    have hx : X.trap.mode = false := by rw [h13, hm]
    simp [Ply.setDefs, Ply.bumpPos, hx, h3, h5, h6]
  · have e1 : (p.setDefs l).bumpPos st = { p with pos := p.pos, hpos := modNth p.hpos st (· + 1), defs := p.defs, hdefs := l } := by
      simp [Ply.setDefs, Ply.bumpPos, hm]
    rw [e1, swap]
    obtain ⟨-, -, h3, h4, h5, h6, -, -, -, -, -, -, h13, -⟩ := same
    generalize e.writes.foldl (Ply.put1 e.strand) p = X at *
    have hx : X.trap.mode = true := by rw [h13, hm]
    simp [Ply.setDefs, Ply.bumpPos, hx, h3, h4, h5]

@[simp] theorem Ply.putRegs_nil (p : Ply) (st : Nat) : p.putRegs st [] 0 = p := by
  rw [Ply.putRegs_eq]; simp

@[simp] theorem Ply.curDefs_putRegs (p : Ply) (st : Nat) (ws : List RegWrite) (fl : FFlags) : (p.putRegs st ws fl).curDefs = p.curDefs := by
  have h := Ply.putRegs_same p st ws fl
  unfold Ply.curDefs
  rw [h.trap, h.defs, h.hdefs]

/-- With nothing outstanding and no lookahead, a write is performed at once, and the strand is at its next position. -/
theorem Ply.write_now (p : Ply) (st : Nat) (ws : List RegWrite) (fl : FFlags) (h : p.curDefs = []) :
    p.write st 0 0 ws fl = (p.putRegs st ws fl).bumpPos st := by
  unfold Ply.write
  by_cases he : (ws.isEmpty && fl == 0) = true
  · simp only [he, if_true]
    simp only [Bool.and_eq_true, List.isEmpty_iff, beq_iff_eq] at he
    obtain ⟨rfl, rfl⟩ := he
    rw [Ply.land_eq _ _ _ [] (by simp [h]), landDue_nil, Ply.putRegs_nil, Ply.setDefs_same _ _ (by simp [h])]
  · have he' : (ws.isEmpty && fl == 0) = false := by simpa using he
    simp only [he', h, List.nil_append, Bool.false_eq_true, if_false]
    generalize hq : p.curPos st = q
    let e : Deferred := { strand := st, land := q + 0, op := 0, writes := ws, flags := fl }
    rw [Ply.land_eq _ _ _ [e] (by simp [e]), landDue_one _ _ _ e _ rfl (by simp [e]) rfl, Ply.apply_bump _ _ _ _ _ rfl]
    exact congrArg (Ply.bumpPos · st) (Ply.setDefs_same _ _ (by rw [← h]; exact Ply.curDefs_putRegs p st ws fl))

/-! ## What a register reads as after a list of writes -/

/-- The V registers after one write. -/
def stepV (v : Sparse 32) (w : RegWrite) : Sparse 32 :=
  match w with
  | .v r t x => sset v (128 * r + t) x
  | _ => v

/-- The V registers after a list of writes. -/
def writesV (ws : List RegWrite) (v : Sparse 32) : Sparse 32 := ws.foldl stepV v

theorem Ply.foldl_put1_v (st : Nat) (ws : List RegWrite) (p : Ply) : (ws.foldl (Ply.put1 st) p).v = writesV ws p.v := by
  induction ws generalizing p with
  | nil => rfl
  | cons w ws ih => rw [List.foldl_cons, ih]; cases w <;> rfl

@[simp] theorem Ply.putRegs_v (p : Ply) (st : Nat) (ws : List RegWrite) (fl : FFlags) : (p.putRegs st ws fl).v = writesV ws p.v := by
  rw [Ply.putRegs_eq]; exact Ply.foldl_put1_v st ws p

@[simp] theorem Ply.bumpPos_v (p : Ply) (st : Nat) : (p.bumpPos st).v = p.v := by unfold Ply.bumpPos; split <;> rfl
@[simp] theorem Ply.bumpPos_s (p : Ply) (st : Nat) : (p.bumpPos st).s = p.s := by unfold Ply.bumpPos; split <;> rfl
@[simp] theorem Ply.bumpPos_flags (p : Ply) (st : Nat) : (p.bumpPos st).flags = p.flags := by unfold Ply.bumpPos; split <;> rfl
@[simp] theorem Ply.bumpPos_exm (p : Ply) (st : Nat) : (p.bumpPos st).exm = p.exm := by unfold Ply.bumpPos; split <;> rfl
@[simp] theorem Ply.bumpPos_paths (p : Ply) (st : Nat) : (p.bumpPos st).paths = p.paths := by unfold Ply.bumpPos; split <;> rfl
@[simp] theorem Ply.bumpPos_trap (p : Ply) (st : Nat) : (p.bumpPos st).trap = p.trap := by unfold Ply.bumpPos; split <;> rfl
@[simp] theorem Ply.putRegs_exm (p : Ply) (st : Nat) (ws : List RegWrite) (fl : FFlags) : (p.putRegs st ws fl).exm = p.exm :=
  (Ply.putRegs_same p st ws fl).exm
@[simp] theorem Ply.putRegs_paths (p : Ply) (st : Nat) (ws : List RegWrite) (fl : FFlags) : (p.putRegs st ws fl).paths = p.paths :=
  (Ply.putRegs_same p st ws fl).paths

theorem writesV_append (a b : List RegWrite) (v : Sparse 32) : writesV (a ++ b) v = writesV b (writesV a v) := by
  simp [writesV]

/-- Every write of the list names a thread of a ply. -/
def threadsOk (ws : List RegWrite) : Prop := ∀ r t x, RegWrite.v r t x ∈ ws → t < 128

/-- A register that no write names reads as before. -/
theorem writesV_other (ws : List RegWrite) (v : Sparse 32) (r t : Nat) (ok : threadsOk ws) (ht : t < 128)
    (h : ∀ x, RegWrite.v r t x ∉ ws) : sget (writesV ws v) (128 * r + t) = sget v (128 * r + t) := by
  induction ws generalizing v with
  | nil => rfl
  | cons w ws ih =>
    have ok' : threadsOk ws := fun r t x hx => ok r t x (List.mem_cons_of_mem _ hx)
    have h' : ∀ x, RegWrite.v r t x ∉ ws := fun x hx => h x (List.mem_cons_of_mem _ hx)
    have e : writesV (w :: ws) v = writesV ws (stepV v w) := rfl
    rw [e, ih _ ok' h']
    cases w with
    | v r' t' x =>
      have hb := ok r' t' x (List.mem_cons_self ..)
      refine sget_sset_other _ _ _ _ fun he => ?_
      have : r = r' ∧ t = t' := by omega
      exact h x (by rw [this.1, this.2]; exact List.mem_cons_self ..)
    | s r' m x => rfl
    | flags x => rfl

/-- A register that the list writes, and only with one value, reads as that value. -/
theorem writesV_mem (ws : List RegWrite) (v : Sparse 32) (r t : Nat) (x : VWord) (ok : threadsOk ws) (hm : RegWrite.v r t x ∈ ws)
    (h : ∀ y, RegWrite.v r t y ∈ ws → y = x) : sget (writesV ws v) (128 * r + t) = x := by
  induction ws generalizing v with
  | nil => simp at hm
  | cons w ws ih =>
    have ok' : threadsOk ws := fun r t x hx => ok r t x (List.mem_cons_of_mem _ hx)
    have h' : ∀ y, RegWrite.v r t y ∈ ws → y = x := fun y hy => h y (List.mem_cons_of_mem _ hy)
    have e : writesV (w :: ws) v = writesV ws (stepV v w) := rfl
    rw [e]
    by_cases hin : RegWrite.v r t x ∈ ws
    · exact ih _ ok' hin h'
    · have hw : w = .v r t x := by
        rcases List.mem_cons.mp hm with hw | hw
        · exact hw.symm
        · exact absurd hw hin
      subst hw
      have ht := ok r t x (List.mem_cons_self ..)
      rw [writesV_other _ _ _ _ ok' ht fun y hy => by rw [h' y hy] at hy; exact hin hy]
      exact sget_sset_same _ _ _

/-- The S registers after one write of a strand. -/
def stepS (st : Nat) (m : Sparse 64) (w : RegWrite) : Sparse 64 :=
  match w with
  | .s r k x => sset m (16 * r + st) (maskIn (sget m (16 * r + st)) k x)
  | _ => m

/-- The S registers after one strand's list of writes. -/
def writesS (st : Nat) (ws : List RegWrite) (m : Sparse 64) : Sparse 64 := ws.foldl (stepS st) m

theorem Ply.foldl_put1_s (st : Nat) (ws : List RegWrite) (p : Ply) : (ws.foldl (Ply.put1 st) p).s = writesS st ws p.s := by
  induction ws generalizing p with
  | nil => rfl
  | cons w ws ih => rw [List.foldl_cons, ih]; cases w <;> rfl

@[simp] theorem Ply.putRegs_s (p : Ply) (st : Nat) (ws : List RegWrite) (fl : FFlags) : (p.putRegs st ws fl).s = writesS st ws p.s := by
  rw [Ply.putRegs_eq]; exact Ply.foldl_put1_s st ws p

/-- Another strand's copies, and registers that no write names, read as before. -/
theorem writesS_other (st : Nat) (ws : List RegWrite) (m : Sparse 64) (r sj : Nat) (hs : st < 16) (hj : sj < 16)
    (h : sj = st → ∀ k x, RegWrite.s r k x ∉ ws) : sget (writesS st ws m) (16 * r + sj) = sget m (16 * r + sj) := by
  induction ws generalizing m with
  | nil => rfl
  | cons w ws ih =>
    have h' : sj = st → ∀ k x, RegWrite.s r k x ∉ ws := fun e k x hx => h e k x (List.mem_cons_of_mem _ hx)
    have e : writesS st (w :: ws) m = writesS st ws (stepS st m w) := rfl
    rw [e, ih _ h']
    cases w with
    | v r' t' x => rfl
    | s r' k x =>
      refine sget_sset_other _ _ _ _ fun he => ?_
      have : r = r' ∧ sj = st := by omega
      exact h this.2 k x (by rw [this.1]; exact List.mem_cons_self ..)
    | flags x => rfl

@[simp] theorem maskIn_ones (old val : Word) : maskIn old ones64 val = val := by
  have h : ones64 = BitVec.allOnes 64 := rfl
  rw [maskIn, h, BitVec.and_allOnes, BitVec.not_allOnes, BitVec.and_zero, BitVec.zero_or]

/-- One write of a whole S register: that copy reads as written, every other as before. -/
theorem writesS_wrAll (st r : Nat) (x : Word) (m : Sparse 64) : writesS st [wrAll r x] m = sset m (16 * r + st) x := by
  simp [writesS, wrAll, stepS]

/-! ## The end of an instruction -/

/-- A spindle's slots where something else of it changes. -/
theorem modSpindle_spindle_slots {s : State} {sp : Nat} {g : Spindle → Spindle} (h : ∀ x, (g x).slots = x.slots) (q : Nat) :
    ((s.modSpindle sp g).spindle q).slots = (s.spindle q).slots := by
  by_cases e : q = sp
  · subst e; simp [modSpindle_spindle, h]
  · simp [modSpindle_spindle_other, e]

/-- Cycles that pass leave the slots as they are. -/
@[simp] theorem passCycles_slots (s : State) (sp q : Nat) : ((s.passCycles sp).spindle q).slots = (s.spindle q).slots :=
  modSpindle_spindle_slots (fun x => by split <;> rfl) q

@[simp] theorem passToIssue_slots (c : Ctx) (s : State) (q : Nat) : ((c.passToIssue s).spindle q).slots = (s.spindle q).slots := by
  unfold Ctx.passToIssue
  rw [passCycles_slots]
  exact modSpindle_spindle_slots (g := fun x => x.pass (x.heldFor (issuePipes c.sp) c.group)) (fun _ => rfl) q

/-- Counting an issue changes the counters, what its cycles hold and the last path of one spindle only. -/
theorem countIssue_skein? (c : Ctx) (cls : Nat) (s : State) (sp slot : Nat) : (countIssue c cls s).skein? sp slot = s.skein? sp slot := by
  have slots := passToIssue_slots c s
  unfold countIssue State.skein?
  by_cases h : sp = c.sp
  · subst h; simp [Spindle.count, slots]
  · simp [modSpindle_spindle_other, h, slots]

theorem countIssue_outside (c : Ctx) (cls : Nat) (s : State) : ∃ sp, countIssue c cls s = { s with spindles := sp } := ⟨_, rfl⟩

@[simp] theorem countIssue_ply? (c d : Ctx) (cls : Nat) (s : State) : d.ply? (countIssue c cls s) = d.ply? s := by
  simp [Ctx.ply?, countIssue_skein?]

@[simp] theorem countIssue_distIn (c d : Ctx) (cls : Nat) (s : State) : d.distIn (countIssue c cls s) = d.distIn s := by
  simp [Ctx.distIn, countIssue_skein?]

@[simp] theorem countIssue_pcIn (c d : Ctx) (cls : Nat) (s : State) : d.pcIn (countIssue c cls s) = d.pcIn s := by
  unfold Ctx.pcIn; rw [countIssue_ply?, countIssue_distIn]

@[simp] theorem countIssue_vIn (c d : Ctx) (cls : Nat) (s : State) (r t : Nat) : d.vIn (countIssue c cls s) r t = d.vIn s r t := by
  unfold Ctx.vIn; rw [countIssue_ply?]

@[simp] theorem countIssue_vecIn (c d : Ctx) (cls : Nat) (s : State) (w : Bool) (r t : Nat) :
    d.vecIn (countIssue c cls s) w r t = d.vecIn s w r t := by
  unfold Ctx.vecIn; rw [countIssue_vIn, countIssue_vIn]

@[simp] theorem countIssue_sIn (c d : Ctx) (cls : Nat) (s : State) (r st : Nat) : d.sIn (countIssue c cls s) r st = d.sIn s r st := by
  unfold Ctx.sIn; rw [countIssue_ply?, countIssue_distIn]

@[simp] theorem countIssue_exmIn (c d : Ctx) (cls : Nat) (s : State) : d.exmIn (countIssue c cls s) = d.exmIn s := by
  unfold Ctx.exmIn; rw [countIssue_ply?]

@[simp] theorem countIssue_flagsIn (c d : Ctx) (cls : Nat) (s : State) : d.flagsIn (countIssue c cls s) = d.flagsIn s := by
  unfold Ctx.flagsIn; rw [countIssue_ply?]

/-- The ply after every strand's writes are performed at once. -/
def Ply.putAll (p : Ply) (strands : List Nat) (ws : Nat → List RegWrite) (fl : Nat → FFlags) : Ply :=
  strands.foldl (fun p st => (p.putRegs st (ws st) (fl st)).bumpPos st) p

theorem Ply.foldl_write_now (strands : List Nat) (ws : Nat → List RegWrite) (fl : Nat → FFlags) (p : Ply) (h : p.curDefs = []) :
    strands.foldl (fun p st => p.write st 0 0 (ws st) (fl st)) p = p.putAll strands ws fl := by
  unfold Ply.putAll
  induction strands generalizing p with
  | nil => rfl
  | cons st l ih =>
    simp only [List.foldl_cons]
    rw [Ply.write_now _ _ _ _ h, ih _ (by simp [h])]

@[simp] theorem Ply.putAll_v (strands : List Nat) (ws : Nat → List RegWrite) (fl : Nat → FFlags) (p : Ply) :
    (p.putAll strands ws fl).v = writesV (strands.flatMap ws) p.v := by
  unfold Ply.putAll
  induction strands generalizing p with
  | nil => rfl
  | cons st l ih => simp [ih, writesV_append]

@[simp] theorem Ply.putAll_exm (strands : List Nat) (ws : Nat → List RegWrite) (fl : Nat → FFlags) (p : Ply) :
    (p.putAll strands ws fl).exm = p.exm := by
  unfold Ply.putAll
  induction strands generalizing p with
  | nil => rfl
  | cons st l ih => simp [ih]

@[simp] theorem Ply.putAll_paths (strands : List Nat) (ws : Nat → List RegWrite) (fl : Nat → FFlags) (p : Ply) :
    (p.putAll strands ws fl).paths = p.paths := by
  unfold Ply.putAll
  induction strands generalizing p with
  | nil => rfl
  | cons st l ih => simp [ih]

theorem Ply.putAll_s_cons (st : Nat) (l : List Nat) (ws : Nat → List RegWrite) (fl : Nat → FFlags) (p : Ply) :
    (p.putAll (st :: l) ws fl) = ((p.putRegs st (ws st) (fl st)).bumpPos st).putAll l ws fl := rfl

/-- A strand that is not of the list keeps its copies. -/
theorem Ply.putAll_rdS_other (strands : List Nat) (ws : Nat → List RegWrite) (fl : Nat → FFlags) (p : Ply) (r sj : Nat)
    (hl : ∀ st ∈ strands, st < 16) (hj : sj < 16) (hn : sj ∉ strands) : (p.putAll strands ws fl).rdS r sj = p.rdS r sj := by
  induction strands generalizing p with
  | nil => rfl
  | cons st l ih =>
    have hne : sj ≠ st := fun e => hn (by simp [e])
    rw [Ply.putAll_s_cons, ih _ (fun x hx => hl x (by simp [hx])) (fun hx => hn (by simp [hx]))]
    simp only [Ply.rdS, Ply.bumpPos_s, Ply.putRegs_s]
    exact writesS_other _ _ _ _ _ (hl st (by simp)) hj (fun e => absurd e hne)

/-- A strand of the list has its own writes. -/
theorem Ply.putAll_rdS (strands : List Nat) (ws : Nat → List RegWrite) (fl : Nat → FFlags) (p : Ply) (r sj : Nat)
    (hl : ∀ st ∈ strands, st < 16) (hd : strands.Nodup) (hj : sj ∈ strands) :
    (p.putAll strands ws fl).rdS r sj = sget (writesS sj (ws sj) p.s) (16 * r + sj) ∨
    ∃ m, (∀ q, sget m (16 * q + sj) = sget p.s (16 * q + sj)) ∧
      (p.putAll strands ws fl).rdS r sj = sget (writesS sj (ws sj) m) (16 * r + sj) := by
  induction strands generalizing p with
  | nil => simp at hj
  | cons st l ih =>
    rw [Ply.putAll_s_cons]
    by_cases he : sj = st
    · subst he
      left
      rw [Ply.putAll_rdS_other _ _ _ _ _ _ (fun x hx => hl x (by simp [hx])) (hl sj (by simp)) (List.nodup_cons.mp hd).1]
      simp [Ply.rdS]
    · right
      have hjl : sj ∈ l := by simpa [he] using hj
      have keep : ∀ q, sget ((p.putRegs st (ws st) (fl st)).bumpPos st).s (16 * q + sj) = sget p.s (16 * q + sj) := fun q => by
        simp only [Ply.bumpPos_s, Ply.putRegs_s]
        exact writesS_other _ _ _ _ _ (hl st (by simp)) (hl sj (by simp [hjl])) (fun e => absurd e he)
      rcases ih ((p.putRegs st (ws st) (fl st)).bumpPos st) (fun x hx => hl x (by simp [hx])) (List.nodup_cons.mp hd).2 hjl with h | ⟨m, hm, h⟩
      · exact ⟨_, keep, h⟩
      · exact ⟨m, fun q => (hm q).trans (keep q), h⟩

/-- The strands of a set are below 16, each once. -/
theorem strandList_lt (b : BitVec 16) : ∀ st ∈ strandList b, st < 16 := by
  intro st h
  simp only [strandList, List.mem_filter, List.mem_range] at h
  exact h.1

theorem strandList_nodup (b : BitVec 16) : (strandList b).Nodup := List.nodup_range.filter _

/-- An instruction of a path with no lookahead and nothing outstanding: its ply afterwards. -/
theorem finish_ply? {s : State} {c : Ctx} (f : Fields) (ws : Nat → List RegWrite) (fl : Nat → FFlags)
    (h : s.ctx? s.cur = some c) (hd : c.dist = false) (hdef : c.ply.curDefs = []) (hla : c.lookahead f = 0) :
    c.ply? (c.finish f 0 ws fl s) = some { c.ply.putAll c.strands ws fl with
      paths := modNth c.ply.paths c.idx fun e => { e with pc := c.pc + Fields.size f, st := .ready, wait := .none } } := by
  obtain ⟨hp, -⟩ := ctx?_ply h hd
  have e : c.finish f 0 ws fl s = c.modPly s fun y =>
      { c.strands.foldl (fun p st => p.write st 0 0 (ws st) (fl st)) y with
        paths := modNth (c.strands.foldl (fun p st => p.write st 0 0 (ws st) (fl st)) y).paths c.idx fun e =>
          { e with pc := c.pc + Fields.size f, st := .ready, wait := .none } } := by
    unfold Ctx.finish Ctx.goto Ctx.writes Ctx.modPath Ctx.modPly
    simp only [hd, hla, Bool.false_eq_true, if_false]
    exact modPly_modPly ..
  rw [e, ctx_modPly_ply? _ (ctx?_skein h) (ctx?_ply_lt h hd), ← hp, Ply.foldl_write_now _ _ _ _ hdef, Ply.putAll_paths]

/-- The program counter after an instruction of a path ends. -/
theorem finish_pcIn {s : State} {c : Ctx} (f : Fields) (ws : Nat → List RegWrite) (fl : Nat → FFlags)
    (h : s.ctx? s.cur = some c) (hd : c.dist = false) (hdef : c.ply.curDefs = []) (hla : c.lookahead f = 0) :
    c.pcIn (c.finish f 0 ws fl s) = c.pc + Fields.size f := by
  simp only [Ctx.pcIn, hd, Bool.false_eq_true, if_false, finish_ply? f ws fl h hd hdef hla, Option.map_some, Option.getD_some]
  rw [nth_modNth_same _ _ _ _ (ctx?_idx_lt h hd)]

/-- A V register of the ply after an instruction of a path ends. -/
theorem finish_vIn {s : State} {c : Ctx} (f : Fields) (ws : Nat → List RegWrite) (fl : Nat → FFlags)
    (h : s.ctx? s.cur = some c) (hd : c.dist = false) (hdef : c.ply.curDefs = []) (hla : c.lookahead f = 0) (r t : Nat) :
    c.vIn (c.finish f 0 ws fl s) r t = sget (writesV (c.strands.flatMap ws) c.ply.v) (128 * r + t) := by
  simp [Ctx.vIn, finish_ply? f ws fl h hd hdef hla, Ply.rdV]

/-! ## The distaff -/

/-- One write as `Dist.apply` performs it. -/
def Dist.put1 (d : Dist) (w : RegWrite) : Dist :=
  match w with
  | .s r m x => d.wrD r (maskIn (d.rdD r) m x)
  | _ => d

theorem Dist.apply_eq (e : Deferred) (d : Dist) (h : e.ue = none) : Dist.apply e d = e.writes.foldl Dist.put1 d := by
  unfold Dist.apply
  rw [h]
  rfl

/-- Writing registers touches nothing else of a distaff. -/
theorem Dist.foldl_put1_eq (ws : List RegWrite) (d : Dist) : ∃ m, ws.foldl Dist.put1 d = { d with d := m } := by
  induction ws generalizing d with
  | nil => exact ⟨d.d, rfl⟩
  | cons w ws ih =>
    obtain ⟨m, hm⟩ := ih (Dist.put1 d w)
    rw [List.foldl_cons, hm]
    cases w <;> exact ⟨m, rfl⟩

/-- Writing registers and changing the position and the deferred writes are independent. -/
theorem Dist.foldl_put1_with (ws : List RegWrite) (d : Dist) (a b : Nat) (x y : List Deferred) :
    ws.foldl Dist.put1 { d with pos := a, hpos := b, defs := x, hdefs := y } =
      { ws.foldl Dist.put1 d with pos := a, hpos := b, defs := x, hdefs := y } := by
  induction ws generalizing d with
  | nil => rfl
  | cons w ws ih =>
    have e : Dist.put1 { d with pos := a, hpos := b, defs := x, hdefs := y } w =
        { Dist.put1 d w with pos := a, hpos := b, defs := x, hdefs := y } := by cases w <;> rfl
    simp only [List.foldl_cons]
    rw [e, ih]

theorem Dist.land_eq (d : Dist) (b : Nat) (l : List Deferred) (h : d.curDefs = l) :
    d.land b = (landDue Dist.apply 0 b l d).2.setDefs (landDue Dist.apply 0 b l d).1 := by
  subst h; rfl

theorem Dist.setDefs_same (d : Dist) (l : List Deferred) (h : d.curDefs = l) : d.setDefs l = d := by
  subst h
  unfold Dist.setDefs Dist.curDefs
  split <;> rfl

@[simp] theorem Dist.curDefs_bumpPos (d : Dist) : d.bumpPos.curDefs = d.curDefs := by
  unfold Dist.bumpPos Dist.curDefs
  cases hm : d.trap.mode <;> simp [hm]

@[simp] theorem Dist.curDefs_setDefs (d : Dist) (l : List Deferred) : (d.setDefs l).curDefs = l := by
  unfold Dist.setDefs Dist.curDefs
  cases hm : d.trap.mode <;> simp [hm]

theorem Dist.apply_bump (d : Dist) (e : Deferred) (l m : List Deferred) (h : e.ue = none) :
    (Dist.apply e (d.setDefs l).bumpPos).setDefs m = ((Dist.apply e d).setDefs m).bumpPos := by
  have swap := Dist.foldl_put1_with e.writes d
  obtain ⟨regs, hregs⟩ := Dist.foldl_put1_eq e.writes d
  rw [Dist.apply_eq _ _ h, Dist.apply_eq _ _ h]
  cases hm : d.trap.mode
  · have e1 : (d.setDefs l).bumpPos = { d with pos := d.pos + 1, hpos := d.hpos, defs := l, hdefs := d.hdefs } := by
      simp [Dist.setDefs, Dist.bumpPos, hm]
    rw [e1, swap, hregs]
    simp [Dist.setDefs, Dist.bumpPos, hm]
  · have e1 : (d.setDefs l).bumpPos = { d with pos := d.pos, hpos := d.hpos + 1, defs := d.defs, hdefs := l } := by
      simp [Dist.setDefs, Dist.bumpPos, hm]
    rw [e1, swap, hregs]
    simp [Dist.setDefs, Dist.bumpPos, hm]

/-- With nothing outstanding and no lookahead, a write is performed at once, and the distaff is at its next position. -/
theorem Dist.write_now (d : Dist) (ws : List RegWrite) (h : d.curDefs = []) : d.write 0 0 ws = (d.putRegs ws).bumpPos := by
  unfold Dist.write
  cases he : ws.isEmpty
  · simp only [h, List.nil_append, Bool.false_eq_true, if_false]
    generalize hq : d.curPos = q
    let e : Deferred := { strand := 0, land := q + 0, op := 0, writes := ws, flags := 0 }
    rw [Dist.land_eq _ _ [e] (by simp [e]), landDue_one _ _ _ e _ rfl (by simp [e]) rfl, Dist.apply_bump _ _ _ _ rfl]
    obtain ⟨regs, hregs⟩ := Dist.foldl_put1_eq ws d
    have e1 : Dist.apply e d = { d with d := regs } := (Dist.apply_eq e d rfl).trans hregs
    have e2 : d.putRegs ws = { d with d := regs } := (Dist.apply_eq _ d rfl).trans hregs
    rw [e1, e2]
    exact congrArg Dist.bumpPos (Dist.setDefs_same _ _ h)
  · have hn := List.isEmpty_iff.mp he
    subst hn
    have e2 : d.putRegs [] = d := Dist.apply_eq _ d rfl
    simp only [if_true, e2]
    rw [Dist.land_eq _ _ [] (by simp [h]), landDue_nil, Dist.setDefs_same _ _ (by simp [h])]

/-- One write of a whole D register. -/
@[simp] theorem Dist.putRegs_wrAll (d : Dist) (r : Nat) (x : Word) : d.putRegs [wrAll r x] = d.wrD r x := by
  show Dist.apply _ d = _
  rw [Dist.apply_eq _ _ rfl]
  simp [wrAll, Dist.put1]

@[simp] theorem Dist.putRegs_nil (d : Dist) : d.putRegs [] = d := Dist.apply_eq _ d rfl

/-- An instruction of a distaff with no lookahead and nothing outstanding: the distaff afterwards. -/
theorem finish_distIn {s : State} {c : Ctx} (f : Fields) (ws : Nat → List RegWrite) (fl : Nat → FFlags)
    (h : s.ctx? s.cur = some c) (hd : c.dist = true) (hdef : c.sk.dist.curDefs = []) (hla : c.lookahead f = 0) :
    c.distIn (c.finish f 0 ws fl s) = { (c.sk.dist.putRegs (ws 0)).bumpPos with pc := c.pc + Fields.size f, wait := .none } := by
  have e : c.finish f 0 ws fl s = c.modDist s fun d => { d.write 0 0 (ws 0) with pc := c.pc + Fields.size f, wait := .none } := by
    unfold Ctx.finish Ctx.goto Ctx.writes Ctx.modDist
    simp only [hd, hla, if_true]
    exact modDist_modDist ..
  rw [e]
  unfold Ctx.distIn Ctx.modDist State.modDist
  rw [modSkein_skein? _ (ctx?_skein h)]
  simp only [Skein.modDist, Option.map_some, Option.getD_some]
  rw [Dist.write_now _ _ hdef]

/-! ## The shape of every instruction -/

/-- The context is the one of the state in which the instruction reads its operands. -/
theorem Issues.cur {i : Instr} {r : OpRow} {f : Fields} {s s1 : State} {c : Ctx} (h : Issues i r f s c s1) : s1.cur = s.cur := by
  obtain ⟨c0, -, -, rfl⟩ := h.checked
  unfold Ctx.landed Ctx.modDist Ctx.modPly
  split <;> simp

/-- An instruction that can take effect: its own part decides, on the operands as of its position. -/
theorem guarded_issues {i : Instr} {r : OpRow} {f : Fields} {s s1 : State} {c : Ctx} (h : Issues i r f s c s1)
    (body : Fields → Ctx → State → Eff) : guarded i s body = .next (settle c (issueClass r f) f s1 (body f c s1)) := by
  obtain ⟨c0, h0, hc, rfl⟩ := h.checked
  have hctx := h.ctx
  rw [h.cur] at hctx
  unfold guarded
  rw [h0, h.row, h.fields]
  simp only [hc]
  have hcur : (c0.landed s).cur = s.cur := h.cur
  rw [hcur, hctx]
  simp [h.ready, h.room, issueClass]

/-- Its own part takes effect. -/
theorem guarded_done {i : Instr} {r : OpRow} {f : Fields} {s s1 s2 : State} {c : Ctx} (h : Issues i r f s c s1)
    {body : Fields → Ctx → State → Eff} (hb : body f c s1 = .done s2) : guarded i s body = .next (countIssue c (issueClass r f) s2) := by
  rw [guarded_issues h, hb]
  simp [settle, h.quiet]

/-- Its own part ends in a precise trap. -/
theorem guarded_trap {i : Instr} {r : OpRow} {f : Fields} {s s1 : State} {c : Ctx} {t : TrapRec} (h : Issues i r f s c s1)
    {body : Fields → Ctx → State → Eff} (hb : body f c s1 = .trap t) : guarded i s body = .next (takeTrap c t c.pc s1) := by
  rw [guarded_issues h, hb]
  simp [settle]

/-- Its effect is a trap that resumes after it, which needs no room in the ring or finds it, and finds every sibling at a boundary. -/
theorem guarded_raise {i : Instr} {r : OpRow} {f : Fields} {s s1 : State} {c : Ctx} {t : TrapRec} (h : Issues i r f s c s1)
    (hw : c.trapStops s1 = false) {body : Fields → Ctx → State → Eff} (hb : body f c s1 = .raise t) : guarded i s body =
      .next (countIssue c (issueClass r f) (takeTrap c t (c.pc + Fields.size f) (c.writes f 0 (fun _ => []) (fun _ => 0) s1))) := by
  rw [guarded_issues h, hb]
  simp [settle, h.quiet, hw]

/-- It waits. -/
theorem guarded_stall {i : Instr} {r : OpRow} {f : Fields} {s s1 s2 : State} {c : Ctx} (h : Issues i r f s c s1)
    {body : Fields → Ctx → State → Eff} (hb : body f c s1 = .stall s2) : guarded i s body = .next (c.again s2) := by
  rw [guarded_issues h, hb]
  simp [settle, h.quiet]

end Sys2Proof.Machine
end

