-- ==== Sys2Proof/Laws/Lanes.lean ====
section
/-! SUPPORT. What a lane-wise instruction leaves in the registers of its ply (R151, R152, R159). -/

namespace Sys2Proof.Machine

open Host (Outcome)

/-- An active thread of a strand is one of its eight. -/
theorem mem_activeIn {exm : BitVec 128} {st t : Nat} : t ∈ activeIn exm st ↔ t / 8 = st ∧ exm.getLsbD t = true := by
  simp only [activeIn, List.mem_filter, List.mem_map, List.mem_range]
  constructor
  · rintro ⟨⟨a, ha, rfl⟩, hb⟩
    exact ⟨by omega, hb⟩
  · rintro ⟨rfl, hb⟩
    exact ⟨⟨t % 8, by omega, by omega⟩, hb⟩

/-- An active thread of a path. -/
theorem mem_active {c : Ctx} {t : Nat} : t ∈ c.active ↔ t / 8 ∈ c.strands ∧ c.ply.exm.getLsbD t = true := by
  simp only [Ctx.active, List.mem_flatMap, mem_activeIn]
  constructor
  · rintro ⟨st, hs, rfl, hb⟩; exact ⟨hs, hb⟩
  · rintro ⟨hs, hb⟩; exact ⟨_, hs, rfl, hb⟩

/-- The strands of a path are below 16. -/
theorem ctx_strands_lt {s : State} {p : Party} {c : Ctx} (h : s.ctx? p = some c) : ∀ st ∈ c.strands, st < 16 := by
  cases hd : c.dist
  · obtain ⟨-, -, -, hs, -⟩ := ctx?_ply h hd
    rw [hs]; exact strandList_lt _
  · obtain ⟨-, -, hs⟩ := ctx?_dist h hd
    rw [hs]; simp

theorem ctx_strands_nodup {s : State} {p : Party} {c : Ctx} (h : s.ctx? p = some c) : c.strands.Nodup := by
  cases hd : c.dist
  · obtain ⟨-, -, -, hs, -⟩ := ctx?_ply h hd
    rw [hs]; exact strandList_nodup _
  · obtain ⟨-, -, hs⟩ := ctx?_dist h hd
    rw [hs]; simp

/-- The writes of a value to a V register or pair. -/
theorem mem_vecWrites {wide : Bool} {d t : Nat} {x : Word} {q th : Nat} {y : VWord} :
    RegWrite.v q th y ∈ vecWrites wide d t x ↔
      th = t ∧ ((q = d ∧ y = x.setWidth 32) ∨ (wide = true ∧ q = d + 1 ∧ y = (x >>> 32).setWidth 32)) := by
  cases wide <;> simp [vecWrites]
  · constructor
    · rintro ⟨rfl, rfl, rfl⟩; simp
    · rintro ⟨rfl, rfl, rfl⟩; simp
  · constructor
    · rintro (⟨rfl, rfl, rfl⟩ | ⟨rfl, rfl, rfl⟩) <;> simp
    · rintro ⟨rfl, ⟨rfl, rfl⟩ | ⟨rfl, rfl⟩⟩ <;> simp

/-- The writes of a vector destination in every active thread of a path. -/
def laneWrites (c : Ctx) (wide : Bool) (d : Nat) (x : Nat → Word) (st : Nat) : List RegWrite :=
  (activeIn c.ply.exm st).flatMap fun t => vecWrites wide d t (x t)

theorem mem_laneWrites {c : Ctx} {wide : Bool} {d : Nat} {x : Nat → Word} {q th : Nat} {y : VWord} :
    RegWrite.v q th y ∈ c.strands.flatMap (laneWrites c wide d x) ↔
      th ∈ c.active ∧ ((q = d ∧ y = (x th).setWidth 32) ∨ (wide = true ∧ q = d + 1 ∧ y = (x th >>> 32).setWidth 32)) := by
  simp only [List.mem_flatMap, laneWrites, mem_vecWrites, mem_active]
  constructor
  · rintro ⟨st, hs, t, ht, rfl, h⟩
    obtain ⟨rfl, hb⟩ := mem_activeIn.mp ht
    exact ⟨⟨hs, hb⟩, h⟩
  · rintro ⟨⟨hs, hb⟩, h⟩
    exact ⟨_, hs, th, mem_activeIn.mpr ⟨rfl, hb⟩, rfl, h⟩

/-- No lane write names an S register. -/
theorem laneWrites_no_s {c : Ctx} {wide : Bool} {d : Nat} {x : Nat → Word} {st r : Nat} {m v : Word} :
    RegWrite.s r m v ∉ laneWrites c wide d x st := by
  simp only [laneWrites, List.mem_flatMap, not_exists, not_and]
  intro t _ h
  cases wide <;> simp [vecWrites] at h

theorem threadsOk_lanes {c : Ctx} (hs : ∀ st ∈ c.strands, st < 16) (wide : Bool) (d : Nat) (x : Nat → Word) :
    threadsOk (c.strands.flatMap (laneWrites c wide d x)) := by
  intro r t y h
  have h1 := (mem_active.mp (mem_laneWrites.mp h).1).1
  have := hs _ h1
  omega

/-- The halves of a 64-bit value. -/
theorem halves (x : Word) : ((x >>> 32).setWidth 32 ++ x.setWidth 32 : BitVec 64) = x := by
  apply BitVec.eq_of_getLsbD_eq
  intro i hi
  refine (BitVec.getLsbD_append (x := (x >>> 32).setWidth 32) (y := x.setWidth 32) (i := i)).trans ?_
  by_cases h : i < 32
  · simp [h]
  · have e : 32 + (i - 32) = i := by omega
    have h2 : i - 32 < 32 := by omega
    simp [h, h2, e]

/-- What a lane-wise vector result leaves: the destination in every active thread, and everything else as before. -/
theorem finish_lanes {s : State} {c : Ctx} (f : Fields) (wide : Bool) (d : Nat) (x : Nat → Word) (fl : Nat → FFlags)
    (h : s.ctx? s.cur = some c) (hd : c.dist = false) (hdef : c.ply.curDefs = []) (hla : c.lookahead f = 0) :
    let t := c.finish f 0 (laneWrites c wide d x) fl s
    (∀ th ∈ c.active, c.vecIn t wide d th = if wide then x th else (x th).setWidth 32 |>.setWidth 64) ∧
    (∀ q th, th < 128 → (th ∉ c.active ∨ (q ≠ d ∧ ¬(wide = true ∧ q = d + 1))) → c.vIn t q th = c.ply.rdV q th) := by
  have hs := ctx_strands_lt h
  have ok := threadsOk_lanes hs wide d x
  refine ⟨?_, ?_⟩
  · intro th hth
    have low : c.vIn (c.finish f 0 (laneWrites c wide d x) fl s) d th = (x th).setWidth 32 := by
      rw [finish_vIn f _ fl h hd hdef hla]
      refine writesV_mem _ _ _ _ _ ok (mem_laneWrites.mpr ⟨hth, .inl ⟨rfl, rfl⟩⟩) ?_
      intro y hy
      obtain ⟨-, ⟨-, e⟩ | ⟨-, e, -⟩⟩ := mem_laneWrites.mp hy
      · exact e
      · omega
    cases wide
    · simp [Ctx.vecIn, low]
    · have high : c.vIn (c.finish f 0 (laneWrites c true d x) fl s) (d + 1) th = (x th >>> 32).setWidth 32 := by
        rw [finish_vIn f _ fl h hd hdef hla]
        refine writesV_mem _ _ _ _ _ ok (mem_laneWrites.mpr ⟨hth, .inr ⟨rfl, rfl, rfl⟩⟩) ?_
        intro y hy
        obtain ⟨-, ⟨e, -⟩ | ⟨-, -, e⟩⟩ := mem_laneWrites.mp hy
        · omega
        · exact e
      simp only [Ctx.vecIn, if_true, low, high]
      exact halves _
  · intro q th hth hq
    rw [finish_vIn f _ fl h hd hdef hla]
    refine writesV_other _ _ _ _ ok hth ?_
    intro y hy
    obtain ⟨ha, hb⟩ := mem_laneWrites.mp hy
    rcases hq with hq | ⟨h1, h2⟩
    · exact hq ha
    · rcases hb with ⟨e, -⟩ | ⟨e1, e2, -⟩
      · exact h1 e
      · exact h2 ⟨e1, e2⟩

/-- The S registers after the writes of a path in which no strand writes one. -/
theorem finish_sIn_none {s : State} {c : Ctx} (f : Fields) (ws : Nat → List RegWrite) (fl : Nat → FFlags)
    (h : s.ctx? s.cur = some c) (hd : c.dist = false) (hdef : c.ply.curDefs = []) (hla : c.lookahead f = 0)
    (hn : ∀ st r m v, RegWrite.s r m v ∉ ws st) (q st : Nat) : c.sIn (c.finish f 0 ws fl s) q st = c.ply.rdS q st := by
  simp only [Ctx.sIn, hd, Bool.false_eq_true, if_false, finish_ply? f ws fl h hd hdef hla, Option.map_some, Option.getD_some]
  have e : ∀ (l : List Nat) (p : Ply), (p.putAll l ws fl).s = p.s := by
    intro l
    induction l with
    | nil => intro p; rfl
    | cons a l ih =>
      intro p
      rw [Ply.putAll_s_cons, ih]
      simp only [Ply.bumpPos_s, Ply.putRegs_s]
      have : ∀ (ws' : List RegWrite) (m : Sparse 64), (∀ r m v, RegWrite.s r m v ∉ ws') → writesS a ws' m = m := by
        intro ws'
        induction ws' with
        | nil => intros; rfl
        | cons w ws' ih2 =>
          intro m hw
          have : writesS a (w :: ws') m = writesS a ws' (stepS a m w) := rfl
          rw [this, ih2 _ fun r m v hx => hw r m v (List.mem_cons_of_mem _ hx)]
          cases w with
          | s r' k x => exact absurd (List.mem_cons_self ..) (hw r' k x)
          | v r' k x => rfl
          | flags x => rfl
      exact this _ _ (hn a)
  simp [Ply.rdS, e]

/-- The flags after the writes of a path: those of every strand are ORed in (R141), when no strand replaces them. -/
theorem finish_flagsIn {s : State} {c : Ctx} (f : Fields) (ws : Nat → List RegWrite) (fl : Nat → FFlags)
    (h : s.ctx? s.cur = some c) (hd : c.dist = false) (hdef : c.ply.curDefs = []) (hla : c.lookahead f = 0)
    (hn : ∀ st v, RegWrite.flags v ∉ ws st) :
    c.flagsIn (c.finish f 0 ws fl s) = c.strands.foldl (fun a st => a ||| fl st) c.ply.flags := by
  simp only [Ctx.flagsIn, finish_ply? f ws fl h hd hdef hla, Option.map_some, Option.getD_some]
  have e1 : ∀ (st : Nat) (l : List RegWrite) (p : Ply), (∀ v, RegWrite.flags v ∉ l) → (l.foldl (Ply.put1 st) p).flags = p.flags := by
    intro st l
    induction l with
    | nil => intros; rfl
    | cons w l ih =>
      intro p hw
      rw [List.foldl_cons, ih _ fun v hx => hw v (List.mem_cons_of_mem _ hx)]
      cases w with
      | s r' k x => rfl
      | v r' k x => rfl
      | flags x => exact absurd (List.mem_cons_self ..) (hw x)
  have e : ∀ (l : List Nat) (p : Ply), (p.putAll l ws fl).flags = l.foldl (fun a st => a ||| fl st) p.flags := by
    intro l
    induction l with
    | nil => intro p; rfl
    | cons a l ih =>
      intro p
      rw [Ply.putAll_s_cons, ih, Ply.bumpPos_flags, Ply.putRegs_eq, List.foldl_cons]
      simp only [e1 _ _ _ (hn a)]
  exact e _ _

/-- EXM is unchanged by the end of an instruction. -/
theorem finish_exmIn {s : State} {c : Ctx} (f : Fields) (ws : Nat → List RegWrite) (fl : Nat → FFlags)
    (h : s.ctx? s.cur = some c) (hd : c.dist = false) (hdef : c.ply.curDefs = []) (hla : c.lookahead f = 0) :
    c.exmIn (c.finish f 0 ws fl s) = c.ply.exm := by
  simp [Ctx.exmIn, finish_ply? f ws fl h hd hdef hla]

/-- The lane-wise shape in the ordinary form. -/
theorem laneWise_vector {i : Instr} {r : OpRow} {f : Fields} {c : Ctx} {s : State} {ty : Fields → Ty}
    {g : Fields → Ctx → Word → Word → Word → Word × FFlags} {sp : Span} (hr : i.row = some r) (hu : f.u = false) (hd : c.dist = false)
    (hc : (c.classes i r f).1 = .vecDst sp) :
    laneWise i ty g f c s = .done (c.finish f 0
      (laneWrites c (spanWide sp f) f.d.toNat fun t =>
        (g f c (c.opnd (c.classes i r f).2.1 f f.a (t / 8) t) (c.opnd (c.classes i r f).2.2.1 f f.b (t / 8) t)
          (c.opnd (c.classes i r f).2.2.2 f f.c (t / 8) t)).1)
      (fun st => (activeIn c.ply.exm st).foldl (fun fl t => fl |||
        (g f c (c.opnd (c.classes i r f).2.1 f f.a st t) (c.opnd (c.classes i r f).2.2.1 f f.b st t)
          (c.opnd (c.classes i r f).2.2.2 f f.c st t)).2) 0) s) := by
  unfold laneWise
  simp only [hr, hu, hd, Bool.or_self, Bool.false_eq_true, if_false]
  congr 2
  funext st
  unfold laneWrites
  rw [hc]
  simp only [resultWrites]
  refine List.flatMap_congr fun t ht => ?_
  rw [(mem_activeIn.mp ht).1]

end Sys2Proof.Machine
end

