-- ==== Sys2Proof/Laws/PerInstr.lean ====
section
/-! SUPPORT. Per instruction: the opcode map and the decoder's table of opcodes agree. -/

namespace Sys2Proof.Laws.Opcode

/-- Where its word fields are right, the opcode and function of an instruction's row name that instruction, the map assigns the
opcode, and both fit their fields of the word (R84, R99). -/
def Statement (i : Instr) : Prop :=
  ∀ r f, i.row = some r → i.fields = some f → r.fieldsOk f = true →
    Instr.ofOp r.opc r.fn f = some i ∧ opcAssigned r.opc = true ∧ r.opc < 256 ∧ r.fn < 16

/-- From the row, where the opcode and function alone name the instruction. -/
theorem of_row {i : Instr} {r : OpRow} {f : Fields} (hr : i.row = some r) (hf : i.fields = some f)
    (ho : Instr.ofOp r.opc r.fn f = some i) (hb : (opcAssigned r.opc && decide (r.opc < 256) && decide (r.fn < 16)) = true) :
    Statement i := by
  intro r' f' h1 h2 _
  rw [hr] at h1; rw [hf] at h2
  cases h1; cases h2
  simp only [Bool.and_eq_true, decide_eq_true_eq] at hb
  exact ⟨ho, hb.1.1, hb.1.2, hb.2⟩

/-- From the row, where the word fields settle an M bit. -/
theorem of_ok {i : Instr} {r : OpRow} {f : Fields} (hr : i.row = some r) (hf : i.fields = some f)
    (ho : r.fieldsOk f = true → Instr.ofOp r.opc r.fn f = some i)
    (hb : (opcAssigned r.opc && decide (r.opc < 256) && decide (r.fn < 16)) = true) : Statement i := fun r' f' h1 h2 h3 => by
  rw [hr] at h1; rw [hf] at h2
  cases h1; cases h2
  exact of_row hr hf (ho h3) hb _ _ hr hf h3

/-- An event has no row. -/
theorem of_event {i : Instr} (h : i.row = none) : Statement i := by
  intro r f hr _ _
  rw [h] at hr
  cases hr

/-- The mask and the rule of a row, out of the check of its word fields. -/
theorem mask_of_ok {r : OpRow} {f : Fields} (h : r.fieldsOk f = true) : f.m &&& ~~~r.m = 0 := by
  simp only [OpRow.fieldsOk, Bool.and_eq_true, beq_iff_eq] at h
  exact h.1.1.1.1.1.1.2

theorem rule_of_ok {r : OpRow} {f : Fields} (h : r.fieldsOk f = true) : r.rule.ok f = true := by
  simp only [OpRow.fieldsOk, Bool.and_eq_true] at h
  exact h.2

/-- A bit outside the mask of a row is zero in its word. -/
theorem bit_zero {r : OpRow} {f : Fields} (h : r.fieldsOk f = true) (n : Nat) (hn : n < 8) (hk : r.m.getLsbD n = false) :
    f.m.getLsbD n = false := by
  have h' := congrArg (fun x : BitVec 8 => x.getLsbD n) (mask_of_ok h)
  rw [BitVec.getLsbD_and, BitVec.getLsbD_not, hk] at h'
  simpa [hn] using h'

/-- The three opcodes that carry two instructions. -/
theorem ofOp_copy (f : Fields) : Instr.ofOp 0xA0 0 f = some (if f.m.getLsbD 6 then .cpyMig f else .cpy f) := rfl
theorem ofOp_read (f : Fields) : Instr.ofOp 0xC2 0 f = some (if f.m.getLsbD 7 then .xrdQ f else .xrd f) := rfl
theorem ofOp_map (f : Fields) : Instr.ofOp 0xC9 0 f = some (if f.m.getLsbD 0 then .xmapWr f else .xmap f) := rfl

theorem nop (f : Fields) : Statement (.nop f) := of_row rfl rfl rfl rfl
theorem yield (f : Fields) : Statement (.yield f) := of_row rfl rfl rfl rfl
theorem halt (f : Fields) : Statement (.halt f) := of_row rfl rfl rfl rfl
theorem icsync (f : Fields) : Statement (.icsync f) := of_row rfl rfl rfl rfl
theorem bkpt (f : Fields) : Statement (.bkpt f) := of_row rfl rfl rfl rfl
theorem br (f : Fields) : Statement (.br f) := of_row rfl rfl rfl rfl
theorem brz (f : Fields) : Statement (.brz f) := of_row rfl rfl rfl rfl
theorem brnz (f : Fields) : Statement (.brnz f) := of_row rfl rfl rfl rfl
theorem jmpi (f : Fields) : Statement (.jmpi f) := of_row rfl rfl rfl rfl
theorem call (f : Fields) : Statement (.call f) := of_row rfl rfl rfl rfl
theorem ret (f : Fields) : Statement (.ret f) := of_row rfl rfl rfl rfl
theorem join (f : Fields) : Statement (.join f) := of_row rfl rfl rfl rfl
theorem exit (f : Fields) : Statement (.exit f) := of_row rfl rfl rfl rfl
theorem plyw (f : Fields) : Statement (.plyw f) := of_row rfl rfl rfl rfl
theorem msave (f : Fields) : Statement (.msave f) := of_row rfl rfl rfl rfl
theorem mset (f : Fields) : Statement (.mset f) := of_row rfl rfl rfl rfl
theorem mand (f : Fields) : Statement (.mand f) := of_row rfl rfl rfl rfl
theorem mor (f : Fields) : Statement (.mor f) := of_row rfl rfl rfl rfl
theorem mxor (f : Fields) : Statement (.mxor f) := of_row rfl rfl rfl rfl
theorem mnot (f : Fields) : Statement (.mnot f) := of_row rfl rfl rfl rfl
theorem trap (f : Fields) : Statement (.trap f) := of_row rfl rfl rfl rfl
theorem syscall (f : Fields) : Statement (.syscall f) := of_row rfl rfl rfl rfl
theorem eret (f : Fields) : Statement (.eret f) := of_row rfl rfl rfl rfl
theorem csrr (f : Fields) : Statement (.csrr f) := of_row rfl rfl rfl rfl
theorem csrw (f : Fields) : Statement (.csrw f) := of_row rfl rfl rfl rfl
theorem launch (f : Fields) : Statement (.launch f) := of_row rfl rfl rfl rfl
theorem iadd (f : Fields) : Statement (.iadd f) := of_row rfl rfl rfl rfl
theorem isub (f : Fields) : Statement (.isub f) := of_row rfl rfl rfl rfl
theorem imul (f : Fields) : Statement (.imul f) := of_row rfl rfl rfl rfl
theorem imulh (f : Fields) : Statement (.imulh f) := of_row rfl rfl rfl rfl
theorem imad (f : Fields) : Statement (.imad f) := of_row rfl rfl rfl rfl
theorem imin (f : Fields) : Statement (.imin f) := of_row rfl rfl rfl rfl
theorem imax (f : Fields) : Statement (.imax f) := of_row rfl rfl rfl rfl
theorem iabs (f : Fields) : Statement (.iabs f) := of_row rfl rfl rfl rfl
theorem and (f : Fields) : Statement (.and f) := of_row rfl rfl rfl rfl
theorem or (f : Fields) : Statement (.or f) := of_row rfl rfl rfl rfl
theorem xor (f : Fields) : Statement (.xor f) := of_row rfl rfl rfl rfl
theorem not (f : Fields) : Statement (.not f) := of_row rfl rfl rfl rfl
theorem shl (f : Fields) : Statement (.shl f) := of_row rfl rfl rfl rfl
theorem shr (f : Fields) : Statement (.shr f) := of_row rfl rfl rfl rfl
theorem sar (f : Fields) : Statement (.sar f) := of_row rfl rfl rfl rfl
theorem rol (f : Fields) : Statement (.rol f) := of_row rfl rfl rfl rfl
theorem ror (f : Fields) : Statement (.ror f) := of_row rfl rfl rfl rfl
theorem popc (f : Fields) : Statement (.popc f) := of_row rfl rfl rfl rfl
theorem clz (f : Fields) : Statement (.clz f) := of_row rfl rfl rfl rfl
theorem brev (f : Fields) : Statement (.brev f) := of_row rfl rfl rfl rfl
theorem bfe (f : Fields) : Statement (.bfe f) := of_row rfl rfl rfl rfl
theorem bfi (f : Fields) : Statement (.bfi f) := of_row rfl rfl rfl rfl
theorem sel (f : Fields) : Statement (.sel f) := of_row rfl rfl rfl rfl
theorem icmpEq (f : Fields) : Statement (.icmpEq f) := of_row rfl rfl rfl rfl
theorem icmpNe (f : Fields) : Statement (.icmpNe f) := of_row rfl rfl rfl rfl
theorem icmpLt (f : Fields) : Statement (.icmpLt f) := of_row rfl rfl rfl rfl
theorem icmpLe (f : Fields) : Statement (.icmpLe f) := of_row rfl rfl rfl rfl
theorem icmpGt (f : Fields) : Statement (.icmpGt f) := of_row rfl rfl rfl rfl
theorem icmpGe (f : Fields) : Statement (.icmpGe f) := of_row rfl rfl rfl rfl
theorem mov (f : Fields) : Statement (.mov f) := of_row rfl rfl rfl rfl
theorem movi (f : Fields) : Statement (.movi f) := of_row rfl rfl rfl rfl
theorem fadd (f : Fields) : Statement (.fadd f) := of_row rfl rfl rfl rfl
theorem fsub (f : Fields) : Statement (.fsub f) := of_row rfl rfl rfl rfl
theorem fmul (f : Fields) : Statement (.fmul f) := of_row rfl rfl rfl rfl
theorem ffma (f : Fields) : Statement (.ffma f) := of_row rfl rfl rfl rfl
theorem fmin (f : Fields) : Statement (.fmin f) := of_row rfl rfl rfl rfl
theorem fmax (f : Fields) : Statement (.fmax f) := of_row rfl rfl rfl rfl
theorem fcmpEq (f : Fields) : Statement (.fcmpEq f) := of_row rfl rfl rfl rfl
theorem fcmpNe (f : Fields) : Statement (.fcmpNe f) := of_row rfl rfl rfl rfl
theorem fcmpLt (f : Fields) : Statement (.fcmpLt f) := of_row rfl rfl rfl rfl
theorem fcmpLe (f : Fields) : Statement (.fcmpLe f) := of_row rfl rfl rfl rfl
theorem fcmpGt (f : Fields) : Statement (.fcmpGt f) := of_row rfl rfl rfl rfl
theorem fcmpGe (f : Fields) : Statement (.fcmpGe f) := of_row rfl rfl rfl rfl
theorem fcmpUo (f : Fields) : Statement (.fcmpUo f) := of_row rfl rfl rfl rfl
theorem fcmpOrd (f : Fields) : Statement (.fcmpOrd f) := of_row rfl rfl rfl rfl
theorem fsel (f : Fields) : Statement (.fsel f) := of_row rfl rfl rfl rfl
theorem frcp (f : Fields) : Statement (.frcp f) := of_row rfl rfl rfl rfl
theorem frsq (f : Fields) : Statement (.frsq f) := of_row rfl rfl rfl rfl
theorem fsqrt (f : Fields) : Statement (.fsqrt f) := of_row rfl rfl rfl rfl
theorem fexp2 (f : Fields) : Statement (.fexp2 f) := of_row rfl rfl rfl rfl
theorem flog2 (f : Fields) : Statement (.flog2 f) := of_row rfl rfl rfl rfl
theorem fsin (f : Fields) : Statement (.fsin f) := of_row rfl rfl rfl rfl
theorem fcos (f : Fields) : Statement (.fcos f) := of_row rfl rfl rfl rfl
theorem frnd (f : Fields) : Statement (.frnd f) := of_row rfl rfl rfl rfl
theorem cvt (f : Fields) : Statement (.cvt f) := of_row rfl rfl rfl rfl
theorem packPair (f : Fields) : Statement (.packPair f) := of_row rfl rfl rfl rfl
theorem packQuad (f : Fields) : Statement (.packQuad f) := of_row rfl rfl rfl rfl
theorem packOct (f : Fields) : Statement (.packOct f) := of_row rfl rfl rfl rfl
theorem unpkPair (f : Fields) : Statement (.unpkPair f) := of_row rfl rfl rfl rfl
theorem unpkQuad (f : Fields) : Statement (.unpkQuad f) := of_row rfl rfl rfl rfl
theorem unpkOct (f : Fields) : Statement (.unpkOct f) := of_row rfl rfl rfl rfl
theorem shflIdx (f : Fields) : Statement (.shflIdx f) := of_row rfl rfl rfl rfl
theorem shflUp (f : Fields) : Statement (.shflUp f) := of_row rfl rfl rfl rfl
theorem shflDown (f : Fields) : Statement (.shflDown f) := of_row rfl rfl rfl rfl
theorem shflXor (f : Fields) : Statement (.shflXor f) := of_row rfl rfl rfl rfl
theorem voteAll (f : Fields) : Statement (.voteAll f) := of_row rfl rfl rfl rfl
theorem voteAny (f : Fields) : Statement (.voteAny f) := of_row rfl rfl rfl rfl
theorem voteBallot (f : Fields) : Statement (.voteBallot f) := of_row rfl rfl rfl rfl
theorem voteEq (f : Fields) : Statement (.voteEq f) := of_row rfl rfl rfl rfl
theorem redAdd (f : Fields) : Statement (.redAdd f) := of_row rfl rfl rfl rfl
theorem redMin (f : Fields) : Statement (.redMin f) := of_row rfl rfl rfl rfl
theorem redMax (f : Fields) : Statement (.redMax f) := of_row rfl rfl rfl rfl
theorem redAnd (f : Fields) : Statement (.redAnd f) := of_row rfl rfl rfl rfl
theorem redOr (f : Fields) : Statement (.redOr f) := of_row rfl rfl rfl rfl
theorem redXor (f : Fields) : Statement (.redXor f) := of_row rfl rfl rfl rfl
theorem scanAdd (f : Fields) : Statement (.scanAdd f) := of_row rfl rfl rfl rfl
theorem scanMin (f : Fields) : Statement (.scanMin f) := of_row rfl rfl rfl rfl
theorem scanMax (f : Fields) : Statement (.scanMax f) := of_row rfl rfl rfl rfl
theorem scanAnd (f : Fields) : Statement (.scanAnd f) := of_row rfl rfl rfl rfl
theorem scanOr (f : Fields) : Statement (.scanOr f) := of_row rfl rfl rfl rfl
theorem scanXor (f : Fields) : Statement (.scanXor f) := of_row rfl rfl rfl rfl
theorem bcast (f : Fields) : Statement (.bcast f) := of_row rfl rfl rfl rfl
theorem rds (f : Fields) : Statement (.rds f) := of_row rfl rfl rfl rfl
theorem ld (f : Fields) : Statement (.ld f) := of_row rfl rfl rfl rfl
theorem st (f : Fields) : Statement (.st f) := of_row rfl rfl rfl rfl
theorem ldu (f : Fields) : Statement (.ldu f) := of_row rfl rfl rfl rfl
theorem pref (f : Fields) : Statement (.pref f) := of_row rfl rfl rfl rfl
theorem atomAdd (f : Fields) : Statement (.atomAdd f) := of_row rfl rfl rfl rfl
theorem atomMin (f : Fields) : Statement (.atomMin f) := of_row rfl rfl rfl rfl
theorem atomMax (f : Fields) : Statement (.atomMax f) := of_row rfl rfl rfl rfl
theorem atomAnd (f : Fields) : Statement (.atomAnd f) := of_row rfl rfl rfl rfl
theorem atomOr (f : Fields) : Statement (.atomOr f) := of_row rfl rfl rfl rfl
theorem atomXor (f : Fields) : Statement (.atomXor f) := of_row rfl rfl rfl rfl
theorem atomXchg (f : Fields) : Statement (.atomXchg f) := of_row rfl rfl rfl rfl
theorem atomCas (f : Fields) : Statement (.atomCas f) := of_row rfl rfl rfl rfl
theorem atomInc (f : Fields) : Statement (.atomInc f) := of_row rfl rfl rfl rfl
theorem mredAdd (f : Fields) : Statement (.mredAdd f) := of_row rfl rfl rfl rfl
theorem mredMin (f : Fields) : Statement (.mredMin f) := of_row rfl rfl rfl rfl
theorem mredMax (f : Fields) : Statement (.mredMax f) := of_row rfl rfl rfl rfl
theorem mredAnd (f : Fields) : Statement (.mredAnd f) := of_row rfl rfl rfl rfl
theorem mredOr (f : Fields) : Statement (.mredOr f) := of_row rfl rfl rfl rfl
theorem mredXor (f : Fields) : Statement (.mredXor f) := of_row rfl rfl rfl rfl
theorem mredInc (f : Fields) : Statement (.mredInc f) := of_row rfl rfl rfl rfl
theorem bara (f : Fields) : Statement (.bara f) := of_row rfl rfl rfl rfl
theorem barw (f : Fields) : Statement (.barw f) := of_row rfl rfl rfl rfl
theorem barx (f : Fields) : Statement (.barx f) := of_row rfl rfl rfl rfl
theorem tbar (f : Fields) : Statement (.tbar f) := of_row rfl rfl rfl rfl
theorem fenceQ (f : Fields) : Statement (.fenceQ f) := of_row rfl rfl rfl rfl
theorem fenceSys (f : Fields) : Statement (.fenceSys f) := of_row rfl rfl rfl rfl
theorem tokenGet (f : Fields) : Statement (.tokenGet f) := of_row rfl rfl rfl rfl
theorem tokenPut (f : Fields) : Statement (.tokenPut f) := of_row rfl rfl rfl rfl
theorem dqpush (f : Fields) : Statement (.dqpush f) := of_row rfl rfl rfl rfl
theorem dqpop (f : Fields) : Statement (.dqpop f) := of_row rfl rfl rfl rfl
theorem evpop (f : Fields) : Statement (.evpop f) := of_row rfl rfl rfl rfl
theorem vfpush (f : Fields) : Statement (.vfpush f) := of_row rfl rfl rfl rfl
theorem vfpop (f : Fields) : Statement (.vfpop f) := of_row rfl rfl rfl rfl
theorem vfcnt (f : Fields) : Statement (.vfcnt f) := of_row rfl rfl rfl rfl
theorem cpy (f : Fields) : Statement (.cpy f) := of_ok rfl rfl (fun h => by
  have hb := bit_zero h 6 (by decide) rfl
  exact (ofOp_copy f).trans (by rw [hb]; rfl)) rfl
theorem cpyMig (f : Fields) : Statement (.cpyMig f) := of_ok rfl rfl (fun h => by
  have hb : f.m.getLsbD 6 = true := rule_of_ok h
  exact (ofOp_copy f).trans (by rw [hb]; rfl)) rfl
theorem cpyc (f : Fields) : Statement (.cpyc f) := of_row rfl rfl rfl rfl
theorem cpyg (f : Fields) : Statement (.cpyg f) := of_row rfl rfl rfl rfl
theorem cpys (f : Fields) : Statement (.cpys f) := of_row rfl rfl rfl rfl
theorem cpyk (f : Fields) : Statement (.cpyk f) := of_row rfl rfl rfl rfl
theorem stage (f : Fields) : Statement (.stage f) := of_row rfl rfl rfl rfl
theorem qfence (f : Fields) : Statement (.qfence f) := of_row rfl rfl rfl rfl
theorem tcfg (f : Fields) : Statement (.tcfg f) := of_row rfl rfl rfl rfl
theorem tld (f : Fields) : Statement (.tld f) := of_row rfl rfl rfl rfl
theorem tst (f : Fields) : Statement (.tst f) := of_row rfl rfl rfl rfl
theorem tzero (f : Fields) : Statement (.tzero f) := of_row rfl rfl rfl rfl
theorem mma (f : Fields) : Statement (.mma f) := of_row rfl rfl rfl rfl
theorem mmas (f : Fields) : Statement (.mmas f) := of_row rfl rfl rfl rfl
theorem mmax (f : Fields) : Statement (.mmax f) := of_row rfl rfl rfl rfl
theorem tcvt (f : Fields) : Statement (.tcvt f) := of_row rfl rfl rfl rfl
theorem srfence (f : Fields) : Statement (.srfence f) := of_row rfl rfl rfl rfl
theorem xg (f : Fields) : Statement (.xg f) := of_row rfl rfl rfl rfl
theorem xgP (f : Fields) : Statement (.xgP f) := of_row rfl rfl rfl rfl
theorem xinit (f : Fields) : Statement (.xinit f) := of_row rfl rfl rfl rfl
theorem xrd (f : Fields) : Statement (.xrd f) := of_ok rfl rfl (fun h => by
  have hb := bit_zero h 7 (by decide) rfl
  exact (ofOp_read f).trans (by rw [hb]; rfl)) rfl
theorem xrdQ (f : Fields) : Statement (.xrdQ f) := of_ok rfl rfl (fun h => by
  have hb : f.m.getLsbD 7 = true := by
    have h2 := rule_of_ok h
    exact eq_of_beq (Bool.and_eq_true_iff.mp h2).1
  exact (ofOp_read f).trans (by rw [hb]; rfl)) rfl
theorem xwr (f : Fields) : Statement (.xwr f) := of_row rfl rfl rfl rfl
theorem xfill (f : Fields) : Statement (.xfill f) := of_row rfl rfl rfl rfl
theorem xwin (f : Fields) : Statement (.xwin f) := of_row rfl rfl rfl rfl
theorem xration (f : Fields) : Statement (.xration f) := of_row rfl rfl rfl rfl
theorem xrun (f : Fields) : Statement (.xrun f) := of_row rfl rfl rfl rfl
theorem xstat (f : Fields) : Statement (.xstat f) := of_row rfl rfl rfl rfl
theorem xmap (f : Fields) : Statement (.xmap f) := of_ok rfl rfl (fun h => by
  have hb := bit_zero h 0 (by decide) rfl
  exact (ofOp_map f).trans (by rw [hb]; rfl)) rfl
theorem xmapWr (f : Fields) : Statement (.xmapWr f) := of_ok rfl rfl (fun h => by
  have hb : f.m.getLsbD 0 = true := eq_of_beq (rule_of_ok h)
  exact (ofOp_map f).trans (by rw [hb]; rfl)) rfl
theorem launchOfferAccepted : Statement .launchOfferAccepted := of_event rfl
theorem dependenceObserved (acc k : Nat) : Statement (.dependenceObserved acc k) := of_event rfl
theorem dealSkeins (acc : Nat) : Statement (.dealSkeins acc) := of_event rfl
theorem dispatchDecision (frame : Nat) : Statement (.dispatchDecision frame) := of_event rfl
theorem deterministicPlace (acc : Nat) : Statement (.deterministicPlace acc) := of_event rfl
theorem baseSpindlePlace (acc : Nat) : Statement (.baseSpindlePlace acc) := of_event rfl
theorem stealRequest (sp victim : Nat) : Statement (.stealRequest sp victim) := of_event rfl
theorem stealAnswer (sp : Nat) : Statement (.stealAnswer sp) := of_event rfl
theorem skeinRetire (sp slot : Nat) : Statement (.skeinRetire sp slot) := of_event rfl
theorem launchOutcomeWrite (acc : Nat) : Statement (.launchOutcomeWrite acc) := of_event rfl
theorem longLatencyLanding (p : Party) : Statement (.longLatencyLanding p) := of_event rfl
theorem joinMerge (sp slot ply : Nat) : Statement (.joinMerge sp slot ply) := of_event rfl
theorem queueCreditRetry (p : Party) : Statement (.queueCreditRetry p) := of_event rfl
theorem driftStep (sp : Nat) (m : Monitor) : Statement (.driftStep sp m) := of_event rfl
theorem intervalBoundary (die : Nat) (est : List Nat) (power : Nat) : Statement (.intervalBoundary die est power) := of_event rfl
theorem heldAccessRetry (t : RetryTarget) : Statement (.heldAccessRetry t) := of_event rfl
theorem sideLogReplay (p : Party) : Statement (.sideLogReplay p) := of_event rfl
theorem mmuShootdown (p : Party) (v : BitVec 64) : Statement (.mmuShootdown p v) := of_event rfl
theorem mmuWake (p : Party) (v : BitVec 64) : Statement (.mmuWake p v) := of_event rfl
theorem mmuFqWrite (p : Party) (v : BitVec 64) : Statement (.mmuFqWrite p v) := of_event rfl
theorem fqptrTailWrite (p : Party) (v : BitVec 64) : Statement (.fqptrTailWrite p v) := of_event rfl
theorem hotcfgWrite (p : Party) (v : BitVec 64) : Statement (.hotcfgWrite p v) := of_event rfl
theorem hotThreshold (die block slot : Nat) : Statement (.hotThreshold die block slot) := of_event rfl
theorem hotDecay : Statement .hotDecay := of_event rfl
theorem memCfgWrite (p : Party) (v : BitVec 64) : Statement (.memCfgWrite p v) := of_event rfl
theorem mcFrbaseWrite (p : Party) (v : BitVec 64) : Statement (.mcFrbaseWrite p v) := of_event rfl
theorem rcbsyncWrite (p : Party) (v : BitVec 64) : Statement (.rcbsyncWrite p v) := of_event rfl
theorem remoteAccessArrival (a : Arrival) : Statement (.remoteAccessArrival a) := of_event rfl
theorem remoteReplyArrival (id : Nat) : Statement (.remoteReplyArrival id) := of_event rfl
theorem remoteReplyTimeout (sp slot : Nat) : Statement (.remoteReplyTimeout sp slot) := of_event rfl
theorem gddrRetrain (dev : Nat) (lowMargin : Bool) : Statement (.gddrRetrain dev lowMargin) := of_event rfl
theorem retrainEnd : Statement .retrainEnd := of_event rfl
theorem copyCmdStart (e : Engine) (q : Nat) (err : MemErr) : Statement (.copyCmdStart e q err) := of_event rfl
theorem copyCmdComplete (e : Engine) (q : Nat) : Statement (.copyCmdComplete e q) := of_event rfl
theorem matrixCmdStart (sp : Nat) : Statement (.matrixCmdStart sp) := of_event rfl
theorem matrixStep (sp : Nat) (errs : List TileErr) : Statement (.matrixStep sp errs) := of_event rfl
theorem matrixCmdComplete (sp : Nat) : Statement (.matrixCmdComplete sp) := of_event rfl
theorem xqCmdStart (sp : Nat) (xre : Bool) : Statement (.xqCmdStart sp xre) := of_event rfl
theorem xbarWritePhase (sp : Nat) (xre : Bool) : Statement (.xbarWritePhase sp xre) := of_event rfl
theorem xqCmdComplete (sp : Nat) : Statement (.xqCmdComplete sp) := of_event rfl
theorem xrdAdmit (sp : Nat) (xre : Bool) : Statement (.xrdAdmit sp xre) := of_event rfl
theorem xwrPerform (sp : Nat) : Statement (.xwrPerform sp) := of_event rfl
theorem barrierWaitEnd (p : Party) : Statement (.barrierWaitEnd p) := of_event rfl
theorem tbarRelease (tag : Nat) : Statement (.tbarRelease tag) := of_event rfl
theorem dqpopDeliver (p : Party) : Statement (.dqpopDeliver p) := of_event rfl
theorem evpopDeliver (p : Party) : Statement (.evpopDeliver p) := of_event rfl
theorem vfifoWaitEnd (p : Party) : Statement (.vfifoWaitEnd p) := of_event rfl
theorem tokenArrive (acc : Nat) : Statement (.tokenArrive acc) := of_event rfl
theorem takeTrap (p : Party) : Statement (.takeTrap p) := of_event rfl
theorem trapPlyEnd (p : Party) (v : BitVec 64) : Statement (.trapPlyEnd p v) := of_event rfl
theorem trapPlyStop (p : Party) (v : BitVec 64) : Statement (.trapPlyStop p v) := of_event rfl
theorem trapPlyRun (p : Party) (v : BitVec 64) : Statement (.trapPlyRun p v) := of_event rfl
theorem trapRdatWrite (p : Party) (v : BitVec 64) : Statement (.trapRdatWrite p v) := of_event rfl
theorem preemptHold (p : Party) (v : BitVec 64) : Statement (.preemptHold p v) := of_event rfl
theorem preemptRelease (p : Party) (v : BitVec 64) : Statement (.preemptRelease p v) := of_event rfl
theorem skeinHalted (sp slot : Nat) : Statement (.skeinHalted sp slot) := of_event rfl
theorem contextSaved (sp slot : Nat) : Statement (.contextSaved sp slot) := of_event rfl
theorem skeinResume (sp k : Nat) : Statement (.skeinResume sp k) := of_event rfl
theorem dbgRelease (p : Party) (v : BitVec 64) : Statement (.dbgRelease p v) := of_event rfl
theorem acctStringWrite (p : Party) (v : BitVec 64) : Statement (.acctStringWrite p v) := of_event rfl
theorem sampleTick : Statement .sampleTick := of_event rfl
theorem replayDeliver (core : Nat) : Statement (.replayDeliver core) := of_event rfl
theorem syncBsqWrite (p : Party) (v : BitVec 64) : Statement (.syncBsqWrite p v) := of_event rfl
theorem frameEnterA1 (frame : Nat) : Statement (.frameEnterA1 frame) := of_event rfl
theorem frameEnterA2 (frame : Nat) : Statement (.frameEnterA2 frame) := of_event rfl
theorem dieEnterA3 (die : Nat) : Statement (.dieEnterA3 die) := of_event rfl
theorem packageA4Request (p : Party) (v : BitVec 64) : Statement (.packageA4Request p v) := of_event rfl
theorem a4Exit : Statement .a4Exit := of_event rfl
theorem unitWake (frame : Nat) : Statement (.unitWake frame) := of_event rfl
theorem wakeComplete (frame : Nat) : Statement (.wakeComplete frame) := of_event rfl
theorem pwrForceGate (p : Party) (v : BitVec 64) : Statement (.pwrForceGate p v) := of_event rfl
theorem pwrForceClear (p : Party) (v : BitVec 64) : Statement (.pwrForceClear p v) := of_event rfl
theorem gateIngressClose (frame : Nat) : Statement (.gateIngressClose frame) := of_event rfl
theorem computeDieResetRelease (die : Nat) : Statement (.computeDieResetRelease die) := of_event rfl
theorem packageReset : Statement .packageReset := of_event rfl
theorem bootImageFetched (payload sig : List (BitVec 8)) : Statement (.bootImageFetched payload sig) := of_event rfl
theorem bootRetry : Statement .bootRetry := of_event rfl
theorem secExtend (p : Party) (v : BitVec 64) : Statement (.secExtend p v) := of_event rfl
theorem secAttest (p : Party) (v : BitVec 64) : Statement (.secAttest p v) := of_event rfl
theorem ethReceive (port : Nat) (frame : List (BitVec 8)) : Statement (.ethReceive port frame) := of_event rfl
theorem ethTransmit (port : Nat) : Statement (.ethTransmit port) := of_event rfl
theorem hostAccess (off n : Nat) (w : Option (BitVec 64)) : Statement (.hostAccess off n w) := of_event rfl
theorem linkStateChange (link : Nat) (up : Bool) (lanes peer : Nat) : Statement (.linkStateChange link up lanes peer) := of_event rfl
theorem linkCrcRetry (link : Nat) : Statement (.linkCrcRetry link) := of_event rfl
theorem linkStatWrite (p : Party) (v : BitVec 64) : Statement (.linkStatWrite p v) := of_event rfl
theorem privateLineEviction (sp slot ply line : Nat) : Statement (.privateLineEviction sp slot ply line) := of_event rfl
theorem gddrTrainingDone (dev : Nat) : Statement (.gddrTrainingDone dev) := of_event rfl
theorem ethernetPortStateChange (port : Nat) (up : Bool) : Statement (.ethernetPortStateChange port up) := of_event rfl
theorem hostPortTrained : Statement .hostPortTrained := of_event rfl

end Sys2Proof.Laws.Opcode
end

