-- ==== Sys2Proof/Laws/Timed.lean ====
section
/-! SUPPORT. What comes at a fixed time and is never passed over (R369, R378), and what a skein's leaving changes besides its slot (R82, R369). -/

namespace Sys2Proof.Machine

/-- A sample is never due before now. -/
theorem sampleDue_ge {s : State} {t : Nat} (h : s.sampleDue = some t) : s.time ≤ t := by
  unfold State.sampleDue at h
  simp only at h
  split at h
  · simp at h
  · rename_i p
    split at h
    · simp at h; omega
    · simp only [Option.some.injEq] at h
      subst h
      have pos : 0 < 100 * fld s.samp 16 16 := by
        simp only [Bool.or_eq_true, decide_eq_true_eq, not_or] at p
        omega
      exact Nat.le_of_lt (Nat.lt_mul_of_div_lt (Nat.lt_succ_self _) pos)

/-- The least of a list is at most each of its members. -/
theorem leastOf_le {α : Type} (g : α → Nat) : ∀ {l : List α} {b x : α}, leastOf g l = some b → x ∈ l → g b ≤ g x := by
  intro l b x h hx
  have fold : ∀ (l : List α) (b : α), g (l.foldl (fun b x => if g x < g b then x else b) b) ≤ g b ∧
      ∀ x ∈ l, g (l.foldl (fun b x => if g x < g b then x else b) b) ≤ g x := by
    intro l
    induction l with
    | nil => simp
    | cons a l ih =>
      intro b
      have := ih (if g a < g b then a else b)
      refine ⟨?_, fun x hx => ?_⟩
      · refine this.1.trans ?_; split <;> omega
      · rcases List.mem_cons.1 hx with rfl | hx
        · refine this.1.trans ?_; split <;> omega
        · exact this.2 x hx
  cases l with
  | nil => simp [leastOf] at h
  | cons a l =>
    simp only [leastOf, Option.some.injEq] at h
    subst h
    rcases List.mem_cons.1 hx with rfl | hx
    · exact (fold l x).1
    · exact (fold l a).2 x hx

/-- The earliest of a list, where it comes before a time, or else that time, is at most each of the list's. -/
theorem leastOf_filter_le {l : List (Nat × Action)} {t : Nat} {x : Nat × Action} (h : x ∈ l) :
    (match (leastOf Prod.fst l).filter fun y => decide (y.1 < t) with | some y => y.1 | none => t) ≤ x.1 := by
  obtain ⟨b, hb⟩ : ∃ b, leastOf Prod.fst l = some b := by
    cases l with
    | nil => simp at h
    | cons a l => exact ⟨_, rfl⟩
  have le := leastOf_le Prod.fst hb h
  by_cases lt : b.1 < t
  · simpa [hb, Option.filter, lt] using le
  · simp [hb, Option.filter, lt]; omega

/-- Nothing happens past what comes at a fixed time. -/
theorem upNext_time_le {s : State} {x : Nat × Action} (h : x ∈ s.startBase.timed) : s.upNext.2.time ≤ x.1 := by
  unfold State.upNext
  cases ag : s.startBase.agenda with
  | nil =>
    have := leastOf_filter_le (t := s.startBase.time + Config.elapsed s.startBase.tick) h
    simp only [ag]
    split <;> simp_all
  | cons y rest =>
    have := leastOf_filter_le (t := s.startBase.time + y.1) h
    simp only [ag]
    split <;> simp_all

theorem lastPath_slots (s : State) (sp q : Nat) (p : Option LastPath) :
    ((s.modSpindle sp fun x => { x with lastPath := p }).spindle q).slots = (s.spindle q).slots :=
  modSpindle_spindle_slots (by intro _; rfl) q

/-- Keeping the path that issued last changes no skein. -/
@[simp] theorem keepLast_skein? (s : State) (sp slot q j : Nat) : (s.keepLast sp slot).skein? q j = s.skein? q j := by
  unfold State.keepLast
  split
  · split
    · exact congrArg (fun l => nth l j none) (lastPath_slots s sp q _)
    · rfl
  · rfl

/-- It changes spindles only. -/
theorem keepLast_outside (s : State) (sp slot : Nat) : ∃ x, s.keepLast sp slot = { s with spindles := x } := by
  unfold State.keepLast
  split
  · split
    · exact ⟨_, rfl⟩
    · exact ⟨_, rfl⟩
  · exact ⟨_, rfl⟩

/-- The wait for a lowered budget is kept with the blocks alone. -/
theorem unlower_outside (s : State) : ∃ r, s.unlower = { s with rcbs := r } := ⟨_, rfl⟩

theorem lowered_outside (s old : State) : ∃ r, s.lowered old = { s with rcbs := r } := ⟨_, rfl⟩

@[simp] theorem unlower_skein? (s : State) (q j : Nat) : s.unlower.skein? q j = s.skein? q j := rfl

end Sys2Proof.Machine
end

