-- ==== Sys2Proof/Tests/Slice0.lean ====
section
/-! SUPPORT. Tests: words of the spec decode to what they stand for, a malformed term for each check is refused, and for every statement
a state and operands that meet its hypotheses. -/

open Sys2Proof Sys2Proof.Machine Sys2Proof.Claims

namespace Sys2Proof.Tests

set_option Elab.async false
set_option synthInstance.maxSize 512

/-! ## Decoding: words written out in the spec -/

abbrev fl (tc : BitVec 2) (ty : Ty) (d a b c m : BitVec 8) : Fields := { tc, la := 0, u := false, ty, d, a, b, c, m, x := none }

-- R188, R319, R210: EXIT, FENCE.sys, FENCE.q 0x11, CSRW trap.ply, K15
theorem test_decode_control : decode 0x0310000000000000 0 = .instr (.exit (fl 0 .b32 0 0 0 0 0)) := by decide
theorem test_decode_fence : decode 0x9410000000000000 0 = .instr (.fenceSys (fl 0 .b32 0 0 0 0 0)) := by decide
theorem test_decode_fenceq : decode 0x9400000000000011 0 = .instr (.fenceQ (fl 0 .b32 0 0 0 0 0x11)) := by decide
theorem test_decode_csrw : decode 0x061000008F050400 0 = .instr (.csrw (fl 0 .b32 0 0x8F 0x05 0x04 0)) := by decide
-- R160, R168, R164: ICMP.ne.b32 S4, V7, 0; FRSQ.f32 V15, V15; FFMA.f32 V5, V11, S26, V12
theorem test_decode_integer : decode 0x2510000407000080 0 = .instr (.icmpNe (fl 0 .b32 0x04 0x07 0 0 0x80)) := by decide
theorem test_decode_frsq : decode 0x3908080F0F000000 0 = .instr (.frsq (fl 2 .f32 0x0F 0x0F 0 0 0)) := by decide
theorem test_decode_ffma : decode 0x330408050B1A0C40 0 = .instr (.ffma (fl 1 .f32 0x05 0x0B 0x1A 0x0C 0x40)) := by decide
-- R175: SHFL.xor.b32 V9, V4, S27
theorem test_decode_lane : decode 0x60340009041B0040 0 = .instr (.shflXor (fl 1 .b32 0x09 0x04 0x1B 0 0x40)) := by decide
-- R192: ST.b32.p V2, [S22]; LDU.b32.g S10, [S0]; LD.b32.p V5, [S31 + V6.zx*4]
theorem test_decode_store : decode 0x7104000216000003 0 = .instr (.st (fl 1 .b32 0x02 0x16 0 0 0x03)) := by decide
theorem test_decode_ldu : decode 0x7204000A00000000 0 = .instr (.ldu (fl 1 .b32 0x0A 0 0 0 0)) := by decide
theorem test_decode_load : decode 0x700400051F060027 0 = .instr (.ld (fl 1 .b32 0x05 0x1F 0x06 0 0x27)) := by decide
-- R331: VFPUSH V4, K0; VFPOP V6, K0; VFCNT S8, K0
theorem test_decode_vfpush : decode 0x9900000004800000 0 = .instr (.vfpush (fl 0 .b32 0 0x04 0x80 0 0)) := by decide
theorem test_decode_vfpop : decode 0x9A00000600800000 0 = .instr (.vfpop (fl 0 .b32 0x06 0 0x80 0 0)) := by decide
theorem test_decode_vfcnt : decode 0x9B00000800800000 0 = .instr (.vfcnt (fl 0 .b32 0x08 0 0x80 0 0)) := by decide
-- R260, R266: the worked CPYC; TCFG T0, D6, D6; MMA.bf16 T2, T0, T1, D13
theorem test_decode_cpyc : decode 0xA100000C0D090A0C 0 = .instr (.cpyc (fl 0 .b32 0x0C 0x0D 0x09 0x0A 0x0C)) := by decide
theorem test_decode_tcfg : decode 0xB000000006060000 0 = .instr (.tcfg (fl 0 .b32 0 0x06 0x06 0 0)) := by decide
theorem test_decode_mma : decode 0xB4040C0200010D00 0 = .instr (.mma (fl 1 .bf16 0x02 0 0x01 0x0D 0)) := by decide
-- R301, R309: XINIT.ca s7, 1; XRUN D9, D8, K0
theorem test_decode_xinit : decode 0xC100000700000041 0 = .instr (.xinit (fl 0 .b32 0x07 0 0 0 0x41)) := by decide
theorem test_decode_xrun : decode 0xC700000009088000 0 = .instr (.xrun (fl 0 .b32 0 0x09 0x08 0x80 0)) := by decide
-- R83: the words of an encoded instruction with an extension word, as bytes in memory order
theorem test_decode_extension : decodeBytes ((encode (.movi { fl 0 .b32 0x04 0 0 0 0 with x := some 0x12345678 })).flatMap wordBytes) =
    .instr (.movi { fl 0 .b32 0x04 0 0 0 0 with x := some 0x12345678 }) := by decide
-- R100: the little-endian bytes of the worked FFMA
theorem test_bytes : wordBytes 0x3308080802030801 = [0x01, 0x08, 0x03, 0x02, 0x08, 0x08, 0x08, 0x33] := by decide

/-! ## The checks refuse malformed terms -/

-- R84: an unused field that is not zero, an M bit that no entry names, lookahead, U and TY where the row has none
theorem test_wf_ok : (Instr.iadd (fl 0 .b32 4 2 3 0 0)).wf = true := by decide
theorem test_wf_unused : (Instr.iadd (fl 0 .b32 4 2 3 1 0)).wf = false := by decide
theorem test_wf_m : (Instr.iadd (fl 0 .b32 4 2 3 0 0x02)).wf = false := by decide
theorem test_wf_la : (Instr.iadd { fl 0 .b32 4 2 3 0 0 with la := 1 }).wf = false := by decide
theorem test_wf_u : (Instr.nop { fl 0 .b32 0 0 0 0 0 with u := true }).wf = false := by decide
theorem test_wf_ty : (Instr.iadd (fl 0 .f32 4 2 3 0 0)).wf = false := by decide
theorem test_wf_x : (Instr.iadd { fl 0 .b32 4 2 3 0 0 with x := some 0 }).wf = false := by decide
theorem test_wf_x_missing : (Instr.movi (fl 0 .b32 4 0 0 0 0)).wf = false := by decide
-- R150: SRC 3, and SRC 1 with U
theorem test_wf_src : (Instr.iadd (fl 0 .b32 4 2 3 0 0xC0)).wf = false := by decide
theorem test_wf_src_u : (Instr.iadd { fl 0 .b32 4 2 3 0 0x40 with u := true }).wf = false := by decide
-- the entries' own rules: R157, R162, R170, R171, R180, R184, R210, R192, R202, R319, R255, R243, R252, R266, R278, R300, R301, R299
theorem test_wf_bfe : (Instr.bfe (fl 0 .b32 4 2 0 16 17)).wf = false := by decide
theorem test_wf_movi : (Instr.movi { fl 0 .b32 4 0 0 0 0 with x := some 0x100000000 }).wf = false := by decide
theorem test_wf_cvt : (Instr.cvt (fl 0 .b32 4 2 0 0 0xF0)).wf = false := by decide
theorem test_wf_pack : (Instr.packPair (fl 0 .b16 4 2 0 0 1)).wf = false := by decide
theorem test_wf_rds : (Instr.rds (fl 0 .b32 4 0 0 0 0x0E)).wf = false := by decide
theorem test_wf_brz : (Instr.brz (fl 0 .b32 2 0 0 0 0)).wf = false := by decide
theorem test_wf_csr : (Instr.csrr (fl 0 .b32 4 0 0x05 0x03 0)).wf = false := by decide
theorem test_wf_memory : (Instr.ld (fl 0 .b32 4 2 1 0 0)).wf = false := by decide
theorem test_wf_prefetch : (Instr.pref (fl 0 .b32 3 2 0 0 0)).wf = false := by decide
theorem test_wf_fence : (Instr.fenceQ (fl 0 .b32 0 0 0 0 0)).wf = false := by decide
theorem test_wf_qfence : (Instr.qfence (fl 0 .b32 0 0 0 0 0x10)).wf = false := by decide
theorem test_wf_copy : (Instr.cpyg (fl 0 .b32 4 2 3 5 0x08)).wf = false := by decide
theorem test_wf_migrate : (Instr.cpyMig (fl 0 .b32 4 2 3 5 0)).wf = false := by decide
theorem test_wf_scaled : (Instr.mmas (fl 0 .bf16 4 2 3 5 0x40)).wf = false := by decide
theorem test_wf_tcvt : (Instr.tcvt (fl 0 .f32 4 2 0 5 0)).wf = false := by decide
theorem test_wf_gate : (Instr.xg (fl 0 .b32 0x40 1 2 0 8)).wf = false := by decide
theorem test_wf_preset : (Instr.xinit (fl 0 .b32 0x40 0 0 0 0)).wf = false := by decide
theorem test_wf_xread : (Instr.xrd (fl 0 .b32 4 2 1 0 0)).wf = false := by decide
theorem test_wf_xmap : (Instr.xmapWr (fl 0 .b32 0 2 3 0 0)).wf = false := by decide
-- an event at a unit that no part has
theorem test_wf_party : (Instr.takeTrap (.path 0 4 0 0)).wf = false := by decide
theorem test_wf_spindle : (Instr.stealAnswer 256).wf = false := by decide
theorem test_wf_size : (Instr.hostAccess 0 3 none).wf = false := by decide
theorem test_wf_signature : (Instr.bootImageFetched [] []).wf = false := by decide

/-! ## States that statements speak of -/

/-- Whether an instruction takes effect at a state, with a condition on what statements name there. -/
def issuesB (i : Instr) (s : State) (P : OpRow → Fields → Ctx → State → Bool) : Bool :=
  match i.row, i.fields, s.ctx? s.cur with
  | some r, some f, some c0 =>
    i.fieldsOk && (c0.checks s i r f).isNone &&
    (match (c0.landed s).ctx? (c0.landed s).cur with
     | some c => !c.waits (c.keys i r f) && !c.defersFull i r f && c.pending.isEmpty && P r f c (c0.landed s)
     | none => false)
  | _, _, _ => false

/-- A state where the check holds is a witness. -/
theorem issues_of {i : Instr} {s : State} {P : OpRow → Fields → Ctx → State → Prop} [∀ r f c s1, Decidable (P r f c s1)]
    (hb : issuesB i s (fun r f c s1 => decide (P r f c s1)) = true) : ∃ r f c s1, Issues i r f s c s1 ∧ P r f c s1 := by
  unfold issuesB at hb
  split at hb
  · rename_i r f c0 hr hf hc0
    simp only [Bool.and_eq_true] at hb
    obtain ⟨⟨hok, hch⟩, hb⟩ := hb
    split at hb
    · rename_i c hc
      simp only [Bool.and_eq_true, Bool.not_eq_true', decide_eq_true_eq, List.isEmpty_iff] at hb
      exact ⟨r, f, c, _, ⟨hr, hf, hok, ⟨c0, hc0, Option.isNone_iff_eq_none.mp hch, rfl⟩, hc, hb.1.1.1, hb.1.1.2, hb.1.2⟩, hb.2⟩
    · cases hb
  · cases hb

/-- The same for conditions on the party's context at a state. -/
theorem ctx_of {p : Party} {s : State} {P : Ctx → Prop} [∀ c, Decidable (P c)]
    (hb : (match s.ctx? p with | some c => decide (P c) | none => false) = true) : ∃ c, s.ctx? p = some c ∧ P c := by
  split at hb
  · rename_i c hc
    exact ⟨c, hc, of_decide_eq_true hb⟩
  · cases hb

/-- One ply of 16 threads on two strands, at 0x4000. -/
def plyT : Ply :=
  { exm := allThreads 16, paths := { valid := true, pc := 0x4000, strands := allStrands 16 } :: List.replicate 15 {}
    pos := List.replicate 16 0, hpos := List.replicate 16 0, stage := List.replicate 16 0, privNum := some 0 }

def skeinT : Skein :=
  { uid := 1, dist := { pc := 0x4000 }, plies := [plyT], tiles := List.replicate 16 {}, rowMap := startMap, colMap := startMap
    arrays := [0, 1, 2, 3] }

def launchT : Launch :=
  { st := .draining, hdr := loadHeader, lrec := { gridX := 1, gridY := 1, gridZ := 1 }, placed := 1, root := 0x1000, dealt := true }

/-- One skein on spindle 0 of a part with every optional unit. -/
def stateT (cur : Party) (k : Skein) (l : Launch := launchT) : State :=
  { State.reset with cur := cur, opSeq := 2, acceptCount := 1, memReady := 0xFFFFFFFF, units := 0x000001000010403E, launches := [(0, l)]
                     spindles := [(0, { slots := [some k, none, none, none] })] }

/-- Tables at 0x1000 that map the first 1 GiB of address space 0, every right granted, to local memory. -/
def withMap (s : State) : State := [(0x1000, 0x2003), (0x2000, 0x3003), (0x3000, 0x1D)].foldl (fun s e => s.paWrite e.1 8 (ofN e.2)) s

def inPly : Party := .path 0 0 0 0
def inDist : Party := .dist 0 0
/-- The state a ply instruction, or a distaff's, is tried in. -/
def sP : State := stateT inPly skeinT
def sD : State := stateT inDist skeinT

/-! ## Witnesses: registers and control -/

-- IntegerResults: the ordinary form, the uniform form and distaff code
theorem wit_integer_vector : ∃ r f c s1, Issues (.iadd (fl 0 .b32 4 2 3 0 0)) r f sP c s1 ∧ (c.dist = false ∧ f.u = false ∧ c.ply.curDefs = []) :=
  issues_of (by decide +kernel)
theorem wit_integer_pair : ∃ r f c s1, Issues (.imad (fl 0 .s64 6 2 4 8 0)) r f sP c s1 ∧ (c.dist = false ∧ f.u = false ∧ c.ply.curDefs = []) :=
  issues_of (by decide +kernel)
theorem wit_integer_uniform : ∃ r f c s1, Issues (.iadd { fl 0 .b32 4 2 3 0 0 with u := true }) r f sP c s1 ∧
    (f.u = true ∧ c.ply.curDefs = [] ∧ c.sk.dist.curDefs = []) := issues_of (by decide +kernel)
theorem wit_integer_dist : ∃ r f c s1, Issues (.iadd (fl 0 .b32 4 2 3 0 0)) r f sD c s1 ∧
    (c.dist = true ∧ c.ply.curDefs = [] ∧ c.sk.dist.curDefs = []) := issues_of (by decide +kernel)
-- IntegerCompare
theorem wit_compare : ∃ r f c s1, Issues (.icmpLt (fl 0 .s32 4 2 3 0 0)) r f sP c s1 ∧
    (¬(f.u || c.dist) ∧ c.ply.curDefs = [] ∧ c.sk.dist.curDefs = []) := issues_of (by decide +kernel)
theorem wit_compare_uniform : ∃ r f c s1, Issues (.icmpLt { fl 0 .s32 4 2 3 0 0 with u := true }) r f sP c s1 ∧
    ((f.u || c.dist) = true ∧ c.ply.curDefs = [] ∧ c.sk.dist.curDefs = []) := issues_of (by decide +kernel)
-- FloatResults, FloatCompare
theorem wit_float : ∃ r f c s1, Issues (.fadd (fl 1 .f32 4 2 3 0 0)) r f sP c s1 ∧
    (c.dist = false ∧ f.u = false ∧ c.ply.curDefs = [] ∧ c.lookahead f = 0) := issues_of (by decide +kernel)
theorem wit_float_uniform : ∃ r f c s1, Issues (.fsqrt { fl 2 .f32 4 2 0 0 0 with u := true }) r f sP c s1 ∧
    (f.u = true ∧ c.ply.curDefs = [] ∧ c.sk.dist.curDefs = [] ∧ c.lookahead f = 0) := issues_of (by decide +kernel)
theorem wit_fcmp : ∃ r f c s1, Issues (.fcmpLt (fl 0 .f32 4 2 3 0 0)) r f sP c s1 ∧
    (¬(f.u || c.dist) ∧ c.ply.curDefs = [] ∧ c.sk.dist.curDefs = [] ∧ c.lookahead f = 0) := issues_of (by decide +kernel)
theorem wit_fcmp_uniform : ∃ r f c s1, Issues (.fcmpLt { fl 0 .f32 4 2 3 0 0 with u := true }) r f sP c s1 ∧
    ((f.u || c.dist) = true ∧ c.ply.curDefs = [] ∧ c.sk.dist.curDefs = [] ∧ c.lookahead f = 0) := issues_of (by decide +kernel)
-- LaneMove, LaneVote, LaneReduce
theorem wit_shuffle : ∃ r f c s1, Issues (.shflUp (fl 1 .b32 4 2 1 0 0x80)) r f sP c s1 ∧ (c.dist = false ∧ c.ply.curDefs = [] ∧ c.lookahead f = 0) :=
  issues_of (by decide +kernel)
theorem wit_broadcast : ∃ r f c s1, Issues (.bcast (fl 1 .b32 4 2 15 0 0x88)) r f sP c s1 ∧
    (c.dist = false ∧ c.ply.curDefs = [] ∧ c.lookahead f = 0 ∧ bcastFrom f c = some 15) := issues_of (by decide +kernel)
theorem wit_broadcast_none : ∃ r f c s1, Issues (.bcast (fl 1 .b32 4 2 16 0 0x80)) r f sP c s1 ∧
    (c.dist = false ∧ c.ply.curDefs = [] ∧ c.lookahead f = 0 ∧ bcastFrom f c = none) := issues_of (by decide +kernel)
theorem wit_vote_false : ∃ r f c s1, Issues (.voteAll (fl 1 .b32 4 2 0 0 0)) r f sP c s1 ∧
    (c.dist = false ∧ c.ply.curDefs = [] ∧ c.lookahead f = 0 ∧ (c.active.map (aOf f c)).all (· != 0) = false) := issues_of (by decide +kernel)
theorem wit_vote_true : ∃ r f c s1, Issues (.voteEq (fl 1 .b32 4 2 0 0 0)) r f sP c s1 ∧
    (c.dist = false ∧ c.ply.curDefs = [] ∧ c.lookahead f = 0 ∧ (c.active.map (aOf f c)).all (fun x => (c.active.map (aOf f c)).all fun y => x == y) = true) :=
  issues_of (by decide +kernel)
theorem wit_ballot : ∃ r f c s1, Issues (.voteBallot (fl 1 .b32 4 2 0 0 0)) r f sP c s1 ∧ (c.dist = false ∧ c.ply.curDefs = [] ∧ c.lookahead f = 0) :=
  issues_of (by decide +kernel)
theorem wit_reduce : ∃ r f c s1, Issues (.redAdd (fl 1 .b32 4 2 0 0 8)) r f sP c s1 ∧
    (c.dist = false ∧ c.ply.curDefs = [] ∧ c.lookahead f = 0 ∧ c.w ∈ [8, 16, 32, 64, 128] ∧ c.active ≠ []) := issues_of (by decide +kernel)
theorem wit_scan : ∃ r f c s1, Issues (.scanMax (fl 1 .s32 4 2 0 0 0x10)) r f sP c s1 ∧
    (c.dist = false ∧ c.ply.curDefs = [] ∧ c.lookahead f = 0 ∧ c.w ∈ [8, 16, 32, 64, 128] ∧ c.active ≠ []) := issues_of (by decide +kernel)
-- ReadSpecial, PackUnpack
theorem wit_special : ∃ r f c s1, Issues (.rds (fl 0 .b32 4 0 0 0 0x0D)) r f sP c s1 ∧
    (c.dist = false ∧ c.ply.curDefs = [] ∧ c.sk.dist.curDefs = [] ∧ f.m.toNat ≠ 0x0C) := issues_of (by decide +kernel)
theorem wit_special_dist : ∃ r f c s1, Issues (.rds (fl 0 .b32 4 0 0 0 0)) r f sD c s1 ∧
    (c.dist = true ∧ c.ply.curDefs = [] ∧ c.sk.dist.curDefs = [] ∧ f.m.toNat ≠ 0x0C) := issues_of (by decide +kernel)
theorem wit_pack : ∃ r f c s1, Issues (.packOct (fl 1 .e2m1 4 8 0 0 0)) r f sP c s1 ∧ (c.dist = false ∧ c.ply.curDefs = [] ∧ c.lookahead f = 0) :=
  issues_of (by decide +kernel)
theorem wit_unpack : ∃ r f c s1, Issues (.unpkQuad { fl 1 .b8 4 8 0 0 0 with u := true }) r f sP c s1 ∧
    (c.dist = false ∧ c.ply.curDefs = [] ∧ c.lookahead f = 0) := issues_of (by decide +kernel)
-- RegisterFormFrame, Lookahead
theorem wit_frame : ∃ r f c s1, Issues (.plyw (fl 0 .b32 4 0 0 0 0)) r f sP c s1 ∧ (c.dist = false) := issues_of (by decide +kernel)
theorem wit_lookahead : ∃ r f c s1, Issues (.frcp { fl 2 .f32 4 2 0 0 0 with la := 15 }) r f sP c s1 ∧
    (c.dist = false ∧ c.ply.curDefs = [] ∧ c.lookahead f ≠ 0) := issues_of (by decide +kernel)
/-- A write of register 3 of thread 127 that lands at position 2. -/
def defT : Deferred := { strand := 0, land := 2, op := 0, writes := [.v 3 127 5], flags := 0 }
theorem wit_landing : ({ plyT with defs := [defT] } : Ply).curDefs = [defT] ∧ defT.op = 0 ∧ defT.ue = none ∧ defT.writes = [.v 3 127 5] ∧
    defT.land < 3 ∧ 2 ≤ defT.land := by decide
-- ControlTransfer
theorem wit_branch : ∃ r f c s1, Issues (.brnz (fl 0 .b32 0 4 0xFF 0xFF 0xFF)) r f sP c s1 ∧
    (c.ply.curDefs = [] ∧ c.sk.dist.curDefs = [] ∧ c.dist = false ∧ c.strands.length ≤ (c.ply.paths.filter fun e => !e.valid).length + 1 ∧ r.fn ≠ 4) :=
  issues_of (by decide +kernel)
theorem wit_call : ∃ r f c s1, Issues (.call (fl 0 .b32 4 0 0 0 2)) r f sD c s1 ∧
    (c.ply.curDefs = [] ∧ c.sk.dist.curDefs = [] ∧ c.dist = true ∧ r.fn = 4) := issues_of (by decide +kernel)
theorem wit_jump : ∃ r f c s1, Issues (.jmpi (fl 0 .b32 0 4 0 0 0)) r f sP c s1 ∧
    (c.ply.curDefs = [] ∧ c.sk.dist.curDefs = [] ∧ r.opc = 2 ∧ r.fn = 3 ∧ ∀ st ∈ c.strands, bitsAt (scal c st f.a) 0 3 = 0) :=
  issues_of (by decide +kernel)
theorem wit_jump_misaligned : ∃ r f c s1, Issues (.ret (fl 0 .b32 0 0x81 0 0 0)) r f sP c s1 ∧
    ((c.strands.find? fun st => bitsAt (scal c st f.a) 0 3 != 0) = some 0) := issues_of (by decide +kernel)
-- MaskInstructions, PlainSteps
theorem wit_mask : ∃ r f c s1, Issues (.mset (fl 0 .b32 0 4 0 0 0)) r f sP c s1 ∧ (c.dist = false ∧ c.ply.curDefs = []) :=
  issues_of (by decide +kernel)
theorem wit_msave : ∃ r f c s1, Issues (.msave (fl 0 .b32 4 0 0 0 0)) r f sP c s1 ∧ (c.dist = false ∧ c.ply.curDefs = []) :=
  issues_of (by decide +kernel)
theorem wit_plyw : ∃ r f c s1, Issues (.plyw (fl 0 .b32 4 0 0 0 0)) r f sP c s1 ∧ (c.ply.curDefs = []) := issues_of (by decide +kernel)
theorem wit_nop : ∃ r f c s1, Issues (.nop (fl 0 .b32 0 0 0 0 0)) r f sP c s1 ∧ (c.dist = false) := issues_of (by decide +kernel)
theorem wit_yield : ∃ r f c s1, Issues (.yield (fl 0 .b32 0 0 0 0 0)) r f sD c s1 ∧ (c.dist = true) := issues_of (by decide +kernel)
theorem wit_icsync : ∃ r f c s1, Issues (.icsync (fl 0 .b32 0 0 0 0 0)) r f sP c s1 ∧
    (¬StoreOut c s1 ∧ c.ply.curDefs = [] ∧ c.sk.dist.curDefs = []) := issues_of (by decide +kernel)
-- Endings
theorem wit_halt : ∃ r f c s1, Issues (.halt (fl 0 .b32 0 0 0 0 0)) r f sP c s1 ∧ (c.dist = false) := issues_of (by decide +kernel)
theorem wit_join_alone : ∃ r f c s1, Issues (.join (fl 0 .b32 0 0 0 0 0)) r f sP c s1 ∧
    (c.dist = false ∧ c.hasSibling = false ∧ c.ply.curDefs = []) := issues_of (by decide +kernel)
/-- The ply split into its two strands. -/
def plySplit : Ply := { plyT with paths := { valid := true, pc := 0x4000, strands := 1 } :: { valid := true, pc := 0x4010, strands := 2 } :: List.replicate 14 {} }
theorem wit_join_sibling : ∃ r f c s1, Issues (.join (fl 0 .b32 0 0 0 0 0)) r f (stateT inPly { skeinT with plies := [plySplit] }) c s1 ∧
    (c.dist = false ∧ 1 ≠ c.idx ∧ (nth c.ply.paths 1 {}).running = true) := issues_of (by decide +kernel)
theorem wit_exit : ∃ r f c s1, Issues (.exit (fl 0 .b32 0 0 0 0 0)) r f sP c s1 ∧ (c.dist = false ∧ c.ply.defs = [] ∧ c.ply.hdefs = []) :=
  issues_of (by decide +kernel)
/-- The first strand's path waits at a JOIN while the second's runs. -/
def plyJoins : Ply :=
  { plyT with paths := { valid := true, pc := 0x4010, strands := 1, st := .waiting } :: { valid := true, pc := 0x4000, strands := 2 } :: List.replicate 14 {} }
theorem wit_exit_join : ∃ r f c s1, Issues (.exit (fl 0 .b32 0 0 0 0 0)) r f (stateT (.path 0 0 0 1) { skeinT with plies := [plyJoins] }) c s1 ∧
    (c.dist = false ∧ c.ply.defs = [] ∧ c.ply.hdefs = [] ∧ 0 ≠ c.idx ∧ (nth c.ply.paths 0 {}).atJoin = true ∧
      ∀ j < 16, j ≠ c.idx → (nth c.ply.paths j {}).running = false ∧
        ((nth c.ply.paths j {}).atJoin = true → (nth c.ply.paths 0 {}).pc ≤ (nth c.ply.paths j {}).pc)) := issues_of (by decide +kernel)
theorem wit_exit_sibling : ∃ r f c s1, Issues (.exit (fl 0 .b32 0 0 0 0 0)) r f (stateT inPly { skeinT with plies := [plySplit] }) c s1 ∧
    (c.dist = false ∧ c.ply.defs = [] ∧ c.ply.hdefs = [] ∧ 1 ≠ c.idx ∧ (nth c.ply.paths 1 {}).running = true) := issues_of (by decide +kernel)
theorem wit_exit_dist : ∃ r f c s1, Issues (.exit (fl 0 .b32 0 0 0 0 0)) r f sD c s1 ∧ (c.dist = true) := issues_of (by decide +kernel)
-- TrapSteps: a region with a handler at 0x8000
def rcbT : Rcb :=
  { addr := 0x100000, parent := 0, inherit := 0xFFF, priority := 0, tags := 0xFF, rflags := 0, spindles := 0xFFFFFFFF, bw := 0, xarrays := 1024
    boost := 0, handler := 0x8000, saveArea := 0, saveSize := 0, latency := 0 }
def launchH : Launch := { launchT with lrec := { launchT.lrec with region := 0x100000 } }
def withRcb (s : State) : State := { s with rcbs := [rcbT] }
def hP (k : Skein := skeinT) : State := withRcb (stateT inPly k launchH)
def hD (k : Skein := skeinT) : State := withRcb (stateT inDist k launchH)
theorem wit_syscall : ∃ r f c s1, Issues (.syscall (fl 0 .b32 0 0 0 0 7)) r f hP c s1 ∧
    (c.handler = false ∧ handlerAt c s1 ≠ 0 ∧ Settled c ∧ (c.dist = false → AtBoundaries c)) := issues_of (by decide +kernel)
theorem wit_syscall_dist : ∃ r f c s1, Issues (.syscall (fl 0 .b32 0 0 0 0 7)) r f hD c s1 ∧
    (c.handler = false ∧ handlerAt c s1 ≠ 0 ∧ Settled c ∧ (c.dist = false → AtBoundaries c)) := issues_of (by decide +kernel)
theorem wit_trap : ∃ r f c s1, Issues (.trap (fl 0 .b32 0 0x82 0 0 7)) r f hP c s1 ∧
    (c.handler = false ∧ handlerAt c s1 ≠ 0 ∧ Settled c ∧ (c.dist = false → AtBoundaries c) ∧ c.dist = false ∧
      (c.active.find? fun t => c.maskBit f.a.toNat t) = some 0) := issues_of (by decide +kernel)
theorem wit_trap_dist : ∃ r f c s1, Issues (.trap (fl 0 .b32 0 0x81 0 0 7)) r f hD c s1 ∧
    (c.handler = false ∧ handlerAt c s1 ≠ 0 ∧ Settled c ∧ (c.dist = false → AtBoundaries c) ∧ c.dist = true ∧ scal c 0 f.a ≠ 0) :=
  issues_of (by decide +kernel)
theorem wit_bkpt : ∃ r f c s1, Issues (.bkpt (fl 0 .b32 0 0 0 0 7)) r f hP c s1 ∧
    (c.handler = false ∧ handlerAt c s1 ≠ 0 ∧ Settled c ∧ (c.dist = false → AtBoundaries c) ∧ s1.debugHeld c.la = false) :=
  issues_of (by decide +kernel)
theorem wit_trap_not : ∃ r f c s1, Issues (.trap (fl 0 .b32 0 0x80 0 0 7)) r f hP c s1 ∧
    (c.dist = false ∧ ∀ th ∈ c.active, c.maskBit f.a.toNat th = false) := issues_of (by decide +kernel)
theorem wit_trap_not_dist : ∃ r f c s1, Issues (.trap (fl 0 .b32 0 0x80 0 0 7)) r f hD c s1 ∧ (c.dist = true ∧ scal c 0 f.a = 0) :=
  issues_of (by decide +kernel)
/-- The fault ring at 0x100000, with its 16 records free. -/
def withRing (s : State) : State := { s with fq := 0x8000000000100000 }
theorem wit_unhandled : ∃ c, (withRing sP).ctx? inPly = some c ∧
    ((withRing sP).skein? c.sp c.slot = some c.sk ∧ Unhandled c (withRing sP) ∧ (withRing sP).ringFree ≠ 0 ∧ RingHere (withRing sP)) :=
  ctx_of (by decide +kernel)
theorem wit_unhandled_full : ∃ c, (withRing { sP with fqTail := 1 }).ctx? inPly = some c ∧
    ((withRing { sP with fqTail := 1 }).skein? c.sp c.slot = some c.sk ∧ Unhandled c (withRing { sP with fqTail := 1 }) ∧
      (withRing { sP with fqTail := 1 }).ringFree = 0) := ctx_of (by decide +kernel)
/-- A ply and a distaff in their handlers. -/
def plyInT : Ply :=
  { plyT with trap := { mode := true, epc := 0x4008, exm := allThreads 16, paths := plyT.paths, path := 0 } }
def distInT : Dist := { pc := 0x8000, trap := { mode := true, epc := 0x4008 } }
theorem wit_unhandled_handler : ∃ c, (hP { skeinT with plies := [plyInT] }).ctx? inPly = some c ∧
    ((hP { skeinT with plies := [plyInT] }).skein? c.sp c.slot = some c.sk ∧ Unhandled c (hP { skeinT with plies := [plyInT] })) :=
  ctx_of (by decide +kernel)
/-- A ply whose second path has a load on its way from another package. -/
def plyAway : Ply :=
  { plyT with paths := [{ valid := true, pc := 0x4000, strands := 1 }, { valid := true, pc := 0x4000, strands := 2, st := .blocked
                                                                         wait := .remote (fl 1 .b32 4 2 0 0 0) false 1 }] ++ List.replicate 14 {} }
theorem wit_trap_sibling : ∃ c, (hP { skeinT with plies := [plyAway] }).ctx? inPly = some c ∧
    ((hP { skeinT with plies := [plyAway] }).skein? c.sp c.slot = some c.sk ∧ ¬Unhandled c (hP { skeinT with plies := [plyAway] }) ∧ c.dist = false ∧
      ¬AtBoundaries c) := ctx_of (by decide +kernel)
-- ReturnFromTrap
theorem wit_eret : ∃ r f c s1, Issues (.eret (fl 0 .b32 0 0 0 0 0)) r f (hP { skeinT with plies := [plyInT] }) c s1 ∧
    (c.dist = false ∧ c.ply.hdefs = [] ∧ (∀ e ∈ c.ply.paths, e.underWay = false) ∧ c.ply.exited = 0 ∧
      (nth c.ply.trap.paths c.ply.trap.path {}).strands ≠ 0) := issues_of (by decide +kernel)
/-- Strand 1 had exited before the trap, with a value still to come; and one whose values have all landed. -/
def plyLeft (l : List Deferred) : Ply :=
  { plyInT with defs := l, trap := { plyInT.trap with paths := { valid := true, pc := 0x4008, strands := 1 } ::
      { valid := true, pc := 0x4010, strands := 2, st := .exited } :: List.replicate 14 {} } }
def lateT : Deferred := { strand := 1, land := 3, op := 9, writes := [.s 4 ones64 0], flags := 0 }
theorem wit_eret_kept : ∃ r f c s1, Issues (.eret (fl 0 .b32 0 0 0 0 0)) r f (hP { skeinT with plies := [plyLeft [lateT]] }) c s1 ∧
    (c.dist = false ∧ c.ply.hdefs = [] ∧ (∀ e ∈ c.ply.paths, e.underWay = false) ∧ 1 ≠ c.ply.trap.path ∧ (nth c.ply.trap.paths 1 {}).valid = true ∧
      (nth c.ply.trap.paths 1 {}).st = .exited ∧ ∃ d ∈ c.ply.defs, (nth c.ply.trap.paths 1 {}).strands.getLsbD d.strand = true) :=
  issues_of (by decide +kernel)
theorem wit_eret_freed : ∃ r f c s1, Issues (.eret (fl 0 .b32 0 0 0 0 0)) r f (hP { skeinT with plies := [plyLeft []] }) c s1 ∧
    (c.dist = false ∧ c.ply.hdefs = [] ∧ (∀ e ∈ c.ply.paths, e.underWay = false) ∧ c.ply.exited = 0 ∧ 1 ≠ c.ply.trap.path ∧
      (nth c.ply.trap.paths 1 {}).st = .exited ∧ c.ply.defs = []) := issues_of (by decide +kernel)
/-- The value that comes after the return lands, and frees the entry. -/
theorem test_eret_keeps_exited : let p := (plyLeft [lateT]).leaveHandler
    (nth p.paths 1 {}).st = .exited ∧ (nth p.paths 1 {}).strands = 2 ∧ (nth ((plyLeft []).leaveHandler).paths 1 {}).valid = false := by decide +kernel
theorem wit_eret_dist : ∃ r f c s1, Issues (.eret (fl 0 .b32 0 0 0 0 0)) r f (hD { skeinT with dist := distInT }) c s1 ∧
    (c.dist = true ∧ c.sk.dist.hdefs = []) := issues_of (by decide +kernel)

/-! ## Witnesses: memory -/

/-- S2 of both strands, and D2, hold an address. -/
def plyS (x : Word) : Ply := { plyT with s := [(32, x), (33, x)] }
def kS (x : Word) : Skein := { skeinT with plies := [plyS x], dist := { skeinT.dist with d := [(2, x)] } }
-- ScratchMoves: the last word of the skein's 4,096 bytes
theorem wit_scratch_load : ∃ r f c s1, Issues (.ld (fl 1 .b32 4 2 0 0 1)) r f (stateT inPly (kS 4092)) c s1 ∧
    (spaceOf f = .scratch ∧ c.ply.curDefs = [] ∧ c.sk.dist.curDefs = [] ∧ c.lookahead f = 0 ∧ Prompt c ∧ c.dist = false ∧
      ∀ th ∈ c.active, (addr true f c th).toNat + nBytes f ≤ c.la.hdr.scratch) := issues_of (by decide +kernel)
theorem wit_scratch_ldu : ∃ r f c s1, Issues (.ldu (fl 1 .s16 4 2 0 2 1)) r f (stateT inPly (kS 4092)) c s1 ∧
    (spaceOf f = .scratch ∧ c.ply.curDefs = [] ∧ c.sk.dist.curDefs = [] ∧ c.lookahead f = 0 ∧ Prompt c ∧ c.dist = false ∧
      ∀ st ∈ c.strands, c.touched st = true → (addr true f c (8 * st)).toNat + nBytes f ≤ c.la.hdr.scratch) := issues_of (by decide +kernel)
theorem wit_scratch_load_dist : ∃ r f c s1, Issues (.ldu (fl 1 .b32 4 2 0 0 1)) r f (stateT inDist (kS 4092)) c s1 ∧
    (spaceOf f = .scratch ∧ c.ply.curDefs = [] ∧ c.sk.dist.curDefs = [] ∧ c.lookahead f = 0 ∧ Prompt c ∧ c.dist = true ∧
      (addr true f c 0).toNat + nBytes f ≤ c.la.hdr.scratch) := issues_of (by decide +kernel)
theorem wit_scratch_store : ∃ r f c s1, Issues (.st (fl 1 .b32 4 2 0 0 1)) r f (stateT inPly (kS 4092)) c s1 ∧
    (spaceOf f = .scratch ∧ c.ply.curDefs = [] ∧ c.sk.dist.curDefs = [] ∧ Prompt c ∧ c.dist = false ∧
      ∀ th ∈ c.active, (addr true f c th).toNat + nBytes f ≤ c.la.hdr.scratch) := issues_of (by decide +kernel)
theorem wit_scratch_store_dist : ∃ r f c s1, Issues (.st (fl 1 .b32 4 2 0 0 1)) r f (stateT inDist (kS 4092)) c s1 ∧
    (spaceOf f = .scratch ∧ c.ply.curDefs = [] ∧ c.sk.dist.curDefs = [] ∧ Prompt c ∧ c.dist = true ∧
      (addr true f c 0).toNat + nBytes f ≤ c.la.hdr.scratch) := issues_of (by decide +kernel)
-- Atomics
theorem wit_scratch_atom : ∃ r f c s1, Issues (.atomCas (fl 1 .b32 4 2 0 7 1)) r f (stateT inPly (kS 4092)) c s1 ∧
    (spaceOf f = .scratch ∧ c.dist = false ∧ c.ply.curDefs = [] ∧ c.lookahead f = 0 ∧ Prompt c ∧ Tokened c ∧
      ∀ th ∈ c.active, (addr false f c th).toNat % nBytes f = 0 ∧ (addr false f c th).toNat + nBytes f ≤ c.la.hdr.scratch) :=
  issues_of (by decide +kernel)
theorem wit_scratch_mred : ∃ r f c s1, Issues (.mredInc (fl 1 .b32 0 2 0 7 1)) r f (stateT inPly (kS 4092)) c s1 ∧
    (spaceOf f = .scratch ∧ c.dist = false ∧ c.ply.curDefs = [] ∧ c.lookahead f = 0 ∧ Prompt c ∧ Tokened c ∧
      ∀ th ∈ c.active, (addr false f c th).toNat % nBytes f = 0 ∧ (addr false f c th).toNat + nBytes f ≤ c.la.hdr.scratch) :=
  issues_of (by decide +kernel)
def sG : State := withMap (stateT inPly (kS 0x3FFFFFFC))
theorem wit_global_atom : ∃ r f c s1, Issues (.atomAdd (fl 1 .b32 4 2 0 7 0)) r f sG c s1 ∧
    (spaceOf f = .global ∧ c.dist = false ∧ c.ply.curDefs = [] ∧ c.lookahead f = 0 ∧ Prompt c ∧
      Performable ⟨.atomAdd, .atom .add, false⟩ f c s1 ∧
      ∀ th ∈ c.active, ∀ x ∈ globalCells ⟨.atomAdd, .atom .add, false⟩ f c s1 th, s1.present (offsetOf x.2) = true) := issues_of (by decide +kernel)
theorem wit_global_mred : ∃ r f c s1, Issues (.mredAdd (fl 1 .b32 0 2 0 7 0)) r f sG c s1 ∧
    (spaceOf f = .global ∧ c.dist = false ∧ c.ply.curDefs = [] ∧ c.lookahead f = 0 ∧ Prompt c ∧
      Performable ⟨.mredAdd, .mred .add, false⟩ f c s1 ∧
      ∀ th ∈ c.active, ∀ x ∈ globalCells ⟨.mredAdd, .mred .add, false⟩ f c s1 th, s1.present (offsetOf x.2) = true) := issues_of (by decide +kernel)
-- GlobalMoves, MemoryCompletes, Prefetch
theorem wit_global_load : ∃ r f c s1, Issues (.ld (fl 1 .b32 4 2 0 0 0)) r f sG c s1 ∧
    (spaceOf f = .global ∧ c.dist = false ∧ c.ply.curDefs = [] ∧ c.lookahead f = 0 ∧ Prompt c ∧ Performable ⟨.ld, .load, false⟩ f c s1 ∧
      c.accesses .load false f ≠ []) := issues_of (by decide +kernel)
theorem wit_global_store : ∃ r f c s1, Issues (.st (fl 1 .b32 4 2 0 0 0)) r f sG c s1 ∧
    (spaceOf f = .global ∧ c.dist = false ∧ c.ply.curDefs = [] ∧ Prompt c ∧ Performable ⟨.st, .store, false⟩ f c s1) := issues_of (by decide +kernel)
theorem wit_no_access : ∃ r f c s1, Issues (.ld (fl 1 .b32 4 2 0 0 0)) r f (stateT inPly { skeinT with plies := [{ plyT with exm := 0 }] }) c s1 ∧
    (Prompt c ∧ c.accesses .load false f = []) := issues_of (by decide +kernel)
theorem wit_private : ∃ r f c s1, Issues (.ld (fl 1 .b32 4 2 0 0 3)) r f (withMap (stateT inPly skeinT)) c s1 ∧
    (Prompt c ∧ c.accesses .load false f ≠ [] ∧ Performable ⟨.ld, .load, false⟩ f c s1) := issues_of (by decide +kernel)
theorem wit_prefetch : ∃ r f c s1, Issues (.pref (fl 1 .b32 1 2 0 0 0)) r f sP c s1 ∧ (c.ply.curDefs = [] ∧ c.sk.dist.curDefs = []) :=
  issues_of (by decide +kernel)
-- PageFaults: a page that no table maps (its walk ends in a zero entry), and a malformed table, for a load and for a store
def sHole (a : Word) : State := withRing (withMap (stateT inPly (kS a)))
theorem wit_load_missing : ∃ r f c s1, Issues (.ld (fl 1 .b32 4 2 0 0 0)) r f (sHole 0x40000000) c s1 ∧
    (Prompt c ∧ MeetsFault ⟨.ld, .load, false⟩ f c s1 ∧ Settled c ∧ failing Tr.isTable (placedOf ⟨.ld, .load, false⟩ f c s1) = [] ∧
      (failing Tr.isReported (placedOf ⟨.ld, .load, false⟩ f c s1)).head?.isSome = true ∧ s1.ringFree ≠ 0 ∧ RingHere s1) := issues_of (by decide +kernel)
theorem wit_load_ring_full : ∃ r f c s1, Issues (.ld (fl 1 .b32 4 2 0 0 0)) r f { sHole 0x40000000 with fqTail := 1 } c s1 ∧
    (Prompt c ∧ MeetsFault ⟨.ld, .load, false⟩ f c s1 ∧ Settled c ∧ failing Tr.isReported (placedOf ⟨.ld, .load, false⟩ f c s1) ≠ [] ∧ s1.ringFree = 0) :=
  issues_of (by decide +kernel)
/-- The table beneath the second GiB is not resident. -/
def sBadTable : State := (sHole 0x40000000).paWrite 0x3008 8 0x203
theorem wit_load_table : ∃ r f c s1, Issues (.ld (fl 1 .b32 4 2 0 0 0)) r f sBadTable c s1 ∧
    (Prompt c ∧ MeetsFault ⟨.ld, .load, false⟩ f c s1 ∧ Settled c ∧ (match failing Tr.isTable (placedOf ⟨.ld, .load, false⟩ f c s1) with
      | (_, _, .table _) :: _ => true
      | _ => false) = true ∧ s1.ringFree ≠ 0 ∧ RingHere s1 ∧ Unhandled c s1 ∧ 2 ≤ s1.ringFree ∧ s1.ringReaches s1.fq s1.fqHead 2 = true ∧
      AtBoundaries c) := issues_of (by decide +kernel)
/-- A store whose page is missing, with no room for its record. -/
theorem wit_store_ring_full : ∃ r f c s1, Issues (.st (fl 1 .b32 4 2 0 0 0)) r f { sHole 0x40000000 with fqTail := 1 } c s1 ∧
    (Prompt c ∧ MeetsFault ⟨.st, .store, false⟩ f c s1 ∧ Settled c ∧ c.handler = false ∧ s1.ringFree < recordsOf ⟨.st, .store, false⟩ f c s1) :=
  issues_of (by decide +kernel)
theorem wit_store_missing : ∃ r f c s1, Issues (.st (fl 1 .b32 4 2 0 0 0)) r f (sHole 0x40000000) c s1 ∧
    (Prompt c ∧ MeetsFault ⟨.st, .store, false⟩ f c s1 ∧ Settled c ∧ c.handler = false ∧ 2 ≤ s1.ringFree ∧
      (∀ i < 2, s1.trained (offsetOf (ringBase s1.fq + 32 * ((s1.fqHead + i) % ringSize s1.fq))) = true) ∧ c.strands.length ≤ 64) :=
  issues_of (by decide +kernel)
-- MemoryTraps: one byte past the end, and a misaligned atomic
theorem wit_scratch_limit : ∃ r f c s1, Issues (.st (fl 1 .b32 4 2 0 0 1)) r f (stateT inPly (kS 4096)) c s1 ∧
    (spaceOf f = .scratch ∧ c.dist = false ∧ Prompt c ∧ (∀ u ∈ c.active, (addr true f c u).toNat % nBytes f = 0) ∧
      (c.active.find? fun u => decide (c.la.hdr.scratch < (addr true f c u).toNat + nBytes f)) = some 0) := issues_of (by decide +kernel)
theorem wit_atom_align : ∃ r f c s1, Issues (.atomAdd (fl 1 .b32 4 2 0 7 1)) r f (stateT inPly (kS 4090)) c s1 ∧
    (spaceOf f = .scratch ∧ c.dist = false ∧ Prompt c ∧ (∀ u ∈ c.active, (addr false f c u).toNat + nBytes f ≤ c.la.hdr.scratch) ∧
      (c.active.find? fun u => decide ((addr false f c u).toNat % nBytes f ≠ 0)) = some 0) := issues_of (by decide +kernel)

/-! ## Witnesses: synchronisation -/

def copyT : CopyCmd :=
  { id := 9, uid := 1, who := some inDist, strands := 0, kind := .cpy, dir := 1, sks := false, ev := false, shape := 0, loc := 0, bar := 0
    dval := 0, entry := none, after := [], mig := none, issued := 0 }
def withCopy (k : CopyCmd) (s : State) : State := { s with spindles := [(0, { s.spindle 0 with cq := [[k], [], [], []] })] }
-- Fences
theorem wit_fence : ∃ r f c s1, Issues (.fenceQ (fl 0 .b32 0 0 0 0 0x1F)) r f sP c s1 ∧
    (c.waitNow = .none ∧ (s1.spindle c.sp).named c.la c.sk (f.m.toNat % 16) (f.m.getLsbD 4) = [] ∧ Settled c) := issues_of (by decide +kernel)
theorem wit_fence_waits : ∃ r f c s1, Issues (.fenceQ (fl 0 .b32 0 0 0 0 1)) r f (withCopy copyT sP) c s1 ∧
    (c.waitNow = .none ∧ (s1.spindle c.sp).named c.la c.sk (f.m.toNat % 16) (f.m.getLsbD 4) ≠ []) := issues_of (by decide +kernel)
theorem wit_fence_sys : ∃ r f c s1, Issues (.fenceSys (fl 0 .b32 0 0 0 0 0)) r f sP c s1 ∧ (c.unacknowledged s1 = false ∧ Settled c) :=
  issues_of (by decide +kernel)
def reqT : RemoteReq :=
  { id := 5, op := 0, uid := 1, who := inPly, tid := 0, pa := 0x400000000000, n := 4, at_ := 0, what := .store 7, asid := 0, va := 0
    arrived := false, replied := false, old := 0, issued := 0, size := 12 }
theorem wit_fence_sys_waits : ∃ r f c s1, Issues (.fenceSys (fl 0 .b32 0 0 0 0 0)) r f { sP with reqs := [reqT] } c s1 ∧ (c.unacknowledged s1 = true) :=
  issues_of (by decide +kernel)
theorem wit_icsync_waits : ∃ r f c s1, Issues (.icsync (fl 0 .b32 0 0 0 0 0)) r f { sP with reqs := [reqT] } c s1 ∧
    (StoreOut c s1 ∧ c.ply.curDefs = [] ∧ c.sk.dist.curDefs = []) := issues_of (by decide +kernel)
theorem wit_core : State.reset.cur = .core 0 ∧ CoreReady (State.reset.core 0) := by decide
-- ProducersWait: the same access is outstanding
theorem wit_producer_waits : ∃ r f c s1, Issues (.barx (fl 0 .b32 4 0x80 0 0 0)) r f { sP with reqs := [reqT] } c s1 ∧
    (Settled c ∧ BarOperand f c ∧ c.accessPending s1 = true) := issues_of (by decide +kernel)
theorem wit_producer_waits_token : ∃ r f c s1, Issues (.tokenPut (fl 0 .b32 0 0 0 0 0)) r f
    { stateT inPly { skeinT with plies := [{ plyT with token := true }] } { launchT with lrec := { launchT.lrec with flags := 4 } } with reqs := [reqT] }
    c s1 ∧ (Settled c ∧ c.la.det = true ∧ c.ply.token = true ∧ c.accessPending s1 = true) := issues_of (by decide +kernel)
-- SkeinBarriers: an object at 0, whose EXPECT is 0 as nothing has written it
theorem wit_bara : ∃ r f c s1, Issues (.bara (fl 0 .b32 4 0x80 0x81 0 0)) r f sP c s1 ∧
    (Settled c ∧ BarOperand f c ∧ 1 ≤ (opB f c).toNat ∧ (opB f c).toNat ≤ 65535 ∧ c.accessPending s1 = false) := issues_of (by decide +kernel)
theorem wit_barx_last : ∃ r f c s1, Issues (.barx (fl 0 .b32 4 0x80 0 0 0)) r f sP c s1 ∧
    (Settled c ∧ BarOperand f c ∧ c.accessPending s1 = false ∧ expectAt (scratchIn c s1) 0 ≤ arrivedAt (scratchIn c s1) 0 + barxCount c) :=
  issues_of (by decide +kernel)
theorem wit_barx_blocks : ∃ r f c s1, Issues (.barx (fl 0 .b32 4 0x80 0 0 0)) r f (stateT inPly { skeinT with scratch := [(0, 3)] }) c s1 ∧
    (Settled c ∧ BarOperand f c ∧ c.accessPending s1 = false ∧ ¬expectAt (scratchIn c s1) 0 ≤ arrivedAt (scratchIn c s1) 0 + barxCount c) :=
  issues_of (by decide +kernel)
theorem wit_barw_past : ∃ r f c s1, Issues (.barw (fl 0 .b32 4 0x80 0x81 0 0)) r f sP c s1 ∧
    (Settled c ∧ BarOperand f c ∧ phaseAt (scratchIn c s1) (opA f c).toNat ≠ (opB f c).toNat % 2 ^ 32) := issues_of (by decide +kernel)
theorem wit_barw_blocks : ∃ r f c s1, Issues (.barw (fl 0 .b32 4 0x80 0x80 0 0)) r f sP c s1 ∧
    (Settled c ∧ BarOperand f c ∧ phaseAt (scratchIn c s1) (opA f c).toNat = (opB f c).toNat % 2 ^ 32) := issues_of (by decide +kernel)
theorem wit_bar_operand : ∃ r f c s1, Issues (.barw (fl 0 .b32 4 0x81 0x80 0 0)) r f sP c s1 ∧ (¬BarOperand f c) := issues_of (by decide +kernel)
theorem wit_bar_count : ∃ r f c s1, Issues (.bara (fl 0 .b32 4 0x80 0x80 0 0)) r f sP c s1 ∧ ((opB f c).toNat = 0) := issues_of (by decide +kernel)
-- TreeBarriers
def sTree (n : Nat) : State := { hD with tags := [(0, { en := true, expect := n })] }
theorem wit_tbar_last : ∃ r f c s1, Issues (.tbar (fl 0 .b32 4 0x80 0 0 0)) r f (sTree 1) c s1 ∧
    (Settled c ∧ c.dist = true ∧ (opA f c).toNat < 8 ∧
      (effOwn 1 Rcb.tags 0 (s1.rcbChain c.la.lrec.region.toNat)).testBit (opA f c).toNat = true ∧ (s1.tag (opA f c).toNat).en = true ∧
      c.accessPending s1 = false ∧ (s1.tag (opA f c).toNat).expect ≤ (s1.tag (opA f c).toNat).arrived + 1) := issues_of (by decide +kernel)
theorem wit_tbar_early : ∃ r f c s1, Issues (.tbar (fl 0 .b32 4 0x80 0 0 0)) r f (sTree 2) c s1 ∧
    (Settled c ∧ c.dist = true ∧ (opA f c).toNat < 8 ∧
      (effOwn 1 Rcb.tags 0 (s1.rcbChain c.la.lrec.region.toNat)).testBit (opA f c).toNat = true ∧ (s1.tag (opA f c).toNat).en = true ∧
      c.accessPending s1 = false ∧ ¬(s1.tag (opA f c).toNat).expect ≤ (s1.tag (opA f c).toNat).arrived + 1) := issues_of (by decide +kernel)
theorem wit_tbcfg : State.reset.cur = .core 0 ∧ CoreReady (State.reset.core 0) ∧ Fields.csr (fl 0 .b32 0 1 0x08 0x01 0) = 0x0801 ∧
    State.reset.hasTree = true := by decide
-- SkeinQueues
def sDq (k : Skein) (p : Party) : State := stateT p k
theorem wit_dqpush_gone : ∃ r f c s1, Issues (.dqpush (fl 0 .b32 0 2 0x80 0 0)) r f
    (stateT inDist { skeinT with plies := [{ plyT with exited := 3, paths := List.replicate 16 {} }] }) c s1 ∧
    (c.dist = true ∧ c.accessPending s1 = false ∧ (opB f c).toNat < c.la.hdr.plies ∧
      (([(opB f c).toNat] : List Nat).filter fun p => !(c.sk.ply p).gone c.w) = []) := issues_of (by decide +kernel)
theorem wit_dqpush : ∃ r f c s1, Issues (.dqpush (fl 0 .b32 0 2 0x80 0 0)) r f
    (stateT inDist { skeinT with dq := List.replicate 63 { val := 1, dests := [0] } }) c s1 ∧
    (c.dist = true ∧ c.accessPending s1 = false ∧ (opB f c).toNat < c.la.hdr.plies ∧ c.sk.dq.length < 64 ∧
      (([(opB f c).toNat] : List Nat).filter fun p => !(c.sk.ply p).gone c.w) ≠ []) := issues_of (by decide +kernel)
theorem wit_dqpush_full : ∃ r f c s1, Issues (.dqpush (fl 0 .b32 0 2 0x80 0 0)) r f
    (stateT inDist { skeinT with dq := List.replicate 64 { val := 1, dests := [0] } }) c s1 ∧
    (c.dist = true ∧ c.accessPending s1 = false ∧ (opB f c).toNat < c.la.hdr.plies ∧ 64 ≤ c.sk.dq.length ∧
      (([(opB f c).toNat] : List Nat).filter fun p => !(c.sk.ply p).gone c.w) ≠ []) := issues_of (by decide +kernel)
theorem wit_dqpop : ∃ r f c s1, Issues (.dqpop (fl 0 .b32 4 0 0 0 0)) r f (stateT inPly { skeinT with dq := [⟨5, [1]⟩, ⟨6, [0, 1]⟩, ⟨7, [0]⟩] }) c s1 ∧
    (c.dist = false ∧ Settled c ∧ (∀ e ∈ c.ply.paths, e.wait = .none) ∧ c.sk.dq = [⟨5, [1]⟩] ++ ⟨6, [0, 1]⟩ :: [⟨7, [0]⟩] ∧ c.plyNo ∉ [1] ∧
      c.plyNo ∈ [0, 1]) := issues_of (by decide +kernel)
theorem wit_dqpop_waits : ∃ r f c s1, Issues (.dqpop (fl 0 .b32 4 0 0 0 0)) r f sP c s1 ∧
    (c.dist = false ∧ Settled c ∧ (∀ e ∈ c.ply.paths, e.wait = .none) ∧ (∀ e ∈ c.sk.dq, c.plyNo ∉ e.dests) ∧ c.sk.dist.exited = false) :=
  issues_of (by decide +kernel)
theorem wit_dqpop_drained : ∃ r f c s1, Issues (.dqpop (fl 0 .b32 4 0 0 0 0)) r f (stateT inPly { skeinT with dist := { exited := true } }) c s1 ∧
    (c.dist = false ∧ Settled c ∧ (∀ e ∈ c.ply.paths, e.wait = .none) ∧ (∀ e ∈ c.sk.dq, c.plyNo ∉ e.dests) ∧ c.sk.dist.exited = true) :=
  issues_of (by decide +kernel)
theorem wit_evpop : ∃ r f c s1, Issues (.evpop (fl 0 .b32 4 0 0 0 0)) r f (stateT inDist { skeinT with evq := [7, 8], evHeld := 2 }) c s1 ∧
    (c.dist = true ∧ Settled c ∧ c.sk.evq = 7 :: [8] ∧ c.la.lrec.copyCount ≤ c.sk.statNext) := issues_of (by decide +kernel)
theorem wit_evpop_none : ∃ r f c s1, Issues (.evpop (fl 0 .b32 4 0 0 0 0)) r f sD c s1 ∧ (c.dist = true ∧ Settled c ∧ c.sk.evq = [] ∧ c.sk.evHeld = 0) :=
  issues_of (by decide +kernel)
theorem wit_evpop_waits : ∃ r f c s1, Issues (.evpop (fl 0 .b32 4 0 0 0 0)) r f (stateT inDist { skeinT with evHeld := 1 }) c s1 ∧
    (c.dist = true ∧ Settled c ∧ c.sk.evq = [] ∧ 0 < c.sk.evHeld ∧ f.m.getLsbD 0 = false) := issues_of (by decide +kernel)
-- VerticalFifos
def sFifo (k : Nat) (n : Nat) : State := { sP with fifos := [(k, List.replicate n 3)] }
theorem wit_vfpush : ∃ r f c s1, Issues (.vfpush (fl 0 .b32 0 4 0x80 0 0)) r f (sFifo (outFifo 0 0) 15) c s1 ∧
    (c.dist = false ∧ Settled c ∧ (opB f c).toNat < (if isBase c.sp then 8 else 1) ∧ 0 ∈ c.strands ∧ 1 ∈ c.strands ∧ c.accessPending s1 = false ∧ (s1.fifo (outFifo c.sp (opB f c).toNat)).length = 15) :=
  issues_of (by decide +kernel)
theorem wit_vfpush_full : ∃ r f c s1, Issues (.vfpush (fl 0 .b32 0 4 0x80 0 0)) r f (sFifo (outFifo 0 0) 16) c s1 ∧
    (c.dist = false ∧ Settled c ∧ (opB f c).toNat < (if isBase c.sp then 8 else 1) ∧ 0 ∈ c.strands ∧ 1 ∈ c.strands ∧ c.accessPending s1 = false ∧ 16 ≤ (s1.fifo (outFifo c.sp (opB f c).toNat)).length) :=
  issues_of (by decide +kernel)
theorem wit_vfpop : ∃ r f c s1, Issues (.vfpop (fl 0 .b32 4 0 0x80 0 0)) r f (sFifo (inFifo 0 0) 1) c s1 ∧
    (c.dist = false ∧ Settled c ∧ (opB f c).toNat < (if isBase c.sp then 8 else 1) ∧ 0 ∈ c.strands ∧ 1 ∈ c.strands ∧ s1.fifo (inFifo c.sp (opB f c).toNat) = 3 :: []) := issues_of (by decide +kernel)
theorem wit_vfpop_empty : ∃ r f c s1, Issues (.vfpop (fl 0 .b32 4 0 0x80 0 0)) r f sP c s1 ∧
    (c.dist = false ∧ Settled c ∧ (opB f c).toNat < (if isBase c.sp then 8 else 1) ∧ 0 ∈ c.strands ∧ 1 ∈ c.strands ∧ s1.fifo (inFifo c.sp (opB f c).toNat) = []) := issues_of (by decide +kernel)
theorem wit_vfcnt : ∃ r f c s1, Issues (.vfcnt (fl 0 .b32 4 0 0x80 0 1)) r f sP c s1 ∧
    (c.dist = false ∧ Settled c ∧ (opB f c).toNat < (if isBase c.sp then 8 else 1) ∧ 0 ∈ c.strands ∧ 1 ∈ c.strands) := issues_of (by decide +kernel)
theorem wit_link_strands : ∃ r f c s1, Issues (.vfcnt (fl 0 .b32 4 0 0x80 0 1)) r f (stateT inPly { skeinT with plies := [plySplit] }) c s1 ∧
    (1 ∉ c.strands) := issues_of (by decide +kernel)
theorem wit_link_absent : ∃ r f c s1, Issues (.vfpush (fl 0 .b32 0 4 0x81 0 0)) r f sP c s1 ∧ ((opB f c).toNat = 1 ∧ ¬(opB f c).toNat < (if isBase c.sp then 8 else 1)) :=
  issues_of (by decide +kernel)
-- CommitToken: a deterministic launch
def launchDet : Launch := { launchT with lrec := { launchT.lrec with flags := 4 } }
def sTok (b : Bool) (turn : Bool := false) : State := stateT inPly { skeinT with plies := [{ plyT with token := b, turn := turn }] } launchDet
theorem wit_token_held : ∃ r f c s1, Issues (.tokenGet (fl 0 .b32 0 0 0 0 0)) r f (sTok true) c s1 ∧ (c.dist = false ∧ c.ply.token = true) :=
  issues_of (by decide +kernel)
theorem wit_token_waits : ∃ r f c s1, Issues (.tokenGet (fl 0 .b32 0 0 0 0 0)) r f (sTok false) c s1 ∧
    (c.dist = false ∧ c.la.det = true ∧ c.ply.token = false ∧ c.ply.turn = false ∧ Settled c) := issues_of (by decide +kernel)
theorem wit_token_turn : ∃ r f c s1, Issues (.tokenGet (fl 0 .b32 0 0 0 0 0)) r f (sTok false true) c s1 ∧
    (c.dist = false ∧ c.la.det = true ∧ c.ply.token = false ∧ c.ply.turn = true) := issues_of (by decide +kernel)
theorem wit_token_put : ∃ r f c s1, Issues (.tokenPut (fl 0 .b32 0 0 0 0 0)) r f (sTok true) c s1 ∧
    (c.dist = false ∧ c.la.det = true ∧ c.ply.token = true ∧ c.accessPending s1 = false) := issues_of (by decide +kernel)
theorem wit_token_put_none : ∃ r f c s1, Issues (.tokenPut (fl 0 .b32 0 0 0 0 0)) r f sP c s1 ∧ (c.dist = false ∧ c.la.det = false) :=
  issues_of (by decide +kernel)

/-! ## Witnesses: registers of the part, and LAUNCH -/

/-- CSRR and CSRW of a register. -/
def rd (n : Nat) : Instr := .csrr (fl 0 .b32 4 0 (BitVec.ofNat 8 (n / 256)) (BitVec.ofNat 8 n) 0)
def wr (n : Nat) : Instr := .csrw (fl 0 .b32 0 2 (BitVec.ofNat 8 (n / 256)) (BitVec.ofNat 8 n) 0)
def hP' : State := hP { skeinT with plies := [plyInT] }
def hD' : State := hD { skeinT with dist := distInT }
-- CapabilityRegisters
theorem wit_cap : ∃ r f c s1, Issues (rd 0) r f sP c s1 ∧ (Settled c ∧ f.csr = 0x0000) := issues_of (by decide +kernel)
theorem wit_cap_stepping : ∃ r f c s1, Issues (rd 1) r f sD c s1 ∧ (Settled c ∧ f.csr = 0x0001) := issues_of (by decide +kernel)
theorem wit_cap_core : State.reset.cur = .core 0 ∧ CoreReady (State.reset.core 0) ∧ (0x1F : BitVec 8).toNat < 0x20 ∧
    Fields.csr (fl 0 .b32 0x1F 0 0 0 0) = 0 ∧ Fields.csr (fl 0 .b32 0x1F 0 0 1 0) = 1 := by decide
-- RegisterPrivilege
theorem wit_priv_core : ∃ r f c s1, Issues (rd 0x0A08) r f sP c s1 ∧ (f.csr ∈ coreNumbers) := issues_of (by decide +kernel)
theorem wit_priv_trap : ∃ r f c s1, Issues (wr 0x0500) r f sP c s1 ∧ (f.csr ∈ trapNumbers ∧ c.handler = false) := issues_of (by decide +kernel)
theorem wit_priv_scale : ∃ r f c s1, Issues (wr 0x0100) r f sD c s1 ∧ (f.csr = 0x0100) := issues_of (by decide +kernel)
theorem wit_priv_detwin : ∃ r f c s1, Issues (wr 0x0802) r f sP c s1 ∧ (f.csr = 0x0802 ∧ c.dist = false) := issues_of (by decide +kernel)
-- RegisterAccess
theorem wit_write_flags : ∃ r f c s1, Issues (wr 0x0300) r f sP c s1 ∧
    (c.accessPending s1 = false ∧ Settled c ∧ f.csr = 0x0300 ∧ c.dist = false ∧ c.strands ≠ []) := issues_of (by decide +kernel)
theorem wit_write_detwin : ∃ r f c s1, Issues (wr 0x0802) r f (stateT inDist (kS 12)) c s1 ∧
    (c.accessPending s1 = false ∧ Settled c ∧ f.csr = 0x0802 ∧ c.dist = true ∧ 12 ≤ bitsAt (opA f c) 0 6 ∧ bitsAt (opA f c) 0 6 ≤ 55 ∧
      bitsAt (opA f c) 12 44 * 4096 % 2 ^ bitsAt (opA f c) 0 6 = 0) := issues_of (by decide +kernel)
theorem wit_write_detwin_bad : ∃ r f c s1, Issues (wr 0x0802) r f (stateT inDist (kS 11)) c s1 ∧
    (c.accessPending s1 = false ∧ Settled c ∧ f.csr = 0x0802 ∧ c.dist = true ∧ bitsAt (opA f c) 0 6 = 11) := issues_of (by decide +kernel)
theorem wit_write_scratch : ∃ r f c s1, Issues (wr 0x0508) r f hP' c s1 ∧
    (c.accessPending s1 = false ∧ Settled c ∧ f.csr = 0x0508 ∧ c.handler = true) := issues_of (by decide +kernel)
theorem wit_write_scratches : ∀ n ∈ [0x0509, 0x050A, 0x050B, 0x0501, 0x0506], ∃ r f c s1, Issues (wr n) r f hP' c s1 ∧
    (c.accessPending s1 = false ∧ Settled c ∧ f.csr = n ∧ c.handler = true) := by
  intro n hn
  simp only [List.mem_cons, List.not_mem_nil, or_false] at hn
  rcases hn with rfl | rfl | rfl | rfl | rfl <;> exact issues_of (by decide +kernel)
theorem wit_write_readonly : ∀ n ∈ [0x0000, 0x0001, 0x0700], ∃ r f c s1, Issues (wr n) r f sP c s1 ∧
    (c.accessPending s1 = false ∧ Settled c ∧ f.csr ∈ [0x0000, 0x0001, 0x0700]) := by
  intro n hn
  simp only [List.mem_cons, List.not_mem_nil, or_false] at hn
  rcases hn with rfl | rfl | rfl <;> exact issues_of (by decide +kernel)
theorem wit_write_readonly_trap : ∀ n ∈ [0x0500, 0x0502], ∃ r f c s1, Issues (wr n) r f hP' c s1 ∧
    (c.accessPending s1 = false ∧ Settled c ∧ c.handler = true ∧ f.csr ∈ [0x0500, 0x0502]) := by
  intro n hn
  simp only [List.mem_cons, List.not_mem_nil, or_false] at hn
  rcases hn with rfl | rfl <;> exact issues_of (by decide +kernel)
theorem wit_read_flags : ∃ r f c s1, Issues (rd 0x0300) r f sP c s1 ∧ (Settled c ∧ f.csr = 0x0300 ∧ c.dist = false) := issues_of (by decide +kernel)
theorem wit_read_detwin : ∃ r f c s1, Issues (rd 0x0802) r f sD c s1 ∧ (Settled c ∧ f.csr = 0x0802) := issues_of (by decide +kernel)
theorem wit_read_trap : ∃ r f c s1, Issues (rd 0x0500) r f hP' c s1 ∧ (Settled c ∧ c.handler = true ∧ f.csr = 0x0500) := issues_of (by decide +kernel)
theorem wit_read_trap_dist : ∃ r f c s1, Issues (rd 0x050B) r f hD' c s1 ∧ (Settled c ∧ c.handler = true ∧ f.csr = 0x050B) :=
  issues_of (by decide +kernel)
theorem wit_read_ply : ∀ n ∈ [0x0504, 0x0507], ∃ r f c s1, Issues (rd n) r f hP' c s1 ∧ (Settled c ∧ c.handler = true ∧ f.csr ∈ [0x0504, 0x0507]) := by
  intro n hn
  simp only [List.mem_cons, List.not_mem_nil, or_false] at hn
  rcases hn with rfl | rfl <;> exact issues_of (by decide +kernel)
theorem wit_readback : State.reset.cur = .core 0 ∧ CoreReady (State.reset.core 0) ∧ (0x0600, 0xFF) ∈ plainNumbers ∧
    Fields.csr (fl 0 .b32 0 1 6 0 0) = 0x0600 ∧ Fields.csr (fl 0 .b32 2 0 6 0 0) = 0x0600 := by decide
-- CoreStatusRead
theorem wit_status : State.reset.cur = .core 0 ∧ CoreReady (State.reset.core 0) ∧ (0x1F : BitVec 8).toNat < 0x20 ∧
    (∀ p ∈ [(2, 1, 0x0201), (9, 2, 0x0902), (9, 3, 0x0903), (9, 4, 0x0904)],
      Fields.csr (fl 0 .b32 0x1F 0 (BitVec.ofNat 8 p.1) (BitVec.ofNat 8 p.2.1) 0) = p.2.2) := by decide
-- LaunchIssue
def sTrained : State := { State.reset with memReady := 3 }
theorem wit_launch : ∃ r f c s1, Issues (.launch (fl 0 .b32 6 4 0 0 0)) r f (withMap (stateT inPly { skeinT with plies := [{ plyT with exm := 1 }] })) c s1 ∧
    (Prompt c ∧ c.waitNow = .none ∧ c.dist = false ∧ c.active ≠ [] ∧ (∀ p ∈ c.offerAddrs f, p.2.toNat % 64 = 0) ∧ c.accessPending s1 = false ∧
      c.accTraps s1 .global .read 64 false (recordReads f c s1) = none ∧ anyFault (recordReads f c s1) = false ∧
      anyUntrained s1 (recordReads f c s1) = false ∧ anyUnlinked s1 (recordReads f c s1) = false ∧
      anyRetrains s1 (recordReads f c s1) = false) := issues_of (by decide +kernel)
theorem wit_launch_none : ∃ r f c s1, Issues (.launch (fl 0 .b32 6 4 0 0 0)) r f (stateT inPly { skeinT with plies := [{ plyT with exm := 0 }] }) c s1 ∧
    (c.dist = false ∧ c.active = []) := issues_of (by decide +kernel)
theorem wit_launch_misaligned : ∃ r f c s1, Issues (.launch (fl 0 .b32 6 4 0 0 0)) r f
    (withMap (stateT inPly { skeinT with plies := [{ plyT with v := [(128 * 4 + 3, 8)] }] })) c s1 ∧
    (Prompt c ∧ c.waitNow = .none ∧ c.dist = false ∧ c.active ≠ [] ∧
      ((c.offerAddrs f).find? fun p => decide (p.2.toNat % 64 ≠ 0)) = some (3, 8)) := issues_of (by decide +kernel)
theorem wit_launch_core : sTrained.cur = .core 0 ∧ CoreReady (sTrained.core 0) ∧ (1 : BitVec 8).toNat < 0x20 ∧
    (gprOf sTrained 0 1).toNat % 64 = 0 ∧ sTrained.readsAll (gprOf sTrained 0 1).toNat 384 = true ∧ (sTrained.core 0).recording = false := by decide
/-- A recording core whose log of 16 entries, at 0x8000, is full. -/
theorem wit_launch_log_full : let s := { sTrained with cores := [(0, { rplCtl := 0x8000000000008000, rplTail := 1 })] }
    CoreReady (s.core 0) ∧ (gprOf s 0 1).toNat % 64 = 0 ∧ s.readsAll (gprOf s 0 1).toNat 384 = true ∧ (s.core 0).recording = true ∧
    s.logFits 0 1 0 = false := by decide

/-! ## Witnesses: engines -/

def exm0 (k : Skein := skeinT) : State := stateT inPly { k with plies := [{ plyT with exm := 0 }] }
-- CopyCommands
theorem wit_copy : ∃ r f c s1, Issues (.cpy (fl 0 .b32 4 0x80 0x80 0x80 0x24)) r f sD c s1 ∧
    (Settled c ∧ MakesCommand c ∧ decide (CopyOperands .cpy f c) ∧ c.logBusy = false ∧ (s1.spindle c.sp).cqFull (f.m.toNat % 4) = false ∧
      c.sk.evFull = false ∧ 0 < s1.opSeq) := issues_of (by decide +kernel)
theorem wit_copy_ply : ∃ r f c s1, Issues (.cpyk (fl 0 .b32 4 0x80 0x80 0x80 0x03)) r f sP c s1 ∧
    (Settled c ∧ MakesCommand c ∧ decide (CopyOperands .cpyk f c) ∧ c.logBusy = false ∧ (s1.spindle c.sp).cqFull (f.m.toNat % 4) = false ∧
      f.m.getLsbD 5 = false ∧ 0 < s1.opSeq) := issues_of (by decide +kernel)
theorem wit_copy_arg : ∃ r f c s1, Issues (.cpy (fl 0 .b32 4 0x81 0x80 0x80 0x04)) r f sP c s1 ∧ (MakesCommand c ∧ ¬CopyOperands .cpy f c) :=
  issues_of (by decide +kernel)
theorem wit_copy_none : ∃ r f c s1, Issues (.cpy (fl 0 .b32 4 0x81 0x80 0x80 0x04)) r f exm0 c s1 ∧ (¬MakesCommand c) := issues_of (by decide +kernel)
-- MigrateCommand
theorem wit_migrate : State.reset.cur = .core 0 ∧ CoreReady (State.reset.core 0) ∧ (4 : BitVec 8).toNat < 0x20 ∧
    ((nth (State.reset.core 0).cq 3 []).filter fun k => !k.started).length < 16 := by decide
theorem wit_migrate_party : ∃ c, sP.ctx? sP.cur = some c ∧ c.dist = false := ctx_of (by decide +kernel)
-- CopyStaging
theorem wit_stage : ∃ r f c s1, Issues (.stage (fl 0 .b32 4 0 0 0 0)) r f sP c s1 ∧ (Settled c ∧ c.lookahead f = 0 ∧ c.dist = false) :=
  issues_of (by decide +kernel)
theorem wit_stage_dist : ∃ r f c s1, Issues (.stage (fl 0 .b32 4 0 0 0 0)) r f sD c s1 ∧ (Settled c ∧ c.lookahead f = 0 ∧ c.dist = true) :=
  issues_of (by decide +kernel)
theorem wit_qfence : ∃ r f c s1, Issues (.qfence (fl 0 .b32 0 0 0 0 0x1F)) r f sP c s1 ∧
    (c.waitNow = .none ∧ (s1.spindle c.sp).named c.la c.sk (f.m.toNat % 16) false = []) := issues_of (by decide +kernel)
theorem wit_qfence_waits : ∃ r f c s1, Issues (.qfence (fl 0 .b32 0 0 0 0 0x11)) r f (withCopy copyT sD) c s1 ∧
    (c.waitNow = .none ∧ f.m.getLsbD 4 = true ∧ (s1.spindle c.sp).named c.la c.sk (f.m.toNat % 16) false ≠ []) := issues_of (by decide +kernel)
theorem wit_srfence : ∃ r f c s1, Issues (.srfence (fl 0 .b32 0 0 0 0 0)) r f sP c s1 ∧ (c.accessPending s1 = false) := issues_of (by decide +kernel)
-- MatrixCommands
def matT : MatCmd :=
  { id := 8, uid := 1, who := inDist, strands := 0, kind := .tzero, f := fl 0 .b32 0 0 0 0x80 0, opw := 0, off := 0, rowsD := 16, bprD := 16, rowsA := 0
    bprA := 0, rowsB := 0, bprB := 0, idx := [], steps := 256, issued := 0 }
def withMat (k : MatCmd) (s : State) : State := { s with spindles := [(0, { s.spindle 0 with mq := [k] })] }
theorem wit_tcfg : ∃ r f c s1, Issues (.tcfg (fl 0 .b32 0 0x81 2 0 0)) r f (stateT inDist (kS 256)) c s1 ∧
    ((1 ≤ (opA f c).toNat ∧ (opA f c).toNat ≤ 128 ∧ (opB f c).toNat % 16 = 0 ∧ 16 ≤ (opB f c).toNat ∧ (opB f c).toNat ≤ 256 ∧
      (opA f c).toNat * (opB f c).toNat ≤ 16384) ∧ (s1.spindle c.sp).tileBusy c.la c.sk f.d.toNat = false) := issues_of (by decide +kernel)
theorem wit_tcfg_busy : ∃ r f c s1, Issues (.tcfg (fl 0 .b32 0 0x81 2 0 0)) r f (withMat matT (stateT inDist (kS 256))) c s1 ∧
    ((1 ≤ (opA f c).toNat ∧ (opA f c).toNat ≤ 128 ∧ (opB f c).toNat % 16 = 0 ∧ 16 ≤ (opB f c).toNat ∧ (opB f c).toNat ≤ 256 ∧
      (opA f c).toNat * (opB f c).toNat ≤ 16384) ∧ (s1.spindle c.sp).tileBusy c.la c.sk f.d.toNat = true) := issues_of (by decide +kernel)
theorem wit_tcfg_bad : ∃ r f c s1, Issues (.tcfg (fl 0 .b32 0 0x81 2 0 0)) r f (stateT inDist (kS 272)) c s1 ∧ (¬(opB f c).toNat ≤ 256) :=
  issues_of (by decide +kernel)
/-- Tiles shaped for a product of 64 rows and 16 columns over 32 elements of bf16. -/
def kMat : Skein := { skeinT with tiles := [{ rows := 64, bpr := 64 }, { rows := 64, bpr := 64 }, { rows := 16, bpr := 64 }] ++ List.replicate 13 {} }
theorem wit_mma : ∃ r f c s1, Issues (.mma (fl 1 .bf16 0 1 2 0x80 0x20)) r f (stateT inDist kMat) c s1 ∧
    (Settled c ∧ MakesCommand c ∧ c.opWordOk .mma f (op1 f.c c) = true ∧
      productShapesOk .mma f (op1 f.c c) (c.tile f.d) (c.tile f.a) (c.tile f.b) = true ∧
      (s1.spindle c.sp).mqFull = false ∧ c.sk.evFull = false) := issues_of (by decide +kernel)
theorem wit_tzero : ∃ r f c s1, Issues (.tzero (fl 0 .b32 0 0 0 0x80 0)) r f sP c s1 ∧
    (Settled c ∧ MakesCommand c ∧ c.opWordOk .tzero f (op1 f.c c) = true ∧
      moveShapesOk .tzero f (op1 f.a c).toNat c.la.hdr.scratch (c.tile f.d) (c.tile f.a) = true ∧
      (s1.spindle c.sp).mqFull = false) := issues_of (by decide +kernel)
-- with an access of its issuer outstanding
theorem wit_matrix_waits_not : ∃ r f c s1, Issues (.mma (fl 1 .bf16 0 1 2 0x80 0)) r f
    { stateT inDist kMat with reqs := [{ reqT with who := inDist }] } c s1 ∧
    (Settled c ∧ MakesCommand c ∧ c.accessPending s1 = true ∧ (s1.spindle c.sp).mqFull = false) := issues_of (by decide +kernel)
theorem wit_matrix_arg : ∃ r f c s1, Issues (.tzero (fl 0 .b32 0 0 0 2 0)) r f (stateT inDist (kS 128)) c s1 ∧
    (MakesCommand c ∧ 32 * c.la.hdr.barCount ≤ bitsAt (op1 f.c c) 0 16) := issues_of (by decide +kernel)
theorem wit_matrix_word : ∃ r f c s1, Issues (.tzero (fl 0 .b32 0 0 0 2 0)) r f (stateT inDist (kS 0x10000)) c s1 ∧
    (MakesCommand c ∧ ¬OpWordLegal c .tzero f (op1 f.c c)) := issues_of (by decide +kernel)
theorem wit_matrix_tiles : ∃ r f c s1, Issues (.mma (fl 1 .bf16 0 1 1 0x80 0)) r f (stateT inDist kMat) c s1 ∧
    (MakesCommand c ∧ ¬TilesLegal .mma f (op1 f.a c).toNat c.la.hdr.scratch (c.tile f.d) (c.tile f.a) (c.tile f.b)) :=
  issues_of (by decide +kernel)
/-- A's scales would begin at byte 4,080 of scale memory. -/
theorem wit_matrix_scales : ∃ r f c s1, Issues (.mmax (fl 1 .e2m1 0 1 2 3 0x40)) r f (stateT inDist { kMat with dist := { skeinT.dist with d := [(3, 0xFF0000)] } }) c s1 ∧
    (MakesCommand c ∧ ¬ScalesFit .mmax f (op1 f.c c) (c.tile f.d) (c.tile f.a)) := issues_of (by decide +kernel)
/-- A SEL in distaff code. -/
theorem wit_matrix_index : ∃ r f c s1, Issues (.mmas (fl 1 .bf16 0 1 2 0x80 1)) r f (stateT inDist kMat) c s1 ∧
    (MakesCommand c ∧ c.indexOk f (op1 f.c c) (indexCount f (c.tile f.d) (c.tile f.a)) = false) := issues_of (by decide +kernel)
/-- Index words of zeros: no pair is ascending. -/
def kMmas : Skein := { kMat with tiles := [{ rows := 64, bpr := 64 }, { rows := 64, bpr := 64 }, { rows := 16, bpr := 128 }] ++ List.replicate 13 {} }
theorem wit_matrix_pair : ∃ r f c s1, Issues (.mmas (fl 1 .bf16 0 1 2 0x80 0)) r f (stateT inPly kMmas) c s1 ∧
    (MakesCommand c ∧ Settled c ∧ OpWordLegal c .mmas f (op1 f.c c) ∧
      TilesLegal .mmas f (op1 f.a c).toNat c.la.hdr.scratch (c.tile f.d) (c.tile f.a) (c.tile f.b) ∧
      ScalesFit .mmas f (op1 f.c c) (c.tile f.d) (c.tile f.a) ∧ c.indexOk f (op1 f.c c) (indexCount f (c.tile f.d) (c.tile f.a)) = true ∧
      c.dist = false ∧ 0 < indexCount f (c.tile f.d) (c.tile f.a) ∧ NotAscending (c.indexWord f (op1 f.c c) 0)) := issues_of (by decide +kernel)
theorem wit_matrix_pair_dist : ∃ r f c s1, Issues (.mmas (fl 1 .bf16 0 1 2 0x80 0)) r f (stateT inDist kMmas) c s1 ∧
    (MakesCommand c ∧ Settled c ∧ OpWordLegal c .mmas f (op1 f.c c) ∧
      TilesLegal .mmas f (op1 f.a c).toNat c.la.hdr.scratch (c.tile f.d) (c.tile f.a) (c.tile f.b) ∧
      ScalesFit .mmas f (op1 f.c c) (c.tile f.d) (c.tile f.a) ∧ c.indexOk f (op1 f.c c) (indexCount f (c.tile f.d) (c.tile f.a)) = true ∧
      c.dist = true ∧ 0 < indexCount f (c.tile f.d) (c.tile f.a) ∧ NotAscending (c.indexWord f (op1 f.c c) 0)) := issues_of (by decide +kernel)
theorem wit_matrix_none : ∃ r f c s1, Issues (.tzero (fl 0 .b32 0 0 0 0x80 0)) r f exm0 c s1 ∧ (¬MakesCommand c) := issues_of (by decide +kernel)
-- SetWindow: the last of the skein's four arrays, and one line
def winT : Word := 3 ||| 1 <<< 10 ||| 895 <<< 32 ||| 1 <<< 42
theorem wit_window : ∃ r f c s1, Issues (.xwin (fl 0 .b32 0 2 0 0 0)) r f (stateT inDist (kS winT)) c s1 ∧
    (MakesCommand c ∧ s1.skein? c.sp c.slot = some c.sk ∧ WindowLegal c.la.hdr.xarrays (opA f c)) := issues_of (by decide +kernel)
theorem wit_window_bad : ∃ r f c s1, Issues (.xwin (fl 0 .b32 0 2 0 0 0)) r f (stateT inPly (kS (winT + 1))) c s1 ∧
    (MakesCommand c ∧ s1.skein? c.sp c.slot = some c.sk ∧ ¬WindowLegal c.la.hdr.xarrays (opA f c)) := issues_of (by decide +kernel)
theorem wit_window_none : ∃ r f c s1, Issues (.xwin (fl 0 .b32 0 0x80 0 0 0)) r f exm0 c s1 ∧ (¬MakesCommand c) := issues_of (by decide +kernel)
-- CrossbarCommands
theorem wit_xinit : ∃ r f c s1, Issues (.xinit (fl 0 .b32 0x3F 0 0 0 1)) r f (stateT inDist { skeinT with win := winT }) c s1 ∧
    (Settled c ∧ MakesCommand c ∧ c.sk.win ≠ 0 ∧ (s1.spindle c.sp).xqFull = false ∧ 0 < s1.opSeq) :=
  issues_of (by decide +kernel)
theorem wit_xstat : ∃ r f c s1, Issues (.xstat (fl 0 .b32 4 2 0 0 0)) r f (stateT inPly (kS 0x300)) c s1 ∧
    (Settled c ∧ MakesCommand c ∧ bitsAt (op1 f.a c) 18 45 = 0 ∧ (op1 f.a c).getLsbD 63 = false ∧ bitsAt (op1 f.a c) 8 10 < c.la.hdr.xarrays ∧
      (s1.spindle c.sp).xqFull = false ∧ 0 < s1.opSeq) := issues_of (by decide +kernel)
theorem wit_xg : ∃ r f c s1, Issues (.xg (fl 0 .b32 0 0x40 0x41 0 8)) r f (stateT inPly { skeinT with win := winT }) c s1 ∧
    (Settled c ∧ MakesCommand c ∧ c.sk.win ≠ 0 ∧ CodesLegal c.sk.win (gateCodes f) ∧
      (s1.spindle c.sp).xqFull = false ∧ 0 < s1.opSeq) := issues_of (by decide +kernel)
theorem wit_crossbar_arg : ∃ r f c s1, Issues (.xration (fl 0 .b32 0 0x81 0 0 0)) r f sD c s1 ∧
    (MakesCommand c ∧ ¬(2 ≤ (op1 f.a c).toNat ∧ (op1 f.a c).toNat ≤ 65535)) := issues_of (by decide +kernel)
theorem wit_crossbar_none : ∃ r f c s1, Issues (.xration (fl 0 .b32 0 0x81 0 0 0)) r f exm0 c s1 ∧ (¬MakesCommand c) := issues_of (by decide +kernel)
-- CrossbarAccess: the last array
theorem wit_xrd : ∃ r f c s1, Issues (.xrd (fl 0 .b32 4 2 0 0 0)) r f (stateT inDist (kS 0x3FFC00)) c s1 ∧
    (Settled c ∧ MakesCommand c ∧ 0 < s1.opSeq ∧ decide (∀ p ∈ c.xaddrs false f, CrossAddress c (f.m.getLsbD 5) false p.2)) := issues_of (by decide +kernel)
theorem wit_xrd_ply : ∃ r f c s1, Issues (.xrd (fl 0 .b32 4 2 0 0 0)) r f (stateT inPly (kS 0x3FFC00)) c s1 ∧
    (Settled c ∧ MakesCommand c ∧ 0 < s1.opSeq ∧ decide (∀ p ∈ c.xaddrs false f, CrossAddress c (f.m.getLsbD 5) false p.2) ∧ c.dist = false) :=
  issues_of (by decide +kernel)
theorem wit_xrdq : ∃ r f c s1, Issues (.xrdQ (fl 0 .b32 4 2 0 0 0x80)) r f (stateT inPly (kS 0x3FFC00)) c s1 ∧
    (Settled c ∧ MakesCommand c ∧ 0 < s1.opSeq ∧ decide (∀ p ∈ c.xaddrs true f, CrossAddress c (f.m.getLsbD 5) false p.2) ∧
      (s1.spindle c.sp).xqFull = false) := issues_of (by decide +kernel)
theorem wit_xwr : ∃ r f c s1, Issues (.xwr (fl 0 .b32 4 2 0 0 0)) r f (stateT inPly (kS 0x3DFF40)) c s1 ∧
    (Settled c ∧ MakesCommand c ∧ decide (∀ p ∈ c.xaddrs false f, CrossAddress c false true p.2)) := issues_of (by decide +kernel)
theorem wit_xwr_bad : ∃ r f c s1, Issues (.xwr (fl 0 .b32 4 2 0 0 0)) r f (stateT inPly (kS 0x3E0000)) c s1 ∧
    ((c.xaddrs false f).find? (fun p => decide (¬CrossAddress c false true p.2)) = some (0, 0x3E0000)) := issues_of (by decide +kernel)
theorem wit_xrd_bad : ∃ r f c s1, Issues (.xrd (fl 0 .b32 4 2 0 0 0)) r f (stateT inPly (kS 0x400000)) c s1 ∧
    ((c.xaddrs false f).find? (fun p => decide (¬CrossAddress c (f.m.getLsbD 5) false p.2)) = some (0, 0x400000)) := issues_of (by decide +kernel)
theorem wit_xrdq_bad : ∃ r f c s1, Issues (.xrdQ (fl 0 .b32 4 2 0 0 0x80)) r f (stateT inDist (kS 0x400000)) c s1 ∧
    ((c.xaddrs true f).find? (fun p => decide (¬CrossAddress c (f.m.getLsbD 5) false p.2)) = some (0, 0x400000)) := issues_of (by decide +kernel)
theorem wit_xaccess_none : ∃ r f c s1, Issues (.xrd (fl 0 .b32 4 2 0 0 0)) r f exm0 c s1 ∧ (¬MakesCommand c) := issues_of (by decide +kernel)


/-! ## Witnesses: the steps of launches and skeins -/

-- LaunchSteps
def offT : Offer := { who := .core 0, tid := 0, addr := 0x40, bytes := [], nw := true, base := none, region := none, asid := 0 }
/-- A core's offer waits at an arbiter with n launches accepted and not ended. -/
def sOff (n : Nat) (nw : Bool) : State :=
  { sP with acceptCount := 4096, launches := (List.range n).map (fun i => (i, launchT)), offers := [{ offT with nw := nw }]
            cores := [(0, { wait := .launch (some 5) })] }
theorem wit_accepted : (sOff 4095 true).offers = offT :: [] ∧ offT.who = .core 0 ∧ ((sOff 4095 true).core 0).recording = false ∧
    ((sOff 4095 true).core 0).replaying = false ∧ ((sOff 4095 true).core 0).wait = .launch (some 5) ∧
    (sOff 4095 true).liveLaunches.length < 4096 := by decide +kernel
/-- Behind an offer of a recording core whose log lies in a package that is not linked, and behind one without NW where the arbiter is full. -/
def offB : Offer := { offT with who := .core 1, nw := false }
def sOffs (n : Nat) : State :=
  { sOff n true with offers := [offB, offT], cores := [(0, { wait := .launch (some 5) }), (1, { rplCtl := 0x8000400000000000, wait := .launch (some 5) })] }
theorem wit_accepted_behind : (sOffs 4095).offers = [offB] ++ offT :: [] ∧ ((sOffs 4095).core 0).recording = false ∧ ((sOffs 4095).core 0).replaying = false ∧
    ((sOffs 4095).core 0).wait = .launch (some 5) ∧ (sOffs 4095).liveLaunches.length < 4096 ∧ ∀ x ∈ [offB], (sOffs 4095).logBlocks x = true := by
  decide +kernel
theorem wit_full_behind : (sOffs 4096).offers = [offB] ++ offT :: [] ∧ 4096 ≤ (sOffs 4096).liveLaunches.length ∧ offT.nw = true ∧
    ∀ x ∈ [offB], x.nw = false ∨ (sOffs 4096).logBlocks x = true := by decide +kernel
theorem wit_full : (sOff 4096 true).offers = offT :: [] ∧ ((sOff 4096 true).core 0).recording = false ∧ ((sOff 4096 true).core 0).replaying = false ∧
    ((sOff 4096 true).core 0).wait = .launch (some 5) ∧ 4096 ≤ (sOff 4096 true).liveLaunches.length ∧ offT.nw = true := by decide +kernel
theorem wit_full_waits : (∀ x ∈ (sOff 4096 false).offers, x.nw = false) ∧ 4096 ≤ (sOff 4096 false).liveLaunches.length := by
  decide +kernel
/-- A record of zeros is not legal. -/
theorem wit_bad_record : FirstFailure (sOff 4095 true) offT .badRecord ∧ chainWaits (sOff 4095 true) 9 (LRecord.ofBytes offT.addr offT.bytes).region.toNat = false :=
  ⟨Or.inl ⟨by decide +kernel, rfl⟩, by decide +kernel⟩
/-- A legal record of one skein, whose image lies on no page. -/
def offI : Offer := { offT with bytes := List.replicate 0x18 0 ++ [1, 0, 0, 0, 1, 0, 0, 0, 1, 0, 0, 0] ++ List.replicate 348 0 }
theorem wit_bad_image : FirstFailure (sOff 4095 true) offI .badImage ∧ chainWaits (sOff 4095 true) 9 (LRecord.ofBytes offI.addr offI.bytes).region.toNat = false :=
  ⟨Or.inr (Or.inl ⟨by decide +kernel, Or.inl (by decide +kernel), rfl⟩), by decide +kernel⟩
def depL : Launch := { launchT with st := .waiting, placed := 0, dealt := false, lrec := { launchT.lrec with ndeps := 1, deps := [0x5000, 0, 0, 0] } }
/-- A launch that waits for the event at 0x5000. -/
def sDep (w : Word) : State := (withMap (stateT inPly skeinT depL)).paWrite 0x5000 8 w
/-- What DependenceObserved supposes, and the status word that is there. -/
abbrev DepIs (w : Word) : Prop :=
  aget? (sDep w).launches 0 = some depL ∧ depL.st = .waiting ∧ depL.result = none ∧ 0 < depL.lrec.ndeps ∧ nth depL.depSeen 0 true = false ∧
  nth depL.depAsleep 0 false = false ∧ (nth depL.lrec.deps 0 0).toNat < 2 ^ 56 ∧ MappedAt (sDep w) depL.asid depL.root 0x5000 0x5000 ⟨true, true, true, 0⟩ ∧
  (sDep w).readable 0x5000 = true ∧ (sDep w).paRead 0x5000 8 = w
theorem wit_dep_not_done : DepIs 0x7FFFFFFFFFFFFFFF := by decide +kernel
theorem wit_dep_failed : DepIs 0x8000000000000001 := by decide +kernel
theorem wit_dep_done : DepIs 0x8000000000000000 := by decide +kernel
def outL (d : Word) : Launch := { launchT with result := some .depFailed, lrec := { launchT.lrec with done := d } }
def sOut (d : Word) : State := { withMap (stateT inPly skeinT (outL d)) with time := 77 }
theorem wit_outcome_no_event : aget? (sOut 0).launches 0 = some (outL 0) ∧ (outL 0).result = some .depFailed ∧ (outL 0).st ≠ .ended ∧
    (outL 0).outAsleep = false ∧ (∀ x ∈ (sOut 0).strWait, x.1 ≠ 0) ∧ (outL 0).lrec.done = 0 := by decide +kernel
theorem wit_outcome : aget? (sOut 0x5FF0).launches 0 = some (outL 0x5FF0) ∧ (outL 0x5FF0).result = some .depFailed ∧ (outL 0x5FF0).st ≠ .ended ∧
    (outL 0x5FF0).outAsleep = false ∧ (outL 0x5FF0).lrec.done ≠ 0 ∧ (outL 0x5FF0).lrec.done.toNat % 16 = 0 ∧
    MappedAt (sOut 0x5FF0) 0 0x1000 0x5FF0 0x5FF0 ⟨true, true, true, 0⟩ ∧ Owned (sOut 0x5FF0) 0x5FF0 16 ∧
    (outL 0x5FF0).stamped ≠ some (sOut 0x5FF0).time := by decide +kernel
/-- Its stamp is the time, and DONE is still to be written. -/
def outDone : Launch := { outL 0x5FF0 with stamped := some 77 }
def sOutDone : State := { withMap (stateT inPly skeinT outDone) with time := 77 }
theorem wit_outcome_done : aget? sOutDone.launches 0 = some outDone ∧ outDone.result = some .depFailed ∧ outDone.st ≠ .ended ∧ outDone.outAsleep = false ∧
    MappedAt sOutDone 0 0x1000 0x5FF0 0x5FF0 ⟨true, true, true, 0⟩ ∧ Owned sOutDone 0x5FF0 16 ∧ outDone.stamped = some sOutDone.time := by decide +kernel
def dealL : Launch := { launchT with st := .queued, placed := 0, dealt := false, lrec := { launchT.lrec with gridX := 9 } }
def sDeal : State := { stateT inPly skeinT dealL with frames := [(0, { plimit := 64 }), (3, { plimit := 64 })], dealPtr := 1 }
theorem wit_dealt : aget? sDeal.launches 0 = some dealL ∧ dealL.st = .queued ∧ dealL.dealt = false ∧ dealL.result = none ∧ dealL.isDealt = true ∧
    (List.range sDeal.nFrames).filter (fun n => (sDeal.frame n).limit != 0) = [0, 3] := by decide +kernel
-- PlacementSteps: a region that allows everything, a queued launch of 8 skeins, and a frame that has two of them
def rcbP : Rcb := { rcbT with spindles := 256, xarrays := 1024, saveArea := 0x1000000, saveSize := 0x100000 }
def placeL : Launch :=
  { launchH with st := .queued, placed := 0, hdr := { loadHeader with xarrays := 0, tiles := 0 }, lrec := { launchH.lrec with gridX := 8 } }
def frP : Frame := { plimit := 64, queue := [(0, 3), (0, 4)] }
def sPlace (l : Launch) : State :=
  { stateT inPly skeinT l with rcbs := [rcbP], cdie := 15, time := 100, spindles := [], frames := [(0, frP)] }
theorem wit_dispatch : 0 < (sPlace placeL).nFrames ∧ ((sPlace placeL).frame 0).st = 0 ∧ ((sPlace placeL).frame 0).gating = false ∧
    ((sPlace placeL).frame 0).decideAt + 50 ≤ (sPlace placeL).time ∧
    (let s' := ((sPlace placeL).modFrame 0 fun f => { f with decideAt := (sPlace placeL).time }).starveStep 0
     (s'.choose (s'.frame 0) (s'.candidates 0)).map Prod.fst = some 0 ∧ (s'.frame 0).head 0 = some 3 ∧ s'.bestSpindle 0 0 3 = some 0) := by decide +kernel
def detL : Launch := { placeL with lrec := { placeL.lrec with flags := 4 } }
def sDet : State := { sPlace detL with frames := [(1, { plimit := 64 })] }
theorem wit_det_place : aget? sDet.launches 0 = some detL ∧ sDet.detReady detL = true ∧ sDet.detFrame detL = some 1 ∧
    sDet.choose (sDet.frame 1) (sDet.candidates 1) = some (0, [(0, 1048576, 0)]) ∧ sDet.bestSpindle 1 0 detL.placed = some 16 := by decide +kernel
def baseL : Launch := { placeL with base := some 0x100, hdr := { loadHeader with xarrays := 0, tiles := 0, vregs := 128 } }
def sBase : State := { sPlace baseL with units := 0x0000030000104C3F }
theorem wit_base_place : aget? sBase.launches 0 = some baseL ∧ baseL.base = some 0x100 ∧ baseL.result = none ∧ (baseL.st = .queued ∨ baseL.st = .running) ∧
    baseL.placed < baseL.lrec.skeins ∧ sBase.fitsOnBase 0x100 0 = true := by decide +kernel
def sSteal : State := { sPlace placeL with frames := [(0, { plimit := 64 }), (1, frP)] }
def asked (s : State) : State := { s with spindles := [(2, { steal := some 1 })] }
theorem wit_steal_request : sSteal.computeSpindle 2 = true ∧ 1 < sSteal.nFrames ∧ sSteal.mayAsk 2 = true := by decide +kernel
theorem wit_steal_none : let s := asked { sSteal with frames := [(0, { plimit := 64 })] }
    s.computeSpindle 2 = true ∧ (s.spindle 2).steal = some 1 ∧ s.choose (s.frame 1) (s.frame 1).accs = none := by decide +kernel
theorem wit_steal_fits : let s := asked sSteal
    s.computeSpindle 2 = true ∧ (s.spindle 2).steal = some 1 ∧ s.choose (s.frame 1) (s.frame 1).accs = some (0, [(0, 1048576, 0)]) ∧
    (s.frame 1).tail 0 = some 4 ∧ s.fits 2 0 4 = true := by decide +kernel
theorem wit_steal_not : let s := asked { sSteal with cdie := 0 }
    s.computeSpindle 2 = true ∧ (s.spindle 2).steal = some 1 ∧ s.choose (s.frame 1) (s.frame 1).accs = some (0, [(0, 1048576, 0)]) ∧
    (s.frame 1).tail 0 = some 4 ∧ s.fits 2 0 4 = false := by decide +kernel
def skeinGone : Skein := { skeinT with dist := { exited := true }, plies := [{ plyT with exited := 3, paths := List.replicate 16 {} }] }
theorem wit_retire : (stateT inPly skeinGone).skein? 0 0 = some skeinGone ∧ (stateT inPly skeinGone).mayRetire 0 skeinGone = true ∧
    aget? (stateT inPly skeinGone).launches skeinGone.launch = some launchT := by decide +kernel

/-! ## Witnesses: what a party waits for, and what it has left behind -/

-- WaitsEnd: a barrier object at 0x20 with phase 3
def scrT (n : Nat) : Sparse 8 := [(0x20, 1), (0x24, BitVec.ofNat 8 n)]
def fBar : Fields := fl 0 .b32 4 0x80 0 0 0
def pathW (w : Wait) : Ply := { plyT with paths := { valid := true, pc := 0x4000, strands := 3, st := .blocked, wait := w } :: List.replicate 15 {} }
/-- The ply waits so; the distaff waits so. -/
def sPW (w : Wait) (k : Skein := skeinT) : State := stateT inPly { k with plies := [pathW w] }
def sDW (w : Wait) (k : Skein := skeinT) : State := stateT inDist { k with dist := { k.dist with wait := w } }
theorem wit_barw_end : ∃ c, (sPW (.barw fBar 0x20 2) { skeinT with scratch := scrT 3 }).ctx? inPly = some c ∧ (c.live = true ∧ Settled c ∧
    c.waitNow = .barw fBar 0x20 2 ∧ c.lookahead fBar = 0 ∧
    phaseAt (scratchIn c (sPW (.barw fBar 0x20 2) { skeinT with scratch := scrT 3 })) 0x20 ≠ (2 : BitVec 32).toNat) := ctx_of (by decide +kernel)
theorem wit_barw_stays : ∃ c, (sDW (.barw fBar 0x20 3) { skeinT with scratch := scrT 3 }).ctx? inDist = some c ∧ (c.live = true ∧ Settled c ∧
    c.waitNow = .barw fBar 0x20 3 ∧ c.lookahead fBar = 0 ∧
    phaseAt (scratchIn c (sDW (.barw fBar 0x20 3) { skeinT with scratch := scrT 3 })) 0x20 = (3 : BitVec 32).toNat) := ctx_of (by decide +kernel)
theorem wit_barx_end : ∃ c, (sPW (.barx fBar 0x20 2) { skeinT with scratch := scrT 3 }).ctx? inPly = some c ∧ (c.live = true ∧ Settled c ∧
    c.waitNow = .barx fBar 0x20 2 ∧ c.lookahead fBar = 0 ∧
    phaseAt (scratchIn c (sPW (.barx fBar 0x20 2) { skeinT with scratch := scrT 3 })) 0x20 ≠ (2 : BitVec 32).toNat) := ctx_of (by decide +kernel)
/-- Tag 7 at generation 5, whose last arrival came at a time; the distaff waits on a generation. -/
def sTbar (g : BitVec 16) (at_ : Nat) : State := { sDW (.tbar fBar 7 g) with time := 256, tags := [(7, { en := true, gen := 5, flips := [(4, at_)] })] }
theorem wit_tree_release : ∃ c, (sTbar 4 0).ctx? (.dist 0 0) = some c ∧ (c.live = true ∧ c.waitNow = .tbar fBar 7 4 ∧
    4 ≠ ((sTbar 4 0).tag 7).gen ∧ ∀ q ∈ ((sTbar 4 0).tag 7).flips, q.1 = 4 → q.2 + 256 ≤ (sTbar 4 0).time) := ctx_of (by decide +kernel)
theorem wit_tree_early : ∃ c, (sTbar 4 1).ctx? (.dist 0 0) = some c ∧ (c.live = true ∧ c.waitNow = .tbar fBar 7 4 ∧
    ∃ q ∈ ((sTbar 4 1).tag 7).flips, q.1 = 4 ∧ (sTbar 4 1).time < q.2 + 256) := ctx_of (by decide +kernel)
theorem wit_tree_current : ∃ c, (sTbar 5 0).ctx? (.dist 0 0) = some c ∧ (c.live = true ∧ c.waitNow = .tbar fBar 7 5 ∧
    5 = ((sTbar 5 0).tag 7).gen) := ctx_of (by decide +kernel)
def sPop (k : Skein) : State := sPW (.dqpop fBar 1) k
theorem wit_decision : ∃ c, (sPop { skeinT with dq := [⟨5, [1]⟩, ⟨6, [0, 1]⟩, ⟨7, [0]⟩] }).ctx? inPly = some c ∧ (c.live = true ∧ Settled c ∧ c.dist = false ∧
    c.waitNow = .dqpop fBar 1 ∧ c.ply.dqBefore 1 = false ∧ c.lookahead fBar = 0 ∧ c.sk.dq = [⟨5, [1]⟩] ++ ⟨6, [0, 1]⟩ :: [⟨7, [0]⟩] ∧ c.plyNo ∉ [1] ∧ c.plyNo ∈ [0, 1]) :=
  ctx_of (by decide +kernel)
theorem wit_decision_drained : ∃ c, (sPop { skeinT with dist := { exited := true } }).ctx? inPly = some c ∧ (c.live = true ∧ Settled c ∧ c.dist = false ∧
    c.waitNow = .dqpop fBar 1 ∧ c.ply.dqBefore 1 = false ∧ c.lookahead fBar = 0 ∧ (∀ e ∈ c.sk.dq, c.plyNo ∉ e.dests) ∧ c.sk.dist.exited = true) := ctx_of (by decide +kernel)
theorem wit_decision_waits : ∃ c, (sPop skeinT).ctx? inPly = some c ∧ (c.live = true ∧ Settled c ∧ c.dist = false ∧
    c.waitNow = .dqpop fBar 1 ∧ c.ply.dqBefore 1 = false ∧ c.lookahead fBar = 0 ∧ (∀ e ∈ c.sk.dq, c.plyNo ∉ e.dests) ∧ c.sk.dist.exited = false) := ctx_of (by decide +kernel)
theorem wit_event : ∃ c, (sDW (.evpop fBar) { skeinT with evq := [7, 8] }).ctx? inDist = some c ∧ (c.live = true ∧ Settled c ∧ c.dist = true ∧
    c.waitNow = .evpop fBar ∧ c.lookahead fBar = 0 ∧ c.sk.evq = 7 :: [8] ∧ c.la.lrec.copyCount ≤ c.sk.statNext) := ctx_of (by decide +kernel)
theorem wit_event_waits : ∃ c, (sDW (.evpop fBar) { skeinT with evHeld := 1 }).ctx? inDist = some c ∧ (c.live = true ∧ Settled c ∧ c.dist = true ∧
    c.waitNow = .evpop fBar ∧ c.lookahead fBar = 0 ∧ c.sk.evq = [] ∧ 0 < c.sk.evHeld) := ctx_of (by decide +kernel)
def fPush : Fields := fl 0 .b32 0 4 0x80 0 0
def fPop : Fields := fl 0 .b32 4 0 0x80 0 0
def sFifoW (w : Wait) (k : Nat) (n : Nat) : State := { sPW w with fifos := [(k, List.replicate n 3)] }
theorem wit_push_end : ∃ c, (sFifoW (.vfpush fPush) (outFifo 0 0) 15).ctx? inPly = some c ∧ (c.live = true ∧ Settled c ∧ c.dist = false ∧ c.waitNow = .vfpush fPush ∧
    c.lookahead fPush = 0 ∧ ((sFifoW (.vfpush fPush) (outFifo 0 0) 15).fifo (outFifo c.sp (opB fPush c).toNat)).length < 16) := ctx_of (by decide +kernel)
theorem wit_push_waits : ∃ c, (sFifoW (.vfpush fPush) (outFifo 0 0) 16).ctx? inPly = some c ∧ (c.live = true ∧ Settled c ∧ c.dist = false ∧ c.waitNow = .vfpush fPush ∧
    c.lookahead fPush = 0 ∧ 16 ≤ ((sFifoW (.vfpush fPush) (outFifo 0 0) 16).fifo (outFifo c.sp (opB fPush c).toNat)).length) := ctx_of (by decide +kernel)
theorem wit_pop_end : ∃ c, (sFifoW (.vfpop fPop) (inFifo 0 0) 2).ctx? inPly = some c ∧ (c.live = true ∧ Settled c ∧ c.dist = false ∧ c.waitNow = .vfpop fPop ∧
    c.lookahead fPop = 0 ∧ (sFifoW (.vfpop fPop) (inFifo 0 0) 2).fifo (inFifo c.sp (opB fPop c).toNat) = 3 :: [3]) := ctx_of (by decide +kernel)
theorem wit_pop_waits : ∃ c, (sPW (.vfpop fPop)).ctx? inPly = some c ∧ (c.live = true ∧ Settled c ∧ c.dist = false ∧ c.waitNow = .vfpop fPop ∧
    c.lookahead fPop = 0 ∧ (sPW (.vfpop fPop)).fifo (inFifo c.sp (opB fPop c).toNat) = []) := ctx_of (by decide +kernel)
/-- The token of a deterministic launch is at a position, and a ply waits for it. -/
def sTokenAt (n : Nat) (y : Ply) : State := stateT inPly { skeinT with plies := [y] } { launchDet with tokenAt := n }
theorem wit_token_round : aget? (sTokenAt 1 plyT).launches 0 = some { launchDet with tokenAt := 1 } ∧ launchDet.det = true ∧
    (sTokenAt 1 plyT).tokenHeld 0 = false ∧ launchDet.lrec.skeins * launchDet.hdr.plies ≤ 1 := by decide +kernel
def plyGone : Ply := { plyT with exited := 3, paths := List.replicate 16 {} }
theorem wit_token_past : aget? (sTokenAt 0 plyGone).launches 0 = some { launchDet with tokenAt := 0 } ∧ (sTokenAt 0 plyGone).tokenHeld 0 = false ∧
    0 < launchDet.lrec.skeins * launchDet.hdr.plies ∧ launchDet.tokenSpot 0 = (0, 0) ∧
    (sTokenAt 0 plyGone).skeinAt 0 0 = some (0, { skeinT with plies := [plyGone] }) ∧ plyGone.gone launchDet.width = true := by decide +kernel
theorem wit_token_arrives : ∃ c, (sTokenAt 0 (pathW .token)).ctx? (.path 0 0 0 0) = some c ∧ ((sTokenAt 0 (pathW .token)).tokenHeld 0 = false ∧
    (launchDet.tokenSpot 0).2 < 1 ∧ (sTokenAt 0 (pathW .token)).skein? 0 0 = some { skeinT with plies := [pathW .token] } ∧
    (sTokenAt 0 (pathW .token)).skeinAt 0 0 = some (0, { skeinT with plies := [pathW .token] }) ∧ (pathW .token).gone launchDet.width = false ∧
    (sTokenAt 0 (pathW .token)).whereIs 1 = some (0, 0) ∧ (pathW .token).curDefs = [] ∧ c.live = true ∧ Settled c ∧ c.waitNow = .token) := ctx_of (by decide +kernel)
-- PartySteps
def landV : Deferred := { strand := 1, land := 4, op := 0, writes := [.v 255 127 9], flags := 1 }
theorem wit_value_lands : ∃ c, (stateT inPly { skeinT with plies := [{ plyT with pos := List.replicate 16 5, defs := [landV] }] }).ctx? inPly = some c ∧
    (c.dist = false ∧ c.ply.exited = 0 ∧ c.ply.trap.mode = false ∧ c.plyNo < c.sk.plies.length ∧ c.ply.defs = [landV] ∧ landV.strand ∈ c.strands ∧
      landV.land < c.ply.curPos landV.strand) := ctx_of (by decide +kernel)
def landD : Deferred := { strand := 0, land := 4, op := 0, writes := [wrAll 31 9], flags := 0 }
theorem wit_value_lands_dist : ∃ c, (stateT inDist { skeinT with dist := { pos := 5, defs := [landD] } }).ctx? inDist = some c ∧
    (c.dist = true ∧ c.sk.dist.exited = false ∧ c.sk.dist.curDefs = [landD] ∧ landD.land < c.sk.dist.curPos) := ctx_of (by decide +kernel)
/-- Two paths wait at one JOIN, a third at a later one. -/
def plyJoin : Ply :=
  { plyT with paths := { valid := true, pc := 0x4010, strands := 4, st := .waiting } :: { valid := true, pc := 0x4000, strands := 2, st := .waiting } ::
                       { valid := true, pc := 0x4000, strands := 1, st := .waiting } :: List.replicate 13 {} }
theorem wit_join_merge : let k : Skein := { skeinT with plies := [plyJoin] }
    (stateT inPly k).skein? 0 0 = some k ∧ k.life = .running ∧ k.pre = .no ∧ (k.ply 0).stopped = false ∧ 0 < k.plies.length ∧ (k.ply 0).curDefs = [] ∧
    ((k.ply 0).paths.all fun e => !e.running) = true ∧ joinAddr (k.ply 0).paths = some 0x4000 := by decide +kernel
theorem wit_credit : ∃ c, (sPW .credit).ctx? inPly = some c ∧ (c.live = true ∧ c.waitNow = .credit) := ctx_of (by decide +kernel)
def ldT : Instr := .ld (fl 0 .b32 4 2 0x80 0 0)
def heldT (b : Bool) : Held := { path := 0, ins := some ldT, pages := [0x5000], woken := b }
def kHeld (b : Bool) : Skein := { skeinT with plies := [{ plyT with held := some (heldT b) }] }
theorem wit_held_woken : ∃ c, (stateT inPly (kHeld true)).ctx? (.path 0 0 0 (heldT true).path) = some c ∧ (c.live = true ∧ ((kHeld true).ply 0).held = some (heldT true) ∧
    (heldT true).ins = some ldT ∧ ldT.row.isSome = true ∧ (heldT true).mayRetry (stateT inPly (kHeld true)) = true) := ctx_of (by decide +kernel)
theorem wit_held_dist : ∀ b, ∃ c, (stateT inDist { skeinT with dist := { pc := 0x4000, held := some (heldT b) } }).ctx? (.dist 0 0) = some c ∧
    (c.sk.dist.held = some (heldT b) ∧ c.live = true ∧ (heldT b).mayRetry sD = b ∧ (heldT b).ins = some ldT ∧ ldT.row.isSome = true)
  | true => ctx_of (by decide +kernel)
  | false => ctx_of (by decide +kernel)
/-- Held at its fetch, for room in the ring. -/
def heldFetch : Held := { path := 0, ins := none, pages := [], woken := false }
theorem wit_held_fetch : ∃ c, (stateT inPly { skeinT with plies := [{ plyT with held := some heldFetch }] }).ctx? (.path 0 0 0 heldFetch.path) = some c ∧
    (c.live = true ∧ c.ply.held = some heldFetch ∧ heldFetch.mayRetry sP = true ∧ heldFetch.ins = none) := ctx_of (by decide +kernel)
theorem wit_held_stays : ∃ c, (stateT inPly (kHeld false)).ctx? (.path 0 0 0 (heldT false).path) = some c ∧ (c.live = true ∧ ((kHeld false).ply 0).held = some (heldT false) ∧
    (heldT false).mayRetry (stateT inPly (kHeld false)) = false) := ctx_of (by decide +kernel)
/-- Held for its record, while the ring is not enabled, hence has no room. -/
def heldRing : Held := { heldT false with pages := [], ring := true }
theorem wit_held_ring : ∃ c, (stateT inPly { skeinT with plies := [{ plyT with held := some heldRing }] }).ctx? (.path 0 0 0 heldRing.path) = some c ∧
    (c.live = true ∧ c.ply.held = some heldRing ∧ heldRing.ring = true ∧ sP.ringFree = 0) := ctx_of (by decide +kernel)
theorem wit_held_copy : let s := withCopy { copyT with asleep := some 0x5000 } sD
    s.spindlePresent 0 = true ∧ (s.copyHead 0 0).map (fun k => (k.asleep.isSome, k.woken)) = some (true, false) := by decide +kernel
theorem owner_of {p : Party} {s : State} {P : Ctx → Prop} [∀ c, Decidable (P c)]
    (hb : (match s.owner? p with | some c => decide (P c) | none => false) = true) : ∃ c, s.owner? p = some c ∧ P c := by
  split at hb
  · rename_i c hc
    exact ⟨c, hc, of_decide_eq_true hb⟩
  · cases hb
/-- A store of 8 bytes across two pages stands in the log of a ply. -/
def logT (b : Bool) : LogEntry :=
  { issued := 0, path := 0, strand := 0, space := .global, op := .store, ty := .b64, accs := [{ tid := 3, addr := 0x5FFC, data := 0x1122334455667788 }], incomplete := false, asleep := b }
def sLog (b : Bool) : State := withMap (stateT inPly { skeinT with plies := [{ plyT with sideLog := [logT b] }] })
theorem wit_log_asleep : ∃ c, (sLog true).owner? inPly = some c ∧ (c.dist = false ∧ c.plyNo < c.sk.plies.length ∧ c.sideLog = logT true :: [] ∧
    (logT true).asleep = true) := owner_of (by decide +kernel)
theorem wit_log_store : ∃ c, (sLog false).owner? inPly = some c ∧ (c.dist = false ∧ c.plyNo < c.sk.plies.length ∧ c.sideLog = logT false :: [] ∧
    let u : ThreadAcc := { tid := 3, st := 0, acc := { tid := 3, addr := 0x5FFC, data := 0x1122334455667788 } }
    anyFault [c.place (sLog false) .global 8 u] = false ∧ anyUntrained (sLog false) [c.place (sLog false) .global 8 u] = false ∧
    c.l1Waits (sLog false) .global [c.place (sLog false) .global 8 u] = false ∧
    ((c.place (sLog false) .global 8 u).pieces.all fun q => match q.2.place q.1.va with | some x => x.2.w | none => true) = true ∧
    ((Ctx.cells c (sLog false) .global 8 u).all fun x => (sLog false).isLocal x.2 && (sLog false).present (offsetOf x.2)) = true) :=
  owner_of (by decide +kernel)
def pendT : TrapRec := { kind := .uncorrected, prec := .imprecise, addr := 7, strand := some 0 }
theorem wit_pending : ∃ c, (hP { skeinT with plies := [{ pathW .credit with pend := [pendT] }] }).ctx? inPly = some c ∧ (c.pending = pendT :: [] ∧ c.live = true ∧
    c.caughtUp (hP { skeinT with plies := [{ pathW .credit with pend := [pendT] }] }) = true ∧ c.waitNow.onItsWay = false ∧ c.atFetch = false ∧
    handlerAt c (hP { skeinT with plies := [{ pathW .credit with pend := [pendT] }] }) ≠ 0 ∧ c.dist = false ∧ c.path.st ≠ .exited ∧ c.plyNo < c.sk.plies.length ∧ AtBoundaries c) :=
  ctx_of (by decide +kernel)
def kPendD : Skein := { skeinT with dist := { pc := 0x4000, wait := .credit, pend := [{ pendT with strand := none }] } }
theorem wit_pending_dist : ∃ c, (hD kPendD).ctx? inDist = some c ∧ (c.pending = { pendT with strand := none } :: [] ∧ c.live = true ∧ c.caughtUp (hD kPendD) = true ∧ c.waitNow.onItsWay = false ∧ c.atFetch = false ∧
    handlerAt c (hD kPendD) ≠ 0 ∧ c.dist = true ∧ c.sk.dist.exited = false) := ctx_of (by decide +kernel)

/-! ## Witnesses: the engines -/

-- CopySteps
theorem wit_copy_start : let s := withCopy copyT sD
    s.spindlePresent 0 = true ∧ s.copyHead 0 0 = some copyT ∧ (s.copyAt 0 0 copyT).map (fun a => a.sk.pre) = some .no ∧
    copyT.started = false ∧ (s.spindle 0).pendingOf copyT.after = [] ∧
    (s.copyAt 0 0 copyT).map (fun a => s.accessesDone a.sk inDist copyT.strands copyT.issued) = some true := by decide +kernel
/-- A core's CPY.mig of two lines, downward by one line more. -/
def migT : CopyCmd := { copyT with uid := 0, who := some (.core 0), mig := some (0x50C0, 0x5000, 128) }
def sMig (k : CopyCmd) : State :=
  { sP with cores := [(0, { cq := [[k], [], [], []], defs := [{ strand := 0, land := 0, op := 9, writes := [.s 4 ones64 0], flags := 0 }] })] }
/-- What CopyStarts supposes of a CPY.mig. -/
abbrev Migrates (k : CopyCmd) : Prop :=
  0 < (sMig k).nCores ∧ (nth ((sMig k).core 0).cq 0 []).head? = some k ∧ k.mig = some (0x50C0, 0x5000, 128) ∧ k.result = none ∧ k.pieces ≤ 128 / 64 ∧
  Owned (sMig k) 0x5000 128 ∧ (∀ i < 128, (sMig k).readable (0x50C0 + i) = true) ∧ 0x5000 + 128 ≤ 0x50C0
theorem wit_migrate_start : Migrates migT ∧ migT.started = false := by decide +kernel
theorem wit_migrate_on : Migrates { migT with started := true, pieces := 1 } ∧ 1 < 128 / 64 := by decide +kernel
def copyDone : CopyCmd := { copyT with started := true, result := some (0, 256), bar := 0x20, bits := 0x4000000000000 }
/-- A CPY of one row of 16 words at 0x5000 to the start of the scratchpad, with its one piece to come. -/
def shapeT : List Byte :=
  natBytes 8 0x5000 ++ [0, 1, 0, 0] ++ List.replicate 4 0 ++ natBytes 4 16 ++ List.replicate 60 0 ++ natBytes 4 16 ++ List.replicate 108 0
def pieceT : CopyCmd := { copyT with started := true, prepared := true, shapeRec := shapeT, rows := [(0, 0, 0)] }
def sPiece : State := withMap (withCopy pieceT sD)
def atT : CopyAt := { sp := 0, q := 0, slot := 0, la := launchT, sk := skeinT }
theorem wit_last_piece : LastPiece sPiece 0 0 pieceT atT (0, 0x140) 0x5000 where
  present := by decide +kernel
  head := by decide +kernel
  place := by decide +kernel
  goesOn := by decide +kernel
  plain := by decide +kernel
  tile := by decide +kernel
  left := by decide +kernel
  whole := fun h => absurd h (by decide)
  apart := by decide +kernel
  mapped := ⟨⟨0, 30, 0, some (0, ⟨true, true, true, 0⟩), false⟩, ⟨true, true, true, 0⟩, by decide +kernel⟩
  there := by decide +kernel
/-- A copy that needs a record while the ring is disabled waits for room, whatever becomes of its page. -/
theorem wit_copy_ring : let k : CopyCmd := { pieceT with ring := true }
    (withCopy k sD).spindlePresent 0 = true ∧ (withCopy k sD).copyHead 0 0 = some k ∧ (withCopy k sD).ringFree = 0 := by decide +kernel
/-- A piece of a tile that a store has read, whole, as it was then. -/
theorem wit_tile_read : let k : CopyCmd := { pieceT with dir := 2, buf := (List.range 128).map fun i => (i, 5) }
    k.reads = false ∧ k.onTile = true ∧ k.buf ≠ [] ∧ (∀ x ∈ k.buf, x.1 < 128) ∧ (List.range 128).all (fun i => k.buf.any fun y => y.1 == i) = true := by decide +kernel
theorem wit_copy_complete : let s := withCopy copyDone sD
    s.spindlePresent 0 = true ∧ s.copyHead 0 0 = some copyDone ∧ (s.copyAt 0 0 copyDone).map (fun a => a.sk.life) = some .running ∧
    copyDone.result = some (0, 256) ∧ copyDone.kind.code ≠ CopyKind.code .cpyg := by decide +kernel
theorem wit_migrate_complete : let k := { migT with started := true, result := some (0, 128) }
    0 < (sMig k).nCores ∧ (nth ((sMig k).core 0).cq 0 []).head? = some k ∧ k.result = some (0, 128) ∧
    ((sMig k).core 0).defs = [{ strand := 0, land := 0, op := k.id, writes := [.s 4 ones64 0], flags := 0 }] := by decide +kernel
-- MatrixCommandSteps: TZERO, TLD and TST, with their last step to come
def sMat (k : MatCmd) : State := withMat k (stateT inDist kMat)
theorem wit_matrix_start : (sMat matT).computeSpindle 0 = true ∧ (sMat matT).matHead 0 = some (matT, 0, kMat) ∧ kMat.pre = .no ∧ matT.started = false ∧
    (sMat matT).accessesDone kMat matT.who matT.strands matT.issued = true := by
  decide +kernel
def matAt (kind : MatKind) : MatCmd := { matT with kind := kind, started := true, done := 3, steps := 4, off := 64 }
abbrev MatStepIs (kind : MatKind) : Prop :=
  (sMat (matAt kind)).computeSpindle 0 = true ∧ (sMat (matAt kind)).matHead 0 = some (matAt kind, 0, kMat) ∧ kMat.pre = .no ∧ (matAt kind).started = true ∧
  (matAt kind).done < (matAt kind).steps ∧ (matAt kind).f.d.toNat < kMat.tiles.length
theorem wit_tzero_step : MatStepIs .tzero := by decide +kernel
theorem wit_tld_step : MatStepIs .tld := by decide +kernel
theorem wit_tst_step : MatStepIs .tst := by decide +kernel
/-- An error of another word, and one that is corrected, leave the byte defined. -/
theorem wit_tile_errors : ∀ e ∈ (matAt .tst).bad ++ [⟨.uncorrected, .d, 25⟩, ⟨.corrected, .d, 24⟩], Defined e (e.part ≠ .d ∨ e.word ≠ (64 * 3 + 7) / 8) := by decide
-- ProductResults: the first and the last step of a K block, and a TCVT
def prodT (kind : MatKind) (done : Nat) (ty : Ty) : MatCmd :=
  { matT with kind := kind, started := true, done := done, steps := 4, f := fl 1 ty 0 1 2 0x80 0, rowsD := 64, bprD := 64, rowsA := 64, bprA := 64, rowsB := 16, bprB := 64 }
abbrev Multiplies (k : MatCmd) : Prop :=
  (sMat k).computeSpindle 0 = true ∧ (sMat k).matHead 0 = some (k, 0, kMat) ∧ kMat.pre = .no ∧ k.started = true ∧ k.done < k.steps ∧
  k.f.d ≠ k.f.a ∧ k.f.d.toNat < kMat.tiles.length
theorem wit_product_first : Multiplies (prodT .mma 0 .bf16) ∧ stepOf (prodT .mma 0 .bf16) = (0, 0, []) := by decide +kernel
theorem wit_product_last : Multiplies (prodT .mma 3 .bf16) ∧ (prodT .mma 3 .bf16).f.d ≠ (prodT .mma 3 .bf16).f.b ∧ NotFilled (sMat (prodT .mma 3 .bf16)) 0 (prodT .mma 3 .bf16) ∧
    stepOf (prodT .mma 3 .bf16) = (0, 0, [0]) ∧ 16 * 0 + 16 ≤ (prodT .mma 3 .bf16).bprD / 4 := by decide +kernel
theorem wit_tcvt_step : Multiplies (prodT .tcvt 3 .bf16) := by decide +kernel
/-- A widening TCVT in the middle of a piece of A. -/
theorem wit_tcvt_mid : let k := { prodT .tcvt 1 .f32 with f := fl 1 .f32 0 1 2 0x80 0x50, piece := List.replicate 64 7 }
    Multiplies k ∧ 64 * k.f.srcTy.bits / k.f.ty.bits = 32 ∧ 32 * k.done % 64 ≠ 0 := by decide +kernel
-- StampWritten: a ring of 16 records at 0x100000, with one place, and with none
def epochT (b : Bool) : Epoch := { tOpen := 1, cOpen := 1, tIn := none, tM0 := none, tM1 := none, pre := false, byMatrix := true, silent := b }
def kStamp (b : Bool) : Skein := { kMat with tiles := modNth kMat.tiles 0 fun x => { x with epoch := some (epochT b) } }
def tstDone : MatCmd := { matAt .tst with done := 4 }
def sStamp (b : Bool) (tail : Nat) : State :=
  { withMat tstDone (stateT inDist (kStamp b)) with string := 0x8000000000100000, strHead := 15, strTail := tail, time := 9 }
abbrev Stamps (b : Bool) (s : State) : Prop :=
  s.computeSpindle 0 = true ∧ s.matHead 0 = some (tstDone, 0, kStamp b) ∧ tstDone.started = true ∧ tstDone.steps ≤ tstDone.done ∧ (kStamp b).life = .running ∧
  tstDone.kind = .tst ∧ (nth (kStamp b).tiles tstDone.f.d.toNat {}).epoch = some (epochT b)
theorem wit_stamp : Stamps false (sStamp false 1) ∧ ((sStamp false 1).string.getLsbD 63 = true ∧
    1 ≤ ((sStamp false 1).strTail + ringSize (sStamp false 1).string - (sStamp false 1).strHead - 1) % ringSize (sStamp false 1).string ∧
    (sStamp false 1).strWait = [] ∧ (sStamp false 1).strReady 1 = true ∧ (sStamp false 1).strHead + 1 ≤ ringSize (sStamp false 1).string ∧
    ∀ i < 32, (sStamp false 1).isLocal (ringBase (sStamp false 1).string + 32 * (sStamp false 1).strHead + i) = true ∧
      (sStamp false 1).present (offsetOf (ringBase (sStamp false 1).string + 32 * (sStamp false 1).strHead + i)) = true) := by decide +kernel
theorem wit_stamp_full : Stamps false (sStamp false 0) ∧
    ((sStamp false 0).strTail + ringSize (sStamp false 0).string - (sStamp false 0).strHead - 1) % ringSize (sStamp false 0).string = 0 := by decide +kernel
theorem wit_stamp_silent : Stamps true (sStamp true 1) ∧ (epochT true).silent = true := by decide +kernel
theorem wit_matrix_complete : let k := { matAt .tld with done := 4 }
    (sMat k).computeSpindle 0 = true ∧ (sMat k).matHead 0 = some (k, 0, kMat) ∧ k.started = true ∧ k.steps ≤ k.done ∧ kMat.life = .running := by decide +kernel
-- CrossbarSteps
def xqT : XqCmd := { id := 8, uid := 1, who := inDist, strands := 0, issued := 0, kind := .step, f := fl 0 .b32 0x3F 0 0 0 1, form := 2, win := winT }
def kX : Skein := { skeinT with win := winT, dist := { skeinT.dist with defs := [{ strand := 0, land := 9, op := 8, writes := [wrAll 4 0], flags := 0 }] } }
def sXq (k : XqCmd) (y : Skein := kX) : State :=
  let s := stateT inDist y { launchT with scheds := [[0x0]] }
  { s with spindles := [(0, { s.spindle 0 with xq := [k] })] }
abbrev XStarts (k : XqCmd) : Prop :=
  (sXq k).computeSpindle 0 = true ∧ (sXq k).xqHead 0 = some (k, 0, kX) ∧ k.started = false ∧ kX.pre = .no ∧ ((sXq k).spindle 0).pendingOf k.after = [] ∧
  (sXq k).heldWaits 0 = false ∧ (sXq k).accessesDone kX k.who k.strands k.issued = true
theorem wit_step_start : XStarts xqT := by decide +kernel
theorem wit_run_start : XStarts { xqT with kind := .run, b := 1 } := by decide +kernel
theorem wit_ration_start : XStarts { xqT with kind := .ration, a := 65535 } := by decide +kernel
theorem wit_stat_start : XStarts { xqT with kind := .stat, a := 0x3FF } := by decide +kernel
theorem wit_map_start : XStarts { xqT with kind := .map, a := 0xFF } := by decide +kernel
theorem wit_map_write_start : XStarts { xqT with kind := .mapWr, a := 0x7F, b := 1023 } ∧ bitsAt 0x7F 0 6 < (kX.axis ((0x7F : Word).getLsbD 6)).map.length := by decide +kernel
theorem wit_rdq_start : XStarts { xqT with kind := .rdq, accs := [(0, 0x3FFC00)] } := by decide +kernel
theorem wit_preset_phase : DirectStep (sXq { xqT with started := true }) 0 0 { xqT with started := true } kX 1 ∧ xqT.form = 2 := by decide +kernel
/-- NOR of scratch line 1 and data line 0 on preset scratch line 0. -/
def gateT : XqCmd := { xqT with started := true, form := 0, f := fl 0 .b32 0 0x01 0x40 0 0x08 }
def kG : Skein := { kX with rowMap := { startMap with cnt := [(0, 15)], tags := [(0, .preset true winT)] } }
theorem wit_gate_phase : DirectStep (sXq gateT kG) 0 0 gateT kG 1 ∧ gateT.form = 0 ∧ gateT.f.gate < 6 ∧
    CodesLegal gateT.win [gateT.f.a.toNat, gateT.f.b.toNat, gateT.f.c.toNat] ∧
    (kG.axis (gateT.f.m.getLsbD 6)).tag (nth (kG.axis (gateT.f.m.getLsbD 6)).map gateT.f.d.toNat 0) = .preset (decide (gateT.f.gate < 4)) gateT.win := by decide +kernel
/-- The tag of another window's preset does not serve. -/
theorem wit_gate_tag : DirectStep (sXq gateT) 0 0 gateT kX 1 ∧ gateT.form = 0 ∧ gateT.f.gate < 6 ∧
    (kX.axis (gateT.f.m.getLsbD 6)).tag (nth (kX.axis (gateT.f.m.getLsbD 6)).map gateT.f.d.toNat 0) ≠ .preset (decide (gateT.f.gate < 4)) gateT.win := by decide +kernel
-- PresetGate: both phases of the same NOR
def gatePT : XqCmd := { gateT with form := 1 }
def gatePT2 : XqCmd := { gatePT with inStep := true, phase := 1, line := 896, ins := [(false, 897), (false, 0)] }
theorem wit_preset_gate : DirectStep (sXq gatePT) 0 0 gatePT kX 2 ∧ gatePT.form = 1 ∧ gatePT.f.gate < 6 ∧
    CodesLegal gatePT.win [gatePT.f.a.toNat, gatePT.f.b.toNat, gatePT.f.c.toNat] := by decide +kernel
theorem wit_preset_gate_second : StepReady (sXq gatePT2) 0 0 gatePT2 kX ∧ gatePT2.kind = .step ∧ gatePT2.inStep = true ∧ gatePT2.phase = 1 ∧ gatePT2.group = 0 ∧
    896 ≤ gatePT2.line ∧ gatePT2.line < 1024 ∧ gatePT2.f.d.toNat < 0x40 ∧
    gatePT2.ins = ([897, 0, 0].take (gateInputs gatePT2.f.gate)).map (fun x => (gatePT2.f.m.getLsbD 6, x)) := by decide +kernel
-- FillPhase: the last data line of the window, and a scratch line
def fillT (d : BitVec 8) : XqCmd := { xqT with started := true, kind := .fill, form := 0, f := fl 0 .b32 d 0 0 0 0, data := [0xF0F0F0F0] }
theorem wit_fill_data : StepReady (sXq (fillT 0x40)) 0 0 (fillT 0x40) kX ∧ CodesLegal (fillT 0x40).win [(fillT 0x40).f.d.toNat] ∧ (fillT 0x40).data ≠ [] := by decide +kernel
theorem wit_fill_scratch : StepReady (sXq (fillT 0x3F)) 0 0 (fillT 0x3F) kX ∧ CodesLegal (fillT 0x3F).win [(fillT 0x3F).f.d.toNat] ∧
    (kX.axis ((fillT 0x3F).f.m.getLsbD 4)).map.length = 64 ∧
    (kX.axis ((fillT 0x3F).f.m.getLsbD 4)).count (nth (kX.axis ((fillT 0x3F).f.m.getLsbD 4)).map 0x3F 0) + 1 ≤ kX.ration := by decide +kernel
-- Rotation: the second line of the pool is free; none is
def kRot (pool : Assoc Nat) : Skein := { kX with ration := 2, rowMap := { startMap with cnt := (63, 2) :: pool } }
def rotT : XqCmd := { xqT with started := true }
def spent : Assoc Nat := (List.range 64).map fun i => (64 + i, 2)
theorem wit_rotation : StepReady (sXq rotT (kRot [(64, 2)])) 0 0 rotT (kRot [(64, 2)]) ∧ rotT.kind = .step ∧ rotT.form = 2 ∧ rotT.inStep = false ∧
    (kRot [(64, 2)]).ration < ((kRot [(64, 2)]).axis (rotT.f.m.getLsbD 6)).count (nth ((kRot [(64, 2)]).axis (rotT.f.m.getLsbD 6)).map rotT.f.d.toNat 0) + 1 ∧
    (∀ y ∈ [960], (kRot [(64, 2)]).ration < ((kRot [(64, 2)]).axis (rotT.f.m.getLsbD 6)).count y + 1) ∧
    ((kRot [(64, 2)]).axis (rotT.f.m.getLsbD 6)).pool = [960] ++ 961 :: (List.range 62).map (962 + ·) ∧
    ((kRot [(64, 2)]).axis (rotT.f.m.getLsbD 6)).count 961 + 1 ≤ (kRot [(64, 2)]).ration := by decide +kernel
theorem wit_rotation_none : StepReady (sXq rotT (kRot spent)) 0 0 rotT (kRot spent) ∧
    ∀ y ∈ ((kRot spent).axis (rotT.f.m.getLsbD 6)).pool, (kRot spent).ration < ((kRot spent).axis (rotT.f.m.getLsbD 6)).count y + 1 := by decide +kernel
-- ScheduleWord: an XINIT word, the last of its one repeat
def runT : XqCmd := { xqT with started := true, kind := .run, b := 1 }
def sRun : State := { sXq runT with launches := [(0, { launchT with scheds := [[0xC10000073F000001]] })] }
theorem wit_schedule_word : StepReady sRun 0 0 runT kX ∧ runT.kind = .run ∧ runT.inStep = false ∧
    (nth (sRun.launch kX.launch).scheds runT.a.toNat [])[runT.step]? = some 0xC10000073F000001 ∧ (Fields.ofWord 0xC10000073F000001 0).d.toNat < 0x40 ∧
    (kX.axis ((Fields.ofWord 0xC10000073F000001 0).m.getLsbD 6)).count (nth (kX.axis ((Fields.ofWord 0xC10000073F000001 0).m.getLsbD 6)).map
      (Fields.ofWord 0xC10000073F000001 0).d.toNat 0) + 1 ≤ kX.ration := by decide +kernel
theorem wit_xq_complete : let k := { xqT with kind := .fill, started := true, finished := true, words := 1, opw := 0x20 }
    (sXq k).computeSpindle 0 = true ∧ (sXq k).xqHead 0 = some (k, 0, kX) ∧ k.finished = true ∧ kX.life = .running := by decide +kernel
def xheldT (b : Bool) : XHeld :=
  { id := 8, uid := 1, who := inDist, strands := 0, f := fl 0 .b32 4 2 0 0 0x40, write := b, accs := [(0, 0x37FFC0, 0x1122334455667788)], after := [] }
def sXheld (b : Bool) : State := { stateT inDist kX with spindles := [(0, { slots := [some kX, none, none, none], xheld := [xheldT b] })] }
theorem wit_xrd_admit : (sXheld false).computeSpindle 0 = true ∧ ((sXheld false).spindle 0).boundary = true ∧ ((sXheld false).spindle 0).slotOf 1 = some 0 ∧
    (sXheld false).skein? 0 0 = some kX ∧ (sXheld false).settling 1 = false ∧ (sXheld false).xready 0 false = some (xheldT false) := by decide +kernel
theorem wit_xwr_perform : (sXheld true).computeSpindle 0 = true ∧ ((sXheld true).spindle 0).boundary = true ∧ ((sXheld true).spindle 0).slotOf 1 = some 0 ∧
    (sXheld true).skein? 0 0 = some kX ∧ (sXheld true).settling 1 = false ∧ (sXheld true).xready 0 true = some (xheldT true) := by decide +kernel

/-! ## Witnesses: writes of system cores and handlers -/

/-- The part with its verified image running. -/
def up (s : State) : State := { s with boot := .running }
-- CoreMemoryWrites: a shootdown of the 4 KiB page at 0x5000 of address space 0, and a wake of it
def shootT : Word := 0x5000
def wakeT : Word := 0x5800
theorem wit_shoot : CoreMay (up sG) 0 0x0603 ∧ shootT.getLsbD 11 = false ∧ (up sG).shootReady shootT = true := by decide +kernel
theorem wit_shoot_range : shootRange shootT = some ⟨0, 0x5000, some 12⟩ ∧ (⟨0, 0x5000, some 12⟩ : ShootRange).hasPage 0 0x5FF8 = true := by decide +kernel
def sReq : State := up { sP with reqs := [{ reqT with va := 0x5008 }] }
theorem wit_shoot_waits : CoreMay sReq 0 0x0603 ∧ shootT.getLsbD 11 = false ∧ sReq.shootReady shootT = false := by decide +kernel
theorem wit_wake : CoreMay (up (stateT inPly (kHeld false))) 0 0x0603 ∧ wakeT.getLsbD 11 = true ∧ shootRange wakeT = some ⟨0, 0x5000, some 12⟩ ∧
    (up (stateT inPly (kHeld false))).skein? 0 0 = some (kHeld false) ∧
    0 < (kHeld false).plies.length ∧ ((kHeld false).ply 0).held = some (heldT false) ∧ 0x5000 ∈ (heldT false).pages ∧
    (⟨0, 0x5000, some 12⟩ : ShootRange).hasPage ((stateT inPly (kHeld false)).launch (kHeld false).launch).asid 0x5000 = true := by decide +kernel
theorem wit_memory_unit : ∀ reg ∈ [0x0604, 0x0605, 0x0606, 0x0607, 0x0A00, 0x0905], CoreMay (up sP) 0 reg ∧ (up sP).fqWait = [] := by decide +kernel
def frT : State := up (sP.modDie 0 fun d => { d with ranges := [{ geom := 0x0000010000000010 }] })
theorem wit_range_off : CoreMay frT 0 0x0401 ∧ (0x0900000000200000 : Word).getLsbD 63 = false ∧ frT.mcRange.toNat < (frT.die frT.mcStack.toNat).ranges.length := by
  decide +kernel
/-- Two ranges of 256 rows of 16 blocks, the other of which is enabled from 2 MiB on, and its scales from 0. -/
def frTwo : State := up (sP.modDie 0 fun d => { d with ranges := [{ geom := 0x0000000100000010, scale := 0x10000 }, { geom := 0x0000000100000010, base := 0x8900000000200000 }] })
theorem wit_range_on : CoreMay frTwo 0 0x0401 ∧ bitsAt (0x8900000000400000 : Word) 56 4 = 9 ∧ (let r := nth (frTwo.die frTwo.mcStack.toNat).ranges frTwo.mcRange.toNat {}
    bitsAt r.geom 24 24 ≠ 0 ∧ bitsAt r.geom 0 16 ≠ 0 ∧ ¬Overlaps frTwo r 0x8900000000400000) ∧
    frTwo.mcRange.toNat < (frTwo.die frTwo.mcStack.toNat).ranges.length := by
  unfold Overlaps
  decide +kernel
theorem wit_range_overlaps : (let r := nth (frTwo.die frTwo.mcStack.toNat).ranges frTwo.mcRange.toNat {}
    bitsAt r.geom 24 24 ≠ 0 ∧ bitsAt r.geom 0 16 ≠ 0 ∧ Overlaps frTwo r 0x8900000000200000) := by
  unfold Overlaps
  decide +kernel
theorem wit_range_format : CoreMay frT 0 0x0401 ∧ (0x8800000000200000 : Word).getLsbD 63 = true ∧ bitsAt (0x8800000000200000 : Word) 56 4 ≠ 9 := by decide +kernel
theorem wit_range_empty : CoreMay (up sP) 0 0x0401 ∧ (0x8900000000200000 : Word).getLsbD 63 = true ∧
    bitsAt (nth (sP.die sP.mcStack.toNat).ranges sP.mcRange.toNat {}).geom 24 24 = 0 := by decide +kernel
/-- A copy that has begun reads through the range. -/
def frBusy : State := { frT with spindles := [(0, { cq := [[{ copyT with started := true, prepared := true, ranges := [(0, 0)] }], [], [], []] })] }
theorem wit_range_accepts : CoreMay frBusy 0 0x0401 ∧ frBusy.mcRange.toNat < (frBusy.die frBusy.mcStack.toNat).ranges.length ∧ frBusy.mcStack.toNat = 0 ∧
    frBusy.mcRange.toNat = 0 ∧ (nth (frBusy.die 0).ranges 0 {}).base ≠ 0x0900000000200000 &&& 0x8F0FFFFFFFE00000 := by decide +kernel
theorem wit_range_busy : RangeAccepts frBusy := ⟨_, .head _, _, .inl (.head _), rfl, by decide +kernel⟩
/-- Address space 0, which the resident skein uses, or 5, which none does; a launch accepted before has its checks still to come. -/
def sSpace (a : BitVec 8) (v : Word) : State :=
  { sP with cur := .core 0, cores := [(0, { gpr := [(1, v)] })], assel := a
            launches := (7, { acc := 7, toCheck := some { who := .core 0, tid := 0, addr := 0x8000, bytes := [], nw := false, base := none, region := none, asid := 0 } }) :: sP.launches }
theorem wit_space : ∀ a ∈ [0, 5], (sSpace a 3).cur = .core 0 ∧ CoreReady ((sSpace a 3).core 0) ∧ (1 : Nat) < 0x20 ∧ (aget? (sSpace a 3).launches 7).isSome = true ∧
    ((sSpace a 3).allSkeins.any fun p => ((sSpace a 3).launch p.2.launch).asid == (sSpace a 3).assel.toNat) = (a == 0) := by decide +kernel
theorem wit_region_bad : CoreMay (up hP) 0 0x0101 ∧ (0x100020 : Word).toNat % 64 ≠ 0 := by decide +kernel
/-- A block beneath another, which memory holds with another priority: a legal one, or one past 15 of its own. -/
def rcbTop : Rcb := { rcbT with addr := 0x200000, inherit := 0x1FF }
def rcbChild : Rcb := { rcbT with parent := 0x200000, inherit := 1, priority := 1 }
def sRegion (prio : Word) : State :=
  up (({ hP with rcbs := [rcbTop, rcbChild] }.paWrite 0x100000 8 0x200000).paWrite 0x100008 8 (prio * 0x10000 + 1))
abbrev Syncs (s : State) : Prop := CoreMay s 0 0x0101 ∧ (0x100000 : Word).toNat % 64 = 0 ∧ bitsAt (0x100000 : Word) 56 8 = 0
def sSync (p : Word) : State :=
  { sRegion p with rcbs := (sRegion p).rcbs.map fun x => if x.addr == 0x100000 then { (sRegion p).readRcb 0x100000 with parent := 0x200000 } else x }
theorem wit_region : Syncs (sRegion 5) ∧ (sRegion 5).rcb? 0x100000 = some rcbChild ∧ (sRegion 5).readsAll 0x100000 128 = true := by decide +kernel
theorem wit_region_chain : (sSync 5).chainOk 0x100000 = true := by decide +kernel
theorem wit_region_broken : (sSync 16).chainOk 0x100000 = false := by decide +kernel
/-- The launch of the resident skein is of region 0x100000, whose budget of spindles a sync lowers to 0. -/
def sLower : State :=
  { stateT inPly skeinT launchH with rcbs := [{ rcbT with inherit := 0x1FF, spindles := 0 }] }
theorem wit_lowered : let old : State := { sLower with rcbs := [{ rcbT with inherit := 0x1FF, spindles := 3 }] }
    sLower.effSpindles 0x100000 < old.effSpindles 0x100000 ∧ sLower.effSpindles 0x100000 < sLower.spindlesHeld 0x100000 ∧
    ((sLower.lowered old).unlower.rcb? 0x100000).map Rcb.lowSpindles = some true ∧ (sLower.lowered sLower).unlower.rcbs = sLower.rcbs := by decide +kernel
theorem wit_region_unread : Syncs (up sP) ∧ (up sP).readsAll 0x100000 128 = true ∧ (up sP).rcb? 0x100000 = none := by decide +kernel
theorem wit_region_waits : Syncs (up { hP with memReady := 0 }) ∧ (up { hP with memReady := 0 }).readsAll 0x100000 128 = false := by decide +kernel
-- ControlWrites
/-- Spindle 0, slot 0, ply 0, path 0. -/
theorem wit_hold_released : ∃ c, (up (sPW .debug)).ctx? (.path (bitsAt 0 15 9) (bitsAt 0 13 2) (bitsAt 0 9 4) (bitsAt 0 5 4)) = some c ∧
    (CoreMay (up (sPW .debug)) 0 0x0A06 ∧ c.waitNow = .debug ∧ c.ply.curDefs = []) := ctx_of (by decide +kernel)
/-- Die 3, base spindle 7. -/
def bsqT : Word := 0xDC00000000001000
theorem wit_base_offer : CoreMay (up sBase) 0 0x0803 ∧ sBase.hasBsv = true ∧ bitsAt bsqT 62 2 < sBase.nStacks ∧ bsqT.getLsbD 61 = false ∧
    bitsAt bsqT 56 2 = 0 ∧ bitsAt bsqT 0 6 = 0 ∧ (up sBase).readsAll (bitsAt bsqT 6 50 * 64) 384 = true := by decide +kernel
/-- Core 0 writes a register from its register 1. -/
def sSel (v : Word) : State := { up sP with cur := .core 0, cores := [(0, { gpr := [(1, v)] })] }
def selT (reg : Nat) : Fields := { csrwFields reg with a := 1 }
abbrev Selects (reg : Nat) (v : Word) : Prop :=
  (sSel v).cur = .core 0 ∧ ((sSel v).core 0).stuck [(selT reg).a] = false ∧ coreRegsOk [] [(selT reg).a] = true ∧ (selT reg).csr = reg ∧
  (sSel v).coreRd 0 (selT reg).a = v
theorem wit_absent : ∀ p ∈ [(0x0200, (15 : Word)), (0x0400, 0x30), (0x0510, 0x1FF00), (0x0701, 0xFF), (0x0803, 0xC000000000000000), (0x0900, 15),
    (0x0A03, 0x1FF0000)], Selects p.1 p.2 := by decide +kernel
/-- On the smaller part every one of them names a unit that is absent. -/
def sSmall (v : Word) : State := { sSel v with units := 0x0000008000082020 }
theorem wit_absent_units : (sSmall 15).nFrames ≤ bitsAt (15 : Word) 0 4 ∧ (sSmall 0x30).nStacks ≤ bitsAt (0x30 : Word) 4 2 ∧
    (sSmall 0x1FF00).spindlePresent (bitsAt (0x1FF00 : Word) 8 9) = false ∧ (sSmall 0xFF).nSpindles ≤ bitsAt (0xFF : Word) 0 8 ∧
    (sSmall 0xC000000000000000).hasBsv = false ∧ (sSmall 15).nFrames ≤ bitsAt (15 : Word) 0 4 ∧
    (sSmall 0x1FF0000).spindlePresent (bitsAt (0x1FF0000 : Word) 16 9) = false := by decide +kernel
theorem wit_extend : CoreMay (up sP) 0 0x0908 ∧ (up sP).secPend = 0 ∧ bitsAt (0x4700000000005000 : Word) 62 2 = 1 ∧ bitsAt (0x4700000000005000 : Word) 56 3 ≠ 0 ∧
    (up sP).readsAll (bitsAt (0x4700000000005000 : Word) 6 46 * 64) 64 = true := by decide +kernel
theorem wit_extend_waits : let s := up { sP with memReady := 0 }
    CoreMay s 0 0x0908 ∧ s.secPend = 0 ∧ s.readsAll (bitsAt (0x4700000000005000 : Word) 6 46 * 64) 64 = false := by decide +kernel
theorem wit_extend_pending : let s := { sP with secPend := 1, secOp := 0x0700000000005000 }
    s.secPend = 1 ∧ s.secOp = (0x4700000000005000 : Word) &&& 0x070FFFFFFFFFFFC0 ∧ s.readsAll (bitsAt (0x4700000000005000 : Word) 6 46 * 64) 64 = true := by decide +kernel
theorem wit_extend_slot0 : CoreMay (up sP) 0 0x0908 ∧ bitsAt (0x4000000000005000 : Word) 62 2 = 1 ∧ bitsAt (0x4000000000005000 : Word) 56 3 = 0 := by decide +kernel
theorem wit_security_busy : (∀ p ∈ [(2, (0x4700000000005000 : Word), 1), (1, 0x8000000000005000, 2)],
    CoreMay (up { sP with secPend := p.1 }) 0 0x0908 ∧ bitsAt p.2.1 62 2 = p.2.2) := by decide +kernel
theorem wit_attest : CoreMay (up sP) 0 0x0908 ∧ (up sP).secPend = 0 ∧ bitsAt (0x8000000000005000 : Word) 62 2 = 2 ∧ bitsAt (0x8000000000005000 : Word) 6 46 * 64 = 0x5000 ∧
    sP.readsAll 0x5000 32 = true ∧ sP.reaches 0x5000 0x300 = true ∧
    (List.range 0x300).all (fun i => sP.isLocal (0x5000 + i) && sP.present (offsetOf (0x5000 + i))) = true := by decide +kernel
theorem wit_pre_hold : CoreMay (up sP) 0 0x0510 ∧ sP.spindlePresent (bitsAt (0x4000000000000000 : Word) 8 9) = true ∧ (up sP).preBusy = false ∧
    bitsAt (0x4000000000000000 : Word) 62 2 = 1 ∧ bitsAt (0x4000000000000000 : Word) 56 2 = 0 ∧ isBase (bitsAt (0x4000000000000000 : Word) 8 9) = false ∧
    (up sP).skein? 0 0 = some skeinT ∧ skeinT.pre = .no := by decide +kernel
theorem wit_pre_release : CoreMay (up sP) 0 0x0510 ∧ sP.spindlePresent (bitsAt (0x8000000000000000 : Word) 8 9) = true ∧ (up sP).preBusy = false ∧
    bitsAt (0x8000000000000000 : Word) 62 2 = 2 ∧ bitsAt (0x8000000000000000 : Word) 56 2 = 0 := by decide +kernel
theorem wit_pre_busy : let s := up (stateT inPly { skeinT with pre := .stopping, preCtl := true })
    CoreMay s 0 0x0510 ∧ s.spindlePresent 0 = true ∧ s.preBusy = true := by decide +kernel
def sFrame (f : Frame) : State := up { sP with frames := [(0, f)] }
theorem wit_gate : CoreMay (sFrame { st := 1 }) 0 0x0902 ∧ (0x8000 : Word).getLsbD 15 = true ∧ ((sFrame { st := 1 }).frame 0).gating = false ∧
    ((sFrame { st := 1 }).frame 0).st < 2 := by decide +kernel
theorem wit_ungate : CoreMay (sFrame { gating := true, force := true }) 0 0x0902 ∧ (0 : Word).getLsbD 15 = false ∧
    ((sFrame { gating := true, force := true }).frame 0).gating = true := by decide +kernel
theorem wit_force_wake : CoreMay (sFrame { st := 2, force := true }) 0 0x0902 ∧ ((sFrame { st := 2, force := true }).frame 0).gating = false ∧
    ((sFrame { st := 2, force := true }).frame 0).st ≠ 0 ∧ ((sFrame { st := 2, force := true }).frame 0).wakeAt = none := by
  decide +kernel
/-- Gating has begun in A1. -/
theorem wit_force_wake_gating : let s := sFrame { st := 1, force := true, gating := true }
    CoreMay s 0 0x0902 ∧ (s.frame 0).gating = true ∧ (s.frame 0).st ≠ 0 ∧ (s.frame 0).wakeAt = none := by decide +kernel
def sA4 : State := up { State.reset with frames := (List.range 16).map fun n => (n, { st := 3 }), idlelat := 5000 }
theorem wit_a4 : CoreMay sA4 0 0x0901 ∧ (0x805F070800001388 : Word).getLsbD 63 = true ∧ sA4.mayA4 = true := by decide +kernel
/-- A distaff in its handler, with two plies: the first runs or is stopped. -/
def kHand (b : Bool) : Skein := { skeinT with dist := distInT, plies := [{ plyT with stopped := b }, plyInT] }
def sHand (b : Bool) : State := stateT inDist (kHand b) { launchH with hdr := { loadHeader with plies := 2 } }
theorem wit_handler_end : ∃ c, (sHand false).ctx? inDist = some c ∧ (c.handler = true ∧ c.live = true ∧ (0x8000000000000000 : Word).getLsbD 63 = true) := ctx_of (by decide +kernel)
theorem wit_handler_stop : ∃ c, (sHand false).ctx? inDist = some c ∧ (c.handler = true ∧ c.live = true ∧ (0x100 : Word).getLsbD 63 = false ∧
    0 < c.sk.plies.length ∧ bitsAt (0x100 : Word) 8 2 = 1 ∧ c.plyState 0 = 0) := ctx_of (by decide +kernel)
theorem wit_handler_run : ∃ c, (sHand true).ctx? inDist = some c ∧ (c.handler = true ∧ c.live = true ∧ (0 : Word).getLsbD 63 = false ∧
    0 < c.sk.plies.length ∧ bitsAt (0 : Word) 8 2 = 0 ∧ c.plyState 0 = 1 ∧ c.trapSt.sel = 0 ∧ bitsAt c.trapSt.rsel 16 4 = 0 ∧ bitsAt c.trapSt.rsel 0 7 < c.w ∧
    bitsAt c.trapSt.rsel 8 8 < c.la.hdr.vregs) := ctx_of (by decide +kernel)

/-! ## Witnesses: memory, pre-emption, power, and what comes from outside -/

-- MemorySteps: package 1 over a link
def link1 (s : State) : State := { s with links := [(0, { up := true, peer := 1, lanes := 8 })] }
def sReq1 (r : RemoteReq) : State := link1 { sP with reqs := [r] }
theorem wit_remote_arrives : (sReq1 reqT).reqs.find? (fun r => r.id == 5) = some reqT ∧ reqT.arrived = false ∧
    (sReq1 reqT).reachable reqT.pa = true ∧ (sReq1 reqT).reqs.takeWhile (fun q => q.id != reqT.id) = [] ∧ reqT.withdrawn = false ∧
    (List.range reqT.n).all (fun i => !(sReq1 reqT).isLocal (reqT.pa + i)) = true ∧ reqT.n ≤ 8 := by decide +kernel
/-- A load whose memory cannot be read yet. -/
def sTraining : State := { sP with reqs := [{ reqT with what := .load, pa := 0x5008 }], memReady := 0 }
theorem wit_remote_trains : sTraining.reqs.map RemoteReq.id = [5] ∧ sTraining.reqs.map RemoteReq.what = [.load] ∧ sTraining.readable 0x5008 = false := by
  decide +kernel
theorem wit_place : PlaceOf (sReq1 reqT) reqT reqT.pa := .inl (by decide)
/-- A withdrawn store whose page now lies here. -/
def reqBack : RemoteReq := { reqT with withdrawn := true, va := 0x5008 }
def sBack : State := { withMap sP with reqs := [reqBack] }
theorem wit_place_back : PlaceOf sBack reqBack 0x5008 :=
  .inr ⟨rfl, by decide +kernel, 0, skeinT, ⟨true, true, true, 0⟩, by decide +kernel, by decide +kernel, by decide⟩
theorem wit_back_arrives : sBack.reqs.find? (fun r => r.id == 5) = some reqBack ∧ reqBack.arrived = false ∧ sBack.reachable 0x5008 = true ∧
    sBack.reqs.takeWhile (fun q => q.id != reqBack.id) = [] ∧ (List.range reqBack.n).all (fun i => sBack.isLocal (0x5008 + i) && sBack.present (offsetOf (0x5008 + i))) = true := by
  decide +kernel
/-- Two threads of one store to one byte; a thread's two stores to one lane; and two withdrawn ones to different lanes. -/
theorem wit_stands : ∀ q ∈ [{ reqT with id := 4, tid := 1, pa := reqT.pa + 3 }, { reqT with id := 4, issued := 7 },
    { reqT with id := 4, issued := 7, pa := reqT.pa + 64, withdrawn := true }], StandsBefore { sP with reqs := [q, reqT] } reqT q := by
  unfold StandsBefore
  decide +kernel
theorem wit_foreign_arrives : 1 ≠ (link1 sP).pkg.toNat ∧ (link1 sP).linked 1 = true ∧ 8 ≤ 8 ∧ 0x5000 + 8 ≤ 0x400000000000 ∧
    (link1 sP).readable ((link1 sP).pkg.toNat * 0x400000000000 + 0x5000) = true ∧ (List.range 8).all (fun i => (link1 sP).present (0x5000 + i)) = true := by
  decide +kernel
def reqDone : RemoteReq := { reqT with arrived := true, old := 0xFFFFFFFF }
theorem wit_reply : (sReq1 reqDone).reqs.find? (fun r => r.id == 5) = some reqDone ∧ reqDone.arrived = true ∧ reqDone.op = 0 ∧
    (sReq1 reqDone).linked (reqDone.pa / 0x400000000000) = true := by decide +kernel
def fRem : Fields := fl 1 .s32 4 2 0x80 0 0
def reqLoad : RemoteReq := { reqDone with op := 9, who := inDist, what := .load }
def kRem : Skein := { skeinT with dist := { skeinT.dist with wait := .remote fRem true 9 } }
def sRem : State := link1 { stateT inDist kRem with reqs := [reqLoad] }
theorem wit_reply_load : ∃ c, sRem.ctx? (.dist 0 0) = some c ∧ (sRem.reqs = [reqLoad] ∧ reqLoad.arrived = true ∧ reqLoad.op ≠ 0 ∧ reqLoad.at_ = 0 ∧
    reqLoad.tid = 0 ∧ sRem.linked (reqLoad.pa / 0x400000000000) = true ∧ sRem.whereIs reqLoad.uid = some (0, 0) ∧ sRem.skein? 0 0 = some kRem ∧
    kRem.uid = reqLoad.uid ∧ sRem.allSkeins.find? (fun p => p.2.uid == reqLoad.uid) = some (0, kRem) ∧ kRem.awaits reqLoad.op = false ∧
    kRem.setAside reqLoad.op = false ∧ reqLoad.who = .dist 0 0 ∧ Settled c ∧ c.waitNow = .remote fRem true reqLoad.op ∧ c.lookahead fRem = 0) :=
  ctx_of (by decide +kernel)
def kStop : Skein := { kRem with pre := .stopping, preAt := 1000 }
theorem wit_reply_late : let s := { sRem with time := 9000, spindles := [(0, { slots := [some kStop, none, none, none] })] }
    s.skein? 0 0 = some kStop ∧ kStop.pre = .stopping ∧ kStop.preAt + 8000 ≤ s.time ∧ kStop.dist.trap.mode = false ∧
    kStop.dist.wait = .remote fRem true 9 ∧ s.unperformed 9 = false := by decide +kernel
theorem wit_reply_early : sRem.skein? 0 0 = some kRem ∧ kRem.pre ≠ .stopping := by decide +kernel
def hotT (n : BitVec 16) : State := { sP with hotcfg := 0x8800000000000004, hot := [(0x1FFFFF * 8 + 7, n)], fq := 0x8000000000006000, time := 3000, fqHead := 15, fqTail := 1 }
theorem wit_hot : 0 < (hotT 4).nStacks ∧ (hotT 4).hotcfg.getLsbD 63 = true ∧ bitsAt (hotT 4).hotcfg 0 16 ≠ 0 ∧
    bitsAt (hotT 4).hotcfg 0 16 ≤ (sget (hotT 4).hot ((0 * 0x200000 + 0x1FFFFF) * 8 + 7)).toNat ∧ (hotT 4).fqWait = [] ∧ (hotT 4).ringRoom = true ∧ RingHere (hotT 4) := by decide +kernel
theorem wit_hot_full : ({ hotT 4 with fqTail := 0 } : State).ringFull = true ∧ (hotT 4).fqHead < ringSize (hotT 4).fq := by decide +kernel
theorem wit_hot_disabled : ({ hotT 4 with fq := 0x6000 } : State).fq.getLsbD 63 = false := by decide +kernel
theorem wit_hot_below : (hotT 3).hotcfg.getLsbD 63 = true ∧ bitsAt (hotT 3).hotcfg 0 16 ≠ 0 ∧
    (sget (hotT 3).hot ((0 * 0x200000 + 0x1FFFFF) * 8 + 7)).toNat < bitsAt (hotT 3).hotcfg 0 16 := by decide +kernel
theorem wit_hot_decay : bitsAt (hotT 3).hotcfg 59 4 ≠ 0 ∧ (hotT 3).hotAt + 1000 * 2 ^ bitsAt (hotT 3).hotcfg 59 4 ≤ (hotT 3).time := by decide +kernel
def lineT (b : Bool) : PrivLine := { line := 2, dirty := b, bytes := List.replicate 64 7, cached := true }
def kPriv (b : Bool) : Skein := { skeinT with plies := [{ plyT with priv := [lineT b] }] }
theorem wit_line_clean : (stateT inPly (kPriv false)).skein? 0 0 = some (kPriv false) ∧ 0 < (kPriv false).plies.length ∧
    ((kPriv false).ply 0).priv.find? (fun x => x.line == 2) = some (lineT false) ∧ (lineT false).dirty = false := by decide +kernel
theorem wit_line_dirty : let s := withMap (stateT inPly (kPriv true))
    s.skein? 0 0 = some (kPriv true) ∧ ((kPriv true).ply 0).priv.find? (fun x => x.line == 2) = some (lineT true) ∧ (lineT true).dirty = true ∧
    MappedAt s (s.launch 0).asid (s.launch 0).root ((s.launch 0).priv * 2 ^ 45 + (64 * 0 + ((kPriv true).ply 0).privNum.getD 0) * 2 ^ 25 + 64 * 2) 0x80 ⟨true, true, true, 0⟩ ∧
    s.reachable 0x80 = true ∧ s.lineSent (kPriv true).uid 0x80 = false ∧ (List.range 64).all (fun i => s.isLocal (0x80 + i) && s.present (offsetOf (0x80 + i))) = true := by decide +kernel
theorem wit_device_trained : 31 < sP.nDevices ∧ 31 < 32 := by decide +kernel
theorem wit_device_retrain : 31 < sP.nDevices ∧ sP.retraining = none ∧ sP.memReady.getLsbD 31 = true := by decide +kernel
theorem wit_device_turn : let s := { sP with time := 10000000 }
    s.retraining = none ∧ s.memReady.getLsbD 0 = true ∧ s.mtrain ≠ 0 ∧ 0 = (s.retrainNext + 0) % s.nDevices ∧ s.retrainAt ≤ s.time := by decide +kernel
/-- The first in turn is not trained. -/
theorem wit_device_skipped : let s := { sP with time := 10000000, retrainNext := 31, memReady := 0x7FFFFFFE }
    s.retraining = none ∧ s.memReady.getLsbD 1 = true ∧ s.mtrain ≠ 0 ∧ 1 = (s.retrainNext + 2) % s.nDevices ∧
    (∀ j < 2, s.memReady.getLsbD ((s.retrainNext + j) % s.nDevices) = false) ∧ s.retrainAt ≤ s.time := by decide +kernel
theorem wit_retrain_end : { sP with retraining := some (31, 2000), time := 2000 }.retraining = some (31, 2000) ∧ 2000 ≤ { sP with time := 2000 }.time := by decide +kernel
-- ContextSwitch
def kHalt : Skein := { skeinT with pre := .stopping, frameAt := 0x6000, frameLen := 0x2000 }
theorem wit_halted : (stateT inPly kHalt).skein? 0 0 = some kHalt ∧ kHalt.pre = .stopping ∧ enginesStopped (stateT inPly kHalt) ((stateT inPly kHalt).spindle 0) kHalt = true ∧
    kHalt.remoteWaits = [] := by decide +kernel
def savedT (b : Bool) : Saved := { sk := { kHalt with pre := .halted 0 }, slot := 0, copies := [], mats := [], xqs := [], helds := [], scale := [], written := b }
def sSaved (b : Bool) : State := { sP with cdie := 15, spindles := [(0, { saved := [savedT b] })] }
theorem wit_saved : ((sSaved false).spindle 0).saved.find? (fun v => v.slot == 0 && !v.written) = some (savedT false) ∧
    ((savedT false).sk.plies.all fun p => p.priv.isEmpty) = true ∧ 64 ≤ (savedT false).sk.frameLen ∧
    (sSaved false).reaches (savedT false).sk.frameAt (savedT false).sk.frameLen = true ∧
    (List.range (savedT false).sk.frameLen).all (fun i => (sSaved false).isLocal ((savedT false).sk.frameAt + i) &&
      (sSaved false).present (offsetOf ((savedT false).sk.frameAt + i))) = true := by decide +kernel
theorem wit_resumes : ((sSaved true).spindle 0).saved[0]? = some (savedT true) ∧ (sSaved true).mayResume 0 (savedT true) = true ∧
    ((sSaved true).spindle 0).freeSlot 0 = some 0 ∧ 0 < ((sSaved true).spindle 0).slots.length ∧
    ((sSaved true).launch (savedT true).sk.launch).lrec.copyCount ≤ (savedT true).sk.statNext ∧ (savedT true).sk.statWait = [] ∧ ((sSaved true).spindle 0).residents = [] := by decide +kernel
-- PowerSteps
def sIdle (f : Frame) : State := { State.reset with frames := [(3, f)], idlelat := 400, time := 2000000 }
theorem wit_a1 : 3 < (sIdle {}).nFrames ∧ ((sIdle {}).frame 3).st = 0 ∧ (sIdle {}).frameEmpty 3 = true ∧ ((sIdle {}).frame 3).idleSince + 1000 ≤ (sIdle {}).time ∧
    wakeTime 1 ≤ (sIdle {}).tolerance := by decide +kernel
theorem wit_a2 : ((sIdle { st := 1 }).frame 3).st = 1 ∧ ((sIdle { st := 1 }).frame 3).gating = false ∧ ((sIdle { st := 1 }).frame 3).wakeAt = none ∧
    ((sIdle { st := 1 }).frame 3).since + 100000 ≤ (sIdle { st := 1 }).time ∧ wakeTime 2 ≤ (sIdle { st := 1 }).tolerance := by decide +kernel
theorem wit_wake_frame : let s := sIdle { st := 2, queue := [(0, 0)] }
    s.a4 = false ∧ (s.frame 3).st ≠ 0 ∧ (s.frame 3).force = false ∧ (s.frame 3).gating = false ∧ (s.frame 3).wakeAt = none ∧ s.wakes 3 = true := by decide +kernel
/-- With FORCE set a frame does not wake, but for its die from A3 at a tolerance of less than 400 µs. -/
theorem wit_wake_force : let s := { sIdle { st := 3, force := true } with idlelat := 399 }
    s.a4 = false ∧ (s.frame 3).st = 3 ∧ (s.frame 3).force = true ∧ (s.frame 3).gating = false ∧ (s.frame 3).wakeAt = none ∧ s.wakes 3 = true ∧
    s.tolerance < wakeTime 3 := by decide +kernel
theorem wit_wake_forced : let s := sIdle { st := 2, force := true }
    3 < s.nFrames ∧ (s.frame 3).force = true ∧ (s.frame 3).st ≠ 3 := by decide +kernel
theorem wit_wake_force_complete : let s := sIdle { st := 3, force := true, wakeAt := some 2000000 }
    (s.frame 3).wakeAt = some 2000000 ∧ 2000000 ≤ s.time ∧ (s.frame 3).force = true ∧ (s.frame 3).st = 3 := by decide +kernel
theorem wit_wake_complete : let s := { sIdle { st := 3, wakeAt := some 2000000 } with frames := [(0, { st := 3 }), (3, { st := 3, wakeAt := some 2000000 })] }
    (s.frame 3).wakeAt = some 2000000 ∧ 2000000 ≤ s.time ∧ (s.frame 3).st = 3 ∧ (s.frame 0).st = 3 := by decide +kernel
theorem wit_gate_closes : ((sIdle { gating := true }).frame 3).gating = true ∧ (sIdle { gating := true }).frameSaved 3 = true := by decide +kernel
def sDieIdle : State := { sIdle {} with frames := (List.range 4).map fun n => (n, { st := 2 }) }
theorem wit_a3 : 0 < sDieIdle.nStacks ∧ (List.range 4).all (fun n => decide ((sDieIdle.frame n).st = 2) && (sDieIdle.frame n).wakeAt.isNone &&
    decide ((sDieIdle.frame n).since + 1000000 ≤ sDieIdle.time)) = true ∧ wakeTime 3 ≤ sDieIdle.tolerance := by decide +kernel
theorem wit_a4_exit : ({ sA4 with a4 := true } : State).a4 = true ∧ ({ sA4 with a4 := true } : State).a4Wake = none := by decide +kernel
theorem wit_a4_wakes : ∀ t ∈ [(4999999, false), (5000000, true)], let s : State := { sA4 with a4 := true, a4Wake := some 5000000, time := t.1 }
    s.a4 = true ∧ s.a4Wake = some 5000000 ∧ decide (5000000 ≤ s.time) = t.2 := by decide +kernel
def sDrift : State := { sP with cdie := 15, time := 2000 }
theorem wit_drift : sDrift.spindlePresent 255 = true ∧ sDrift.clocked 255 = true ∧ (sDrift.spindle 255).driftAt + 100 ≤ sDrift.time := by decide +kernel
/-- Less than 100 ns after a step only a report that moves nothing is heard, as one at 384. -/
theorem wit_drift_early : let s : State := { sDrift with spindles := [(255, { drift := 384, driftAt := 1950 })] }
    s.spindlePresent 255 = true ∧ s.clocked 255 = true ∧ min ((s.spindle 255).drift + 1) 384 = (s.spindle 255).drift ∧
    max ((s.spindle 255).drift - 1) 224 ≠ (s.spindle 255).drift ∧ s.time < (s.spindle 255).driftAt + 100 := by decide +kernel
theorem test_drift_asks : (({ drift := 384 } : Spindle).driftStep .lowMargin 9).overAsk = true ∧
    (({ drift := 384, overAsk := true } : Spindle).driftStep .enoughMargin 9).overAsk = false := by decide
theorem wit_boundary : 3 < sDrift.nStacks ∧ (sDrift.die 3).nextB ≤ sDrift.time ∧ sDrift.time % 2000 = 0 ∧ sDrift.cdie.getLsbD 3 = true ∧
    sDrift.budget.toNat ≤ 1800 := by decide +kernel
theorem wit_boundary_not : ({ sDrift with time := 2001 } : State).time % 2000 ≠ 0 := by decide +kernel
/-- A base die that has started, at -20 °C. -/
def sCold : State := ({ sP with bdie := 15 }).modDie 3 fun d => { d with baseTemp := BitVec.ofInt 12 (-160) }
theorem wit_release : 3 < sCold.nStacks ∧ 3 < 4 ∧ sCold.cdie.getLsbD 3 = false ∧ sCold.bdie.getLsbD 3 = true ∧ -160 ≤ (sCold.die 3).baseTemp.toInt := by decide +kernel
-- BoostGrants: frame 0 of die 0 asks for level 3 in a region whose share is 2 permits, and frame 1 has the greatest estimate
def sBoost : State :=
  { stateT inPly skeinT launchH with cdie := 15, time := 2000, rcbs := [{ rcbT with boost := 2, inherit := 0x1FF }], frames := [(0, { plimit := 64, req := 3 })] }
theorem wit_boost : 0 < sBoost.nStacks ∧ sBoost.cdie.getLsbD 0 = true ∧ (sBoost.die 0).nextB ≤ sBoost.time ∧ sBoost.time % 2000 = 0 ∧ (sBoost.frame 0).req ≠ 0 ∧
    (sBoost.frame 0).plimit = 64 ∧ sBoost.regionsIn 0 ≠ [] ∧ (∀ i < 16, (sBoost.spindle (16 * 0 + i)).overAsk = false) ∧ nth [0, 1, 0, 0] 0 0 < nth [0, 1, 0, 0] 1 0 ∧
    ∀ q < 4, q ≠ 0 → (sBoost.frame q).req = 0 ∧ (sBoost.frame q).lvl = 0 := by decide +kernel
-- OutsideSteps; whether a signature verifies is free, and one of the two holds
def sBoot : State := { State.reset with ethUp := 1 }
theorem wit_boot : sBoot.boot = .fetching 0 ∧ sBoot.ethUp.getLsbD 0 = true ∧ (∀ d sig, Config.bootSignatureOk d sig = true ∨ Config.bootSignatureOk d sig = false) :=
  ⟨by decide, by decide, fun d sig => by cases Config.bootSignatureOk d sig <;> simp⟩
theorem wit_boot_port : ({ sBoot with boot := .fetching 1 } : State).boot = .fetching 1 ∧ sBoot.ethUp.getLsbD 1 = false := by decide
theorem wit_boot_retry : { sBoot with boot := .failed 1 10, time := 10 }.boot = .failed 1 10 ∧ 10 ≤ { sBoot with time := 10 }.time := by decide
/-- Rings of 16 at 0x8000, one receive buffer at 0x9000, one frame of 60 bytes to send. -/
def sEth : State :=
  ((({ sP with ethUp := 3, eths := [(1, { ctl := 0x8000000000008000, rx := 15, tx := 15 })] }.paWrite 0x80F0 8 0x9000).paWrite 0x80F8 8 0x8000000000000000).paWrite
    0x81F0 8 0x9800).paWrite 0x81F8 8 0x800000000000003C
theorem wit_receive : 1 < 2 ∧ sEth.portReady 1 = true ∧ sEth.recorders = [] ∧ ringBase (agetD sEth.eths 1 {}).ctl + 16 * (agetD sEth.eths 1 {}).rx = 0x80F0 ∧
    (sEth.paRead 0x80F0 8).toNat % 2 ^ 52 = 0x9000 ∧ (sEth.paRead 0x80F8 8).getLsbD 63 = true ∧ sEth.readsAll 0x80F0 16 = true ∧ sEth.reachesAll 0x9000 64 = true ∧
    (List.range 64).all (fun i => sEth.isLocal (0x9000 + i) && sEth.present (offsetOf (0x9000 + i))) = true ∧
    (List.range 16).all (fun i => sEth.isLocal (0x80F0 + i) && sEth.present (offsetOf (0x80F0 + i))) = true ∧ 0x80F0 + 16 ≤ 0x9000 := by decide +kernel
theorem wit_transmit : sEth.portReady 1 = true ∧ sEth.recorders = [] ∧
    ringBase (agetD sEth.eths 1 {}).ctl + 16 * 2 ^ (bitsAt (agetD sEth.eths 1 {}).ctl 0 4 + 4) + 16 * (agetD sEth.eths 1 {}).tx = 0x81F0 ∧
    (sEth.paRead 0x81F8 8).getLsbD 63 = true ∧ bitsAt (sEth.paRead 0x81F8 8) 0 16 ≤ 9216 ∧
    sEth.readsAll 0x81F0 16 = true ∧ sEth.readsAll ((sEth.paRead 0x81F0 8).toNat % 2 ^ 52) (bitsAt (sEth.paRead 0x81F8 8) 0 16) = true ∧
    (List.range 16).all (fun i => sEth.isLocal (0x81F0 + i) && sEth.present (offsetOf (0x81F0 + i))) = true := by decide +kernel
theorem wit_link : 0 < sP.nLinks ∧ 1 < 2 ∧ State.reset.hasHost = true := by decide +kernel
def sHost : State := { sP with units := Config.capUnits, hostUp := true, hostCtl := 0x8000000000000000 }
theorem wit_host : sHost.a4 = false ∧ sHost.hasHost = true ∧ sHost.hostUp = true ∧ sHost.hostCtl.getLsbD 63 = true ∧ 0xFFFFFF8 + 8 ≤ 0x10000000 ∧
    sHost.detached = false ∧ sHost.recorders = [] ∧ sHost.pkg.toNat * 0x400000000000 + (bitsAt sHost.hostCtl 28 24 * 0x10000000 + 0xFFFFFF8) % 0x400000000000 = 0xFFFFFF8 ∧
    sHost.reachesAll 0xFFFFFF8 8 = true ∧ sHost.readsAll 0xFFFFFF8 8 = true ∧ (List.range 8).all (fun i => sHost.isLocal (0xFFFFFF8 + i) && sHost.present (offsetOf (0xFFFFFF8 + i))) = true := by
  decide +kernel
theorem wit_host_off : ∀ s ∈ [{ sHost with hostCtl := 0 }, { sHost with units := 0x000001000010402E }], s.a4 = false ∧ s.detached = false ∧
    (s.hasHost = true → s.hostUp = true) ∧ (s.hasHost = false ∨ s.hostCtl.getLsbD 63 = false) := by decide +kernel
theorem wit_ports_wake : let s : State := { sHost with a4 := true, ethUp := 2 }
    s.a4 = true ∧ s.a4Wake = none ∧ s.ethUp.getLsbD 1 = true ∧ s.detached = false ∧ s.hasHost = true ∧ s.hostUp = true := by decide +kernel
def sSamp : State := { sP with samp := 0x8000000000010000, time := 200 }
theorem wit_sample : sSamp.samp.getLsbD 63 = true ∧ 100 * bitsAt sSamp.samp 16 16 = 100 ∧ sSamp.sampAt < sSamp.time ∧ sSamp.time % 100 = 0 ∧
    (sSamp.spindle (bitsAt sSamp.samp 0 9)).lastPath = none := by decide +kernel
/-- The path issued since the sample before, and the ring at 0x100000 has two places. -/
def sSampled : State :=
  { sSamp with string := 0x8000000000100000, strHead := 14, strTail := 1, spindles := [(0, { slots := [some skeinT, none, none, none], lastPath := some (.here 0 0 0) })] }
theorem wit_sampled : sSampled.samp.getLsbD 63 = true ∧ sSampled.sampAt < sSampled.time ∧ sSampled.time % 100 = 0 ∧
    (sSampled.spindle (bitsAt sSampled.samp 0 9)).lastPath = some (.here 0 0 0) ∧ sSampled.skein? 0 0 = some skeinT ∧ sSampled.string.getLsbD 63 = true ∧
    2 ≤ (sSampled.strTail + ringSize sSampled.string - sSampled.strHead - 1) % ringSize sSampled.string ∧ sSampled.strWait = [] ∧ sSampled.strReady 2 = true ∧
    sSampled.strHead + 2 ≤ ringSize sSampled.string ∧ ∀ i < 64, sSampled.isLocal (ringBase sSampled.string + 32 * sSampled.strHead + i) = true ∧
      sSampled.present (offsetOf (ringBase sSampled.string + 32 * sSampled.strHead + i)) = true := by decide +kernel
theorem wit_sample_early : ({ sSamp with sampAt := 200 } : State).time ≤ 200 ∧ ({ sSamp with time := 250 } : State).time % 100 ≠ 0 := by decide +kernel
/-- The path's skein has left its slot. -/
theorem wit_sample_left : let k := pathPair skeinT 1 0 0 0 0 0
    ((sSampled.keepLast 0 0).spindle 0).lastPath = some (.left skeinT.launch k) ∧ k.map List.length = [4, 4] := by decide +kernel
/-- No sample is passed over: one due at 300 comes before what the agenda holds for 705. -/
theorem test_sample_first : let s : State := { sSamp with time := 205, sampAt := 200, agenda := [(500, .event .a4Exit)] }
    s.upNext.1 = .event .sampleTick ∧ s.upNext.2.time = 300 ∧ s.upNext.2.agenda = [(405, .event .a4Exit)] := by decide +kernel
/-- A core replays from a ring at 0x8000 with one entry of a kind, at retired count 7. -/
def sRpl (kind : Word) (w : CoreWait) : State :=
  (({ sP with cores := [(0, { rplCtl := 0xC000000000008000, rplHead := 15, rplTail := 0, retired := 7, wait := w })] }.paWrite 0x81E0 8 7).paWrite 0x81E8 8 (kind <<< 56)).paWrite
    0x81F0 8 3
abbrev Replays (kind : Word) (w : CoreWait) : Prop :=
  0 < (sRpl kind w).nCores ∧ ((sRpl kind w).core 0).replaying = true ∧ ((sRpl kind w).core 0).logEmpty = false ∧
  ringBase ((sRpl kind w).core 0).rplCtl + 32 * ((sRpl kind w).core 0).rplHead = 0x81E0 ∧ ((sRpl kind w).paRead 0x81E0 8).toNat = ((sRpl kind w).core 0).retired ∧
  bitsAt ((sRpl kind w).paRead 0x81E8 8) 56 8 = kind.toNat ∧ (sRpl kind w).readsAll 0x81E0 32 = true ∧ ((sRpl kind w).core 0).rplVal = none
theorem wit_replay_interrupt : Replays 0 .none := by decide +kernel
theorem wit_replay_value : Replays 1 .none := by decide +kernel
/-- An arrival of 8 bytes to 0x9000. -/
def sRplIn : State := ((sRpl 3 .none).paWrite 0x81E8 8 0x0300000800000000).paWrite 0x81F0 8 0x9000
theorem wit_replay_arrival : ((sRplIn.core 0).replaying = true ∧ (sRplIn.paRead 0x81E0 8).toNat = (sRplIn.core 0).retired ∧
    3 ≤ bitsAt (sRplIn.paRead 0x81E8 8) 56 8 ∧ (sRplIn.paRead 0x81F0 8).toNat % 2 ^ 52 = 0x9000 ∧ bitsAt (sRplIn.paRead 0x81E8 8) 32 24 = 8 ∧
    sRplIn.reachesAll 0x9000 8 = true ∧ (∀ i < 8, sRplIn.readable (0x8000 + 32 * 16 + (((sRplIn.paRead 0x81F8 8).toNat + i) % (256 * 16))) = true) ∧
    ∀ i < 8, sRplIn.isLocal (0x9000 + i) = true ∧ sRplIn.present (offsetOf (0x9000 + i)) = true) := by decide +kernel
theorem wit_replay_early : ((sRpl 1 .none).modCore 0 fun k => { k with retired := 6 }).paRead 0x81E0 8 = 7 := by decide +kernel
theorem wit_replay_launch : Replays 2 (.launch (some 31)) ∧ (sRpl 2 (.launch (some 31))).launchWaits 0 = some 31 := by decide +kernel

/-! ## Witnesses: encoding, the step, and the invariant -/

theorem wit_encode : ∃ r f, (Instr.ffma (fl 1 .f32 0x05 0x0B 0x1A 0x0C 0x40)).row = some r ∧ (Instr.ffma (fl 1 .f32 0x05 0x0B 0x1A 0x0C 0x40)).fields = some f ∧
    r.fieldsOk f = true := ⟨_, _, rfl, rfl, by decide⟩
theorem wit_decodes : decode 0x330408050B1A0C40 0 = .instr (.ffma (fl 1 .f32 0x05 0x0B 0x1A 0x0C 0x40)) ∧
    decode 0 0 = .badOpcode ∧ decode 0x3318080802030801 0 = .badFunction := by decide
/-- A NOP, and a word that does not decode, are fetched and issued next. -/
def sNop : State := State.reset.withFetchWord 64 0x0100000000000000
def sBad : State := State.reset.withFetchWord 64 0
/-- What StepRunsDecoded supposes of an issue, up to the word it fetches. -/
abbrev IssuesNext (s : State) (d : Decoded) (w : Word) : Prop :=
  s.upNext.1 = .issue (.path 0 0 0 0) ∧ (match s.upNext.2.ctx? (.path 0 0 0 0) with
    | some c => decide (c.candidate s.upNext.2 = true ∧ (c.merged s.upNext.2).1 = .path 0 0 0 0 ∧
        (match (c.merged s.upNext.2).2.ctx? (.path 0 0 0 0) with
         | some c2 => decide (c2.fbuf = [] ∧ c2.pc = 0x4000 ∧ c2.dist = false) && (match fetch c2 (c.merged s.upNext.2).2 with
           | .decoded d' w' _ => d' == d && w' == w | _ => false)
         | none => false) = true)
    | none => false) = true
theorem wit_issue : IssuesNext sNop (.instr (.nop (fl 0 .b32 0 0 0 0 0))) 0x0100000000000000 := by decide +kernel
theorem wit_issue_bad : IssuesNext sBad .badOpcode 0 ∧ (decodeFailure false .badOpcode 0).isSome = true := by decide +kernel
def sAgenda (a : Action) : State := { State.reset with agenda := [(5, a)] }
theorem wit_event_next : (sAgenda (.event .a4Exit)).upNext.1 = .event .a4Exit ∧ Instr.row .a4Exit = none := by decide +kernel
theorem wit_core_word : (sAgenda (.coreWord 0 0x9410000000000000)).upNext.1 = .coreWord 0 0x9410000000000000 ∧
    0 < (sAgenda (.coreWord 0 0x9410000000000000)).upNext.2.nCores ∧ (sAgenda (.coreWord 0 0x9410000000000000)).upNext.2.a4 = false ∧
    decode 0x9410000000000000 0 = .instr (.fenceSys (fl 0 .b32 0 0 0 0 0)) ∧ (sAgenda (.coreWord 0 0x9410000000000000)).upNext.2.boot ≠ .running := by decide +kernel
theorem wit_core_runs : let s := (up (sAgenda (.coreWord 0 0x9410000000000000))).upNext.2
    s.boot = .running ∧ s.a4 = false ∧ (s.core 0).wait = .none ∧ (s.core 0).faultPend = false ∧ (s.core 0).netPend = false ∧
    s.logLets 0 (.fenceSys (fl 0 .b32 0 0 0 0 0)) = true := by decide +kernel
/-- CPY.mig with EV set, which is none. -/
theorem wit_core_malformed : let w : Word := 0xA000000405060060
    (sAgenda (.coreWord 0 w)).upNext.1 = .coreWord 0 w ∧ bitsAt w 52 12 = 0xA00 ∧ w.getLsbD 6 = true ∧ bitsAt w 2 4 ≠ 0 ∧ decode w 0 = .badField .both := by
  decide +kernel
theorem wit_core_interrupt : let s := (up { sAgenda (.coreWord 0 0x9410000000000000) with cores := [(0, { netPend := true })] }).upNext.2
    s.boot = .running ∧ s.a4 = false ∧ (s.core 0).wait = .none ∧ (s.core 0).netPend = true := by decide +kernel
theorem wit_fetch_ahead : (sAgenda (.fetchAhead (.path 0 0 0 0) 0x4040)).upNext.1 = .fetchAhead (.path 0 0 0 0) 0x4040 := by decide +kernel
theorem wit_fetch : ∃ c, (withMap (stateT inPly skeinT)).ctx? inPly = some c ∧ (c.pc.toNat < 2 ^ 56 ∧
    (match lookup (withMap (stateT inPly skeinT)) c.sp none c.la.asid c.la.root c.pc.toNat with
     | .page x => x.place c.pc.toNat == some (0x4000, ⟨true, true, true, 0⟩) | _ => false) = true ∧
    (withMap (stateT inPly skeinT)).isLocal 0x4000 = true ∧ (withMap (stateT inPly skeinT)).readable 0x4000 = true ∧
    hasExt ((withMap (stateT inPly skeinT)).paRead 0x4000 8) = false) := ctx_of (by decide +kernel)
theorem wit_inv : sNop.Inv ∧ (match step (sAgenda (.event .a4Exit)) with | .next _ => true | _ => false) = true ∧ (sAgenda (.event .a4Exit)).Inv := by
  unfold State.Inv
  decide +kernel
theorem wit_isolated : ∃ c, (stateT inPly skeinT).ctx? (stateT inPly skeinT).cur = some c ∧ ((Instr.nop (fl 0 .b32 0 0 0 0 0)).row ≠ none ∧
    (match exec (.nop (fl 0 .b32 0 0 0 0 0)) (stateT inPly skeinT) with | .next t => (t.skein? c.sp c.slot).map Skein.life == some .running | _ => false) = true) := ctx_of (by decide +kernel)

/-! ## One step, with the results that the spec's tables give -/

/-- What V4 of thread 15 holds after an instruction of the ply with a in V2, b in V3. -/
def vAfter (i : Instr) (a b : Word) : Option Word :=
  let y := (((plyT.wrV 2 15 (a.setWidth 32)).wrV 3 15 (b.setWidth 32)).wrV 8 15 (a.setWidth 32)).wrV 9 15 (b.setWidth 32)
  match exec i (stateT inPly { skeinT with plies := [y] }) with
  | .next t => (t.skein? 0 0).map fun k => ((k.ply 0).rdV 4 15).setWidth 64
  | _ => none
/-- The same with the flags. -/
def vFlags (i : Instr) (a : Word) : Option (Word × FFlags) :=
  match exec i (stateT inPly { skeinT with plies := [plyT.wrV 2 15 (a.setWidth 32)] }) with
  | .next t => (t.skein? 0 0).map fun k => (((k.ply 0).rdV 4 15).setWidth 64, (k.ply 0).flags)
  | _ => none
/-- What D4 holds after an instruction of the distaff with a in D2, b in D3. -/
def dAfter (i : Instr) (a b : Word) : Option Word :=
  match exec i (stateT inDist { skeinT with dist := { skeinT.dist with d := [(2, a), (3, b)] } }) with
  | .next t => (t.skein? 0 0).map fun k => k.dist.rdD 4
  | _ => none

-- R156
theorem test_iadd : vAfter (.iadd (fl 0 .b32 4 2 3 0 0)) 0xFFFFFFF0 0x20 = some 0x10 ∧ vAfter (.iadd (fl 0 .b32 4 2 3 0 1)) 0xFFFFFFF0 0x20 = some 0xFFFFFFFF ∧
    vAfter (.iadd (fl 0 .s32 4 2 3 0 0)) 0x7FFFFFFF 1 = some 0x80000000 ∧ vAfter (.iadd (fl 0 .s32 4 2 3 0 1)) 0x7FFFFFFF 1 = some 0x7FFFFFFF := by decide +kernel
theorem test_isub : vAfter (.isub (fl 0 .b32 4 2 3 0 0)) 3 5 = some 0xFFFFFFFE ∧ vAfter (.isub (fl 0 .b32 4 2 3 0 1)) 3 5 = some 0 := by decide +kernel
theorem test_imulh : vAfter (.imulh (fl 0 .s32 4 2 3 0 0)) 0xFFFFFFFF 2 = some 0xFFFFFFFF ∧ vAfter (.imulh (fl 0 .b32 4 2 3 0 0)) 0xFFFFFFFF 2 = some 1 := by decide +kernel
theorem test_iabs : vAfter (.iabs (fl 0 .s32 4 2 0 0 0)) 0x80000000 0 = some 0x80000000 ∧ vAfter (.iabs (fl 0 .s32 4 2 0 0 1)) 0x80000000 0 = some 0x7FFFFFFF := by decide +kernel
theorem test_shr : vAfter (.shr (fl 0 .b32 4 2 3 0 0)) 0x80000000 40 = some 0 := by decide +kernel
theorem test_sar : vAfter (.sar (fl 0 .s32 4 2 3 0 0)) 0x80000000 40 = some 0xFFFFFFFF := by decide +kernel
theorem test_rol : vAfter (.rol (fl 0 .b32 4 2 3 0 0)) 0x80000001 33 = some 3 := by decide +kernel
theorem test_clz : vAfter (.clz (fl 0 .b32 4 2 0 0 0)) 0 0 = some 32 ∧ dAfter (.clz (fl 0 .b64 4 2 0 0 0)) 1 0 = some 63 := by decide +kernel
theorem test_brev : vAfter (.brev (fl 0 .b32 4 2 0 0 0)) 1 0 = some 0x80000000 := by decide +kernel
-- R157
theorem test_bfe : vAfter (.bfe (fl 0 .s32 4 2 0 4 4)) 0xF0 0 = some 0xFFFFFFFF ∧ vAfter (.bfe (fl 0 .b32 4 2 0 4 4)) 0xF0 0 = some 0xF := by decide +kernel
theorem test_bfi : vAfter (.bfi (fl 0 .b32 4 2 3 8 4)) 5 0xFFFFFFFF = some 0xFFFFF5FF := by decide +kernel
-- R170: f32 to s32, to nearest and up (3 in M[1:0]), with NX; out of range, with NV
theorem test_cvt_s32 : vFlags (.cvt (fl 1 .s32 4 2 0 0 0x40)) 0x40200000 = some (2, fNX) ∧ vFlags (.cvt (fl 1 .s32 4 2 0 0 0x40)) 0x4F32D05E = some (0x7FFFFFFF, fNV) := by
  decide +kernel
theorem test_cvt_bf16 : vFlags (.cvt (fl 1 .bf16 4 2 0 0 0x40)) 0x3EAAAAAB = some (0x3EAB, fNX) ∧ vFlags (.cvt (fl 1 .bf16 4 2 0 0 0x41)) 0x3EAAAAAB = some (0x3EAA, fNX) := by
  decide +kernel
-- R171
theorem test_pack : vAfter (.packPair (fl 1 .bf16 4 8 0 0 0)) 0x3F800000 0xC0000000 = some 0xC0003F80 := by decide +kernel
-- R58: the worked inheritance: region B beneath A beneath a root
def rcbRoot : Rcb := { rcbP with addr := 0x300000, inherit := 0x1FF, priority := 9, spindles := 256, xarrays := 65536 }
def rcbA : Rcb := { rcbP with addr := 0x301000, parent := 0x300000, inherit := 0x009, priority := 12, spindles := 64 }
def rcbB : Rcb := { rcbP with addr := 0x302000, parent := 0x301000, inherit := 0x028, spindles := 128, xarrays := 4096 }
def sChain : State := { sP with rcbs := [rcbRoot, rcbA, rcbB] }
theorem test_inherit : (sChain.effPriority 0x301000, sChain.effSpindles 0x301000) = (9, 64) ∧
    (sChain.effPriority 0x302000, sChain.effSpindles 0x302000, sChain.effArrays 0x302000) = (9, 64, 4096) := by decide +kernel
-- R142, R143, R269: the worked output element, 1.5
def mmaT : MatCmd :=
  { matT with kind := .mma, f := fl 1 .bf16 2 0 1 0x80 0, started := true, rowsD := 64, bprD := 64, rowsA := 64, bprA := 64, rowsB := 16, bprB := 64, steps := 4 }
theorem test_product : MatEnv.accumulate
    { k := mmaT, a := { rows := 64, bpr := 64, bytes := sputBytes [] 0 (natBytes 8 0xC5803F803F804580) }, scale := fun _ => 0, ftz := false
      b := { rows := 16, bpr := 64, bytes := sputBytes [] 0 (natBytes 8 0x45803F803F804580) } } 0 0 [0] 0x3F000000 = 0x3FC00000 := by decide +kernel

end Sys2Proof.Tests
end

section
/-! PROOFS. Which operations of the state leave the fused registers, both memories and the numbering of operations as they are. -/

namespace Sys2Proof.Machine

open Host (Outcome)

/-- What every step keeps, or only lets grow: the registers fused into the part, both memories and the number of the next operation. -/
structure Kept where
  units : Word
  stepping : Word
  mem : List Host.Cell
  remote : List Host.Cell
  opSeq : Nat

/-- What a state has of it. -/
def State.kept (s : State) : Kept := ⟨s.units, s.stepping, s.mem, s.remote, s.opSeq⟩

@[simp] theorem kept_update (t : State) :
    ∀ tick agenda cur time reqs spindles frames dies cores fifos launches acceptCount offers dealPtr rcbs affw frsel mcStack
    mcRange assel spaces fq fqHead fqTail fqWait known hotcfg hot hotAt pkg aselArray aselSpindle tbsel tags preScope preSpindle
    preSlot pwrLink pwrPort pwrFrame tlim budget mtrain idlelat a4 a4Wake bdie cdie memReady ethUp hostUp retraining retrainNext
    retrainAt links eths hostCtl hostRead secOp secPend slots boot string strHead strTail strLost strWait samp sampAt cselSpindle
    cselCtr dbgHold,
    State.kept { t with
      tick, agenda, cur, time, reqs, spindles, frames, dies, cores, fifos, launches, acceptCount, offers, dealPtr, rcbs, affw,
      frsel, mcStack, mcRange, assel, spaces, fq, fqHead, fqTail, fqWait, known, hotcfg, hot, hotAt, pkg, aselArray, aselSpindle,
      tbsel, tags, preScope, preSpindle, preSlot, pwrLink, pwrPort, pwrFrame, tlim, budget, mtrain, idlelat, a4, a4Wake, bdie,
      cdie, memReady, ethUp, hostUp, retraining, retrainNext, retrainAt, links, eths, hostCtl, hostRead, secOp, secPend, slots,
      boot, string, strHead, strTail, strLost, strWait, samp, sampAt, cselSpindle, cselCtr, dbgHold } = t.kept := by intros; rfl

@[simp] theorem foldl_kept {α : Type} (g : State → α → State) (h : ∀ t x, (g t x).kept = t.kept) (l : List α) (t : State) :
    (l.foldl g t).kept = t.kept := by
  induction l generalizing t with
  | nil => rfl
  | cons x l ih => rw [List.foldl_cons, ih, h]

@[simp] theorem ite_kept (p : Prop) [Decidable p] (s t : State) : (if p then s else t).kept = if p then s.kept else t.kept := by
  split <;> rfl

/-! ### Parts of the state, and the end of an instruction -/

@[simp] theorem setSpindle_kept (s : State) (sp : Nat) (x : Spindle) : (s.setSpindle sp x).kept = s.kept := by simp [State.setSpindle]
@[simp] theorem modSpindle_kept (s : State) (sp : Nat) (g : Spindle → Spindle) : (s.modSpindle sp g).kept = s.kept := by simp [State.modSpindle]

@[simp] theorem setFrame_kept (s : State) (n : Nat) (x : Frame) : (s.setFrame n x).kept = s.kept := by simp [State.setFrame]
@[simp] theorem modFrame_kept (s : State) (n : Nat) (g : Frame → Frame) : (s.modFrame n g).kept = s.kept := by simp [State.modFrame]

@[simp] theorem setDie_kept (s : State) (n : Nat) (x : Die) : (s.setDie n x).kept = s.kept := by simp [State.setDie]
@[simp] theorem modDie_kept (s : State) (n : Nat) (g : Die → Die) : (s.modDie n g).kept = s.kept := by simp [State.modDie]

@[simp] theorem setCore_kept (s : State) (n : Nat) (x : SysCore) : (s.setCore n x).kept = s.kept := by simp [State.setCore]
@[simp] theorem modCore_kept (s : State) (n : Nat) (g : SysCore → SysCore) : (s.modCore n g).kept = s.kept := by simp [State.modCore]

section
variable (s : State) (acc sp slot : Nat) (x : Launch) (g : Launch → Launch) (k : Option Skein)

@[simp] theorem setLaunch_kept : (s.setLaunch acc x).kept = s.kept := by simp [State.setLaunch]
@[simp] theorem modLaunch_kept : (s.modLaunch acc g).kept = s.kept := by simp [State.modLaunch]
@[simp] theorem setSkein_kept : (s.setSkein sp slot k).kept = s.kept := by simp [State.setSkein]

end

@[simp] theorem modSkein_kept (s : State) (sp slot : Nat) (g : Skein → Skein) : (s.modSkein sp slot g).kept = s.kept := by
  unfold State.modSkein
  split <;> simp

@[simp] theorem modPly_kept (s : State) (sp slot p : Nat) (g : Ply → Ply) : (s.modPly sp slot p g).kept = s.kept := by simp [State.modPly]

@[simp] theorem modDist_kept (s : State) (sp slot : Nat) (g : Dist → Dist) : (s.modDist sp slot g).kept = s.kept := by simp [State.modDist]

@[simp] theorem modUid_kept (s : State) (sp uid : Nat) (g : Skein → Skein) : (s.modUid sp uid g).kept = s.kept := by simp [State.modUid]

@[simp] theorem ctx_modPly_kept (c : Ctx) (s : State) (g : Ply → Ply) : (c.modPly s g).kept = s.kept := by simp [Ctx.modPly]

@[simp] theorem ctx_modDist_kept (c : Ctx) (s : State) (g : Dist → Dist) : (c.modDist s g).kept = s.kept := by simp [Ctx.modDist]

section
variable (c : Ctx) (s : State) (g : Path → Path) (pc : Word) (f : Fields) (op : Nat) (ws : Nat → List RegWrite) (fl : Nat → FFlags)

@[simp] theorem ctx_modPath_kept : (c.modPath s g).kept = s.kept := by simp [Ctx.modPath]
@[simp] theorem ctx_goto_kept : (c.goto s pc).kept = s.kept := by simp [Ctx.goto]
@[simp] theorem ctx_writes_kept : (c.writes f op ws fl s).kept = s.kept := by simp [Ctx.writes]
@[simp] theorem ctx_finish_kept : (c.finish f op ws fl s).kept = s.kept := by simp [Ctx.finish]
@[simp] theorem ctx_finish0_kept : (c.finish0 f s).kept = s.kept := by simp [Ctx.finish0]

end

section
variable (c : Ctx) (f : Fields) (ws : List RegWrite) (s : State) (sp cls acc : Nat) (ins : Option Instr) (pages : List Word)

@[simp] theorem ctx_finishAll_kept : (c.finishAll f ws s).kept = s.kept := by simp [Ctx.finishAll]
@[simp] theorem passCycles_kept : (s.passCycles sp).kept = s.kept := by simp [State.passCycles]
@[simp] theorem keepCycle_kept : (s.keepCycle sp).kept = s.kept := by simp [State.keepCycle]
@[simp] theorem ctx_passToIssue_kept : (c.passToIssue s).kept = s.kept := by simp [Ctx.passToIssue]
@[simp] theorem countIssue_kept : (countIssue c cls s).kept = s.kept := by simp [countIssue]
@[simp] theorem raiseFaultInterrupt_kept : (s.raiseFaultInterrupt).kept = s.kept := by simp [State.raiseFaultInterrupt]
@[simp] theorem passToken_kept : (s.passToken acc).kept = s.kept := by simp [State.passToken]
@[simp] theorem dropOffers_kept : (s.dropOffers c).kept = s.kept := by simp [State.dropOffers]
@[simp] theorem ctx_hold_kept : (c.hold ins pages s).kept = s.kept := by simp [Ctx.hold]
@[simp] theorem ctx_holdRing_kept : (c.holdRing ins s).kept = s.kept := by simp [Ctx.holdRing]
@[simp] theorem ctx_holdTrap_kept : (c.holdTrap s).kept = s.kept := by simp [Ctx.holdTrap]
@[simp] theorem ctx_landed_kept : (c.landed s).kept = s.kept := by simp [Ctx.landed]
@[simp] theorem ctx_again_kept : (c.again s).kept = s.kept := by simp [Ctx.again]

end

/-! ### Stamps and samples -/

section
variable (s : State) (sp slot t : Nat) (g : Tile → Tile) (matrix : Bool)

@[simp] theorem modTile_kept : (s.modTile sp slot t g).kept = s.kept := by simp [State.modTile]
@[simp] theorem stampStart_kept : (s.stampStart sp slot t matrix).kept = s.kept := by simp [State.stampStart]
@[simp] theorem stampFilled_kept : (s.stampFilled sp slot t).kept = s.kept := by simp [State.stampFilled]
@[simp] theorem stampMatrixDone_kept : (s.stampMatrixDone sp slot t).kept = s.kept := by simp [State.stampMatrixDone]
@[simp] theorem silence_kept : (s.silence).kept = s.kept := by simp [State.silence]
@[simp] theorem keepLast_kept : (s.keepLast sp slot).kept = s.kept := by
  unfold State.keepLast
  split <;> simp

end

/-! ### The silence of open epochs -/

@[simp] theorem ctx_setWait_kept (c : Ctx) (st : PathState) (w : Wait) (s : State) : (c.setWait st w s).kept = s.kept := by simp [Ctx.setWait]

/-! ### Waits and branches -/

section
variable (c : Ctx) (f : Fields) (ws : List RegWrite) (next : Nat → Word) (s : State) (w : Wait) (sp slot ply : Nat)

@[simp] theorem ctx_branch_kept : (c.branch f ws next s).kept = s.kept := by simp [Ctx.branch]
@[simp] theorem ctx_blocked_kept : (c.blocked w s).kept = s.kept := by simp [Ctx.blocked]
@[simp] theorem plyGone_kept : (s.plyGone sp slot ply).kept = s.kept := by
  unfold State.plyGone
  split <;> simp
@[simp] theorem ctx_dropLines_kept : (c.dropLines s).kept = s.kept := by simp [Ctx.dropLines]

end

/-! ### Results of lanes -/

@[simp] theorem ctx_finishVec_kept (c : Ctx) (f : Fields) (wide : Bool) (val : Nat → Word) (fl : FFlags) (s : State) :
    (c.finishVec f wide val fl s).kept = s.kept := by
  simp [Ctx.finishVec]

@[simp] theorem ctx_finishScal_kept (c : Ctx) (f : Fields) (ty : Ty) (val : Word) (fl : FFlags) (s : State) :
    (c.finishScal f ty val fl s).kept = s.kept := by
  simp [Ctx.finishScal]

/-! ### Translations, hot lines and code lines -/

section
variable (s : State) (sp slot pa asid root va : Nat) (lane : Option Nat) (t : Tr) (sure : Bool) (as : List (Nat × PageAttr)) (c : Ctx)
  (l : CodeLine)

@[simp] theorem fillXlat_kept : (fillXlat s sp lane t).kept = s.kept := by
  unfold fillXlat
  (repeat' split) <;> simp
@[simp] theorem hotCount_kept : (s.hotCount slot pa sure).kept = s.kept := by simp [State.hotCount]
@[simp] theorem hotLines_kept : (s.hotLines slot as).kept = s.kept := by simp [State.hotLines]
@[simp] theorem hotWalk_kept : (s.hotWalk sp asid root va).kept = s.kept := by simp [State.hotWalk]
@[simp] theorem ctx_keepLine_kept : (c.keepLine l s).kept = s.kept := by simp [Ctx.keepLine]

end

@[simp] theorem ctx_keepMissing_kept (c : Ctx) (va : Word) (s : State) : (c.keepMissing va s).kept = s.kept := by simp [Ctx.keepMissing]

/-! ### Accesses -/

@[simp] theorem nbrPut_kept (s : State) (launch sp b : Nat) (v : Byte) : (s.nbrPut launch sp b v).kept = s.kept := by
  unfold State.nbrPut
  split <;> simp

section
variable (c : Ctx) (sp : Space) (p : Piece) (x : Nat × PageAttr) (s : State) (ps : List Placed) (l : List LogEntry) (f : Fields) (scalar : Bool)
  (op : Nat)

@[simp] theorem ctx_pieceRead_kept : (c.pieceRead sp p x s).2.kept = s.kept := by
  simp only [Ctx.pieceRead]
  (repeat' split) <;> simp
@[simp] theorem ctx_fillAll_kept : (c.fillAll ps s).kept = s.kept := by simp [Ctx.fillAll]
@[simp] theorem ctx_fillMissing_kept : (c.fillMissing ps s).kept = s.kept := by simp [Ctx.fillMissing]
@[simp] theorem ctx_setSideLog_kept : (c.setSideLog l s).kept = s.kept := by simp [Ctx.setSideLog]
@[simp] theorem ctx_awaitRemote_kept : (c.awaitRemote f scalar op s).kept = s.kept := by simp [Ctx.awaitRemote]

end

/-! ### Synchronisation -/

section
variable (s : State) (n tag k : Nat) (c : Ctx) (f : Fields) (val v : Word) (p : Nat × Nat) (q : List DqEntry) (l : List (BitVec 512))

@[simp] theorem coreRetire_kept : (s.coreRetire n).kept = s.kept := by simp [State.coreRetire]
@[simp] theorem ctx_finishD_kept : (c.finishD f val s).kept = s.kept := by simp [Ctx.finishD]
@[simp] theorem releaseTbar_kept : (releaseTbar tag s p).kept = s.kept := by
  unfold releaseTbar
  (repeat' split) <;> simp
@[simp] theorem ctx_popDq_kept : (c.popDq f v q s).kept = s.kept := by simp [Ctx.popDq]
@[simp] theorem setFifo_kept : (s.setFifo k l).kept = s.kept := by simp [State.setFifo]

end

/-! ### Copy engines -/

@[simp] theorem coreTrap_kept (s : State) (n : Nat) (i : Instr) (kind : TrapKind) (check : Nat) : (s.coreTrap n i kind check).kept = s.kept := by
  simp [State.coreTrap]

section
variable (s : State) (sp slot i v asid root va q code count n : Nat) (k : CopyCmd) (t : Tr) (g : CopyCmd → CopyCmd) (a : CopyAt) (h : Shape)
  (sel ready : Nat → Bool) (l : List Byte) (need : Need) (ranges : List (Nat × Nat)) (ms mine : List Move) (addr : Word)

@[simp] theorem localPut_kept : (localPut s sp slot k i v).kept = s.kept := by simp [localPut]
@[simp] theorem engFill_kept : (engFill s sp asid root va t).kept = s.kept := by
  unfold engFill
  (repeat' split) <;> simp
@[simp] theorem modCopy_kept : (s.modCopy sp q g).kept = s.kept := by simp [State.modCopy]
@[simp] theorem finishCopy_kept : (finishCopy a code count s).kept = s.kept := by simp [finishCopy]
@[simp] theorem zeroOutside_kept : (zeroOutside a k h n sel s).kept = s.kept := by simp [zeroOutside]
@[simp] theorem fillPieces_kept : (fillPieces a k sel s).kept = s.kept := by simp [fillPieces]
@[simp] theorem failCopy_kept : (failCopy a code s).kept = s.kept := by
  unfold failCopy
  split <;> simp
@[simp] theorem copyPrepare_kept : (copyPrepare a k l s).kept = s.kept := by
  simp only [copyPrepare]
  (repeat' split) <;> simp
@[simp] theorem engReach_kept : (engReach a ready need va s).2.kept = s.kept := by simp [engReach]
@[simp] theorem copyBegin_kept : (copyBegin a k ranges s).kept = s.kept := by simp [copyBegin]
@[simp] theorem tileStep_kept : (tileStep a ms mine s).kept = s.kept := by
  unfold tileStep
  split <;> simp
@[simp] theorem putRec_kept : (putRec s sp asid addr l).kept = s.kept := by simp [putRec]

end

/-! ### Matrix engines -/

@[simp] theorem modMat_kept (s : State) (sp : Nat) (g : MatCmd → MatCmd) : (s.modMat sp g).kept = s.kept := by simp [State.modMat]

/-! ### Crossbar engines -/

section
variable (s : State) (sp slot id len : Nat) (g : XqCmd → XqCmd) (f : Fields) (accs : List (Nat × Word)) (xre : Bool) (sk : Skein) (k : XqCmd)
  (o : StepOp)

@[simp] theorem modXq_kept : (s.modXq sp g).kept = s.kept := by simp [State.modXq]
@[simp] theorem dropXq_kept : (s.dropXq sp).kept = s.kept := by simp [State.dropXq]
@[simp] theorem xdeliver_kept : (s.xdeliver sp slot id f accs xre).kept = s.kept := by
  unfold State.xdeliver
  split <;> simp
@[simp] theorem senseAbove_kept : (s.senseAbove sp).kept = s.kept := by simp [State.senseAbove]
@[simp] theorem xbegin_kept : (xbegin s sp slot sk k o).kept = s.kept := by
  simp only [xbegin]
  (repeat' split) <;> simp
@[simp] theorem xend_kept : (xend s sp slot k o len).kept = s.kept := by simp [xend]
@[simp] theorem xretire_kept : (xretire sp slot s).kept = s.kept := by
  unfold xretire
  split <;> simp
@[simp] theorem xphase_kept : (xphase s sp slot sk k o xre).kept = s.kept := by simp [xphase]

end

/-! ### Translation registers -/

section
variable (s : State) (g : Skein → Skein) (p : Xlat → Bool) (v : Word)

@[simp] theorem mapSkeins_kept : (s.mapSkeins g).kept = s.kept := by simp [State.mapSkeins]
@[simp] theorem dropXlats_kept : (s.dropXlats p).kept = s.kept := by simp [State.dropXlats]
@[simp] theorem shootdown_kept : (shootdown v s).kept = s.kept := by
  unfold shootdown
  split <;> simp
@[simp] theorem wake_kept : (wake v s).kept = s.kept := by
  unfold wake
  split <;> simp
@[simp] theorem writeHotcfg_kept : (writeHotcfg v s).kept = s.kept := by simp [writeHotcfg]
@[simp] theorem writeFrbase_kept : (writeFrbase v s).kept = s.kept := by simp [writeFrbase]

end

section
variable (g : Range → Range) (s : State) (op : Nat)

@[simp] theorem writeFrother_kept : (writeFrother g s).kept = s.kept := by simp [writeFrother]
@[simp] theorem dropReqs_kept : (s.dropReqs op).kept = s.kept := by simp [State.dropReqs]
@[simp] theorem remoteDone_kept : (remoteDone op s).kept = s.kept := by
  simp only [remoteDone]
  (repeat' split) <;> simp

end

/-! ### Launches -/

section
variable (s : State) (a acc c : Nat) (o : Offer) (val : Word)

@[simp] theorem knowRegion_kept : (s.knowRegion a).kept = s.kept := by simp [State.knowRegion]
@[simp] theorem checkAccepted_kept : (checkAccepted acc s).kept = s.kept := by
  simp only [checkAccepted]
  (repeat' split) <;> simp
@[simp] theorem acceptOffer_kept : (acceptOffer o s).kept = s.kept := by simp [acceptOffer]
@[simp] theorem checkWaiting_kept : (s.checkWaiting).kept = s.kept := by simp [State.checkWaiting]
@[simp] theorem deliverResult_kept : (deliverResult o val s).kept = s.kept := by
  unfold deliverResult
  (repeat' split) <;> simp
@[simp] theorem logHolds_kept : (s.logHolds c).kept = s.kept := by simp [State.logHolds]

end

/-! ### Placement -/

section
variable (s old : State) (v : Word) (n frame : Nat)

@[simp] theorem unlower_kept : (s.unlower).kept = s.kept := by simp [State.unlower]
@[simp] theorem lowered_kept : (s.lowered old).kept = s.kept := by simp [State.lowered]
@[simp] theorem writeRcbsync_kept : (writeRcbsync v s).kept = s.kept := by
  simp only [writeRcbsync]
  (repeat' split) <;> simp
@[simp] theorem touchFrame_kept : (s.touchFrame n).kept = s.kept := by simp [State.touchFrame]
@[simp] theorem starveStep_kept : (s.starveStep frame).kept = s.kept := by simp [State.starveStep]

end

/-! ### Pre-emption -/

section
variable (s : State) (byCtl : Bool) (sp slot : Nat) (sel : Nat → Bool)

@[simp] theorem stopSkein_kept : (s.stopSkein byCtl sp slot).kept = s.kept := by
  unfold State.stopSkein
  split <;> simp
@[simp] theorem stopSpindle_kept : (s.stopSpindle byCtl sp).kept = s.kept := by simp [State.stopSpindle]
@[simp] theorem savePending_kept : (s.savePending sp slot sel).kept = s.kept := by
  unfold State.savePending
  split <;> simp
@[simp] theorem touchSpindle_kept : (s.touchSpindle sp).kept = s.kept := by simp [State.touchSpindle]

end

/-! ### Power -/

section
variable (s : State) (d power st n : Nat) (est ns : List Nat) (v : Word)

@[simp] theorem sense_kept : (s.sense d).kept = s.kept := by simp [State.sense]
@[simp] theorem plimitStep_kept : (plimitStep d est power s).kept = s.kept := by
  unfold plimitStep
  (repeat' split) <;> simp
@[simp] theorem keepCycles_kept : (s.keepCycles d).kept = s.kept := by simp [State.keepCycles]
@[simp] theorem boostStep_kept : (boostStep d s).kept = s.kept := by simp [boostStep]
@[simp] theorem allTo_kept : (s.allTo ns st).kept = s.kept := by simp [State.allTo]
@[simp] theorem dieOff_kept : (s.dieOff d).kept = s.kept := by simp [State.dieOff]
@[simp] theorem enterA4_kept : (s.enterA4).kept = s.kept := by simp [State.enterA4]
@[simp] theorem writePwrCfg_kept : (writePwrCfg v s).kept = s.kept := by simp [writePwrCfg]
@[simp] theorem wakeA4_kept : (s.wakeA4).kept = s.kept := by simp [State.wakeA4]
@[simp] theorem startWake_kept : (s.startWake n).kept = s.kept := by simp [State.startWake]
@[simp] theorem restartCounters_kept : (s.restartCounters d).kept = s.kept := by simp [State.restartCounters]
@[simp] theorem ungate_kept : (s.ungate n).kept = s.kept := by simp [State.ungate]
@[simp] theorem startGate_kept : (s.startGate n).kept = s.kept := by simp [State.startGate]
@[simp] theorem writePwrFrame_kept : (writePwrFrame v s).kept = s.kept := by simp [writePwrFrame]

end

/-! ### Registers -/

section
variable (c : Ctx) (s : State) (g : TrapState → TrapState) (q : Nat) (v : Word)

@[simp] theorem ctx_modTrap_kept : (c.modTrap s g).kept = s.kept := by simp [Ctx.modTrap]
@[simp] theorem ctx_stopPly_kept : (c.stopPly q s).kept = s.kept := by simp [Ctx.stopPly]
@[simp] theorem ctx_runPly_kept : (c.runPly q s).kept = s.kept := by simp [Ctx.runPly]
@[simp] theorem ctx_writeRdat_kept : (c.writeRdat v s).kept = s.kept := by
  simp only [Ctx.writeRdat]
  (repeat' split) <;> simp
@[simp] theorem writeAs_kept : (writeAs v s).kept = s.kept := by simp [writeAs]
@[simp] theorem writeAsrcb_kept : (writeAsrcb v s).kept = s.kept := by simp [writeAsrcb]
@[simp] theorem writeAown_kept : (writeAown v s).kept = s.kept := by simp [writeAown]
@[simp] theorem writeTbcfg_kept : (writeTbcfg v s).kept = s.kept := by simp [writeTbcfg]
@[simp] theorem writeLinkStat_kept : (writeLinkStat s).kept = s.kept := by simp [writeLinkStat]
@[simp] theorem writeLinkEth_kept : (writeLinkEth v s).kept = s.kept := by simp [writeLinkEth]
@[simp] theorem writeSecOp_kept : (writeSecOp v s).kept = s.kept := by simp [writeSecOp]
@[simp] theorem writeString_kept : (writeString v s).kept = s.kept := by simp [writeString]
@[simp] theorem writeDbgRel_kept : (writeDbgRel v s).kept = s.kept := by simp [writeDbgRel]

end

/-! ### Ports -/

@[simp] theorem raiseNetwork_kept (s : State) : (s.raiseNetwork).kept = s.kept := by simp [State.raiseNetwork]
@[simp] theorem holdMisfits_kept (s : State) (m n : Nat) : (s.holdMisfits m n).kept = s.kept := by simp [State.holdMisfits]

/-! ### Issue and time -/

section
variable (c : Ctx) (s s0 : State) (p : Party) (va : Word)

@[simp] theorem ctx_merged_kept : (c.merged s).2.kept = s.kept := by
  unfold Ctx.merged
  split <;> simp
@[simp] theorem startBase_kept : (s.startBase).kept = s.kept := by simp [State.startBase]
@[simp] theorem upNext_kept : (s0.upNext).2.kept = s0.kept := by
  simp only [State.upNext]
  (repeat' split) <;> simp
@[simp] theorem fetchAhead_kept : (fetchAhead p va s).kept = s.kept := by
  simp only [fetchAhead]
  (repeat' split) <;> simp

end

end Sys2Proof.Machine
end

section
/-! PROOFS. What the operations that write memory or number an operation keep: the canonical form of memory, and the numbers used so far. -/

namespace Sys2Proof.Machine

open Host (Outcome)

/-- A later state's part against an earlier one's: the fused registers are the same, a memory in canonical form stays in it, and operations are
numbered upwards. -/
structure Kept.Le (a b : Kept) : Prop where
  units : b.units = a.units
  stepping : b.stepping = a.stepping
  mem : Memory.wf a.mem = true → Memory.wf b.mem = true
  remote : Memory.wf a.remote = true → Memory.wf b.remote = true
  opSeq : a.opSeq ≤ b.opSeq

@[simp] theorem Kept.le_refl (a : Kept) : a.Le a := ⟨rfl, rfl, id, id, le_rfl⟩

theorem Kept.Le.trans {a b c : Kept} (h : a.Le b) (g : b.Le c) : a.Le c :=
  ⟨g.units.trans h.units, g.stepping.trans h.stepping, g.mem ∘ h.mem, g.remote ∘ h.remote, h.opSeq.trans g.opSeq⟩

@[simp] theorem Kept.le_ite {a b c : Kept} (p : Prop) [Decidable p] : a.Le (if p then b else c) ↔ (p → a.Le b) ∧ (¬p → a.Le c) := by
  by_cases hp : p <;> simp [hp]

theorem Kept.Le.count {a b : Kept} (h : a.Le b) {n : Nat} (hn : b.opSeq ≤ n) : a.Le { b with opSeq := n } :=
  ⟨h.units, h.stepping, h.mem, h.remote, h.opSeq.trans hn⟩

variable {a : Kept}

/-! ### Writes of memory, and fresh identities -/

theorem paPut_kept_le (s : State) (pa : Nat) (b : Byte) : s.kept.Le (s.paPut pa b).kept := by
  refine ⟨?_, ?_, paPut_mem_wf s pa b, paPut_remote_wf s pa b, ?_⟩ <;>
    (obtain ⟨-, -, e⟩ | ⟨-, -, e⟩ | ⟨-, e⟩ := paPut_cases s pa b <;> rw [e] <;> simp [State.kept])

@[simp] theorem putEach_le (l : List Byte) (s : State) (pa : Nat) (h : a.Le s.kept) : a.Le (s.putEach pa l).kept := by
  induction l generalizing s pa with
  | nil => exact h
  | cons b l ih => exact ih _ _ (h.trans (paPut_kept_le s pa b))

@[simp] theorem paPutBytes_le (s : State) (pa : Nat) (l : List Byte) (h : a.Le s.kept) : a.Le (s.paPutBytes pa l).kept := by
  simp [State.paPutBytes, h]

@[simp] theorem paWrite_le (s : State) (pa n : Nat) (v : Word) (h : a.Le s.kept) : a.Le (s.paWrite pa n v).kept := by
  simp [State.paWrite, h]

@[simp] theorem fresh_le (s : State) (h : a.Le s.kept) : a.Le s.fresh.2.kept := h.count (Nat.le_succ _)

/-- A fold of operations, each of which keeps what is kept. -/
@[simp] theorem foldl_le {α : Type} (g : State → α → State) (hg : ∀ (t : State) x, t.kept.Le (g t x).kept) (l : List α) (t : State)
    (h : a.Le t.kept) : a.Le (l.foldl g t).kept := by
  induction l generalizing t with
  | nil => exact h
  | cons x l ih => exact ih _ (h.trans (hg t x))

theorem foldl_snd_le {α β : Type} (g : β × State → α → β × State) (hg : ∀ (z : β × State) x, z.2.kept.Le (g z x).2.kept) (l : List α)
    (z : β × State) (h : a.Le z.2.kept) : a.Le (l.foldl g z).2.kept := by
  induction l generalizing z with
  | nil => exact h
  | cons x l ih => exact ih _ (h.trans (hg z x))

/-! ### The rings -/

@[simp] theorem ringWrite_le (s : State) (r : RingRec) (h : a.Le s.kept) : a.Le (s.ringWrite r).kept := by
  simp only [State.ringWrite, raiseFaultInterrupt_kept, kept_update]
  iterate 4 apply paWrite_le
  exact h

@[simp] theorem ringPut_le (s : State) (r : RingRec) (h : a.Le s.kept) : a.Le (s.ringPut r).kept := by
  simp [State.ringPut, h]

theorem ringFlushGo_le (n : Nat) (s : State) (h : a.Le s.kept) : a.Le (ringFlushGo n s).kept := by
  induction n generalizing s with
  | zero => exact h
  | succ n ih =>
    unfold ringFlushGo
    split
    · exact h
    · split
      · exact ih _ (by simp [h])
      · exact h

@[simp] theorem ringFlush_le (s : State) (h : a.Le s.kept) : a.Le s.ringFlush.kept := ringFlushGo_le _ s h

@[simp] theorem strWrite_le (s : State) (r : List Word) (h : a.Le s.kept) : a.Le (s.strWrite r).kept := by
  simp only [State.strWrite, kept_update]
  iterate 4 apply paWrite_le
  exact h

@[simp] theorem strPut_le (s : State) (acc : Nat) (rs : List (List Word)) (h : a.Le s.kept) : a.Le (s.strPut acc rs).kept := by
  simp [State.strPut, h]

theorem strFlushGo_le (n : Nat) (s : State) (h : a.Le s.kept) : a.Le (strFlushGo n s).kept := by
  induction n generalizing s with
  | zero => exact h
  | succ n ih =>
    unfold strFlushGo
    split
    · exact h
    · split
      · exact ih _ (by simp [h])
      · exact h

@[simp] theorem strFlush_le (s : State) (h : a.Le s.kept) : a.Le s.strFlush.kept := strFlushGo_le _ s h

/-! ### Static entries, and the end of a skein -/

/-- Each released entry takes an identity. -/
theorem releaseGo_le (l : Launch) (x : Spindle) (n seq : Nat) (k : Skein) : seq ≤ (releaseGo l x n seq k).1 := by
  induction n generalizing seq k with
  | zero => exact le_rfl
  | succ n ih =>
    unfold releaseGo
    split
    · exact le_rfl
    · split
      · exact (Nat.le_succ seq).trans (ih _ _)
      · exact le_rfl

@[simp] theorem releaseStatic_le (s : State) (sp slot : Nat) (h : a.Le s.kept) : a.Le (s.releaseStatic sp slot).kept := by
  unfold State.releaseStatic
  split
  · exact h
  · split
    · exact h
    · simp only [setSkein_kept, setSpindle_kept]
      exact h.count (releaseGo_le ..)

@[simp] theorem releaseSpindle_le (s : State) (sp : Nat) (h : a.Le s.kept) : a.Le (s.releaseSpindle sp).kept := by
  simp [State.releaseSpindle, h]

@[simp] theorem endSkein_le (s : State) (sp slot : Nat) (h : a.Le s.kept) : a.Le (s.endSkein sp slot).kept := by
  unfold State.endSkein
  split <;> simp [h]

@[simp] theorem takeTrap_le (c : Ctx) (t : TrapRec) (epc : Word) (s : State) (h : a.Le s.kept) : a.Le (takeTrap c t epc s).kept := by
  simp [takeTrap, h]

@[simp] theorem takePending_le (c : Ctx) (t : TrapRec) (s : State) (h : a.Le s.kept) : a.Le (takePending c t s).kept := by
  simp [takePending, h]

@[simp] theorem stampClose_le (s : State) (sp slot t end_ : Nat) (h : a.Le s.kept) : a.Le (s.stampClose sp slot t end_).kept := by
  simp only [State.stampClose]
  split
  · simp [h]
  · split <;> simp [h]

@[simp] theorem pathRecord_le (s : State) (kind sp slot plyNo path : Nat) (h : a.Le s.kept) :
    a.Le (s.pathRecord kind sp slot plyNo path).kept := by
  unfold State.pathRecord
  split <;> simp [h]

@[simp] theorem sampleRecord_le (s : State) (sp : Nat) (p : LastPath) (h : a.Le s.kept) : a.Le (s.sampleRecord sp p).kept := by
  unfold State.sampleRecord
  split <;> simp [h]

/-! ### Accesses of instructions -/

@[simp] theorem ctx_pieceWrite_le (c : Ctx) (sp : Space) (p : Piece) (x : Nat × PageAttr) (new : List Byte) (s : State) (h : a.Le s.kept) :
    a.Le (c.pieceWrite sp p x new s).kept := by
  unfold Ctx.pieceWrite
  split <;> simp [h]

@[simp] theorem ctx_request_le (c : Ctx) (op at_ tid : Nat) (p : Piece) (x : Xlat) (pa : Nat) (what : RemoteOp) (done : Bool) (old : Word)
    (s : State) (h : a.Le s.kept) : a.Le (c.request op at_ tid p x pa what done old s).kept := by
  simp [Ctx.request, h]

@[simp] theorem ctx_performPiece_le (c : Ctx) (sp : Space) (what : RemoteOp) (op at_ tid : Nat) (keep : Bool) (p : Piece) (x : Xlat)
    (g : Nat × PageAttr) (s : State) (h : a.Le s.kept) : a.Le (c.performPiece sp what op at_ tid keep p x g s).2.kept := by
  unfold Ctx.performPiece
  split
  · simp [h]
  · simp only
    split <;> split <;> simp [h]

theorem nbrPutBytes_kept (s : State) (launch sp b : Nat) (l : List Byte) : (s.nbrPutBytes launch sp b l).kept = s.kept := by
  induction l generalizing s b with
  | nil => rfl
  | cons v l ih => rw [State.nbrPutBytes, ih, nbrPut_kept]

@[simp] theorem ctx_perform1_le (c : Ctx) (sp : Space) (n : Nat) (what : RemoteOp) (op at_ : Nat) (keep : Bool) (p : Placed) (s : State)
    (h : a.Le s.kept) : a.Le (c.perform1 sp n what op at_ keep p s).2.kept := by
  unfold Ctx.perform1
  split
  · simp only
    split <;> simp [h]
  · simp only
    split <;> simp [h, nbrPutBytes_kept]
  · refine foldl_snd_le _ (fun z q => ?_) _ _ h
    split
    · split <;> simp
    · simp

theorem ctx_performAll_le (c : Ctx) (sp : Space) (n : Nat) (what : Access → RemoteOp) (op at_ : Nat) (keep : Bool) (ps : List Placed)
    (s : State) (h : a.Le s.kept) : a.Le (c.performAll sp n what op at_ keep ps s).2.kept := by
  induction ps generalizing s with
  | nil => exact h
  | cons p ps ih => exact ih _ (ctx_perform1_le _ _ _ _ _ _ _ _ _ h)

@[simp] theorem ctx_popEv_le (c : Ctx) (f : Fields) (s : State) (h : a.Le s.kept) : a.Le (c.popEv f s).kept := by
  unfold Ctx.popEv
  split <;> simp [h]

/-! ### The copy engines -/

@[simp] theorem copyMissing_le (k : CopyAt) (va : Nat) (write mig : Bool) (s : State) (h : a.Le s.kept) :
    a.Le (copyMissing k va write mig s).kept := by
  simp [copyMissing, h]

@[simp] theorem copyStop_le (k : CopyAt) (va : Nat) (write : Bool) (r : Reach) (s : State) (h : a.Le s.kept) :
    a.Le (copyStop k va write r s).kept := by
  unfold copyStop
  split <;> simp [h]

@[simp] theorem viewGo_kept (k : CopyAt) (l : List Nat) (s : State) : (viewGo k l s).2.kept = s.kept := by
  induction l generalizing s with
  | nil => rfl
  | cons line l ih =>
    simp only [viewGo]
    split <;> simp [ih]

@[simp] theorem recordGo_kept (k : CopyAt) (l : List Nat) (s : State) : (recordGo k l s).2.kept = s.kept := by
  induction l generalizing s with
  | nil => rfl
  | cons va l ih =>
    have r : (engReach k (s.accessible .read) .read va s).2.kept = s.kept := by simp
    simp only [recordGo]
    split <;> simp_all

theorem copyPiece_le (k : CopyAt) (y : CopyCmd) (ms : List Move) (pa : Nat) (s : State) (h : a.Le s.kept) :
    ∀ t, copyPiece k y ms pa s = some t → a.Le t.kept := by
  unfold copyPiece
  split
  · simp only [Option.map_eq_some_iff]
    rintro t ⟨l, -, rfl⟩
    simp [h]
  · rintro t ⟨⟩
    simp [h]

@[simp] theorem copyCover_le (k : CopyAt) (s : State) (h : a.Le s.kept) : a.Le (copyCover k s).kept := by
  unfold copyCover
  split
  · exact h
  · simp only
    split
    · exact h
    · split
      · simp [h]
      · split
        · simp [h]
        · split <;> simp [h]

theorem engReach_eq_kept {k : CopyAt} {ready : Nat → Bool} {need : Need} {va : Nat} {s t : State} {r : Reach}
    (h : engReach k ready need va s = (r, t)) : t.kept = s.kept := by
  have e : (engReach k ready need va s).2.kept = s.kept := by simp
  rwa [h] at e

@[simp] theorem copyAccess_le (k : CopyAt) (use : Nat) (s : State) (h : a.Le s.kept) : a.Le (copyAccess k use s).kept := by
  unfold copyAccess
  split
  · exact h
  · split
    · exact h
    · split
      · simp only
        split
        · next e => simp [h, engReach_eq_kept e]
        · next e => simp [h, engReach_eq_kept e]
      · simp only
        split
        · simp [h]
        · split
          · next e =>
            have ht := engReach_eq_kept e ▸ h
            split
            · simp [ht]
            · next p => simp [copyPiece_le _ _ _ _ _ ht _ p]
          · next e => simp [h, engReach_eq_kept e]

theorem copyAccesses_le (k : CopyAt) (n : Nat) (s : State) (h : a.Le s.kept) : a.Le (copyAccesses k n s).kept := by
  induction n generalizing s with
  | zero => exact h
  | succ n ih => exact ih _ (copyAccess_le _ _ _ h)

@[simp] theorem copyEnd_le (k : CopyAt) (s : State) (h : a.Le s.kept) : a.Le (copyEnd k s).kept := by
  unfold copyEnd
  split <;> simp [h]

@[simp] theorem copyRecord_le (k : CopyAt) (y : CopyCmd) (s : State) (h : a.Le s.kept) : a.Le (copyRecord k y s).kept := by
  simp only [copyRecord]
  split
  · simp [h]
  · split
    · split <;> simp [h]
    · split
      · simp [h]
      · split <;> simp [h]

@[simp] theorem copyRun_le (k : CopyAt) (n : Nat) (s : State) (h : a.Le s.kept) : a.Le (copyRun k n s).kept := by
  unfold copyRun
  split
  · exact h
  · split
    · exact h
    · exact copyEnd_le _ _ (copyAccesses_le _ _ _ (copyCover_le _ _ (by simp [h])))

theorem migGo_le (slot src dst n done : Nat) (s : State) (h : a.Le s.kept) : a.Le (migGo slot src dst n done s).2.kept := by
  induction n generalizing done s with
  | zero => exact h
  | succ n ih =>
    unfold migGo
    split
    · exact ih _ _ (by simp [h])
    · exact h

@[simp] theorem migRun_le (c q lines : Nat) (s : State) (h : a.Le s.kept) : a.Le (migRun c q lines s).kept := by
  unfold migRun
  split
  · exact h
  · split
    · exact h
    · simp [migGo_le _ _ _ _ _ _ h]

@[simp] theorem copyRetry_le (sp q : Nat) (err : MemErr) (s : State) (h : a.Le s.kept) : a.Le (copyRetry sp q err s).kept := by
  unfold copyRetry
  split
  · exact h
  · split <;> simp [h]

@[simp] theorem migRetry_le (c q : Nat) (err : MemErr) (s : State) (h : a.Le s.kept) : a.Le (migRetry c q err s).kept := by
  unfold migRetry
  split <;> simp [h]

/-! ### Translation and memory registers -/

@[simp] theorem writeFq_le (v : Word) (s : State) (h : a.Le s.kept) : a.Le (writeFq v s).kept := by
  simp [writeFq, h]

@[simp] theorem writeFqTail_le (v : Word) (s : State) (h : a.Le s.kept) : a.Le (writeFqTail v s).kept := by
  simp [writeFqTail, h]

@[simp] theorem ctx_denyHead_le (c : Ctx) (rest : List LogEntry) (e : LogEntry) (s : State) (h : a.Le s.kept) :
    a.Le (c.denyHead rest e s).kept := by
  simp [Ctx.denyHead, h]

@[simp] theorem ownerAccess_le (pa n : Nat) (op : RemoteOp) (s : State) (h : a.Le s.kept) : a.Le (ownerAccess pa n op s).2.kept := by
  simp only [ownerAccess]
  split <;> simp [h]

/-! ### The logs of cores, and what a core is answered -/

@[simp] theorem putRing_le (base size i : Nat) (l : List Byte) (s : State) (h : a.Le s.kept) : a.Le (putRing base size i l s).kept := by
  simp [putRing, h]

@[simp] theorem logPut_le (s : State) (c kind : Nat) (w2 w3 : Word) (pay : List Byte) (h : a.Le s.kept) :
    a.Le (s.logPut c kind w2 w3 pay).kept := by
  simp only [State.logPut, modCore_kept]
  apply putRing_le
  iterate 4 apply paWrite_le
  exact h

@[simp] theorem takeInterrupt_le (s : State) (c : Nat) (h : a.Le s.kept) : a.Le (s.takeInterrupt c).kept := by
  simp [State.takeInterrupt, h]

@[simp] theorem answerCore_le (c : Nat) (val : Word) (s : State) (h : a.Le s.kept) : a.Le (answerCore c val s).kept := by
  simp only [answerCore]
  split <;> simp [h]

@[simp] theorem answerOffer_le (o : Offer) (val : Word) (s : State) (h : a.Le s.kept) : a.Le (answerOffer o val s).kept := by
  unfold answerOffer
  split <;> simp [h]

@[simp] theorem vaWrite_le (s : State) (asid root va : Nat) (v : Word) (h : a.Le s.kept) : a.Le (s.vaWrite asid root va v).kept := by
  unfold State.vaWrite
  refine foldl_le _ (fun t p => ?_) _ _ h
  split <;> simp

@[simp] theorem placeSkein_le (s : State) (sp acc idx : Nat) (h : a.Le s.kept) : a.Le (s.placeSkein sp acc idx).kept := by
  simp only [State.placeSkein]
  split
  · exact h
  · have hf := fresh_le s h
    simp [hf]

@[simp] theorem sendLine_le (s : State) (asid uid sp slot : Nat) (d : BackLine) (h : a.Le s.kept) :
    a.Le (s.sendLine asid uid sp slot d).kept := by
  simp [State.sendLine, h]

@[simp] theorem backLine_le (s : State) (asid uid sp slot : Nat) (d : BackLine) (h : a.Le s.kept) :
    a.Le (s.backLine asid uid sp slot d).kept := by
  simp [State.backLine, h]

/-! ### Registers -/

@[simp] theorem ctx_writeTrapPly_le (c : Ctx) (v : Word) (s : State) (h : a.Le s.kept) : a.Le (c.writeTrapPly v s).kept := by
  unfold Ctx.writeTrapPly
  split
  · simp [h]
  · simp only
    split <;> simp [h]

@[simp] theorem ctx_trapWrite_le (c : Ctx) (n : Nat) (v : Word) (s : State) (h : a.Le s.kept) : a.Le (c.trapWrite n v s).kept := by
  unfold Ctx.trapWrite
  split <;> simp [h]

@[simp] theorem ctx_csrWrite_le (c : Ctx) (n : Nat) (v : Word) (s : State) (h : a.Le s.kept) : a.Le (c.csrWrite n v s).kept := by
  simp [Ctx.csrWrite, h]

@[simp] theorem handlerStep_le (p : Party) (n : Nat) (sel : Bool) (v : Word) (s : State) (h : a.Le s.kept) :
    a.Le (handlerStep p n sel v s).kept := by
  unfold handlerStep
  split <;> simp [h]

@[simp] theorem secRun_le (s : State) (h : a.Le s.kept) : a.Le (secRun s).kept := by
  simp only [secRun]
  split <;> simp [h]

/-- A part of a sparse store in canonical form is in canonical form. -/
theorem aabove_filter {α : Type} (g : Nat × α → Bool) (l : Assoc α) (k : Nat) (hs : asorted l = true) (h : aabove k l = true) :
    aabove k (l.filter g) = true := by
  induction l with
  | nil => rfl
  | cons p l ih =>
    simp only [asorted, aabove, Bool.and_eq_true, decide_eq_true_eq] at hs h
    rw [List.filter_cons]
    split
    · simpa [aabove] using h
    · refine ih hs.2 ?_
      cases l with
      | nil => rfl
      | cons q l =>
        have := hs.1
        simp only [aabove, decide_eq_true_eq] at this ⊢
        omega

theorem asorted_filter {α : Type} (g : Nat × α → Bool) (l : Assoc α) (h : asorted l = true) : asorted (l.filter g) = true := by
  induction l with
  | nil => rfl
  | cons p l ih =>
    simp only [asorted, Bool.and_eq_true] at h
    rw [List.filter_cons]
    split
    · simp [asorted, ih h.2, aabove_filter g l p.1 h.2 h.1]
    · exact ih h.2

theorem swf_filter {n : Nat} (g : Nat × BitVec n → Bool) (m : Sparse n) (h : swf m = true) : swf (m.filter g) = true := by
  simp only [swf, Bool.and_eq_true, List.all_eq_true] at h ⊢
  exact ⟨asorted_filter g m h.1, fun p hp => h.2 p (List.mem_filter.1 hp).1⟩

@[simp] theorem scramble_le (s : State) (d lo hi : Nat) (h : a.Le s.kept) : a.Le (s.scramble d lo hi).kept :=
  ⟨h.units, h.stepping, fun w => swf_filter _ _ (h.mem w), h.remote, h.opSeq⟩

@[simp] theorem writeMemCfg_le (v : Word) (s : State) (h : a.Le s.kept) : a.Le (writeMemCfg v s).kept := by
  simp [writeMemCfg, h]

@[simp] theorem packageReset_le (s : State) (h : a.Le s.kept) : a.Le (packageReset s).kept :=
  ⟨h.units, h.stepping, fun w => swf_filter _ _ (h.mem w), h.remote, h.opSeq⟩

@[simp] theorem logAll_le (s : State) (kind pa : Nat) (bytes : List Byte) (h : a.Le s.kept) : a.Le (s.logAll kind pa bytes).kept := by
  simp [State.logAll, h]

@[simp] theorem portWrite_le (s : State) (pa : Nat) (bytes : List Byte) (h : a.Le s.kept) : a.Le (s.portWrite pa bytes).kept := by
  simp [State.portWrite, h]

@[simp] theorem ctx_fetchTrap_le (c : Ctx) (va : Word) (kind : TrapKind) (rec? : Option (Nat × Word)) (s : State) (h : a.Le s.kept) :
    a.Le (c.fetchTrap va kind rec? s).kept := by
  simp only [Ctx.fetchTrap]
  cases rec? with
  | none => simp [h]
  | some r => simp [h]

@[simp] theorem coreCounter_le (c : Nat) (s : State) (h : a.Le s.kept) : a.Le (coreCounter c s).2.kept := by
  simp only [coreCounter]
  (repeat' split) <;> simp [h]

@[simp] theorem coreCsrr_le (c : Nat) (f : Fields) (s : State) (h : a.Le s.kept) : a.Le (coreCsrr c f s).kept := by
  have key : a.Le (if f.csr = 0x0A04 then coreCounter c s else (some (coreRead c f.csr s), s)).2.kept := by
    split <;> simp [h]
  unfold coreCsrr
  (repeat' split) <;> simp_all

@[simp] theorem vfPush_kept {c : Ctx} {f : Fields} {s t : State} (h : c.vfPush f s = some t) : t.kept = s.kept := by
  simp only [Ctx.vfPush, Option.ite_none_left_eq_some, Option.some.injEq] at h
  obtain ⟨-, rfl⟩ := h
  simp

@[simp] theorem vfPop_kept {c : Ctx} {f : Fields} {s t : State} (h : c.vfPop f s = some t) : t.kept = s.kept := by
  unfold Ctx.vfPop at h
  simp only at h
  split at h
  · cases h
  · obtain rfl := Option.some.inj h
    simp

theorem writePreCtl_kept {v : Word} {s t : State} (h : writePreCtl v s = some t) : t.kept = s.kept := by
  unfold writePreCtl at h
  simp only at h
  split at h
  · cases h
  · split at h
    · obtain rfl := Option.some.inj h; rfl
    · split at h
      · obtain rfl := Option.some.inj h
        split <;> simp
      · obtain rfl := Option.some.inj h; simp
      · obtain rfl := Option.some.inj h; simp

end Sys2Proof.Machine
end

section
/-! PROOFS. What an instruction, an event and a step keep, and the invariant. -/

namespace Sys2Proof.Machine

open Host (Outcome)

variable {a : Kept}

/-! ### What a write of a register, an instruction's own part and a step give -/

/-- Whatever state a write of a register gives keeps what is kept. -/
def Written.Keeps (a : Kept) : Written → Prop
  | .ok t | .begun t => a.Le t.kept
  | .absent | .hold => True

@[simp] theorem written_keeps_ok (t : State) : Written.Keeps a (.ok t) ↔ a.Le t.kept := Iff.rfl
@[simp] theorem written_keeps_begun (t : State) : Written.Keeps a (.begun t) ↔ a.Le t.kept := Iff.rfl
@[simp] theorem written_keeps_absent : Written.Keeps a .absent := trivial
@[simp] theorem written_keeps_hold : Written.Keeps a .hold := trivial
@[simp] theorem written_keeps_ite (p : Prop) [Decidable p] (x y : Written) :
    Written.Keeps a (if p then x else y) ↔ (p → x.Keeps a) ∧ (¬p → y.Keeps a) := by
  by_cases h : p <;> simp [h]

/-- Whatever state an instruction's own part gives keeps what is kept. -/
def Eff.Keeps (a : Kept) : Eff → Prop
  | .done t | .trapWith t _ | .stall t | .await t => a.Le t.kept
  | .trap _ | .raise _ => True
  | .looked t e => a.Le t.kept ∧ e.Keeps a

@[simp] theorem eff_keeps_done (t : State) : Eff.Keeps a (.done t) ↔ a.Le t.kept := Iff.rfl
@[simp] theorem eff_keeps_trap (t : TrapRec) : Eff.Keeps a (.trap t) := trivial
@[simp] theorem eff_keeps_trapWith (s : State) (t : TrapRec) : Eff.Keeps a (.trapWith s t) ↔ a.Le s.kept := Iff.rfl
@[simp] theorem eff_keeps_raise (t : TrapRec) : Eff.Keeps a (.raise t) := trivial
@[simp] theorem eff_keeps_stall (t : State) : Eff.Keeps a (.stall t) ↔ a.Le t.kept := Iff.rfl
@[simp] theorem eff_keeps_await (t : State) : Eff.Keeps a (.await t) ↔ a.Le t.kept := Iff.rfl
@[simp] theorem eff_keeps_looked (t : State) (e : Eff) : Eff.Keeps a (.looked t e) ↔ a.Le t.kept ∧ e.Keeps a := Iff.rfl
@[simp] theorem eff_keeps_ite (p : Prop) [Decidable p] (x y : Eff) :
    Eff.Keeps a (if p then x else y) ↔ (p → x.Keeps a) ∧ (¬p → y.Keeps a) := by
  by_cases h : p <;> simp [h]

/-- The next state, if there is one, keeps what is kept. -/
def Keeps (a : Kept) (o : Outcome State Fault Refusal) : Prop := ∀ t, o = .next t → a.Le t.kept

@[simp] theorem keeps_next (t : State) : Keeps a (.next t) ↔ a.Le t.kept := by simp [Keeps]
@[simp] theorem keeps_fault (f : Fault) : Keeps a (.fault f) := by simp [Keeps]
@[simp] theorem keeps_refused (r : Refusal) : Keeps a (.refused r) := by simp [Keeps]
@[simp] theorem keeps_ite (p : Prop) [Decidable p] (x y : Outcome State Fault Refusal) :
    Keeps a (if p then x else y) ↔ (p → Keeps a x) ∧ (¬p → Keeps a y) := by
  by_cases h : p <;> simp [h]

/-! ### The shape of an instruction -/

@[simp] theorem eff_delayed_keeps {e : Eff} {s : State} (he : e.Keeps a) (h : a.Le s.kept) : (e.delayed s).Keeps a := by
  induction e generalizing s with
  | looked t e ih => exact ⟨he.1, ih he.2 he.1⟩
  | trapWith t r => exact he
  | await t => exact he
  | trap => trivial
  | done | raise | stall => exact h

@[simp] theorem settle_le (c : Ctx) (cls : Nat) (f : Fields) {s : State} {e : Eff} (he : e.Keeps a) (h : a.Le s.kept) :
    a.Le (settle c cls f s e).kept := by
  induction e generalizing s with
  | trap t => simp [settle, h]
  | trapWith t r => simp only [eff_keeps_trapWith] at he; simp [settle, h, he]
  | await t => simpa [settle] using he
  | looked t e ih =>
    cases hp : c.pending with
    | nil => simpa [settle, hp] using ih he.2 he.1
    | cons => unfold settle; simp [hp, h]
  | done t => simp only [eff_keeps_done] at he; unfold settle; split <;> simp_all
  | raise t => unfold settle; split <;> simp_all
  | stall t => simp only [eff_keeps_stall] at he; unfold settle; split <;> simp_all

/-- An instruction keeps what is kept where its own part does. -/
@[simp] theorem guarded_keeps (i : Instr) (s : State) {body : Fields → Ctx → State → Eff} (hb : ∀ f c t, (body f c t).Keeps t.kept) :
    Keeps s.kept (guarded i s body) := by
  have here : ∀ (c₀ : Ctx) f c, (body f c (c₀.landed s)).Keeps s.kept := fun c₀ f c => ctx_landed_kept c₀ s ▸ hb f c _
  unfold guarded
  split
  · split <;> simp
  · split
    · simp only [keeps_next]
      exact settle_le _ _ _ trivial (Kept.le_refl _)
    · simp only
      split
      · simp
      · split
        · simp
        · simp only [keeps_next]
          refine settle_le _ _ _ ?_ (by simp)
          split
          · exact eff_delayed_keeps (here ..) (by simp)
          · exact here ..
  · simp

/-! ### Writes by system cores -/

@[simp] theorem writeBsq_keeps (c : Nat) (v : Word) (s : State) (h : a.Le s.kept) : (writeBsq c v s).Keeps a := by
  simp [writeBsq, h]

@[simp] theorem writePwrSel_keeps (v : Word) (s : State) (h : a.Le s.kept) : (writePwrSel v s).Keeps a := by
  simp [writePwrSel, h]

@[simp] theorem coreWrite_keeps (c n : Nat) (v : Word) (s : State) (h : a.Le s.kept) : (coreWrite c n v s).Keeps a := by
  have pre (t : State) (e : writePreCtl v s = some t) : a.Le t.kept := by simpa [writePreCtl_kept e] using h
  unfold coreWrite
  (repeat' split) <;> simp_all

@[simp] theorem corePut_le (c : Nat) (f : Fields) (v : Word) (s : State) (h : a.Le s.kept) : a.Le (corePut c f v s).kept := by
  have key := coreWrite_keeps c f.csr v s h
  unfold corePut
  split <;> simp_all

@[simp] theorem coreCsrw_le (c : Nat) (f : Fields) (s : State) (h : a.Le s.kept) : a.Le (coreCsrw c f s).kept := by
  simp [coreCsrw, h]

@[simp] theorem coreStep_le (p : Party) (n : Nat) (sel : Bool) (v : Word) (s : State) (h : a.Le s.kept) :
    a.Le (coreStep p n sel v s).kept := by
  unfold coreStep
  split <;> simp [h]

@[simp] theorem secStep_le (p : Party) (op : Nat) (v : Word) (s : State) (h : a.Le s.kept) : a.Le (secStep p op v s).kept := by
  simp [secStep, h]

@[simp] theorem syncArg_keeps : syncArg.Keeps a := trivial
@[simp] theorem copyArg_keeps : copyArg.Keeps a := trivial
@[simp] theorem matrixArg_keeps (n : Option Nat) : (matrixArg n).Keeps a := trivial
@[simp] theorem xbarArg_keeps (n : Option Nat) : (xbarArg n).Keeps a := trivial

@[simp] theorem forParty_keeps (s : State) (p : Party) (g : Ctx → State) (h : ∀ c, a.Le (g c).kept) (hs : a.Le s.kept) :
    Keeps a (s.forParty p g) := by
  unfold State.forParty
  split <;> simp [h, hs]

@[simp] theorem ctx_block_keeps (c : Ctx) (w : Wait) (s : State) (h : a.Le s.kept) : (c.block w s).Keeps a := by
  simp [Ctx.block, h]

@[simp] theorem laneWise_keeps (i : Instr) (ty : Fields → Ty) (g : Fields → Ctx → Word → Word → Word → Word × FFlags) (f : Fields) (c : Ctx)
    (s : State) (h : a.Le s.kept) : (laneWise i ty g f c s).Keeps a := by
  unfold laneWise
  (repeat' split) <;> simp [h]

@[simp] theorem laneCompare_keeps (i : Instr) (g : Fields → Ctx → Word → Word → Bool × FFlags) (f : Fields) (c : Ctx) (s : State)
    (h : a.Le s.kept) : (laneCompare i g f c s).Keeps a := by
  unfold laneCompare
  (repeat' split) <;> simp [h]

@[simp] theorem condBranch_keeps (zero : Bool) (f : Fields) (c : Ctx) (s : State) (h : a.Le s.kept) : (condBranch zero f c s).Keeps a := by
  simp [condBranch, h]

@[simp] theorem jump_keeps (f : Fields) (c : Ctx) (s : State) (h : a.Le s.kept) : (jump f c s).Keeps a := by
  simp only [jump]
  (repeat' split) <;> simp [h]

@[simp] theorem ctx_awaitAccesses_keeps (c : Ctx) (s : State) (h : a.Le s.kept) : (c.awaitAccesses s).Keeps a := by
  simp [Ctx.awaitAccesses, h]

@[simp] theorem maskOp_keeps (i : Instr) (g : BitVec 8 → BitVec 8 → BitVec 8) (s : State) : Keeps s.kept (maskOp i g s) := by
  simp [maskOp]

@[simp] theorem execTrap_keeps (f : Fields) (s : State) : Keeps s.kept (execTrap f s) := by
  refine guarded_keeps _ _ fun f c t => ?_
  split
  · split <;> simp
  · split <;> simp

@[simp] theorem intOp_keeps (i : Instr) (s : State) (g : Fields → Word → Word → Word → Word) : Keeps s.kept (intOp i s g) := by
  simp [intOp]

@[simp] theorem intCompare_keeps (i : Instr) (fn : Nat) (s : State) : Keeps s.kept (intCompare i fn s) := by
  simp [intCompare]

@[simp] theorem floatOp_keeps (i : Instr) (s : State) (g : RMode → FVal → FVal → FVal → FVal × FFlags) : Keeps s.kept (floatOp i s g) := by
  simp [floatOp]

@[simp] theorem floatMinMax_keeps (i : Instr) (mx : Bool) (s : State) : Keeps s.kept (floatMinMax i mx s) := by
  simp [floatMinMax]

@[simp] theorem floatCompare_keeps (i : Instr) (fn : Nat) (s : State) : Keeps s.kept (floatCompare i fn s) := by
  simp [floatCompare]

@[simp] theorem floatFn_keeps (i : Instr) (g : FVal → FVal × FFlags) (s : State) : Keeps s.kept (floatFn i g s) := by
  simp [floatFn]

@[simp] theorem packOp_keeps (i : Instr) (n : Nat) (s : State) : Keeps s.kept (packOp i n s) := by
  simp [packOp]

@[simp] theorem unpkOp_keeps (i : Instr) (n : Nat) (s : State) : Keeps s.kept (unpkOp i n s) := by
  simp [unpkOp]

@[simp] theorem shflOp_keeps (i : Instr) (fn : Nat) (s : State) : Keeps s.kept (shflOp i fn s) := by
  simp [shflOp]

@[simp] theorem voteOp_keeps (i : Instr) (g : List Word → Bool) (s : State) : Keeps s.kept (voteOp i g s) := by
  simp [voteOp]

@[simp] theorem redOp_keeps (i : Instr) (o : LaneOp) (s : State) : Keeps s.kept (redOp i o s) := by
  simp [redOp]

@[simp] theorem scanOp_keeps (i : Instr) (o : LaneOp) (s : State) : Keeps s.kept (scanOp i o s) := by
  simp [scanOp]

@[simp] theorem execBcast_keeps (f : Fields) (s : State) : Keeps s.kept (execBcast f s) := by
  refine guarded_keeps _ _ fun f c t => ?_
  simp only
  (repeat' split) <;> simp

@[simp] theorem ctx_pageFault_keeps (c : Ctx) (i : Instr) (kind : Nat) (ps : List Placed) (s : State) (h : a.Le s.kept) :
    (c.pageFault i kind ps s).Keeps a := by
  unfold Ctx.pageFault
  (repeat' split) <;> simp [h]

@[simp] theorem ctx_enterLog_keeps (c : Ctx) (i : Instr) (f : Fields) (sp : Space) (op : AccessOp) (ps : List Placed) (s : State)
    (h : a.Le s.kept) : (c.enterLog i f sp op ps s).Keeps a := by
  have ring (l : List RingRec) : a.Le (l.foldl State.ringWrite s).kept := foldl_le _ (fun t r => by simp) l s h
  simp only [Ctx.enterLog]
  split
  · simp [h]
  · split
    · simp [h]
    · simp only [eff_keeps_done, ctx_finish0_kept]
      split
      · simpa only [ctx_setSideLog_kept] using ring _
      · split <;> simpa only [ctx_setSideLog_kept, ctx_modDist_kept, ctx_modPly_kept] using ring _

@[simp] theorem memBody_keeps (i : Instr) (k : MemKind) (ldu : Bool) (f : Fields) (c : Ctx) (s : State) (h : a.Le s.kept) :
    (memBody i k ldu f c s).Keeps a := by
  simp only [memBody]
  (repeat' split) <;> simp [h, ctx_performAll_le]

@[simp] theorem ctx_awaitCommands_keeps (c : Ctx) (ids : Unit → List Nat) (f : Fields) (s : State) (h : a.Le s.kept) :
    (c.awaitCommands ids f s).Keeps a := by
  unfold Ctx.awaitCommands
  (repeat' split) <;> simp [h]

@[simp] theorem execFenceSys_keeps (f : Fields) (s : State) : Keeps s.kept (execFenceSys f s) := by
  unfold execFenceSys
  split <;> simp

@[simp] theorem execBarrierWaitEnd_keeps (p : Party) (s : State) : Keeps s.kept (execBarrierWaitEnd p s) := by
  refine forParty_keeps _ _ _ (fun c => ?_) (Kept.le_refl _)
  (repeat' split) <;> simp

@[simp] theorem execDqpop_keeps (f : Fields) (s : State) : Keeps s.kept (execDqpop f s) := by
  refine guarded_keeps _ _ fun f c t => ?_
  simp only
  (repeat' split) <;> simp

@[simp] theorem execDqpopDeliver_keeps (p : Party) (s : State) : Keeps s.kept (execDqpopDeliver p s) := by
  refine forParty_keeps _ _ _ (fun c => ?_) (Kept.le_refl _)
  (repeat' split) <;> simp

@[simp] theorem execEvpopDeliver_keeps (p : Party) (s : State) : Keeps s.kept (execEvpopDeliver p s) := by
  refine forParty_keeps _ _ _ (fun c => ?_) (Kept.le_refl _)
  (repeat' split) <;> simp

@[simp] theorem execVfpush_keeps (f : Fields) (s : State) : Keeps s.kept (execVfpush f s) := by
  refine guarded_keeps _ _ fun f c t => ?_
  split
  · simp
  · split
    · simp
    · split
      · next e => simp [vfPush_kept e]
      · simp

@[simp] theorem execVfpop_keeps (f : Fields) (s : State) : Keeps s.kept (execVfpop f s) := by
  refine guarded_keeps _ _ fun f c t => ?_
  split
  · simp
  · split
    · next e => simp [vfPop_kept e]
    · simp

@[simp] theorem execVfifoWaitEnd_keeps (p : Party) (s : State) : Keeps s.kept (execVfifoWaitEnd p s) := by
  refine forParty_keeps _ _ _ (fun c => ?_) (Kept.le_refl _)
  split
  · next f _ =>
    cases e : c.vfPush f s with
    | none => simp
    | some t => simp [vfPush_kept e]
  · next f _ =>
    cases e : c.vfPop f s with
    | none => simp
    | some t => simp [vfPop_kept e]
  · simp

@[simp] theorem execTokenArrive_keeps (acc : Nat) (s : State) : Keeps s.kept (execTokenArrive acc s) := by
  simp only [execTokenArrive]
  (repeat' split) <;> try simp
  refine foldl_le _ (fun t i => ?_) _ _ (by simp)
  (repeat' split) <;> simp

@[simp] theorem copyIssue_keeps (i : Instr) (k : CopyKind) (s : State) : Keeps s.kept (copyIssue i k s) := by
  simp [copyIssue]

@[simp] theorem execCpyMig_keeps (f : Fields) (s : State) : Keeps s.kept (execCpyMig f s) := by
  unfold execCpyMig
  split <;> simp

@[simp] theorem execQfence_keeps (f : Fields) (s : State) : Keeps s.kept (execQfence f s) := by
  refine guarded_keeps _ _ fun f c t => ?_
  simp only
  (repeat' split) <;> simp

@[simp] theorem execCopyCmdStart_keeps (e : Engine) (q : Nat) (err : MemErr) (s : State) : Keeps s.kept (execCopyCmdStart e q err s) := by
  unfold execCopyCmdStart
  (repeat' split) <;> simp

@[simp] theorem execCopyCmdComplete_keeps (e : Engine) (q : Nat) (s : State) : Keeps s.kept (execCopyCmdComplete e q s) := by
  unfold execCopyCmdComplete
  (repeat' split) <;> simp

@[simp] theorem matIssue_keeps (i : Instr) (k : MatKind) (s : State) : Keeps s.kept (matIssue i k s) := by
  refine guarded_keeps _ _ fun f c t => ?_
  simp only
  (repeat' split) <;> simp

@[simp] theorem execMatrixCmdStart_keeps (sp : Nat) (s : State) : Keeps s.kept (execMatrixCmdStart sp s) := by
  unfold execMatrixCmdStart
  (repeat' split) <;> simp

@[simp] theorem execMatrixStep_keeps (sp : Nat) (errs : List TileErr) (s : State) : Keeps s.kept (execMatrixStep sp errs s) := by
  unfold execMatrixStep
  (repeat' split) <;> simp

@[simp] theorem execMatrixCmdComplete_keeps (sp : Nat) (s : State) : Keeps s.kept (execMatrixCmdComplete sp s) := by
  unfold execMatrixCmdComplete
  (repeat' split) <;> simp

@[simp] theorem ctx_xenter_keeps (c : Ctx) (ev : Bool) (g : Nat → XqCmd) (f : Fields) (ws : Nat → List RegWrite) (s : State) (h : a.Le s.kept) :
    (c.xenter ev g f ws s).Keeps a := by
  simp [Ctx.xenter, h]

@[simp] theorem stepIssue_keeps (i : Instr) (form : Nat) (s : State) : Keeps s.kept (stepIssue i form s) := by
  simp [stepIssue]

@[simp] theorem execXfill_keeps (f : Fields) (s : State) : Keeps s.kept (execXfill f s) := by
  refine guarded_keeps _ _ fun f c t => ?_
  simp only
  (repeat' split) <;> simp

@[simp] theorem execXrd_keeps (f : Fields) (s : State) : Keeps s.kept (execXrd f s) := by
  refine guarded_keeps _ _ fun f c t => ?_
  simp only
  (repeat' split) <;> simp

@[simp] theorem execXrdQ_keeps (f : Fields) (s : State) : Keeps s.kept (execXrdQ f s) := by
  refine guarded_keeps _ _ fun f c t => ?_
  simp only
  (repeat' split) <;> simp

@[simp] theorem execXwr_keeps (f : Fields) (s : State) : Keeps s.kept (execXwr f s) := by
  refine guarded_keeps _ _ fun f c t => ?_
  simp only
  (repeat' split) <;> simp

@[simp] theorem execXqCmdStart_keeps (sp : Nat) (xre : Bool) (s : State) : Keeps s.kept (execXqCmdStart sp xre s) := by
  unfold execXqCmdStart
  (repeat' split) <;> simp

@[simp] theorem execXbarWritePhase_keeps (sp : Nat) (xre : Bool) (s : State) : Keeps s.kept (execXbarWritePhase sp xre s) := by
  simp only [execXbarWritePhase]
  (repeat' split) <;> simp

@[simp] theorem execXqCmdComplete_keeps (sp : Nat) (s : State) : Keeps s.kept (execXqCmdComplete sp s) := by
  unfold execXqCmdComplete
  (repeat' split) <;> simp

@[simp] theorem execXrdAdmit_keeps (sp : Nat) (xre : Bool) (s : State) : Keeps s.kept (execXrdAdmit sp xre s) := by
  simp only [execXrdAdmit]
  (repeat' split) <;> simp

@[simp] theorem execXwrPerform_keeps (sp : Nat) (s : State) : Keeps s.kept (execXwrPerform sp s) := by
  simp only [execXwrPerform]
  (repeat' split) <;> simp

@[simp] theorem execSideLogReplay_keeps (p : Party) (s : State) : Keeps s.kept (execSideLogReplay p s) := by
  simp only [execSideLogReplay]
  (repeat' split) <;> simp [ctx_performAll_le]

@[simp] theorem execRemoteAccessArrival_keeps (a : Arrival) (s : State) : Keeps s.kept (execRemoteAccessArrival a s) := by
  simp only [execRemoteAccessArrival]
  (repeat' split) <;> simp

@[simp] theorem execRemoteReplyArrival_keeps (id : Nat) (s : State) : Keeps s.kept (execRemoteReplyArrival id s) := by
  unfold execRemoteReplyArrival
  split <;> simp

@[simp] theorem execPrivateLineEviction_keeps (sp slot ply line : Nat) (s : State) : Keeps s.kept (execPrivateLineEviction sp slot ply line s) := by
  simp only [execPrivateLineEviction]
  (repeat' split) <;> simp

@[simp] theorem execLaunchOfferAccepted_keeps (s : State) : Keeps s.kept (execLaunchOfferAccepted s) := by
  unfold execLaunchOfferAccepted
  split <;> simp

@[simp] theorem launchBody_keeps (i : Instr) (f : Fields) (c : Ctx) (s : State) (h : a.Le s.kept) : (launchBody i f c s).Keeps a := by
  simp only [launchBody]
  (repeat' split) <;> simp [h]

@[simp] theorem execLaunch_keeps (f : Fields) (s : State) : Keeps s.kept (execLaunch f s) := by
  unfold execLaunch
  split <;> simp

@[simp] theorem execDependenceObserved_keeps (acc k : Nat) (s : State) : Keeps s.kept (execDependenceObserved acc k s) := by
  simp only [execDependenceObserved]
  (repeat' split) <;> simp

@[simp] theorem execLaunchOutcomeWrite_keeps (acc : Nat) (s : State) : Keeps s.kept (execLaunchOutcomeWrite acc s) := by
  simp only [execLaunchOutcomeWrite]
  (repeat' split) <;> simp

@[simp] theorem execDealSkeins_keeps (acc : Nat) (s : State) : Keeps s.kept (execDealSkeins acc s) := by
  unfold execDealSkeins
  split <;> simp

@[simp] theorem execDispatchDecision_keeps (frame : Nat) (s : State) : Keeps s.kept (execDispatchDecision frame s) := by
  simp only [execDispatchDecision]
  (repeat' split) <;> simp

@[simp] theorem execDeterministicPlace_keeps (acc : Nat) (s : State) : Keeps s.kept (execDeterministicPlace acc s) := by
  unfold execDeterministicPlace
  (repeat' split) <;> simp

@[simp] theorem execBaseSpindlePlace_keeps (acc : Nat) (s : State) : Keeps s.kept (execBaseSpindlePlace acc s) := by
  unfold execBaseSpindlePlace
  (repeat' split) <;> simp

@[simp] theorem execStealAnswer_keeps (sp : Nat) (s : State) : Keeps s.kept (execStealAnswer sp s) := by
  simp only [execStealAnswer]
  (repeat' split) <;> simp

@[simp] theorem execSkeinRetire_keeps (sp slot : Nat) (s : State) : Keeps s.kept (execSkeinRetire sp slot s) := by
  unfold execSkeinRetire
  split <;> simp

@[simp] theorem execRemoteReplyTimeout_keeps (sp slot : Nat) (s : State) : Keeps s.kept (execRemoteReplyTimeout sp slot s) := by
  unfold execRemoteReplyTimeout
  split <;> simp

@[simp] theorem execSkeinHalted_keeps (sp slot : Nat) (s : State) : Keeps s.kept (execSkeinHalted sp slot s) := by
  simp only [execSkeinHalted]
  (repeat' split) <;> simp

@[simp] theorem execContextSaved_keeps (sp slot : Nat) (s : State) : Keeps s.kept (execContextSaved sp slot s) := by
  have lines (asid uid : Nat) (l : List BackLine) : s.kept.Le (l.foldl (fun t d => t.backLine asid uid sp slot d) s).kept :=
    foldl_le _ (fun t d => by simp) l s (Kept.le_refl _)
  simp only [execContextSaved]
  (repeat' split) <;> simp [lines]

@[simp] theorem execSkeinResume_keeps (sp k : Nat) (s : State) : Keeps s.kept (execSkeinResume sp k s) := by
  simp only [execSkeinResume]
  (repeat' split) <;> simp

@[simp] theorem execA4Exit_keeps (s : State) : Keeps s.kept (execA4Exit s) := by
  unfold execA4Exit
  split <;> simp

@[simp] theorem execWakeComplete_keeps (frame : Nat) (s : State) : Keeps s.kept (execWakeComplete frame s) := by
  simp only [execWakeComplete]
  (repeat' split) <;> simp

@[simp] theorem execCsrr_keeps (f : Fields) (s : State) : Keeps s.kept (execCsrr f s) := by
  unfold execCsrr
  split <;> simp

@[simp] theorem execCsrw_keeps (f : Fields) (s : State) : Keeps s.kept (execCsrw f s) := by
  unfold execCsrw
  split
  · simp
  · refine guarded_keeps _ _ fun f c t => ?_
    simp only
    split
    · simp
    · split
      · simp
      · split
        · simp
        · simp only [eff_keeps_done]
          (repeat' split) <;> simp

@[simp] theorem execBootImageFetched_keeps (payload sig : List Byte) (s : State) : Keeps s.kept (execBootImageFetched payload sig s) := by
  unfold execBootImageFetched
  split <;> simp

@[simp] theorem execBootRetry_keeps (s : State) : Keeps s.kept (execBootRetry s) := by
  unfold execBootRetry
  split <;> simp

@[simp] theorem execRetrainEnd_keeps (s : State) : Keeps s.kept (execRetrainEnd s) := by
  unfold execRetrainEnd
  split <;> simp

@[simp] theorem execHostAccess_keeps (off n : Nat) (w : Option Word) (s : State) : Keeps s.kept (execHostAccess off n w s) := by
  unfold execHostAccess
  (repeat' split) <;> simp

@[simp] theorem execSampleTick_keeps (s : State) : Keeps s.kept (execSampleTick s) := by
  simp only [execSampleTick]
  (repeat' split) <;> simp

@[simp] theorem execReplayDeliver_keeps (c : Nat) (s : State) : Keeps s.kept (execReplayDeliver c s) := by
  simp only [execReplayDeliver]
  (repeat' split) <;> simp

@[simp] theorem execLongLatencyLanding_keeps (p : Party) (s : State) : Keeps s.kept (execLongLatencyLanding p s) := by
  unfold execLongLatencyLanding
  split <;> simp

@[simp] theorem execJoinMerge_keeps (sp slot ply : Nat) (s : State) : Keeps s.kept (execJoinMerge sp slot ply s) := by
  unfold execJoinMerge
  split <;> simp

/-! ### Issues, retries and the step -/

/-- Every instruction keeps what is kept. -/
theorem runInstr_keeps (i : Instr) (s : State) : Keeps s.kept (runInstr i s) := by
  cases i <;> simp [runInstr,
    execNop, execYield, execHalt, execIcsync, execBkpt, execBr, execBrz, execBrnz, execJmpi, execCall, execRet, execJoin, execExit, execPlyw,
    execMsave, execMset, execMand, execMor, execMxor, execMnot, execSyscall, execEret, execIadd, execIsub, execImul, execImulh, execImad, execImin,
    execImax, execIabs, execAnd, execOr, execXor, execNot, execShl, execShr, execSar, execRol, execRor, execPopc, execClz, execBrev, execBfe,
    execBfi, execSel, execIcmpEq, execIcmpNe, execIcmpLt, execIcmpLe, execIcmpGt, execIcmpGe, execMov, execMovi, execFadd, execFsub, execFmul,
    execFfma, execFmin, execFmax, execFcmpEq, execFcmpNe, execFcmpLt, execFcmpLe, execFcmpGt, execFcmpGe, execFcmpUo, execFcmpOrd, execFsel,
    execFrcp, execFrsq, execFsqrt, execFexp2, execFlog2, execFsin, execFcos, execFrnd, execCvt, execPackPair, execPackQuad, execPackOct,
    execUnpkPair, execUnpkQuad, execUnpkOct, execShflIdx, execShflUp, execShflDown, execShflXor, execVoteAll, execVoteAny, execVoteBallot,
    execVoteEq, execRedAdd, execRedMin, execRedMax, execRedAnd, execRedOr, execRedXor, execScanAdd, execScanMin, execScanMax, execScanAnd,
    execScanOr, execScanXor, execRds, execLd, execSt, execLdu, execPref, execAtomAdd, execAtomMin, execAtomMax, execAtomAnd, execAtomOr,
    execAtomXor, execAtomXchg, execAtomCas, execAtomInc, execMredAdd, execMredMin, execMredMax, execMredAnd, execMredOr, execMredXor, execMredInc,
    execBara, execBarw, execBarx, execTbar, execFenceQ, execTokenGet, execTokenPut, execDqpush, execEvpop, execVfcnt, execCpy, execCpyc, execCpyg,
    execCpys, execCpyk, execStage, execTcfg, execTld, execTst, execTzero, execMma, execMmas, execMmax, execTcvt, execSrfence, execXg, execXgP,
    execXinit, execXwin, execXration, execXrun, execXstat, execXmap, execXmapWr]

/-- The state a fetch leaves, where it leaves one. -/
def Fetched.state? : Fetched → Option State
  | .wait => none
  | .fault _ _ _ s | .decoded _ _ s => some s

theorem fetch_kept (c : Ctx) (s : State) : ∀ t ∈ (fetch c s).state?, t.kept = s.kept := by
  unfold fetch
  split
  · simp [Fetched.state?]
  · simp [Fetched.state?]
  · simp only
    split
    · simp [Fetched.state?]
    · split
      · simp [Fetched.state?]
      · split <;> simp [Fetched.state?]

variable {run : Instr → State → Outcome State Fault Refusal}

theorem fetchRun_keeps (hr : ∀ i t, Keeps t.kept (run i t)) (p : Party) (s : State) : Keeps s.kept (fetchRun run p s) := by
  unfold fetchRun
  split
  · simp
  · next c _ =>
    have hf := fetch_kept c s
    split
    · simp
    · next t e => simp_all [Fetched.state?]
    · next i _ t e =>
      rw [e] at hf
      have := hr i { t with cur := p }
      rwa [kept_update, hf t rfl] at this
    · next t _ e =>
      rw [e] at hf
      have hs := hf t rfl
      split <;> simp [hs]

theorem issueParty_keeps (hr : ∀ i t, Keeps t.kept (run i t)) (p : Party) (s : State) : Keeps s.kept (issueParty run p s) := by
  unfold issueParty
  split
  · simp
  · next c _ =>
    split
    · simp
    · exact ctx_merged_kept c s ▸ fetchRun_keeps hr _ _

theorem coreIssue_keeps (hr : ∀ i t, Keeps t.kept (run i t)) (n : Nat) (w : Word) (s : State) : Keeps s.kept (coreIssue run n w s) := by
  have here : ∀ i, Keeps s.kept (run i { s with cur := .core n }) := fun i => kept_update s .. ▸ hr i { s with cur := .core n }
  unfold coreIssue
  split
  · simp
  · split
    · simp
    · split
      · simp [here]
      · split
        · simp
        · split
          · simp
          · split <;> simp

@[simp] theorem execTakeTrap_keeps (p : Party) (s : State) : Keeps s.kept (execTakeTrap p s) := by
  unfold execTakeTrap
  split
  · simp
  · split
    · simp
    · simp [fetchRun_keeps runInstr_keeps]

@[simp] theorem retryHeld_keeps (c : Ctx) (h : Held) (s : State) : Keeps s.kept (retryHeld c h s) := by
  have free : (if c.dist then c.modDist s fun d => { d with held := none } else c.modPly s fun p => { p with held := none }).kept = s.kept := by
    simp
  simp only [retryHeld]
  split
  · simp
  · split
    · simp
    · exact free ▸ runInstr_keeps _ _

@[simp] theorem execHeldAccessRetry_keeps (r : RetryTarget) (s : State) : Keeps s.kept (execHeldAccessRetry r s) := by
  unfold execHeldAccessRetry
  (repeat' split) <;> simp

/-- An instruction's meaning is the same wherever it is run from. -/
theorem exec_eq_runInstr (i : Instr) (s : State) (h : i.row.isSome) : exec i s = runInstr i s := by
  cases i <;> simp [Instr.row, exec, runInstr] at h ⊢

theorem exec_keeps (i : Instr) (s : State) : Keeps s.kept (exec i s) := by
  by_cases h : i.row.isSome
  · exact exec_eq_runInstr i s h ▸ runInstr_keeps i s
  · cases i <;> simp [Instr.row] at h <;> simp [exec,
      execTbarRelease, execHotThreshold, execHotDecay, execStealRequest, execGateIngressClose, execDriftStep, execIntervalBoundary,
      execFrameEnterA1, execFrameEnterA2, execDieEnterA3, execUnitWake, execComputeDieResetRelease, execMmuShootdown, execMmuWake, execMmuFqWrite,
      execFqptrTailWrite, execHotcfgWrite, execMemCfgWrite, execMcFrbaseWrite, execRcbsyncWrite, execAcctStringWrite, execDbgRelease,
      execPreemptHold, execPreemptRelease, execPackageA4Request, execPwrForceGate, execPwrForceClear, execSyncBsqWrite, execSecExtend,
      execSecAttest, execLinkStatWrite, execTrapPlyEnd, execTrapPlyStop, execTrapPlyRun, execTrapRdatWrite, execPackageReset, execLinkStateChange,
      execLinkCrcRetry, execGddrTrainingDone, execGddrRetrain, execEthReceive, execEthTransmit, execEthernetPortStateChange, execHostPortTrained,
      execQueueCreditRetry]

theorem perform_keeps (a : Action) (s : State) : Keeps s.kept (perform exec a s) := by
  cases a with
  | issue p => exact issueParty_keeps exec_keeps p s
  | fetchAhead p va => simp [perform]
  | coreWord c w => exact coreIssue_keeps exec_keeps c w s
  | event i => simp [perform, exec_keeps]

theorem step_keeps (s : State) : Keeps s.kept (step s) := by
  simpa [step] using perform_keeps s.upNext.1 s.upNext.2

/-! ### The invariant -/

/-- Settles O57: a step keeps both memories in canonical form, and numbers operations upwards. -/
theorem stepKeepsInv : Obligations.StepKeepsInv := by
  rintro s t ⟨hm, hr, hn⟩ e
  have k := step_keeps s t e
  exact ⟨k.mem hm, k.remote hr, hn.trans_le k.opSeq⟩

/-- Settles O56: memory holds no cell, and the first number is 1. -/
theorem resetInv : Obligations.ResetInv := ⟨reset_mem_wf, reset_remote_wf, Nat.one_pos⟩

end Sys2Proof.Machine
end

section
/-! PROOFS. cap.units and cap.stepping (R6, R46), and the scalar result of an instruction in every copy (R320). -/

namespace Sys2Proof.Machine

open Host (Outcome)
open Sys2Proof.Claims

/-! ### A scalar result in every copy -/

section
variable {s : State} {c : Ctx} (f : Fields) (x : Word)

/-- A write of a whole S register is no write of a V register. -/
theorem writesV_wrAll (l : List Nat) (r : Nat) (v : Sparse 32) : writesV (l.flatMap fun _ => [wrAll r x]) v = v := by
  induction l with
  | nil => rfl
  | cons st l ih => simpa [wrAll, writesV, stepV] using ih

theorem ctx_modDist_ply? (g : Dist → Dist) (h : s.skein? c.sp c.slot = some c.sk) : c.ply? (c.modDist s g) = c.ply? s := by
  unfold Ctx.ply? Ctx.modDist State.modDist
  rw [modSkein_skein? _ h, h]
  rfl

/-- An instruction of the distaff leaves the registers of plies. -/
theorem finish_dist_ply? (ws : Nat → List RegWrite) (fl : Nat → FFlags) (h : s.ctx? s.cur = some c) (hd : c.dist = true) :
    c.ply? (c.finish f 0 ws fl s) = c.ply? s := by
  have e : c.finish f 0 ws fl s = c.modDist s fun d => { d.write (c.lookahead f) 0 (ws 0) with pc := c.pc + Fields.size f, wait := .none } := by
    unfold Ctx.finish Ctx.goto Ctx.writes Ctx.modDist
    simp only [hd, if_true]
    exact modDist_modDist ..
  rw [e, ctx_modDist_ply? _ (ctx?_skein h)]

theorem ctx?_ply? (h : s.ctx? s.cur = some c) (hd : c.dist = false) : c.ply? s = some c.ply := by
  obtain ⟨hp, -⟩ := ctx?_ply h hd
  simp [Ctx.ply?, ctx?_skein h, hp]

theorem ctx?_distIn (h : s.ctx? s.cur = some c) : c.distIn s = c.sk.dist := by
  simp [Ctx.distIn, ctx?_skein h]

/-- The scalar result of a path's instruction stands in every strand's copy, and nowhere else. -/
theorem finishD_allCopies_path (h : s.ctx? s.cur = some c) (hd : c.dist = false) (hdef : c.ply.curDefs = []) (hla : c.lookahead f = 0) :
    AllCopies c s (c.finishD f x s) f.d.toNat x := by
  have hs := ctx_strands_lt h
  have sIn : ∀ q st, c.sIn (c.finishD f x s) q st = (c.ply.putAll c.strands (fun _ => [wrAll f.d.toNat x]) fun _ => 0).rdS q st := fun q st => by
    simp [Ctx.sIn, Ctx.finishD, Ctx.finishAll, hd, finish_ply? f _ _ h hd hdef hla, Ply.rdS]
  refine ⟨fun st hst => ?_, fun q st hq hn => ?_, fun q th => ?_⟩
  · rw [sIn]
    obtain e | ⟨m, -, e⟩ := Ply.putAll_rdS c.strands (fun _ => [wrAll f.d.toNat x]) (fun _ => 0) c.ply f.d.toNat st hs (ctx_strands_nodup h) hst <;>
      rw [e, writesS_wrAll, sget_sset_same]
  · rw [sIn]
    have old : c.sIn s q st = c.ply.rdS q st := by simp [Ctx.sIn, hd, ctx?_ply? h hd]
    rw [old]
    by_cases hst : st ∈ c.strands
    · have hqd : q ≠ f.d.toNat := by simpa [hd, hst] using hn
      have other : ∀ m : Sparse 64, sget (writesS st [wrAll f.d.toNat x] m) (16 * q + st) = sget m (16 * q + st) := fun m => by
        rw [writesS_wrAll, sget_sset_other _ _ _ _ (by omega)]
      obtain e | ⟨m, hm, e⟩ := Ply.putAll_rdS c.strands (fun _ => [wrAll f.d.toNat x]) (fun _ => 0) c.ply q st hs (ctx_strands_nodup h) hst
      · rw [e, other]; rfl
      · rw [e, other, hm]; rfl
    · exact Ply.putAll_rdS_other _ _ _ _ _ _ hs hq hst
  · rw [Ctx.finishD, Ctx.finishAll, finish_vIn f _ _ h hd hdef hla, writesV_wrAll]
    simp [Ctx.vIn, ctx?_ply? h hd, Ply.rdV]

/-- The scalar result of the distaff's instruction stands in its D register, and nowhere else. -/
theorem finishD_allCopies_dist (h : s.ctx? s.cur = some c) (hd : c.dist = true) (hdef : c.sk.dist.curDefs = []) (hla : c.lookahead f = 0) :
    AllCopies c s (c.finishD f x s) f.d.toNat x := by
  have sIn : ∀ q st, c.sIn (c.finishD f x s) q st = (c.sk.dist.wrD f.d.toNat x).rdD q := fun q st => by
    simp only [Ctx.sIn, hd, if_true, Ctx.finishD, Ctx.finishAll, finish_distIn f _ _ h hd hdef hla, Dist.putRegs_wrAll]
    unfold Dist.bumpPos Dist.rdD
    split <;> rfl
  refine ⟨fun st _ => ?_, fun q st _ hn => ?_, fun q th => ?_⟩
  · rw [sIn]
    simp [Dist.rdD, Dist.wrD]
  · have hqd : q ≠ f.d.toNat := by simpa [hd] using hn
    rw [sIn]
    simp [Ctx.sIn, hd, ctx?_distIn h, Dist.rdD, Dist.wrD, sget_sset_other _ _ _ _ hqd]
  · simp [Ctx.vIn, Ctx.finishD, Ctx.finishAll, finish_dist_ply? f _ _ h hd]

theorem finishD_allCopies (h : s.ctx? s.cur = some c) (hs : Settled c) (hla : c.lookahead f = 0) :
    AllCopies c s (c.finishD f x s) f.d.toNat x := by
  cases hd : c.dist
  · exact finishD_allCopies_path f x h hd hs.1 hla
  · exact finishD_allCopies_dist f x h hd hs.2 hla

theorem finishD_pcIn (h : s.ctx? s.cur = some c) (hs : Settled c) (hla : c.lookahead f = 0) :
    c.pcIn (c.finishD f x s) = c.pc + Fields.size f := by
  cases hd : c.dist
  · exact finish_pcIn f _ _ h hd hs.1 hla
  · simp [Ctx.pcIn, hd, Ctx.finishD, Ctx.finishAll, finish_distIn f _ _ h hd hs.2 hla]

end

/-- Counting the issue changes none of it. -/
theorem countIssue_allCopies {c : Ctx} {cls : Nat} {s t : State} {d : Nat} {x : Word} (h : AllCopies c s t d x) :
    AllCopies c s (countIssue c cls t) d x := by
  simpa [AllCopies] using h

/-! ### cap.units and cap.stepping -/

/-- CSRR has no lookahead, and one word. -/
theorem csrr_fields {r : OpRow} {f : Fields} {s s1 : State} {c : Ctx} (h : Issues (.csrr f) r f s c s1) :
    c.lookahead f = 0 ∧ Fields.size f = 8 := by
  have ok := h.ok
  simp only [Instr.fieldsOk, Instr.row, Instr.fields, OpRow.fieldsOk, Bool.and_eq_true, Bool.false_or, Option.isNone_iff_eq_none, beq_iff_eq] at ok
  constructor
  · simp [Ctx.lookahead, ok]
  · simp [Fields.size, ok]

/-- A party's CSRR of a register that it may read, fp.flags apart. -/
theorem csrr_reads {r : OpRow} {f : Fields} {s s1 : State} {c : Ctx} (h : Issues (.csrr f) r f s c s1) (hs : Settled c)
    (ha : csrAllowed c.handler c.dist false f.csr = true) (hf : f.csr ≠ 0x0300) :
    ∃ t, exec (.csrr f) s = .next t ∧ c.pcIn t = c.pc + 8 ∧ AllCopies c s1 t f.d.toNat (c.csrRead f.csr s1) := by
  obtain ⟨hla, hsize⟩ := csrr_fields h
  refine ⟨countIssue c (issueClass r f) (c.finishD f (c.csrRead f.csr s1) s1), ?_, ?_, ?_⟩
  · show execCsrr f s = _
    have hcur : ∀ n, s.cur ≠ .core n := fun n e => by
      obtain ⟨c0, h0, -⟩ := h.checked
      simp [e, State.ctx?] at h0
    unfold execCsrr
    split
    · next n e => exact absurd e (hcur n)
    · exact guarded_done h (by simp [ha, hf])
  · rw [countIssue_pcIn, finishD_pcIn f _ h.ctx hs hla, hsize]
  · exact countIssue_allCopies (finishD_allCopies f _ h.ctx hs hla)

/-- The reading of operands leaves the part as it is. -/
theorem Issues.kept {i : Instr} {r : OpRow} {f : Fields} {s s1 : State} {c : Ctx} (h : Issues i r f s c s1) : s1.kept = s.kept := by
  obtain ⟨c0, -, -, rfl⟩ := h.checked
  simp

/-- A system core's CSRR of a register that it may read, the counters apart. -/
theorem coreCsrr_reads {f : Fields} {s : State} {n : Nat} (hr : CoreReady (s.core n)) (hd : f.d.toNat < 0x20)
    (ha : csrCoreAllowed f.csr = true) (hc : f.csr ≠ 0x0A04) : gprOf (coreCsrr n f s) n f.d = coreRead n f.csr s := by
  have hstuck : (s.core n).stuck [f.d] = false := by simp [SysCore.stuck, SysCore.busy, hr.1, hr.2]
  have hok : coreRegsOk [f.d] [] = true := by simp [coreRegsOk, coreScalOk, hd]
  unfold coreCsrr
  simp [hstuck, hok, ha, hc, gprOf, State.coreRetire, SysCore.wr]

theorem samePart_of_le {s t : State} (h : s.kept.Le t.kept) : SamePart s t := ⟨h.units, h.stepping⟩

/-- Settles O29: the two registers are read from the fused values, which nothing the part does changes. -/
theorem capabilityRegisters : Obligations.CapabilityRegisters := by
  refine ⟨fun f s n hcur hr hd => ?_, fun r f s s1 c h hs => ?_, fun s t e => samePart_of_le (step_keeps s t e),
    fun f s t e => samePart_of_le (exec_keeps (.csrw f) s t e), by decide +kernel⟩
  · have e : exec (.csrr f) s = .next (coreCsrr n f s) := by
      show execCsrr f s = _
      simp [execCsrr, hcur]
    constructor
    · intro hf
      exact ⟨_, e, (coreCsrr_reads hr hd (by rw [hf]; decide) (by rw [hf]; decide)).trans (by rw [hf]; rfl)⟩
    · intro hf
      exact ⟨_, e, (coreCsrr_reads hr hd (by rw [hf]; decide) (by rw [hf]; decide)).trans (by rw [hf]; rfl)⟩
  · have part : s1.units = s.units ∧ s1.stepping = s.stepping := by
      have k := h.kept
      exact ⟨congrArg Kept.units k, congrArg Kept.stepping k⟩
    constructor
    · intro hf
      have := csrr_reads h hs (by rw [hf]; rfl) (by rw [hf]; decide)
      rwa [hf, show c.csrRead 0x0000 s1 = s.units from part.1] at this
    · intro hf
      have := csrr_reads h hs (by rw [hf]; rfl) (by rw [hf]; decide)
      rwa [hf, show c.csrRead 0x0001 s1 = s.stepping from part.2] at this

end Sys2Proof.Machine
end

section
/-! PROOFS. The writes of a system core: acct.string, link.stat (R367, R386). -/

namespace Sys2Proof.Machine

open Host (Outcome)
open Sys2Proof.Claims

/-! ### The writes of a system core, and what they leave in memory -/

section
variable {s t : State} {n reg : Nat} {v : Word}

/-- Memory reads the same where what it is read through is the same. -/
theorem sameMemory_of_fields (hm : t.mem = s.mem) (hr : t.remote = s.remote) (hp : t.pkg = s.pkg) (hu : t.units = s.units)
    (hd : t.dies = s.dies) : SameMemory s t := by
  intro a
  simp only [State.paByte, State.isLocal, State.present, State.blank, State.gddrBytes, State.nStacks, State.die, hm, hr, hp, hu, hd]
  rfl

theorem coreMay_wait (h : CoreMay s n reg) : (s.core n).wait = .none := by
  simp only [CoreMay, State.coreReady, State.coreRuns, Bool.and_eq_true, beq_iff_eq] at h
  exact h.1.1.2

theorem coreMay_a4 (h : CoreMay s n reg) : s.a4 = false := by
  simp only [CoreMay, State.coreReady, State.coreRuns, Bool.and_eq_true, Bool.not_eq_true'] at h
  exact h.1.1.1.1.2

theorem core_of_cores (hc : t.cores = s.cores) : t.core n = s.core n := by
  simp only [State.core, hc]

/-- A write that a core may make and that nothing stands against takes effect and retires. -/
theorem coreStep_ok (h : CoreMay s n reg) (hn : (csrwFields reg).csr = reg) (hw : coreWrite n reg v s = .ok t) (hc : t.cores = s.cores) :
    coreStep (.core n) reg true v s = t.coreRetire n := by
  have hwait : (t.core n).wait = .none := core_of_cores hc ▸ coreMay_wait h
  simp [coreStep, h, corePut, hn, hw, hwait]

theorem retires_coreRetire (hc : t.cores = s.cores) : Retires s (t.coreRetire n) n := by
  simp [Retires, State.coreRetire, core_of_cores hc]

theorem sameMemory_coreRetire (h : SameMemory s t) : SameMemory s (t.coreRetire n) := fun a =>
  (sameMemory_of_fields (s := t) rfl rfl rfl rfl rfl a).trans (h a)

/-- A fold leaves what each of its operations leaves. -/
theorem foldl_field {α β : Type} (φ : State → β) (g : State → α → State) (h : ∀ u x, φ (g u x) = φ u) (l : List α) (u : State) :
    φ (l.foldl g u) = φ u := by
  induction l generalizing u with
  | nil => rfl
  | cons x l ih => rw [List.foldl_cons, ih, h]

end

/-! ### acct.string and link.stat (R367, R386) -/

theorem aget?_map {α β : Type} (g : Nat → α → β) (l : Assoc α) (k : Nat) : aget? (l.map fun p => (p.1, g p.1 p.2)) k = (aget? l k).map (g k) := by
  induction l with
  | nil => rfl
  | cons p l ih =>
    by_cases h : k = p.1
    · simp [aget?, h]
    · simp [aget?, h, ih]

theorem agetD_map {α : Type} (g : Nat → α → α) (l : Assoc α) (k : Nat) (d : α) (hd : g k d = d) :
    agetD (l.map fun p => (p.1, g p.1 p.2)) k d = g k (agetD l k d) := by
  unfold agetD
  rw [aget?_map]
  cases aget? l k <;> simp [hd]

theorem nth_map {α β : Type} (g : α → β) (l : List α) (i : Nat) (d : α) : nth (l.map g) i (g d) = g (nth l i d) := by
  simp [nth, List.getD, Option.getD_map]

/-- The epochs of a skein's tiles close without a record. -/
def Skein.mute (k : Skein) : Skein :=
  { k with tiles := k.tiles.map fun t => { t with epoch := t.epoch.map fun e => { e with silent := true } } }

/-- Those of every skein of a spindle. -/
def Spindle.mute (x : Spindle) : Spindle :=
  { x with slots := x.slots.map fun o => o.map Skein.mute, saved := x.saved.map fun v => { v with sk := v.sk.mute } }

theorem silence_spindle (s : State) (sp : Nat) : s.silence.spindle sp = (s.spindle sp).mute :=
  agetD_map (fun _ => Spindle.mute) s.spindles sp {} rfl

theorem silence_skein? (s : State) (sp slot : Nat) : s.silence.skein? sp slot = (s.skein? sp slot).map Skein.mute := by
  unfold State.skein?
  rw [silence_spindle]
  exact nth_map (fun o : Option Skein => o.map Skein.mute) _ slot none

theorem silence_epoch (s : State) (sp slot i : Nat) :
    (tileAt s.silence sp slot i).epoch = (tileAt s sp slot i).epoch.map fun e => { e with silent := true } := by
  unfold tileAt
  rw [silence_skein?]
  cases s.skein? sp slot with
  | none => rfl
  | some k => exact congrArg Tile.epoch (nth_map (fun t : Tile => { t with epoch := t.epoch.map fun e => { e with silent := true } }) k.tiles i {})

theorem tileAt_of_spindles {s t : State} (h : t.spindles = s.spindles) (sp slot i : Nat) : tileAt t sp slot i = tileAt s sp slot i := by
  simp only [tileAt, State.skein?, State.spindle, h]

theorem recordWrites : RecordWrites := by
  refine fun s n v => ⟨fun h => ?_, fun h => ?_⟩
  · have hw : coreWrite n 0x0A00 v s = .ok (writeString v s) := by simp [coreWrite]
    have hc : (writeString v s).cores = s.cores := by
      unfold writeString
      split <;> rfl
    refine ⟨_, congrArg Outcome.next (coreStep_ok h (by decide) hw hc), retires_coreRetire hc, fun sp slot i => ?_, rfl, rfl, rfl, rfl,
      sameMemory_coreRetire ?_⟩
    · rw [tileAt_of_spindles (t := (writeString v s).coreRetire n) (s := if v.getLsbD 63 then s else s.silence) rfl]
      split
      · rfl
      · exact silence_epoch s sp slot i
    · unfold writeString
      split <;> exact sameMemory_of_fields rfl rfl rfl rfl rfl
  · have hw : coreWrite n 0x0905 v s = .ok (writeLinkStat s) := by simp [coreWrite]
    refine ⟨_, congrArg Outcome.next (coreStep_ok h (by decide) hw rfl), retires_coreRetire rfl, ?_, fun k hk => ?_⟩
    · exact agetD_aput_same ..
    · exact agetD_aput_other _ _ _ _ _ hk

end Sys2Proof.Machine
end

section
/-! PROOFS. dbg.rel, sync.bsq and absent units (R7, R370, R391). -/

namespace Sys2Proof.Machine

open Host (Outcome)
open Sys2Proof.Claims

/-! ### dbg.rel (R370) -/

theorem Ply.putAll_none_s (l : List Nat) (p : Ply) : (p.putAll l (fun _ => []) fun _ => 0).s = p.s := by
  induction l generalizing p with
  | nil => rfl
  | cons st l ih => rw [Ply.putAll_s_cons, ih]; simp [writesS]

theorem Ply.putAll_none_v (l : List Nat) (p : Ply) : (p.putAll l (fun _ => []) fun _ => 0).v = p.v := by
  have e : l.flatMap (fun _ => ([] : List RegWrite)) = [] := by simp
  rw [Ply.putAll_v, e]
  rfl

/-- The path is held, and nothing of its ply is outstanding: its strands count a position, and it goes on. -/
theorem releaseHeld_held {p : Ply} {idx : Nat} (hv : (nth p.paths idx {}).valid = true) (hw : (nth p.paths idx {}).wait = .debug)
    (hdef : p.curDefs = []) :
    releaseHeld idx p = { p.putAll (strandList (nth p.paths idx {}).strands) (fun _ => []) fun _ => 0 with
      paths := modNth p.paths idx fun e => { e with pc := e.pc + 8, st := .ready, wait := .none } } := by
  simp only [releaseHeld, hv, hw, beq_self_eq_true, Bool.and_self, if_true]
  rw [Ply.foldl_write_now _ (fun _ => []) (fun _ => 0) _ hdef]

theorem coreRetire_ply? (c : Ctx) (s : State) (n : Nat) : c.ply? (s.coreRetire n) = c.ply? s := rfl

/-- The party of a path has the numbers of its path. -/
theorem ctx?_path_names {s : State} {sp slot ply idx : Nat} {c : Ctx} (h : s.ctx? (.path sp slot ply idx) = some c) :
    c.sp = sp ∧ c.slot = slot ∧ c.plyNo = ply ∧ c.idx = idx ∧ c.dist = false := by
  simp only [State.ctx?] at h
  split at h
  · cases h
  · split at h <;> cases h
    exact ⟨rfl, rfl, rfl, rfl, rfl⟩

theorem holdReleased : HoldReleased := by
  intro s n v c h hctx hwait hdef
  obtain ⟨hsp, hslot, hply, hidx, hd⟩ := ctx?_path_names hctx
  obtain ⟨hy, hpath, hvalid, -, hpc, -⟩ := ctx?_ply hctx hd
  have hdebug : c.path.wait = .debug := by simpa [Ctx.waitNow, hd] using hwait
  rw [hpath] at hvalid hdebug
  have hw : coreWrite n 0x0A06 v s = .ok (writeDbgRel v s) := by simp [coreWrite]
  have hc : (writeDbgRel v s).cores = s.cores := modPly_cores ..
  have after : c.ply? ((writeDbgRel v s).coreRetire n) = some (releaseHeld c.idx c.ply) := by
    have e : writeDbgRel v s = c.modPly s (releaseHeld c.idx) := by rw [Ctx.modPly, hsp, hslot, hply, hidx]; rfl
    rw [coreRetire_ply?, e, ctx_modPly_ply? _ (ctx?_skein hctx) (ctx?_ply_lt hctx hd), ← hy]
  have now : c.ply? s = some c.ply := by simp [Ctx.ply?, ctx?_skein hctx, hy]
  rw [releaseHeld_held hvalid hdebug hdef] at after
  refine ⟨_, congrArg Outcome.next (coreStep_ok h (by decide) hw hc), ?_, ?_, fun q th => ?_, fun q st => ?_,
    sameMemory_coreRetire (sameMemory_of_fields ?_ ?_ ?_ ?_ ?_), retires_coreRetire hc⟩
  · simp [Ctx.pcIn, hd, after, nth_modNth_same _ _ _ _ (ctx?_idx_lt hctx hd), hpc, hpath]
  · simp [waitIn, hd, after, nth_modNth_same _ _ _ _ (ctx?_idx_lt hctx hd)]
  · simp only [Ctx.vIn, after, now, Option.map_some, Option.getD_some, Ply.rdV, Ply.putAll_none_v]
  · simp only [Ctx.sIn, hd, after, now, Bool.false_eq_true, if_false, Option.map_some, Option.getD_some, Ply.rdS, Ply.putAll_none_s]
  all_goals simp [writeDbgRel]

/-! ### sync.bsq (R391) -/

theorem fld_eq_bitsAt (w : Word) (lo n : Nat) : fld w lo n = bitsAt w lo n := rfl

/-- The offer of a write of sync.bsq. -/
def bsqOffer (n : Nat) (v : Word) (s : State) : Offer :=
  { who := .core n, tid := 0, addr := ofN (bitsAt v 6 50 * 64), bytes := s.paBytes (bitsAt v 6 50 * 64) 384, nw := false
    base := some (0x100 + 8 * bitsAt v 62 2 + bitsAt v 58 3), region := none, asid := 0 }

/-- The part after it. -/
def bsqOffered (n : Nat) (v : Word) (s : State) : State :=
  { s with offers := s.offers ++ [bsqOffer n v s] }.modCore n fun k => { k with wait := .launch none }

theorem baseOffer : BaseOffer := by
  intro s n v h hbsv hd h61 h56 h0 hreads
  have hw : coreWrite n 0x0803 v s = .ok (bsqOffered n v s) := by
    have here : (!s.hasBsv || decide (s.nStacks ≤ fld v 62 2)) = false := by
      rw [hbsv]
      exact decide_eq_false (Nat.not_le.2 hd)
    have right : (v.getLsbD 61 || fld v 56 2 != 0 || fld v 0 6 != 0) = false := by simp only [fld_eq_bitsAt, h61, h56, h0]; rfl
    have ready : s.readsAll (fld v 6 50 * 64) 384 = true := hreads
    simp only [coreWrite, writeBsq, here, right, ready]
    rfl
  have he : coreStep (.core n) 0x0803 true v s = bsqOffered n v s := by
    have hn : (csrwFields 0x0803).csr = 0x0803 := by decide
    simp [coreStep, h, corePut, hn, hw, bsqOffered]
  refine ⟨_, bsqOffer n v s, congrArg Outcome.next he, rfl, rfl, ?_, rfl, rfl, rfl, ?_, ?_, sameMemory_of_fields rfl rfl rfl rfl rfl⟩
  · have : bitsAt v 6 50 < 2 ^ 50 := Nat.mod_lt _ (by decide)
    simp only [bsqOffer, ofN, BitVec.toNat_ofNat]
    omega
  · simp [bsqOffered]
  · simp [bsqOffered]; rfl

/-! ### Absent units (R7) -/

theorem coreWrite_absent {s : State} {n reg : Nat} {v : Word} (h : NamesAbsent s reg v) :
    coreWrite n reg v s = .absent ∧ csrCoreAllowed reg = true := by
  simp only [NamesAbsent, ← fld_eq_bitsAt] at h
  split at h
  · exact ⟨by simp [coreWrite, h], by decide⟩
  · exact ⟨by simp [coreWrite, h], by decide⟩
  · exact ⟨by simp [coreWrite, writePreCtl, h], by decide⟩
  · exact ⟨by simp [coreWrite, h], by decide⟩
  · have here : (!s.hasBsv || decide (s.nStacks ≤ fld v 62 2)) = true := by simpa using h
    exact ⟨by simp [coreWrite, writeBsq, here], by decide⟩
  · have here : (decide (s.nFrames ≤ fld v 0 4) || decide (s.nLinks ≤ fld v 16 4)) = true := by simpa using h
    exact ⟨by simp only [coreWrite, writePwrSel, here, if_true], by decide⟩
  · exact ⟨by simp [coreWrite, h], by decide⟩
  · exact h.elim

theorem unitAbsent : UnitAbsent := by
  intro s n f hcur hstuck hregs h
  obtain ⟨hw, ha⟩ := coreWrite_absent (n := n) h
  have e : exec (.csrw f) s = .next (coreCsrw n f s) := by
    show execCsrw f s = _
    simp [execCsrw, hcur]
  have trap : coreCsrw n f s = s.coreTrap n (.csrw f) .unitAbsent 7 := by
    simp [coreCsrw, hstuck, hregs, ha, corePut, hw]
  exact ⟨_, e.trans (congrArg Outcome.next trap), rfl, rfl⟩

end Sys2Proof.Machine
end

section
/-! PROOFS. Fields of a register, bytes in memory, and the report of an attestation (R385). -/

namespace Sys2Proof.Machine

open Host (Outcome)
open Sys2Proof.Claims

/-! ### Fields and bytes -/

theorem fld_eq_extract (w : Word) (lo n : Nat) : fld w lo n = (w.extractLsb' lo n).toNat := by
  rw [BitVec.extractLsb'_toNat, Nat.shiftRight_eq_div_pow]
  rfl

/-- A field that a mask keeps. -/
theorem fld_and (w m : Word) (lo n : Nat) (h : m.extractLsb' lo n = BitVec.allOnes n) : fld (w &&& m) lo n = fld w lo n := by
  rw [fld_eq_extract, fld_eq_extract, BitVec.extractLsb'_and, h, BitVec.and_allOnes]

theorem length_natBytes (k v : Nat) : (natBytes k v).length = k := by
  induction k generalizing v with
  | zero => rfl
  | succ k ih => simp [natBytes, ih]

theorem bytesNat_natBytes (k v : Nat) : bytesNat (natBytes k v) = v % 256 ^ k := by
  induction k generalizing v with
  | zero => simp [natBytes, bytesNat, Nat.mod_one]
  | succ k ih =>
    have step : bytesNat (natBytes (k + 1) v) = v % 256 + 256 * bytesNat (natBytes k (v / 256)) := by simp [natBytes, bytesNat]
    rw [step, ih, Nat.pow_succ', Nat.mod_mul]

theorem nth_append_left {α : Type} {l m : List α} {i : Nat} {d : α} (h : i < l.length) : nth (l ++ m) i d = nth l i d :=
  List.getD_append _ _ _ _ h

theorem nth_append_right {α : Type} {l m : List α} {i : Nat} {d : α} : nth (l ++ m) (l.length + i) d = nth m i d := by
  simp [nth, List.getElem?_append_right]

/-- Padded with zeros to a length, a list has its own bytes first. -/
theorem nth_pad (l : List Byte) {n i : Nat} (h : i < n) : nth ((l ++ List.replicate n 0).take n) i 0 = nth l i 0 := by
  unfold nth
  rw [List.getD_eq_getElem?_getD, List.getElem?_take_of_lt h, List.getD_eq_getElem?_getD, List.getElem?_append]
  split
  · rfl
  · next hl =>
    rw [List.getElem?_eq_none (l := l) (by omega), List.getElem?_replicate]
    split <;> rfl

theorem length_pad (l : List Byte) (n : Nat) : ((l ++ List.replicate n 0).take n).length = n := by
  simp

/-- Blocks of one length, one after another. -/
theorem length_flatMap_range {α : Type} (g : Nat → List α) (m n : Nat) (hg : ∀ j, (g j).length = m) :
    ((List.range n).flatMap g).length = m * n := by
  simp [List.length_flatMap, hg, Nat.mul_comm]

theorem nth_flatMap_range {α : Type} (g : Nat → List α) (m : Nat) (hg : ∀ j, (g j).length = m) {n j i : Nat} {d : α} (hj : j < n)
    (hi : i < m) : nth ((List.range n).flatMap g) (m * j + i) d = nth (g j) i d := by
  induction n with
  | zero => omega
  | succ n ih =>
    have len := length_flatMap_range g m n hg
    rw [List.range_succ, List.flatMap_append]
    by_cases h : j < n
    · have room : m * j + i < m * n := by
        have := Nat.mul_le_mul_left m h
        rw [Nat.mul_succ] at this
        omega
      rw [nth_append_left (by omega), ih h]
    · obtain rfl : j = n := by omega
      rw [← len, nth_append_right]
      simp

section
variable (s : State)

theorem length_paBytes (a n : Nat) : (s.paBytes a n).length = n := by
  induction n generalizing a with
  | zero => rfl
  | succ n ih => simp [State.paBytes, ih]

theorem nth_paBytes (a n i : Nat) (h : i < n) : nth (s.paBytes a n) i 0 = s.paByte (a + i) := by
  induction n generalizing a i with
  | zero => omega
  | succ n ih =>
    cases i with
    | zero => rfl
    | succ i =>
      have := ih (a + 1) i (by omega)
      rw [show a + (i + 1) = a + 1 + i by omega, ← this]
      rfl

theorem paBytes_same {s t : State} (h : SameMemory s t) (a n : Nat) : t.paBytes a n = s.paBytes a n := by
  induction n generalizing a with
  | zero => rfl
  | succ n ih => rw [State.paBytes, State.paBytes, ih, h a]

/-- What the bytes at an address are. -/
theorem paBytes_eq (a : Nat) (l : List Byte) (h : ∀ i < l.length, s.paByte (a + i) = nth l i 0) : s.paBytes a l.length = l := by
  induction l generalizing a with
  | nil => rfl
  | cons b l ih =>
    have first : s.paByte a = b := h 0 (Nat.succ_pos _)
    have rest := ih (a + 1) fun i hi => by
      have := h (i + 1) (Nat.succ_lt_succ hi)
      rwa [show a + (i + 1) = a + 1 + i by omega] at this
    simp [State.paBytes, first, rest]

/-- A number stored in eight bytes reads as stored. -/
theorem paRead_natBytes (a v : Nat) (h : ∀ i < 8, s.paByte (a + i) = nth (natBytes 8 v) i 0) : s.paRead a 8 = BitVec.ofNat 64 v := by
  have len : (natBytes 8 v).length = 8 := length_natBytes 8 v
  have e := paBytes_eq s a (natBytes 8 v) (by rwa [len])
  rw [len] at e
  rw [State.paRead, e, bytesNat_natBytes]
  exact BitVec.eq_of_toNat_eq (by simp)

/-! ### Bytes written one after another -/

theorem paPut_isLocal (pa qa : Nat) (b : Byte) : (s.paPut pa b).isLocal qa = s.isLocal qa := by
  obtain ⟨-, -, e⟩ | ⟨-, -, e⟩ | ⟨-, e⟩ := paPut_cases s pa b <;> rw [e] <;> rfl

theorem paPut_present (pa off : Nat) (b : Byte) : (s.paPut pa b).present off = s.present off := by
  obtain ⟨-, -, e⟩ | ⟨-, -, e⟩ | ⟨-, e⟩ := paPut_cases s pa b <;> rw [e] <;> rfl

theorem paByte_putEach_outside (pa a : Nat) (l : List Byte) (h : ¬(pa ≤ a ∧ a < pa + l.length)) : (s.putEach pa l).paByte a = s.paByte a := by
  induction l generalizing s pa with
  | nil => rfl
  | cons b l ih =>
    simp only [List.length_cons] at h
    rw [State.putEach, ih _ _ (by omega)]
    exact paByte_paPut_other _ _ _ _ (by omega)

theorem paByte_putEach_inside (pa : Nat) (l : List Byte) (hp : ∀ i < l.length, s.isLocal (pa + i) = true → s.present (offsetOf (pa + i)) = true)
    (i : Nat) (h : i < l.length) : (s.putEach pa l).paByte (pa + i) = nth l i 0 := by
  induction l generalizing s pa i with
  | nil => simp at h
  | cons b l ih =>
    rw [State.putEach]
    cases i with
    | zero =>
      rw [paByte_putEach_outside _ _ _ _ (by omega)]
      exact paByte_paPut_same _ _ _ (hp 0 h)
    | succ i =>
      have rest := ih (s.paPut pa b) (pa + 1) (fun j hj => by
        rw [paPut_isLocal, paPut_present, show pa + 1 + j = pa + (j + 1) by omega]
        exact hp (j + 1) (Nat.succ_lt_succ hj)) i (Nat.lt_of_succ_lt_succ h)
      rw [show pa + (i + 1) = pa + 1 + i by omega, rest]
      rfl

theorem paByte_paPutBytes (pa a : Nat) (l : List Byte) : (s.paPutBytes pa l).paByte a = (s.putEach pa l).paByte a := rfl

end

/-! ### The report of an attestation (R385) -/

theorem length_slot (s : State) (n : Nat) : (s.slot n).length = 64 := length_pad _ _

/-- The bytes of a report before its padding. -/
def reportHead (s : State) (nonce : List Byte) : List Byte :=
  ((List.range 8).flatMap s.slot).take 512 ++ nonce ++ natBytes 8 s.units.toNat ++ natBytes 8 s.stepping.toNat ++ natBytes 8 s.time

theorem length_report (s : State) (nonce : List Byte) : (s.report nonce).length = 0x300 := length_pad _ _

section
variable {s : State} {nonce : List Byte} (hn : nonce.length = 32)
include hn

theorem nth_report {i : Nat} (h : i < 0x238) : nth (s.report nonce) i 0 = nth (reportHead s nonce) i 0 := by
  have len : (reportHead s nonce).length = 0x238 := by
    simp [reportHead, length_natBytes, hn, length_flatMap_range s.slot 64 8 (length_slot s)]
  unfold State.report
  simp only
  rw [nth_pad _ (by omega), nth_append_left (by rw [length_pad]; omega), nth_pad _ (by omega),
    nth_append_left (by rw [length_pad]; omega), nth_pad _ (by omega)]
  rfl

theorem report_slot {j i : Nat} (hj : j < 8) (hi : i < 64) : nth (s.report nonce) (64 * j + i) 0 = nth (s.slot j) i 0 := by
  have all := length_flatMap_range s.slot 64 8 (length_slot s)
  rw [nth_report hn (by omega), reportHead]
  rw [nth_append_left, nth_append_left, nth_append_left, nth_append_left, List.take_of_length_le (by omega),
    nth_flatMap_range s.slot 64 (length_slot s) hj hi]
  all_goals simp [length_natBytes, hn, all]; omega

/-- A part of a report, by where it starts in the head. -/
theorem report_part {a b c : List Byte} (e : reportHead s nonce = a ++ b ++ c) {o i : Nat} (ho : a.length = o) (hi : i < b.length)
    (h : o + i < 0x238) : nth (s.report nonce) (o + i) 0 = nth b i 0 := by
  subst ho
  rw [nth_report hn h, e, List.append_assoc, nth_append_right, nth_append_left hi]

theorem report_nonce {i : Nat} (hi : i < 32) : nth (s.report nonce) (0x200 + i) 0 = nth nonce i 0 :=
  report_part hn (a := ((List.range 8).flatMap s.slot).take 512) (c := natBytes 8 s.units.toNat ++ (natBytes 8 s.stepping.toNat ++ natBytes 8 s.time))
    (by simp [reportHead]) (by simp [length_flatMap_range s.slot 64 8 (length_slot s)]) (by omega) (by omega)

theorem report_units {i : Nat} (hi : i < 8) : nth (s.report nonce) (0x220 + i) 0 = nth (natBytes 8 s.units.toNat) i 0 :=
  report_part hn (a := ((List.range 8).flatMap s.slot).take 512 ++ nonce) (c := natBytes 8 s.stepping.toNat ++ natBytes 8 s.time)
    (by simp [reportHead]) (by simp [length_flatMap_range s.slot 64 8 (length_slot s), hn]) (by rw [length_natBytes]; exact hi) (by omega)

theorem report_stepping {i : Nat} (hi : i < 8) : nth (s.report nonce) (0x228 + i) 0 = nth (natBytes 8 s.stepping.toNat) i 0 :=
  report_part hn (a := ((List.range 8).flatMap s.slot).take 512 ++ nonce ++ natBytes 8 s.units.toNat) (c := natBytes 8 s.time)
    (by simp [reportHead]) (by simp [length_flatMap_range s.slot 64 8 (length_slot s), length_natBytes, hn])
    (by rw [length_natBytes]; exact hi) (by omega)

theorem report_time {i : Nat} (hi : i < 8) : nth (s.report nonce) (0x230 + i) 0 = nth (natBytes 8 s.time) i 0 :=
  report_part hn (a := ((List.range 8).flatMap s.slot).take 512 ++ nonce ++ natBytes 8 s.units.toNat ++ natBytes 8 s.stepping.toNat) (c := [])
    (by simp [reportHead]) (by simp [length_flatMap_range s.slot 64 8 (length_slot s), length_natBytes, hn])
    (by rw [length_natBytes]; exact hi) (by omega)

end

end Sys2Proof.Machine
end

section
/-! PROOFS. sec.op (R384, R385). -/

namespace Sys2Proof.Machine

open Host (Outcome)
open Sys2Proof.Claims

/-! ### sec.op (R384, R385) -/

/-- The fields of sec.op that a write leaves (R385). -/
def secFields (v : Word) : Word := v &&& 0x070FFFFFFFFFFFC0

/-- The part with an operation of sec.op in progress. -/
def secPending (s : State) (cs : Assoc SysCore) (op : Nat) (v : Word) : State := { s with cores := cs, secOp := secFields v, secPend := op }

section
variable {s : State} {n op : Nat} {v : Word}

theorem coreStep_sec (h : CoreMay s n 0x0908) : coreStep (.core n) 0x0908 true v s = (writeSecOp v s).coreRetire n :=
  coreStep_ok h (by decide) (by simp [coreWrite]) (by unfold writeSecOp; simp only; split <;> rfl)

/-- A write that begins an operation. -/
theorem writeSecOp_begins (hp : s.secPend = 0) (hop : fld v 62 2 = op) (ho : op = 1 ∧ fld v 56 3 ≠ 0 ∨ op = 2) :
    writeSecOp v s = secPending s s.cores op v := by
  obtain ⟨rfl, h0⟩ | rfl := ho
  · simp [writeSecOp, hp, hop, h0, secPending, secFields]
  · simp [writeSecOp, hp, hop, secPending, secFields]

/-- A write is ignored while an operation is in progress, and an extension of slot 0 is. -/
theorem writeSecOp_ignored (h : s.secPend ≠ 0 ∨ fld v 62 2 = 1 ∧ fld v 56 3 = 0) : writeSecOp v s = s := by
  obtain h | ⟨h1, h2⟩ := h
  · simp [writeSecOp, h]
  · simp [writeSecOp, h1, h2]

/-- The operation of a value is in progress after its write, and after another write where it was before. -/
theorem secPending_step (hv : fld v 62 2 = op → op = 1 ∧ fld v 56 3 ≠ 0 ∨ op = 2) (ho : op ≠ 0)
    (h : (CoreMay s n 0x0908 ∧ s.secPend = 0 ∧ fld v 62 2 = op) ∨ (s.secPend = op ∧ s.secOp = secFields v)) :
    ∃ cs, coreStep (.core n) 0x0908 (fld v 62 2 == op) v s = secPending s cs op v := by
  obtain ⟨hm, hp, hop⟩ | ⟨hp, hs⟩ := h
  · rw [hop, beq_self_eq_true, coreStep_sec hm, writeSecOp_begins hp hop (hv hop)]
    exact ⟨_, rfl⟩
  · have same (cs : Assoc SysCore) : { s with cores := cs } = secPending s cs op v := by subst hp; rw [secPending, ← hs]
    by_cases hm : (fld v 62 2 == op) = true ∧ CoreMay s n 0x0908
    · rw [hm.1, coreStep_sec hm.2, writeSecOp_ignored (.inl (hp ▸ ho))]
      exact ⟨_, same _⟩
    · have e : coreStep (.core n) 0x0908 (fld v 62 2 == op) v s = s := by
        simp only [coreStep, Bool.and_eq_true]
        rw [if_neg hm]
      exact ⟨s.cores, e.trans (same s.cores)⟩

/-- The step, with its operation in progress. -/
theorem secStep_pending {cs : Assoc SysCore} (h : coreStep (.core n) 0x0908 (fld v 62 2 == op) v s = secPending s cs op v) :
    secStep (.core n) op v s = secRun (secPending s cs op v) := by
  simp [secStep, h, secPending, secFields]

/-- The step of an operation that is not in progress after the write. -/
theorem secStep_other (hm : CoreMay s n 0x0908) (hop : fld v 62 2 = op) (hp : s.secPend ≠ op) (h : s.secPend ≠ 0 ∨ op = 1 ∧ fld v 56 3 = 0) :
    secStep (.core n) op v s = s.coreRetire n := by
  have hi : writeSecOp v s = s := writeSecOp_ignored (by rwa [hop])
  have hr : (s.coreRetire n).secPend = s.secPend := rfl
  simp [secStep, hop, coreStep_sec hm, hi, hr, hp]

theorem secFields_pa (v : Word) : fld (secFields v) 6 46 = fld v 6 46 := fld_and _ _ _ _ (by decide)

theorem secFields_slot (v : Word) : fld (secFields v) 56 3 = fld v 56 3 := fld_and _ _ _ _ (by decide)

theorem secPending_memory (cs : Assoc SysCore) : SameMemory s (secPending s cs op v) := sameMemory_of_fields rfl rfl rfl rfl rfl

/-- An extension ends. -/
theorem secRun_extend (cs : Assoc SysCore) (h : s.readsAll (fld v 6 46 * 64) 64 = true) : secRun (secPending s cs 1 v) =
    { secPending s cs 0 v with
      slots := aput s.slots (fld v 56 3) (digest64 (Config.shake256 (s.slot (fld v 56 3) ++ s.paBytes (fld v 6 46 * 64) 64))) } := by
  have e : secRun (secPending s cs 1 v) = if s.readsAll (fld (secFields v) 6 46 * 64) 64 then
      { secPending s cs 0 v with slots := aput s.slots (fld (secFields v) 56 3) (digest64 (Config.shake256
        (s.slot (fld (secFields v) 56 3) ++ (secPending s cs 1 v).paBytes (fld (secFields v) 6 46 * 64) 64))) }
    else secPending s cs 1 v := rfl
  rw [e, secFields_pa, secFields_slot, if_pos h, paBytes_same (secPending_memory cs)]

/-- It waits for its memory. -/
theorem secRun_extend_waits (cs : Assoc SysCore) (h : s.readsAll (fld v 6 46 * 64) 64 = false) :
    secRun (secPending s cs 1 v) = secPending s cs 1 v := by
  have reads : (secPending s cs 1 v).readsAll (fld (secFields v) 6 46 * 64) 64 = false := by rw [secFields_pa]; exact h
  simp only [secRun, secPending] at reads ⊢
  simp [reads]

/-- An attestation ends. -/
theorem secRun_attest (cs : Assoc SysCore) (h : s.readsAll (fld v 6 46 * 64) 32 = true) (hr : s.reaches (fld v 6 46 * 64) 0x300 = true) :
    secRun (secPending s cs 2 v) =
      { (secPending s cs 2 v).paPutBytes (fld v 6 46 * 64) (s.report (s.paBytes (fld v 6 46 * 64) 32)) with secPend := 0 } := by
  have e : secRun (secPending s cs 2 v) =
    if s.readsAll (fld (secFields v) 6 46 * 64) 32 && s.reaches (fld (secFields v) 6 46 * 64) 0x300 then
      { (secPending s cs 2 v).paPutBytes (fld (secFields v) 6 46 * 64)
          (s.report ((secPending s cs 2 v).paBytes (fld (secFields v) 6 46 * 64) 32)) with secPend := 0 }
    else secPending s cs 2 v := rfl
  rw [e, secFields_pa, h, hr, paBytes_same (secPending_memory cs)]
  rfl

end

/-- The effects of an extension's end. -/
theorem extend_ends (s : State) (cs : Assoc SysCore) (v : Word) (h : s.readsAll (fld v 6 46 * 64) 64 = true) :
    let t := secRun (secPending s cs 1 v)
    SameMemory s t ∧ t.secPend = 0 ∧ t.secOp = secFields v ∧
      (∀ i < 64, nth (t.slot (fld v 56 3)) i 0 = nth (Config.shake256 (s.slot (fld v 56 3) ++ s.paBytes (fld v 6 46 * 64) 64)) i 0) ∧
      ∀ k, k ≠ fld v 56 3 → t.slot k = s.slot k := by
  intro t
  have ht : t = _ := secRun_extend cs h
  rw [ht]
  refine ⟨sameMemory_of_fields rfl rfl rfl rfl rfl, rfl, rfl, fun i hi => ?_, fun k hk => ?_⟩
  · rw [State.slot, agetD_aput_same, digest64, nth_pad _ hi, digest64, nth_pad _ hi]
  · rw [State.slot, agetD_aput_other _ _ _ _ _ hk]
    rfl

theorem paByte_secPend (s : State) (p a : Nat) : State.paByte { s with secPend := p } a = s.paByte a := rfl

theorem slots_secPend (s : State) (p : Nat) : State.slots { s with secPend := p } = s.slots := rfl

theorem paPutBytes_slots (s : State) (pa : Nat) (l : List Byte) : (s.paPutBytes pa l).slots = s.slots := by
  have each : (s.putEach pa l).slots = s.slots := by
    induction l generalizing s pa with
    | nil => rfl
    | cons b l ih =>
      rw [State.putEach, ih]
      obtain ⟨-, -, e⟩ | ⟨-, -, e⟩ | ⟨-, e⟩ := paPut_cases s pa b <;> rw [e]
  exact each

/-- The effects of an attestation's end. -/
theorem attest_ends (s : State) (cs : Assoc SysCore) (v : Word) (h : s.readsAll (fld v 6 46 * 64) 32 = true)
    (hr : s.reaches (fld v 6 46 * 64) 0x300 = true)
    (hp : ∀ i < 0x300, s.isLocal (fld v 6 46 * 64 + i) = true ∧ s.present (offsetOf (fld v 6 46 * 64 + i)) = true) :
    let t := secRun (secPending s cs 2 v)
    let pa := fld v 6 46 * 64
    t.slots = s.slots ∧ t.secPend = 0 ∧ (∀ a, ¬(pa ≤ a ∧ a < pa + 0x300) → t.paByte a = s.paByte a) ∧
      ∀ i < 0x300, t.paByte (pa + i) = nth (s.report (s.paBytes pa 32)) i 0 := by
  intro t pa
  have len := length_report s (s.paBytes pa 32)
  have present : ∀ j < 0x300, (secPending s cs 2 v).present (offsetOf (pa + j)) = true := fun j hj => (hp j hj).2
  have ht : t = _ := secRun_attest cs h hr
  have bytes (a : Nat) : t.paByte a = ((secPending s cs 2 v).putEach pa (s.report (s.paBytes pa 32))).paByte a := by
    rw [ht, paByte_secPend, paByte_paPutBytes]
  refine ⟨?_, by rw [ht], fun a ha => ?_, fun i hi => ?_⟩
  · rw [ht, slots_secPend, paPutBytes_slots]
    rfl
  · rw [bytes, paByte_putEach_outside _ _ _ _ (by rwa [len])]
    exact secPending_memory cs a
  · rw [bytes]
    exact paByte_putEach_inside (secPending s cs 2 v) pa _ (fun j hj _ => present j (by rwa [len] at hj)) i (by rwa [len])

theorem securityWrites : SecurityWrites := by
  intro s n v slot pa mine
  refine ⟨fun h hslot hreads => ?_, fun hm hp hop hslot hreads => ?_, fun hm hp hop hslot => ?_, fun hm hp hop => ?_, fun hm hp hop => ?_,
    fun h hreads hreach hlocal => ?_⟩
  · obtain ⟨cs, e⟩ := secPending_step (fun _ => .inl ⟨rfl, hslot⟩) (by decide) h
    exact ⟨_, congrArg Outcome.next (secStep_pending e), extend_ends s cs v hreads⟩
  · have begins : writeSecOp v s = secPending s s.cores 1 v := writeSecOp_begins hp hop (.inl ⟨rfl, hslot⟩)
    have e : coreStep (.core n) 0x0908 (fld v 62 2 == 1) v s = secPending s ((s.coreRetire n).cores) 1 v := by
      rw [show (fld v 62 2 == 1) = true by rw [show fld v 62 2 = 1 from hop]; rfl, coreStep_sec hm, begins]
      rfl
    refine ⟨_, congrArg Outcome.next ((secStep_pending e).trans (secRun_extend_waits _ hreads)), secPending_memory _, rfl, rfl, rfl, ?_⟩
    exact retires_coreRetire (s := s) (t := s) rfl
  · exact congrArg Outcome.next (secStep_other hm hop (by omega) (.inr ⟨rfl, hslot⟩))
  · exact congrArg Outcome.next (secStep_other hm hop (by omega) (.inl (by omega)))
  · exact congrArg Outcome.next (secStep_other hm hop (by omega) (.inl (by omega)))
  · obtain ⟨cs, e⟩ := secPending_step (fun _ => .inr rfl) (by decide) h
    obtain ⟨hslots, hpend, hout, hin⟩ := attest_ends s cs v hreads hreach hlocal
    change ∀ i < 0x300, State.paByte _ (pa + i) = nth (s.report (s.paBytes pa 32)) i 0 at hin
    have nonce : (s.paBytes pa 32).length = 32 := length_paBytes ..
    refine ⟨_, congrArg Outcome.next (secStep_pending e), hslots, hpend, hout, fun i hi => ?_, fun j hj i hi => ?_, ?_, ?_, ?_⟩
    · rw [Nat.add_assoc, hin _ (by omega), report_nonce nonce hi, nth_paBytes _ _ _ _ hi]
    · rw [Nat.add_assoc, hin _ (by omega), report_slot nonce hj hi]
    · rw [paRead_natBytes _ _ s.units.toNat fun i hi => by rw [Nat.add_assoc, hin _ (by omega), report_units nonce hi]]
      exact BitVec.ofNat_toNat ..
    · rw [paRead_natBytes _ _ s.stepping.toNat fun i hi => by rw [Nat.add_assoc, hin _ (by omega), report_stepping nonce hi]]
      exact BitVec.ofNat_toNat ..
    · exact paRead_natBytes _ _ s.time fun i hi => by rw [Nat.add_assoc, hin _ (by omega), report_time nonce hi]

end Sys2Proof.Machine
end

section
/-! PROOFS. pre.ctl (R351, R352). -/

namespace Sys2Proof.Machine

open Host (Outcome)
open Sys2Proof.Claims

/-! ### A pre-emption that reaches a skein (R352) -/

section
variable (s : State) (b : Bool) (sp slot : Nat)

theorem setSkein_skein? {s : State} {sp slot : Nat} {k : Skein} (o : Option Skein) (h : s.skein? sp slot = some k) :
    (s.setSkein sp slot o).skein? sp slot = o := by
  simp only [State.skein?, State.setSkein, modSpindle_spindle]
  exact nth_modNth_same _ _ _ _ (slot_lt_of_skein? h)

theorem setSkein_skein?_other (o : Option Skein) {sq sl : Nat} (h : ¬(sq = sp ∧ sl = slot)) :
    (s.setSkein sp slot o).skein? sq sl = s.skein? sq sl := by
  by_cases hq : sq = sp
  · subst hq
    simp only [State.skein?, State.setSkein, modSpindle_spindle]
    exact nth_modNth_other _ _ _ _ _ fun e => h ⟨rfl, e⟩
  · simp only [State.skein?, State.setSkein]
    rw [modSpindle_spindle_other _ _ _ _ hq]

theorem skein?_of_slots {s t : State} {sp : Nat} (h : (t.spindle sp).slots = (s.spindle sp).slots) (slot : Nat) :
    t.skein? sp slot = s.skein? sp slot := by
  simp only [State.skein?, h]

/-- A skein as a pre-emption reaches it. -/
def Skein.stop (k : Skein) (byCtl : Bool) (now : Nat) : Skein :=
  { k with pre := .stopping, preAt := now, preCtl := byCtl, dist := k.dist.halt, plies := k.plies.map Ply.halt, tiles := k.tiles.map Tile.markPre }

/-- What it changes: one slot of one spindle, and the offers. -/
theorem stopSkein_eq : ∃ o os, s.stopSkein b sp slot = s ∨ s.stopSkein b sp slot = { s.setSkein sp slot o with offers := os } := by
  unfold State.stopSkein
  split
  · exact ⟨none, [], .inl rfl⟩
  · split
    · exact ⟨_, s.offers, .inr rfl⟩
    · exact ⟨_, _, .inr rfl⟩

theorem stopSkein_skein? {k : Skein} (h : s.skein? sp slot = some k) (hk : k.pre = .no) :
    (s.stopSkein b sp slot).skein? sp slot = some (k.stop b s.time) := by
  have e : s.stopSkein b sp slot =
      { s.setSkein sp slot (some (k.stop b s.time)) with offers := s.offers.filter fun o => !inSlot o.who sp slot } := by
    unfold State.stopSkein
    rw [h]
    simp only [hk]
    rfl
  rw [e]
  exact setSkein_skein? (some (k.stop b s.time)) h

theorem stopSkein_skein?_other {sq sl : Nat} (h : ¬(sq = sp ∧ sl = slot)) : (s.stopSkein b sp slot).skein? sq sl = s.skein? sq sl := by
  obtain ⟨o, os, e | e⟩ := stopSkein_eq s b sp slot
  · rw [e]
  · rw [e]
    exact setSkein_skein?_other s sp slot o h

/-- Of a spindle, its slots alone. -/
theorem stopSkein_spindle (q : Nat) : ∃ l, (s.stopSkein b sp slot).spindle q = { s.spindle q with slots := l } := by
  obtain ⟨o, os, e | e⟩ := stopSkein_eq s b sp slot
  · exact ⟨_, by rw [e]⟩
  · rw [e]
    show ∃ l, (s.setSkein sp slot o).spindle q = _
    by_cases hq : q = sp
    · subst hq
      exact ⟨_, modSpindle_spindle ..⟩
    · exact ⟨(s.spindle q).slots, modSpindle_spindle_other _ _ _ _ hq⟩

/-- Nothing but spindles and offers. -/
theorem stopSkein_outside : ∃ sps os, s.stopSkein b sp slot = { s with spindles := sps, offers := os } := by
  obtain ⟨o, os, e | e⟩ := stopSkein_eq s b sp slot
  · exact ⟨s.spindles, s.offers, e⟩
  · exact ⟨_, os, e⟩

end

/-! ### pre.ctl (R351) -/

/-- The part with the selection of a write of pre.ctl, and its spindle's hold. -/
def preHeld (v : Word) (hold : Bool) (s : State) : State :=
  { s with preScope := BitVec.ofNat 2 (fld v 56 2), preSpindle := BitVec.ofNat 9 (fld v 8 9), preSlot := BitVec.ofNat 2 (fld v 0 2) }.modSpindle
    (fld v 8 9) fun x => { x with swHold := hold }

section
variable {s : State} {n : Nat} {v : Word} (hp : s.spindlePresent (fld v 8 9) = true)

theorem preHeld_skein? (hold : Bool) (sp slot : Nat) : (preHeld v hold s).skein? sp slot = s.skein? sp slot :=
  skein?_of_slots (modSpindle_spindle_slots (g := fun x => { x with swHold := hold }) (fun _ => rfl) sp) slot

include hp

theorem writePreCtl_busy (hb : s.preBusy = true) : writePreCtl v s = some s := by
  simp [writePreCtl, hp, hb]

theorem writePreCtl_hold (hb : s.preBusy = false) (hop : fld v 62 2 = 1) (hs : fld v 56 2 = 0) (hbase : isBase (fld v 8 9) = false) :
    writePreCtl v s = some ((preHeld v true s).stopSkein true (fld v 8 9) (fld v 0 2)) := by
  simp [writePreCtl, hp, hb, hop, hs, hbase, State.scopeSpindles, preHeld]

theorem writePreCtl_release (hb : s.preBusy = false) (hop : fld v 62 2 = 2) (hs : fld v 56 2 = 0) :
    writePreCtl v s = some (preHeld v false s) := by
  simp [writePreCtl, hp, hb, hop, hs, State.scopeSpindles, preHeld]

omit hp in
theorem coreStep_pre {t : State} {op : Nat} (h : CoreMay s n 0x0510) (hop : fld v 62 2 = op) (hw : writePreCtl v s = some t)
    (hc : t.cores = s.cores) : coreStep (.core n) 0x0510 (fld v 62 2 == op) v s = t.coreRetire n := by
  rw [hop, beq_self_eq_true]
  exact coreStep_ok h (by decide) (by simp [coreWrite, hw]) hc

end

theorem preemptWrites : PreemptWrites := by
  intro s n v h hp
  refine ⟨fun hb hop => ?_, fun hb hop => ?_, fun hb hop hs hbase => ?_, fun hb hop hs => ?_⟩
  · exact congrArg Outcome.next (coreStep_pre h hop (writePreCtl_busy hp hb) rfl)
  · exact congrArg Outcome.next (coreStep_pre h hop (writePreCtl_busy hp hb) rfl)
  · obtain ⟨sps, os, e⟩ := stopSkein_outside (preHeld v true s) true (fld v 8 9) (fld v 0 2)
    have hc : ((preHeld v true s).stopSkein true (fld v 8 9) (fld v 0 2)).cores = s.cores := by rw [e]; rfl
    refine ⟨_, congrArg Outcome.next (coreStep_pre h hop (writePreCtl_hold hp hb hop hs hbase) hc), retires_coreRetire hc, ?_, ?_,
      fun k hk hpre => ?_, fun sp slot hne => ?_⟩
    · obtain ⟨l, hl⟩ := stopSkein_spindle (preHeld v true s) true (fld v 8 9) (fld v 0 2) (fld v 8 9)
      refine (congrArg Spindle.swHold hl).trans ?_
      simp [preHeld]
    · exact sameMemory_coreRetire (by rw [e]; exact sameMemory_of_fields rfl rfl rfl rfl rfl)
    · exact ⟨k.stop true s.time, stopSkein_skein? _ _ _ _ ((preHeld_skein? ..).trans hk) hpre, rfl, rfl, rfl, rfl, rfl⟩
    · exact (stopSkein_skein?_other _ _ _ _ hne).trans (preHeld_skein? ..)
  · refine ⟨_, congrArg Outcome.next (coreStep_pre h hop (writePreCtl_release hp hb hop hs) rfl), retires_coreRetire rfl, ?_,
      sameMemory_of_fields rfl rfl rfl rfl rfl, fun sp slot => preHeld_skein? ..⟩
    show ((preHeld v false s).spindle (fld v 8 9)).swHold = false
    simp [preHeld]

end Sys2Proof.Machine
end

section
/-! PROOFS. pwr.frame and pwr.cfg (R357, R375, R376). -/

namespace Sys2Proof.Machine

open Host (Outcome)
open Sys2Proof.Claims

/-! ### Folds over units -/

/-- What every operation of a fold establishes for its own unit, and keeps for any other, holds of every unit. -/
theorem foldl_each {α : Type} (P : α → State → Prop) (g : State → α → State) (own : ∀ u x, P x (g u x)) (keep : ∀ u x y, P y u → P y (g u x))
    (l : List α) (u : State) : ∀ x ∈ l, P x (l.foldl g u) := by
  have kept (x : α) (l : List α) (u : State) (h : P x u) : P x (l.foldl g u) :=
    List.foldlRecOn l g h fun t ht y _ => keep t y x ht
  induction l generalizing u with
  | nil => simp
  | cons y l ih =>
    intro x hx
    obtain rfl | hx := List.mem_cons.1 hx
    · exact kept x l _ (own u x)
    · exact ih _ x hx

theorem modSpindle_spindle_eq (s : State) (sp q : Nat) (g : Spindle → Spindle) :
    (s.modSpindle sp g).spindle q = if q = sp then g (s.spindle q) else s.spindle q := by
  split
  · next h => subst h; exact modSpindle_spindle ..
  · next h => exact modSpindle_spindle_other _ _ _ _ h

theorem modFrame_frame_eq (s : State) (n m : Nat) (g : Frame → Frame) :
    (s.modFrame n g).frame m = if m = n then g (s.frame m) else s.frame m := by
  split
  · next h => subst h; exact modFrame_frame ..
  · next h => exact modFrame_frame_other _ _ _ _ h

/-! ### pwr.frame and pwr.cfg (R357, R375, R376) -/

section
variable (s : State) (n : Nat)

theorem stopSpindle_outside (b : Bool) (sp : Nat) : ∃ sps os, s.stopSpindle b sp = { s with spindles := sps, offers := os } := by
  unfold State.stopSpindle
  refine List.foldlRecOn (motive := fun u : State => ∃ sps os, u = { s with spindles := sps, offers := os }) _ _ ⟨s.spindles, s.offers, rfl⟩ ?_
  rintro u ⟨sps, os, rfl⟩ slot -
  obtain ⟨sps', os', e⟩ := stopSkein_outside { s with spindles := sps, offers := os } b sp slot
  exact ⟨sps', os', e⟩

theorem stopSpindle_pwrHold (b : Bool) (sp q : Nat) : ((s.stopSpindle b sp).spindle q).pwrHold = (s.spindle q).pwrHold :=
  foldl_field (fun u => (u.spindle q).pwrHold) _ (fun u slot => by
    obtain ⟨l, e⟩ := stopSkein_spindle u b sp slot q
    rw [e]) _ _

/-- A frame with its gating begun. -/
def Frame.gate (f : Frame) : Frame := { f with gating := true, wakeAt := none }

theorem startGate_outside : ∃ sps os, s.startGate n = { s.modFrame n Frame.gate with spindles := sps, offers := os } := by
  unfold State.startGate
  refine List.foldlRecOn (motive := fun u : State => ∃ sps os, u = { s.modFrame n Frame.gate with spindles := sps, offers := os }) _ _
    ⟨s.spindles, s.offers, rfl⟩ ?_
  rintro u ⟨sps, os, rfl⟩ i -
  obtain ⟨sps', os', e⟩ := stopSpindle_outside (State.modSpindle { s.modFrame n Frame.gate with spindles := sps, offers := os } (16 * n + i)
    fun x => { x with pwrHold := true }) false (16 * n + i)
  exact ⟨sps', os', e⟩

theorem startGate_holds : ∀ i < 16, ((s.startGate n).spindle (16 * n + i)).pwrHold = true := by
  have each := foldl_each (fun i u => (u.spindle (16 * n + i)).pwrHold = true)
    (fun s i => (s.modSpindle (16 * n + i) fun x => { x with pwrHold := true }).stopSpindle false (16 * n + i))
    (fun u i => by simp [stopSpindle_pwrHold])
    (fun u i j h => by
      rw [stopSpindle_pwrHold, modSpindle_spindle_eq]
      split
      · rfl
      · exact h) (List.range 16) (s.modFrame n Frame.gate)
  exact fun i hi => each i (List.mem_range.2 hi)

theorem ungate_outside : ∃ sps, s.ungate n = { s with spindles := sps } := by
  unfold State.ungate
  refine List.foldlRecOn (motive := fun u : State => ∃ sps, u = { s with spindles := sps }) _ _ ⟨s.spindles, rfl⟩ ?_
  rintro u ⟨sps, rfl⟩ i -
  exact ⟨_, rfl⟩

theorem ungate_released : ∀ i < 16, ((s.ungate n).spindle (16 * n + i)).pwrHold = false := by
  have each := foldl_each (fun i u => (u.spindle (16 * n + i)).pwrHold = false)
    (fun s i => s.modSpindle (16 * n + i) fun x => { x with pwrHold := false })
    (fun u i => by simp)
    (fun u i j h => by
      rw [modSpindle_spindle_eq]
      split
      · rfl
      · exact h) (List.range 16) s
  exact fun i hi => each i (List.mem_range.2 hi)

theorem allTo_st (l : List Nat) (st : Nat) : ∀ m ∈ l, ((s.allTo l st).frame m).st = st :=
  foldl_each (fun m u => (u.frame m).st = st) _ (fun u m => by simp)
    (fun u m j h => by
      rw [modFrame_frame_eq]
      split
      · rfl
      · exact h) l s

theorem allTo_outside (l : List Nat) (st : Nat) : ∃ fs, s.allTo l st = { s with frames := fs } := by
  unfold State.allTo
  refine List.foldlRecOn (motive := fun u : State => ∃ fs, u = { s with frames := fs }) _ _ ⟨s.frames, rfl⟩ ?_
  rintro u ⟨fs, rfl⟩ m -
  exact ⟨_, rfl⟩

end

section
variable {s : State} {n : Nat} {v : Word}

/-- The part with FORCE and REQ of the selected frame written. -/
def forced (v : Word) (s : State) : State :=
  s.modFrame s.pwrFrame.toNat fun f => { f with force := v.getLsbD 15, req := min (fld v 6 2) 2 }

theorem forced_frame : (forced v s).frame s.pwrFrame.toNat =
    { s.frame s.pwrFrame.toNat with force := v.getLsbD 15, req := min (fld v 6 2) 2 } := modFrame_frame ..

/-- The gating of a frame ends. -/
def ungated (n : Nat) (s : State) : State :=
  if (s.frame n).gating then (s.modFrame n fun f => { f with gating := false }).ungate n else s

theorem writePwrFrame_eq (v : Word) (s : State) : writePwrFrame v s =
    if ((forced v s).frame s.pwrFrame.toNat).force then
      if ((forced v s).frame s.pwrFrame.toNat).gating then forced v s
      else if ((forced v s).frame s.pwrFrame.toNat).st < 2 then (forced v s).startGate s.pwrFrame.toNat
      else (forced v s).modFrame s.pwrFrame.toNat fun f => { f with wakeAt := none }
    else if ((forced v s).frame s.pwrFrame.toNat).st != 0 && ((forced v s).frame s.pwrFrame.toNat).wakeAt.isNone
        && !(ungated s.pwrFrame.toNat (forced v s)).a4 then
      (ungated s.pwrFrame.toNat (forced v s)).startWake s.pwrFrame.toNat
    else ungated s.pwrFrame.toNat (forced v s) := rfl

theorem writePwrFrame_gates (hf : v.getLsbD 15 = true) (hg : (s.frame s.pwrFrame.toNat).gating = false)
    (hst : (s.frame s.pwrFrame.toNat).st < 2) : writePwrFrame v s = (forced v s).startGate s.pwrFrame.toNat := by
  rw [writePwrFrame_eq]
  simp only [forced_frame, hf, hg, hst, if_true, Bool.false_eq_true, if_false]

theorem writePwrFrame_clears (hf : v.getLsbD 15 = false) : writePwrFrame v s =
    if (s.frame s.pwrFrame.toNat).st != 0 && (s.frame s.pwrFrame.toNat).wakeAt.isNone && !(ungated s.pwrFrame.toNat (forced v s)).a4 then
      (ungated s.pwrFrame.toNat (forced v s)).startWake s.pwrFrame.toNat
    else ungated s.pwrFrame.toNat (forced v s) := by
  rw [writePwrFrame_eq]
  simp only [forced_frame, hf, Bool.false_eq_true, if_false]

theorem ungated_outside (n : Nat) (u : State) : ∃ sps fs, ungated n u = { u with spindles := sps, frames := fs } ∧
    State.frame (ungated n u) n = { u.frame n with gating := false } := by
  unfold ungated
  split
  · obtain ⟨sps, e⟩ := ungate_outside (u.modFrame n fun f => { f with gating := false }) n
    refine ⟨sps, _, e, ?_⟩
    rw [e]
    exact modFrame_frame u n fun f => { f with gating := false }
  · next h =>
    refine ⟨_, _, rfl, ?_⟩
    simp only [Bool.not_eq_true] at h
    rw [← h]

theorem coreStep_frame {t : State} (h : CoreMay s n 0x0902) (hw : writePwrFrame v s = t) (hc : t.cores = s.cores) :
    coreStep (.core n) 0x0902 true v s = t.coreRetire n :=
  coreStep_ok h (by decide) (by simp [coreWrite, hw]) hc

end

section
variable {s : State} {n : Nat} {v : Word}

theorem coreRetire_frame (u : State) (m : Nat) : (u.coreRetire n).frame m = u.frame m := rfl

theorem coreRetire_spindle (u : State) (sp : Nat) : (u.coreRetire n).spindle sp = u.spindle sp := rfl

/-- A write of FORCE to a frame in A0 or A1. -/
theorem forceGate (h : CoreMay s n 0x0902) (hf : v.getLsbD 15 = true) (hg : (s.frame s.pwrFrame.toNat).gating = false)
    (hst : (s.frame s.pwrFrame.toNat).st < 2) : ∃ t, exec (.pwrForceGate (.core n) v) s = .next t ∧
      (t.frame s.pwrFrame.toNat).force = true ∧ (t.frame s.pwrFrame.toNat).gating = true ∧
      (t.frame s.pwrFrame.toNat).st = (s.frame s.pwrFrame.toNat).st ∧ SameMemory s t ∧
      ∀ i < 16, (t.spindle (16 * s.pwrFrame.toNat + i)).pwrHold = true := by
  obtain ⟨sps, os, e⟩ := startGate_outside (forced v s) s.pwrFrame.toNat
  have hc : ((forced v s).startGate s.pwrFrame.toNat).cores = s.cores := by rw [e]; rfl
  have hframe : State.frame (((forced v s).startGate s.pwrFrame.toNat).coreRetire n) s.pwrFrame.toNat =
      { s.frame s.pwrFrame.toNat with force := true, req := min (fld v 6 2) 2, gating := true, wakeAt := none } := by
    rw [coreRetire_frame, e]
    refine (modFrame_frame (forced v s) s.pwrFrame.toNat Frame.gate).trans ?_
    rw [forced_frame, hf]
    rfl
  have he : exec (.pwrForceGate (.core n) v) s = .next (coreStep (.core n) 0x0902 true v s) := by
    rw [← hf]
    rfl
  refine ⟨_, he.trans (congrArg Outcome.next (coreStep_frame h (writePwrFrame_gates hf hg hst) hc)), congrArg Frame.force hframe,
    congrArg Frame.gating hframe, (congrArg Frame.st hframe :), sameMemory_coreRetire ?_, fun i hi => ?_⟩
  · rw [e]
    exact sameMemory_of_fields rfl rfl rfl rfl rfl
  · rw [coreRetire_spindle]
    exact startGate_holds (forced v s) s.pwrFrame.toNat i hi

/-- A write of FORCE = 0: the gating ends, and the rest of its effect is the wake's start. -/
theorem forceClear (h : CoreMay s n 0x0902) (hf : v.getLsbD 15 = false) : ∃ t u, exec (.pwrForceClear (.core n) v) s = .next (t.coreRetire n) ∧
    u = ungated s.pwrFrame.toNat (forced v s) ∧
    t = if (s.frame s.pwrFrame.toNat).st != 0 && (s.frame s.pwrFrame.toNat).wakeAt.isNone then u.startWake s.pwrFrame.toNat else u := by
  obtain ⟨sps, fs, e, -⟩ := ungated_outside s.pwrFrame.toNat (forced v s)
  have ha : (ungated s.pwrFrame.toNat (forced v s)).a4 = false := by
    rw [e]
    exact coreMay_a4 h
  have hw := writePwrFrame_clears (s := s) hf
  rw [ha, Bool.not_false, Bool.and_true] at hw
  have hc : (writePwrFrame v s).cores = s.cores := by
    rw [hw, e]
    split <;> rfl
  have he : exec (.pwrForceClear (.core n) v) s = .next (coreStep (.core n) 0x0902 true v s) := by
    show Outcome.next (coreStep (.core n) 0x0902 (!v.getLsbD 15) v s) = _
    rw [hf]
    rfl
  exact ⟨writePwrFrame v s, _, he.trans (congrArg Outcome.next (coreStep_frame h (Eq.refl (writePwrFrame v s)) hc)), rfl, hw⟩

/-- The part with the fields of pwr.cfg written. -/
def powerConfigured (v : Word) (s : State) : State :=
  { s with
    tlim := BitVec.ofNat 8 (fld v 48 8), budget := BitVec.ofNat 16 (fld v 32 16), idlelat := BitVec.ofNat 24 (fld v 0 24)
    mtrain := BitVec.ofNat 8 (fld v 24 8)
    retrainAt := if BitVec.ofNat 8 (fld v 24 8) == s.mtrain then s.retrainAt else s.time + (BitVec.ofNat 8 (fld v 24 8)).toNat * 1000000 }

theorem writePwrCfg_a4 (h63 : v.getLsbD 63 = true) (hm : s.mayA4 = true) : writePwrCfg v s = (powerConfigured v s).enterA4 := by
  have e : writePwrCfg v s = if v.getLsbD 63 && s.mayA4 then (powerConfigured v s).enterA4 else powerConfigured v s := rfl
  rw [e, h63, hm]
  rfl

theorem enterA4_spindle (u : State) (sp : Nat) : u.enterA4.spindle sp = { u.spindle sp with aown := [] } := by
  obtain ⟨fs, e⟩ := allTo_outside u (List.range u.nFrames) 4
  have spindles : u.enterA4.spindles = u.spindles.map fun p => (p.1, { p.2 with aown := [] }) := by
    simp only [State.enterA4, e]
  unfold State.spindle
  rw [spindles]
  exact agetD_map (fun _ (x : Spindle) => { x with aown := [] }) u.spindles sp {} rfl

/-- A write of A4 that nothing stands against. -/
theorem requestA4 (h : CoreMay s n 0x0901) (h63 : v.getLsbD 63 = true) (hm : s.mayA4 = true) :
    ∃ t, exec (.packageA4Request (.core n) v) s = .next t ∧ t.a4 = true ∧ t.fifos = [] ∧ (∀ fr < s.nFrames, (t.frame fr).st = 4) ∧
      (∀ sp, (t.spindle sp).aown = []) ∧ t.tlim.toNat = fld v 48 8 ∧ t.budget.toNat = fld v 32 16 := by
  obtain ⟨fs, e⟩ := allTo_outside (powerConfigured v s) (List.range s.nFrames) 4
  have hc : (powerConfigured v s).enterA4.cores = s.cores := by
    show State.cores ((powerConfigured v s).allTo (List.range s.nFrames) 4) = _
    rw [e]
    rfl
  have he : exec (.packageA4Request (.core n) v) s = .next (coreStep (.core n) 0x0901 true v s) := by
    rw [← h63]
    rfl
  refine ⟨_, he.trans (congrArg Outcome.next (coreStep_ok h (by decide) (by simp [coreWrite, writePwrCfg_a4 h63 hm]) hc)), rfl, rfl,
    fun fr hfr => ?_, fun sp => ?_, ?_, ?_⟩
  · exact allTo_st (powerConfigured v s) (List.range s.nFrames) 4 fr (List.mem_range.2 hfr)
  · exact congrArg Spindle.aown (enterA4_spindle (powerConfigured v s) sp)
  · show ((powerConfigured v s).allTo (List.range s.nFrames) 4).tlim.toNat = _
    rw [e]
    exact Nat.mod_eq_of_lt (Nat.mod_lt _ (by decide))
  · show ((powerConfigured v s).allTo (List.range s.nFrames) 4).budget.toNat = _
    rw [e]
    exact Nat.mod_eq_of_lt (Nat.mod_lt _ (by decide))

end

theorem powerWrites : PowerWrites := by
  intro s n v fr
  refine ⟨fun h hf hg hst => forceGate h hf hg hst, fun h hf hg => ?_, fun h hf hst hw => ?_, fun h h63 hm => requestA4 h h63 hm⟩
  · obtain ⟨t, u, he, hu, ht⟩ := forceClear h hf
    obtain ⟨sps, fs, e, hframe⟩ := ungated_outside fr (forced v s)
    rw [← hu, forced_frame, hf] at hframe
    have hold : ∀ i < 16, (u.spindle (16 * fr + i)).pwrHold = false := by
      have hg' : ((forced v s).frame fr).gating = true := (congrArg Frame.gating forced_frame).trans hg
      rw [hu, ungated, if_pos hg']
      exact ungate_released _ fr
    have mem : SameMemory s u := by
      rw [hu, e]
      exact sameMemory_of_fields rfl rfl rfl rfl rfl
    obtain rfl | rfl : t = u.startWake fr ∨ t = u := by
      rw [ht]
      split
      · exact .inl rfl
      · exact .inr rfl
    · have hwake := modFrame_frame u fr fun f => { f with wakeAt := some (u.time + wakeTime f.st) }
      rw [hframe] at hwake
      exact ⟨_, he, congrArg Frame.force hwake, congrArg Frame.gating hwake, sameMemory_coreRetire mem, hold⟩
    · exact ⟨_, he, congrArg Frame.force hframe, congrArg Frame.gating hframe, sameMemory_coreRetire mem, hold⟩
  · obtain ⟨t, u, he, hu, ht⟩ := forceClear h hf
    obtain ⟨sps, fs, e, hframe⟩ := ungated_outside fr (forced v s)
    rw [← hu, forced_frame] at hframe
    have wakes : ((s.frame fr).st != 0 && (s.frame fr).wakeAt.isNone) = true := by simp [hst, hw]
    rw [if_pos wakes] at ht
    have hwake := modFrame_frame u fr fun f => { f with wakeAt := some (u.time + wakeTime f.st) }
    have time : u.time = s.time := by rw [hu, e]; rfl
    refine ⟨_, he, ?_⟩
    rw [ht]
    refine (congrArg Frame.wakeAt hwake).trans ?_
    rw [hframe, time]

end Sys2Proof.Machine
end

section
/-! PROOFS. What a handler does to its skein (R208, R346, R347), and the writes of O47 together. -/

namespace Sys2Proof.Machine

open Host (Outcome)
open Sys2Proof.Claims

/-! ### The end of a skein (R208) -/

/-- Released entries enter queues alone. -/
theorem enterGo_slots (l : Launch) (es : List (Nat × Nat × List Nat)) (k : Skein) (x : Spindle) : (enterGo l es k x).2.slots = x.slots := by
  induction es generalizing x with
  | nil => rfl
  | cons e es ih =>
    simp only [enterGo]
    split
    · rfl
    · exact ih _

/-- The release of static entries leaves an ended skein as it is, and memory. -/
theorem releaseStatic_ended {s : State} {sp slot : Nat} {k : Skein} (h : s.skein? sp slot = some k) (hk : k.life = .ended) (sl : Nat) :
    (s.releaseStatic sp sl).skein? sp slot = some k := by
  unfold State.releaseStatic
  split
  · exact h
  · next j hj =>
    split
    · exact h
    · next hrun =>
      have hne : slot ≠ sl := fun e => by
        obtain rfl : j = k := Option.some.inj (hj.symm.trans (e ▸ h))
        simp [hk] at hrun
      simp only
      rw [setSkein_skein?_other _ _ _ _ fun e => hne e.2, ← h]
      refine skein?_of_slots ?_ slot
      rw [setSpindle_spindle, enterGo_slots]

theorem releaseStatic_mem (s : State) (sp sl : Nat) : (s.releaseStatic sp sl).mem = s.mem := by
  unfold State.releaseStatic
  split
  · rfl
  · split <;> rfl

theorem releaseSpindle_ended {s : State} {sp slot : Nat} {k : Skein} (h : s.skein? sp slot = some k) (hk : k.life = .ended) :
    (s.releaseSpindle sp).skein? sp slot = some k :=
  List.foldlRecOn (motive := fun u : State => u.skein? sp slot = some k) _ _ h fun _ hu sl _ => releaseStatic_ended hu hk sl

theorem releaseSpindle_mem (s : State) (sp : Nat) : (s.releaseSpindle sp).mem = s.mem :=
  foldl_field State.mem _ (fun u sl => releaseStatic_mem u sp sl) _ _

/-- A skein as it ends, of a launch of a width. -/
def Skein.endIn (k : Skein) (w : Nat) : Skein :=
  { k with
    life := .ended, dq := [], statNext := 16, statWait := [], evHeld := 0
    dist := { k.dist with exited := true, wait := .none, held := none, defs := [], hdefs := [], pend := []
                          trap := { k.dist.trap with mode := false } }
    plies := k.plies.map fun p => p.ended w }

/-- The part as a skein ends, before entries of others are released. -/
def State.endIn (s : State) (sp slot : Nat) (k : Skein) : State :=
  let s := (s.setSkein sp slot (some (k.endIn (s.launch k.launch).width))).modSpindle sp fun x => x.dropUnstarted k.uid
  let s := { s with offers := s.offers.filter fun o => !inSlot o.who sp slot }.modLaunch k.launch fun l => { l with anyEnded := true }
  if k.plies.any fun p => p.turn then s.passToken k.launch else s

theorem endSkein_eq {s : State} {sp slot : Nat} {k : Skein} (h : s.skein? sp slot = some k) :
    s.endSkein sp slot = (s.endIn sp slot k).releaseSpindle sp := by
  unfold State.endSkein
  rw [h]
  rfl

theorem endIn_skein? {s : State} {sp slot : Nat} {k : Skein} (h : s.skein? sp slot = some k) :
    (s.endIn sp slot k).skein? sp slot = some (k.endIn (s.launch k.launch).width) := by
  have set := setSkein_skein? (some (k.endIn (s.launch k.launch).width)) h
  have drop := skein?_of_slots (modSpindle_spindle_slots (s := s.setSkein sp slot (some (k.endIn (s.launch k.launch).width))) (sp := sp)
    (g := fun x => x.dropUnstarted k.uid) (fun _ => rfl) sp) slot
  unfold State.endIn
  simp only
  split <;> exact drop.trans set

theorem endIn_mem (s : State) (sp slot : Nat) (k : Skein) : (s.endIn sp slot k).mem = s.mem := by
  unfold State.endIn
  simp only
  split <;> rfl

theorem endIn_ended (k : Skein) (w : Nat) : SkeinEnded w (k.endIn w) := by
  refine ⟨rfl, rfl, rfl, fun p hp => ?_⟩
  obtain ⟨q, -, rfl⟩ := List.mem_map.1 hp
  refine ⟨rfl, fun e he => ?_, rfl⟩
  obtain ⟨_, -, rfl⟩ := List.mem_map.1 he
  rfl

/-! ### trap.ply and trap.rdat (R346, R347) -/

section
variable {p : Party} {s : State} {c : Ctx} {v : Word} (h : s.ctx? p = some c)
include h

theorem ctx?_w : c.w = (s.launch c.sk.launch).width := by
  cases p with
  | core n => simp [State.ctx?] at h
  | dist sp slot =>
    simp only [State.ctx?, Option.map_eq_some_iff] at h
    obtain ⟨k, -, rfl⟩ := h
    rfl
  | path sp slot ply idx =>
    simp only [State.ctx?] at h
    split at h
    · cases h
    · split at h <;> cases h
      rfl

theorem handlerStep_acts (hh : c.handler = true) (hl : c.live = true) {n : Nat} (hn : csrAllowed true c.dist true n = true) :
    handlerStep p n true v s = c.trapWrite n v s := by
  simp [handlerStep, h, hh, hl, hn]

/-- A write of the trap registers of the party leaves every ply but its own. -/
theorem modTrap_other (g : TrapState → TrapState) {q : Nat} (hq : c.dist = false → q ≠ c.plyNo) :
    ∃ k, (c.modTrap s g).skein? c.sp c.slot = some k ∧ k.ply q = c.sk.ply q ∧ k.plies.length = c.sk.plies.length := by
  unfold Ctx.modTrap
  split
  · exact ⟨_, modSkein_skein? _ (ctx?_skein h), rfl, rfl⟩
  · next hd => exact ⟨_, modSkein_skein? _ (ctx?_skein h), modPly_ply_other _ _ _ _ (hq (by simpa using hd)), modNth_length ..⟩

omit h in
theorem modPly_skein_ply {u : State} {sp slot q : Nat} {k : Skein} (hk : u.skein? sp slot = some k) (hq : q < k.plies.length) (g : Ply → Ply) :
    ((u.modPly sp slot q g).skein? sp slot).map (fun k => k.ply q) = some (g (k.ply q)) := by
  rw [State.modPly, modSkein_skein? _ hk, Option.map_some, modPly_ply _ _ _ hq]

theorem trapPlyEnd_ends (hh : c.handler = true) (hl : c.live = true) (h63 : v.getLsbD 63 = true) :
    ∃ t k, exec (.trapPlyEnd p v) s = .next t ∧ t.skein? c.sp c.slot = some k ∧ SkeinEnded c.w k ∧ t.mem = s.mem := by
  have hk := ctx?_skein h
  have e : exec (.trapPlyEnd p v) s = .next ((s.endIn c.sp c.slot c.sk).releaseSpindle c.sp) := by
    show Outcome.next (handlerStep p 0x0504 (v.getLsbD 63) v s) = _
    rw [h63, handlerStep_acts h hh hl rfl, ← endSkein_eq hk]
    simp only [Ctx.trapWrite, Ctx.writeTrapPly, h63, if_true]
  refine ⟨_, _, e, releaseSpindle_ended (endIn_skein? hk) rfl, ?_, (releaseSpindle_mem ..).trans (endIn_mem ..)⟩
  rw [ctx?_w h]
  exact endIn_ended ..

omit h in
/-- What a path's wait becomes as its ply stops. -/
theorem leaveWait_stops (e : Path) : Stops e e.leaveWait := by
  unfold Path.leaveWait Stops
  cases e.wait
  case barx | debug | commands | remote | launch => simp
  all_goals by_cases he : e.st = .exited <;> simp [he]

theorem trapPlyStop_stops (hh : c.handler = true) (hl : c.live = true) (h63 : v.getLsbD 63 = false) (h8 : fld v 8 2 = 1)
    (hq : fld v 0 4 < c.sk.plies.length) (hne : c.dist = false → fld v 0 4 ≠ c.plyNo) (hs : c.plyState (fld v 0 4) = 0) :
    ∃ t, exec (.trapPlyStop p v) s = .next t ∧
      ((t.skein? c.sp c.slot).map fun k => k.ply (fld v 0 4)) = some { (c.sk.ply (fld v 0 4)).halt with stopped := true } := by
  obtain ⟨k, hk, hply, hlen⟩ := modTrap_other h (fun t => { t with sel := BitVec.ofNat 4 (fld v 0 4) }) hne
  have e : exec (.trapPlyStop p v) s = .next (c.stopPly (fld v 0 4) (c.modTrap s fun t => { t with sel := BitVec.ofNat 4 (fld v 0 4) })) := by
    show Outcome.next (handlerStep p 0x0504 (!v.getLsbD 63 && fld v 8 2 == 1) v s) = _
    rw [h63, h8]
    simp only [Bool.not_false, beq_self_eq_true, Bool.and_self]
    rw [handlerStep_acts h hh hl rfl]
    simp only [Ctx.trapWrite, Ctx.writeTrapPly, h63, h8, Bool.false_eq_true, if_false]
  refine ⟨_, e, ?_⟩
  rw [← hply, ← modPly_skein_ply hk (hlen ▸ hq) fun p => { p.halt with stopped := true }]
  simp only [Ctx.stopPly, hs]
  rfl

theorem trapPlyRun_runs (hh : c.handler = true) (hl : c.live = true) (h63 : v.getLsbD 63 = false) (h8 : fld v 8 2 = 0)
    (hq : fld v 0 4 < c.sk.plies.length) (hne : c.dist = false → fld v 0 4 ≠ c.plyNo) (hs : c.plyState (fld v 0 4) = 1) :
    ∃ t, exec (.trapPlyRun p v) s = .next t ∧
      ((t.skein? c.sp c.slot).map fun k => k.ply (fld v 0 4)) = some { c.sk.ply (fld v 0 4) with stopped := false } := by
  obtain ⟨k, hk, hply, hlen⟩ := modTrap_other h (fun t => { t with sel := BitVec.ofNat 4 (fld v 0 4) }) hne
  have e : exec (.trapPlyRun p v) s = .next (c.runPly (fld v 0 4) (c.modTrap s fun t => { t with sel := BitVec.ofNat 4 (fld v 0 4) })) := by
    show Outcome.next (handlerStep p 0x0504 (!v.getLsbD 63 && fld v 8 2 == 0) v s) = _
    rw [h63, h8]
    simp only [Bool.not_false, beq_self_eq_true, Bool.and_self]
    rw [handlerStep_acts h hh hl rfl]
    simp only [Ctx.trapWrite, Ctx.writeTrapPly, h63, h8, Bool.false_eq_true, if_false]
  refine ⟨_, e, ?_⟩
  rw [← hply, ← modPly_skein_ply hk (hlen ▸ hq) fun p => { p with stopped := false }]
  simp only [Ctx.runPly, hs]
  rfl

omit h in
/-- A stopped ply that is not the handler's own can be inspected. -/
theorem inspects_stopped {q : Nat} (hs : c.plyState q = 1) (hne : c.dist = false → q ≠ c.plyNo) : c.inspects q = some false := by
  have there : ¬c.la.hdr.plies ≤ q := fun hle => by simp [Ctx.plyState, hle] at hs
  have other : (!c.dist && q == c.plyNo) = false := by
    cases hd : c.dist
    · simpa using hne hd
    · rfl
  simp [Ctx.inspects, there, other, hs]

omit h in
theorem writeRdat_eq : c.writeRdat v s = s ∨ ∃ g, c.writeRdat v s = s.modPly c.sp c.slot c.trapSt.sel.toNat g := by
  unfold Ctx.writeRdat
  simp only
  split
  · exact .inl rfl
  · exact .inr ⟨_, rfl⟩

theorem trapRdat_writes (hh : c.handler = true) (hl : c.live = true) :
    exec (.trapRdatWrite p v) s = .next (c.writeRdat v s) := by
  show Outcome.next (handlerStep p 0x0507 true v s) = _
  rw [handlerStep_acts h hh hl rfl]
  rfl

end

theorem handlerWrites : HandlerWrites := by
  intro p s c v h hh hl
  refine ⟨fun h63 => trapPlyEnd_ends h hh hl h63, fun q h63 hq hlt hne => ⟨fun h8 hs => ?_, fun h8 hs => ?_⟩,
    c.writeRdat v s, trapRdat_writes h hh hl, ?_, fun sp slot hne => ?_, fun q hq hs hlt hne h16 h0 h8 => ?_⟩
  · subst hq
    obtain ⟨t, e, ht⟩ := trapPlyStop_stops h hh hl h63 h8 hlt hne hs
    refine ⟨t, _, e, ht, rfl, rfl, rfl, rfl, rfl, List.length_map .., fun i e0 e h0 h1 => ?_⟩
    have h1' : ((c.sk.ply (bitsAt v 0 4)).paths.map Path.leaveWait)[i]? = some e := h1
    rw [List.getElem?_map, h0] at h1'
    obtain rfl := Option.some.inj h1'
    exact leaveWait_stops e0
  · subst hq
    obtain ⟨t, e, ht⟩ := trapPlyRun_runs h hh hl h63 h8 hlt hne hs
    exact ⟨t, _, e, ht, rfl⟩
  · obtain e | ⟨g, e⟩ := writeRdat_eq (s := s) (c := c) (v := v)
    · rw [e]
      exact fun _ => rfl
    · rw [e]
      exact sameMemory_of_fields (modPly_mem ..) (modPly_remote ..) (modPly_pkg ..) (modPly_units ..) (modPly_dies ..)
  · obtain e | ⟨g, e⟩ := writeRdat_eq (s := s) (c := c) (v := v)
    · rw [e]
    · rw [e]
      exact modSkein_skein?_other _ _ _ _ _ _ hne
  · subst hq
    have item : rdatWrite false c.w c.la.hdr.vregs c.trapSt.rsel v (c.sk.ply c.trapSt.sel.toNat) =
        (c.sk.ply c.trapSt.sel.toNat).wrV (rselNum c.trapSt.rsel) (rselThr c.trapSt.rsel) (v.setWidth 32) := by
      have cls : rselClass c.trapSt.rsel = 0 := h16
      have thr : rselThr c.trapSt.rsel < c.w := h0
      have num : rselNum c.trapSt.rsel < c.la.hdr.vregs := h8
      simp [rdatWrite, cls, thr, num]
    have after := modPly_skein_ply (ctx?_skein h) hlt (rdatWrite false c.w c.la.hdr.vregs c.trapSt.rsel v)
    have e : c.writeRdat v s = s.modPly c.sp c.slot c.trapSt.sel.toNat (rdatWrite false c.w c.la.hdr.vregs c.trapSt.rsel v) := by
      simp [Ctx.writeRdat, inspects_stopped hs hne]
    rw [← e, item] at after
    have reads := congrArg (Option.map fun y => y.rdV (bitsAt c.trapSt.rsel 8 8) (bitsAt c.trapSt.rsel 0 7)) after
    rw [Option.map_map, Option.map_some] at reads
    refine reads.trans (congrArg some ?_)
    exact sget_sset_same ..

/-- Settles O47, part by part. -/
theorem controlWrites : Obligations.ControlWrites :=
  ⟨recordWrites, holdReleased, baseOffer, unitAbsent, securityWrites, preemptWrites, powerWrites, handlerWrites⟩

end Sys2Proof.Machine
end

section
/-! PROOFS. What memory and translations read as depends on few fields of the state; the writes of mmu.shoot (R225, R226). -/

namespace Sys2Proof.Machine

open Host (Outcome)
open Sys2Proof.Claims

/-! ### Memory and its map -/

/-- Two states with the same memory under the same map of physical addresses. -/
structure SameMap (s t : State) : Prop where
  mem : t.mem = s.mem
  remote : t.remote = s.remote
  pkg : t.pkg = s.pkg
  units : t.units = s.units
  dies : t.dies = s.dies

theorem SameMap.trans {s t u : State} (h : SameMap s t) (g : SameMap t u) : SameMap s u :=
  ⟨g.mem.trans h.mem, g.remote.trans h.remote, g.pkg.trans h.pkg, g.units.trans h.units, g.dies.trans h.dies⟩

namespace SameMap

variable {s t : State} (h : SameMap s t)
include h

theorem memory : SameMemory s t := sameMemory_of_fields h.mem h.remote h.pkg h.units h.dies

theorem isLocal (pa : Nat) : t.isLocal pa = s.isLocal pa := by simp only [State.isLocal, h.pkg]

theorem present (off : Nat) : t.present off = s.present off := by
  simp only [State.present, State.gddrBytes, State.nStacks, State.die, h.units, h.dies]
  rfl

theorem notHole (pa n : Nat) : t.notHole pa n = s.notHole pa n := by
  simp only [State.notHole, State.rangePresent, h.isLocal, h.present]

theorem paRead (pa n : Nat) : t.paRead pa n = s.paRead pa n := by simp only [State.paRead, paBytes_same h.memory]

theorem badEntry (level lo : Nat) (e : Word) : badEntry t level lo e = badEntry s level lo e := by
  simp only [Machine.badEntry, malformed, h.isLocal, h.notHole]

theorem walkFrom (read : Nat → Word) (va : Nat) (l : List (Nat × Nat × Nat)) (tbl : Nat) :
    walkFrom t read va l tbl = walkFrom s read va l tbl := by
  induction l generalizing tbl with
  | nil => rfl
  | cons x l ih => simp only [Machine.walkFrom, h.badEntry, ih]

theorem storedOver (read : Nat → Word) (va a : Nat) (l : List (Nat × Nat × Nat)) (p : List (Nat × Word)) :
    storedOver t read va a l p = storedOver s read va a l p := by
  induction l generalizing p with
  | nil => rfl
  | cons x l ih =>
    cases p with
    | nil => rfl
    | cons y p => simp only [Machine.storedOver, h.walkFrom, ih]

theorem leafShot (read : Nat → Word) (asid va : Nat) (r : ShootRange) (l : List (Nat × Nat × Nat)) (p : List (Nat × Word)) :
    leafShot t read asid va r l p = leafShot s read asid va r l p := by
  induction l generalizing p with
  | nil => rfl
  | cons x l ih =>
    cases p with
    | nil => rfl
    | cons y p => simp only [Machine.leafShot, h.walkFrom, ih]

theorem wordBefore (later : List TableEvent) : t.wordBefore later = s.wordBefore later := by
  funext a
  simp only [State.wordBefore, h.paRead]

theorem forceGo (asid root va : Nat) (evs : List TableEvent) (p : List (Nat × Word)) :
    forceGo t asid root va evs p = forceGo s asid root va evs p := by
  induction evs generalizing p with
  | nil => rfl
  | cons ev evs ih => simp only [Machine.forceGo, h.wordBefore, h.storedOver, h.leafShot, h.walkFrom, ih]

theorem inForce (hk : t.known = s.known) (asid root va : Nat) : t.inForce asid root va = s.inForce asid root va := by
  simp only [State.inForce, hk, h.wordBefore, h.walkFrom, h.forceGo]

end SameMap

/-! ### The entries in force after a shootdown (R225, R226) -/

/-- A shootdown stores nothing over. -/
theorem wordBefore_shot (s : State) (r : ShootRange) (evs : List TableEvent) : s.wordBefore (evs ++ [.shot r]) = s.wordBefore evs := by
  funext a
  simp [State.wordBefore, List.findSome?_append]

/-- A range of another address space meets no leaf. -/
theorem leafShot_other (s : State) (read : Nat → Word) (va : Nat) {asid : Nat} {r : ShootRange} (h : asid ≠ r.asid)
    (l : List (Nat × Nat × Nat)) (p : List (Nat × Word)) : leafShot s read asid va r l p = p := by
  induction l generalizing p with
  | nil => rfl
  | cons x l ih =>
    cases p with
    | nil => rfl
    | cons y p => simp [leafShot, ShootRange.meets, h, ih]

/-- What a last shootdown makes of the entries in force. -/
theorem forceGo_shot (s : State) (asid root va : Nat) (r : ShootRange) (evs : List TableEvent) (p : List (Nat × Word)) :
    forceGo s asid root va (evs ++ [.shot r]) p =
      if r.hasPage asid va then walkFrom s (s.wordBefore []) va levels root
      else leafShot s (s.wordBefore []) asid va r levels (forceGo s asid root va evs p) := by
  induction evs generalizing p with
  | nil => rfl
  | cons ev evs ih => simp only [List.cons_append, forceGo, wordBefore_shot, ih]

theorem wordBefore_nil (s : State) : s.wordBefore [] = fun a => s.paRead a 8 := rfl

section
variable {s t : State} {r : ShootRange} (hk : t.known = if s.known.isEmpty then [] else .shot r :: s.known)
include hk

/-- In the range of a shootdown, a walk reads memory. -/
theorem inForce_shot {asid va : Nat} (root : Nat) (h : r.hasPage asid va = true) :
    t.inForce asid root va = walkFrom t (fun a => t.paRead a 8) va levels root := by
  cases e : s.known.isEmpty with
  | true => simp [State.inForce, hk, e, forceGo, wordBefore_nil]
  | false => simp [State.inForce, hk, e, forceGo_shot, h, wordBefore_nil]

/-- In another address space, it reads what it read before. -/
theorem inForce_shot_other (hm : SameMap s t) {asid : Nat} (root va : Nat) (h : asid ≠ r.asid) : t.inForce asid root va = s.inForce asid root va := by
  have out : r.hasPage asid va = false := by simp [ShootRange.hasPage, ShootRange.meets, h]
  cases e : s.known.isEmpty with
  | true =>
    refine hm.inForce ?_ asid root va
    rw [hk, e, if_pos rfl, List.isEmpty_iff.1 e]
  | false =>
    simp only [State.inForce, hk, e, Bool.false_eq_true, if_false, List.reverse_cons, forceGo_shot, out, leafShot_other _ _ _ h,
      wordBefore_shot, hm.wordBefore, hm.walkFrom, hm.forceGo]

end

/-! ### Held translations that go -/

theorem mem_filter_not {α : Type} {l : List α} {p : α → Bool} {x : α} : x ∈ l.filter (fun e => !p e) ↔ x ∈ l ∧ ¬p x = true := by
  simp

/-- A spindle without the held translations of a kind. -/
def Spindle.drop (p : Xlat → Bool) (x : Spindle) : Spindle :=
  { x with lpr := x.lpr.filter fun e => !p e.2, tlb := x.tlb.filter fun e => !p e }

/-- A frame without them. -/
def Frame.drop (p : Xlat → Bool) (f : Frame) : Frame := { f with tlb := f.tlb.filter fun e => !p e }

theorem dropXlats_spindle (s : State) (p : Xlat → Bool) (sp : Nat) : (s.dropXlats p).spindle sp = (s.spindle sp).drop p :=
  agetD_map (fun _ => Spindle.drop p) s.spindles sp {} rfl

theorem dropXlats_frame (s : State) (p : Xlat → Bool) (n : Nat) : (s.dropXlats p).frame n = (s.frame n).drop p :=
  agetD_map (fun _ => Frame.drop p) s.frames n {} rfl

theorem inRange_some {v : Word} {r : ShootRange} (h : shootRange v = some r) (x : Xlat) : InRange v x ↔ r.covers x = true := by
  simp [InRange, h]

theorem inRange_none {v : Word} (h : shootRange v = none) (x : Xlat) : ¬InRange v x := by
  simp [InRange, h]

theorem shootdown_some {v : Word} {r : ShootRange} (h : shootRange v = some r) (s : State) :
    shootdown v s = { s.dropXlats r.covers with known := if s.known.isEmpty then [] else .shot r :: s.known } := by
  simp [shootdown, h]

theorem shootdown_none {v : Word} (h : shootRange v = none) (s : State) : shootdown v s = s := by
  simp [shootdown, h]

theorem shootdown_sameMap (v : Word) (s : State) : SameMap s (shootdown v s) := by
  cases h : shootRange v with
  | none => rw [shootdown_none h]; exact ⟨rfl, rfl, rfl, rfl, rfl⟩
  | some r => rw [shootdown_some h]; exact ⟨rfl, rfl, rfl, rfl, rfl⟩

theorem shootdown_cores (v : Word) (s : State) : (shootdown v s).cores = s.cores := by
  cases h : shootRange v with
  | none => rw [shootdown_none h]
  | some r => rw [shootdown_some h]; rfl

/-- The core TLBs lose the translations of the range. -/
theorem shootdown_spindle_tlb (v : Word) (s : State) (sp : Nat) (x : Xlat) :
    x ∈ ((shootdown v s).spindle sp).tlb ↔ x ∈ (s.spindle sp).tlb ∧ ¬InRange v x := by
  cases h : shootRange v with
  | none => simp [shootdown_none h, inRange_none h]
  | some r =>
    have e : ((shootdown v s).spindle sp).tlb = (s.spindle sp).tlb.filter fun e => !r.covers e := by
      rw [shootdown_some h]
      exact congrArg Spindle.tlb (dropXlats_spindle s r.covers sp)
    rw [e, mem_filter_not, inRange_some h]

/-- So do the frame TLBs. -/
theorem shootdown_frame_tlb (v : Word) (s : State) (n : Nat) (x : Xlat) :
    x ∈ ((shootdown v s).frame n).tlb ↔ x ∈ (s.frame n).tlb ∧ ¬InRange v x := by
  cases h : shootRange v with
  | none => simp [shootdown_none h, inRange_none h]
  | some r =>
    have e : ((shootdown v s).frame n).tlb = (s.frame n).tlb.filter fun e => !r.covers e := by
      rw [shootdown_some h]
      exact congrArg Frame.tlb (dropXlats_frame s r.covers n)
    rw [e, mem_filter_not, inRange_some h]

/-! ### Wakes (R226) -/

/-- A spindle after a wake, its skeins and commands in the address spaces that they have in a state. -/
def Spindle.woken (s : State) (r : ShootRange) (sp : Nat) (x : Spindle) : Spindle :=
  { x with
    slots := x.slots.map fun o => o.map fun k => wakeSkein r (s.launch k.launch) sp k
    saved := x.saved.map fun w => { w with
      sk := wakeSkein r (s.launch w.sk.launch) sp w.sk
      copies := w.copies.map fun c => (c.1, wakeCopy r (s.launch w.sk.launch).asid c.2) }
    cq := x.cq.map fun q => q.map fun k => wakeCopy r (s.asidOf x k.uid) k }

section
variable {v : Word} {r : ShootRange} (h : shootRange v = some r) (s : State)

/-- What a wake removes: the held Not-mapped walks of its range. -/
def wokenXlat (r : ShootRange) (x : Xlat) : Bool := x.page.isNone && r.covers x

include h

theorem wake_spindle (sp : Nat) :
    (wake v s).spindle sp = ((s.dropXlats (wokenXlat r)).spindle sp).woken (s.dropXlats (wokenXlat r)) r sp := by
  have e : (wake v s).spindles = (s.dropXlats (wokenXlat r)).spindles.map fun p => (p.1, p.2.woken (s.dropXlats (wokenXlat r)) r p.1) := by
    simp only [wake, h]
    rfl
  unfold State.spindle
  rw [e]
  exact agetD_map (fun q y => Spindle.woken (s.dropXlats (wokenXlat r)) r q y) _ sp {} rfl

theorem wake_slots (sp : Nat) :
    ((wake v s).spindle sp).slots = (s.spindle sp).slots.map (Option.map fun k => wakeSkein r (s.launch k.launch) sp k) := by
  rw [wake_spindle h, dropXlats_spindle]
  rfl

/-- A resident skein after a wake. -/
theorem wake_skein? (sp slot : Nat) : (wake v s).skein? sp slot = (s.skein? sp slot).map fun k => wakeSkein r (s.launch k.launch) sp k := by
  unfold State.skein?
  rw [wake_slots h]
  exact nth_map (Option.map fun k : Skein => wakeSkein r (s.launch k.launch) sp k) (s.spindle sp).slots slot none

end

theorem wake_none {v : Word} (h : shootRange v = none) (s : State) : wake v s = s := by
  simp [wake, h]

theorem wake_sameMap (v : Word) (s : State) : SameMap s (wake v s) := by
  cases h : shootRange v with
  | none => rw [wake_none h]; exact ⟨rfl, rfl, rfl, rfl, rfl⟩
  | some r => simp only [wake, h]; exact ⟨rfl, rfl, rfl, rfl, rfl⟩

theorem wake_cores (v : Word) (s : State) : (wake v s).cores = s.cores := by
  cases h : shootRange v with
  | none => rw [wake_none h]
  | some r => simp only [wake, h]; rfl

theorem wake_tlb (v : Word) (s : State) (sp : Nat) (x : Xlat) :
    x ∈ ((wake v s).spindle sp).tlb ↔ x ∈ (s.spindle sp).tlb ∧ ¬(InRange v x ∧ x.page = none) := by
  cases h : shootRange v with
  | none => simp [wake_none h, inRange_none h]
  | some r =>
    have e : ((wake v s).spindle sp).tlb = (s.spindle sp).tlb.filter fun e => !wokenXlat r e := by
      rw [wake_spindle h, dropXlats_spindle]
      rfl
    rw [e, mem_filter_not, inRange_some h, wokenXlat, Bool.and_eq_true, Option.isNone_iff_eq_none, and_comm (a := x.page = none)]

/-- A ply of a woken skein, but for what it holds and its side log. -/
theorem wakeSkein_held (r : ShootRange) (l : Launch) (sp : Nat) {k : Skein} {y : Nat} (hy : y < k.plies.length) :
    ((wakeSkein r l sp k).ply y).held = wakeHeld r l.asid (k.ply y).held := by
  simp [wakeSkein, Skein.ply, nth, hy]

theorem wakeHeld_covered {r : ShootRange} {asid : Nat} {h : Held} {pg : Word} (hpg : pg ∈ h.pages) (hp : r.hasPage asid pg.toNat = true) :
    wakeHeld r asid (some h) = some { h with woken := true } := by
  have : (h.pages.any fun p => r.hasPage asid p.toNat) = true := List.any_eq_true.2 ⟨pg, hpg, hp⟩
  simp only [wakeHeld, Option.map_some, this, if_true]

/-! ### mmu.shoot -/

theorem spindle_coreRetire (t : State) (n sp : Nat) : (t.coreRetire n).spindle sp = t.spindle sp := rfl

/-- A write that a core may make, and that waits, changes nothing. -/
theorem coreStep_hold {s : State} {n reg : Nat} {v : Word} (h : CoreMay s n reg) (hn : (csrwFields reg).csr = reg)
    (hw : coreWrite n reg v s = .hold) : coreStep (.core n) reg true v s = s := by
  simp [coreStep, h, corePut, hn, hw]

theorem coreWrite_shoot (n : Nat) (v : Word) (s : State) : coreWrite n 0x0603 v s =
    if v.getLsbD 11 then .ok (wake v s) else if s.shootReady v then .ok (shootdown v s) else .hold := rfl

theorem coreStep_shootdown {s : State} {n : Nat} {v : Word} (h : CoreMay s n 0x0603) (h11 : v.getLsbD 11 = false)
    (hr : s.shootReady v = true) : coreStep (.core n) 0x0603 (!v.getLsbD 11) v s = (shootdown v s).coreRetire n := by
  rw [h11, Bool.not_false]
  exact coreStep_ok h (by decide) (by rw [coreWrite_shoot, h11, hr]; rfl) (shootdown_cores v s)

theorem coreStep_shootdown_waits {s : State} {n : Nat} {v : Word} (h : CoreMay s n 0x0603) (h11 : v.getLsbD 11 = false)
    (hr : s.shootReady v = false) : coreStep (.core n) 0x0603 (!v.getLsbD 11) v s = s := by
  rw [h11, Bool.not_false]
  exact coreStep_hold h (by decide) (by rw [coreWrite_shoot, h11, hr]; rfl)

theorem coreStep_wake {s : State} {n : Nat} {v : Word} (h : CoreMay s n 0x0603) (h11 : v.getLsbD 11 = true) :
    coreStep (.core n) 0x0603 (v.getLsbD 11) v s = (wake v s).coreRetire n := by
  rw [h11]
  exact coreStep_ok h (by decide) (by rw [coreWrite_shoot, h11]; rfl) (wake_cores v s)

theorem coreRetire_sameMap {s t : State} (h : SameMap s t) (n : Nat) : SameMap s (t.coreRetire n) := ⟨h.mem, h.remote, h.pkg, h.units, h.dies⟩

theorem translationWrites : TranslationWrites := by
  intro s n v h
  refine ⟨fun h11 hr => ?_, fun h11 hr => congrArg Outcome.next (coreStep_shootdown_waits h h11 hr), fun h11 => ?_⟩
  · have map := coreRetire_sameMap (shootdown_sameMap v s) n
    refine ⟨_, congrArg Outcome.next (coreStep_shootdown h h11 hr), map.memory, retires_coreRetire (shootdown_cores v s),
      fun r hv asid root va => ?_, shootdown_spindle_tlb v s, shootdown_frame_tlb v s⟩
    have known : ((shootdown v s).coreRetire n).known = if s.known.isEmpty then [] else .shot r :: s.known := by
      rw [shootdown_some hv]
      rfl
    exact ⟨inForce_shot known root, inForce_shot_other known map root va⟩
  · refine ⟨_, congrArg Outcome.next (coreStep_wake h h11), (coreRetire_sameMap (wake_sameMap v s) n).memory,
      retires_coreRetire (wake_cores v s), wake_tlb v s, fun r hv sp slot k y hd pg hk hy hh hpg hp => ?_⟩
    change ((wake v s).skein? sp slot).bind _ = _
    rw [wake_skein? hv, hk]
    exact (wakeSkein_held _ _ _ hy).trans (hh ▸ wakeHeld_covered hpg hp)

end Sys2Proof.Machine
end

section
/-! PROOFS. The writes of mmu.fq, mmu.hotcfg, mem.cfg (R231, R233, R236) and of mmu.as (R226). -/

namespace Sys2Proof.Machine

open Host (Outcome)
open Sys2Proof.Claims

/-! ### mmu.fq and TAIL (R231) -/

/-- With no record that waits, a flush of the ring does nothing. -/
theorem ringFlush_nil {s : State} (h : s.fqWait = []) : s.ringFlush = s := by
  simp [State.ringFlush, h, ringFlushGo]

theorem writeFq_eq {s : State} (v : Word) (h : s.fqWait = []) :
    writeFq v s = { s with fq := v &&& 0x800FFFFFFFFFF00F, fqHead := 0, fqTail := 0 } := ringFlush_nil h

theorem writeFqTail_eq {s : State} (v : Word) (h : s.fqWait = []) : writeFqTail v s = { s with fqTail := fld v 0 20 } := ringFlush_nil h

/-! ### mem.cfg (R233) -/

/-- What a filter of the keys keeps reads as before. -/
theorem aget?_filter {α : Type} (l : Assoc α) (p : Nat → Bool) {k : Nat} (h : p k = true) : aget? (l.filter fun c => p c.1) k = aget? l k := by
  induction l with
  | nil => rfl
  | cons c l ih =>
    by_cases hk : k = c.1
    · subst hk
      simp [h, aget?]
    · cases hp : p c.1 <;> simp [hp, aget?, hk, ih]

/-- Memory below a range of dropped cells reads as before. -/
theorem sget_dropCells {lo hi k : Nat} (m : List Host.Cell) (h : k < lo) : sget (dropCells lo hi m) k = sget m k := by
  have e := aget?_filter (α := BitVec 8) m (fun a => decide (a < lo) || decide (hi ≤ a)) (k := k) (by simp [h])
  exact congrArg (fun o => o.getD 0) e

theorem scramble_res (s : State) (d lo hi : Nat) : ((s.scramble d lo hi).die d).res = (s.die d).res := by
  simp [State.scramble, State.die, State.modDie, State.setDie]

theorem writeMemCfg_res (v : Word) (s : State) : ((writeMemCfg v s).die s.mcStack.toNat).res = min (fld v 0 5) 16 :=
  (scramble_res ..).trans (congrArg Die.res (setDie_die ..))

theorem writeMemCfg_mem (v : Word) (s : State) {off : Nat} (h : off < 0x2000000000) :
    sget (writeMemCfg v s).mem off = sget s.mem off :=
  sget_dropCells s.mem (Nat.lt_of_lt_of_le h (Nat.le_trans (Nat.le_add_right _ _) (Nat.le_add_right _ _)))

theorem memoryUnitWrites : MemoryUnitWrites := by
  refine fun s n v => ⟨fun h hw => ?_, fun h hw => ?_, fun h => ?_, fun h => ?_⟩
  · have e : coreWrite n 0x0604 v s = .ok _ := congrArg Written.ok (writeFq_eq v hw)
    exact ⟨_, congrArg Outcome.next (coreStep_ok h (by decide) e rfl), rfl, rfl, rfl, sameMemory_of_fields rfl rfl rfl rfl rfl,
      retires_coreRetire rfl⟩
  · have e : coreWrite n 0x0605 v s = .ok _ := congrArg Written.ok (writeFqTail_eq v hw)
    exact ⟨_, congrArg Outcome.next (coreStep_ok h (by decide) e rfl), rfl, rfl, sameMemory_of_fields rfl rfl rfl rfl rfl,
      retires_coreRetire rfl⟩
  · have e : coreWrite n 0x0606 v s = .ok (writeHotcfg v s) := rfl
    refine ⟨_, congrArg Outcome.next (coreStep_ok h (by decide) e rfl), rfl, fun key => ?_, sameMemory_of_fields rfl rfl rfl rfl rfl,
      retires_coreRetire rfl⟩
    change sget (if v.getLsbD 63 then s.hot else []) key = _
    split <;> rfl
  · have e : coreWrite n 0x0607 v s = .ok (writeMemCfg v s) := rfl
    refine ⟨_, congrArg Outcome.next (coreStep_ok h (by decide) e rfl), retires_coreRetire rfl, ?_, writeMemCfg_res v s,
      fun off ho => writeMemCfg_mem v s ho⟩
    change (BitVec.ofNat 6 (bitsAt v 56 6)).toNat = _
    rw [BitVec.toNat_ofNat]
    exact Nat.mod_mod ..

/-! ### mmu.as (R226) -/

section
variable (l : Launch) (a : Nat) (old new : AddrSpace)

@[simp] theorem takeSpace_asid (used : Bool) : (l.takeSpace a used old new).asid = l.asid := by
  unfold Launch.takeSpace
  (repeat' split) <;> rfl

/-- A space that skeins use is not taken: an accepted launch keeps its root, and what its checks are to see. -/
theorem takeSpace_used : (l.takeSpace a true old new).root = l.root ∧ (l.takeSpace a true old new).priv = l.priv := by
  simp only [Launch.takeSpace, Bool.not_true, Bool.false_eq_true, if_false]
  split <;> exact ⟨rfl, rfl⟩

theorem takeSpace_keeps (hc : l.toCheck.isSome = true) (hk : l.kept = []) : aget? (l.takeSpace a true old new).kept a = some old := by
  simp [Launch.takeSpace, hc, hk, aget?, aput]

/-- A space that none uses is taken. -/
theorem takeSpace_unused : l.takeSpace a false old new = { l with
    kept := adel l.kept a, root := if l.asid == a then new.root else l.root, priv := if l.asid == a then new.priv else l.priv } := rfl

theorem spaceOf_kept {l : Launch} {a : Nat} {x : AddrSpace} (s : State) (h : aget? l.kept a = some x) :
    l.spaceOf s a = { x with rcb := (s.space a).rcb } := by
  simp only [Launch.spaceOf, h]

theorem spaceOf_not_kept {l : Launch} {a : Nat} (s : State) (h : aget? l.kept a = none) : l.spaceOf s a = s.space a := by
  simp only [Launch.spaceOf, h]

end

section
variable (v : Word) (s : State)

/-- The selected address space as a write of mmu.as leaves it. -/
def asWritten : AddrSpace :=
  { s.space s.assel.toNat with en := v.getLsbD 63, priv := fld v 52 11, root := fld v 12 40 * 4096 }

/-- Skeins use the selected address space. -/
def asUsed : Bool := s.allSkeins.any fun p => (s.launch p.2.launch).asid == s.assel.toNat

theorem writeAs_space : (writeAs v s).space s.assel.toNat = asWritten v s := agetD_aput_same ..

theorem writeAs_space_other {b : Nat} (h : b ≠ s.assel.toNat) : (writeAs v s).space b = s.space b := agetD_aput_other _ _ _ _ _ h

theorem writeAs_launches {acc : Nat} {l : Launch} (h : aget? s.launches acc = some l) :
    aget? (writeAs v s).launches acc = some (l.takeSpace s.assel.toNat (asUsed s) (s.space s.assel.toNat) (asWritten v s)) := by
  refine (aget?_map (fun _ (l : Launch) => l.takeSpace s.assel.toNat (asUsed s) (s.space s.assel.toNat) (asWritten v s)) s.launches acc).trans ?_
  rw [h]
  rfl

theorem asUsed_iff : asUsed s = true ↔ ∃ p ∈ s.allSkeins, (s.launch p.2.launch).asid = s.assel.toNat := by
  simp [asUsed]

end

/-- A core's CSRW of a register that it may write, once nothing of it is outstanding. -/
theorem exec_csrw_core {f : Fields} {s t : State} {n : Nat} (hcur : s.cur = .core n) (hr : CoreReady (s.core n)) (ha : f.a.toNat < 0x20)
    (hc : csrCoreAllowed f.csr = true) (hw : coreWrite n f.csr (gprOf s n f.a) s = .ok t) (ht : t.cores = s.cores) :
    exec (.csrw f) s = .next (t.coreRetire n) := by
  have e : exec (.csrw f) s = .next (coreCsrw n f s) := by
    show execCsrw f s = _
    simp [execCsrw, hcur]
  have stuck : (s.core n).stuck [f.a] = false := by simp [SysCore.stuck, SysCore.busy, hr.1, hr.2]
  have regs : coreRegsOk [] [f.a] = true := by simp [coreRegsOk, coreScalOk, ha]
  have val : s.coreRd n f.a = gprOf s n f.a := by simp [State.coreRd, gprOf]; omega
  have wait : (t.core n).wait = .none := core_of_cores ht ▸ hr.2
  rw [e]
  simp [coreCsrw, stuck, regs, hc, corePut, val, hw, wait]

theorem spaceWrites : SpaceWrites := by
  intro f s n hcur hr hf ha v a used
  have hw : coreWrite n f.csr v s = .ok (writeAs v s) := by rw [hf]; rfl
  have he : exec (.csrw f) s = _ := exec_csrw_core hcur hr ha (by rw [hf]; decide) hw rfl
  refine ⟨_, he, sameMemory_of_fields rfl rfl rfl rfl rfl, retires_coreRetire rfl, fun b hb => writeAs_space_other v s hb,
    writeAs_space v s, fun acc l hl => ⟨_, writeAs_launches v s hl, takeSpace_asid .., fun hu => ?_, fun hu => ?_⟩⟩
  · have taken : asUsed s = true := (asUsed_iff s).2 hu
    rw [taken]
    obtain ⟨hroot, hpriv⟩ := takeSpace_used l a (s.space a) (asWritten v s)
    refine ⟨hroot, hpriv, fun hc hk => ?_⟩
    rw [spaceOf_kept _ (takeSpace_keeps l a (s.space a) (asWritten v s) hc hk)]
    exact ⟨rfl, rfl, rfl⟩
  · have unused : asUsed s = false := by simpa using mt (asUsed_iff s).1 hu
    rw [unused, takeSpace_unused]
    refine ⟨spaceOf_not_kept _ (aget?_adel_same l.kept a), fun hl => ?_⟩
    have mine : (l.asid == s.assel.toNat) = true := by simpa using hl
    have space : ((writeAs v s).coreRetire n).space a = asWritten v s := writeAs_space v s
    simp only [space, mine, if_true, and_self]

end Sys2Proof.Machine
end

section
/-! PROOFS. The writes of mc.frbase (R147, R149). -/

namespace Sys2Proof.Machine

open Host (Outcome)
open Sys2Proof.Claims

/-! ### The write, by what it makes of the selected range -/

section
variable (v : Word) (s : State)

/-- The selected format range. -/
def selRange : Range := nth (s.die s.mcStack.toNat).ranges s.mcRange.toNat {}

/-- The bits of mc.frbase that a write sets. -/
def frbaseBits (v : Word) : Word := v &&& 0x8F0FFFFFFFE00000

/-- The part with mc.frbase of the selected range written. -/
def frbaseSet : State :=
  s.setDie s.mcStack.toNat { s.die s.mcStack.toNat with
    ranges := modNth (s.die s.mcStack.toNat).ranges s.mcRange.toNat fun r => { r with base := frbaseBits v } }

/-- What a write that sets EN needs (R147). -/
def FrbaseLegal : Prop :=
  bitsAt v 56 4 = 9 ∧ bitsAt (selRange s).geom 24 24 ≠ 0 ∧ bitsAt (selRange s).geom 0 16 ≠ 0 ∧ ¬Overlaps s (selRange s) v

theorem frbaseBits_en : (frbaseBits v).getLsbD 63 = v.getLsbD 63 := by
  simp [frbaseBits]

theorem frbaseBits_format : fld (frbaseBits v) 56 4 = bitsAt v 56 4 := fld_and _ _ _ _ (by decide)

theorem areas_eq (base geom scale : Word) : Range.areas base geom scale = rangeAreas base geom scale := by
  simp only [Range.areas, rangeAreas, frData, frScale, fld_eq_bitsAt, Nat.add_assoc]
  rfl

theorem areas_frbaseBits (geom scale : Word) : Range.areas (frbaseBits v) geom scale = rangeAreas v geom scale := by
  have base : bitsAt (frbaseBits v) 21 31 = bitsAt v 21 31 := fld_and _ _ _ _ (by decide)
  simp only [areas_eq, rangeAreas, base]

/-- The areas of the other enabled ranges of the die. -/
def otherAreas : List (List (Nat × Nat)) :=
  (List.range 8).filterMap fun i =>
    let q := nth (s.die s.mcStack.toNat).ranges i {}
    if i != s.mcRange.toNat && q.base.getLsbD 63 then some (Range.areas q.base q.geom q.scale) else none

theorem mem_otherAreas (l : List (Nat × Nat)) : l ∈ otherAreas s ↔ ∃ i < 8, i ≠ s.mcRange.toNat ∧
    (nth (s.die s.mcStack.toNat).ranges i {}).base.getLsbD 63 = true ∧
    rangeAreas (nth (s.die s.mcStack.toNat).ranges i {}).base (nth (s.die s.mcStack.toNat).ranges i {}).geom
      (nth (s.die s.mcStack.toNat).ranges i {}).scale = l := by
  simp only [otherAreas, List.mem_filterMap, List.mem_range, Option.ite_none_right_eq_some, Bool.and_eq_true, bne_iff_ne, and_assoc, Option.some.injEq,
    areas_eq]

/-- Overlap with another enabled range, as the write finds it. -/
theorem overlaps_iff : ((Range.areas (frbaseBits v) (selRange s).geom (selRange s).scale).any fun a => (otherAreas s).any fun l =>
    l.any (overlap a)) = true ↔ Overlaps s (selRange s) v := by
  simp only [areas_frbaseBits, List.any_eq_true, mem_otherAreas, overlap, Bool.and_eq_true, decide_eq_true_eq, Overlaps]
  constructor
  · rintro ⟨a, ha, l, ⟨i, hi, hn, hen, rfl⟩, b, hb, hab⟩
    exact ⟨i, hi, hn, hen, a, ha, b, hb, hab⟩
  · rintro ⟨i, hi, hn, hen, a, ha, b, hb, hab⟩
    exact ⟨a, ha, _, ⟨i, hi, hn, hen, rfl⟩, b, hb, hab⟩

/-- The write is refused. -/
def frbaseBad : Bool :=
  (frbaseBits v).getLsbD 63 && (fld (frbaseBits v) 56 4 != 9 || fld (selRange s).geom 24 24 == 0 || fld (selRange s).geom 0 16 == 0
    || (Range.areas (frbaseBits v) (selRange s).geom (selRange s).scale).any fun a => (otherAreas s).any fun l => l.any (overlap a))

theorem writeFrbase_eq : writeFrbase v s = if frbaseBad v s then s else frbaseSet v s := rfl

theorem frbaseBad_iff : frbaseBad v s = true ↔ v.getLsbD 63 = true ∧ ¬FrbaseLegal v s := by
  simp only [frbaseBad, frbaseBits_en, frbaseBits_format, Bool.and_eq_true, Bool.or_eq_true, overlaps_iff, bne_iff_ne, beq_iff_eq,
    FrbaseLegal, not_and_or, not_not, ne_eq, or_assoc]
  rfl

end

section
variable {v : Word} {s : State}

theorem writeFrbase_sets (h : v.getLsbD 63 = false ∨ FrbaseLegal v s) : writeFrbase v s = frbaseSet v s := by
  have good : ¬frbaseBad v s = true := by
    rw [frbaseBad_iff]
    rintro ⟨hen, hbad⟩
    obtain hen' | hl := h
    · exact Bool.false_ne_true (hen'.symm.trans hen)
    · exact hbad hl
  rw [writeFrbase_eq, if_neg good]

theorem writeFrbase_ignored (hen : v.getLsbD 63 = true) (h : ¬FrbaseLegal v s) : writeFrbase v s = s := by
  rw [writeFrbase_eq, if_pos ((frbaseBad_iff v s).2 ⟨hen, h⟩)]

theorem frbaseSet_range (h : s.mcRange.toNat < (s.die s.mcStack.toNat).ranges.length) :
    selRange (frbaseSet v s) = { selRange s with base := frbaseBits v } := by
  have die : (frbaseSet v s).die s.mcStack.toNat = _ := setDie_die s s.mcStack.toNat _
  have e : selRange (frbaseSet v s) = nth ((frbaseSet v s).die s.mcStack.toNat).ranges s.mcRange.toNat {} := rfl
  rw [e, die]
  exact nth_modNth_same _ _ _ _ h

theorem frbaseSet_die (d : Nat) : ∃ l, (frbaseSet v s).die d = { s.die d with ranges := l } := by
  by_cases h : d = s.mcStack.toNat
  · subst h
    exact ⟨_, setDie_die s s.mcStack.toNat _⟩
  · exact ⟨(s.die d).ranges, agetD_aput_other _ _ _ _ _ h⟩

/-- Memory lies where it lay: a range is no part of the map of addresses. -/
theorem frbaseSet_memory : SameMemory s (frbaseSet v s) := by
  intro a
  have res (d : Nat) : ((frbaseSet v s).die d).res = (s.die d).res := by
    obtain ⟨l, e⟩ := frbaseSet_die (v := v) (s := s) d
    rw [e]
  have seed (d : Nat) : ((frbaseSet v s).die d).seed = (s.die d).seed := by
    obtain ⟨l, e⟩ := frbaseSet_die (v := v) (s := s) d
    rw [e]
  simp only [State.paByte, State.isLocal, State.present, State.blank, res, seed]
  rfl

theorem rangeBusy_iff : s.rangeBusy s.mcStack.toNat s.mcRange.toNat = true ↔ RangeAccepts s := by
  simp only [State.rangeBusy, RangeAccepts, List.any_eq_true, List.mem_append, List.mem_flatMap, List.mem_map, Bool.and_eq_true,
    Option.isNone_iff_eq_none, List.contains_iff_mem]

/-- While accepted reads go on, a write that would change the range waits. -/
theorem frbaseWaits_iff : s.frbaseWaits v = true ↔ RangeAccepts s ∧ selRange (writeFrbase v s) ≠ selRange s := by
  rw [← rangeBusy_iff, ← bne_iff_ne, ← Bool.and_eq_true]
  rfl

end

theorem coreWrite_frbase (n : Nat) (v : Word) (s : State) :
    coreWrite n 0x0401 v s = if s.frbaseWaits v then .hold else .ok (writeFrbase v s) := rfl

theorem rangeWrites : RangeWrites := by
  intro s n v h r legal
  refine ⟨fun hl hlen => ⟨fun hacc => ?_, fun hacc hne => ?_⟩, fun hen hl => ?_⟩
  · have now : ¬s.frbaseWaits v = true := fun hw => hacc (frbaseWaits_iff.1 hw).1
    have hw : coreWrite n 0x0401 v s = .ok (frbaseSet v s) := by rw [coreWrite_frbase, if_neg now, writeFrbase_sets hl]
    exact ⟨_, congrArg Outcome.next (coreStep_ok h (by decide) hw rfl), frbaseSet_range hlen, sameMemory_coreRetire frbaseSet_memory,
      retires_coreRetire rfl⟩
  · have changes : selRange (writeFrbase v s) ≠ selRange s := by
      rw [writeFrbase_sets hl, frbaseSet_range hlen]
      exact fun e => hne (congrArg Range.base e).symm
    have hw : coreWrite n 0x0401 v s = .hold := by rw [coreWrite_frbase, if_pos (frbaseWaits_iff.2 ⟨hacc, changes⟩)]
    exact congrArg Outcome.next (coreStep_hold h (by decide) hw)
  · have now : ¬s.frbaseWaits v = true := fun hw => (frbaseWaits_iff.1 hw).2 (by rw [writeFrbase_ignored hen hl])
    have hw : coreWrite n 0x0401 v s = .ok s := by rw [coreWrite_frbase, if_neg now, writeFrbase_ignored hen hl]
    exact congrArg Outcome.next (coreStep_ok h (by decide) hw rfl)

end Sys2Proof.Machine
end

section
/-! PROOFS. Region control blocks, their chains and budgets, and the writes of ctl.rcbsync (R58, R60, R82). -/

namespace Sys2Proof.Machine

open Host (Outcome)
open Sys2Proof.Claims

/-! ### Blocks and chains (R58) -/

/-- A block is found under its own address. -/
theorem rcb?_addr {s : State} {a : Nat} {b : Rcb} (h : s.rcb? a = some b) : b.addr = a := by
  simpa using List.find?_some h

/-- A block of a chain is the one that its address finds. -/
theorem rcb?_of_mem_chain {s : State} {a : Nat} {b : Rcb} (h : b ∈ s.rcbChain a) : s.rcb? b.addr = some b := by
  suffices go : ∀ k a, b ∈ rcbChainGo s k a → s.rcb? b.addr = some b from go 8 a h
  intro k
  induction k with
  | zero => simp [rcbChainGo]
  | succ k ih =>
    intro a hb
    cases hr : s.rcb? a with
    | none => simp [rcbChainGo, hr] at hb
    | some r =>
      simp only [rcbChainGo, hr, List.mem_cons] at hb
      obtain rfl | hb := hb
      · rwa [rcb?_addr hr]
      · split at hb
        · cases hb
        · exact ih _ hb

section
variable {s t : State} (h : t.rcbs = s.rcbs)
include h

/-! What a region's chain and budgets are depends on the blocks alone, and what it holds on the skeins and launches besides. -/

theorem rcb?_of_rcbs (a : Nat) : t.rcb? a = s.rcb? a := by simp only [State.rcb?, h]

theorem rcbChain_of_rcbs (a : Nat) : t.rcbChain a = s.rcbChain a := by
  suffices go : ∀ k a, rcbChainGo t k a = rcbChainGo s k a from go 8 a
  intro k
  induction k with
  | zero => exact fun _ => rfl
  | succ k ih => exact fun a => by simp only [rcbChainGo, rcb?_of_rcbs h, ih]

theorem effSpindles_of_rcbs (a : Nat) : t.effSpindles a = s.effSpindles a := by simp only [State.effSpindles, rcbChain_of_rcbs h]

theorem effArrays_of_rcbs (a : Nat) : t.effArrays a = s.effArrays a := by simp only [State.effArrays, rcbChain_of_rcbs h]

variable (hp : t.spindles = s.spindles) (hl : t.launches = s.launches)
include hl

theorem countsFor_of_rcbs (k : Skein) (a : Nat) : t.countsFor k a = s.countsFor k a := by
  simp only [State.countsFor, State.under, State.launch, rcbChain_of_rcbs h, hl]

include hp

theorem spindlesHeld_of_rcbs (a : Nat) : t.spindlesHeld a = s.spindlesHeld a := by
  simp only [State.spindlesHeld, State.holdsOn, State.spindle, countsFor_of_rcbs h hl, hp]

theorem arraysHeld_of_rcbs (a : Nat) : t.arraysHeld a = s.arraysHeld a := by
  simp only [State.arraysHeld, State.allSkeins, countsFor_of_rcbs h hl, hp]

end

/-- The part with its blocks changed one by one. -/
def State.mapRcbs (s : State) (g : Rcb → Rcb) : State := { s with rcbs := s.rcbs.map g }

theorem mapRcbs_rcb? (s : State) {g : Rcb → Rcb} (hg : ∀ b, (g b).addr = b.addr) (a : Nat) : (s.mapRcbs g).rcb? a = (s.rcb? a).map g := by
  simp only [State.mapRcbs, State.rcb?, List.find?_map]
  congr 2
  funext b
  simp [hg]

theorem mapRcbs_sameMap (s : State) (g : Rcb → Rcb) : SameMap s (s.mapRcbs g) := ⟨rfl, rfl, rfl, rfl, rfl⟩

/-! ### What does not depend on the wait for a lowered budget (R82) -/

/-- Blocks are changed in nothing but whether their budgets have been lowered below use. -/
def Flags (g : Rcb → Rcb) : Prop := ∀ b, plainRcb (g b) = plainRcb b

section
variable {g : Rcb → Rcb} (hg : Flags g)
include hg

theorem Flags.addr (b : Rcb) : (g b).addr = b.addr := (congrArg Rcb.addr (hg b) :)

theorem Flags.parent (b : Rcb) : (g b).parent = b.parent := (congrArg Rcb.parent (hg b) :)

theorem Flags.chain (s : State) (a : Nat) : (s.mapRcbs g).rcbChain a = (s.rcbChain a).map g := by
  suffices go : ∀ k a, rcbChainGo (s.mapRcbs g) k a = (rcbChainGo s k a).map g from go 8 a
  intro k
  induction k with
  | zero => simp [rcbChainGo]
  | succ k ih =>
    intro a
    cases hr : s.rcb? a with
    | none => simp [rcbChainGo, mapRcbs_rcb? s hg.addr, hr]
    | some r =>
      simp only [rcbChainGo, mapRcbs_rcb? s hg.addr, hr, Option.map_some, hg.parent, ih, List.map_cons]
      split <;> rfl

theorem Flags.effMin (bit d : Nat) {f : Rcb → Nat} (hf : ∀ b, f (g b) = f b) (l : List Rcb) :
    effMin bit f d (l.map g) = effMin bit f d l := by
  have inherit (b : Rcb) : (g b).inherit = b.inherit := (congrArg Rcb.inherit (hg b) :)
  simp only [Machine.effMin, List.filter_map, List.foldl_map, Function.comp_def, inherit, hf]

theorem Flags.effSpindles (s : State) (a : Nat) : (s.mapRcbs g).effSpindles a = s.effSpindles a := by
  have spindles (b : Rcb) : (g b).spindles = b.spindles := (congrArg Rcb.spindles (hg b) :)
  rw [State.effSpindles, hg.chain, hg.effMin _ _ spindles, State.effSpindles]

theorem Flags.effArrays (s : State) (a : Nat) : (s.mapRcbs g).effArrays a = s.effArrays a := by
  have xarrays (b : Rcb) : (g b).xarrays = b.xarrays := (congrArg Rcb.xarrays (hg b) :)
  rw [State.effArrays, hg.chain, hg.effMin _ _ xarrays, State.effArrays]

theorem Flags.under (s : State) (r a : Nat) : (s.mapRcbs g).under r a = s.under r a := by
  simp only [State.under, hg.chain, List.any_map, Function.comp_def, hg.addr]

theorem Flags.countsFor (s : State) (k : Skein) (a : Nat) : (s.mapRcbs g).countsFor k a = s.countsFor k a := hg.under s _ a

theorem Flags.spindlesHeld (s : State) (a : Nat) : (s.mapRcbs g).spindlesHeld a = s.spindlesHeld a := by
  simp only [State.spindlesHeld, State.holdsOn, hg.countsFor]
  rfl

theorem Flags.arraysHeld (s : State) (a : Nat) : (s.mapRcbs g).arraysHeld a = s.arraysHeld a := by
  simp only [State.arraysHeld, hg.countsFor]
  rfl

end

/-! ### Placement waits for a lowered budget (R82) -/

/-- A skein that fits has room in the budgets of its region and of every one above. -/
theorem budgetOk_of_fits {s : State} {sp acc idx : Nat} (h : s.fits sp acc idx = true) :
    s.budgetOk (s.launch acc).lrec.region.toNat sp (s.launch acc).hdr.xarrays = true := by
  simp only [State.fits, Bool.and_eq_true] at h
  obtain ⟨⟨⟨-, hb⟩, -⟩, -⟩ := h
  exact hb

theorem fits_lowered {s : State} {a sp acc idx : Nat} {b : Rcb} (hb : s.rcb? a = some b) (hl : b.lowSpindles = true ∨ b.lowArrays = true)
    (hu : s.under (s.launch acc).lrec.region.toNat a = true) : s.fits sp acc idx = false := by
  by_contra hf
  have ok := budgetOk_of_fits (Bool.not_eq_false _ ▸ hf)
  simp only [State.under, List.any_eq_true, beq_iff_eq] at hu
  obtain ⟨c, hc, rfl⟩ := hu
  obtain rfl : c = b := Option.some.inj ((rcb?_of_mem_chain hc).symm.trans hb)
  have low := List.all_eq_true.1 ok c hc
  obtain hl | hl := hl <;> simp [hl] at low

/-! ### A sync, block by block (R60) -/

/-- A block after a sync of the one at an address. -/
def syncBlock (a : Nat) (new b : Rcb) : Rcb := if b.addr == a then new else b

/-- A block with its wait for a budget begun, where a sync from `old` to s has lowered it below its use. -/
def lowerBlock (s old : State) (b : Rcb) : Rcb :=
  { b with
    lowSpindles := b.lowSpindles || (decide (s.effSpindles b.addr < old.effSpindles b.addr) && decide (s.effSpindles b.addr < s.spindlesHeld b.addr))
    lowArrays := b.lowArrays || (decide (s.effArrays b.addr < old.effArrays b.addr) && decide (s.effArrays b.addr < s.arraysHeld b.addr)) }

/-- A block with its wait over, where use has fallen below the budget. -/
def unlowerBlock (s : State) (b : Rcb) : Rcb :=
  { b with
    lowSpindles := b.lowSpindles && decide (s.effSpindles b.addr ≤ s.spindlesHeld b.addr)
    lowArrays := b.lowArrays && decide (s.effArrays b.addr ≤ s.arraysHeld b.addr) }

theorem lowered_eq (s old : State) : s.lowered old = s.mapRcbs (lowerBlock s old) := rfl

theorem unlower_eq (s : State) : s.unlower = s.mapRcbs (unlowerBlock s) := rfl

theorem lowerBlock_flags (s old : State) : Flags (lowerBlock s old) := fun _ => rfl

theorem unlowerBlock_flags (s : State) : Flags (unlowerBlock s) := fun _ => rfl

section
variable (s old : State) (a : Nat)

/-- The part after the budgets have been compared with those before a sync. -/
def reckoned : State := (s.lowered old).unlower

theorem reckoned_sameMap : SameMap s (reckoned s old) := (mapRcbs_sameMap s _).trans (mapRcbs_sameMap _ _)

theorem reckoned_rcb? : (reckoned s old).rcb? a = (s.rcb? a).map fun b => unlowerBlock s (lowerBlock s old b) := by
  have unlowered (b : Rcb) : unlowerBlock (s.lowered old) b = unlowerBlock s b := by
    have low := lowerBlock_flags s old
    simp only [unlowerBlock, lowered_eq, low.effSpindles, low.effArrays, low.spindlesHeld, low.arraysHeld]
  rw [reckoned, unlower_eq, mapRcbs_rcb? _ (unlowerBlock_flags _).addr, lowered_eq, mapRcbs_rcb? _ (lowerBlock_flags s old).addr,
    Option.map_map]
  simp only [← lowered_eq, Function.comp_def, unlowered]

theorem reckoned_effSpindles : (reckoned s old).effSpindles a = s.effSpindles a :=
  ((unlowerBlock_flags _).effSpindles _ a).trans ((lowerBlock_flags s old).effSpindles s a)

theorem reckoned_effArrays : (reckoned s old).effArrays a = s.effArrays a :=
  ((unlowerBlock_flags _).effArrays _ a).trans ((lowerBlock_flags s old).effArrays s a)

theorem reckoned_spindlesHeld : (reckoned s old).spindlesHeld a = s.spindlesHeld a :=
  ((unlowerBlock_flags _).spindlesHeld _ a).trans ((lowerBlock_flags s old).spindlesHeld s a)

theorem reckoned_arraysHeld : (reckoned s old).arraysHeld a = s.arraysHeld a :=
  ((unlowerBlock_flags _).arraysHeld _ a).trans ((lowerBlock_flags s old).arraysHeld s a)

end

/-- Lowered budgets keep placement waiting, where the sync keeps the waits that were there. -/
theorem reckoned_budgetsWait {s old : State} (keeps : ∀ a b c, s.rcb? a = some b → old.rcb? a = some c →
    b.lowSpindles = c.lowSpindles ∧ b.lowArrays = c.lowArrays) : BudgetsWait old (reckoned s old) := by
  intro a b c hb hc
  have hb' := hb
  rw [reckoned_rcb?, Option.map_eq_some_iff] at hb'
  obtain ⟨b0, hb0, rfl⟩ := hb'
  obtain ⟨hs, ha⟩ := keeps a b0 c hb0 hc
  obtain rfl := rcb?_addr hb0
  rw [reckoned_effSpindles, reckoned_effArrays, reckoned_spindlesHeld, reckoned_arraysHeld]
  refine ⟨?_, ?_, ?_, ?_, ?_, ?_, fun hl sp acc idx => fits_lowered hb hl⟩ <;>
    simp only [unlowerBlock, lowerBlock, hs, ha, Bool.and_eq_true, Bool.or_eq_true, Bool.and_eq_false_iff, decide_eq_true_eq,
      decide_eq_false_iff_not, Nat.not_le]
  · exact fun h1 h2 => ⟨.inr ⟨h1, h2⟩, h2.le⟩
  · exact fun h1 h2 => ⟨.inr ⟨h1, h2⟩, h2.le⟩
  · exact .inr
  · exact .inr
  · exact fun h1 h2 => ⟨.inl h1, h2⟩
  · exact fun h1 h2 => ⟨.inl h1, h2⟩

/-- The write's retirement changes none of it. -/
theorem budgetsWait_coreRetire {s t : State} (n : Nat) (h : BudgetsWait s t) : BudgetsWait s (t.coreRetire n) := by
  intro a b old hb hold
  have spindles := spindlesHeld_of_rcbs (s := t) (t := t.coreRetire n) rfl rfl rfl a
  have arrays := arraysHeld_of_rcbs (s := t) (t := t.coreRetire n) rfl rfl rfl a
  obtain ⟨h1, h2, h3, h4, h5, h6, -⟩ := h a b old hb hold
  rw [effSpindles_of_rcbs (s := t) (t := t.coreRetire n) rfl, effArrays_of_rcbs (s := t) (t := t.coreRetire n) rfl, spindles, arrays]
  exact ⟨h1, h2, h3, h4, h5, h6, fun hl sp acc idx => fits_lowered hb hl⟩

/-! ### ctl.rcbsync (R60) -/

section
variable (v : Word) (s : State)

/-- The block that a sync reads in place of one. -/
def syncedRcb (old : Rcb) : Rcb :=
  { s.readRcb v.toNat with parent := old.parent, lowSpindles := old.lowSpindles, lowArrays := old.lowArrays }

/-- The part with the block of an address read again. -/
def synced (old : Rcb) : State := s.mapRcbs (syncBlock v.toNat (syncedRcb v s old))

theorem syncBlock_addr (old b : Rcb) : (syncBlock v.toNat (syncedRcb v s old) b).addr = b.addr := by
  unfold syncBlock
  split
  · next h => exact (beq_iff_eq.1 h).symm
  · rfl

theorem synced_rcb? (old : Rcb) (a : Nat) : (synced v s old).rcb? a = (s.rcb? a).map (syncBlock v.toNat (syncedRcb v s old)) :=
  mapRcbs_rcb? s (syncBlock_addr v s old) a

theorem synced_rcb?_same {old : Rcb} (h : s.rcb? v.toNat = some old) : (synced v s old).rcb? v.toNat = some (syncedRcb v s old) := by
  rw [synced_rcb?, h]
  simp [syncBlock, rcb?_addr h]

theorem synced_rcb?_other (old : Rcb) {a : Nat} (h : a ≠ v.toNat) : (synced v s old).rcb? a = s.rcb? a := by
  rw [synced_rcb?]
  cases hb : s.rcb? a with
  | none => rfl
  | some b => simp [syncBlock, rcb?_addr hb, h]

theorem synced_sameMap (old : Rcb) : SameMap s (synced v s old) := mapRcbs_sameMap ..

/-- A sync keeps the waits for lowered budgets. -/
theorem synced_keeps {old : Rcb} (h : s.rcb? v.toNat = some old) (a : Nat) (b c : Rcb) (hb : (synced v s old).rcb? a = some b)
    (hc : s.rcb? a = some c) : b.lowSpindles = c.lowSpindles ∧ b.lowArrays = c.lowArrays := by
  by_cases e : a = v.toNat
  · subst e
    rw [synced_rcb?_same v s h] at hb
    rw [h] at hc
    cases hb
    cases hc
    exact ⟨rfl, rfl⟩
  · rw [synced_rcb?_other v s old e, hc] at hb
    cases hb
    exact ⟨rfl, rfl⟩

end

section
variable {v : Word} {s : State} {n : Nat}

theorem coreWrite_rcbsync (n : Nat) (v : Word) (s : State) : coreWrite n 0x0101 v s =
    if fld v 0 6 == 0 && fld v 56 8 == 0 && !s.readsAll v.toNat 128 then .hold else .ok (writeRcbsync v s) := rfl

theorem fld_low (v : Word) : fld v 0 6 = v.toNat % 64 := by
  simp [fld, bitsOf]

theorem writeRcbsync_reserved (h : fld v 0 6 ≠ 0 ∨ fld v 56 8 ≠ 0) : writeRcbsync v s = s := by
  have bad : (fld v 0 6 != 0 || fld v 56 8 != 0) = true := by simpa using h
  simp [writeRcbsync, bad]

theorem writeRcbsync_unread (h : s.rcb? v.toNat = none) : writeRcbsync v s = s := by
  simp [writeRcbsync, h]

theorem writeRcbsync_read {old : Rcb} (h0 : fld v 0 6 = 0) (h56 : fld v 56 8 = 0) (h : s.rcb? v.toNat = some old) :
    writeRcbsync v s = if (synced v s old).chainOk v.toNat then reckoned (synced v s old) s else s := by
  simp only [writeRcbsync, h0, h56, h]
  rfl

/-- A sync that memory does not keep waiting, and what it leaves. -/
theorem coreStep_rcbsync {t : State} (h : CoreMay s n 0x0101) (hr : fld v 0 6 ≠ 0 ∨ fld v 56 8 ≠ 0 ∨ s.readsAll v.toNat 128 = true)
    (hw : writeRcbsync v s = t) (hc : t.cores = s.cores) : coreStep (.core n) 0x0101 true v s = t.coreRetire n := by
  have now : ¬(fld v 0 6 == 0 && fld v 56 8 == 0 && !s.readsAll v.toNat 128) = true := by
    simp only [Bool.and_eq_true, beq_iff_eq, Bool.not_eq_true']
    rintro ⟨⟨h0, h56⟩, hn⟩
    simp [h0, h56, hn] at hr
  exact coreStep_ok h (by decide) (by rw [coreWrite_rcbsync, if_neg now, hw]) hc

theorem regionWrites : RegionWrites := by
  intro s n v h
  simp only [← fld_low, ← fld_eq_bitsAt]
  refine ⟨fun hbad => ?_, fun h0 h56 hr => ?_, fun h0 h56 hr hn => ?_, fun old h0 h56 hold hr => ⟨fun hok => ?_, fun hok => ?_⟩⟩
  · exact congrArg Outcome.next (coreStep_rcbsync h (hbad.imp_right .inl) (writeRcbsync_reserved hbad) rfl)
  · have hw : coreWrite n 0x0101 v s = .hold := by rw [coreWrite_rcbsync, h0, h56, hr]; rfl
    exact congrArg Outcome.next (coreStep_hold h (by decide) hw)
  · exact congrArg Outcome.next (coreStep_rcbsync h (.inr (.inr hr)) (writeRcbsync_unread hn) rfl)
  · have hw : writeRcbsync v s = reckoned (synced v s old) s := (writeRcbsync_read h0 h56 hold).trans (if_pos hok)
    refine ⟨_, congrArg Outcome.next (coreStep_rcbsync h (.inr (.inr hr)) hw rfl), ?_, fun a ha => ?_,
      budgetsWait_coreRetire n (reckoned_budgetsWait (synced_keeps v s hold)),
      sameMemory_coreRetire ((synced_sameMap v s old).trans (reckoned_sameMap _ _)).memory, retires_coreRetire rfl⟩
    · change ((reckoned (synced v s old) s).rcb? v.toNat).map plainRcb = _
      rw [reckoned_rcb?, synced_rcb?_same v s hold]
      rfl
    · change ((reckoned (synced v s old) s).rcb? a).map plainRcb = _
      rw [reckoned_rcb?, synced_rcb?_other v s old ha, Option.map_map]
      rfl
  · have hw : writeRcbsync v s = s := (writeRcbsync_read h0 h56 hold).trans (if_neg (Bool.not_eq_true _ ▸ hok))
    exact congrArg Outcome.next (coreStep_rcbsync h (.inr (.inr hr)) hw rfl)

end

/-- Settles O46, part by part. -/
theorem coreMemoryWrites : Obligations.CoreMemoryWrites :=
  ⟨translationWrites, memoryUnitWrites, spaceWrites, rangeWrites, regionWrites⟩

end Sys2Proof.Machine
end

section
/-! PROOFS. The start of a skein in a free slot, and the release of its static entries (R47, R50, R71, R72). -/

namespace Sys2Proof.Machine

open Host (Outcome)
open Sys2Proof.Claims

/-! ### The release of static entries (R50, R117, R253) -/

/-- A skein is still that of its launch and index, and lives as it did. -/
structure Skein.SameName (k k' : Skein) : Prop where
  launch : k'.launch = k.launch
  index : k'.index = k.index
  life : k'.life = k.life

theorem Skein.SameName.refl (k : Skein) : k.SameName k := ⟨rfl, rfl, rfl⟩

theorem Skein.SameName.trans {k k' k'' : Skein} (h : k.SameName k') (g : k'.SameName k'') : k.SameName k'' :=
  ⟨g.launch.trans h.launch, g.index.trans h.index, g.life.trans h.life⟩

theorem releaseGo_sameName (l : Launch) (x : Spindle) (n seq : Nat) (k : Skein) : k.SameName (releaseGo l x n seq k).2 := by
  induction n generalizing seq k with
  | zero => exact .refl k
  | succ n ih =>
    unfold releaseGo
    split
    · exact .refl k
    · split
      · refine Skein.SameName.trans ?_ (ih _ _)
        exact ⟨rfl, rfl, rfl⟩
      · exact .refl k

theorem enterGo_sameName (l : Launch) (es : List (Nat × Nat × List Nat)) (k : Skein) (x : Spindle) : k.SameName (enterGo l es k x).1 := by
  induction es generalizing x with
  | nil => exact ⟨rfl, rfl, rfl⟩
  | cons e es ih =>
    simp only [enterGo]
    split
    · exact ⟨rfl, rfl, rfl⟩
    · exact ih _

/-- Of the spindle, entries change the copy queues alone. -/
theorem enterGo_spindle (l : Launch) (es : List (Nat × Nat × List Nat)) (k : Skein) (x : Spindle) :
    ∃ q, (enterGo l es k x).2 = { x with cq := q } := by
  induction es generalizing x with
  | nil => exact ⟨x.cq, rfl⟩
  | cons e es ih =>
    simp only [enterGo]
    split
    · exact ⟨x.cq, rfl⟩
    · obtain ⟨q, h⟩ := ih (x.enterCq (fld (nth l.lrec.copies e.1 (0, 0)).2 0 2)
        { staticCmd e.2.1 k e.1 (nth l.lrec.copies e.1 (0, 0)) with after := x.pendingOf e.2.2 })
      exact ⟨q, h⟩

theorem modNth_self {α : Type} {l : List α} {i : Nat} {d x : α} (h : nth l i d = x) : modNth l i (fun _ => x) = l := by
  subst h
  induction l generalizing i with
  | nil => rfl
  | cons y l ih => cases i with
    | zero => rfl
    | succ i => exact congrArg (y :: ·) ih

/-- A release changes spindles, and the numbering of operations. -/
theorem releaseStatic_outside (s : State) (sp slot : Nat) : ∃ seq sps, s.releaseStatic sp slot = { s with opSeq := seq, spindles := sps } := by
  unfold State.releaseStatic
  split
  · exact ⟨s.opSeq, s.spindles, rfl⟩
  · split
    · exact ⟨s.opSeq, s.spindles, rfl⟩
    · exact ⟨_, _, rfl⟩

/-- Of its spindle, the copy queues and the skein's slot. -/
theorem releaseStatic_spindle {s : State} {sp slot : Nat} {k : Skein} (h : s.skein? sp slot = some k) : ∃ q k', k.SameName k' ∧
    (s.releaseStatic sp slot).spindle sp = { s.spindle sp with cq := q, slots := modNth (s.spindle sp).slots slot fun _ => some k' } := by
  simp only [State.releaseStatic, h]
  split
  · exact ⟨(s.spindle sp).cq, k, .refl k, by rw [modNth_self h]⟩
  · have go := releaseGo_sameName (s.launch k.launch) (s.spindle sp) 16 s.opSeq (k.countStage (s.launch k.launch).width)
    generalize (releaseGo (s.launch k.launch) (s.spindle sp) 16 s.opSeq (k.countStage (s.launch k.launch).width)).2 = k1 at go
    obtain ⟨q, hq⟩ := enterGo_spindle (s.launch k.launch) k1.statWait k1 (s.spindle sp)
    refine ⟨q, _, .trans ⟨go.launch, go.index, go.life⟩ (enterGo_sameName (s.launch k.launch) k1.statWait k1 (s.spindle sp)), ?_⟩
    simp [State.setSkein, hq]

/-! ### A free slot (R72) -/

/-- A spindle with fewer than four skeins has a free slot. -/
theorem exists_free_slot {x : Spindle} (h : x.residents.length < 4) :
    ∃ slot, (List.range 4).find? (fun i => (nth x.slots i none).isNone) = some slot := by
  rw [← Option.isSome_iff_exists, List.find?_isSome]
  by_contra full
  have held : ∀ i < 4, nth x.slots i none ≠ none := fun i hi e => full ⟨i, List.mem_range.2 hi, by rw [e]; rfl⟩
  have len : 4 ≤ x.slots.length := by
    by_contra short
    exact held 3 (by omega) (List.getD_eq_default _ _ (by omega))
  have sub := (List.range_sublist.2 len).filterMap fun i => (nth x.slots i none).map fun k => (i, k)
  have four : ((List.range 4).filterMap fun i => (nth x.slots i none).map fun k => (i, k)).length = 4 := by
    rw [List.length_filterMap_eq_countP]
    refine List.countP_eq_length.2 fun i hi => ?_
    rw [Option.isSome_map, Option.isSome_iff_ne_none]
    exact held i (List.mem_range.1 hi)
  exact Nat.not_le.2 h (four ▸ sub.length_le)

/-! ### A skein becomes resident (R47, R72) -/

section
variable {s : State} {sp acc idx : Nat}

/-- A placement changes spindles, frames, launches and the numbering of operations. -/
theorem placeSkein_sameMap (s : State) (sp acc idx : Nat) : SameMap s (s.placeSkein sp acc idx) := by
  simp only [State.placeSkein]
  split
  · exact ⟨rfl, rfl, rfl, rfl, rfl⟩
  · next slot _ =>
    obtain ⟨seq, sps, e⟩ := releaseStatic_outside (if isBase sp then _ else _) sp slot
    rw [e]
    split <;> exact ⟨rfl, rfl, rfl, rfl, rfl⟩

/-- A skein as it starts, in a part that has given it its identity. -/
def starting (s : State) (sp acc idx : Nat) : Skein := startSkein s.fresh.2 sp (s.launch acc) idx s.fresh.1

/-- The launch of a skein that is placed. -/
def Launch.place (l : Launch) : Launch :=
  { l with placed := l.placed + 1, st := if l.placed + 1 = l.lrec.skeins then .draining else .running }

/-- A skein in its slot, before its static entries are released. -/
def seated (s : State) (sp acc idx slot : Nat) : State :=
  let t := (s.fresh.2.setSkein sp slot (some (starting s sp acc idx))).modLaunch acc Launch.place
  if isBase sp then t else t.touchFrame (sp / 16)

theorem placeSkein_eq {slot : Nat} (h : (List.range 4).find? (fun i => (nth (s.spindle sp).slots i none).isNone) = some slot) :
    s.placeSkein sp acc idx = (seated s sp acc idx slot).releaseStatic sp slot := by
  simp only [State.placeSkein, h]
  rfl

theorem seated_spindle (slot : Nat) : (seated s sp acc idx slot).spindle sp =
    { s.spindle sp with slots := modNth (s.spindle sp).slots slot fun _ => some (starting s sp acc idx) } := by
  have e : (seated s sp acc idx slot).spindle sp = (s.fresh.2.setSkein sp slot (some (starting s sp acc idx))).spindle sp := by
    unfold seated
    split <;> rfl
  rw [e]
  exact modSpindle_spindle ..

theorem seated_launch (slot : Nat) : (seated s sp acc idx slot).launch acc = (s.launch acc).place := by
  have e : (seated s sp acc idx slot).launch acc =
      ((s.fresh.2.setSkein sp slot (some (starting s sp acc idx))).modLaunch acc Launch.place).launch acc := by
    unfold seated
    split <;> rfl
  rw [e, modLaunch_launch]
  rfl

/-- Of a frame, a placement changes since when it would be idle. -/
theorem seated_frame (slot n : Nat) : ∃ i, (seated s sp acc idx slot).frame n = { s.frame n with idleSince := i } := by
  simp only [seated]
  split
  · exact ⟨(s.frame n).idleSince, rfl⟩
  · rw [State.touchFrame, modFrame_frame_eq]
    split
    · exact ⟨_, rfl⟩
    · exact ⟨(s.frame n).idleSince, rfl⟩

/-- The spindle of a placed skein. -/
theorem release_seated_spindle (slot : Nat) : ∃ q k, (starting s sp acc idx).SameName k ∧
    ((seated s sp acc idx slot).releaseStatic sp slot).spindle sp =
      { s.spindle sp with cq := q, slots := modNth (s.spindle sp).slots slot fun _ => some k } := by
  have at_ := seated_spindle (s := s) (sp := sp) (acc := acc) (idx := idx) slot
  cases hk : (seated s sp acc idx slot).skein? sp slot with
  | none =>
    refine ⟨(s.spindle sp).cq, _, .refl _, ?_⟩
    rw [show (seated s sp acc idx slot).releaseStatic sp slot = seated s sp acc idx slot by simp only [State.releaseStatic, hk], at_]
  | some k =>
    have mine : k = starting s sp acc idx := by
      have hl := slot_lt_of_skein? hk
      rw [State.skein?, at_] at hk
      rw [at_, modNth_length] at hl
      exact Option.some.inj (hk.symm.trans (nth_modNth_same _ _ _ _ hl))
    obtain ⟨q, k', hn, e⟩ := releaseStatic_spindle hk
    exact ⟨q, k', mine ▸ hn, by rw [e, at_, modNth_modNth]⟩

variable (h : (s.spindle sp).residents.length < 4)
include h

theorem placeSkein_placedOn (acc idx : Nat) : PlacedOn s (s.placeSkein sp acc idx) sp acc idx := by
  obtain ⟨slot, hs⟩ := exists_free_slot h
  obtain ⟨seq, sps, out⟩ := releaseStatic_outside (seated s sp acc idx slot) sp slot
  obtain ⟨q, k, hn, e⟩ := release_seated_spindle (s := s) (sp := sp) (acc := acc) (idx := idx) slot
  rw [placeSkein_eq hs]
  have launch : ((seated s sp acc idx slot).releaseStatic sp slot).launch acc = (s.launch acc).place := by
    rw [out]
    exact seated_launch slot
  refine ⟨congrArg Launch.placed launch, slot, k, List.mem_range.1 (List.mem_of_find?_eq_some hs), ?_, congrArg Spindle.slots e,
    hn.launch, hn.index, hn.life⟩
  have free := List.find?_some hs
  exact Option.isNone_iff_eq_none.1 free

/-- Of its spindle, a placement changes the slots and the copy queues. -/
theorem placeSkein_spindle (acc idx : Nat) : ∃ q l, (s.placeSkein sp acc idx).spindle sp = { s.spindle sp with cq := q, slots := l } := by
  obtain ⟨slot, hs⟩ := exists_free_slot h
  obtain ⟨q, k, -, e⟩ := release_seated_spindle (s := s) (sp := sp) (acc := acc) (idx := idx) slot
  exact ⟨q, _, by rw [placeSkein_eq hs, e]⟩

theorem placeSkein_frame (acc idx n : Nat) : ∃ i, (s.placeSkein sp acc idx).frame n = { s.frame n with idleSince := i } := by
  obtain ⟨slot, hs⟩ := exists_free_slot h
  obtain ⟨seq, sps, out⟩ := releaseStatic_outside (seated s sp acc idx slot) sp slot
  rw [placeSkein_eq hs, out]
  exact seated_frame slot n

end

/-- What is placed from a state that has the launches and slots of another is placed from that one. -/
theorem PlacedOn.of_same {s u t : State} {sp acc idx : Nat} (h : PlacedOn u t sp acc idx) (hl : u.launches = s.launches)
    (hs : (u.spindle sp).slots = (s.spindle sp).slots) : PlacedOn s t sp acc idx := by
  have launch : u.launch acc = s.launch acc := by simp only [State.launch, hl]
  obtain ⟨hp, slot, k, hlt, hn, ht, hk⟩ := h
  exact ⟨launch ▸ hp, slot, k, hlt, (skein?_of_slots hs slot) ▸ hn, hs ▸ ht, launch ▸ hk⟩

end Sys2Proof.Machine
end

section
/-! PROOFS. Dispatch, placement in order, theft and retirement (R55, R68 to R71, R77, R80, R364, R391). -/

namespace Sys2Proof.Machine

open Host (Outcome)
open Sys2Proof.Claims

/-! ### What fits, and the best of it (R70, R71, R390) -/

/-- A spindle that a skein fits has a free slot. -/
theorem residents_lt_of_fits {s : State} {sp acc idx : Nat} (h : s.fits sp acc idx = true) : (s.spindle sp).residents.length < 4 := by
  simp only [State.fits, Bool.and_eq_true] at h
  obtain ⟨⟨⟨⟨⟨⟨⟨⟨⟨⟨⟨⟨-, hlen⟩, -⟩, -⟩, -⟩, -⟩, -⟩, -⟩, -⟩, -⟩, -⟩, -⟩, -⟩ := h
  exact of_decide_eq_true hlen

theorem residents_lt_of_fitsOnBase {s : State} {sp acc : Nat} (h : s.fitsOnBase sp acc = true) : (s.spindle sp).residents.length < 4 := by
  simp only [State.fitsOnBase, Bool.and_eq_true] at h
  obtain ⟨⟨⟨-, he⟩, -⟩, -⟩ := h
  rw [List.isEmpty_iff.1 he]
  decide

/-- A choice among the members of a list is one of them. -/
theorem foldl_choice_mem {α : Type} (p : α → α → Bool) (l : List α) (a : α) :
    l.foldl (fun best x => if p x best then x else best) a ∈ a :: l := by
  induction l generalizing a with
  | nil => simp
  | cons x l ih =>
    rw [List.foldl_cons]
    split
    · exact List.mem_cons_of_mem a (ih x)
    · have := ih a
      simp only [List.mem_cons] at this ⊢
      tauto

/-- The first of some spindles in the order of R71. -/
def State.bestOf (s : State) (region : Nat) : List Nat → Option Nat
  | [] => none
  | sp :: l => some (l.foldl (fun best x => if s.before region x best then x else best) sp)

theorem bestSpindle_eq (s : State) (n acc idx : Nat) :
    s.bestSpindle n acc idx = s.bestOf (s.launch acc).lrec.region.toNat (s.fitting n acc idx) := by
  rfl

theorem bestOf_mem {s : State} {region sp : Nat} {l : List Nat} (h : s.bestOf region l = some sp) : sp ∈ l := by
  cases l with
  | nil => cases h
  | cons q l => exact Option.some.inj h ▸ foldl_choice_mem (s.before region) l q

/-- The spindle of R71 is one of the frame, and the skein fits it. -/
theorem bestSpindle_some {s : State} {n acc idx sp : Nat} (h : s.bestSpindle n acc idx = some sp) : s.fits sp acc idx = true ∧ sp / 16 = n := by
  have mem : sp ∈ s.fitting n acc idx := bestOf_mem (bestSpindle_eq s n acc idx ▸ h)
  simp only [State.fitting, List.mem_filter, List.mem_map, List.mem_range] at mem
  obtain ⟨⟨i, hi, rfl⟩, hf⟩ := mem
  exact ⟨hf, by omega⟩

/-! ### A skein leaves a frame's queue for a spindle -/

/-- A skein of a frame's queue is placed, the frame's choice having left these credits. -/
def dispatchTo (s : State) (n acc idx sp : Nat) (credit : List (Nat × Nat × Int)) : State :=
  (s.modFrame n fun f => { f.leave (acc, idx) with credit := credit }).placeSkein sp acc idx

theorem modFrame_sameMap (s : State) (n : Nat) (g : Frame → Frame) : SameMap s (s.modFrame n g) := ⟨rfl, rfl, rfl, rfl, rfl⟩

/-- A placement after something of a frame has changed. -/
theorem modFrame_placedOn {s : State} {sp : Nat} (h : (s.spindle sp).residents.length < 4) (n : Nat) (g : Frame → Frame) (acc idx : Nat) :
    PlacedOn s ((s.modFrame n g).placeSkein sp acc idx) sp acc idx :=
  PlacedOn.of_same (u := s.modFrame n g) (placeSkein_placedOn (s := s.modFrame n g) h acc idx) rfl rfl

section
variable {s : State} {n acc idx sp : Nat} {credit : List (Nat × Nat × Int)} (hf : s.fits sp acc idx = true)
include hf

theorem dispatchTo_placedOn : PlacedOn s (dispatchTo s n acc idx sp credit) sp acc idx :=
  modFrame_placedOn (residents_lt_of_fits hf) n _ acc idx

theorem dispatchTo_frame : ∃ i, (dispatchTo s n acc idx sp credit).frame n =
    { (s.frame n).leave (acc, idx) with credit := credit, idleSince := i } := by
  have room : ((s.modFrame n fun f => { f.leave (acc, idx) with credit := credit }).spindle sp).residents.length < 4 :=
    residents_lt_of_fits (s := s) hf
  obtain ⟨i, e⟩ := placeSkein_frame room acc idx n
  exact ⟨i, by rw [dispatchTo, e, modFrame_frame]⟩

end

theorem dispatchTo_sameMap (s : State) (n acc idx sp : Nat) (credit : List (Nat × Nat × Int)) : SameMap s (dispatchTo s n acc idx sp credit) :=
  (modFrame_sameMap s n _).trans (placeSkein_sameMap ..)

/-! ### A decision (R68, R69) -/

/-- The part with a decision's bookkeeping done. -/
def decided (s : State) (n : Nat) : State := (s.modFrame n fun f => { f with decideAt := s.time }).starveStep n

section
variable (s : State) (n : Nat)

theorem starveStep_outside : ∃ fs, s.starveStep n = { s with frames := fs } := ⟨_, rfl⟩

theorem starveStep_frame : ∃ st r, (s.starveStep n).frame n = { s.frame n with starve := st, resv := r } := by
  simp only [State.starveStep, modFrame_frame, setFrame_frame]
  exact ⟨_, _, rfl⟩

theorem decided_outside : ∃ fs, decided s n = { s with frames := fs } := ⟨_, rfl⟩

theorem decided_frame : ∃ st r, (decided s n).frame n = { s.frame n with decideAt := s.time, starve := st, resv := r } := by
  obtain ⟨st, r, e⟩ := starveStep_frame (s.modFrame n fun f => { f with decideAt := s.time }) n
  exact ⟨st, r, by rw [decided, e, modFrame_frame]⟩

theorem decided_sameMap : SameMap s (decided s n) := ⟨rfl, rfl, rfl, rfl, rfl⟩

/-- What follows the bookkeeping of a decision. -/
def dispatch : State :=
  match s.choose (s.frame n) (s.candidates n) with
  | none => s
  | some (acc, credit) =>
    match (s.frame n).head acc with
    | none => s
    | some idx =>
      match s.bestSpindle n acc idx with
      | none => s
      | some sp => dispatchTo s n acc idx sp credit

end

/-- A decision is due: the frame is there and in A0, and its last one is 50 ns ago. -/
theorem exec_dispatchDecision {s : State} {n : Nat} (hn : n < s.nFrames) (h0 : (s.frame n).st = 0) (hg : (s.frame n).gating = false)
    (ht : (s.frame n).decideAt + 50 ≤ s.time) : exec (.dispatchDecision n) s = .next (dispatch (decided s n) n) := by
  show execDispatchDecision n s = _
  have there : ¬s.nFrames ≤ n := Nat.not_le.2 hn
  have due : ((s.frame n).st != 0 || (s.frame n).gating || decide (s.time < (s.frame n).decideAt + 50)) = false := by simp [h0, hg, ht]
  simp only [execDispatchDecision, there, if_false, due, Bool.false_eq_true]
  rw [← decided]
  cases hc : (decided s n).choose ((decided s n).frame n) ((decided s n).candidates n) with
  | none => simp only [dispatch, hc]
  | some q =>
    cases hh : ((decided s n).frame n).head q.1 with
    | none => simp only [dispatch, hc, hh]
    | some idx => cases hb : (decided s n).bestSpindle n q.1 idx <;> simp only [dispatch, hc, hh, hb, dispatchTo]

/-- A decision places the skein that R68 chooses, and no other. -/
theorem dispatch_some {s : State} {n acc idx sp : Nat} {credit : List (Nat × Nat × Int)}
    (hc : s.choose (s.frame n) (s.candidates n) = some (acc, credit)) (hh : (s.frame n).head acc = some idx)
    (hb : s.bestSpindle n acc idx = some sp) : dispatch s n = dispatchTo s n acc idx sp credit := by
  simp only [dispatch, hc, hh, hb]

theorem dispatch_cases (s : State) (n : Nat) : dispatch s n = s ∨ ∃ acc idx sp credit, (s.frame n).head acc = some idx ∧
    s.bestSpindle n acc idx = some sp ∧ dispatch s n = dispatchTo s n acc idx sp credit := by
  unfold dispatch
  split
  · exact .inl rfl
  · next acc credit _ =>
    split
    · exact .inl rfl
    · next idx hh =>
      split
      · exact .inl rfl
      · next sp hb => exact .inr ⟨acc, idx, sp, credit, hh, hb, rfl⟩

theorem dispatched : Dispatched := by
  intro s n hn h0 hg ht s'
  have map := decided_sameMap s n
  obtain ⟨st, r, frame⟩ := decided_frame s n
  have queue : ((decided s n).frame n).queue = (s.frame n).queue := by rw [frame]
  have head (acc : Nat) : ((decided s n).frame n).head acc = (s.frame n).head acc := by simp only [Frame.head, queue]
  have at_ : ((decided s n).frame n).decideAt = s.time := by rw [frame]
  have place {acc idx sp : Nat} (credit : List (Nat × Nat × Int)) (hb : (decided s n).bestSpindle n acc idx = some sp) :
      PlacedOn s (dispatchTo (decided s n) n acc idx sp credit) sp acc idx ∧
        ((dispatchTo (decided s n) n acc idx sp credit).frame n).queue = (s.frame n).queue.erase (acc, idx) ∧
        ((dispatchTo (decided s n) n acc idx sp credit).frame n).credit = credit ∧
        ((dispatchTo (decided s n) n acc idx sp credit).frame n).decideAt = s.time := by
    have hf := (bestSpindle_some hb).1
    obtain ⟨i, e⟩ := dispatchTo_frame (n := n) (credit := credit) hf
    refine ⟨PlacedOn.of_same (u := decided s n) (dispatchTo_placedOn hf) rfl rfl, ?_, ?_, ?_⟩
    · rw [e]
      exact congrArg (List.erase · (acc, idx)) queue
    · rw [e]
    · rw [e]
      exact at_
  refine ⟨_, exec_dispatchDecision hn h0 hg ht, ?_, ?_, fun acc idx sp credit hc hh hb => ?_, ?_⟩
  · obtain e | ⟨acc, idx, sp, credit, -, hb, e⟩ := dispatch_cases (decided s n) n <;> rw [e]
    · exact at_
    · exact (place credit hb).2.2.2
  · obtain e | ⟨acc, idx, sp, credit, -, -, e⟩ := dispatch_cases (decided s n) n <;> rw [e]
    · exact map.memory
    · exact (map.trans (dispatchTo_sameMap ..)).memory
  · rw [dispatch_some (s := decided s n) hc hh hb]
    obtain ⟨hp, hq, hcr, -⟩ := place credit hb
    exact ⟨hp, hq, hcr⟩
  · obtain e | ⟨acc, idx, sp, credit, hh, hb, e⟩ := dispatch_cases (decided s n) n <;> rw [e]
    · exact .inl ⟨rfl, queue⟩
    · obtain ⟨hp, hq, -, -⟩ := place credit hb
      exact .inr ⟨acc, idx, sp, (head acc) ▸ hh, (bestSpindle_some hb).2, hp, hq⟩

/-! ### Placement in order (R80, R391) -/

theorem exec_deterministicPlace {s : State} {acc n sp : Nat} {l : Launch} {credit : List (Nat × Nat × Int)} (hl : aget? s.launches acc = some l)
    (hr : s.detReady l = true) (hf : s.detFrame l = some n) (hc : s.choose (s.frame n) (s.candidates n) = some (acc, credit))
    (hb : s.bestSpindle n acc l.placed = some sp) : exec (.deterministicPlace acc) s =
      .next ((s.modFrame n fun f => { f with credit := credit }).placeSkein sp acc l.placed) := by
  show execDeterministicPlace acc s = _
  simp [execDeterministicPlace, hl, hr, hf, hc, hb]

theorem exec_baseSpindlePlace {s : State} {acc sp : Nat} {l : Launch} (hl : aget? s.launches acc = some l) (hb : l.base = some sp)
    (hr : l.result = none) (hst : l.st = .queued ∨ l.st = .running) (hp : l.placed < l.lrec.skeins) (hf : s.fitsOnBase sp acc = true) :
    exec (.baseSpindlePlace acc) s = .next (s.placeSkein sp acc l.placed) := by
  show execBaseSpindlePlace acc s = _
  have may : (l.result.isSome || !(l.st == .queued || l.st == .running) || decide (l.lrec.skeins ≤ l.placed) || !s.fitsOnBase sp acc) = false := by
    obtain hst | hst := hst <;> simp [hr, hst, hp, hf]
  simp only [execBaseSpindlePlace, hl, hb, may, Bool.false_eq_true, if_false]

theorem placedInOrder : PlacedInOrder := by
  refine ⟨fun s acc n sp l credit hl hr hf hc hb => ?_, fun s acc sp l hl hb hr hst hp hf => ?_⟩
  · have room := residents_lt_of_fits (bestSpindle_some hb).1
    exact ⟨_, exec_deterministicPlace hl hr hf hc hb, modFrame_placedOn room n _ acc l.placed,
      ((modFrame_sameMap s n _).trans (placeSkein_sameMap ..)).memory⟩
  · exact ⟨_, exec_baseSpindlePlace hl hb hr hst hp hf, placeSkein_placedOn (residents_lt_of_fitsOnBase hf) acc l.placed,
      (placeSkein_sameMap s sp acc l.placed).memory⟩

end Sys2Proof.Machine
end

section
/-! PROOFS. Theft and retirement (R77, R364), and the obligation on placement. -/

namespace Sys2Proof.Machine

open Host (Outcome)
open Sys2Proof.Claims

/-! ### What a store and the records of an epoch change (R367) -/

theorem putEach_outside (s : State) (pa : Nat) (l : List Byte) : ∃ m r, s.putEach pa l = { s with mem := m, remote := r } := by
  induction l generalizing s pa with
  | nil => exact ⟨s.mem, s.remote, rfl⟩
  | cons b l ih =>
    have put : ∃ m r, s.paPut pa b = { s with mem := m, remote := r } := by
      obtain ⟨-, -, e⟩ | ⟨-, -, e⟩ | ⟨-, e⟩ := paPut_cases s pa b <;> rw [e]
      · exact ⟨_, s.remote, rfl⟩
      · exact ⟨s.mem, s.remote, rfl⟩
      · exact ⟨s.mem, _, rfl⟩
    obtain ⟨m, r, e⟩ := put
    obtain ⟨m', r', e'⟩ := ih { s with mem := m, remote := r } (pa + 1)
    exact ⟨m', r', by rw [State.putEach, e, e']⟩

/-- A store changes memory, and what is known of the entries there. -/
theorem paPutBytes_outside (s : State) (pa : Nat) (l : List Byte) :
    ∃ m r k, s.paPutBytes pa l = { s with mem := m, remote := r, known := k } := by
  obtain ⟨m, r, e⟩ := putEach_outside s pa l
  exact ⟨m, r, s.entryStores (s.putEach pa l) pa l.length ++ s.known, by rw [State.paPutBytes, e]⟩

/-- Two states with the same launches and spindles. -/
def SameJobs (s t : State) : Prop := t.launches = s.launches ∧ t.spindles = s.spindles

theorem SameJobs.refl (s : State) : SameJobs s s := ⟨rfl, rfl⟩

theorem SameJobs.trans {s t u : State} (h : SameJobs s t) (g : SameJobs t u) : SameJobs s u := ⟨g.1.trans h.1, g.2.trans h.2⟩

theorem SameJobs.skein? {s t : State} (h : SameJobs s t) (q j : Nat) : t.skein? q j = s.skein? q j := by
  simp only [State.skein?, State.spindle, h.2]

theorem paWrite_sameJobs (s : State) (a n : Nat) (v : Word) : SameJobs s (s.paWrite a n v) := by
  obtain ⟨m, r, k, e⟩ := paPutBytes_outside s a (natBytes n v.toNat)
  rw [State.paWrite, e]
  exact ⟨rfl, rfl⟩

theorem strHead_sameJobs (s : State) (n : Nat) : SameJobs s { s with strHead := n } := ⟨rfl, rfl⟩

theorem strWrite_sameJobs (s : State) (r : List Word) : SameJobs s (s.strWrite r) := by
  let a := ringBase s.string + 32 * s.strHead
  have stores := (((paWrite_sameJobs s a 8 (nth r 0 0)).trans (paWrite_sameJobs _ (a + 8) 8 (nth r 1 0))).trans
    (paWrite_sameJobs _ (a + 16) 8 (nth r 2 0))).trans (paWrite_sameJobs _ (a + 24) 8 (nth r 3 0))
  exact stores.trans (strHead_sameJobs _ (ringNext s.string s.strHead))

theorem strPut_sameJobs (s : State) (acc : Nat) (rs : List (List Word)) : SameJobs s (s.strPut acc rs) := by
  have each (l : List (List Word)) (s : State) : SameJobs s (l.foldl State.strWrite s) := by
    induction l generalizing s with
    | nil => exact .refl s
    | cons r l ih => exact (strWrite_sameJobs s r).trans (ih _)
  unfold State.strPut
  split
  · split
    · exact each rs s
    · exact ⟨rfl, rfl⟩
  · exact ⟨rfl, rfl⟩

/-! ### The epochs of a skein close (R366) -/

/-- Two states with the same launches, and the same skeins but for one. -/
structure SameBut (sp slot : Nat) (s t : State) : Prop where
  launches : t.launches = s.launches
  skein? : ∀ q j, ¬(q = sp ∧ j = slot) → t.skein? q j = s.skein? q j

theorem SameBut.refl (sp slot : Nat) (s : State) : SameBut sp slot s s := ⟨rfl, fun _ _ _ => rfl⟩

theorem SameBut.trans {sp slot : Nat} {s t u : State} (h : SameBut sp slot s t) (g : SameBut sp slot t u) : SameBut sp slot s u :=
  ⟨g.launches.trans h.launches, fun q j hn => (g.skein? q j hn).trans (h.skein? q j hn)⟩

theorem SameJobs.sameBut {s t : State} (h : SameJobs s t) (sp slot : Nat) : SameBut sp slot s t := ⟨h.1, fun q j _ => h.skein? q j⟩

theorem passCycles_sameBut (s : State) (sp slot : Nat) : SameBut sp slot s (s.passCycles sp) :=
  ⟨rfl, fun q j _ => skein?_of_slots (passCycles_slots s sp q) j⟩

theorem modTile_sameBut (s : State) (sp slot t : Nat) (g : Tile → Tile) : SameBut sp slot s (s.modTile sp slot t g) :=
  ⟨modSkein_launches .., fun q j hn => modSkein_skein?_other s sp slot q j _ hn⟩

theorem stampClose_sameBut (s : State) (sp slot t e : Nat) : SameBut sp slot s (s.stampClose sp slot t e) := by
  refine (passCycles_sameBut s sp slot).trans ?_
  simp only [State.stampClose]
  split
  · exact .refl ..
  · split
    · exact .refl ..
    · refine SameBut.trans ?_ (modTile_sameBut ..)
      split
      · exact .refl ..
      · exact (strPut_sameJobs ..).sameBut sp slot

theorem stampAll_sameBut (sp slot e : Nat) (l : List Nat) (s : State) :
    SameBut sp slot s (l.foldl (fun (s : State) t => s.stampClose sp slot t e) s) := by
  induction l generalizing s with
  | nil => exact .refl ..
  | cons t l ih => exact (stampClose_sameBut s sp slot t e).trans (ih _)

/-! ### Theft (R77) -/

/-- The spindle of a request gets nothing. -/
def unanswered (s : State) (sp : Nat) : State := s.modSpindle sp fun x => { x with steal := none, stealAt := s.time + 1000 }

/-- The tail of a frame's queue is given to a spindle that asked. -/
def given (s : State) (sp v acc idx : Nat) : State :=
  ((s.modSpindle sp fun x => { x with steal := none }).modFrame v fun f => f.leave (acc, idx)).touchFrame v

theorem exec_stealRequest {s : State} {sp v : Nat} (hc : s.computeSpindle sp = true) (hv : v < s.nFrames) (hne : v ≠ sp / 16)
    (hm : s.mayAsk sp = true) : exec (.stealRequest sp v) s = .next (s.modSpindle sp fun x => { x with steal := some v }) := by
  show execStealRequest sp v s = _
  simp [execStealRequest, hc, Nat.not_le.2 hv, hne, hm]

section
variable {s : State} {sp v : Nat} (hc : s.computeSpindle sp = true) (hs : (s.spindle sp).steal = some v)
include hc hs

theorem exec_stealAnswer_none (h : s.choose (s.frame v) (s.frame v).accs = none) : exec (.stealAnswer sp) s = .next (unanswered s sp) := by
  show execStealAnswer sp s = _
  simp only [execStealAnswer, hc, hs, h, Bool.not_true, Bool.false_eq_true, if_false, unanswered]

variable {acc idx : Nat} {credit : List (Nat × Nat × Int)} (h : s.choose (s.frame v) (s.frame v).accs = some (acc, credit))
  (ht : (s.frame v).tail acc = some idx)
include h ht

theorem exec_stealAnswer_unfit (hf : s.fits sp acc idx = false) : exec (.stealAnswer sp) s = .next (unanswered s sp) := by
  show execStealAnswer sp s = _
  simp only [execStealAnswer, hc, hs, h, ht, hf, Bool.not_true, Bool.not_false, Bool.false_eq_true, if_false, if_true, unanswered]

theorem exec_stealAnswer_given (hf : s.fits sp acc idx = true) :
    exec (.stealAnswer sp) s = .next ((given s sp v acc idx).placeSkein sp acc idx) := by
  show execStealAnswer sp s = _
  simp only [execStealAnswer, hc, hs, h, ht, hf, Bool.not_true, Bool.false_eq_true, if_false, given]

end

section
variable (s : State) (sp v acc idx : Nat)

theorem unanswered_spindle : (unanswered s sp).spindle sp = { s.spindle sp with steal := none, stealAt := s.time + 1000 } :=
  modSpindle_spindle ..

theorem given_spindle : (given s sp v acc idx).spindle sp = { s.spindle sp with steal := none } :=
  modSpindle_spindle s sp fun x : Spindle => { x with steal := none }

theorem given_frame : (given s sp v acc idx).frame v = { (s.frame v).leave (acc, idx) with idleSince := s.time } := by
  rw [given, State.touchFrame, modFrame_frame, modFrame_frame]
  rfl

end

theorem stolen : Stolen := by
  refine ⟨fun s sp v hc hv hne hm => ?_, fun s sp v hc hs => ⟨fun h => ?_, fun acc idx credit h ht => ⟨fun hf => ?_, fun hf => ?_⟩⟩⟩
  · exact ⟨_, exec_stealRequest hc hv hne hm, by rw [modSpindle_spindle], fun q hq => modSpindle_spindle_other _ _ _ _ hq⟩
  · exact ⟨_, exec_stealAnswer_none hc hs h, by rw [unanswered_spindle], by rw [unanswered_spindle], rfl⟩
  · have at_ := given_spindle s sp v acc idx
    have room : ((given s sp v acc idx).spindle sp).residents.length < 4 := at_ ▸ residents_lt_of_fits hf
    obtain ⟨q, l, e⟩ := placeSkein_spindle room acc idx
    obtain ⟨i, ef⟩ := placeSkein_frame room acc idx v
    refine ⟨_, exec_stealAnswer_given hc hs h ht hf, by rw [e, at_], ?_, by rw [ef, given_frame]; rfl⟩
    exact PlacedOn.of_same (u := given s sp v acc idx) (placeSkein_placedOn room acc idx) rfl (by rw [at_])
  · exact ⟨_, exec_stealAnswer_unfit hc hs h ht hf, by rw [unanswered_spindle], by rw [unanswered_spindle], rfl⟩

/-! ### Retirement (R55, R364) -/

/-- A skein has left its slot, its epochs closed. -/
def vacated (s : State) (sp slot e : Nat) : State :=
  ((((List.range 16).foldl (fun (s : State) t => s.stampClose sp slot t e) s).keepLast sp slot).modSpindle sp fun x => x.vacate slot).unlower

/-- A launch counts a skein that has retired. -/
def Launch.retire (l : Launch) : Launch :=
  { l with retired := l.retired + 1
           result := if l.retired + 1 = l.lrec.skeins then some (if l.anyEnded then .ended else .doneOk) else l.result }

theorem nth_modNth_none {α : Type} (l : List (Option α)) (i : Nat) : nth (modNth l i fun _ => none) i none = none := by
  by_cases h : i < l.length
  · exact nth_modNth_same _ _ _ _ h
  · exact List.getD_eq_default _ _ (by rw [modNth_length]; omega)

theorem vacate_slot (x : Spindle) (slot : Nat) : nth (x.vacate slot).slots slot none = none := nth_modNth_none x.slots slot

theorem vacated_skein? (s : State) (sp slot e : Nat) : (vacated s sp slot e).skein? sp slot = none := by
  rw [vacated, unlower_skein?, State.skein?, modSpindle_spindle]
  exact vacate_slot _ slot

theorem vacate_sameBut (s : State) (sp slot : Nat) : SameBut sp slot s (s.modSpindle sp fun x => x.vacate slot) := by
  refine ⟨rfl, fun q j hn => ?_⟩
  by_cases hq : q = sp
  · subst hq
    rw [State.skein?, modSpindle_spindle]
    exact nth_modNth_other _ _ _ _ _ fun e => hn ⟨rfl, e⟩
  · rw [State.skein?, modSpindle_spindle_other _ _ _ _ hq]
    rfl

theorem keepLast_sameBut (s : State) (sp slot : Nat) : SameBut sp slot s (s.keepLast sp slot) := by
  obtain ⟨x, e⟩ := keepLast_outside s sp slot
  exact ⟨by rw [e], fun q j _ => keepLast_skein? ..⟩

theorem unlower_sameBut (s : State) (sp slot : Nat) : SameBut sp slot s s.unlower := ⟨rfl, fun q j _ => unlower_skein? s q j⟩

theorem vacated_sameBut (s : State) (sp slot e : Nat) : SameBut sp slot s (vacated s sp slot e) := by
  have left := ((stampAll_sameBut sp slot e (List.range 16) s).trans (keepLast_sameBut _ sp slot)).trans (vacate_sameBut _ sp slot)
  exact left.trans (unlower_sameBut _ sp slot)

/-- A skein that may retire does, and its launch counts it. -/
theorem exec_skeinRetire {s : State} {sp slot : Nat} {k : Skein} (hk : s.skein? sp slot = some k) (hm : s.mayRetire sp k = true) :
    ∃ t, exec (.skeinRetire sp slot) s = .next t ∧
      t.launches = ((vacated s sp slot (if k.life == .ended then 2 else 1)).modLaunch k.launch Launch.retire).launches ∧
      t.spindles = (vacated s sp slot (if k.life == .ended then 2 else 1)).spindles := by
  show ∃ t, execSkeinRetire sp slot s = .next t ∧ _
  simp only [execSkeinRetire, hk, hm, Bool.not_true, Bool.false_eq_true, if_false]
  rw [← vacated]
  generalize vacated s sp slot _ = u
  refine ⟨_, rfl, ?_, ?_⟩ <;> split <;> rfl

theorem retired : Retired := by
  intro s sp slot k l hk hm hl
  obtain ⟨t, ht, launches, spindles⟩ := exec_skeinRetire hk hm
  have left := vacated_sameBut s sp slot (if k.life == .ended then 2 else 1)
  have free := vacated_skein? s sp slot (if k.life == .ended then 2 else 1)
  generalize vacated s sp slot (if k.life == .ended then 2 else 1) = u at launches spindles left free
  have skein (q j : Nat) : t.skein? q j = u.skein? q j := by simp only [State.skein?, State.spindle, spindles]
  have old : u.launch k.launch = l := by simp only [State.launch, left.launches, agetD, hl, Option.getD_some]
  have new : t.launch k.launch = l.retire := by
    rw [← old, ← modLaunch_launch u k.launch Launch.retire]
    simp only [State.launch, launches]
  exact ⟨t, ht, (skein sp slot).trans free, by rw [new]; rfl, by rw [new]; rfl, fun q j hn => (skein q j).trans (left.skein? q j hn)⟩

/-- Settles O42, part by part. -/
theorem placementSteps : Obligations.PlacementSteps := ⟨dispatched, placedInOrder, stolen, retired⟩

end Sys2Proof.Machine
end

section
/-! PROOFS. Dealing (R66, R67), and dependences (R54). -/

namespace Sys2Proof.Machine

open Host (Outcome)
open Sys2Proof.Claims

/-! ### The skeins of the chunks of a frame (R66) -/

/-- Numbers taken four at a time are those taken singly. -/
theorem flatMap_chunks {α : Type} (p : Nat → Bool) (n m : Nat) (f : Nat → α) :
    ((List.range m).filter p).flatMap (fun c => ((List.range 4).map (4 * c + ·)).filter (fun i => decide (i < n)) |>.map f) =
      ((List.range (4 * m)).filter fun i => decide (i < n) && p (i / 4)).map f := by
  induction m with
  | zero => rfl
  | succ m ih =>
    have chunk : List.range (4 * (m + 1)) = List.range (4 * m) ++ (List.range 4).map (4 * m + ·) := List.range_add ..
    have mine : ((List.range 4).map (4 * m + ·)).filter (fun i => decide (i < n) && p (i / 4)) =
        ((List.range 4).map (4 * m + ·)).filter fun i => decide (i < n) && p m := by
      refine List.filter_congr fun i hi => ?_
      obtain ⟨r, hr, rfl⟩ := List.mem_map.1 hi
      rw [show (4 * m + r) / 4 = m by have := List.mem_range.1 hr; omega]
    rw [List.range_succ (n := m), List.filter_append, List.flatMap_append, ih, chunk, List.filter_append, List.map_append, mine]
    cases h : p m <;> simp [h]

/-- The skeins of a frame's chunks are those whose chunk the frame gets. -/
theorem dealtTo_eq (acc n ptr frames j : Nat) : dealtTo acc n ptr frames j =
    ((List.range n).filter fun i => (ptr + i / 4) % frames == j).map fun i => (acc, i) := by
  have chunks := flatMap_chunks (fun c => (ptr + c) % frames == j) n ((n + 3) / 4) fun i => (acc, i)
  have all : ((List.range (4 * ((n + 3) / 4))).filter fun i => decide (i < n) && ((ptr + i / 4) % frames == j)) =
      (List.range n).filter fun i => (ptr + i / 4) % frames == j := by
    rw [show 4 * ((n + 3) / 4) = n + (4 * ((n + 3) / 4) - n) by omega, List.range_add, List.filter_append,
      List.filter_congr (q := fun i => (ptr + i / 4) % frames == j) fun i hi => by simp [List.mem_range.1 hi]]
    simp
  rw [all] at chunks
  rw [← chunks, dealtTo]
  congr 1
  funext c
  rw [List.filter_map, List.filter_map, List.map_map]
  rfl

/-! ### Each frame gets its chunks -/

/-- A frame of those that skeins are dealt to gets its chunks. -/
def dealStep (acc n ptr : Nat) (fs : List Nat) (s : State) (j : Nat) : State :=
  let q := dealtTo acc n ptr fs.length j
  if q.isEmpty then s else (s.modFrame (nth fs j 0) fun f => { f with queue := f.queue ++ q }).touchFrame (nth fs j 0)

/-- The first k of them have got theirs. -/
def dealSome (acc n ptr : Nat) (fs : List Nat) (s : State) (k : Nat) : State := (List.range k).foldl (dealStep acc n ptr fs) s

section
variable (acc n ptr : Nat) (fs : List Nat) (s : State) (j : Nat)

theorem dealStep_outside : ∃ f, dealStep acc n ptr fs s j = { s with frames := f } := by
  simp only [dealStep]
  split
  · exact ⟨s.frames, rfl⟩
  · exact ⟨_, rfl⟩

theorem dealStep_frame_other {m : Nat} (h : m ≠ nth fs j 0) : (dealStep acc n ptr fs s j).frame m = s.frame m := by
  simp only [dealStep]
  split
  · rfl
  · rw [State.touchFrame, modFrame_frame_other _ _ _ _ h, modFrame_frame_other _ _ _ _ h]

theorem dealStep_queue : ((dealStep acc n ptr fs s j).frame (nth fs j 0)).queue = (s.frame (nth fs j 0)).queue ++ dealtTo acc n ptr fs.length j := by
  simp only [dealStep]
  split
  · next h => rw [List.isEmpty_iff.1 h, List.append_nil]
  · rw [State.touchFrame, modFrame_frame, modFrame_frame]

theorem dealSome_succ (k : Nat) : dealSome acc n ptr fs s (k + 1) = dealStep acc n ptr fs (dealSome acc n ptr fs s k) k := by
  rw [dealSome, List.range_succ, List.foldl_append]
  rfl

/-- Dealing changes frames alone. -/
theorem dealSome_outside (k : Nat) : ∃ f, dealSome acc n ptr fs s k = { s with frames := f } := by
  induction k with
  | zero => exact ⟨s.frames, rfl⟩
  | succ k ih =>
    obtain ⟨f, e⟩ := ih
    obtain ⟨f', e'⟩ := dealStep_outside acc n ptr fs { s with frames := f } k
    exact ⟨f', by rw [dealSome_succ, e, e']⟩

theorem dealSome_frame_other {m : Nat} (k : Nat) (h : ∀ j < k, m ≠ nth fs j 0) : (dealSome acc n ptr fs s k).frame m = s.frame m := by
  induction k with
  | zero => rfl
  | succ k ih => rw [dealSome_succ, dealStep_frame_other _ _ _ _ _ _ (h k (by omega)), ih fun j hj => h j (by omega)]

/-- Each frame gets its chunks once. -/
theorem dealSome_queue (nodup : fs.Nodup) {j k : Nat} (hj : j < k) (hk : k ≤ fs.length) :
    ((dealSome acc n ptr fs s k).frame (nth fs j 0)).queue = (s.frame (nth fs j 0)).queue ++ dealtTo acc n ptr fs.length j := by
  have apart {i i' : Nat} (hi : i < fs.length) (hi' : i' < fs.length) (hne : i ≠ i') : nth fs i 0 ≠ nth fs i' 0 := by
    rw [nth, nth, List.getD_eq_getElem _ _ hi, List.getD_eq_getElem _ _ hi']
    exact fun e => hne ((nodup.getElem_inj_iff).1 e)
  induction k with
  | zero => omega
  | succ k ih =>
    rw [dealSome_succ]
    by_cases e : j = k
    · subst e
      rw [dealStep_queue, dealSome_frame_other _ _ _ _ _ _ fun i hi => apart (by omega) (by omega) (by omega)]
    · rw [dealStep_frame_other _ _ _ _ _ _ (apart (by omega) (by omega) e), ih (by omega) (by omega)]

end

/-- The launch's skeins have been dealt. -/
def dealt (s : State) (acc : Nat) (l : Launch) (fs : List Nat) : State :=
  { dealSome acc l.lrec.skeins s.dealPtr fs s fs.length with dealPtr := (s.dealPtr + (l.lrec.skeins + 3) / 4) % fs.length }.modLaunch acc
    fun l => { l with dealt := true }

theorem exec_dealSkeins {s : State} {acc : Nat} {l : Launch} (hl : aget? s.launches acc = some l) (hst : l.st = .queued)
    (hd : l.dealt = false) (hr : l.result = none) (hi : l.isDealt = true)
    (hfs : ((List.range s.nFrames).filter fun n => (s.frame n).limit != 0) ≠ []) :
    exec (.dealSkeins acc) s = .next (dealt s acc l ((List.range s.nFrames).filter fun n => (s.frame n).limit != 0)) := by
  show execDealSkeins acc s = _
  have some_ : ((List.range s.nFrames).filter fun n => (s.frame n).limit != 0).isEmpty = false := by
    rw [← Bool.not_eq_true, List.isEmpty_iff]
    exact hfs
  have due : (l.st != .queued || l.dealt || l.result.isSome || !l.isDealt ||
      ((List.range s.nFrames).filter fun n => (s.frame n).limit != 0).isEmpty) = false := by
    rw [hst, hd, hr, hi, some_]
    rfl
  simp only [execDealSkeins, hl, due, Bool.false_eq_true, if_false]
  rfl

theorem skeinsDealt : SkeinsDealt := by
  intro s acc l hl hst hd hr hi fs hfs
  have nodup : fs.Nodup := List.nodup_range.filter _
  obtain ⟨f, e⟩ := dealSome_outside acc l.lrec.skeins s.dealPtr fs s fs.length
  refine ⟨_, exec_dealSkeins hl hst hd hr hi hfs, ?_, ?_, rfl, fun j hj => ?_, fun m hm => ?_⟩
  · rw [dealt, modLaunch_launch]
  · rw [dealt, e]
    exact sameMemory_of_fields rfl rfl rfl rfl rfl
  · rw [← dealtTo_eq]
    exact dealSome_queue acc l.lrec.skeins s.dealPtr fs s nodup hj (Nat.le_refl _)
  · refine dealSome_frame_other acc l.lrec.skeins s.dealPtr fs s fs.length fun j hj e => hm ?_
    rw [e, nth, List.getD_eq_getElem _ _ hj]
    exact List.getElem_mem hj

/-! ### Dependences (R54) -/

theorem place_eq_page {r : Tr} {va pa : Nat} {attr : PageAttr} (h : r.place va = some (pa, attr)) : ∃ x, r = .page x ∧ x.place va = some (pa, attr) := by
  cases r with
  | page x => exact ⟨x, rfl, h⟩
  | _ => cases h

theorem modLaunch_aget? {s t : State} {acc : Nat} {l : Launch} (hl : aget? s.launches acc = some l) (same : t.launches = s.launches)
    (g : Launch → Launch) : aget? (t.modLaunch acc g).launches acc = some (g l) := by
  rw [State.modLaunch, State.setLaunch, aget?_aput_same, State.launch, same, agetD, hl, Option.getD_some]

section
variable {s : State} {acc k pa : Nat} {l : Launch} {attr : PageAttr} (hl : aget? s.launches acc = some l) (hst : l.st = .waiting)
  (hr : l.result = none) (hk : k < l.lrec.ndeps) (hseen : nth l.depSeen k true = false) (hsleep : nth l.depAsleep k false = false)
  (hva : (nth l.lrec.deps k 0).toNat < 2 ^ 56) (hp : MappedAt s l.asid l.root (nth l.lrec.deps k 0).toNat pa attr) (hattr : attr.r = true)
  (hread : s.readable pa = true)
include hl hst hr hk hseen hsleep hva hp hattr hread

/-- What a launch that reads a dependence does with the word it finds. -/
theorem exec_dependenceObserved : exec (.dependenceObserved acc k) s =
    if (s.paRead pa 8).getLsbD 63 = false then .next s
    else if bitsAt (s.paRead pa 8) 0 32 ≠ 0 then .next (s.modLaunch acc fun l => { l with result := some .depFailed })
    else .next (s.modLaunch acc fun l' => { l' with
      depSeen := modNth l.depSeen k fun _ => true
      st := if ((modNth l.depSeen k fun _ => true).take l.lrec.ndeps).all id then .queued else l'.st }) := by
  obtain ⟨x, hx, hplace⟩ := place_eq_page hp
  show execDependenceObserved acc k s = _
  have due : (l.st != .waiting || l.result.isSome || decide (l.lrec.ndeps ≤ k) || nth l.depSeen k true || nth l.depAsleep k false) = false := by
    rw [hst, hr, hseen, hsleep, decide_eq_false (Nat.not_le.2 hk)]
    rfl
  simp only [execDependenceObserved, hl, due, Bool.false_eq_true, if_false, Nat.not_le.2 hva, hx, hplace, hattr, hread, Bool.not_true,
    Bool.not_eq_true', fld_eq_bitsAt, bne_iff_ne]

end

theorem dependenceObserved : DependenceObserved := by
  intro s acc k pa l attr hl hst hr hk hseen hsleep hva hp hattr hread w seen
  have step := exec_dependenceObserved hl hst hr hk hseen hsleep hva hp hattr hread
  refine ⟨fun h => ?_, fun h hz => ?_, fun h hz => ?_⟩
  · rw [step, if_pos h]
  · exact ⟨_, by rw [step, if_neg (by rw [h]; simp), if_pos hz], modLaunch_aget? hl rfl _⟩
  · rw [step, if_neg (by rw [h]; simp), if_neg (not_not.2 hz)]
    refine ⟨_, rfl, sameMemory_of_fields rfl rfl rfl rfl rfl, ?_⟩
    rw [modLaunch_aget? hl rfl]
    simp only [List.all_eq_true, id, hst, seen]

end Sys2Proof.Machine
end

section
/-! PROOFS. Every address of a page translates alike (R220 to R222, R226), and outcomes go to their events (R53, R55, R365). -/

namespace Sys2Proof.Machine

open Host (Outcome)
open Sys2Proof.Claims

/-! ### The addresses of a page (R220) -/

/-- Two addresses of one page have the same index at every level. -/
theorem div_of_page {va vb lo : Nat} (h : vb / 4096 = va / 4096) (hlo : 12 ≤ lo) : vb / 2 ^ lo = va / 2 ^ lo := by
  have split_ (v : Nat) : v / 2 ^ lo = v / 4096 / 2 ^ (lo - 12) := by
    rw [Nat.div_div_eq_div_mul, show (4096 : Nat) = 2 ^ 12 from rfl, ← pow_add, Nat.add_sub_cancel' hlo]
  rw [split_, split_, h]

/-- Levels whose entries cover a page at least. -/
def Paged (l : List (Nat × Nat × Nat)) : Prop := ∀ x ∈ l, 12 ≤ x.2.1

theorem levels_paged : Paged levels := by
  unfold Paged
  decide

theorem Paged.tail {x : Nat × Nat × Nat} {l : List (Nat × Nat × Nat)} (h : Paged (x :: l)) : Paged l := fun y hy => h y (List.mem_cons_of_mem x hy)

section
variable (s : State) {va vb : Nat} (h : vb / 4096 = va / 4096)
include h

theorem walkFrom_of_page (read : Nat → Word) {l : List (Nat × Nat × Nat)} (hl : Paged l) (tbl : Nat) :
    walkFrom s read vb l tbl = walkFrom s read va l tbl := by
  induction l generalizing tbl with
  | nil => rfl
  | cons x l ih =>
    obtain ⟨level, lo, bits⟩ := x
    simp only [walkFrom, div_of_page h (hl _ List.mem_cons_self), ih hl.tail]

theorem storedOver_of_page (read : Nat → Word) (a : Nat) {l : List (Nat × Nat × Nat)} (hl : Paged l) (p : List (Nat × Word)) :
    storedOver s read vb a l p = storedOver s read va a l p := by
  induction l generalizing p with
  | nil => rfl
  | cons x l ih =>
    obtain ⟨level, lo, bits⟩ := x
    cases p with
    | nil => rfl
    | cons y p => simp only [storedOver, walkFrom_of_page s h read hl, div_of_page h (hl _ List.mem_cons_self), ih hl.tail]

theorem leafShot_of_page (read : Nat → Word) (asid : Nat) (r : ShootRange) {l : List (Nat × Nat × Nat)} (hl : Paged l) (p : List (Nat × Word)) :
    leafShot s read asid vb r l p = leafShot s read asid va r l p := by
  induction l generalizing p with
  | nil => rfl
  | cons x l ih =>
    obtain ⟨level, lo, bits⟩ := x
    have hlo : 12 ≤ lo := hl _ List.mem_cons_self
    cases p with
    | nil => rfl
    | cons y p =>
      have size : 12 ≤ if y.2.getLsbD 5 = true then lo + 4 else lo := by split <;> omega
      simp only [leafShot, walkFrom_of_page s h read hl, div_of_page h hlo, div_of_page h size, ih hl.tail]

theorem hasPage_of_page (r : ShootRange) (asid : Nat) : r.hasPage asid vb = r.hasPage asid va := by simp only [ShootRange.hasPage, h]

theorem forceGo_of_page (asid root : Nat) (evs : List TableEvent) (p : List (Nat × Word)) :
    forceGo s asid root vb evs p = forceGo s asid root va evs p := by
  induction evs generalizing p with
  | nil => rfl
  | cons ev evs ih =>
    cases ev <;> simp only [forceGo, ih, storedOver_of_page s h _ _ levels_paged, leafShot_of_page s h _ _ _ levels_paged,
      walkFrom_of_page s h _ levels_paged, hasPage_of_page h]

theorem inForce_of_page (asid root : Nat) : s.inForce asid root vb = s.inForce asid root va := by
  simp only [State.inForce, walkFrom_of_page s h _ levels_paged, forceGo_of_page s h]

theorem leaf_of_page (asid : Nat) {lo : Nat} (hlo : 12 ≤ lo) (idx : Nat) (e : Word) (pa : Nat) : leaf asid vb lo idx e pa = leaf asid va lo idx e pa := by
  simp only [leaf, div_of_page h hlo, div_of_page h (Nat.le_add_right_of_le hlo)]

theorem walkEnd_of_page (asid : Nat) {l : List (Nat × Nat × Nat)} (hl : Paged l) (p : List (Nat × Word)) :
    walkEnd s asid vb l p = walkEnd s asid va l p := by
  induction l generalizing p with
  | nil => rfl
  | cons x l ih =>
    obtain ⟨level, lo, bits⟩ := x
    have hlo : 12 ≤ lo := hl _ List.mem_cons_self
    cases p with
    | nil => rfl
    | cons y p => simp only [walkEnd, missing, h, ih hl.tail, div_of_page h hlo, leaf_of_page h asid hlo]

/-- The addresses of a page translate alike. -/
theorem translate_of_page (asid root : Nat) : translate s asid root vb = translate s asid root va := by
  simp only [translate, walk, inForce_of_page s h, walkEnd_of_page s h asid levels_paged, div_of_page h (show 12 ≤ 48 by decide)]

end

theorem leaf_size (asid va lo idx : Nat) (e : Word) (pa : Nat) : lo ≤ (leaf asid va lo idx e pa).size := by
  unfold leaf
  split
  · exact Nat.le_add_right lo 4
  · exact Nat.le_refl lo

/-- A page has 4 KiB at least. -/
theorem walkEnd_size {s : State} {asid va : Nat} {x : Xlat} {l : List (Nat × Nat × Nat)} (hl : Paged l) {p : List (Nat × Word)}
    (hx : walkEnd s asid va l p = .page x) : 12 ≤ x.size := by
  induction l generalizing p with
  | nil => cases hx
  | cons y l ih =>
    obtain ⟨level, lo, bits⟩ := y
    cases p with
    | nil => cases hx
    | cons q p =>
      obtain ⟨ea, e⟩ := q
      have hlo : 12 ≤ lo := hl _ List.mem_cons_self
      simp only [walkEnd] at hx
      split at hx
      · cases hx
      · split at hx
        · cases hx
        · split at hx
          · cases hx
          · split at hx
            · exact ih hl.tail hx
            · split at hx
              · cases hx
              · exact Tr.page.inj hx ▸ hlo.trans (leaf_size ..)

theorem translate_size {s : State} {asid root va : Nat} {x : Xlat} (h : translate s asid root va = .page x) : 12 ≤ x.size := by
  unfold translate walk at h
  split at h
  · cases h
  · exact walkEnd_size levels_paged h

/-- A place within a page's physical bytes is that of the address as far on. -/
theorem mappedAt_add {s : State} {asid root va pa d : Nat} {attr : PageAttr} (h : MappedAt s asid root va pa attr) (hd : va % 16 + d < 16)
    (hpa : pa + d < paSpace) : MappedAt s asid root (va + d) (pa + d) attr := by
  obtain ⟨x, hx, hplace⟩ := place_eq_page h
  have same : translate s asid root (va + d) = .page x := (translate_of_page s (by omega) asid root).trans hx
  obtain ⟨p, hp, e⟩ := Option.map_eq_some_iff.1 hplace
  obtain ⟨epa, ea⟩ := Prod.mk.inj e
  have size := translate_size hx
  have off : (va + d) % 2 ^ x.size = va % 2 ^ x.size + d := by
    obtain ⟨k, hk⟩ : ∃ k, 2 ^ x.size = 16 * k := ⟨2 ^ (x.size - 4), by rw [show (16 : Nat) = 2 ^ 4 from rfl, ← pow_add]; congr 1; omega⟩
    have kpos : 0 < k := by
      have : 0 < 2 ^ x.size := Nat.two_pow_pos _
      omega
    rw [hk, Nat.mod_mul, Nat.mod_mul, show (va + d) / 16 = va / 16 by omega]
    omega
  rw [MappedAt, same, Tr.place, Xlat.place, hp, Option.map_some, off, ← Nat.add_assoc, Nat.add_mod, epa, ea]
  congr 2
  have : d % paSpace = d := Nat.mod_eq_of_lt (by omega)
  rw [this, Nat.mod_eq_of_lt hpa]

/-! ### A word stored by physical address -/

section
variable {s : State} {pa : Nat}

theorem paWrite_outside (n : Nat) (v : Word) {a : Nat} (h : ¬(pa ≤ a ∧ a < pa + n)) : (s.paWrite pa n v).paByte a = s.paByte a := by
  rw [State.paWrite, paByte_paPutBytes, paByte_putEach_outside]
  rwa [length_natBytes]

theorem paWrite_reads (h : ∀ i < 8, s.isLocal (pa + i) = true → s.present (offsetOf (pa + i)) = true) (v : Word) :
    (s.paWrite pa 8 v).paRead pa 8 = v := by
  have len : (natBytes 8 v.toNat).length = 8 := length_natBytes 8 _
  have bytes : ∀ i < 8, (s.paWrite pa 8 v).paByte (pa + i) = nth (natBytes 8 v.toNat) i 0 := fun i hi => by
    rw [State.paWrite, paByte_paPutBytes, paByte_putEach_inside _ _ _ (by rwa [len]) i (by rwa [len])]
  rw [paRead_natBytes (s := s.paWrite pa 8 v) pa v.toNat bytes, BitVec.ofNat_toNat, BitVec.setWidth_eq]

theorem modLaunch_sameMap (s : State) (acc : Nat) (g : Launch → Launch) : SameMap s (s.modLaunch acc g) := ⟨rfl, rfl, rfl, rfl, rfl⟩

/-- A word is stored, and then something of a launch changes. -/
theorem paWrite_modLaunch (h : ∀ i < 8, s.isLocal (pa + i) = true → s.present (offsetOf (pa + i)) = true) (v : Word) (acc : Nat)
    (g : Launch → Launch) : ((s.paWrite pa 8 v).modLaunch acc g).paRead pa 8 = v ∧
      ∀ a, ¬(pa ≤ a ∧ a < pa + 8) → ((s.paWrite pa 8 v).modLaunch acc g).paByte a = s.paByte a :=
  have same := modLaunch_sameMap (s.paWrite pa 8 v) acc g
  ⟨(same.paRead pa 8).trans (paWrite_reads h v), fun a ha => (same.memory a).trans (paWrite_outside 8 v ha)⟩

end

/-! ### The event of an outcome (R53, R55, R365) -/

section
variable {s : State} {asid root va pa : Nat} {attr : PageAttr}

/-- A store of a word through an address space. -/
theorem vaWrite_eq (h : MappedAt s asid root va pa attr) (hva : va % 8 = 0) (v : Word) : s.vaWrite asid root va v = s.paWrite pa 8 v := by
  have whole : ((natBytes 8 v.toNat).drop 0).take 8 = natBytes 8 v.toNat := by
    rw [List.drop_zero, List.take_of_length_le (by rw [length_natBytes])]
  have one : globalPieces va 8 = [⟨0, 8, va⟩] := if_pos (by simp [hva])
  rw [State.vaWrite, one, List.foldl_cons, List.foldl_nil, h, whole]
  rfl

/-- An aligned event on a page that may be written, and can be reached. -/
theorem eventAt_writable (h : MappedAt s asid root va pa attr) (hva : va % 16 = 0) (hw : attr.w = true) (hr : s.reachable pa = true) :
    s.eventAt asid root va = .writable := by
  obtain ⟨x, hx, hplace⟩ := place_eq_page h
  have one : s.vaBlocks asid root 256 va 16 = [(va, translate s asid root va)] := by
    rw [State.vaBlocks, show (va + 16 + (256 - 1)) / 256 - va / 256 = 1 by omega]
    simp only [List.range_one, List.map_cons, List.map_nil, Nat.add_zero, max_eq_left (Nat.div_mul_le_self va 256)]
  simp [State.eventAt, one, hx, hplace, hw, hr]

/-- A place that is local lies among the physical addresses. -/
theorem lt_paSpace_of_isLocal {a : Nat} (h : s.isLocal a = true) : a < paSpace := by
  have pkg := s.pkg.isLt
  have := of_decide_eq_true h
  rw [paSpace]
  omega

end

section
variable {s : State} {acc : Nat} {l : Launch} {r : LaunchResult} (hl : aget? s.launches acc = some l) (hr : l.result = some r)
  (hst : l.st ≠ .ended) (hs : l.outAsleep = false)
include hl hr hst hs

theorem exec_launchOutcomeWrite_none (hd : l.lrec.done = 0) :
    exec (.launchOutcomeWrite acc) s = .next (s.modLaunch acc fun l => { l with st := .ended }) := by
  show execLaunchOutcomeWrite acc s = _
  simp [execLaunchOutcomeWrite, hl, hr, hst, hs, hd]

variable {pa : Nat} {attr : PageAttr} (hrec : ∀ x ∈ s.strWait, x.1 ≠ acc) (hd : l.lrec.done ≠ 0) (ha : l.lrec.done.toNat % 16 = 0)
  (hle : l.lrec.done.toNat + 16 ≤ 2 ^ 56) (hp : MappedAt s l.asid l.root l.lrec.done.toNat pa attr) (hw : attr.w = true) (ho : Owned s pa 16)
include hrec hd ha hle hp hw ho

/-- Where the event can be written: STAMP first, and DONE while that is the time. -/
theorem exec_launchOutcomeWrite : exec (.launchOutcomeWrite acc) s =
    if l.stamped = some s.time then .next ((s.paWrite pa 8 (BitVec.ofNat 64 (2 ^ 63 + r.code))).modLaunch acc fun l => { l with st := .ended })
    else .next ((s.paWrite (pa + 8) 8 (BitVec.ofNat 64 s.time)).modLaunch acc fun l => { l with stamped := some s.time }) := by
  have here := eventAt_writable hp ha hw (ho 0 (by decide)).2.2
  have next : MappedAt s l.asid l.root (l.lrec.done.toNat + 8) (pa + 8) attr :=
    mappedAt_add hp (by omega) (lt_paSpace_of_isLocal (ho 8 (by decide)).1)
  have some_ : l.lrec.done.toNat ≠ 0 := fun e => hd (BitVec.eq_of_toNat_eq e)
  have waits : (s.strWait.any fun x => x.1 == acc) = false := by simpa using hrec
  have live : (l.st == .ended || l.outAsleep) = false := by simp [hst, hs]
  show execLaunchOutcomeWrite acc s = _
  simp only [execLaunchOutcomeWrite, hl, hr, live, some_, waits, Nat.not_lt.2 hle, here, vaWrite_eq hp (by omega),
    vaWrite_eq next (by omega), ofN, Bool.false_eq_true, if_false, beq_iff_eq]

end

theorem outcomeWritten : OutcomeWritten := by
  intro s acc l r hl hr hst hs hrec
  refine ⟨fun hd => ⟨_, exec_launchOutcomeWrite_none hl hr hst hs hd, (modLaunch_sameMap ..).memory, by rw [modLaunch_launch]⟩,
    fun pa attr hd ha hle hp hw ho => ?_⟩
  have step := exec_launchOutcomeWrite hl hr hst hs hrec hd ha hle hp hw ho
  refine ⟨fun hn => ?_, fun hn => ?_⟩
  · rw [step, if_neg hn]
    obtain ⟨reads, outside⟩ := paWrite_modLaunch (s := s) (pa := pa + 8)
      (fun i hi _ => by rw [Nat.add_assoc]; exact (ho (8 + i) (by omega)).2.1) (BitVec.ofNat 64 s.time) acc
      fun l => { l with stamped := some s.time }
    exact ⟨_, rfl, modLaunch_aget? hl (paWrite_sameJobs ..).1 _, reads, outside⟩
  · rw [step, if_pos hn]
    obtain ⟨reads, outside⟩ := paWrite_modLaunch (s := s) (pa := pa) (fun i hi _ => (ho i (by omega)).2.1) (BitVec.ofNat 64 (2 ^ 63 + r.code))
      acc fun l => { l with st := .ended }
    exact ⟨_, rfl, by rw [modLaunch_launch], reads, outside⟩

end Sys2Proof.Machine
end

section
/-! PROOFS. What is read of memory and of the regions, translated or not, rests on few fields of the state (R44, R58 to R60, R218, R222). -/

namespace Sys2Proof.Machine

open Host (Outcome)
open Sys2Proof.Claims

/-- Two states in which memory, its map and devices, what is known of page tables, the regions, the address spaces and the part's
stepping are the same. -/
structure SameReads (s t : State) : Prop extends SameMap s t where
  known : t.known = s.known
  memReady : t.memReady = s.memReady
  retraining : t.retraining = s.retraining
  tick : t.tick = s.tick
  links : t.links = s.links
  rcbs : t.rcbs = s.rcbs
  spaces : t.spaces = s.spaces
  stepping : t.stepping = s.stepping

namespace SameReads

variable {s t : State} (h : SameReads s t)
include h

/-! ### Memory that can be reached and read (R218, R382, R383, R386) -/

theorem gddrBytes : t.gddrBytes = s.gddrBytes := by simp only [State.gddrBytes, State.nStacks, h.units]

theorem deviceOf (off : Nat) : t.deviceOf off = s.deviceOf off := by simp only [State.deviceOf, State.nDevices, State.nStacks, h.units]

theorem trained (off : Nat) : t.trained off = s.trained off := by simp only [State.trained, h.gddrBytes, h.deviceOf, h.memReady]

theorem retrains (off : Nat) : t.retrains off = s.retrains off := by
  simp only [State.retrains, h.gddrBytes, h.deviceOf, h.retraining, h.tick]

theorem reachable (pa : Nat) : t.reachable pa = s.reachable pa := by
  simp only [State.reachable, State.linked, State.nLinks, h.isLocal, h.trained, h.units, h.links]

theorem readable (pa : Nat) : t.readable pa = s.readable pa := by simp only [State.readable, h.reachable, h.isLocal, h.retrains]

theorem readsAll (pa n : Nat) : t.readsAll pa n = s.readsAll pa n := by simp only [State.readsAll, h.readable]

/-! ### Translation (R222) -/

theorem walkEnd (asid va : Nat) (l : List (Nat × Nat × Nat)) (p : List (Nat × Word)) : walkEnd t asid va l p = walkEnd s asid va l p := by
  induction l generalizing p with
  | nil => rfl
  | cons x l ih =>
    cases p with
    | nil => rfl
    | cons y p => simp only [Machine.walkEnd, h.trained, h.retrains, h.badEntry, ih]

theorem rangePresent (off n : Nat) : t.rangePresent off n = s.rangePresent off n := by simp only [State.rangePresent, h.present]

theorem translate (asid root va : Nat) : translate t asid root va = translate s asid root va := by
  simp only [Machine.translate, walk, h.isLocal, h.rangePresent, h.walkEnd, h.inForce h.known]

theorem vaBlocks (asid root k va n : Nat) : t.vaBlocks asid root k va n = s.vaBlocks asid root k va n := by
  simp only [State.vaBlocks, h.translate]

theorem vaWaits (asid root va n : Nat) : t.vaWaits asid root va n = s.vaWaits asid root va n := by
  simp only [State.vaWaits, h.vaBlocks, h.readable]

theorem vaDenied (asid root va n : Nat) (need : Need) : t.vaDenied asid root va n need = s.vaDenied asid root va n need := by
  simp only [State.vaDenied, State.vaPages, h.vaBlocks]

theorem vaBytes (asid root va n : Nat) : t.vaBytes asid root va n = s.vaBytes asid root va n := by
  induction n generalizing va with
  | zero => rfl
  | succ n ih =>
    have byte (pa : Nat) : t.paByte pa = s.paByte pa := h.memory pa
    simp only [State.vaBytes, State.fresh?, h.translate, ih, byte]

/-! ### Regions (R58 to R60) -/

theorem rcb? (a : Nat) : t.rcb? a = s.rcb? a := rcb?_of_rcbs h.rcbs a

theorem readRcb (a : Nat) : t.readRcb a = s.readRcb a := by simp only [State.readRcb, paBytes_same h.memory]

theorem chainGo (k a : Nat) (got : List Rcb) : chainGo t k a got = chainGo s k a got := by
  induction k generalizing a got with
  | zero => rfl
  | succ k ih => simp only [Machine.chainGo, h.rcb?, h.readRcb, ih]

theorem chainOk (a : Nat) : t.chainOk a = s.chainOk a := by
  suffices go : ∀ k a, chainOkGo t k a = chainOkGo s k a from go 8 a
  intro k
  induction k with
  | zero => exact fun _ => rfl
  | succ k ih => exact fun a => by simp only [chainOkGo, h.rcb?, ih]

theorem chainWaits (k a : Nat) : chainWaits t k a = chainWaits s k a := by
  induction k generalizing a with
  | zero => rfl
  | succ k ih => simp only [Machine.chainWaits, h.rcb?, h.readRcb, h.readsAll, ih]

/-- The regions that are read come to be known alike. -/
theorem knowRegion (a : Nat) : SameReads (s.knowRegion a) (t.knowRegion a) :=
  { h with rcbs := by simp only [State.knowRegion, h.rcbs, h.chainGo] }

theorem rcbChain (a : Nat) : t.rcbChain a = s.rcbChain a := rcbChain_of_rcbs h.rcbs a

theorem rootOf (a : Nat) : t.rootOf a = s.rootOf a := by simp only [State.rootOf, h.rcbChain]

theorem space (asid : Nat) : t.space asid = s.space asid := by simp only [State.space, h.spaces]

theorem asidFor (l : Launch) (root : Nat) : l.asidFor t root = l.asidFor s root := by
  simp only [Launch.asidFor, Launch.spaceOf, h.space]

theorem effSaveSize (a : Nat) : t.effSaveSize a = s.effSaveSize a := by simp only [State.effSaveSize, h.rcbChain]

theorem fitsEver (hd : Header) (region : Nat) (base : Bool) : fitsEver t hd region base = fitsEver s hd region base := by
  simp only [Machine.fitsEver, effArrays_of_rcbs h.rcbs, h.effSaveSize, effSpindles_of_rcbs h.rcbs]

/-! ### The checks of a launch (R55) -/

theorem checkLaunch (r : LRecord) (l : List Byte) (asid root : Nat) (region base : Bool) :
    checkLaunch t r l asid root region base = checkLaunch s r l asid root region base := by
  simp only [Machine.checkLaunch, h.vaDenied, h.vaWaits, h.vaBytes, h.fitsEver]

end SameReads

end Sys2Proof.Machine
end

section
/-! PROOFS. The checks of a launch find the first failure of its record, image and region (R44, R49 to R52, R55, R58, R65). -/

namespace Sys2Proof.Machine

open Host (Outcome)
open Sys2Proof.Claims

/-! ### The record check (R52) -/

theorem bytesNat_take_eq_zero (l : List Byte) (n : Nat) : bytesNat (l.take n) = 0 ↔ ∀ i < n, nth l i 0 = 0 := by
  induction l generalizing n with
  | nil => exact iff_of_true (by rw [List.take_nil]; rfl) fun _ _ => rfl
  | cons b l ih =>
    cases n with
    | zero => exact iff_of_true rfl fun i hi => by omega
    | succ n =>
      have head : bytesNat ((b :: l).take (n + 1)) = b.toNat + 256 * bytesNat (l.take n) := rfl
      have byte : b.toNat = 0 ↔ b = 0 := ⟨fun h => BitVec.eq_of_toNat_eq h, fun h => h ▸ rfl⟩
      rw [head, Nat.forall_lt_succ_left, Nat.add_eq_zero_iff, byte, mul_eq_zero_iff_left (by decide), ih]
      rfl

/-- A field is zero when each of its bytes is. -/
theorem leAt_eq_zero (l : List Byte) (off n : Nat) : leAt l off n = 0 ↔ ∀ i < n, nth l (off + i) 0 = 0 := by
  rw [leAt, bytesNat_take_eq_zero]
  simp only [nth, List.getD_eq_getElem?_getD, List.getElem?_drop]

theorem copyEntryOk_iff (used : Prop) [Decidable used] (e : Word × Word) :
    copyEntryOk (decide used) e = true ↔ if used then EntryLegal e else e = (0, 0) := by
  by_cases h : used <;> simp [copyEntryOk, h, EntryLegal, fld_eq_bitsAt, Prod.ext_iff, and_assoc]

theorem recordOk_iff (l : List Byte) : recordOk l = true ↔ RecordLegal l := by
  have copies (r : LRecord) : ((List.range 16).all fun n => copyEntryOk (decide (n < r.copyCount)) (nth r.copies n (0, 0))) = true ↔
      ∀ n < 16, if n < r.copyCount then EntryLegal (nth r.copies n (0, 0)) else nth r.copies n (0, 0) = (0, 0) := by
    simp only [List.all_eq_true, List.mem_range, copyEntryOk_iff]
  simp only [recordOk, Bool.and_eq_true, copies]
  simp only [RecordLegal, beq_iff_eq, decide_eq_true_eq, leAt_eq_zero, List.all_eq_true, List.mem_range, Bool.or_eq_true,
    List.forall_mem_cons, Bool.and_eq_true]
  simp only [LRecord.skeins]
  tauto

/-! ### The image (R44) -/

/-- What the checks that follow the image find. -/
def afterImage (s : State) (r : LRecord) (h : Header) (region base : Bool) (bars : List Byte) (scheds : List (List Word)) : Checked :=
  if !copiesFit r h then .fails .badRecord
  else if !region then .fails .badRegion
  else if !fitsEver s h r.region.toNat base then .fails .noFit
  else .passes h bars scheds

section
variable {s : State} {r : LRecord} {l : List Byte} {asid root : Nat} {region base : Bool}

theorem checkLaunch_badRecord (h : ¬RecordLegal l) : checkLaunch s r l asid root region base = .fails .badRecord := by
  have bad : recordOk l = false := Bool.eq_false_iff.2 fun e => h ((recordOk_iff l).1 e)
  rw [checkLaunch, bad]
  rfl

variable (hl : RecordLegal l)
include hl

theorem checkLaunch_imageFails (h : ImageFails s asid root r.image.toNat) : checkLaunch s r l asid root region base = .fails .badImage := by
  have ok := (recordOk_iff l).2 hl
  cases hd : s.vaDenied asid root r.image.toNat 128 .read with
  | true => simp only [checkLaunch, ok, hd, Bool.not_true, Bool.false_eq_true, if_false, if_true]
  | false =>
    obtain h | ⟨hw, hb, hbytes, h⟩ := h
    · rw [hd] at h
      cases h
    · simp only [checkLaunch, ok, hd, hw, hbytes, Bool.not_true, Bool.false_eq_true, if_false]
      obtain h | h | h | ⟨wb, ws, b, c, eb, ec, h⟩ := h
      · simp only [h, Bool.not_false, Bool.true_or, if_true]
      · simp only [h, Bool.true_or, Bool.or_true, if_true]
      · simp only [h, Bool.or_true, if_true]
      · split
        · rfl
        · simp only [wb, ws, eb, ec, Bool.or_false, Bool.false_eq_true, if_false]
          obtain h | h := h <;> rw [h]
          cases barsOk b (Header.ofBytes hb).barCount <;> rfl

theorem checkLaunch_imagePasses {h : Header} (hp : ImagePasses s asid root r.image.toNat h) :
    ∃ bars scheds, checkLaunch s r l asid root region base = afterImage s r h region base bars scheds := by
  obtain ⟨hb, b, c, scheds, hd, hw, hbytes, rfl, hok, db, ds, wb, ws, eb, ec, bok, sok⟩ := hp
  refine ⟨b, scheds, ?_⟩
  simp only [checkLaunch, (recordOk_iff l).2 hl, hd, hw, hbytes, hok, db, ds, wb, ws, eb, ec, bok, sok, Bool.not_true, Bool.or_false,
    Bool.false_eq_true, if_false, afterImage]

end

/-! ### The first failure (R55) -/

/-- The region of an offer's record. -/
def Offer.regionOf (o : Offer) : Nat := (LRecord.ofBytes o.addr o.bytes).region.toNat

/-- Whoever made an offer may name its region (R60). -/
def allowedRegion (s : State) (o : Offer) : Bool :=
  match o.region with
  | none => true
  | some own => (s.rcbChain o.regionOf).any fun b => b.addr == own.toNat

/-- The address space for a launch's checks, in a state whose regions are known. -/
def checkedAsid (l : Launch) (o : Offer) (s : State) : Nat :=
  if s.chainOk o.regionOf then l.asidFor s (s.rootOf o.regionOf) else o.asid

/-- What the checks of an accepted launch find, in a state whose regions are known. -/
def checkedIn (l : Launch) (o : Offer) (s : State) : Checked :=
  checkLaunch s (LRecord.ofBytes o.addr o.bytes) o.bytes (checkedAsid l o s) (l.spaceOf s (checkedAsid l o s)).root
    (s.chainOk o.regionOf && allowedRegion s o) o.base.isSome

theorem allowedRegion_iff (s : State) (o : Offer) :
    allowedRegion s o = true ↔ ∀ own, o.region = some own → ∃ b ∈ s.rcbChain o.regionOf, b.addr = own.toNat := by
  unfold allowedRegion
  split
  · next h => simp [h]
  · next own h => simp [h]

theorem checkedIn_firstFailure {s : State} {o : Offer} {e : LaunchResult} (h : FirstFailure s o e) :
    checkedIn {} o (s.knowRegion o.regionOf) = .fails e := by
  have allowed := allowedRegion_iff (s.knowRegion o.regionOf) o
  obtain ⟨hl, rfl⟩ | ⟨hl, hi, rfl⟩ | ⟨hl, hd, hi, h⟩ := h
  · exact checkLaunch_badRecord hl
  · exact checkLaunch_imageFails hl hi
  · obtain ⟨bars, scheds, e'⟩ := checkLaunch_imagePasses (region := (s.knowRegion o.regionOf).chainOk o.regionOf &&
      allowedRegion (s.knowRegion o.regionOf) o) (base := o.base.isSome) hl hi
    refine e'.trans ?_
    obtain ⟨hc, rfl⟩ | ⟨hc, hr, rfl⟩ | ⟨hc, hk, hw, hf, rfl⟩ := h
    · simp only [afterImage, hc, Bool.not_false, if_true]
    · have out : ((s.knowRegion o.regionOf).chainOk o.regionOf && allowedRegion (s.knowRegion o.regionOf) o) = false := by
        rw [← Bool.not_eq_true, Bool.and_eq_true, allowed]
        exact hr
      simp only [afterImage, hc, out, Bool.not_true, Bool.not_false, Bool.false_eq_true, if_false, if_true]
    · have within : ((s.knowRegion o.regionOf).chainOk o.regionOf && allowedRegion (s.knowRegion o.regionOf) o) = true := by
        rw [Bool.and_eq_true, allowed]
        exact ⟨hk, hw⟩
      simp only [afterImage, hc, within, hf, Bool.not_true, Bool.not_false, Bool.false_eq_true, if_false, if_true]

/-- A launch that has kept no address space is checked alike in states that read alike. -/
theorem checkedIn_of_sameReads {s t : State} (h : SameReads s t) {l : Launch} (hk : l.kept = []) (o : Offer) :
    checkedIn l o t = checkedIn {} o s := by
  have space (u : State) (a : Nat) : l.spaceOf u a = u.space a := by
    rw [Launch.spaceOf, hk]
    rfl
  have bare (u : State) (a : Nat) : ({} : Launch).spaceOf u a = u.space a := rfl
  have asid : checkedAsid l o t = checkedAsid {} o s := by
    simp only [checkedAsid, h.chainOk, h.rootOf, Launch.asidFor, space, bare, h.space]
  simp only [checkedIn, asid, space, bare, h.space, h.chainOk, allowedRegion, h.rcbChain, h.checkLaunch]

end Sys2Proof.Machine
end

section
/-! PROOFS. A launch is accepted and answered (R55, R63, R64, R213, R216), and the obligation on launches. -/

namespace Sys2Proof.Machine

open Host (Outcome)
open Sys2Proof.Claims

/-! ### What the checks make of a launch (R55) -/

/-- A launch has got the address space of its checks, in a state whose regions are known. -/
def Launch.inSpace (l : Launch) (o : Offer) (s : State) : Launch :=
  { l with asid := checkedAsid l o s, root := (l.spaceOf s (checkedAsid l o s)).root, priv := (l.spaceOf s (checkedAsid l o s)).priv
           toCheck := none, kept := [] }

/-- A launch after its checks; none while they wait. -/
def Launch.found (l : Launch) (o : Offer) (s : State) : Checked → Option Launch
  | .waits => none
  | .fails e => some { l.inSpace o s with result := some e }
  | .passes h bars scheds => some { l.inSpace o s with
      hdr := h, bars, scheds, ilk := decide (h.flags / 2 % 2 = 1) || BitVec.ofNat 64 h.stepping != s.stepping
      st := if (LRecord.ofBytes o.addr o.bytes).ndeps = 0 then .queued else .waiting }

theorem checkAccepted_eq {s : State} {acc : Nat} {o : Offer} (h : (s.launch acc).toCheck = some o) : checkAccepted acc s =
    match (s.launch acc).found o (s.knowRegion o.regionOf)
      (if chainWaits s 9 o.regionOf then .waits else checkedIn (s.launch acc) o (s.knowRegion o.regionOf)) with
    | none => s
    | some l => (s.knowRegion o.regionOf).setLaunch acc l := by
  simp only [checkAccepted, h]
  change (match if chainWaits s 9 o.regionOf then Checked.waits else checkedIn (s.launch acc) o (s.knowRegion o.regionOf) with
    | .waits => _ | .fails e => _ | .passes h bars scheds => _) = _
  cases (if chainWaits s 9 o.regionOf then Checked.waits else checkedIn (s.launch acc) o (s.knowRegion o.regionOf)) <;> rfl

section
variable {l l' : Launch} {o : Offer} {s : State} {c : Checked} (h : l.found o s c = some l')
include h

/-- Checks leave a launch's number, record and base spindle. -/
theorem found_same : l'.acc = l.acc ∧ l'.lrec = l.lrec ∧ l'.base = l.base := by
  cases c with
  | waits => cases h
  | fails e => exact Option.some.inj h ▸ ⟨rfl, rfl, rfl⟩
  | passes hd bars scheds => exact Option.some.inj h ▸ ⟨rfl, rfl, rfl⟩

/-- A launch without an outcome after its checks waits for its dependences, or is queued. -/
theorem found_st (hr : l'.result = none) : l'.st = if (LRecord.ofBytes o.addr o.bytes).ndeps = 0 then .queued else .waiting := by
  cases c with
  | waits => cases h
  | fails e =>
    rw [← Option.some.inj h] at hr
    cases hr
  | passes hd bars scheds => exact Option.some.inj h ▸ rfl

end

/-! ### Acceptance (R63, R64) -/

/-- A launch as accepted. -/
def Launch.ofOffer (acc : Nat) (o : Offer) : Launch := { acc, lrec := LRecord.ofBytes o.addr o.bytes, base := o.base, toCheck := some o }

/-- The part with the launch of an offer accepted, before its checks. -/
def offered (o : Offer) (s : State) : State :=
  { s with acceptCount := s.acceptCount + 1 }.setLaunch s.acceptCount (Launch.ofOffer s.acceptCount o)

/-- What the checks of an offer find. -/
def findings (o : Offer) (s : State) : Checked :=
  if chainWaits s 9 o.regionOf then .waits else checkedIn {} o (s.knowRegion o.regionOf)

theorem findings_of_sameReads {s t : State} (h : SameReads s t) {l : Launch} (hk : l.kept = []) (o : Offer) :
    (if chainWaits t 9 o.regionOf then .waits else checkedIn l o (t.knowRegion o.regionOf)) = findings o s := by
  simp only [findings, h.chainWaits, checkedIn_of_sameReads (h.knowRegion o.regionOf) hk]

theorem offered_sameReads (o : Offer) (s : State) : SameReads s (offered o s) :=
  { mem := rfl, remote := rfl, pkg := rfl, units := rfl, dies := rfl, known := rfl, memReady := rfl, retraining := rfl, tick := rfl
    links := rfl, rcbs := rfl, spaces := rfl, stepping := rfl }

theorem offers_sameReads (s : State) (os : List Offer) : SameReads s { s with offers := os } :=
  { mem := rfl, remote := rfl, pkg := rfl, units := rfl, dies := rfl, known := rfl, memReady := rfl, retraining := rfl, tick := rfl
    links := rfl, rcbs := rfl, spaces := rfl, stepping := rfl }

theorem acceptOffer_eq (o : Offer) (s : State) : acceptOffer o s =
    match (Launch.ofOffer s.acceptCount o).found o ((offered o s).knowRegion o.regionOf) (findings o s) with
    | none => offered o s
    | some l => ((offered o s).knowRegion o.regionOf).setLaunch s.acceptCount l := by
  have launch : (offered o s).launch s.acceptCount = Launch.ofOffer s.acceptCount o := setLaunch_launch ..
  have checks := checkAccepted_eq (s := offered o s) (acc := s.acceptCount) (o := o) (launch ▸ rfl)
  rw [launch, findings_of_sameReads (offered_sameReads o s) rfl] at checks
  exact checks

/-- The launch of an offer, in the state that its acceptance leaves. -/
structure Accepted (o : Offer) (s : State) (l : Launch) : Prop where
  acc : l.acc = s.acceptCount
  lrec : l.lrec = LRecord.ofBytes o.addr o.bytes
  base : l.base = o.base
  fails : ∀ e, findings o s = .fails e → l.toCheck = none ∧ l.result = some e ∧ l.st = .accepted
  passes : l.toCheck = none → l.result = none → l.st = if l.lrec.ndeps = 0 then .queued else .waiting

theorem acceptOffer_accepted (o : Offer) (s : State) : ∃ r ls l,
    acceptOffer o s = { s with acceptCount := s.acceptCount + 1, rcbs := r, launches := ls } ∧ aget? ls s.acceptCount = some l ∧
      Accepted o s l := by
  cases hf : (Launch.ofOffer s.acceptCount o).found o ((offered o s).knowRegion o.regionOf) (findings o s) with
  | none =>
    refine ⟨s.rcbs, _, Launch.ofOffer s.acceptCount o, by rw [acceptOffer_eq, hf]; rfl, aget?_aput_same .., ?_⟩
    refine ⟨rfl, rfl, rfl, fun e he => ?_, fun h => by cases h⟩
    rw [he] at hf
    cases hf
  | some l =>
    obtain ⟨hacc, hrec, hbase⟩ := found_same hf
    refine ⟨_, _, l, by rw [acceptOffer_eq, hf]; rfl, aget?_aput_same .., ⟨hacc, hrec, hbase, fun e he => ?_, fun _ hr => ?_⟩⟩
    · rw [he] at hf
      exact Option.some.inj hf ▸ ⟨rfl, rfl, rfl⟩
    · rw [hrec]
      exact found_st hf hr

theorem findings_firstFailure {s : State} {o : Offer} {e : LaunchResult} (hw : chainWaits s 9 o.regionOf = false) (h : FirstFailure s o e) :
    findings o s = .fails e := by
  rw [findings, hw, if_neg Bool.false_ne_true, checkedIn_firstFailure h]

/-! ### The answer (R213, R216) -/

/-- The core whose LAUNCH is answered. -/
def answered (n d : Nat) (val : Word) (s : State) : State :=
  s.modCore n fun k => { k with wait := .none, gpr := sset k.gpr d val, retired := k.retired + 1 }

theorem answered_core (n d : Nat) (val : Word) (s : State) : sget ((answered n d val s).core n).gpr d = val ∧ ((answered n d val s).core n).wait = .none := by
  rw [answered, modCore_core]
  exact ⟨sget_sset_same .., rfl⟩

section
variable {s : State} {n d : Nat} (hr : (s.core n).recording = false) (hp : (s.core n).replaying = false)
  (hw : (s.core n).wait = .launch (some d))
include hr hp hw

theorem answerOffer_core {o : Offer} (ho : o.who = .core n) (val : Word) : answerOffer o val s = answered n d val s := by
  simp only [answerOffer, ho, answerCore, hw, hp, hr, Bool.false_eq_true, if_false, answered]

end

theorem logBlocks_of_not_recording {s : State} {o : Offer} {n : Nat} (ho : o.who = .core n) (hr : (s.core n).recording = false) :
    s.logBlocks o = false := by
  simp only [State.logBlocks, ho, hr, Bool.false_and]

/-- The first offer that can be answered, behind those that cannot. -/
theorem first_answer {s : State} {pre rest : List Offer} {o : Offer} (h : s.offers = pre ++ o :: rest) (hpre : ∀ x ∈ pre, s.answers x = false)
    (ho : s.answers o = true) : s.offers.find? s.answers = some o ∧ s.offers.eraseP s.answers = pre ++ rest := by
  have none_ : ∀ x ∈ pre, ¬s.answers x = true := fun x hx => by rw [hpre x hx]; exact Bool.false_ne_true
  refine ⟨?_, ?_⟩
  · rw [h, List.find?_append, List.find?_eq_none.2 none_, Option.none_or, List.find?_cons_of_pos ho]
  · rw [h, List.eraseP_append_right _ none_, List.eraseP_cons_of_pos ho]

theorem exec_launchOfferAccepted {s : State} {o : Offer} {os : List Offer} (hf : s.offers.find? s.answers = some o)
    (he : s.offers.eraseP s.answers = os) : exec .launchOfferAccepted s =
      .next (if s.arbiterRoom then answerOffer o (offerResult s.acceptCount) (acceptOffer o { s with offers := os })
        else answerOffer o 0 { s with offers := os }) := by
  show execLaunchOfferAccepted s = _
  simp only [execLaunchOfferAccepted, hf, he]

/-- With room, the first offer is accepted, and its core gets the acceptance number. -/
theorem launch_accepted {s : State} {o : Offer} {pre rest : List Offer} {n d : Nat} (h : s.offers = pre ++ o :: rest) (ho : o.who = .core n)
    (hr : (s.core n).recording = false) (hp : (s.core n).replaying = false) (hw : (s.core n).wait = .launch (some d))
    (room : s.arbiterRoom = true) (hpre : ∀ x ∈ pre, s.logBlocks x = true) : ∃ r ls l,
    exec .launchOfferAccepted s = .next (answered n d (offerResult s.acceptCount)
      { s with offers := pre ++ rest, acceptCount := s.acceptCount + 1, rcbs := r, launches := ls }) ∧
      aget? ls s.acceptCount = some l ∧ Accepted o { s with offers := pre ++ rest } l := by
  obtain ⟨hf, he⟩ := first_answer h (fun x hx => by simp [State.answers, hpre x hx])
    (by simp [State.answers, room, logBlocks_of_not_recording ho hr])
  obtain ⟨r, ls, l, e, hl, ha⟩ := acceptOffer_accepted o { s with offers := pre ++ rest }
  refine ⟨r, ls, l, ?_, hl, ha⟩
  rw [exec_launchOfferAccepted hf he, if_pos room, e]
  exact congrArg Outcome.next (answerOffer_core (s := { s with offers := pre ++ rest, acceptCount := s.acceptCount + 1, rcbs := r, launches := ls })
    hr hp hw ho (offerResult s.acceptCount))

/-- Without room, an offer with NW is answered 0, behind others that wait. -/
theorem launch_turnedAway {s : State} {o : Offer} {pre rest : List Offer} {n d : Nat} (h : s.offers = pre ++ o :: rest) (ho : o.who = .core n)
    (hr : (s.core n).recording = false) (hp : (s.core n).replaying = false) (hw : (s.core n).wait = .launch (some d))
    (full : s.arbiterRoom = false) (nw : o.nw = true) (hpre : ∀ x ∈ pre, x.nw = false ∨ s.logBlocks x = true) :
    exec .launchOfferAccepted s = .next (answered n d 0 { s with offers := pre ++ rest }) := by
  obtain ⟨hf, he⟩ := first_answer h (fun x hx => by obtain hx | hx := hpre x hx <;> simp [State.answers, full, hx])
    (by simp [State.answers, nw, logBlocks_of_not_recording ho hr])
  rw [exec_launchOfferAccepted hf he, full, if_neg Bool.false_ne_true]
  exact congrArg Outcome.next (answerOffer_core (s := { s with offers := pre ++ rest }) hr hp hw ho 0)

theorem launchAccepted : LaunchAccepted := by
  refine ⟨fun s o pre rest n d h ho hr hp hw => ⟨fun hlt hpre => ?_, fun hle nw hpre => ?_⟩, fun s hle hnw => ?_⟩
  · obtain ⟨r, ls, l, step, hl, ha⟩ := launch_accepted h ho hr hp hw (decide_eq_true hlt) hpre
    have core := answered_core n d (offerResult s.acceptCount)
      { s with offers := pre ++ rest, acceptCount := s.acceptCount + 1, rcbs := r, launches := ls }
    refine ⟨_, l, step, rfl, rfl, core.1, core.2, sameMemory_of_fields rfl rfl rfl rfl rfl, hl, ha.acc, ha.lrec, ha.base, fun e hwait hfirst => ?_,
      ha.passes⟩
    have region : l.lrec.region.toNat = o.regionOf := congrArg (fun r : LRecord => r.region.toNat) ha.lrec
    refine ha.fails e ?_
    rw [findings, findings_of_sameReads (offers_sameReads s (pre ++ rest)) rfl]
    exact findings_firstFailure (region ▸ hwait) hfirst
  · have core := answered_core n d 0 { s with offers := pre ++ rest }
    exact ⟨_, launch_turnedAway h ho hr hp hw (decide_eq_false (Nat.not_lt.2 hle)) nw hpre, rfl, rfl, core.1, rfl⟩
  · have none_ : s.offers.find? s.answers = none := List.find?_eq_none.2 fun x hx => by
      simp [State.answers, State.arbiterRoom, Nat.not_lt.2 hle, hnw x hx]
    show execLaunchOfferAccepted s = _
    simp only [execLaunchOfferAccepted, none_]

/-- Settles O41, part by part. -/
theorem launchSteps : Obligations.LaunchSteps := ⟨launchAccepted, dependenceObserved, outcomeWritten, skeinsDealt⟩

end Sys2Proof.Machine
end

section
/-! PROOFS. Words and instructions: what encodes decodes, what decodes encodes, and what is refused (R83, R84, R99, R100). -/

namespace Sys2Proof.Machine

open Host (Outcome)
open Sys2Proof.Claims

/-! ### The fields of a word (R84) -/

theorem ty_code_lt (t : Ty) : t.code < 16 := by cases t <;> decide

@[simp] theorem ty_ofCode_code (t : Ty) : Ty.ofCode t.code = t := by cases t <;> rfl

theorem ty_code_ofCode : ∀ n < 16, (Ty.ofCode n).code = n := by decide

/-- The number that OPC, FN and the fields make fits the word. -/
theorem toWord_toNat (opc fn : Nat) (f : Fields) : (f.toWord opc fn).toNat =
    f.m.toNat + 2 ^ 8 * f.c.toNat + 2 ^ 16 * f.b.toNat + 2 ^ 24 * f.a.toNat + 2 ^ 32 * f.d.toNat
    + 2 ^ 40 * (if f.x.isSome then 1 else 0) + 2 ^ 41 * f.ty.code + 2 ^ 45 * (if f.u then 1 else 0)
    + 2 ^ 46 * f.la.toNat + 2 ^ 50 * f.tc.toNat + 2 ^ 52 * (fn % 16) + 2 ^ 56 * (opc % 256) := by
  have hty := ty_code_lt f.ty
  have hx : (if f.x.isSome then 1 else 0) ≤ 1 := by split <;> omega
  have hu : (if f.u then 1 else 0) ≤ 1 := by split <;> omega
  unfold Fields.toWord
  rw [BitVec.toNat_ofNat]
  refine Nat.mod_eq_of_lt ?_
  generalize (if f.x.isSome then 1 else 0) = x at *
  generalize (if f.u then 1 else 0) = u at *
  omega

/-- Every field of the word that OPC, FN and the fields make reads as it was put (R84). -/
theorem bitsOf_toWord (opc fn : Nat) (f : Fields) :
    bitsOf (f.toWord opc fn) 56 8 = opc % 256 ∧ bitsOf (f.toWord opc fn) 52 4 = fn % 16 ∧
    bitsOf (f.toWord opc fn) 50 2 = f.tc.toNat ∧ bitsOf (f.toWord opc fn) 46 4 = f.la.toNat ∧
    bitsOf (f.toWord opc fn) 45 1 = (if f.u then 1 else 0) ∧ bitsOf (f.toWord opc fn) 41 4 = f.ty.code ∧
    bitsOf (f.toWord opc fn) 40 1 = (if f.x.isSome then 1 else 0) ∧ bitsOf (f.toWord opc fn) 32 8 = f.d.toNat ∧
    bitsOf (f.toWord opc fn) 24 8 = f.a.toNat ∧ bitsOf (f.toWord opc fn) 16 8 = f.b.toNat ∧
    bitsOf (f.toWord opc fn) 8 8 = f.c.toNat ∧ bitsOf (f.toWord opc fn) 0 8 = f.m.toNat := by
  have hty := ty_code_lt f.ty
  have hx : (if f.x.isSome then 1 else 0) ≤ 1 := by split <;> omega
  have hu : (if f.u then 1 else 0) ≤ 1 := by split <;> omega
  have hm := f.m.isLt; have hc := f.c.isLt; have hb := f.b.isLt; have ha := f.a.isLt; have hd := f.d.isLt
  have hla := f.la.isLt; have htc := f.tc.isLt
  simp only [bitsOf, toWord_toNat]
  generalize (if f.x.isSome then 1 else 0) = x at *
  generalize (if f.u then 1 else 0) = u at *
  refine ⟨?_, ?_, ?_, ?_, ?_, ?_, ?_, ?_, ?_, ?_, ?_, ?_⟩ <;> omega

end Sys2Proof.Machine
end

section
namespace Sys2Proof.Machine

open Host (Outcome)
open Sys2Proof.Claims

theorem bitsOf_lt (w : Word) (lo n : Nat) : bitsOf w lo n < 2 ^ n := Nat.mod_lt _ (Nat.two_pow_pos n)

/-- The fields of the word that the fields make, with their extension word, are those fields (R84). -/
theorem ofWord_toWord (opc fn : Nat) (f : Fields) : Fields.ofWord (f.toWord opc fn) (f.x.getD 0) = f := by
  obtain ⟨-, -, htc, hla, hu, hty, hx, hd, ha, hb, hc, hm⟩ := bitsOf_toWord opc fn f
  unfold Fields.ofWord
  rw [htc, hla, hu, hty, hx, hd, ha, hb, hc, hm]
  obtain ⟨tc, la, u, ty, d, a, b, c, m, x⟩ := f
  cases u <;> cases x <;> simp

@[simp] theorem hasExt_toWord (opc fn : Nat) (f : Fields) : hasExt (f.toWord opc fn) = f.x.isSome := by
  obtain ⟨-, -, -, -, -, -, hx, -⟩ := bitsOf_toWord opc fn f
  rw [hasExt, hx]
  cases f.x <;> rfl

/-- The word of the fields of a word, under its own OPC and FN, is that word (R84). -/
theorem toWord_ofWord (w x : Word) : (Fields.ofWord w x).toWord (bitsOf w 56 8) (bitsOf w 52 4) = w := by
  have hty : (Ty.ofCode (bitsOf w 41 4)).code = bitsOf w 41 4 := ty_code_ofCode _ (bitsOf_lt ..)
  have hx : (if (Fields.ofWord w x).x.isSome then 1 else 0) = bitsOf w 40 1 := by
    have := bitsOf_lt w 40 1
    by_cases h : bitsOf w 40 1 = 1 <;> simp [Fields.ofWord, h]; omega
  have hu : (if (Fields.ofWord w x).u then 1 else 0) = bitsOf w 45 1 := by
    have := bitsOf_lt w 45 1
    by_cases h : bitsOf w 45 1 = 1 <;> simp [Fields.ofWord, h]; omega
  have hw := w.isLt
  apply BitVec.eq_of_toNat_eq
  rw [toWord_toNat, hx, hu]
  simp only [Fields.ofWord, hty, BitVec.toNat_ofNat]
  simp only [bitsOf]
  omega

/-- X tells whether the fields of a word hold an extension word (R83). -/
theorem ofWord_x (w x : Word) : (Fields.ofWord w x).x.toList = if hasExt w then [x] else [] := by
  unfold Fields.ofWord hasExt
  by_cases h : bitsOf w 40 1 = 1 <;> simp [h]

/-! ### Bytes (R8, R83) -/

/-- The bytes of a word, whatever follows them, hold it (R8). -/
theorem bytesWord_wordBytes (w : Word) (l : List Byte) : bytesWord (wordBytes w ++ l) = w := by
  have hw := w.isLt
  apply BitVec.eq_of_toNat_eq
  simp [bytesWord, wordBytes, List.range_succ]
  omega

theorem wordBytes_length (w : Word) : (wordBytes w).length = 8 := by simp [wordBytes]

/-! ### The opcode map and the decoder (R99) -/

end Sys2Proof.Machine

namespace Sys2Proof.Laws.Opcode

/-- Every instruction's row names it in the decoder's table: the per-instruction facts together. -/
theorem all (i : Instr) : Statement i :=
  i.rec (motive := Statement)
    nop yield halt icsync bkpt br brz brnz jmpi call ret join exit plyw msave mset mand mor mxor mnot trap syscall eret csrr csrw launch iadd
    isub imul imulh imad imin imax iabs and or xor not shl shr sar rol ror popc clz brev bfe bfi sel icmpEq icmpNe icmpLt icmpLe icmpGt
    icmpGe mov movi fadd fsub fmul ffma fmin fmax fcmpEq fcmpNe fcmpLt fcmpLe fcmpGt fcmpGe fcmpUo fcmpOrd fsel frcp frsq fsqrt fexp2 flog2
    fsin fcos frnd cvt packPair packQuad packOct unpkPair unpkQuad unpkOct shflIdx shflUp shflDown shflXor voteAll voteAny voteBallot voteEq
    redAdd redMin redMax redAnd redOr redXor scanAdd scanMin scanMax scanAnd scanOr scanXor bcast rds ld st ldu pref atomAdd atomMin atomMax
    atomAnd atomOr atomXor atomXchg atomCas atomInc mredAdd mredMin mredMax mredAnd mredOr mredXor mredInc bara barw barx tbar fenceQ
    fenceSys tokenGet tokenPut dqpush dqpop evpop vfpush vfpop vfcnt cpy cpyMig cpyc cpyg cpys cpyk stage qfence tcfg tld tst tzero mma mmas
    mmax tcvt srfence xg xgP xinit xrd xrdQ xwr xfill xwin xration xrun xstat xmap xmapWr launchOfferAccepted dependenceObserved dealSkeins
    dispatchDecision deterministicPlace baseSpindlePlace stealRequest stealAnswer skeinRetire launchOutcomeWrite longLatencyLanding joinMerge
    queueCreditRetry driftStep intervalBoundary heldAccessRetry sideLogReplay mmuShootdown mmuWake mmuFqWrite fqptrTailWrite hotcfgWrite
    hotThreshold hotDecay memCfgWrite mcFrbaseWrite rcbsyncWrite remoteAccessArrival remoteReplyArrival remoteReplyTimeout gddrRetrain
    retrainEnd copyCmdStart copyCmdComplete matrixCmdStart matrixStep matrixCmdComplete xqCmdStart xbarWritePhase xqCmdComplete xrdAdmit
    xwrPerform barrierWaitEnd tbarRelease dqpopDeliver evpopDeliver vfifoWaitEnd tokenArrive takeTrap trapPlyEnd trapPlyStop trapPlyRun
    trapRdatWrite preemptHold preemptRelease skeinHalted contextSaved skeinResume dbgRelease acctStringWrite sampleTick replayDeliver
    syncBsqWrite frameEnterA1 frameEnterA2 dieEnterA3 packageA4Request a4Exit unitWake wakeComplete pwrForceGate pwrForceClear
    gateIngressClose computeDieResetRelease packageReset bootImageFetched bootRetry secExtend secAttest ethReceive ethTransmit hostAccess
    linkStateChange linkCrcRetry linkStatWrite privateLineEviction gddrTrainingDone ethernetPortStateChange hostPortTrained

end Sys2Proof.Laws.Opcode

namespace Sys2Proof.Machine

open Sys2Proof.Claims

/-- At the opcode and function of a row the decoder's table finds an instruction with the fields asked for. -/
theorem ofOp_of_row {i : Instr} {r : OpRow} (h : i.row = some r) (f : Fields) :
    ∃ j, Instr.ofOp r.opc r.fn f = some j ∧ j.fields = some f := by
  cases i
  case cpy | cpyMig | xrd | xrdQ | xmap | xmapWr => cases h; exact ⟨_, rfl, by split <;> rfl⟩
  all_goals cases h
  all_goals exact ⟨_, rfl, rfl⟩

/-- The opcodes at which an M bit tells two instructions apart (R252, R299). -/
def splitOpcodes : List Nat := [0xA0, 0xC2, 0xC9]

/-- What the decoder's table finds at an opcode and function has a row, and the row names them. -/
def rowAgrees (f : Fields) (opc fn : Nat) : Bool :=
  match Instr.ofOp opc fn f with
  | none => true
  | some i => match i.row with
    | none => false
    | some r => r.opc == opc && r.fn == fn

/-- A property of a byte checked by its two nibbles. -/
theorem byte_of_nibbles {p : Nat → Bool} (h : ((List.range 16).all fun hi => (List.range 16).all fun lo => p (16 * hi + lo)) = true)
    {n : Nat} (hn : n < 256) : p n = true := by
  have hi := List.all_eq_true.mp h (n / 16) (List.mem_range.mpr (by omega))
  have lo := List.all_eq_true.mp hi (n % 16) (List.mem_range.mpr (by omega))
  rwa [show 16 * (n / 16) + n % 16 = n by omega] at lo

/-- The table of opcodes and functions, all over (R99). -/
theorem rowAgrees_table (f : Fields) : ((List.range 16).all fun hi => (List.range 16).all fun lo =>
    !opcAssigned (16 * hi + lo) || splitOpcodes.contains (16 * hi + lo) || (List.range 16).all (rowAgrees f (16 * hi + lo))) = true := by
  rfl

theorem rowAgrees_of_assigned (f : Fields) {opc fn : Nat} (ho : opcAssigned opc = true) (hs : opc ∉ splitOpcodes) (h8 : opc < 256)
    (h4 : fn < 16) : rowAgrees f opc fn = true := by
  have table := byte_of_nibbles (p := fun n => !opcAssigned n || splitOpcodes.contains n || (List.range 16).all (rowAgrees f n))
    (rowAgrees_table f) h8
  simp only [ho, Bool.not_true, Bool.false_or, Bool.or_eq_true, List.contains_iff_mem, hs, false_or] at table
  exact List.all_eq_true.mp table fn (List.mem_range.mpr h4)

/-- Such an opcode has function 0 alone, and both its instructions have it in their rows. -/
theorem row_of_ofOp_split {opc fn : Nat} {f : Fields} {i : Instr} (hs : opc ∈ splitOpcodes) (h : Instr.ofOp opc fn f = some i) :
    ∃ r, i.row = some r ∧ r.opc = opc ∧ r.fn = fn := by
  simp only [splitOpcodes, List.mem_cons, List.not_mem_nil, or_false] at hs
  obtain rfl | rfl | rfl := hs <;> obtain _ | n := fn
  case inl.succ | inr.inl.succ | inr.inr.succ => cases h
  all_goals
    obtain rfl := Option.some.inj h
    split <;> exact ⟨_, rfl, rfl, rfl⟩

/-- What the decoder's table finds is an instruction of that opcode and function. -/
theorem row_of_ofOp {opc fn : Nat} {f : Fields} {i : Instr} (ho : opcAssigned opc = true) (h8 : opc < 256) (h4 : fn < 16)
    (h : Instr.ofOp opc fn f = some i) : ∃ r, i.row = some r ∧ r.opc = opc ∧ r.fn = fn := by
  by_cases hs : opc ∈ splitOpcodes
  · exact row_of_ofOp_split hs h
  · have agrees := rowAgrees_of_assigned f ho hs h8 h4
    unfold rowAgrees at agrees
    rw [h] at agrees
    cases hr : i.row with
    | none => simp [hr] at agrees
    | some r => exact ⟨r, rfl, by simpa [hr] using agrees⟩

theorem ofOp_zero_table : ((List.range 16).all fun hi => (List.range 16).all fun lo =>
    !opcAssigned (16 * hi + lo) || (Instr.ofOp (16 * hi + lo) 0 (Fields.ofWord 0 0)).isSome) = true := by
  rfl

/-- An opcode that the map assigns has a function 0. -/
theorem ofOp_zero_of_assigned {opc : Nat} (h8 : opc < 256) (ho : opcAssigned opc = true) :
    (Instr.ofOp opc 0 (Fields.ofWord 0 0)).isSome = true := by
  simpa [ho] using byte_of_nibbles (p := fun n => !opcAssigned n || (Instr.ofOp n 0 (Fields.ofWord 0 0)).isSome) ofOp_zero_table h8

/-- A row's opcode is one that the map assigns. -/
theorem opcAssigned_of_row {i : Instr} {r : OpRow} (h : i.row = some r) : opcAssigned r.opc = true := by
  cases i <;> cases h <;> rfl

/-- An opcode is assigned exactly when an instruction has it. -/
theorem mapped_iff_assigned {opc : Nat} (h8 : opc < 256) : Mapped opc none ↔ opcAssigned opc = true := by
  constructor
  · rintro ⟨i, r, hr, rfl, -⟩
    exact opcAssigned_of_row hr
  · intro ho
    obtain ⟨i, hi⟩ := Option.isSome_iff_exists.mp (ofOp_zero_of_assigned h8 ho)
    obtain ⟨r, hr, hopc, -⟩ := row_of_ofOp ho h8 (by decide) hi
    exact ⟨i, r, hr, hopc, nofun⟩

/-- The decoder's table finds nothing exactly where no instruction has the opcode and function. -/
theorem ofOp_none_iff {opc fn : Nat} (f : Fields) (ho : opcAssigned opc = true) (h8 : opc < 256) (h4 : fn < 16) :
    Instr.ofOp opc fn f = none ↔ ¬Mapped opc (some fn) := by
  constructor
  · rintro h ⟨i, r, hr, rfl, hfn⟩
    obtain ⟨j, hj, -⟩ := ofOp_of_row hr f
    rw [hfn fn rfl, h] at hj
    cases hj
  · intro hn
    by_contra h
    obtain ⟨i, hi⟩ := Option.ne_none_iff_exists'.mp h
    obtain ⟨r, hr, hopc, hfn⟩ := row_of_ofOp ho h8 h4 hi
    exact hn ⟨i, r, hr, hopc, fun n e => by cases e; exact hfn⟩

/-! ### Decoding (R100) -/

/-- What a word of an assigned opcode decodes to. -/
theorem decode_of_assigned {w : Word} (x : Word) (ho : opcAssigned (bitsOf w 56 8) = true) : decode w x =
    match Instr.ofOp (bitsOf w 56 8) (bitsOf w 52 4) (Fields.ofWord w x) with
    | none => .badFunction
    | some i => if i.fieldsOk then .instr i else .badField ((i.row.map OpRow.runs).getD .both) := by
  simp [decode, ho] <;> rfl

/-- The word of an instruction whose fields are right decodes to it. -/
theorem decode_toWord {i : Instr} {r : OpRow} {f : Fields} (hr : i.row = some r) (hf : i.fields = some f) (ok : r.fieldsOk f = true) :
    decode (f.toWord r.opc r.fn) (f.x.getD 0) = .instr i := by
  obtain ⟨hof, ho, h8, h4⟩ := Laws.Opcode.all i r f hr hf ok
  obtain ⟨hopc, hfn, -⟩ := bitsOf_toWord r.opc r.fn f
  rw [Nat.mod_eq_of_lt h8] at hopc
  rw [Nat.mod_eq_of_lt h4] at hfn
  rw [decode_of_assigned _ (by rw [hopc, ho]), hopc, hfn, ofWord_toWord, hof]
  simp [Instr.fieldsOk, hr, hf, ok]

theorem encode_eq {i : Instr} {r : OpRow} {f : Fields} (hr : i.row = some r) (hf : i.fields = some f) :
    encode i = f.toWord r.opc r.fn :: f.x.toList := by
  unfold encode
  rw [hr, hf]

/-- The bytes of a word and of its extension word, where it has one, decode as the words do. -/
theorem decodeBytes_words (w : Word) (x : Option Word) (hx : hasExt w = x.isSome) :
    decodeBytes ((w :: x.toList).flatMap wordBytes) = decode w (x.getD 0) := by
  cases x with
  | none =>
    have first : bytesWord (wordBytes w) = w := by simpa using bytesWord_wordBytes w []
    simp [decodeBytes, first, hx]
  | some x =>
    have second : bytesWord (wordBytes x) = x := by simpa using bytesWord_wordBytes x []
    simp [decodeBytes, bytesWord_wordBytes, hx, second, wordBytes_length]

/-- Settles O52: every field reads as it was put, and the decoder's table names each row's instruction. -/
theorem encodeDecodeRoundTrip : Obligations.EncodeDecodeRoundTrip := by
  intro i r f hr hf ok
  refine ⟨decode_toWord hr hf ok, encode_eq hr hf, ?_⟩
  rw [encode_eq hr hf, decodeBytes_words _ _ (hasExt_toWord ..), decode_toWord hr hf ok]

theorem decode_badOpcode_iff (w x : Word) : decode w x = .badOpcode ↔ opcAssigned (bitsOf w 56 8) = false := by
  cases ho : opcAssigned (bitsOf w 56 8)
  · simp [decode, ho]
  · rw [decode_of_assigned x ho]
    cases Instr.ofOp (bitsOf w 56 8) (bitsOf w 52 4) (Fields.ofWord w x) with
    | none => simp
    | some i => simp only; split <;> simp

theorem decode_badFunction_iff (w x : Word) : decode w x = .badFunction ↔
    opcAssigned (bitsOf w 56 8) = true ∧ Instr.ofOp (bitsOf w 56 8) (bitsOf w 52 4) (Fields.ofWord w x) = none := by
  cases ho : opcAssigned (bitsOf w 56 8)
  · simp [(decode_badOpcode_iff w x).mpr ho]
  · rw [decode_of_assigned x ho]
    cases Instr.ofOp (bitsOf w 56 8) (bitsOf w 52 4) (Fields.ofWord w x) with
    | none => simp
    | some i => simp; split <;> simp

/-- A word that decodes to an instruction is its encoding, with the extension word where X is set. -/
theorem encode_of_decode {w x : Word} {i : Instr} (h : decode w x = .instr i) :
    i.fieldsOk = true ∧ encode i = w :: (if hasExt w then [x] else []) := by
  cases ho : opcAssigned (bitsOf w 56 8)
  · simp [(decode_badOpcode_iff w x).mpr ho] at h
  rw [decode_of_assigned x ho] at h
  cases hof : Instr.ofOp (bitsOf w 56 8) (bitsOf w 52 4) (Fields.ofWord w x) with
  | none => simp [hof] at h
  | some j =>
    simp only [hof] at h
    split at h <;> cases h
    next ok =>
      obtain ⟨r, hr, hopc, hfn⟩ := row_of_ofOp ho (bitsOf_lt ..) (bitsOf_lt ..) hof
      obtain ⟨k, hk, hf⟩ := ofOp_of_row hr (Fields.ofWord w x)
      rw [hopc, hfn, hof] at hk
      obtain rfl := Option.some.inj hk
      exact ⟨ok, by rw [encode_eq hr hf, hopc, hfn, toWord_ofWord, ofWord_x]⟩

/-- Settles O53: the encoding of what a word decodes to is the word, and the two refusals are those of the map. -/
theorem decodeExact : Obligations.DecodeExact := by
  intro w x
  have h8 : bitsOf w 56 8 < 256 := bitsOf_lt ..
  refine ⟨fun i h => encode_of_decode h, ?_, ?_⟩
  · rw [decode_badOpcode_iff, mapped_iff_assigned h8, Bool.not_eq_true]
  · rw [decode_badFunction_iff, mapped_iff_assigned h8]
    exact and_congr_right fun ho => ofOp_none_iff _ ho h8 (bitsOf_lt ..)

/-- Settles O54, by evaluation of the decoder on each word. -/
theorem decodeWords : Obligations.DecodeWords := by
  unfold Obligations.DecodeWords
  decide

end Sys2Proof.Machine
end

section
/-! PROOFS. Register accesses that a register's map forbids (R210, R212, R326, R345). -/

namespace Sys2Proof.Machine

open Host (Outcome)
open Sys2Proof.Claims

/-- A register of system cores is closed to a ply and a distaff. -/
theorem csrAllowed_core {n : Nat} (h : n ∈ coreNumbers) (handler dist write : Bool) : csrAllowed handler dist write n = false := by
  have core : ∀ n ∈ coreNumbers, csrCoreOnly n = true := by decide
  simp [csrAllowed, core n h]

/-- A trap register is open in handler mode alone. -/
theorem csrAllowed_trap {n : Nat} (h : n ∈ trapNumbers) (handler dist write : Bool) : csrAllowed handler dist write n = handler := by
  have trap : ∀ n ∈ trapNumbers, csrCoreOnly n = false ∧ csrTrap n = true := by decide
  simp [csrAllowed, trap n h]

/-- The two registers of the control group that a ply and a distaff only read. -/
theorem csrAllowed_ctl {n : Nat} (h : n = 0x0100 ∨ n = 0x0101) (handler dist write : Bool) : csrAllowed handler dist write n = !write := by
  obtain rfl | rfl := h <;> simp [csrAllowed, csrCoreOnly, csrTrap]

/-- sync.detwin is written by a distaff alone. -/
theorem csrAllowed_detwin (handler dist write : Bool) : csrAllowed handler dist write 0x0802 = (!write || dist) := by
  simp [csrAllowed, csrCoreOnly, csrTrap]

/-- PRIVILEGE reports the instruction's own word. -/
theorem privilegeTrap_eq {i : Instr} {r : OpRow} {f : Fields} (hr : i.row = some r) (hf : i.fields = some f) :
    privilegeTrap i = privTrap r f := by
  simp [privilegeTrap, hr, hf, privTrap, decodeTrap]

/-- What issues is no system core's. -/
theorem Issues.not_core {i : Instr} {r : OpRow} {f : Fields} {s s1 : State} {c : Ctx} (h : Issues i r f s c s1) (n : Nat) :
    s.cur ≠ .core n := fun e => by
  obtain ⟨c0, h0, -⟩ := h.checked
  simp [e, State.ctx?] at h0

theorem csrr_forbidden {r : OpRow} {f : Fields} {s s1 : State} {c : Ctx} (h : Issues (.csrr f) r f s c s1)
    (no : csrAllowed c.handler c.dist false f.csr = false) : exec (.csrr f) s = .next (takeTrap c (privTrap r f) c.pc s1) := by
  show execCsrr f s = _
  unfold execCsrr
  split
  · next n e => exact absurd e (h.not_core n)
  · exact guarded_trap h (by simp [no, privilegeTrap_eq h.row h.fields])

theorem csrw_forbidden {r : OpRow} {f : Fields} {s s1 : State} {c : Ctx} (h : Issues (.csrw f) r f s c s1)
    (no : csrAllowed c.handler c.dist true f.csr = false) : exec (.csrw f) s = .next (takeTrap c (privTrap r f) c.pc s1) := by
  show execCsrw f s = _
  unfold execCsrw
  split
  · next n e => exact absurd e (h.not_core n)
  · exact guarded_trap h (by simp [no, privilegeTrap_eq h.row h.fields])

/-- Settles O30: the map's check refuses each access, and the refusal is the trap. -/
theorem registerPrivilege : Obligations.RegisterPrivilege := by
  intro r f s s1 c
  constructor
  · rintro (hcore | ⟨htrap, hm⟩) h
    · exact csrr_forbidden h (csrAllowed_core hcore ..)
    · exact csrr_forbidden h (by rw [csrAllowed_trap htrap, hm])
  · rintro (hcore | ⟨htrap, hm⟩ | hscale | hsync | ⟨hwin, hd⟩) h
    · exact csrw_forbidden h (csrAllowed_core hcore ..)
    · exact csrw_forbidden h (by rw [csrAllowed_trap htrap, hm])
    · exact csrw_forbidden h (csrAllowed_ctl (.inl hscale) ..)
    · exact csrw_forbidden h (csrAllowed_ctl (.inr hsync) ..)
    · exact csrw_forbidden h (by rw [hwin, csrAllowed_detwin, hd]; rfl)

end Sys2Proof.Machine
end

section
/-! PROOFS. What an instruction of register form leaves as it was (R88, R102, R105). -/

namespace Sys2Proof.Machine

open Host (Outcome)
open Sys2Proof.Claims

/-! ### Changes inside the party -/

/-- Two contexts are of the same place: a skein slot, and in it the distaff or one ply. -/
structure Ctx.SamePlace (c d : Ctx) : Prop where
  sp : d.sp = c.sp
  slot : d.slot = c.slot
  dist : d.dist = c.dist
  plyNo : d.plyNo = c.plyNo

/-- A party is of one place in every state. -/
theorem ctx?_samePlace {s t : State} {p : Party} {c d : Ctx} (h : s.ctx? p = some c) (g : t.ctx? p = some d) : c.SamePlace d := by
  cases p with
  | core n => simp [State.ctx?] at h
  | dist sp slot =>
    simp only [State.ctx?, Option.map_eq_some_iff] at h g
    obtain ⟨k, -, rfl⟩ := h
    obtain ⟨l, -, rfl⟩ := g
    exact ⟨rfl, rfl, rfl, rfl⟩
  | path sp slot ply idx =>
    simp only [State.ctx?] at h g
    split at h
    · cases h
    · split at h <;> cases h
      split at g
      · cases g
      · split at g <;> cases g
        exact ⟨rfl, rfl, rfl, rfl⟩

/-- A changed element is one replaced by what it becomes. -/
theorem modNth_const {α : Type} (l : List α) (i : Nat) (g : α → α) (d : α) : modNth l i g = modNth l i fun _ => g (nth l i d) := by
  induction l generalizing i with
  | nil => rfl
  | cons x l ih => cases i with
    | zero => rfl
    | succ i => exact congrArg (x :: ·) (ih i)

theorem modPly_const (k : Skein) (n : Nat) (g : Ply → Ply) : k.modPly n g = k.modPly n fun _ => g (k.ply n) := by
  unfold Skein.modPly Skein.ply
  rw [← modNth_const]

theorem sameOutside_trans {s t u : State} (h : SameOutside s t) (g : SameOutside t u) : SameOutside s u := by
  obtain ⟨sp, tk, op, cu, ag, ti, rfl⟩ := h
  obtain ⟨sp', tk', op', cu', ag', ti', rfl⟩ := g
  exact ⟨sp', tk', op', cu', ag', ti', rfl⟩

theorem sameOutside_modSpindle (s : State) (sp : Nat) (g : Spindle → Spindle) : SameOutside s (s.modSpindle sp g) :=
  ⟨_, s.tick, s.opSeq, s.cur, s.agenda, s.time, rfl⟩

theorem registerFrame_refl (c : Ctx) (s : State) : RegisterFrame c s s := by
  refine ⟨⟨s.spindles, s.tick, s.opSeq, s.cur, s.agenda, s.time, rfl⟩, fun _ => rfl, fun _ _ => rfl, ?_, fun _ _ => rfl, ?_⟩
  · exact ⟨_, _, _, _, _, _, _, _, _, rfl⟩
  · split
    · cases hk : s.skein? c.sp c.slot with
      | none => exact ⟨{}, rfl⟩
      | some k => exact ⟨k.dist, rfl⟩
    · cases hk : s.skein? c.sp c.slot with
      | none => exact ⟨{}, rfl⟩
      | some k => exact ⟨k.ply c.plyNo, by simp only [Option.map_some, Skein.modPly, Skein.ply, modNth_self rfl]⟩

theorem registerFrame_trans {c : Ctx} {s t u : State} (h : RegisterFrame c s t) (g : RegisterFrame c t u) : RegisterFrame c s u := by
  obtain ⟨out, mem, sps, ⟨a, b, d, e, i, j, k, l, m, hsp⟩, slots, own⟩ := h
  obtain ⟨out', mem', sps', ⟨a', b', d', e', i', j', k', l', m', hsp'⟩, slots', own'⟩ := g
  refine ⟨sameOutside_trans out out', fun x => (mem' x).trans (mem x), fun x hx => (sps' x hx).trans (sps x hx), ?_,
    fun x hx => (slots' x hx).trans (slots x hx), ?_⟩
  · rw [hsp] at hsp'
    exact ⟨_, _, _, _, _, _, _, _, _, hsp'⟩
  · split at own
    · next hd =>
      rw [if_pos hd] at own' ⊢
      obtain ⟨x, hx⟩ := own
      obtain ⟨y, hy⟩ := own'
      exact ⟨y, by rw [hy, hx, Option.map_map]; rfl⟩
    · next hd =>
      rw [if_neg hd] at own' ⊢
      obtain ⟨x, hx⟩ := own
      obtain ⟨y, hy⟩ := own'
      refine ⟨y, ?_⟩
      rw [hy, hx, Option.map_map]
      congr 1
      funext k
      simp only [Function.comp_apply, Skein.modPly, modNth_modNth]

/-- What of a spindle an instruction of register form may change beside its slots. -/
def CountsOnly (x y : Spindle) : Prop :=
  ∃ ctr fl ta cy nr af lo lp, y =
    { x with ctr := ctr, flow := fl, taken := ta, cycleOf := cy, near := nr, affHeld := af, looked := lo, lastPath := lp }

theorem registerFrame_modSpindle {c : Ctx} {s : State} {g : Spindle → Spindle} (h : ∀ x, CountsOnly x (g x)) :
    RegisterFrame c s (s.modSpindle c.sp g) := by
  have slots : ∀ q slot, (s.modSpindle c.sp g).skein? q slot = s.skein? q slot := fun q slot => by
    refine congrArg (nth · slot none) (modSpindle_spindle_slots (fun x => ?_) q)
    obtain ⟨_, _, _, _, _, _, _, _, e⟩ := h x
    rw [e]
  obtain ⟨-, -, -, -, -, own⟩ := registerFrame_refl c s
  refine ⟨sameOutside_modSpindle .., fun _ => rfl, fun q hq => modSpindle_spindle_other _ _ _ _ hq, ?_, fun slot _ => slots .., ?_⟩
  · obtain ⟨a, b, d, e, i, j, k, l, eq⟩ := h (s.spindle c.sp)
    exact ⟨a, b, d, e, i, j, k, l, _, (modSpindle_spindle ..).trans eq⟩
  · rw [slots]
    exact own

/-- A change of the party's own skein that touches its distaff alone, or its ply alone. -/
theorem registerFrame_modSkein {c : Ctx} {s : State} {g : Skein → Skein}
    (h : ∀ k, if c.dist then ∃ d, g k = { k with dist := d } else ∃ p, g k = k.modPly c.plyNo fun _ => p) :
    RegisterFrame c s (s.modSkein c.sp c.slot g) := by
  cases hk : s.skein? c.sp c.slot with
  | none =>
    have e : s.modSkein c.sp c.slot g = s := by simp [State.modSkein, hk]
    rw [e]
    exact registerFrame_refl c s
  | some k =>
    have e : s.modSkein c.sp c.slot g = s.setSkein c.sp c.slot (some (g k)) := by simp [State.modSkein, hk]
    have own := modSkein_skein? g hk
    refine ⟨?_, fun a => ?_, fun q hq => ?_, ?_, fun slot hs => modSkein_skein?_other _ _ _ _ _ _ fun x => hs x.2, ?_⟩
    · rw [e]; exact sameOutside_modSpindle ..
    · rw [e]; rfl
    · rw [e]; exact modSpindle_spindle_other _ _ _ _ hq
    · rw [e]; exact ⟨_, _, _, _, _, _, _, _, _, modSpindle_spindle ..⟩
    · have hg := h k
      rw [own, hk]
      split at hg
      · next hd => rw [if_pos hd]; obtain ⟨d, hd⟩ := hg; exact ⟨d, congrArg some hd⟩
      · next hd => rw [if_neg hd]; obtain ⟨p, hp⟩ := hg; exact ⟨p, congrArg some hp⟩

theorem registerFrame_modDist {c : Ctx} (hd : c.dist = true) (s : State) (g : Dist → Dist) : RegisterFrame c s (c.modDist s g) :=
  registerFrame_modSkein fun k => by rw [if_pos hd]; exact ⟨g k.dist, rfl⟩

theorem registerFrame_modPly {c : Ctx} (hd : c.dist = false) (s : State) (g : Ply → Ply) : RegisterFrame c s (c.modPly s g) :=
  registerFrame_modSkein fun k => by rw [if_neg (by simp [hd])]; exact ⟨_, modPly_const k c.plyNo g⟩

/-! ### The shared parts of an instruction -/

theorem registerFrame_landed (c : Ctx) (s : State) : RegisterFrame c s (c.landed s) := by
  unfold Ctx.landed
  split
  · next hd => exact registerFrame_modDist hd ..
  · next hd => exact registerFrame_modPly (by simpa using hd) ..

theorem registerFrame_goto (c : Ctx) (s : State) (pc : Word) : RegisterFrame c s (c.goto s pc) := by
  unfold Ctx.goto
  split
  · next hd => exact registerFrame_modDist hd ..
  · next hd => exact registerFrame_modPly (by simpa using hd) ..

theorem registerFrame_writes (c : Ctx) (f : Fields) (op : Nat) (ws : Nat → List RegWrite) (fl : Nat → FFlags) (s : State) :
    RegisterFrame c s (c.writes f op ws fl s) := by
  unfold Ctx.writes
  split
  · next hd => exact registerFrame_modDist hd ..
  · next hd => exact registerFrame_modPly (by simpa using hd) ..

theorem registerFrame_finish (c : Ctx) (f : Fields) (op : Nat) (ws : Nat → List RegWrite) (fl : Nat → FFlags) (s : State) :
    RegisterFrame c s (c.finish f op ws fl s) :=
  registerFrame_trans (registerFrame_writes ..) (registerFrame_goto ..)

theorem registerFrame_branch (c : Ctx) (f : Fields) (ws : List RegWrite) (next : Nat → Word) (s : State) :
    RegisterFrame c s (c.branch f ws next s) := by
  refine registerFrame_trans (registerFrame_writes c f 0 (fun _ => ws) (fun _ => 0) s) ?_
  unfold Ctx.branch
  split
  · exact registerFrame_goto ..
  · next hd => exact registerFrame_modPly (by simpa using hd) ..

theorem countsOnly_pass (x : Spindle) (n : Nat) : CountsOnly x (x.pass n) := ⟨_, _, _, _, _, _, _, _, rfl⟩

theorem registerFrame_passToIssue (c : Ctx) (s : State) : RegisterFrame c s (c.passToIssue s) := by
  unfold Ctx.passToIssue State.passCycles
  refine registerFrame_trans (registerFrame_modSpindle fun x => countsOnly_pass x (x.heldFor (issuePipes c.sp) c.group)) ?_
  exact registerFrame_modSpindle fun x => by split <;> exact ⟨_, _, _, _, _, _, _, _, rfl⟩

theorem registerFrame_countIssue (c : Ctx) (cls : Nat) (s : State) : RegisterFrame c s (countIssue c cls s) :=
  registerFrame_trans (registerFrame_passToIssue c s) (registerFrame_modSpindle fun _ => ⟨_, _, _, _, _, _, _, _, rfl⟩)

/-- The frame is the party's place's. -/
theorem registerFrame_samePlace {c d : Ctx} {s t : State} (h : c.SamePlace d) (g : RegisterFrame c s t) : RegisterFrame d s t := by
  unfold RegisterFrame at *
  rwa [h.sp, h.slot, h.dist, h.plyNo]

theorem Issues.registerFrame {i : Instr} {r : OpRow} {f : Fields} {s s1 : State} {c : Ctx} (h : Issues i r f s c s1) :
    RegisterFrame c s s1 := by
  obtain ⟨c0, h0, -, rfl⟩ := h.checked
  have hctx := h.ctx
  rw [h.cur] at hctx
  exact registerFrame_samePlace (ctx?_samePlace h0 hctx) (registerFrame_landed c0 s)

/-- An instruction whose own part takes effect inside the party. -/
theorem Issues.completes {i : Instr} {r : OpRow} {f : Fields} {s s1 s2 : State} {c : Ctx} (h : Issues i r f s c s1)
    {body : Fields → Ctx → State → Eff} (hx : exec i s = guarded i s body) (hb : body f c s1 = .done s2) (hf : RegisterFrame c s1 s2) :
    ∃ t, exec i s = .next t ∧ RegisterFrame c s t :=
  ⟨_, hx.trans (guarded_done h hb), registerFrame_trans h.registerFrame (registerFrame_trans hf (registerFrame_countIssue ..))⟩

end Sys2Proof.Machine
end

section
/-! PROOFS. Instructions of register form: each ends with its register writes, and its lookahead tells only when they land (R88, R93). -/

namespace Sys2Proof.Machine

open Host (Outcome)
open Sys2Proof.Claims

/-! ### Instructions that end with their register writes -/

/-- The V registers that a strand's writes name are of its own threads. -/
def OwnThreads (ws : Nat → List RegWrite) : Prop := ∀ st r t x, RegWrite.v r t x ∈ ws st → t / 8 = st

/-- An instruction's own part ends it with register writes that do not depend on its lookahead. -/
def Ends (body : Fields → Ctx → State → Eff) : Prop :=
  ∀ (f : Fields) (c : Ctx) (s : State), ∃ ws fl, OwnThreads ws ∧ ∀ la, body { f with la := la } c s = .done (c.finish { f with la := la } 0 ws fl s)

/-- An instruction of row r: neither what its word names nor its shape depends on its lookahead, and no value of it comes later. -/
structure HasForm (ins : Fields → Instr) (r : OpRow) : Prop where
  row : ∀ f, (ins f).row = some r
  fields : ∀ f, (ins f).fields = some f
  later : laterValue r = false
  classes : ∀ (c : Ctx) f la, c.classes (ins { f with la := la }) r { f with la := la } = c.classes (ins f) r f

/-- Its own part is `body`, which ends it with register writes. -/
structure EndsBy (ins : Fields → Instr) (r : OpRow) (body : Fields → Fields → Ctx → State → Eff) : Prop extends HasForm ins r where
  runs : ∀ f s, exec (ins f) s = guarded (ins f) s (body f)
  ends : Ends fun f => body f f

/-- An instruction that ends with its register writes. -/
def Ending (ins : Fields → Instr) : Prop := ∃ r body, EndsBy ins r body

theorem vecWrites_thread {wide : Bool} {d t r th : Nat} {x : Word} {y : VWord} (h : RegWrite.v r th y ∈ vecWrites wide d t x) : th = t :=
  (mem_vecWrites.mp h).1

/-- Writes of vector registers in the active threads of each strand. -/
theorem ownThreads_active {exm : BitVec 128} {g : Nat → Nat → List RegWrite} (h : ∀ st t r th x, RegWrite.v r th x ∈ g st t → th = t) :
    OwnThreads fun st => (activeIn exm st).flatMap (g st) := by
  intro st r th x hx
  obtain ⟨t, ht, hx⟩ := List.mem_flatMap.mp hx
  rw [h st t r th x hx]
  exact (mem_activeIn.mp ht).1

/-- Writes of no vector register. -/
theorem ownThreads_scalar {ws : Nat → List RegWrite} (h : ∀ st r th x, RegWrite.v r th x ∉ ws st) : OwnThreads ws :=
  fun st r th x hx => absurd hx (h st r th x)

/-- A result by its field's class names one thread. -/
theorem resultWrites_thread {cl : FieldClass} {f : Fields} {ty : Ty} {v : BitVec 8} {t r th : Nat} {x : Word} {y : VWord}
    (h : RegWrite.v r th y ∈ resultWrites cl f ty v t x) : th = t := by
  unfold resultWrites at h
  split at h
  · exact vecWrites_thread h
  · exact vecWrites_thread h
  · simp [wrAll] at h
  · simp [wrAll] at h
  · simp at h

theorem maskWrites_scalar (c : Ctx) (r : Nat) (bits : BitVec 128) (q t : Nat) (x : VWord) : RegWrite.v q t x ∉ c.maskWrites r bits := by
  unfold Ctx.maskWrites
  split <;> simp

theorem maskFill_scalar (c : Ctx) (r : Nat) (y : Word) (q t : Nat) (x : VWord) : RegWrite.v q t x ∉ c.maskFill r y := by
  unfold Ctx.maskFill
  split <;> simp [wrAll]

/-- A part that ends in one way for all fields. -/
theorem ends_of_finish {body : Fields → Ctx → State → Eff} {ws : Fields → Ctx → State → Nat → List RegWrite}
    {fl : Fields → Ctx → State → Nat → FFlags} (h : ∀ f c s, body f c s = .done (c.finish f 0 (ws f c s) (fl f c s) s))
    (own : ∀ f c s, OwnThreads (ws f c s)) (hws : ∀ (f : Fields) la, ws { f with la := la } = ws f)
    (hfl : ∀ (f : Fields) la, fl { f with la := la } = fl f) : Ends body :=
  fun f c s => ⟨ws f c s, fl f c s, own f c s, fun la => by rw [h, hws, hfl]⟩

/-- A part that chooses between two by what does not depend on lookahead. -/
theorem ends_ite {p : Fields → Ctx → Bool} {b₁ b₂ : Fields → Ctx → State → Eff}
    (hp : ∀ (f : Fields) la, p { f with la := la } = p f) (h₁ : Ends b₁) (h₂ : Ends b₂) :
    Ends fun f c s => if p f c then b₁ f c s else b₂ f c s := by
  intro f c s
  simp only [hp]
  cases p f c
  · exact h₂ f c s
  · exact h₁ f c s

/-- Vector results in the active threads, and flags. -/
theorem ends_active {body : Fields → Ctx → State → Eff} {g : Fields → Ctx → State → Nat → Nat → List RegWrite}
    {fl : Fields → Ctx → State → Nat → FFlags}
    (h : ∀ f c s, body f c s = .done (c.finish f 0 (fun st => (activeIn c.ply.exm st).flatMap (g f c s st)) (fl f c s) s))
    (own : ∀ f c s st t r th x, RegWrite.v r th x ∈ g f c s st t → th = t) (hg : ∀ (f : Fields) la, g { f with la := la } = g f)
    (hfl : ∀ (f : Fields) la, fl { f with la := la } = fl f) : Ends body :=
  ends_of_finish h (fun f c s => ownThreads_active (own f c s)) (fun f la => by rw [hg]) hfl

/-- A part may be given in another form. -/
theorem ends_congr {b₁ b₂ : Fields → Ctx → State → Eff} (h : ∀ f c s, b₁ f c s = b₂ f c s) (e : Ends b₂) : Ends b₁ := by
  intro f c s
  simp only [h]
  exact e f c s

/-! ### The shapes of the instructions -/

/-- What a lane-wise function makes of a thread's operands. -/
def laneValue {α : Type} (i : Instr) (r : OpRow) (g : Fields → Ctx → Word → Word → Word → α) (f : Fields) (c : Ctx) (st t : Nat) : α :=
  g f c (c.opnd (c.classes i r f).2.1 f f.a st t) (c.opnd (c.classes i r f).2.2.1 f f.b st t) (c.opnd (c.classes i r f).2.2.2 f f.c st t)

theorem laneWise_eq {i : Instr} {r : OpRow} (hr : i.row = some r) (ty : Fields → Ty) (g : Fields → Ctx → Word → Word → Word → Word × FFlags)
    (f : Fields) (c : Ctx) (s : State) : laneWise i ty g f c s =
      if f.u || c.dist then
        .done (c.finish f 0 (fun st => resultWrites (c.classes i r f).1 f (ty f) f.d (8 * st) (laneValue i r g f c st (8 * st)).1)
          (fun st => if c.touched st then (laneValue i r g f c st (8 * st)).2 else 0) s)
      else
        .done (c.finish f 0
          (fun st => (activeIn c.ply.exm st).flatMap fun t => resultWrites (c.classes i r f).1 f (ty f) f.d t (laneValue i r g f c st t).1)
          (fun st => (activeIn c.ply.exm st).foldl (fun fl t => fl ||| (laneValue i r g f c st t).2) 0) s) := by
  unfold laneWise
  rw [hr]
  rfl

theorem laneCompare_eq {i : Instr} {r : OpRow} (hr : i.row = some r) (g : Fields → Ctx → Word → Word → Bool × FFlags)
    (f : Fields) (c : Ctx) (s : State) : laneCompare i g f c s =
      if f.u || c.dist then
        .done (c.finish f 0 (fun st => c.maskFill f.d.toNat (allOnesIf (laneValue i r (fun f c a b _ => g f c a b) f c st (8 * st)).1))
          (fun st => if c.touched st then (laneValue i r (fun f c a b _ => g f c a b) f c st (8 * st)).2 else 0) s)
      else
        .done (c.finish f 0
          (fun st => if c.touched st then c.maskWrites f.d.toNat
            (threadSet c.active fun t => (laneValue i r (fun f c a b _ => g f c a b) f c (t / 8) t).1) else [])
          (fun st => (activeIn c.ply.exm st).foldl (fun fl t => fl ||| (laneValue i r (fun f c a b _ => g f c a b) f c st t).2) 0) s) := by
  unfold laneCompare
  rw [hr]
  rfl

section
variable {ins : Fields → Instr} {r : OpRow} (row : ∀ f, (ins f).row = some r)
  (classes : ∀ (c : Ctx) f la, c.classes (ins { f with la := la }) r { f with la := la } = c.classes (ins f) r f)

include classes in
theorem laneValue_la {α : Type} {g : Fields → Ctx → Word → Word → Word → α} (hg : ∀ (f : Fields) la, g { f with la := la } = g f)
    (f : Fields) (la : BitVec 4) : laneValue (ins { f with la := la }) r g { f with la := la } = laneValue (ins f) r g f := by
  funext c st t
  unfold laneValue
  rw [hg, classes]
  rfl

include row classes

theorem ends_laneWise {ty : Fields → Ty} {g : Fields → Ctx → Word → Word → Word → Word × FFlags}
    (hty : ∀ (f : Fields) la, ty { f with la := la } = ty f) (hg : ∀ (f : Fields) la, g { f with la := la } = g f) :
    Ends fun f => laneWise (ins f) ty g f := by
  have value := laneValue_la classes hg
  refine ends_congr (fun f c s => laneWise_eq (row f) ty g f c s) (ends_ite (p := fun f c => f.u || c.dist) (fun _ _ => rfl) ?_ ?_)
  · refine ends_of_finish (fun _ _ _ => rfl) (fun f c s st r th x hx => ?_) (fun f la => ?_) (fun f la => ?_)
    · rw [resultWrites_thread hx]; omega
    · funext c s st; rw [value, classes, hty]; rfl
    · funext c s st; rw [value]
  · refine ends_active (fun _ _ _ => rfl) (fun f c s st t r th x hx => resultWrites_thread hx) (fun f la => ?_) (fun f la => ?_)
    · funext c s st t; rw [value, classes, hty]; rfl
    · funext c s st; rw [value]

theorem ends_laneCompare {g : Fields → Ctx → Word → Word → Bool × FFlags} (hg : ∀ (f : Fields) la, g { f with la := la } = g f) :
    Ends fun f => laneCompare (ins f) g f := by
  have value := laneValue_la (g := fun f c a b _ => g f c a b) classes (fun f la => by funext; rw [hg])
  refine ends_congr (fun f c s => laneCompare_eq (row f) g f c s) (ends_ite (p := fun f c => f.u || c.dist) (fun _ _ => rfl) ?_ ?_)
  · refine ends_of_finish (fun _ _ _ => rfl) (fun f c s => ownThreads_scalar fun st _ _ _ => maskFill_scalar _ _ _ _ _ _) (fun f la => ?_) (fun f la => ?_)
    · funext c s st; rw [value]
    · funext c s st; rw [value]
  · refine ends_of_finish (fun _ _ _ => rfl) (fun f c s => ownThreads_scalar fun st r th x => ?_) (fun f la => ?_) (fun f la => ?_)
    · split
      · exact maskWrites_scalar _ _ _ _ _ _
      · simp
    · funext c s st; rw [value]
    · funext c s st; rw [value]

end

/-- The packing shape, in the uniform form and in the ordinary one. -/
theorem ends_packOp (n : Nat) : Ends fun f c s =>
    if f.u then
      .done (c.finish f 0 (fun st => [wrAll f.d.toNat (packed n f c st 0).1]) (fun st => if c.touched st then (packed n f c st 0).2 else 0) s)
    else
      .done (c.finish f 0 (fun st => (activeIn c.ply.exm st).flatMap fun t => vecWrites false f.d.toNat t (packed n f c st t).1)
        (fun st => (activeIn c.ply.exm st).foldl (fun fl t => fl ||| (packed n f c st t).2) 0) s) := by
  refine ends_ite (p := fun f _ => f.u) (fun _ _ => rfl) ?_ ?_
  · exact ends_of_finish (fun _ _ _ => rfl) (fun f c s => ownThreads_scalar fun _ _ _ _ => by simp [wrAll]) (fun _ _ => rfl) (fun _ _ => rfl)
  · exact ends_active (fun _ _ _ => rfl) (fun f c s st t r th x hx => vecWrites_thread hx) (fun _ _ => rfl) (fun _ _ => rfl)

theorem ends_vec {body : Fields → Ctx → State → Eff} {wide : Fields → Bool} {val : Fields → Ctx → State → Nat → Word}
    {fl : Fields → Ctx → State → FFlags} (h : ∀ f c s, body f c s = .done (c.finishVec f (wide f) (val f c s) (fl f c s) s))
    (hw : ∀ (f : Fields) la, wide { f with la := la } = wide f) (hv : ∀ (f : Fields) la, val { f with la := la } = val f)
    (hfl : ∀ (f : Fields) la, fl { f with la := la } = fl f) : Ends body := by
  refine ends_active h (fun f c s st t r th x hx => vecWrites_thread hx) (fun f la => ?_) (fun f la => ?_)
  · funext; rw [hw, hv]
  · funext; rw [hfl]

theorem ends_scal {body : Fields → Ctx → State → Eff} {ty : Fields → Ty} {val : Fields → Ctx → State → Word}
    {fl : Fields → Ctx → State → FFlags} (h : ∀ f c s, body f c s = .done (c.finishScal f (ty f) (val f c s) (fl f c s) s))
    (hty : ∀ (f : Fields) la, ty { f with la := la } = ty f) (hv : ∀ (f : Fields) la, val { f with la := la } = val f)
    (hfl : ∀ (f : Fields) la, fl { f with la := la } = fl f) : Ends body := by
  refine ends_of_finish h (fun f c s => ownThreads_scalar fun st r th x => ?_) (fun f la => ?_) (fun f la => ?_)
  · split <;> simp [wrAll]
  · funext; rw [hty, hv]
  · funext; rw [hfl]

/-- The same scalar writes in every strand. -/
theorem ends_all {body : Fields → Ctx → State → Eff} {ws : Fields → Ctx → State → List RegWrite}
    (h : ∀ f c s, body f c s = .done (c.finishAll f (ws f c s) s)) (own : ∀ f c s r t x, RegWrite.v r t x ∉ ws f c s)
    (hws : ∀ (f : Fields) la, ws { f with la := la } = ws f) : Ends body :=
  ends_of_finish h (fun f c s => ownThreads_scalar fun _ => own f c s) (fun f la => by rw [hws]) (fun _ _ => rfl)

theorem ends_finish0 : Ends fun f c s => .done (c.finish0 f s) :=
  ends_all (ws := fun _ _ _ => []) (fun _ _ _ => rfl) (fun _ _ _ _ _ _ => by simp) (fun _ _ => rfl)

/-- The unpacking shape. -/
theorem ends_unpkOp (n : Nat) : Ends fun f c s =>
    let src := fun st t => c.runReg f.u st t f.a.toNat
    let flags := fun a => (List.range n).foldl (fun fl k => fl ||| (unpackField n f c a k).2) (0 : FFlags)
    if f.u then
      .done (c.finish f 0 (fun st => (List.range n).map fun k => wrAll (f.d.toNat + k) (unpackField n f c (src st 0) k).1)
        (fun st => if c.touched st then flags (src st 0) else 0) s)
    else
      .done (c.finish f 0
        (fun st => (activeIn c.ply.exm st).flatMap fun t => (List.range n).flatMap fun k =>
          vecWrites false (f.d.toNat + k) t (unpackField n f c (src st t) k).1)
        (fun st => (activeIn c.ply.exm st).foldl (fun fl t => fl ||| flags (src st t)) 0) s) := by
  refine ends_ite (p := fun f _ => f.u) (fun _ _ => rfl) ?_ ?_
  · exact ends_of_finish (fun _ _ _ => rfl) (fun f c s => ownThreads_scalar fun _ _ _ _ => by simp [wrAll]) (fun _ _ => rfl) (fun _ _ => rfl)
  · refine ends_active (fun _ _ _ => rfl) (fun f c s st t r th x hx => ?_) (fun _ _ => rfl) (fun _ _ => rfl)
    obtain ⟨k, -, hx⟩ := List.mem_flatMap.mp hx
    exact vecWrites_thread hx

/-- The reducing shape: to a vector or to a scalar destination. -/
theorem ends_redOp (o : LaneOp) : Ends fun f c s =>
    let leaves := (List.range c.w).map fun t => (if c.active.contains t then c.laneA f t else o.identity f.ty, (0 : FFlags))
    let r := treeFold (o.combine f.ty c.la.ftz) 7 leaves
    if f.m.getLsbD 3 then .done (c.finishVec f (f.ty.bits == 64) (fun _ => r.1) r.2 s)
    else .done (c.finishScal f f.ty r.1 r.2 s) :=
  ends_ite (p := fun f _ => f.m.getLsbD 3) (fun _ _ => rfl)
    (ends_vec (fun _ _ _ => rfl) (fun _ _ => rfl) (fun _ _ => rfl) fun _ _ => rfl)
    (ends_scal (fun _ _ _ => rfl) (fun _ _ => rfl) (fun _ _ => rfl) fun _ _ => rfl)

theorem ends_shflOp (fn : Nat) : Ends fun f c s =>
    let seg := min (128 / 2 ^ (f.m.toNat % 8)) c.w
    let act := c.active
    let idx := fun t =>
      let b := if f.src = 1 then c.rdScal (t / 8) f.b.toNat else if f.src = 2 then f.b.signExtend 64 else c.rdVec false f.b.toNat t
      b.toNat % 2 ^ 32
    let val := fun t =>
      match shflFrom fn seg t (idx t) with
      | some j => if act.contains j then c.laneA f j else c.laneA f t
      | none => c.laneA f t
    .done (c.finishVec f (f.ty.bits == 64) val 0 s) :=
  ends_vec (fun _ _ _ => rfl) (fun _ _ => rfl) (fun _ _ => rfl) fun _ _ => rfl

theorem ends_voteOp (g : List Word → Bool) :
    Ends fun f c s => .done (c.finishScal f .b64 (allOnesIf (g (c.active.map (c.laneA f)))) 0 s) :=
  ends_scal (fun _ _ _ => rfl) (fun _ _ => rfl) (fun _ _ => rfl) fun _ _ => rfl

theorem ends_ballot : Ends fun f c s =>
    let bits := threadSet c.active fun t => c.laneA f t != 0
    .done (c.finish f 0 (fun st => if c.touched st then c.maskWrites f.d.toNat bits else []) (fun _ => 0) s) := by
  refine ends_of_finish (fun _ _ _ => rfl) (fun f c s => ownThreads_scalar fun st r t x => ?_) (fun _ _ => rfl) fun _ _ => rfl
  split
  · exact maskWrites_scalar _ _ _ _ _ _
  · simp

theorem ends_scanOp (o : LaneOp) : Ends fun f c s =>
    let r := scanGo (o.combine f.ty c.la.ftz) (f.m.getLsbD 4) (o.identity f.ty) (c.active.map fun t => (t, c.laneA f t))
    .done (c.finishVec f (f.ty.bits == 64) (fun t => ((r.1.find? fun p => p.1 == t).map Prod.snd).getD 0) r.2 s) :=
  ends_vec (fun _ _ _ => rfl) (fun _ _ => rfl) (fun _ _ => rfl) fun _ _ => rfl

/-- BCAST from an active source, or in a form without one. -/
theorem ends_bcast : Ends fun f c s =>
    let wide := f.ty.bits == 64
    match c.bcastFrom f with
    | some j =>
      if f.m.getLsbD 3 then .done (c.finishVec f wide (fun _ => c.laneA f j) 0 s)
      else .done (c.finishScal f f.ty (c.laneA f j) 0 s)
    | none =>
      if f.m.getLsbD 3 then .done (c.finishVec f wide (c.laneA f) 0 s) else .done (c.finish0 f s) := by
  have sent : ∀ j, Ends fun f c s => if f.m.getLsbD 3 then .done (c.finishVec f (f.ty.bits == 64) (fun _ => c.laneA f j) 0 s)
      else .done (c.finishScal f f.ty (c.laneA f j) 0 s) := fun j =>
    ends_ite (p := fun f _ => f.m.getLsbD 3) (fun _ _ => rfl)
      (ends_vec (fun _ _ _ => rfl) (fun _ _ => rfl) (fun _ _ => rfl) fun _ _ => rfl)
      (ends_scal (fun _ _ _ => rfl) (fun _ _ => rfl) (fun _ _ => rfl) fun _ _ => rfl)
  have kept : Ends fun f c s => if f.m.getLsbD 3 then .done (c.finishVec f (f.ty.bits == 64) (c.laneA f) 0 s) else .done (c.finish0 f s) :=
    ends_ite (p := fun f _ => f.m.getLsbD 3) (fun _ _ => rfl)
      (ends_vec (fun _ _ _ => rfl) (fun _ _ => rfl) (fun _ _ => rfl) fun _ _ => rfl) ends_finish0
  intro f c s
  have from_ : ∀ la, c.bcastFrom { f with la := la } = c.bcastFrom f := fun _ => rfl
  simp only [from_]
  cases c.bcastFrom f with
  | some j => exact sent j f c s
  | none => exact kept f c s

theorem ends_rds : Ends fun f c s =>
    let sel := f.m.toNat
    if c.dist then .done (c.finishAll f [wrAll f.d.toNat (c.specialDist s sel)] s)
    else .done (c.finishVec f ([0x07, 0x0C, 0x0D].contains sel) (c.special s sel) 0 s) :=
  ends_ite (p := fun _ c => c.dist) (fun _ _ => rfl)
    (ends_all (ws := fun f c s => [wrAll f.d.toNat (c.specialDist s f.m.toNat)]) (fun _ _ _ => rfl) (fun _ _ _ _ _ _ => by simp [wrAll])
      fun _ _ => rfl)
    (ends_vec (fun _ _ _ => rfl) (fun _ _ => rfl) (fun _ _ => rfl) fun _ _ => rfl)

theorem ends_plyw : Ends fun f c s => .done (c.finishAll f [wrAll f.d.toNat (BitVec.ofNat 64 c.width)] s) :=
  ends_all (ws := fun f c _ => [wrAll f.d.toNat (BitVec.ofNat 64 c.width)]) (fun _ _ _ => rfl) (fun _ _ _ _ _ _ => by simp [wrAll])
    fun _ _ => rfl

theorem ends_msave : Ends fun f c s => .done (c.finishAll f (c.maskWrites f.d.toNat (c.ply.exm &&& c.pathThreads)) s) :=
  ends_all (ws := fun f c _ => c.maskWrites f.d.toNat (c.ply.exm &&& c.pathThreads)) (fun _ _ _ => rfl)
    (fun _ _ _ _ _ _ => maskWrites_scalar _ _ _ _ _ _) fun _ _ => rfl

/-! ### The instructions that end with their register writes -/

/-- An instruction whose own part is one for all fields. -/
theorem ending_of {ins : Fields → Instr} {r : OpRow} {body : Fields → Ctx → State → Eff} (form : HasForm ins r)
    (runs : ∀ f s, exec (ins f) s = guarded (ins f) s body) (ends : Ends body) : Ending ins :=
  ⟨r, fun _ => body, form, runs, ends⟩

theorem ending_laneWise {ins : Fields → Instr} {r : OpRow} {ty : Fields → Ty} {g : Fields → Ctx → Word → Word → Word → Word × FFlags}
    (form : HasForm ins r) (runs : ∀ f s, exec (ins f) s = guarded (ins f) s (laneWise (ins f) ty g))
    (hty : ∀ (f : Fields) la, ty { f with la := la } = ty f) (hg : ∀ (f : Fields) la, g { f with la := la } = g f) : Ending ins :=
  ⟨r, _, form, runs, ends_laneWise form.row form.classes hty hg⟩

theorem ending_laneCompare {ins : Fields → Instr} {r : OpRow} {g : Fields → Ctx → Word → Word → Bool × FFlags}
    (form : HasForm ins r) (runs : ∀ f s, exec (ins f) s = guarded (ins f) s (laneCompare (ins f) g))
    (hg : ∀ (f : Fields) la, g { f with la := la } = g f) : Ending ins :=
  ⟨r, _, form, runs, ends_laneCompare form.row form.classes hg⟩

theorem ending_reduce {ins : Fields → Instr} {r : OpRow} {o : LaneOp} (form : HasForm ins r)
    (runs : ∀ f s, exec (ins f) s = redOp (ins f) o s) : Ending ins := ending_of form runs (ends_redOp o)

theorem integerLanes_ending : ∀ ins ∈ ([.iadd, .isub, .imul, .imulh, .imad, .imin, .imax, .iabs, .and, .or, .xor, .not, .shl, .shr, .sar, .rol, .ror,
    .popc, .clz, .brev, .bfe, .bfi, .sel] : List (Fields → Instr)), Ending ins := by
  simp only [List.forall_mem_cons, List.not_mem_nil, false_implies, implies_true, and_true]
  and_intros
  all_goals exact ending_laneWise ⟨fun _ => rfl, fun _ => rfl, rfl, fun _ _ _ => rfl⟩ (fun _ _ => rfl) (fun _ _ => rfl) (fun _ _ => rfl)

theorem integerCompares_ending : ∀ ins ∈ ([.icmpEq, .icmpNe, .icmpLt, .icmpLe, .icmpGt, .icmpGe] : List (Fields → Instr)), Ending ins := by
  simp only [List.forall_mem_cons, List.not_mem_nil, false_implies, implies_true, and_true]
  and_intros
  all_goals exact ending_laneCompare ⟨fun _ => rfl, fun _ => rfl, rfl, fun _ _ _ => rfl⟩ (fun _ _ => rfl) (fun _ _ => rfl)

theorem moves_ending : ∀ ins ∈ ([.mov, .movi] : List (Fields → Instr)), Ending ins := by
  simp only [List.forall_mem_cons, List.not_mem_nil, false_implies, implies_true, and_true]
  and_intros
  all_goals exact ending_laneWise ⟨fun _ => rfl, fun _ => rfl, rfl, fun _ _ _ => rfl⟩ (fun _ _ => rfl) (fun _ _ => rfl) (fun _ _ => rfl)

theorem floatArithmetic_ending : ∀ ins ∈ ([.fadd, .fsub, .fmul, .ffma, .fmin, .fmax] : List (Fields → Instr)), Ending ins := by
  simp only [List.forall_mem_cons, List.not_mem_nil, false_implies, implies_true, and_true]
  and_intros
  all_goals exact ending_laneWise ⟨fun _ => rfl, fun _ => rfl, rfl, fun _ _ _ => rfl⟩ (fun _ _ => rfl) (fun _ _ => rfl) (fun _ _ => rfl)

theorem floatCompares_ending : ∀ ins ∈ ([.fcmpEq, .fcmpNe, .fcmpLt, .fcmpLe, .fcmpGt, .fcmpGe, .fcmpUo, .fcmpOrd] : List (Fields → Instr)), Ending ins := by
  simp only [List.forall_mem_cons, List.not_mem_nil, false_implies, implies_true, and_true]
  and_intros
  all_goals exact ending_laneCompare ⟨fun _ => rfl, fun _ => rfl, rfl, fun _ _ _ => rfl⟩ (fun _ _ => rfl) (fun _ _ => rfl)

theorem floatFunctions_ending : ∀ ins ∈ ([.fsel, .frcp, .frsq, .fsqrt, .fexp2, .flog2, .fsin, .fcos, .frnd, .cvt] : List (Fields → Instr)), Ending ins := by
  simp only [List.forall_mem_cons, List.not_mem_nil, false_implies, implies_true, and_true]
  and_intros
  all_goals exact ending_laneWise ⟨fun _ => rfl, fun _ => rfl, rfl, fun _ _ _ => rfl⟩ (fun _ _ => rfl) (fun _ _ => rfl) (fun _ _ => rfl)

theorem packs_ending : ∀ ins ∈ ([.packPair, .packQuad, .packOct] : List (Fields → Instr)), Ending ins := by
  simp only [List.forall_mem_cons, List.not_mem_nil, false_implies, implies_true, and_true]
  and_intros
  all_goals exact ending_of ⟨fun _ => rfl, fun _ => rfl, rfl, fun _ _ _ => rfl⟩ (fun _ _ => rfl) (ends_packOp _)

theorem unpacks_ending : ∀ ins ∈ ([.unpkPair, .unpkQuad, .unpkOct] : List (Fields → Instr)), Ending ins := by
  simp only [List.forall_mem_cons, List.not_mem_nil, false_implies, implies_true, and_true]
  and_intros
  all_goals exact ending_of ⟨fun _ => rfl, fun _ => rfl, rfl, fun _ _ _ => rfl⟩ (fun _ _ => rfl) (ends_unpkOp _)

theorem reductions_ending : ∀ ins ∈ ([.redAdd, .redMin, .redMax, .redAnd, .redOr, .redXor] : List (Fields → Instr)), Ending ins := by
  simp only [List.forall_mem_cons, List.not_mem_nil, false_implies, implies_true, and_true]
  and_intros
  all_goals exact ending_reduce ⟨fun _ => rfl, fun _ => rfl, rfl, fun _ _ _ => rfl⟩ fun _ _ => rfl

theorem scans_ending : ∀ ins ∈ ([.scanAdd, .scanMin, .scanMax, .scanAnd, .scanOr, .scanXor] : List (Fields → Instr)), Ending ins := by
  simp only [List.forall_mem_cons, List.not_mem_nil, false_implies, implies_true, and_true]
  and_intros
  all_goals exact ending_of ⟨fun _ => rfl, fun _ => rfl, rfl, fun _ _ _ => rfl⟩ (fun _ _ => rfl) (ends_scanOp _)

theorem shflIdx_ending : Ending .shflIdx := ending_of ⟨fun _ => rfl, fun _ => rfl, rfl, fun _ _ _ => rfl⟩ (fun _ _ => rfl) (ends_shflOp 0)

theorem shflUp_ending : Ending .shflUp := ending_of ⟨fun _ => rfl, fun _ => rfl, rfl, fun _ _ _ => rfl⟩ (fun _ _ => rfl) (ends_shflOp 1)

theorem shflDown_ending : Ending .shflDown := ending_of ⟨fun _ => rfl, fun _ => rfl, rfl, fun _ _ _ => rfl⟩ (fun _ _ => rfl) (ends_shflOp 2)

theorem shflXor_ending : Ending .shflXor := ending_of ⟨fun _ => rfl, fun _ => rfl, rfl, fun _ _ _ => rfl⟩ (fun _ _ => rfl) (ends_shflOp 3)

theorem voteAll_ending : Ending .voteAll := ending_of ⟨fun _ => rfl, fun _ => rfl, rfl, fun _ _ _ => rfl⟩ (fun _ _ => rfl) (ends_voteOp fun l => l.all (· != 0))

theorem voteAny_ending : Ending .voteAny := ending_of ⟨fun _ => rfl, fun _ => rfl, rfl, fun _ _ _ => rfl⟩ (fun _ _ => rfl) (ends_voteOp fun l => l.any (· != 0))

theorem voteBallot_ending : Ending .voteBallot := ending_of ⟨fun _ => rfl, fun _ => rfl, rfl, fun _ _ _ => rfl⟩ (fun _ _ => rfl) ends_ballot

theorem voteEq_ending : Ending .voteEq := ending_of ⟨fun _ => rfl, fun _ => rfl, rfl, fun _ _ _ => rfl⟩ (fun _ _ => rfl) (ends_voteOp fun l => l.all (· == l.headD 0))

theorem bcast_ending : Ending .bcast := ending_of ⟨fun _ => rfl, fun _ => rfl, rfl, fun _ _ _ => rfl⟩ (fun _ _ => rfl) ends_bcast

theorem rds_ending : Ending .rds := ending_of ⟨fun _ => rfl, fun _ => rfl, rfl, fun _ _ _ => rfl⟩ (fun _ _ => rfl) ends_rds

theorem nop_ending : Ending .nop := ending_of ⟨fun _ => rfl, fun _ => rfl, rfl, fun _ _ _ => rfl⟩ (fun _ _ => rfl) ends_finish0

theorem yield_ending : Ending .yield := ending_of ⟨fun _ => rfl, fun _ => rfl, rfl, fun _ _ _ => rfl⟩ (fun _ _ => rfl) ends_finish0

theorem plyw_ending : Ending .plyw := ending_of ⟨fun _ => rfl, fun _ => rfl, rfl, fun _ _ _ => rfl⟩ (fun _ _ => rfl) ends_plyw

theorem msave_ending : Ending .msave := ending_of ⟨fun _ => rfl, fun _ => rfl, rfl, fun _ _ _ => rfl⟩ (fun _ _ => rfl) ends_msave

theorem integerIns_ending : ∀ ins ∈ integerIns, Ending ins := by
  have all := List.forall_mem_append.mpr ⟨integerLanes_ending, List.forall_mem_append.mpr ⟨integerCompares_ending, moves_ending⟩⟩
  exact all

theorem floatIns_ending : ∀ ins ∈ floatIns, Ending ins := by
  have packing := List.forall_mem_append.mpr ⟨packs_ending, unpacks_ending⟩
  have all := List.forall_mem_append.mpr ⟨floatArithmetic_ending, List.forall_mem_append.mpr ⟨floatCompares_ending,
    List.forall_mem_append.mpr ⟨floatFunctions_ending, packing⟩⟩⟩
  exact all

theorem laneIns_ending : ∀ ins ∈ laneIns, Ending ins := by
  have moving : ∀ ins ∈ ([.shflIdx, .shflUp, .shflDown, .shflXor, .voteAll, .voteAny, .voteBallot, .voteEq] : List (Fields → Instr)),
      Ending ins := by
    simp only [List.forall_mem_cons, List.not_mem_nil, false_implies, implies_true, and_true]
    exact ⟨shflIdx_ending, shflUp_ending, shflDown_ending, shflXor_ending, voteAll_ending, voteAny_ending, voteBallot_ending, voteEq_ending⟩
  have last : ∀ ins ∈ ([.bcast, .rds] : List (Fields → Instr)), Ending ins := by
    simp only [List.forall_mem_cons, List.not_mem_nil, false_implies, implies_true, and_true]
    exact ⟨bcast_ending, rds_ending⟩
  have all := List.forall_mem_append.mpr ⟨moving, List.forall_mem_append.mpr ⟨reductions_ending, List.forall_mem_append.mpr
    ⟨scans_ending, last⟩⟩⟩
  exact all

/-! ### The instructions of register form -/

/-- What an instruction of register form does: it ends with its register writes, it branches, or it changes EXM. The latter two have no lookahead. -/
inductive RegisterShape (ins : Fields → Instr) : Prop where
  | ending (h : Ending ins)
  | branch (r : OpRow) (ws : Fields → Ctx → List RegWrite) (next : Fields → Ctx → Nat → Word) (row : ∀ f, (ins f).row = some r) (la : r.la = false)
      (runs : ∀ f s, exec (ins f) s = guarded (ins f) s fun f c s => .done (c.branch f (ws f c) (next f c) s))
  | mask (r : OpRow) (g : BitVec 8 → BitVec 8 → BitVec 8) (row : ∀ f, (ins f).row = some r) (la : r.la = false) (ply : r.runs = .ply)
      (runs : ∀ f s, exec (ins f) s = maskOp (ins f) g s)

theorem flowIns_shape : ∀ ins ∈ flowIns, RegisterShape ins := by
  simp only [flowIns, List.forall_mem_cons, List.not_mem_nil, false_implies, implies_true, and_true]
  refine ⟨.ending nop_ending, .ending yield_ending, ?br, ?brz, ?brnz, ?call, .ending plyw_ending, .ending msave_ending, ?masks⟩
  case br => exact .branch _ (fun _ _ => []) (fun f c _ => relTarget c.pc (offset32 f)) (fun _ => rfl) rfl fun _ _ => rfl
  case brz =>
    exact .branch _ (fun _ _ => []) (fun f c st => if (c.tested f st == 0) == true then relTarget c.pc (offset24 f) else c.pc + 8)
      (fun _ => rfl) rfl fun _ _ => rfl
  case brnz =>
    exact .branch _ (fun _ _ => []) (fun f c st => if (c.tested f st == 0) == false then relTarget c.pc (offset24 f) else c.pc + 8)
      (fun _ => rfl) rfl fun _ _ => rfl
  case call =>
    exact .branch _ (fun f c => [wrAll f.d.toNat (c.pc + 8)]) (fun f c _ => relTarget c.pc (offset32 f)) (fun _ => rfl) rfl fun _ _ => rfl
  case masks =>
    exact ⟨.mask _ (fun _ m => m) (fun _ => rfl) rfl rfl fun _ _ => rfl, .mask _ (fun e m => e &&& m) (fun _ => rfl) rfl rfl fun _ _ => rfl,
      .mask _ (fun e m => e ||| m) (fun _ => rfl) rfl rfl fun _ _ => rfl, .mask _ (fun e m => e ^^^ m) (fun _ => rfl) rfl rfl fun _ _ => rfl,
      .mask _ (fun e m => m &&& ~~~e) (fun _ => rfl) rfl rfl fun _ _ => rfl⟩

theorem registerOps_shape : ∀ ins ∈ registerOps, RegisterShape ins := by
  intro ins h
  simp only [registerOps, List.mem_append] at h
  obtain ((h | h) | h) | h := h
  · exact .ending (integerIns_ending ins h)
  · exact .ending (floatIns_ending ins h)
  · exact .ending (laneIns_ending ins h)
  · exact flowIns_shape ins h

/-- An instruction of ply code alone issues in no distaff (R98). -/
theorem Issues.not_dist {i : Instr} {r : OpRow} {f : Fields} {s s1 : State} {c : Ctx} (h : Issues i r f s c s1) (ply : r.runs = .ply) :
    c.dist = false := by
  obtain ⟨c0, h0, hc, rfl⟩ := h.checked
  have hctx := h.ctx
  rw [h.cur] at hctx
  rw [(ctx?_samePlace h0 hctx).dist]
  cases hd : c0.dist
  · rfl
  · simp [Ctx.checks, ply, runsOk, hd] at hc

/-- Settles O10: whatever its shape, the instruction's own part changes its ply or distaff alone. -/
theorem registerFormFrame : Obligations.RegisterFormFrame := by
  intro ins hins r f s s1 c h
  cases registerOps_shape ins hins with
  | ending e =>
    obtain ⟨r', body, e⟩ := e
    obtain ⟨ws, fl, -, done⟩ := e.ends f c s1
    exact h.completes (e.runs f s) (done f.la) (registerFrame_finish ..)
  | branch r' ws next row la runs => exact h.completes (runs f s) rfl (registerFrame_branch ..)
  | mask r' g row la ply runs =>
    have hr : r = r' := Option.some.inj (h.row.symm.trans (row f))
    exact h.completes (runs f s) rfl (registerFrame_trans (registerFrame_modPly (h.not_dist (hr ▸ ply)) _ _) (registerFrame_finish ..))

end Sys2Proof.Machine
end

section
/-! PROOFS. Lookahead: what is deferred, and when it lands (R92, R93). -/

namespace Sys2Proof.Machine

open Host (Outcome)
open Sys2Proof.Claims

/-! ### Registers, positions and deferred writes of a ply -/

/-- Two plies hold the same registers and flags. -/
structure Ply.SameVals (p q : Ply) : Prop where
  v : q.v = p.v
  s : q.s = p.s
  flags : q.flags = p.flags

theorem Ply.SameVals.refl (p : Ply) : p.SameVals p := ⟨rfl, rfl, rfl⟩

theorem Ply.SameVals.trans {p q r : Ply} (h : p.SameVals q) (g : q.SameVals r) : p.SameVals r :=
  ⟨g.v.trans h.v, g.s.trans h.s, g.flags.trans h.flags⟩

theorem Ply.sameVals_setDefs (p : Ply) (l : List Deferred) : p.SameVals (p.setDefs l) := by
  unfold Ply.setDefs
  split <;> exact ⟨rfl, rfl, rfl⟩

theorem Ply.sameVals_bumpPos (p : Ply) (st : Nat) : p.SameVals (p.bumpPos st) := ⟨by simp, by simp, by simp⟩

/-- A write depends on the registers and flags, and so does what it leaves. -/
theorem Ply.SameVals.put1 {p q : Ply} (h : p.SameVals q) (st : Nat) (w : RegWrite) : (Ply.put1 st p w).SameVals (Ply.put1 st q w) := by
  obtain ⟨v, s, flags⟩ := h
  cases w with
  | v r t x => exact ⟨by simp [Ply.put1, Ply.wrV, v], s, flags⟩
  | s r m x => exact ⟨v, by simp [Ply.put1, Ply.wrS, Ply.rdS, s], flags⟩
  | flags x => exact ⟨v, s, rfl⟩

theorem Ply.SameVals.putRegs {p q : Ply} (h : p.SameVals q) (st : Nat) (ws : List RegWrite) (fl : FFlags) :
    (p.putRegs st ws fl).SameVals (q.putRegs st ws fl) := by
  have fold : (ws.foldl (Ply.put1 st) p).SameVals (ws.foldl (Ply.put1 st) q) := by
    induction ws generalizing p q with
    | nil => exact h
    | cons w ws ih => exact ih (h.put1 st w)
  exact ⟨fold.v, fold.s, congrArg (· ||| fl) fold.flags⟩

theorem Ply.SameVals.putAll {p q : Ply} (h : p.SameVals q) (l : List Nat) (ws : Nat → List RegWrite) (fl : Nat → FFlags) :
    (p.putAll l ws fl).SameVals (q.putAll l ws fl) := by
  induction l generalizing p q with
  | nil => exact h
  | cons st l ih =>
    have put := h.putRegs st (ws st) (fl st)
    exact ih ⟨by simpa using put.v, by simpa using put.s, by simpa using put.flags⟩

@[simp] theorem Ply.setDefs_trap (p : Ply) (l : List Deferred) : (p.setDefs l).trap = p.trap := by
  unfold Ply.setDefs
  split <;> rfl

@[simp] theorem Ply.curPos_setDefs (p : Ply) (l : List Deferred) (st : Nat) : (p.setDefs l).curPos st = p.curPos st := by
  unfold Ply.setDefs Ply.curPos
  cases hm : p.trap.mode <;> simp [hm]

theorem Ply.curPos_bumpPos_other (p : Ply) {st sj : Nat} (h : sj ≠ st) : (p.bumpPos st).curPos sj = p.curPos sj := by
  unfold Ply.bumpPos Ply.curPos
  cases hm : p.trap.mode <;> simp [hm, nth_modNth_other _ _ _ _ _ h]

/-- What a strand has at its positions is counted in the list in force. -/
theorem Ply.curPos_bumpPos_same (p : Ply) (st : Nat) (hm : p.trap.mode = false) (h : st < p.pos.length) :
    (p.bumpPos st).curPos st = p.curPos st + 1 := by
  simp [Ply.bumpPos, Ply.curPos, hm, nth_modNth_same _ _ _ _ h]

/-! ### Landing -/

/-- Where nothing is due, landing changes nothing. -/
theorem Ply.land_none_due (p : Ply) {st b : Nat} (h : ∀ e ∈ p.curDefs, ¬(e.strand = st ∧ e.land < b)) : p.land st b = p := by
  have due : p.curDefs.filter (fun e => e.strand == st && decide (e.land < b)) = [] := by
    rw [List.filter_eq_nil_iff]
    intro e he
    simpa using h e he
  have rest : p.curDefs.filter (fun e => !(e.strand == st && decide (e.land < b))) = p.curDefs := by
    rw [List.filter_eq_self]
    intro e he
    simpa [imp_iff_not_or] using h e he
  rw [Ply.land_eq p st b _ rfl]
  simp only [landDue, due, rest]
  exact Ply.setDefs_same p _ rfl

/-- What an instruction leaves waiting in a strand: nothing where it has no result there. -/
def newDef (land st : Nat) (ws : List RegWrite) (fl : FFlags) : List Deferred :=
  if ws.isEmpty && fl == 0 then [] else [{ strand := st, land, op := 0, writes := ws, flags := fl }]

theorem mem_newDef {land st : Nat} {ws : List RegWrite} {fl : FFlags} {e : Deferred} (h : e ∈ newDef land st ws fl) :
    e = { strand := st, land, op := 0, writes := ws, flags := fl } := by
  unfold newDef at h
  split at h
  · cases h
  · simpa using h

/-- A strand's own deferred write lands behind its position: its writes are performed, and it waits no more. -/
theorem Ply.land_newDef (p : Ply) {land st b : Nat} {ws : List RegWrite} {fl : FFlags} {rest : List Deferred}
    (h : p.curDefs = newDef land st ws fl ++ rest) (hrest : ∀ e ∈ rest, e.strand ≠ st) (hb : land < b) :
    p.land st b = (p.putRegs st ws fl).setDefs rest := by
  unfold newDef at h
  split at h
  · next he =>
    simp only [Bool.and_eq_true, List.isEmpty_iff, beq_iff_eq] at he
    obtain ⟨rfl, rfl⟩ := he
    rw [List.nil_append] at h
    rw [Ply.putRegs_nil, Ply.setDefs_same p _ h]
    exact Ply.land_none_due p fun e he => by rw [h] at he; exact fun x => hrest e he x.1
  · have due : rest.filter (fun e => e.strand == st && decide (e.land < b)) = [] := by
      rw [List.filter_eq_nil_iff]
      intro e he
      simp [hrest e he]
    have stay : rest.filter (fun e => !(e.strand == st && decide (e.land < b))) = rest := by
      rw [List.filter_eq_self]
      intro e he
      simp [hrest e he]
    rw [Ply.land_eq p st b _ h]
    simp only [landDue, List.singleton_append, List.filter_cons, beq_self_eq_true, hb, decide_true, Bool.and_self, if_true, due, Bool.not_true,
      Bool.false_eq_true, if_false, stay]
    have go : landGo Ply.apply (byLand [{ strand := st, land, op := 0, writes := ws, flags := fl }]) [] p = ([], p.putRegs st ws fl) := by
      simp only [byLand, insertByLand, landGo, shares, List.foldl_cons, List.foldl_nil, bne_self_eq_false, Bool.false_or]
      simp
      rfl
    rw [go]
    rfl

/-- What the strands of a list have waiting. -/
def newDefs (land : Nat → Nat) (ws : Nat → List RegWrite) (fl : Nat → FFlags) (l : List Nat) : List Deferred :=
  l.flatMap fun st => newDef (land st) st (ws st) (fl st)

theorem mem_newDefs {land : Nat → Nat} {ws : Nat → List RegWrite} {fl : Nat → FFlags} {l : List Nat} {e : Deferred}
    (h : e ∈ newDefs land ws fl l) : ∃ st ∈ l, e = { strand := st, land := land st, op := 0, writes := ws st, flags := fl st } := by
  obtain ⟨st, hst, he⟩ := List.mem_flatMap.mp h
  exact ⟨st, hst, mem_newDef he⟩

/-- When every strand has passed its landing position, all has been performed, and nothing waits. -/
theorem Ply.foldl_land_newDefs {land b : Nat → Nat} {ws : Nat → List RegWrite} {fl : Nat → FFlags} {l : List Nat} (hl : l.Nodup)
    (hb : ∀ st ∈ l, land st < b st) {p : Ply} (h : p.curDefs = newDefs land ws fl l) :
    (l.foldl (fun q st => q.land st (b st)) p).curDefs = [] ∧ (p.putAll l ws fl).SameVals (l.foldl (fun q st => q.land st (b st)) p) := by
  induction l generalizing p with
  | nil => exact ⟨h, .refl p⟩
  | cons st l ih =>
    obtain ⟨hst, hl⟩ := List.nodup_cons.mp hl
    have later : ∀ e ∈ newDefs land ws fl l, e.strand ≠ st := fun e he => by
      obtain ⟨sj, hsj, rfl⟩ := mem_newDefs he
      exact fun x => hst (x ▸ hsj)
    have first : p.land st (b st) = (p.putRegs st (ws st) (fl st)).setDefs (newDefs land ws fl l) :=
      Ply.land_newDef p h later (hb st (by simp))
    obtain ⟨none, vals⟩ := ih hl (fun sj hsj => hb sj (by simp [hsj])) (p := (p.putRegs st (ws st) (fl st)).setDefs (newDefs land ws fl l))
      (Ply.curDefs_setDefs ..)
    rw [List.foldl_cons, first]
    refine ⟨none, .trans (.putAll ?_ l ws fl) vals⟩
    obtain ⟨v, s, flags⟩ := Ply.sameVals_setDefs (p.putRegs st (ws st) (fl st)) (newDefs land ws fl l)
    exact ⟨by simpa using v, by simpa using s, by simpa using flags⟩

/-! ### Deferring -/

/-- With lookahead, nothing of the strand outstanding: the write waits for its landing position, and the strand is at its next position. -/
theorem Ply.write_later (p : Ply) {st la : Nat} (ws : List RegWrite) (fl : FFlags) (hla : la ≠ 0) (h : ∀ e ∈ p.curDefs, e.strand ≠ st) :
    p.write st la 0 ws fl = (p.setDefs (p.curDefs ++ newDef (p.curPos st + la) st ws fl)).bumpPos st := by
  have e : (if ws.isEmpty && fl == 0 then p
      else p.setDefs (p.curDefs ++ [{ strand := st, land := p.curPos st + la, op := 0, writes := ws, flags := fl }])) =
      p.setDefs (p.curDefs ++ newDef (p.curPos st + la) st ws fl) := by
    unfold newDef
    split
    · rw [List.append_nil, Ply.setDefs_same p _ rfl]
    · rfl
  simp only [Ply.write, e]
  refine Ply.land_none_due _ fun d hd => ?_
  rw [Ply.curDefs_bumpPos, Ply.curDefs_setDefs, List.mem_append] at hd
  rintro ⟨hs, hlt⟩
  obtain hd | hd := hd
  · exact h d hd hs
  · rw [mem_newDef hd] at hlt
    simp only at hlt
    omega

/-- The ply after every strand's writes with one lookahead. -/
def Ply.writeAll (p : Ply) (l : List Nat) (la : Nat) (ws : Nat → List RegWrite) (fl : Nat → FFlags) : Ply :=
  l.foldl (fun p st => p.write st la 0 (ws st) (fl st)) p

/-- What writes with lookahead leave: registers and flags as before, each strand one position on, and the writes waiting. -/
structure Ply.Defers (p q : Ply) (l : List Nat) (la : Nat) (ws : Nat → List RegWrite) (fl : Nat → FFlags) : Prop where
  vals : p.SameVals q
  paths : q.paths = p.paths
  defs : q.curDefs = p.curDefs ++ newDefs (fun st => p.curPos st + la) ws fl l
  passed : ∀ st ∈ l, st < p.pos.length → q.curPos st = p.curPos st + 1
  others : ∀ st ∉ l, q.curPos st = p.curPos st

theorem Ply.pos_setDefs (p : Ply) (l : List Deferred) : (p.setDefs l).pos = p.pos := by
  unfold Ply.setDefs
  split <;> rfl

theorem Ply.paths_setDefs (p : Ply) (l : List Deferred) : (p.setDefs l).paths = p.paths := by
  unfold Ply.setDefs
  split <;> rfl

theorem Ply.pos_bumpPos_length (p : Ply) (st : Nat) : (p.bumpPos st).pos.length = p.pos.length := by
  unfold Ply.bumpPos
  split <;> simp

theorem newDefs_congr {land land' : Nat → Nat} (ws : Nat → List RegWrite) (fl : Nat → FFlags) {l : List Nat}
    (h : ∀ st ∈ l, land st = land' st) : newDefs land ws fl l = newDefs land' ws fl l :=
  List.flatMap_congr fun st hst => by rw [h st hst]

theorem Ply.writeAll_defers {la : Nat} (hla : la ≠ 0) (ws : Nat → List RegWrite) (fl : Nat → FFlags) {l : List Nat} (hl : l.Nodup) {p : Ply}
    (hm : p.trap.mode = false) (h : ∀ e ∈ p.curDefs, e.strand ∉ l) : p.Defers (p.writeAll l la ws fl) l la ws fl := by
  induction l generalizing p with
  | nil => exact ⟨.refl p, rfl, by simp [newDefs, Ply.writeAll], by simp, fun _ _ => rfl⟩
  | cons st l ih =>
    obtain ⟨hst, hl⟩ := List.nodup_cons.mp hl
    let q := (p.setDefs (p.curDefs ++ newDef (p.curPos st + la) st (ws st) (fl st))).bumpPos st
    have first : p.write st la 0 (ws st) (fl st) = q :=
      Ply.write_later p (ws st) (fl st) hla fun e he x => h e he (x ▸ List.mem_cons_self ..)
    have defs : q.curDefs = p.curDefs ++ newDef (p.curPos st + la) st (ws st) (fl st) := by simp [q]
    have other : ∀ sj, sj ≠ st → q.curPos sj = p.curPos sj := fun sj hj => (Ply.curPos_bumpPos_other _ hj).trans (Ply.curPos_setDefs ..)
    have length : q.pos.length = p.pos.length := (Ply.pos_bumpPos_length ..).trans (congrArg List.length (Ply.pos_setDefs ..))
    have rest := ih hl (p := q) (by simp [q, hm]) fun e he => by
      rw [defs, List.mem_append] at he
      obtain he | he := he
      · exact fun x => h e he (List.mem_cons_of_mem _ x)
      · rw [mem_newDef he]
        exact hst
    have e : p.writeAll (st :: l) la ws fl = q.writeAll l la ws fl := by rw [Ply.writeAll, List.foldl_cons, first]; rfl
    rw [e]
    refine ⟨.trans (.trans (Ply.sameVals_setDefs ..) (Ply.sameVals_bumpPos ..)) rest.vals, ?_, ?_, fun sj hsj hlt => ?_, fun sj hsj => ?_⟩
    · rw [rest.paths, Ply.bumpPos_paths, Ply.paths_setDefs]
    · rw [rest.defs, defs, List.append_assoc, newDefs_congr ws fl fun sj hsj => by rw [other sj fun x => hst (x ▸ hsj)]]
      rfl
    · obtain rfl | hsj := List.mem_cons.mp hsj
      · rw [rest.others _ hst]
        have counted := Ply.curPos_bumpPos_same (p.setDefs (p.curDefs ++ newDef (p.curPos sj + la) sj (ws sj) (fl sj))) sj (by simp [hm])
          (by rwa [Ply.pos_setDefs])
        rwa [Ply.curPos_setDefs] at counted
      · rw [rest.passed sj hsj (by rwa [length]), other sj fun x => hst (x ▸ hsj)]
    · simp only [List.mem_cons, not_or] at hsj
      rw [rest.others sj hsj.2, other sj hsj.1]

/-! ### The same word without lookahead -/

/-- Checks 4 to 8 pass (R100). -/
theorem checks_none_iff (c : Ctx) (s : State) (i : Instr) (r : OpRow) (f : Fields) : c.checks s i r f = none ↔
    runsOk r.runs c.dist = true ∧ (c.dist = true → r.distFieldsOk f = true) ∧ c.regsOk i r f = true ∧ c.unitOk s r f = true ∧
      c.privOk r = true := by
  simp [Ctx.checks, ite_eq_iff]

theorem OpRow.fieldsOk_now {r : OpRow} {f : Fields} (ok : r.fieldsOk f = true) : r.fieldsOk { f with la := 0 } = true := by
  simp only [OpRow.fieldsOk, Bool.and_eq_true] at ok ⊢
  obtain ⟨⟨⟨⟨⟨⟨⟨named, m⟩, -⟩, u⟩, ty⟩, x⟩, src⟩, rule⟩ := ok
  exact ⟨⟨⟨⟨⟨⟨⟨named, m⟩, by simp⟩, u⟩, ty⟩, x⟩, src⟩, rule⟩

theorem lookahead_now (c : Ctx) (f : Fields) : c.lookahead { f with la := 0 } = 0 := by simp [Ctx.lookahead]

section
variable {ins : Fields → Instr} {r : OpRow} (form : HasForm ins r)
include form

theorem HasForm.regsOk (c : Ctx) (f : Fields) (la : BitVec 4) :
    c.regsOk (ins { f with la := la }) r { f with la := la } = c.regsOk (ins f) r f := by
  unfold Ctx.regsOk
  rw [form.classes]
  rfl

theorem HasForm.keys (c : Ctx) (f : Fields) (la : BitVec 4) :
    c.keys (ins { f with la := la }) r { f with la := la } = c.keys (ins f) r f := by
  unfold Ctx.keys
  rw [form.classes]
  rfl

/-- With lookahead 0 the word issues wherever it does with another: what it is checked against and waits for is the same, and it leaves nothing to
land. -/
theorem HasForm.issues_now {f : Fields} {s s1 : State} {c : Ctx} (h : Issues (ins f) r f s c s1) :
    Issues (ins { f with la := 0 }) r { f with la := 0 } s c s1 where
  row := form.row _
  fields := form.fields _
  ok := by
    have ok := h.ok
    simp only [Instr.fieldsOk, form.row, form.fields] at ok ⊢
    exact OpRow.fieldsOk_now ok
  checked := by
    obtain ⟨c0, h0, hc, hs⟩ := h.checked
    refine ⟨c0, h0, ?_, hs⟩
    rw [checks_none_iff] at hc ⊢
    rwa [form.regsOk]
  ctx := h.ctx
  ready := by
    rw [form.keys]
    exact h.ready
  room := by
    have none : c.deferring (ins { f with la := 0 }) r { f with la := 0 } = [] := by
      unfold Ctx.deferring
      rw [lookahead_now, form.later]
      simp
    rw [Ctx.defersFull, none]
    rfl
  quiet := h.quiet

end

/-! ### A path's instruction with lookahead -/

/-- An instruction of a path with lookahead: its ply afterwards. -/
theorem finish_ply?_writeAll {s : State} {c : Ctx} (f : Fields) (ws : Nat → List RegWrite) (fl : Nat → FFlags)
    (h : s.ctx? s.cur = some c) (hd : c.dist = false) : c.ply? (c.finish f 0 ws fl s) =
      some { c.ply.writeAll c.strands (c.lookahead f) ws fl with
        paths := modNth (c.ply.writeAll c.strands (c.lookahead f) ws fl).paths c.idx fun e =>
          { e with pc := c.pc + Fields.size f, st := .ready, wait := .none } } := by
  obtain ⟨hp, -⟩ := ctx?_ply h hd
  have e : c.finish f 0 ws fl s = c.modPly s fun y =>
      { y.writeAll c.strands (c.lookahead f) ws fl with
        paths := modNth (y.writeAll c.strands (c.lookahead f) ws fl).paths c.idx fun e =>
          { e with pc := c.pc + Fields.size f, st := .ready, wait := .none } } := by
    unfold Ctx.finish Ctx.goto Ctx.writes Ctx.modPath Ctx.modPly
    simp only [hd, Bool.false_eq_true, if_false]
    exact modPly_modPly ..
  rw [e, ctx_modPly_ply? _ (ctx?_skein h) (ctx?_ply_lt h hd), ← hp]

/-- Where a strand's own list of writes is empty, its registers stay as they are. -/
theorem Ply.putAll_unwritten {p : Ply} {l : List Nat} {ws : Nat → List RegWrite} {fl : Nat → FFlags} {st : Nat} (hl : ∀ st ∈ l, st < 16)
    (hn : l.Nodup) (own : OwnThreads ws) (hst : st ∈ l) (h : ws st = []) :
    (∀ q, (p.putAll l ws fl).rdS q st = p.rdS q st) ∧ ∀ q th, th / 8 = st → (p.putAll l ws fl).rdV q th = p.rdV q th := by
  constructor
  · intro q
    have read := Ply.putAll_rdS l ws fl p q st hl hn hst
    rw [h] at read
    obtain e | ⟨m, hm, e⟩ := read
    · exact e
    · exact e.trans (hm q)
  · rintro q th rfl
    have ok : threadsOk (l.flatMap ws) := fun r t x hx => by
      obtain ⟨sj, hsj, hx⟩ := List.mem_flatMap.mp hx
      have hj := hl sj hsj
      rw [← own sj r t x hx] at hj
      omega
    have lt := hl _ hst
    simp only [Ply.rdV, Ply.putAll_v]
    refine writesV_other _ _ _ _ ok (by omega) fun x hx => ?_
    obtain ⟨sj, -, hx⟩ := List.mem_flatMap.mp hx
    obtain rfl := own sj q th x hx
    simp [h] at hx

/-- A row without lookahead issues with none. -/
theorem Issues.lookahead_of_row {i : Instr} {r : OpRow} {f : Fields} {s s1 : State} {c : Ctx} (h : Issues i r f s c s1) (la : r.la = false) :
    c.lookahead f = 0 := by
  have ok := h.ok
  simp only [Instr.fieldsOk, h.row, h.fields, OpRow.fieldsOk, la, Bool.and_eq_true, Bool.false_or, beq_iff_eq] at ok
  obtain ⟨⟨⟨⟨⟨⟨⟨-, -⟩, none⟩, -⟩, -⟩, -⟩, -⟩, -⟩ := ok
  simp [Ctx.lookahead, none]

/-- Lookahead counts outside a handler alone (R96). -/
theorem lookahead_ne_zero {c : Ctx} {f : Fields} (h : c.lookahead f ≠ 0) : c.handler = false ∧ c.lookahead f = f.la.toNat := by
  unfold Ctx.lookahead at h ⊢
  split at h
  · exact absurd rfl h
  · next hn =>
    rw [if_neg hn]
    simp only [Bool.or_eq_true, not_or, Bool.not_eq_true] at hn
    exact ⟨hn.2, rfl⟩

/-- Among the instructions of register form, those with lookahead end with their register writes. -/
theorem ending_of_lookahead {ins : Fields → Instr} (hins : ins ∈ registerOps) {r : OpRow} {f : Fields} {s s1 : State} {c : Ctx}
    (h : Issues (ins f) r f s c s1) (hla : c.lookahead f ≠ 0) : ∃ body, EndsBy ins r body := by
  have same : ∀ r', (∀ f, (ins f).row = some r') → r' = r := fun r' row => Option.some.inj ((row f).symm.trans h.row)
  cases registerOps_shape ins hins with
  | ending e =>
    obtain ⟨r', body, e⟩ := e
    obtain rfl := same r' e.row
    exact ⟨body, e⟩
  | branch r' ws next row la runs => exact absurd (h.lookahead_of_row (same r' row ▸ la)) hla
  | mask r' g row la ply runs => exact absurd (h.lookahead_of_row (same r' row ▸ la)) hla

/-- A path's instruction with lookahead: the ply afterwards, with its writes waiting. -/
theorem finish_defers {s : State} {c : Ctx} {f : Fields} (ws : Nat → List RegWrite) (fl : Nat → FFlags) (h : s.ctx? s.cur = some c)
    (hd : c.dist = false) (hdef : c.ply.curDefs = []) (hla : c.lookahead f ≠ 0) : ∃ p, c.ply? (c.finish f 0 ws fl s) = some p ∧
      (nth p.paths c.idx {}).pc = c.pc + Fields.size f ∧ c.ply.SameVals p ∧
      p.curDefs = newDefs (fun st => c.ply.curPos st + f.la.toNat) ws fl c.strands ∧
      ∀ st ∈ c.strands, st < c.ply.pos.length → p.curPos st = c.ply.curPos st + 1 := by
  obtain ⟨hh, hn⟩ := lookahead_ne_zero hla
  obtain ⟨-, -, -, -, -, hmode⟩ := ctx?_ply h hd
  have defers := Ply.writeAll_defers hla ws fl (ctx_strands_nodup h) (hmode ▸ hh) (by simp [hdef])
  refine ⟨_, finish_ply?_writeAll f ws fl h hd, ?_, ⟨defers.vals.v, defers.vals.s, defers.vals.flags⟩, ?_, defers.passed⟩
  · rw [defers.paths, nth_modNth_same _ _ _ _ (ctx?_idx_lt h hd)]
  · have waiting := defers.defs
    rw [hdef, List.nil_append, hn] at waiting
    rw [hn]
    exact waiting

/-- R93: the word with lookahead leaves its writes waiting, and landed they are what the word without it leaves. -/
theorem lookaheadDefers : LookaheadDefers := by
  intro ins hins r f s s1 c h hd hdef hla
  obtain ⟨body, e⟩ := ending_of_lookahead hins h hla
  obtain ⟨ws, fl, own, done⟩ := e.ends f c s1
  have lt := ctx_strands_lt h.ctx
  have nodup := ctx_strands_nodup h.ctx
  have before := ctx?_ply? h.ctx hd
  obtain ⟨p, after, pc, vals, waiting, passed⟩ := finish_defers ws fl h.ctx hd hdef hla
  have atOnce := finish_ply? { f with la := 0 } ws fl h.ctx hd hdef (lookahead_now c f)
  obtain ⟨landed, same⟩ := Ply.foldl_land_newDefs (b := fun st => c.ply.curPos st + f.la.toNat + 1) nodup (fun _ _ => by omega) waiting
  replace same := (vals.putAll c.strands ws fl).trans same
  refine ⟨countIssue c (issueClass r f) (c.finish f 0 ws fl s1), p, countIssue c (issueClass r f) (c.finish { f with la := 0 } 0 ws fl s1),
    _, (e.runs f s).trans (guarded_done h (done f.la)), ?_, fun q th => ?_, fun q st => ?_, ?_, ?_, passed, fun d hmem => ?_,
    (e.runs _ s).trans (guarded_done (e.issues_now h) (done 0)), (countIssue_ply? ..).trans atOnce, fun st hst changed => ?_, fun st hst => ?_,
    landed, ?_⟩
  · simpa [Ctx.pcIn, hd, after] using pc
  · simp [Ctx.vIn, after, before, Ply.rdV, vals.v]
  · simp [Ctx.sIn, hd, after, before, Ply.rdS, vals.s]
  · simp [Ctx.flagsIn, after, vals.flags]
  · simp [after]
  · rw [waiting] at hmem
    obtain ⟨st, hst, rfl⟩ := mem_newDefs hmem
    exact ⟨hst, rfl⟩
  · by_contra unwritten
    have empty : ws st = [] := by
      by_contra hw
      refine unwritten ⟨{ strand := st, land := c.ply.curPos st + f.la.toNat, op := 0, writes := ws st, flags := fl st }, ?_, rfl, hw⟩
      rw [waiting]
      exact List.mem_flatMap.mpr ⟨st, hst, by simp [newDef, hw]⟩
    obtain ⟨scalars, vectors⟩ := Ply.putAll_unwritten (fl := fl) (p := c.ply) lt nodup own hst empty
    obtain ⟨q, hq⟩ | ⟨q, th, hth, hq⟩ := changed
    · exact hq (scalars q)
    · exact hq (vectors q th (mem_activeIn.mp hth).1)
  · refine Ply.land_none_due p fun d hmem => ?_
    rw [waiting] at hmem
    obtain ⟨sj, -, rfl⟩ := mem_newDefs hmem
    rintro ⟨rfl, hlt⟩
    exact absurd hlt (Nat.lt_irrefl _)
  · rintro q rfl
    exact ⟨same.v, same.s, same.flags⟩

/-- R93: a deferred write lands behind its position. -/
theorem landingPerforms : LandingPerforms := by
  intro p e bound reg th x hdefs hop hue hw hth
  constructor
  · intro hb
    have landed : p.land e.strand bound = (Ply.apply e p).setDefs [] := by
      rw [Ply.land_eq p _ _ [e] hdefs, landDue_one _ _ _ e _ rfl hb hop]
    have applied : Ply.apply e p = { p.wrV reg th x with flags := p.flags ||| e.flags } := by
      unfold Ply.apply
      rw [hue, hw]
      rfl
    obtain ⟨v, -, flags⟩ := Ply.sameVals_setDefs (Ply.apply e p) []
    rw [landed]
    refine ⟨Ply.curDefs_setDefs .., ?_, ?_⟩
    · rw [Ply.rdV, v, applied]
      exact sget_sset_same ..
    · rw [flags, applied]
  · intro hb
    refine Ply.land_none_due p fun d hd => ?_
    rw [hdefs, List.mem_singleton] at hd
    subst hd
    exact fun hlt => absurd hlt.2 (by omega)

/-- Settles O11: the deferral, and the landing of one write. -/
theorem lookahead : Obligations.Lookahead := ⟨lookaheadDefers, landingPerforms⟩

end Sys2Proof.Machine
end

section
/-! PROOFS. Branches, calls and jumps, and misaligned targets (R107, R182 to R186). -/

namespace Sys2Proof.Machine

open Host (Outcome)
open Sys2Proof.Claims

/-! ### Path tables -/

/-- The entries of a path table that are free. -/
def freeEntries (l : List Path) : Nat := (l.filter fun e => !e.valid).length

theorem placePath_keeps (e : Path) {l : List Path} {x : Path} (hx : x ∈ l) (hv : x.valid = true) : x ∈ placePath e l := by
  induction l with
  | nil => cases hx
  | cons y l ih =>
    unfold placePath
    obtain rfl | hx := List.mem_cons.mp hx
    · simp [hv]
    · split
      · exact List.mem_cons_of_mem _ (ih hx)
      · exact List.mem_cons_of_mem _ hx

/-- A path finds the lowest free entry, which then is free no more. -/
theorem placePath_places {e : Path} (he : e.valid = true) {l : List Path} (hf : 0 < freeEntries l) :
    e ∈ placePath e l ∧ freeEntries (placePath e l) + 1 = freeEntries l := by
  induction l with
  | nil => simp [freeEntries] at hf
  | cons y l ih =>
    unfold placePath
    cases hy : y.valid with
    | true =>
      have rest : freeEntries (y :: l) = freeEntries l := by simp [freeEntries, hy]
      obtain ⟨placed, count⟩ := ih (rest ▸ hf)
      exact ⟨List.mem_cons_of_mem _ placed, by rw [rest, ← count]; simp [freeEntries, hy]⟩
    | false => exact ⟨List.mem_cons_self .., by simp [freeEntries, hy, he]⟩

/-- Paths for which there is room are all placed, and the valid entries stay. -/
theorem foldl_placePath {g : Word → Path} (hg : ∀ a, (g a).valid = true) {bs : List Word} {l : List Path} (h : bs.length ≤ freeEntries l) :
    (∀ b ∈ bs, g b ∈ bs.foldl (fun l b => placePath (g b) l) l) ∧
    ∀ x ∈ l, x.valid = true → x ∈ bs.foldl (fun l b => placePath (g b) l) l := by
  induction bs generalizing l with
  | nil => exact ⟨by simp, fun x hx _ => hx⟩
  | cons b bs ih =>
    have room : 0 < freeEntries l := Nat.lt_of_lt_of_le (by simp) h
    obtain ⟨placed, count⟩ := placePath_places (hg b) room
    obtain ⟨rest, keep⟩ := ih (l := placePath (g b) l) (by simp only [List.length_cons] at h; omega)
    refine ⟨fun a ha => ?_, fun x hx hv => keep x (placePath_keeps _ hx hv) hv⟩
    obtain rfl | ha := List.mem_cons.mp ha
    · exact keep _ placed (hg a)
    · exact rest a ha

/-! ### Where the strands go -/

/-- Every strand's next address is a target, and there are no more targets than strands. -/
theorem targets_spec (strands : List Nat) (next : Nat → Word) :
    (∀ st ∈ strands, next st ∈ targets strands next) ∧ (targets strands next).length ≤ strands.length := by
  have from_ : ∀ (l : List Nat) (acc : List Word), let r := l.foldl (fun l s => if l.contains (next s) then l else l ++ [next s]) acc
      (∀ a ∈ acc, a ∈ r) ∧ (∀ st ∈ l, next st ∈ r) ∧ r.length ≤ acc.length + l.length := by
    intro l
    induction l with
    | nil => intro acc; exact ⟨fun _ h => h, by simp, Nat.le_refl _⟩
    | cons st l ih =>
      intro acc
      obtain ⟨old, new, len⟩ := ih (if acc.contains (next st) then acc else acc ++ [next st])
      rw [List.foldl_cons]
      have here : next st ∈ (if acc.contains (next st) then acc else acc ++ [next st]) := by split <;> simp_all
      have sub : ∀ a ∈ acc, a ∈ (if acc.contains (next st) then acc else acc ++ [next st]) := fun a ha => by split <;> simp [ha]
      have size : (if acc.contains (next st) then acc else acc ++ [next st]).length ≤ acc.length + 1 := by split <;> simp
      refine ⟨fun a ha => old a (sub a ha), fun sj hsj => ?_, by simp only [List.length_cons]; omega⟩
      obtain rfl | hsj := List.mem_cons.mp hsj
      · exact old _ here
      · exact new sj hsj
  obtain ⟨-, mem, len⟩ := from_ strands []
  exact ⟨mem, by rwa [List.length_nil, Nat.zero_add] at len⟩

/-- Marks of ascending strands, one power of two each: a number keeps its bits, and every strand of the predicate is marked. -/
theorem foldl_marks (p : Nat → Bool) {l : List Nat} (hl : l.Pairwise (· < ·)) {n : Nat} (hn : ∀ st ∈ l, n < 2 ^ st) :
    (∀ j, n.testBit j = true → (l.foldl (fun n s => if p s then n + 2 ^ s else n) n).testBit j = true) ∧
    ∀ st ∈ l, p st = true → (l.foldl (fun n s => if p s then n + 2 ^ s else n) n).testBit st = true := by
  induction l generalizing n with
  | nil => exact ⟨fun _ h => h, by simp⟩
  | cons st l ih =>
    obtain ⟨above, hl⟩ := List.pairwise_cons.mp hl
    have lt : n < 2 ^ st := hn st (List.mem_cons_self ..)
    have marked : n + 2 ^ st = 2 ^ st ||| n := by simpa [Nat.add_comm] using Nat.two_pow_add_eq_or_of_lt lt 1
    have small : ∀ sj ∈ l, (if p st then n + 2 ^ st else n) < 2 ^ sj := fun sj hsj => by
      have le : 2 ^ (st + 1) ≤ 2 ^ sj := Nat.pow_le_pow_right (by decide) (above sj hsj)
      rw [Nat.pow_succ] at le
      split <;> omega
    obtain ⟨keep, mark⟩ := ih hl small
    refine ⟨fun j hj => keep j ?_, fun sj hsj hp => ?_⟩
    · split
      · rw [marked, Nat.testBit_or, hj, Bool.or_true]
      · exact hj
    · obtain rfl | hsj := List.mem_cons.mp hsj
      · refine keep sj ?_
        rw [if_pos hp, marked, Nat.testBit_or, Nat.testBit_two_pow_self, Bool.true_or]
      · exact mark sj hsj hp

/-- The strands that go to an address are marked. -/
theorem strandsTo_bit {strands : List Nat} (hp : strands.Pairwise (· < ·)) (hl : ∀ st ∈ strands, st < 16) (next : Nat → Word) {st : Nat}
    (h : st ∈ strands) : (strandsTo strands next (next st)).getLsbD st = true := by
  obtain ⟨-, mark⟩ := foldl_marks (fun s => next s == next st) hp (n := 0) fun sj _ => Nat.two_pow_pos sj
  unfold strandsTo
  rw [BitVec.getLsbD_ofNat, mark st h (by simp)]
  simp [hl st h]

/-! ### A branch of a path -/

theorem ctx_strands_ascending {s : State} {p : Party} {c : Ctx} (h : s.ctx? p = some c) : c.strands.Pairwise (· < ·) := by
  cases hd : c.dist
  · obtain ⟨-, -, -, hs, -⟩ := ctx?_ply h hd
    rw [hs]
    exact List.pairwise_lt_range.filter _
  · obtain ⟨-, -, hs⟩ := ctx?_dist h hd
    rw [hs]
    simp

/-- The path of a target. -/
def targetPath (strands : List Nat) (next : Nat → Word) (b : Word) : Path := { valid := true, pc := b, strands := strandsTo strands next b }

/-- The branching path's entry at its first target. -/
def movedPath (strands : List Nat) (next : Nat → Word) (a : Word) (e : Path) : Path :=
  { e with pc := a, strands := strandsTo strands next a, st := .ready, wait := .none }

theorem nth_mem_modNth {α : Type} {l : List α} {i : Nat} (g : α → α) (d : α) (h : i < l.length) : g (nth l i d) ∈ modNth l i g := by
  rw [← nth_modNth_same l i g d h, nth, List.getD_eq_getElem _ _ (by rwa [modNth_length])]
  exact List.getElem_mem _

theorem freeEntries_modNth {g : Path → Path} (hg : ∀ e, (g e).valid = e.valid) (l : List Path) (i : Nat) :
    freeEntries (modNth l i g) = freeEntries l := by
  induction l generalizing i with
  | nil => rfl
  | cons x l ih => cases i with
    | zero => simp only [modNth, freeEntries, List.filter_cons, hg]; split <;> rfl
    | succ i =>
      have rest := ih i
      unfold freeEntries at rest ⊢
      simp only [modNth, List.filter_cons]
      split <;> simp [rest]

/-- After a split with room for its targets, each strand's target has a valid, ready path that holds the strand. -/
theorem splitPaths_target {paths : List Path} {idx : Nat} (hi : idx < paths.length) (hv : (nth paths idx {}).valid = true) {strands : List Nat}
    (hp : strands.Pairwise (· < ·)) (hl : ∀ st ∈ strands, st < 16) (next : Nat → Word) (room : strands.length ≤ freeEntries paths + 1)
    {st : Nat} (h : st ∈ strands) : ∃ e ∈ splitPaths paths idx strands next,
      e.valid = true ∧ e.st = .ready ∧ e.strands.getLsbD st = true ∧ e.pc = next st := by
  obtain ⟨mem, len⟩ := targets_spec strands next
  have target := mem st h
  have bit := strandsTo_bit hp hl next h
  unfold splitPaths
  cases ht : targets strands next with
  | nil => simp [ht] at target
  | cons a more =>
    have own := nth_mem_modNth (movedPath strands next a) {} hi
    have free := freeEntries_modNth (g := movedPath strands next a) (fun _ => rfl) paths idx
    rw [ht, List.length_cons] at len
    rw [ht] at target
    obtain ⟨placed, keep⟩ := foldl_placePath (g := targetPath strands next) (fun _ => rfl) (bs := more)
      (l := modNth paths idx (movedPath strands next a)) (by omega)
    obtain rfl | later := List.mem_cons.mp target
    · exact ⟨_, keep _ own hv, hv, rfl, bit, rfl⟩
    · exact ⟨_, placed _ later, rfl, rfl, bit, rfl⟩

section
variable {s : State} {c : Ctx} (f : Fields) (ws : List RegWrite) (next : Nat → Word) (h : s.ctx? s.cur = some c) (hla : c.lookahead f = 0)
include h hla

/-- A branch of a path with nothing outstanding: its ply afterwards. -/
theorem branch_ply? (hd : c.dist = false) (hdef : c.ply.curDefs = []) : c.ply? (c.branch f ws next s) =
    some { c.ply.putAll c.strands (fun _ => ws) (fun _ => 0) with paths := splitPaths c.ply.paths c.idx c.strands next } := by
  obtain ⟨hp, -⟩ := ctx?_ply h hd
  have e : c.branch f ws next s = c.modPly s fun y =>
      { c.strands.foldl (fun p st => p.write st 0 0 ws 0) y with
        paths := splitPaths (c.strands.foldl (fun p st => p.write st 0 0 ws 0) y).paths c.idx c.strands next } := by
    unfold Ctx.branch Ctx.writes Ctx.modPly
    simp only [hd, hla, Bool.false_eq_true, if_false]
    exact modPly_modPly ..
  rw [e, ctx_modPly_ply? _ (ctx?_skein h) (ctx?_ply_lt h hd), ← hp, Ply.foldl_write_now _ (fun _ => ws) (fun _ => 0) _ hdef, Ply.putAll_paths]

/-- A branch of a distaff with nothing outstanding: the distaff afterwards, and the plies as before. -/
theorem branch_dist (hd : c.dist = true) (hdef : c.sk.dist.curDefs = []) :
    c.distIn (c.branch f ws next s) = { (c.sk.dist.putRegs ws).bumpPos with pc := next 0, wait := .none } ∧
    c.ply? (c.branch f ws next s) = c.ply? s := by
  have e : c.branch f ws next s = c.modDist s fun d => { d.write 0 0 ws with pc := next 0, wait := .none } := by
    unfold Ctx.branch Ctx.writes Ctx.goto Ctx.modDist
    simp only [hd, hla, if_true]
    exact modDist_modDist ..
  rw [e]
  refine ⟨?_, ctx_modDist_ply? _ (ctx?_skein h)⟩
  unfold Ctx.distIn Ctx.modDist State.modDist
  rw [modSkein_skein? _ (ctx?_skein h)]
  simp only [Skein.modDist, Option.map_some, Option.getD_some]
  rw [Dist.write_now _ _ hdef]

/-- A branch leaves the registers that an ordinary instruction with its writes leaves. -/
theorem branch_sIn (hs : Settled c) (q st : Nat) : c.sIn (c.branch f ws next s) q st = c.sIn (c.finishAll f ws s) q st := by
  obtain ⟨hp, hdist⟩ := hs
  cases hd : c.dist
  · simp [Ctx.sIn, hd, branch_ply? f ws next h hla hd hp, Ctx.finishAll, finish_ply? f _ _ h hd hp hla, Ply.rdS]
  · simp [Ctx.sIn, hd, branch_dist f ws next h hla hd hdist, Ctx.finishAll, finish_distIn f _ _ h hd hdist hla, Dist.rdD]

theorem branch_vIn (hs : Settled c) (q th : Nat) : c.vIn (c.branch f ws next s) q th = c.vIn (c.finishAll f ws s) q th := by
  obtain ⟨hp, hdist⟩ := hs
  cases hd : c.dist
  · simp [Ctx.vIn, branch_ply? f ws next h hla hd hp, Ctx.finishAll, finish_ply? f _ _ h hd hp hla, Ply.rdV]
  · simp [Ctx.vIn, branch_dist f ws next h hla hd hdist, Ctx.finishAll, finish_dist_ply? f _ _ h hd]

end

/-- An instruction that writes no register leaves every register. -/
theorem finish0_same {s : State} {c : Ctx} (f : Fields) (h : s.ctx? s.cur = some c) (hla : c.lookahead f = 0) (hs : Settled c) :
    SameV c s (c.finish0 f s) ∧ SameS c s (c.finish0 f s) := by
  obtain ⟨hp, hdist⟩ := hs
  cases hd : c.dist
  · have none := finish_ply? f (fun _ => []) (fun _ => 0) h hd hp hla
    constructor
    · intro q th
      simp only [Ctx.vIn, Ctx.finish0, none, ctx?_ply? h hd, Option.map_some, Option.getD_some, Ply.rdV, Ply.putAll_none_v]
    · intro q st
      simp only [Ctx.sIn, hd, Bool.false_eq_true, if_false, Ctx.finish0, none, ctx?_ply? h hd, Option.map_some, Option.getD_some, Ply.rdS,
        Ply.putAll_none_s]
  · constructor
    · intro q th
      simp only [Ctx.vIn, Ctx.finish0, finish_dist_ply? f _ _ h hd]
    · intro q st
      simp only [Ctx.sIn, hd, if_true, Ctx.finish0, finish_distIn f _ _ h hd hdist hla, ctx?_distIn h, Dist.putRegs_nil]
      unfold Dist.bumpPos Dist.rdD
      split <;> rfl

/-! ### What the branches test and where they go -/

theorem tested_toNat (f : Fields) (c : Ctx) (st : Nat) : (c.tested f st).toNat = testOf f c st := by
  unfold Ctx.tested testOf Ctx.maskByte
  split
  · rfl
  · have code : (if 0x80 ≤ f.a.toNat then f.a.toNat else f.a.toNat + st / 8) = if f.a.toNat < 0x80 then f.a.toNat + st / 8 else f.a.toNat := by
      split <;> split <;> omega
    rw [code]
    simp
    omega

/-- What BRZ and BRNZ test is zero. -/
theorem tested_eq_zero (f : Fields) (c : Ctx) (st : Nat) : (c.tested f st == 0) = decide (testOf f c st = 0) := by
  rw [← tested_toNat, Bool.eq_iff_iff, beq_iff_eq, decide_eq_true_iff]
  exact ⟨fun e => by rw [e]; rfl, fun e => BitVec.eq_of_toNat_eq e⟩

/-- A target's low three bits, as the check reads them (R182). -/
theorem misaligned_iff (x : Word) : (x &&& 7 != 0) = (bitsAt x 0 3 != 0) := by
  have low : (x &&& 7).toNat = bitsAt x 0 3 := by
    rw [BitVec.toNat_and, bitsAt, Nat.pow_zero, Nat.div_one]
    exact Nat.and_two_pow_sub_one_eq_mod x.toNat 3
  rw [← low, Bool.eq_iff_iff, bne_iff_ne, bne_iff_ne, not_iff_not]
  exact ⟨fun e => by rw [e]; rfl, fun e => BitVec.eq_of_toNat_eq e⟩

/-- A transfer that takes effect: the party branches, and CALL alone writes its link. -/
def Transfers (op : BranchOp) (r : OpRow) (f : Fields) (s s1 : State) (c : Ctx) : Prop :=
  ∃ ws, exec (op.ins f) s = .next (countIssue c (issueClass r f) (c.branch f ws (op.next f c) s1)) ∧ r.la = false ∧
    ((r.fn ≠ 4 ∧ ws = []) ∨ (r.fn = 4 ∧ ws = [wrAll f.d.toNat (c.pc + 8)]))

theorem jump_aligned {f : Fields} {c : Ctx} {s : State} (h : ∀ st ∈ c.strands, bitsAt (scal c st f.a) 0 3 = 0) :
    jump f c s = .done (c.branch f [] (fun st => scal c st f.a) s) := by
  have none : (c.strands.find? fun st => c.rdScal st f.a.toNat &&& 7 != 0) = none := by
    rw [List.find?_eq_none]
    intro st hst
    rw [misaligned_iff]
    simpa [scal] using h st hst
  unfold jump
  simp only [none]
  rfl

theorem condBranch_eq (zero : Bool) (f : Fields) (c : Ctx) (s : State) : condBranch zero f c s =
    .done (c.branch f [] (fun st => if decide (testOf f c st = 0) = zero then target24 f c else c.pc + 8) s) := by
  unfold condBranch
  simp only [tested_eq_zero, beq_iff_eq]
  rfl

theorem branchOps_transfer {op : BranchOp} (hop : op ∈ branchOps) {r : OpRow} {f : Fields} {s s1 : State} {c : Ctx}
    (h : Issues (op.ins f) r f s c s1) (aligned : r.opc = 2 ∧ (r.fn = 3 ∨ r.fn = 5) → ∀ st ∈ c.strands, bitsAt (op.next f c st) 0 3 = 0) :
    Transfers op r f s s1 c := by
  simp only [branchOps, List.mem_cons, List.not_mem_nil, or_false] at hop
  obtain rfl | rfl | rfl | rfl | rfl | rfl := hop <;> obtain rfl := Option.some.inj h.row
  · exact ⟨[], guarded_done h (body := fun f c s => .done (c.branch f [] (fun _ => relTarget c.pc (offset32 f)) s)) rfl, rfl,
      .inl ⟨by decide, rfl⟩⟩
  · exact ⟨[], guarded_done h (by simp [condBranch_eq]), rfl, .inl ⟨by decide, rfl⟩⟩
  · have next : (fun st => if decide (testOf f c st = 0) = false then target24 f c else c.pc + 8) =
        fun st => if testOf f c st = 0 then c.pc + 8 else target24 f c := by
      funext st
      split <;> simp_all
    exact ⟨[], guarded_done h (by rw [condBranch_eq, next]), rfl, .inl ⟨by decide, rfl⟩⟩
  · exact ⟨[wrAll f.d.toNat (c.pc + 8)], guarded_done h (body := fun f c s =>
      .done (c.branch f [wrAll f.d.toNat (c.pc + 8)] (fun _ => relTarget c.pc (offset32 f)) s)) rfl, rfl, .inr ⟨rfl, rfl⟩⟩
  · exact ⟨[], guarded_done h (jump_aligned (aligned ⟨rfl, .inl rfl⟩)), rfl, .inl ⟨by decide, rfl⟩⟩
  · exact ⟨[], guarded_done h (jump_aligned (aligned ⟨rfl, .inr rfl⟩)), rfl, .inl ⟨by decide, rfl⟩⟩

/-- R107, R182 to R186: each strand to its own target. -/
theorem branches : Branches := by
  intro op hop r f s s1 c h hp hdist aligned
  obtain ⟨ws, ex, la, link⟩ := branchOps_transfer hop h aligned
  have hla := h.lookahead_of_row la
  have settled : Settled c := ⟨hp, hdist⟩
  have sIn := branch_sIn f ws (op.next f c) h.ctx hla settled
  have vIn := branch_vIn f ws (op.next f c) h.ctx hla settled
  have none : ws = [] → SameV c s1 (c.finishAll f ws s1) ∧ SameS c s1 (c.finishAll f ws s1) := by
    rintro rfl
    exact finish0_same f h.ctx hla settled
  have linked : ws = [wrAll f.d.toNat (c.pc + 8)] → AllCopies c s1 (c.finishAll f ws s1) f.d.toNat (c.pc + 8) := by
    rintro rfl
    exact finishD_allCopies f (c.pc + 8) h.ctx settled hla
  refine ⟨_, ex, fun q th => ?_, fun hn q st => ?_, fun hn st hst => ?_, fun hd => ?_, fun hd room => ?_⟩
  · rw [countIssue_vIn, vIn]
    obtain ⟨-, e⟩ | ⟨-, e⟩ := link
    · exact (none e).1 q th
    · exact (linked e).2.2 q th
  · obtain ⟨-, e⟩ | ⟨hl, -⟩ := link
    · rw [countIssue_sIn, sIn]
      exact (none e).2 q st
    · exact absurd hl hn
  · obtain ⟨hl, -⟩ | ⟨-, e⟩ := link
    · exact absurd hn hl
    · rw [countIssue_sIn, sIn]
      exact (linked e).1 st hst
  · simp [Ctx.pcIn, hd, branch_dist f ws (op.next f c) h.ctx hla hd hdist]
  · refine ⟨_, (countIssue_ply? ..).trans (branch_ply? f ws (op.next f c) h.ctx hla hd hp), fun st hst => ?_⟩
    obtain ⟨-, path, valid, -⟩ := ctx?_ply h.ctx hd
    obtain ⟨e, mem, hv, ready, bit, pc⟩ := splitPaths_target (ctx?_idx_lt h.ctx hd) (path ▸ valid) (ctx_strands_ascending h.ctx)
      (ctx_strands_lt h.ctx) (op.next f c) room hst
    obtain ⟨i, hi⟩ := List.mem_iff_getElem?.mp mem
    exact ⟨i, e, hi, hv, ready, bit, pc⟩

/-- R182, R185: the jump itself traps. -/
theorem jumpMisaligned : JumpMisaligned := by
  intro ins hins r f s s1 c st h found
  have first : (c.strands.find? fun st => c.rdScal st f.a.toNat &&& 7 != 0) = some st := by
    simp only [misaligned_iff]
    exact found
  have trap : jump f c s1 = .trap { kind := .pcAlign, elem := some (8 * st), addr := scal c st f.a } := by
    unfold jump
    simp only [first]
    rfl
  simp only [jumpOps, List.mem_cons, List.not_mem_nil, or_false] at hins
  obtain rfl | rfl := hins
  · exact guarded_trap h trap
  · exact guarded_trap h trap

/-- Settles O12: the transfers, and the trap of a misaligned target. -/
theorem controlTransfer : Obligations.ControlTransfer := ⟨branches, jumpMisaligned⟩

end Sys2Proof.Machine
end

section
/-! PROOFS. Loads and stores in the scratchpad (R90, R193, R194, R198, R200, R201, R203). -/

namespace Sys2Proof.Machine

open Host (Outcome)
open Sys2Proof.Claims

/-! ### Bytes of a store -/

/-- Byte i of a number's bytes. -/
theorem nth_natBytes {k v i : Nat} (h : i < k) : nth (natBytes k v) i 0 = BitVec.ofNat 8 (v / 256 ^ i) := by
  induction k generalizing v i with
  | zero => omega
  | succ k ih => cases i with
    | zero => simp [natBytes, nth]
    | succ i =>
      have step : nth (natBytes (k + 1) v) (i + 1) 0 = nth (natBytes k (v / 256)) i 0 := rfl
      rw [step, ih (by omega), Nat.div_div_eq_div_mul, Nat.pow_succ, Nat.mul_comm]

theorem ofNat_eq_byteOf (w : Word) (i : Nat) : BitVec.ofNat 8 (w.toNat / 256 ^ i) = byteOf w i := by
  apply BitVec.eq_of_toNat_eq
  rw [byteOf, BitVec.extractLsb'_toNat, Nat.shiftRight_eq_div_pow, BitVec.toNat_ofNat, Nat.pow_mul]

/-- A byte after a store: the value's where the store reaches, else as before. -/
theorem sget_swrite (m : Sparse 8) (a n b : Nat) (w : Word) :
    sget (swrite m a n w) b = if a ≤ b ∧ b < a + n then byteOf w (b - a) else sget m b := by
  unfold swrite
  split
  · next h =>
    have inside := sget_sputBytes_inside m a (b - a) (natBytes n w.toNat) (by rw [length_natBytes]; omega)
    rw [show a + (b - a) = b by omega] at inside
    rw [inside, ← ofNat_eq_byteOf]
    rw [← nth_natBytes (k := n) (v := w.toNat) (i := b - a) (by omega), nth, List.getD_eq_getElem]
  · next h => exact sget_sputBytes_outside _ _ _ _ (by rw [length_natBytes]; omega)

/-- The number of one byte more. -/
theorem bytesNat_sbytes_succ (m : Sparse 8) (a n : Nat) :
    bytesNat (sbytes m a (n + 1)) = bytesNat (sbytes m a n) + (sget m (a + n)).toNat * 256 ^ n := by
  induction n generalizing a with
  | zero => simp [sbytes, bytesNat]
  | succ n ih =>
    have low : ∀ k, bytesNat (sbytes m a (k + 1)) = (sget m a).toNat + 256 * bytesNat (sbytes m (a + 1) k) := fun _ => rfl
    rw [low, ih, low, Nat.pow_succ, show a + 1 + n = a + (n + 1) by omega]
    ring

/-- The little-endian value of a range is that of its bytes (R8). -/
theorem valueAt_rangeCells (m : Sparse 8) (a n : Nat) : valueAt (fun b => sget m b) (rangeCells a n) = bytesNat (sbytes m a n) := by
  induction n with
  | zero => rfl
  | succ n ih =>
    rw [bytesNat_sbytes_succ, ← ih]
    simp [valueAt, rangeCells, List.range_succ]

theorem ty_bits_le (ty : Ty) : 0 < ty.bits ∧ ty.bits ≤ 64 := by cases ty <;> decide

/-- A value filled from its bytes (R90, R194). -/
theorem fillS_eq_filled (ty : Ty) (x : Nat) : fillS ty (BitVec.ofNat 64 x) = filled ty x := by
  obtain ⟨pos, le⟩ := ty_bits_le ty
  have dvd : 2 ^ ty.bits ∣ 2 ^ 64 := Nat.pow_dvd_pow 2 le
  have low : (BitVec.ofNat 64 x).toNat % 2 ^ ty.bits = x % 2 ^ ty.bits := by rw [BitVec.toNat_ofNat, Nat.mod_mod_of_dvd _ dvd]
  have lt : x % 2 ^ ty.bits < 2 ^ ty.bits := Nat.mod_lt _ (Nat.two_pow_pos _)
  have small : 2 ^ ty.bits ≤ 2 ^ 64 := Nat.pow_le_pow_right (by decide) le
  apply BitVec.eq_of_toNat_eq
  unfold fillS filled
  simp only [low]
  cases ty.signed with
  | false =>
    simp [BitVec.toNat_setWidth]
  | true =>
    simp only [BitVec.toNat_signExtend, BitVec.msb_eq_decide, BitVec.toNat_setWidth, BitVec.toNat_ofNat, Bool.true_and, decide_eq_true_eq, if_true]
    generalize 2 ^ (ty.bits - 1) = half
    generalize x % 2 ^ ty.bits = n at *
    split
    · rw [BitVec.toNat_ofNat]
      omega
    · rw [BitVec.toNat_ofNat]
      omega

/-! ### Stores one after another -/

/-- The bytes of a store of some accesses, one after another (R198). -/
def putAccs {α : Type} (at_ : α → Nat) (n : Nat) (data : α → Word) (l : List α) (m : Sparse 8) : Sparse 8 :=
  l.foldl (fun m u => swrite m (at_ u) n (data u)) m

theorem mem_rangeCells {a n : Nat} {x : Nat × Nat} : x ∈ rangeCells a n ↔ x.1 < n ∧ x.2 = a + x.1 := by
  simp only [rangeCells, List.mem_map, List.mem_range]
  constructor
  · rintro ⟨k, hk, rfl⟩
    exact ⟨hk, rfl⟩
  · rintro ⟨hk, e⟩
    exact ⟨x.1, hk, by rw [← e]⟩

section
variable {α : Type} {at_ : α → Nat} {n : Nat} {data : α → Word}

/-- A byte that no access reaches is as before. -/
theorem putAccs_other {l : List α} {b : Nat} (h : ∀ u ∈ l, ∀ y ∈ rangeCells (at_ u) n, y.2 ≠ b) (m : Sparse 8) :
    sget (putAccs at_ n data l m) b = sget m b := by
  induction l generalizing m with
  | nil => rfl
  | cons u l ih =>
    have step : putAccs at_ n data (u :: l) m = putAccs at_ n data l (swrite m (at_ u) n (data u)) := rfl
    rw [step, ih fun v hv => h v (List.mem_cons_of_mem _ hv), sget_swrite, if_neg]
    rintro ⟨lo, hi⟩
    exact h u (List.mem_cons_self ..) (b - at_ u, b) (mem_rangeCells.mpr ⟨by omega, by omega⟩) rfl

/-- A byte of an access that no later one reaches is that access's data. -/
theorem putAccs_last {l₁ l₂ : List α} {u : α} {x : Nat × Nat} (hx : x ∈ rangeCells (at_ u) n)
    (h : ∀ v ∈ l₂, ∀ y ∈ rangeCells (at_ v) n, y.2 ≠ x.2) (m : Sparse 8) :
    sget (putAccs at_ n data (l₁ ++ u :: l₂) m) x.2 = byteOf (data u) x.1 := by
  have step : putAccs at_ n data (l₁ ++ u :: l₂) m = putAccs at_ n data l₂ (swrite (putAccs at_ n data l₁ m) (at_ u) n (data u)) := by
    simp [putAccs]
  obtain ⟨lt, e⟩ := mem_rangeCells.mp hx
  rw [step, putAccs_other h, sget_swrite, if_pos ⟨by omega, by omega⟩, e, Nat.add_sub_cancel_left]

end

/-- The active threads of a path ascend. -/
theorem active_ascending {s : State} {p : Party} {c : Ctx} (h : s.ctx? p = some c) : c.active.Pairwise (· < ·) := by
  unfold Ctx.active
  refine List.pairwise_flatMap.mpr ⟨fun st _ => ?_, (ctx_strands_ascending h).imp fun {a b} hab x hx y hy => ?_⟩
  · refine List.Pairwise.filter _ (List.pairwise_map.mpr (List.pairwise_lt_range.imp fun {a b} hab => ?_))
    omega
  · have hx := (mem_activeIn.mp hx).1
    have hy := (mem_activeIn.mp hy).1
    omega

/-- A store by the threads of a path: each byte has the data of the highest thread that reaches it (R198). -/
theorem putAccs_highest {at_ : Nat → Nat} {n : Nat} {data : Nat → Word} {l : List Nat} (hl : l.Pairwise (· < ·)) {th : Nat} (hth : th ∈ l)
    {x : Nat × Nat} (hx : x ∈ rangeCells (at_ th) n) (h : ∀ u ∈ l, th < u → ∀ y ∈ rangeCells (at_ u) n, y.2 ≠ x.2) (m : Sparse 8) :
    sget (putAccs at_ n data l m) x.2 = byteOf (data th) x.1 := by
  obtain ⟨l₁, l₂, rfl⟩ := List.append_of_mem hth
  have above := (List.pairwise_cons.mp (List.pairwise_append.mp hl).2.1).1
  exact putAccs_last hx (fun u hu => h u (by simp [hu]) (above u hu)) m

/-! ### A memory instruction in the scratchpad -/

/-- An access of the scratchpad, which has no pieces. -/
def scratchPlaced (u : ThreadAcc) : Placed := { u, pieces := [] }

theorem accTraps_scratch {c : Ctx} {s : State} {need : Need} {n : Nat} {us : List ThreadAcc}
    (range : ∀ u ∈ us, u.acc.addr.toNat + n ≤ c.la.hdr.scratch) : c.accTraps s .scratch need n false (us.map scratchPlaced) = none := by
  unfold Ctx.accTraps
  rw [List.findSome?_eq_none_iff]
  intro p hp
  obtain ⟨u, hu, rfl⟩ := List.mem_map.mp hp
  simp [Ctx.accCheck, Ctx.limitTrap, scratchPlaced, Placed.pageTrap, range u hu]

theorem tokenLack_scratch (c : Ctx) (us : List ThreadAcc) : c.tokenLack false .scratch (us.map scratchPlaced) = none := by
  unfold Ctx.tokenLack
  split
  · rfl
  · simp

theorem scratch_no_pieces (us : List ThreadAcc) : ∀ p ∈ us.map scratchPlaced, p.pieces = [] := by
  intro p hp
  obtain ⟨u, -, rfl⟩ := List.mem_map.mp hp
  rfl

section
variable {ps : List Placed} (h : ∀ p ∈ ps, p.pieces = [])
include h

theorem any_pieces (g : Piece × Tr → Bool) : (ps.any fun p => p.pieces.any g) = false := by
  rw [List.any_eq_false]
  intro p hp
  simp [h p hp]

theorem fillAll_no_pieces (c : Ctx) (s : State) : c.fillAll ps s = s := by
  unfold Ctx.fillAll
  induction ps with
  | nil => rfl
  | cons p ps ih =>
    rw [List.foldl_cons, h p (List.mem_cons_self ..), List.foldl_nil]
    exact ih fun q hq => h q (List.mem_cons_of_mem _ hq)

theorem touchedLines_no_pieces (c : Ctx) (sp : Space) : c.touchedLines sp ps = [] := by
  unfold Ctx.touchedLines
  rw [List.flatMap_eq_nil_iff]
  intro p hp
  simp [h p hp]

end

theorem l1Waits_scratch (c : Ctx) (s : State) (ps : List Placed) : c.l1Waits s .scratch ps = false := by
  simp [Ctx.l1Waits, Ctx.newLines]

/-- The side log is empty, or the party is in its handler: nothing waits for it (R207). -/
theorem prompt_free {c : Ctx} (h : Prompt c) : c.logBusy = false ∧ (!c.handler && !c.sideLog.isEmpty) = false := by
  obtain h | h := h
  · simp [Ctx.logBusy, h]
  · simp only [Ctx.sideLog] at h
    cases hd : c.dist <;> simp_all [Ctx.logBusy, Ctx.sideLog]

/-- A load or store whose accesses all lie in the skein's range of the scratchpad is performed. -/
theorem memBody_scratch {i : Instr} {k : MemKind} (hk : k = .load ∨ k = .store) {ldu : Bool} {f : Fields} {c : Ctx} {s : State}
    (hsp : spaceOf f = .scratch) (range : ∀ u ∈ c.accesses k ldu f, u.acc.addr.toNat + nBytes f ≤ c.la.hdr.scratch) (prompt : Prompt c) :
    let r := c.performAll .scratch (nBytes f) (accessOp k.logOp f.ty c.la.ftz) 0 s.tick false ((c.accesses k ldu f).map scratchPlaced) s
    memBody i k ldu f c s = .done (if k.returns then c.finish f 0 (c.valueWrites f ldu r.1) (fun _ => 0) r.2 else c.finish0 f r.2) := by
  obtain ⟨busy, logged⟩ := prompt_free prompt
  generalize hus : c.accesses k ldu f = us at range
  have none := scratch_no_pieces us
  have place : c.place s .scratch (f.ty.bits / 8) = scratchPlaced := by funext u; rfl
  have fault : anyFault (us.map scratchPlaced) = false := any_pieces none _
  have untrained : anyUntrained s (us.map scratchPlaced) = false := any_pieces none _
  have retrains : anyRetrains s (us.map scratchPlaced) = false := any_pieces none _
  have remote : anyRemote s .scratch (us.map scratchPlaced) = false := rfl
  have traps : ∀ need, c.accTraps s .scratch need (f.ty.bits / 8) false (us.map scratchPlaced) = .none := fun need => accTraps_scratch range
  have cold : ∀ s : State, s.hotLines (stackOf c.sp) [] = s := fun _ => rfl
  cases us with
  | nil =>
    have noValues : c.valueWrites f ldu [] = fun _ => [] := rfl
    obtain rfl | rfl := hk <;> simp [memBody, hus, Ctx.performAll, MemKind.returns, Ctx.finish0, noValues]
  | cons u us =>
    obtain rfl | rfl := hk <;>
      simp only [memBody, hus, hsp, place, traps, tokenLack_scratch, fault, untrained, retrains, remote, l1Waits_scratch, busy,
        fillAll_no_pieces none, touchedLines_no_pieces none, cold, List.isEmpty_cons] <;> simp [MemKind.returns, logged, nBytes]

/-! ### What loads find and stores leave -/

theorem performAll_load {c : Ctx} {s : State} {k : Skein} (hk : s.skein? c.sp c.slot = some k) (n : Nat) (ty : Ty) (ftz : Bool) (op at_ : Nat)
    (keep : Bool) (us : List ThreadAcc) : c.performAll .scratch n (accessOp .load ty ftz) op at_ keep (us.map scratchPlaced) s =
      (us.map fun u => (u.tid, sread k.scratch u.acc.addr.toNat n), s) := by
  induction us with
  | nil => rfl
  | cons u us ih =>
    have first : c.perform1 .scratch n (accessOp .load ty ftz u.acc) op at_ keep (scratchPlaced u) s = (sread k.scratch u.acc.addr.toNat n, s) := by
      simp [Ctx.perform1, hk, opNew, accessOp, scratchPlaced]
    simp only [List.map_cons, Ctx.performAll]
    have e : (scratchPlaced u).u = u := rfl
    rw [e, first, ih]

/-- The party stands where it did, with another scratchpad, and memory is as before. -/
structure Scratched (c : Ctx) (m : Sparse 8) (s t : State) : Prop where
  ctx : t.ctx? t.cur = some { c with sk := { c.sk with scratch := m } }
  mem : SameMemory s t

theorem Scratched.refl {c : Ctx} {s : State} (h : s.ctx? s.cur = some c) : Scratched c c.sk.scratch s s := ⟨h, fun _ => rfl⟩

theorem modSkein_paByte (s : State) (sp slot : Nat) (g : Skein → Skein) (a : Nat) : (s.modSkein sp slot g).paByte a = s.paByte a := by
  unfold State.modSkein
  split <;> rfl

/-- Another scratchpad of its skein changes a context there alone. -/
theorem ctx?_setScratch {s : State} {p : Party} {c : Ctx} (h : s.ctx? p = some c) (g : Sparse 8 → Sparse 8) :
    (s.modSkein c.sp c.slot fun k => { k with scratch := g k.scratch }).ctx? p =
      some { c with sk := { c.sk with scratch := g c.sk.scratch } } := by
  have hk := modSkein_skein? (fun k => { k with scratch := g k.scratch }) (ctx?_skein h)
  have launch : ∀ l, (s.modSkein c.sp c.slot fun k => { k with scratch := g k.scratch }).launch l = s.launch l := fun l => by
    unfold State.modSkein
    split <;> rfl
  cases p with
  | core n => simp [State.ctx?] at h
  | dist sp slot =>
    simp only [State.ctx?, Option.map_eq_some_iff] at h
    obtain ⟨k, -, rfl⟩ := h
    simp only [State.ctx?, hk, launch, Option.map_some]
  | path sp slot ply idx =>
    simp only [State.ctx?] at h
    split at h
    · cases h
    · split at h <;> cases h
      next hv =>
      simp only [State.ctx?, hk, launch]
      exact if_pos hv

theorem Scratched.store {c : Ctx} {m : Sparse 8} {s t : State} (h : Scratched c m s t) (g : Sparse 8 → Sparse 8) :
    Scratched c (g m) s (t.modSkein c.sp c.slot fun k => { k with scratch := g k.scratch }) := by
  refine ⟨?_, fun a => (modSkein_paByte ..).trans (h.mem a)⟩
  rw [modSkein_cur]
  exact ctx?_setScratch h.ctx g

theorem performAll_store {c : Ctx} {s t : State} {m : Sparse 8} (h : Scratched c m s t) (n : Nat) (ty : Ty) (ftz : Bool) (op at_ : Nat)
    (keep : Bool) (us : List ThreadAcc) :
    Scratched c (putAccs (fun u : ThreadAcc => u.acc.addr.toNat) n (fun u => u.acc.data) us m) s
      (c.performAll .scratch n (accessOp .store ty ftz) op at_ keep (us.map scratchPlaced) t).2 := by
  induction us generalizing t m with
  | nil => exact h
  | cons u us ih =>
    have first : (c.perform1 .scratch n (accessOp .store ty ftz u.acc) op at_ keep (scratchPlaced u) t).2 =
        t.modSkein c.sp c.slot fun k => { k with scratch := swrite k.scratch u.acc.addr.toNat n u.acc.data } := by
      simp [Ctx.perform1, opNew, accessOp, scratchPlaced]
    have rest := ih (h.store fun m => swrite m u.acc.addr.toNat n u.acc.data)
    rw [← first] at rest
    exact rest

theorem registerFrame_scratch {c : Ctx} {s t : State} (h : RegisterFrame c s t) : SameScratch c s t := by
  obtain ⟨-, -, -, -, -, own⟩ := h
  intro b
  unfold scratchIn
  split at own <;>
  · obtain ⟨x, hx⟩ := own
    rw [hx, Option.map_map]
    rfl

/-- The party's scratchpad, in a state of a context. -/
theorem ctx?_scratchIn {s : State} {c : Ctx} (h : s.ctx? s.cur = some c) : scratchIn c s = fun b => sget c.sk.scratch b := by
  funext b
  simp [scratchIn, ctx?_skein h]

/-- A loaded value (R90, R194). -/
theorem fillS_sread (ty : Ty) (m : Sparse 8) (a n : Nat) :
    fillS ty (sread m a n) = filled ty (valueAt (fun b => sget m b) (rangeCells a n)) := by
  rw [sread, fillS_eq_filled, valueAt_rangeCells]

/-- The values that a load's accesses find. -/
def loadedBy (c : Ctx) (ldu : Bool) (f : Fields) : List (Nat × Word) :=
  (c.accesses .load ldu f).map fun u => (u.tid, sread c.sk.scratch u.acc.addr.toNat (nBytes f))

section
variable {ins : Fields → Instr} {r : OpRow} {f : Fields} {s s1 : State} {c : Ctx} (h : Issues (ins f) r f s c s1) (hsp : spaceOf f = .scratch)
  (prompt : Prompt c)
include h hsp prompt

/-- A load from the scratchpad writes what its accesses find. -/
theorem scratchLoad_runs {ldu : Bool} (runs : exec (ins f) s = guarded (ins f) s (memBody (ins f) .load ldu))
    (range : ∀ u ∈ c.accesses .load ldu f, u.acc.addr.toNat + nBytes f ≤ c.la.hdr.scratch) :
    exec (ins f) s = .next (countIssue c (issueClass r f) (c.finish f 0 (c.valueWrites f ldu (loadedBy c ldu f)) (fun _ => 0) s1)) := by
  refine runs.trans (guarded_done h ((memBody_scratch (.inl rfl) hsp range prompt).trans ?_))
  rw [MemKind.logOp, performAll_load (ctx?_skein h.ctx)]
  rfl

/-- A store to the scratchpad changes it alone, and ends. -/
theorem scratchStore_runs (runs : exec (ins f) s = guarded (ins f) s (memBody (ins f) .store false))
    (range : ∀ u ∈ c.accesses .store false f, u.acc.addr.toNat + nBytes f ≤ c.la.hdr.scratch) :
    ∃ t, exec (ins f) s = .next (countIssue c (issueClass r f) (c.finish0 f t)) ∧
      Scratched c (putAccs (fun u : ThreadAcc => u.acc.addr.toNat) (nBytes f) (fun u => u.acc.data) (c.accesses .store false f) c.sk.scratch) s1 t :=
  ⟨_, runs.trans (guarded_done h (memBody_scratch (.inr rfl) hsp range prompt)), performAll_store (.refl h.ctx) ..⟩

end

/-! ### Loads -/

/-- The accesses of a path's load, by thread. -/
theorem accesses_ld {c : Ctx} (hd : c.dist = false) (f : Fields) : loadedBy c false f =
    c.active.map fun th => (th, sread c.sk.scratch (addr true f c th).toNat (nBytes f)) := by
  simp [loadedBy, Ctx.accesses, hd, addr, Function.comp_def]

/-- The accesses of a path's LDU, by touched strand. -/
theorem accesses_ldu {c : Ctx} (hd : c.dist = false) {f : Fields} (hsp : spaceOf f = .scratch) : loadedBy c true f =
    (c.strands.filter c.touched).map fun st => ((activeIn c.ply.exm st).headD (8 * st), sread c.sk.scratch (addr true f c (8 * st)).toNat (nBytes f)) := by
  simp [loadedBy, Ctx.accesses, hd, addr, hsp, Function.comp_def]

theorem accesses_dist {c : Ctx} (hd : c.dist = true) (ldu : Bool) (f : Fields) : loadedBy c ldu f =
    [(0, sread c.sk.scratch (addr true f c 0).toNat (nBytes f))] := by
  simp [loadedBy, Ctx.accesses, hd, addr]

/-- The active threads of a path in one of its strands. -/
theorem active_filter {c : Ctx} (hn : c.strands.Nodup) {st : Nat} (h : st ∈ c.strands) :
    (c.active.filter fun th => th / 8 == st) = activeIn c.ply.exm st := by
  have own : ∀ sj, (activeIn c.ply.exm sj).filter (fun th => th / 8 == st) = if sj = st then activeIn c.ply.exm sj else [] := fun sj => by
    split
    · next e => exact List.filter_eq_self.mpr fun th hth => by rw [beq_iff_eq, ← e]; exact (mem_activeIn.mp hth).1
    · next e => exact List.filter_eq_nil_iff.mpr fun th hth => by rw [beq_iff_eq, (mem_activeIn.mp hth).1]; exact e
  have from_ : ∀ l : List Nat, l.Nodup → (l.flatMap (activeIn c.ply.exm)).filter (fun th => th / 8 == st) =
      if st ∈ l then activeIn c.ply.exm st else [] := by
    intro l hl
    induction l with
    | nil => rfl
    | cons sj l ih =>
      obtain ⟨hsj, hl⟩ := List.nodup_cons.mp hl
      rw [List.flatMap_cons, List.filter_append, own, ih hl]
      by_cases e : sj = st
      · subst e
        simp [hsj]
      · simp [e, Ne.symm e]
  rw [Ctx.active, from_ _ hn, if_pos h]

/-- Values by active thread are written by lane. -/
theorem valueWrites_active {c : Ctx} (hd : c.dist = false) (hn : c.strands.Nodup) (f : Fields) (v : Nat → Word) {st : Nat} (h : st ∈ c.strands) :
    c.valueWrites f false (c.active.map fun th => (th, v th)) st =
      laneWrites c (f.ty.bits == 64) f.d.toNat (fun th => fillS f.ty (v th)) st := by
  unfold Ctx.valueWrites laneWrites
  rw [List.filter_map, List.flatMap_map, ← active_filter hn h]
  simp [hd, Function.comp_def]

theorem touched_head {c : Ctx} {st : Nat} (h : c.touched st = true) (d : Nat) : (activeIn c.ply.exm st).headD d / 8 = st := by
  cases hl : activeIn c.ply.exm st with
  | nil => simp [Ctx.touched, hl] at h
  | cons th l => exact (mem_activeIn.mp (hl ▸ List.mem_cons_self ..)).1

/-- Values by touched strand are written to that strand's copy. -/
theorem valueWrites_touched {c : Ctx} (hn : c.strands.Nodup) (f : Fields) (v : Nat → Word) {st : Nat} (h : st ∈ c.strands) :
    c.valueWrites f true ((c.strands.filter c.touched).map fun st => ((activeIn c.ply.exm st).headD (8 * st), v st)) st =
      if c.touched st then [wrAll f.d.toNat (fillS f.ty (v st))] else [] := by
  have own : ((c.strands.filter c.touched).filter fun sj => (activeIn c.ply.exm sj).headD (8 * sj) / 8 == st) =
      (c.strands.filter c.touched).filter fun sj => sj == st :=
    List.filter_congr fun sj hsj => by rw [touched_head (List.mem_filter.mp hsj).2]
  have one : ((c.strands.filter c.touched).filter fun sj => sj == st) = if c.touched st then [st] else [] := by
    rw [List.filter_beq]
    split
    · next ht => rw [List.count_eq_one_of_mem (hn.filter _) (List.mem_filter.mpr ⟨h, ht⟩)]; rfl
    · next ht => rw [List.count_eq_zero_of_not_mem fun hm => ht (List.mem_filter.mp hm).2]; rfl
  unfold Ctx.valueWrites
  rw [List.filter_map, List.flatMap_map]
  have e : (fun v : Nat × Word => v.1 / 8 == st) ∘ (fun st => ((activeIn c.ply.exm st).headD (8 * st), v st)) =
      fun sj => (activeIn c.ply.exm sj).headD (8 * sj) / 8 == st := rfl
  rw [e, own, one]
  cases c.touched st <;> simp

/-- In ply code only the writes of the path's strands count. -/
theorem finish_congr {c : Ctx} (hd : c.dist = false) {ws ws' : Nat → List RegWrite} (h : ∀ st ∈ c.strands, ws st = ws' st) (f : Fields) (op : Nat)
    (fl : Nat → FFlags) (s : State) : c.finish f op ws fl s = c.finish f op ws' fl s := by
  have same : c.writes f op ws fl s = c.writes f op ws' fl s := by
    unfold Ctx.writes
    simp only [hd, Bool.false_eq_true, if_false]
    congr 1
    funext p
    exact List.foldl_ext _ _ _ fun p st hst => by rw [h st hst]
  rw [Ctx.finish, same]
  rfl

/-- In distaff code there is one list of writes. -/
theorem finish_dist_eq {c : Ctx} (hd : c.dist = true) (f : Fields) (op : Nat) (ws : Nat → List RegWrite) (fl : Nat → FFlags) (s : State) :
    c.finish f op ws fl s = c.finish f op (fun _ => ws 0) fl s := by
  simp [Ctx.finish, Ctx.writes, hd]

/-- The writes of a scalar result by touched strand. -/
def touchedWrites (c : Ctx) (d : Nat) (x : Nat → Word) (st : Nat) : List RegWrite := if c.touched st then [wrAll d (x st)] else []

theorem writesS_touched (c : Ctx) (d : Nat) (x : Nat → Word) (st : Nat) (m : Sparse 64) :
    writesS st (touchedWrites c d x st) m = if c.touched st then sset m (16 * d + st) (x st) else m := by
  unfold touchedWrites
  split
  · exact writesS_wrAll ..
  · rfl

theorem writesV_touched (c : Ctx) (d : Nat) (x : Nat → Word) (l : List Nat) (v : Sparse 32) : writesV (l.flatMap (touchedWrites c d x)) v = v := by
  induction l with
  | nil => rfl
  | cons st l ih =>
    have none : writesV (touchedWrites c d x st) v = v := by unfold touchedWrites; split <;> rfl
    rw [List.flatMap_cons, writesV_append, none, ih]

/-- A scalar result by touched strand: those copies read as written, every other register as before. -/
theorem finish_touched {s : State} {c : Ctx} (f : Fields) (d : Nat) (x : Nat → Word) (h : s.ctx? s.cur = some c) (hd : c.dist = false)
    (hdef : c.ply.curDefs = []) (hla : c.lookahead f = 0) :
    let t := c.finish f 0 (touchedWrites c d x) (fun _ => 0) s
    (∀ st ∈ c.strands, c.touched st = true → c.sIn t d st = x st) ∧
    (∀ q st, st < 16 → (q ≠ d ∨ st ∉ c.strands ∨ c.touched st = false) → c.sIn t q st = c.sIn s q st) ∧ SameV c s t := by
  have low := ctx_strands_lt h
  have sIn : ∀ q st, c.sIn (c.finish f 0 (touchedWrites c d x) (fun _ => 0) s) q st = (c.ply.putAll c.strands (touchedWrites c d x) fun _ => 0).rdS q st :=
    fun q st => by simp [Ctx.sIn, hd, finish_ply? f _ _ h hd hdef hla, Ply.rdS]
  have copies := fun q st => Ply.putAll_rdS c.strands (touchedWrites c d x) (fun _ => 0) c.ply q st low (ctx_strands_nodup h)
  refine ⟨fun st hst ht => ?_, fun q st hq hn => ?_, fun q th => ?_⟩
  · rw [sIn]
    obtain e | ⟨m, -, e⟩ := copies d st hst <;> rw [e, writesS_touched, if_pos ht, sget_sset_same]
  · have old : c.sIn s q st = c.ply.rdS q st := by simp [Ctx.sIn, hd, ctx?_ply? h hd]
    rw [sIn, old]
    by_cases hst : st ∈ c.strands
    · have other : ∀ m, sget (writesS st (touchedWrites c d x st) m) (16 * q + st) = sget m (16 * q + st) := fun m => by
        rw [writesS_touched]
        split
        · next ht => rw [sget_sset_other _ _ _ _ (by have : q ≠ d := by simpa [hst, ht] using hn
                                                     omega)]
        · rfl
      obtain e | ⟨m, hm, e⟩ := copies q st hst
      · rw [e, other]; rfl
      · rw [e, other, hm]; rfl
    · exact Ply.putAll_rdS_other _ _ _ _ _ _ low hq hst
  · rw [finish_vIn f _ _ h hd hdef hla, writesV_touched]
    simp [Ctx.vIn, ctx?_ply? h hd, Ply.rdV]

/-- What an instruction's end and its count leave outside the party. -/
theorem registerFrame_end {i : Instr} {r : OpRow} {f : Fields} {s s1 : State} {c : Ctx} (h : Issues i r f s c s1) (f' : Fields) (op cls : Nat)
    (ws : Nat → List RegWrite) (fl : Nat → FFlags) : RegisterFrame c s (countIssue c cls (c.finish f' op ws fl s1)) :=
  registerFrame_trans h.registerFrame (registerFrame_trans (registerFrame_finish ..) (registerFrame_countIssue ..))

theorem registerFrame_memory {c : Ctx} {s t : State} (h : RegisterFrame c s t) : SameMemory s t := h.2.1

/-- The scratchpad that the accesses find is the one before the reading of operands. -/
theorem Issues.scratchIn {i : Instr} {r : OpRow} {f : Fields} {s s1 : State} {c : Ctx} (h : Issues i r f s c s1) :
    Claims.scratchIn c s = fun b => sget c.sk.scratch b := by
  rw [← ctx?_scratchIn h.ctx]
  funext b
  exact (registerFrame_scratch h.registerFrame b).symm

/-- A value that a load finds, as the spec says it. -/
theorem Issues.loaded {i : Instr} {r : OpRow} {f : Fields} {s s1 : State} {c : Ctx} (h : Issues i r f s c s1) (th : Nat) :
    fillS f.ty (sread c.sk.scratch (addr true f c th).toNat (nBytes f)) =
      filled f.ty (valueAt (Claims.scratchIn c s) (scratchCells true f c th)) := by
  rw [fillS_sread, h.scratchIn, scratchCells]

section
variable {r : OpRow} {f : Fields} {s s1 : State} {c : Ctx} (hsp : spaceOf f = .scratch) (prompt : Prompt c) (hla : c.lookahead f = 0)
include hsp prompt hla

/-- LD in ply code, by thread (R90, R194). -/
theorem ld_scratch (h : Issues (.ld f) r f s c s1) (hdef : c.ply.curDefs = []) (hd : c.dist = false)
    (range : ∀ th ∈ c.active, (addr true f c th).toNat + nBytes f ≤ c.la.hdr.scratch) :
    ∃ t, exec (.ld f) s = .next t ∧ c.pcIn t = c.pc + Fields.size f ∧ SameS c s1 t ∧ SameMemory s t ∧ SameScratch c s t ∧
      VectorResult c s1 t (f.ty.bits == 64) f.d.toNat fun th => filled f.ty (valueAt (scratchIn c s) (scratchCells true f c th)) := by
  have runs := scratchLoad_runs (ins := .ld) (ldu := false) h hsp prompt rfl (by simpa [Ctx.accesses, hd, addr] using range)
  rw [accesses_ld hd, finish_congr hd fun st hst => valueWrites_active hd (ctx_strands_nodup h.ctx) f _ hst] at runs
  have frame := registerFrame_end h f 0 (issueClass r f) (laneWrites c (f.ty.bits == 64) f.d.toNat fun th =>
    fillS f.ty (sread c.sk.scratch (addr true f c th).toNat (nBytes f))) fun _ => 0
  simp only [h.loaded] at runs frame
  obtain ⟨lanes, others⟩ := finish_lanes f (f.ty.bits == 64) f.d.toNat
    (fun th => filled f.ty (valueAt (scratchIn c s) (scratchCells true f c th))) (fun _ => 0) h.ctx hd hdef hla
  refine ⟨_, runs, ?_, fun q st => ?_, registerFrame_memory frame, registerFrame_scratch frame, fun th hth => ?_, fun q th ht hn => ?_⟩
  · rw [countIssue_pcIn, finish_pcIn f _ _ h.ctx hd hdef hla]
  · rw [countIssue_sIn, finish_sIn_none f _ _ h.ctx hd hdef hla fun _ _ _ _ => laneWrites_no_s]
    simp [Ctx.sIn, hd, ctx?_ply? h.ctx hd]
  · rw [countIssue_vecIn, lanes th hth]
  · rw [countIssue_vIn, others q th ht hn]
    simp [Ctx.vIn, ctx?_ply? h.ctx hd]

/-- LDU in ply code, by touched strand (R90, R201). -/
theorem ldu_scratch (h : Issues (.ldu f) r f s c s1) (hdef : c.ply.curDefs = []) (hd : c.dist = false)
    (range : ∀ st ∈ c.strands, c.touched st = true → (addr true f c (8 * st)).toNat + nBytes f ≤ c.la.hdr.scratch) :
    ∃ t, exec (.ldu f) s = .next t ∧ c.pcIn t = c.pc + Fields.size f ∧ SameV c s1 t ∧ SameMemory s t ∧ SameScratch c s t ∧
      (∀ st ∈ c.strands, c.touched st = true → c.sIn t f.d.toNat st = filled f.ty (valueAt (scratchIn c s) (scratchCells true f c (8 * st)))) ∧
      (∀ q st, st < 16 → (q ≠ f.d.toNat ∨ st ∉ c.strands ∨ c.touched st = false) → c.sIn t q st = c.sIn s1 q st) := by
  have runs := scratchLoad_runs (ins := .ldu) (ldu := true) h hsp prompt rfl fun u hu => by
    simp only [Ctx.accesses, hd, Bool.false_eq_true, if_false, if_true, List.mem_map, List.mem_filter] at hu
    obtain ⟨st, ⟨hst, ht⟩, rfl⟩ := hu
    simpa [addr] using range st hst ht
  rw [accesses_ldu hd hsp, finish_congr (ws' := touchedWrites c f.d.toNat fun st =>
    fillS f.ty (sread c.sk.scratch (addr true f c (8 * st)).toNat (nBytes f))) hd
    fun st hst => valueWrites_touched (ctx_strands_nodup h.ctx) f _ hst] at runs
  have frame := registerFrame_end h f 0 (issueClass r f) (touchedWrites c f.d.toNat fun st =>
    fillS f.ty (sread c.sk.scratch (addr true f c (8 * st)).toNat (nBytes f))) fun _ => 0
  simp only [h.loaded] at runs frame
  obtain ⟨copies, others, sameV⟩ := finish_touched f f.d.toNat
    (fun st => filled f.ty (valueAt (scratchIn c s) (scratchCells true f c (8 * st)))) h.ctx hd hdef hla
  refine ⟨_, runs, ?_, fun q th => ?_, registerFrame_memory frame, registerFrame_scratch frame, fun st hst ht => ?_, fun q st hq hn => ?_⟩
  · rw [countIssue_pcIn, finish_pcIn f _ _ h.ctx hd hdef hla]
  · rw [countIssue_vIn, sameV]
  · rw [countIssue_sIn, copies st hst ht]
  · rw [countIssue_sIn, others q st hq hn]

/-- LD and LDU of the distaff (R90, R203). -/
theorem distLoad_scratch {ins : Fields → Instr} {ldu : Bool} (h : Issues (ins f) r f s c s1) (hs : Settled c) (hd : c.dist = true)
    (runs : exec (ins f) s = guarded (ins f) s (memBody (ins f) .load ldu)) (range : (addr true f c 0).toNat + nBytes f ≤ c.la.hdr.scratch) :
    ∃ t, exec (ins f) s = .next t ∧ c.pcIn t = c.pc + Fields.size f ∧ SameMemory s t ∧ SameScratch c s t ∧
      c.sIn t f.d.toNat 0 = filled f.ty (valueAt (scratchIn c s) (scratchCells true f c 0)) ∧ (∀ q, q ≠ f.d.toNat → c.sIn t q 0 = c.sIn s1 q 0) := by
  have runs := scratchLoad_runs h hsp prompt runs (by simpa [Ctx.accesses, hd, addr] using range)
  have one : ∀ v : Word, c.valueWrites f ldu [(0, v)] 0 = [wrAll f.d.toNat (fillS f.ty v)] := fun v => by simp [Ctx.valueWrites, hd]
  rw [accesses_dist hd, finish_dist_eq hd, one, h.loaded] at runs
  have frame := registerFrame_end h f 0 (issueClass r f) (fun _ => [wrAll f.d.toNat (filled f.ty (valueAt (scratchIn c s) (scratchCells true f c 0)))])
    fun _ => 0
  obtain ⟨copies, others, -⟩ := countIssue_allCopies (cls := issueClass r f)
    (finishD_allCopies f (filled f.ty (valueAt (scratchIn c s) (scratchCells true f c 0))) h.ctx hs hla)
  obtain ⟨-, -, strands⟩ := ctx?_dist h.ctx hd
  refine ⟨_, runs, ?_, registerFrame_memory frame, registerFrame_scratch frame, copies 0 (by simp [strands]), fun q hq => others q 0 (by decide) (.inl hq)⟩
  rw [countIssue_pcIn]
  exact finishD_pcIn f _ h.ctx hs hla

end

theorem scratchLoads : ScratchLoads := by
  intro r f s s1 c hsp hdef hdist hla prompt
  refine ⟨fun h hd range => ld_scratch hsp prompt hla h hdef hd range, fun h hd range => ldu_scratch hsp prompt hla h hdef hd range,
    fun ins hins h hd range => ?_⟩
  simp only [List.mem_cons, List.not_mem_nil, or_false] at hins
  obtain rfl | rfl := hins
  · exact distLoad_scratch (ldu := false) hsp prompt hla h ⟨hdef, hdist⟩ hd rfl range
  · exact distLoad_scratch (ldu := true) hsp prompt hla h ⟨hdef, hdist⟩ hd rfl range

/-! ### Stores -/

/-- Without register writes lookahead defers nothing. -/
theorem finish0_now (c : Ctx) (f : Fields) (s : State) : c.finish0 f s = c.finish0 { f with la := 0 } s := by
  have plies : ∀ la st p, Ply.write p st la 0 [] 0 = Ply.write p st 0 0 [] 0 := fun _ _ _ => rfl
  have dists : ∀ la d, Dist.write d la 0 [] = Dist.write d 0 0 [] := fun _ _ => rfl
  simp only [Ctx.finish0, Ctx.finish, Ctx.writes, plies _ _ _, dists _ _, lookahead_now]
  rw [show Fields.size { f with la := 0 } = Fields.size f from rfl]

/-- An instruction that writes no register leaves every register, whatever its lookahead. -/
theorem finish0_keeps {s : State} {c : Ctx} (f : Fields) (h : s.ctx? s.cur = some c) (hs : Settled c) :
    SameV c s (c.finish0 f s) ∧ SameS c s (c.finish0 f s) := by
  rw [finish0_now]
  exact finish0_same _ h (lookahead_now c f) hs

theorem finish0_pcIn {s : State} {c : Ctx} (f : Fields) (h : s.ctx? s.cur = some c) (hs : Settled c) :
    c.pcIn (c.finish0 f s) = c.pc + Fields.size f := by
  rw [finish0_now]
  cases hd : c.dist
  · exact finish_pcIn _ _ _ h hd hs.1 (lookahead_now c f)
  · simp only [Ctx.pcIn, hd, if_true, Ctx.finish0, finish_distIn _ _ _ h hd hs.2 (lookahead_now c f)]
    rfl

section
variable {c : Ctx} {m : Sparse 8} {s t : State} (h : Scratched c m s t)
include h

/-- A store changes no register. -/
theorem Scratched.registers (hs : s.ctx? s.cur = some c) : SameV c s t ∧ SameS c s t := by
  have after : t.skein? c.sp c.slot = some { c.sk with scratch := m } := ctx?_skein h.ctx
  have before := ctx?_skein hs
  have plies : c.ply? t = c.ply? s := by
    rw [Ctx.ply?, Ctx.ply?, after, before]
    rfl
  have dist : c.distIn t = c.distIn s := by
    rw [Ctx.distIn, Ctx.distIn, after, before]
    rfl
  exact ⟨fun q th => by rw [Ctx.vIn, Ctx.vIn, plies], fun q st => by rw [Ctx.sIn, Ctx.sIn, plies, dist]⟩

/-- What a store leaves when it ends. -/
theorem Scratched.finished (hs : s.ctx? s.cur = some c) (f : Fields) (cls : Nat) (settled : Settled c) :
    let u := countIssue c cls (c.finish0 f t)
    c.pcIn u = c.pc + Fields.size f ∧ SameV c s u ∧ SameS c s u ∧ SameMemory s u ∧ scratchIn c u = fun b => sget m b := by
  obtain ⟨sameV, sameS⟩ := h.registers hs
  obtain ⟨keepV, keepS⟩ := finish0_keeps (c := { c with sk := { c.sk with scratch := m } }) f h.ctx settled
  have frame : RegisterFrame c t (countIssue c cls (c.finish0 f t)) := registerFrame_trans (registerFrame_finish ..) (registerFrame_countIssue ..)
  refine ⟨(countIssue_pcIn ..).trans (finish0_pcIn (c := { c with sk := { c.sk with scratch := m } }) f h.ctx settled), fun q th => ?_, fun q st => ?_, fun a => ?_, ?_⟩
  · rw [countIssue_vIn, ← sameV]
    exact keepV q th
  · rw [countIssue_sIn, ← sameS]
    exact keepS q st
  · rw [registerFrame_memory frame, h.mem]
  · exact (funext (registerFrame_scratch frame)).trans (ctx?_scratchIn h.ctx)

end

section
variable {r : OpRow} {f : Fields} {s s1 : State} {c : Ctx} (h : Issues (.st f) r f s c s1) (hsp : spaceOf f = .scratch) (prompt : Prompt c)
  (hs : Settled c)
include h hsp prompt hs

/-- ST leaves its accesses' bytes in the scratchpad, one access after another, and nothing else. -/
theorem st_scratch (range : ∀ u ∈ c.accesses .store false f, u.acc.addr.toNat + nBytes f ≤ c.la.hdr.scratch) :
    ∃ t, exec (.st f) s = .next t ∧ c.pcIn t = c.pc + Fields.size f ∧ SameV c s1 t ∧ SameS c s1 t ∧ SameMemory s t ∧
      scratchIn c t = fun b => sget
        (putAccs (fun u : ThreadAcc => u.acc.addr.toNat) (nBytes f) (fun u => u.acc.data) (c.accesses .store false f) c.sk.scratch) b := by
  obtain ⟨t, runs, stored⟩ := scratchStore_runs h hsp prompt rfl range
  obtain ⟨pc, sameV, sameS, mem, scratch⟩ := stored.finished h.ctx f (issueClass r f) hs
  exact ⟨_, runs, pc, sameV, sameS, fun a => (mem a).trans (registerFrame_memory h.registerFrame a), scratch⟩

end

/-- The stores of a path's threads. -/
theorem putAccs_st {c : Ctx} (hd : c.dist = false) (f : Fields) (m : Sparse 8) :
    putAccs (fun u : ThreadAcc => u.acc.addr.toNat) (nBytes f) (fun u => u.acc.data) (c.accesses .store false f) m =
      putAccs (fun th => (addr true f c th).toNat) (nBytes f) (vecOf f c f.d) c.active m := by
  have data : ∀ st th, c.dataOf f f.d st th = vecOf f c f.d th := fun st th => by simp [Ctx.dataOf, hd, Ctx.rdVec, vecOf]
  simp only [putAccs, Ctx.accesses, hd, data, Bool.false_eq_true, if_false, List.foldl_map]
  rfl

/-- The store of a distaff. -/
theorem putAccs_dist {c : Ctx} (hd : c.dist = true) (f : Fields) (m : Sparse 8) :
    putAccs (fun u : ThreadAcc => u.acc.addr.toNat) (nBytes f) (fun u => u.acc.data) (c.accesses .store false f) m =
      putAccs (fun th => (addr true f c th).toNat) (nBytes f) (fun _ => c.rdScal 0 f.d.toNat) [0] m := by
  simp only [putAccs, Ctx.accesses, hd, Ctx.dataOf, if_true]
  rfl

theorem scratchStores : ScratchStores := by
  intro r f s s1 c h hsp hdef hdist prompt
  refine ⟨fun hd range => ?_, fun hd range => ?_⟩
  · obtain ⟨t, runs, pc, sameV, sameS, mem, scratch⟩ := st_scratch h hsp prompt ⟨hdef, hdist⟩ (by simpa [Ctx.accesses, hd, addr] using range)
    rw [putAccs_st hd] at scratch
    refine ⟨t, runs, pc, sameV, sameS, mem, fun th hth x hx last => ?_, fun b hb => ?_⟩
    · rw [scratch]
      exact putAccs_highest (active_ascending h.ctx) hth hx last _
    · rw [scratch, h.scratchIn]
      exact putAccs_other hb _
  · obtain ⟨t, runs, pc, -, sameS, mem, scratch⟩ := st_scratch h hsp prompt ⟨hdef, hdist⟩ (by simpa [Ctx.accesses, hd, addr] using range)
    rw [putAccs_dist hd] at scratch
    refine ⟨t, runs, pc, mem, fun q => sameS q 0, fun x hx => ?_, fun b hb => ?_⟩
    · rw [scratch]
      exact putAccs_last (at_ := fun th => (addr true f c th).toNat) (l₁ := []) (u := 0) (l₂ := []) hx (by simp) _
    · rw [scratch, h.scratchIn]
      exact putAccs_other (by simpa [scratchCells] using hb) _

/-- Settles O18: the model's accesses are the spec's cells, and each of them is in the scratchpad alone. -/
theorem scratchMoves : Obligations.ScratchMoves := ⟨scratchLoads, scratchStores⟩

end Sys2Proof.Machine
end

section
/-! PROOFS. Floating-point instructions: rounded results and flags (R97, R140, R141, R163 to R170). -/

namespace Sys2Proof.Machine

open Host (Outcome)
open Sys2Proof.Claims

/-! ### The results of the lane-wise shape in scalar registers -/

section
variable {s : State} {c : Ctx} {f : Fields} {x : Nat → Word} {fl : Nat → FFlags}

/-- A scalar result of each strand of a path: in the strand's own copy, and nowhere else. -/
theorem finish_scalars_path (h : s.ctx? s.cur = some c) (hd : c.dist = false) (hdef : c.ply.curDefs = []) (hla : c.lookahead f = 0) (d : Nat) :
    let t := c.finish f 0 (fun st => [wrAll d (x st)]) fl s
    (∀ st ∈ c.strands, c.sIn t d st = x st) ∧ (∀ q st, st < 16 → (q ≠ d ∨ st ∉ c.strands) → c.sIn t q st = c.sIn s q st) ∧
      ∀ q th, c.vIn t q th = c.vIn s q th := by
  have hs := ctx_strands_lt h
  have before := ctx?_ply? h hd
  have sIn : ∀ q st, c.sIn (c.finish f 0 (fun st => [wrAll d (x st)]) fl s) q st =
      (c.ply.putAll c.strands (fun st => [wrAll d (x st)]) fl).rdS q st := fun q st => by
    simp [Ctx.sIn, hd, finish_ply? f _ _ h hd hdef hla, Ply.rdS]
  have written : ∀ q, ∀ st ∈ c.strands, ∃ m : Sparse 64, (∀ r, sget m (16 * r + st) = c.ply.rdS r st) ∧
      c.sIn (c.finish f 0 (fun st => [wrAll d (x st)]) fl s) q st = sget (sset m (16 * d + st) (x st)) (16 * q + st) := fun q st hst => by
    rw [sIn]
    obtain e | ⟨m, hm, e⟩ := Ply.putAll_rdS c.strands (fun st => [wrAll d (x st)]) fl c.ply q st hs (ctx_strands_nodup h) hst
    · exact ⟨c.ply.s, fun _ => rfl, by rw [e, writesS_wrAll]⟩
    · exact ⟨m, hm, by rw [e, writesS_wrAll]⟩
  refine ⟨fun st hst => ?_, fun q st hst hq => ?_, fun q th => ?_⟩
  · obtain ⟨m, -, e⟩ := written d st hst
    rw [e, sget_sset_same]
  · have old : c.sIn s q st = c.ply.rdS q st := by simp [Ctx.sIn, hd, before]
    rw [old]
    by_cases mine : st ∈ c.strands
    · obtain ⟨m, hm, e⟩ := written q st mine
      have other : q ≠ d := hq.resolve_right (absurd mine)
      rw [e, sget_sset_other _ _ _ _ (by omega), hm]
    · rw [sIn]
      exact Ply.putAll_rdS_other _ _ _ _ _ _ hs hst mine
  · have none : ∀ (l : List Nat) (v : Sparse 32), writesV (l.flatMap fun st => [wrAll d (x st)]) v = v := fun l v => by
      induction l with
      | nil => rfl
      | cons st l ih => simpa [wrAll, writesV, stepV] using ih
    rw [finish_vIn f _ _ h hd hdef hla, none]
    simp [Ctx.vIn, before, Ply.rdV]

/-- The scalar result of a distaff: in its D register, and nowhere else. -/
theorem finish_scalars_dist (h : s.ctx? s.cur = some c) (hd : c.dist = true) (hdef : c.sk.dist.curDefs = []) (hla : c.lookahead f = 0) (d : Nat) :
    let t := c.finish f 0 (fun st => [wrAll d (x st)]) fl s
    (∀ st, c.sIn t d st = x 0) ∧ (∀ q st, q ≠ d → c.sIn t q st = c.sIn s q st) ∧ (∀ q th, c.vIn t q th = c.vIn s q th) ∧
      c.pcIn t = c.pc + Fields.size f := by
  have after := finish_distIn f (fun st => [wrAll d (x st)]) fl h hd hdef hla
  have sIn : ∀ q st, c.sIn (c.finish f 0 (fun st => [wrAll d (x st)]) fl s) q st = (c.sk.dist.wrD d (x 0)).rdD q := fun q st => by
    simp only [Ctx.sIn, hd, if_true, after, Dist.putRegs_wrAll]
    unfold Dist.bumpPos Dist.rdD
    split <;> rfl
  refine ⟨fun st => ?_, fun q st hq => ?_, fun q th => ?_, ?_⟩
  · rw [sIn]
    exact sget_sset_same ..
  · rw [sIn]
    simp only [Ctx.sIn, hd, if_true, ctx?_distIn h]
    exact sget_sset_other _ _ _ _ hq
  · simp [Ctx.vIn, finish_dist_ply? f _ fl h hd]
  · simp [Ctx.pcIn, hd, after]

end

/-! ### Flags -/

theorem flags_or_zero (a : FFlags) : a ||| 0 = a := BitVec.or_zero

/-- The flags of each strand's active threads, strand after strand, are those of the path's active threads. -/
theorem foldl_flags_active (exm : BitVec 128) (g : Nat → FFlags) (l : List Nat) (a : FFlags) :
    l.foldl (fun a st => a ||| (activeIn exm st).foldl (fun fl t => fl ||| g t) 0) a = (l.flatMap (activeIn exm)).foldl (fun a t => a ||| g t) a := by
  have one : ∀ (m : List Nat) (a b : FFlags), a ||| m.foldl (fun fl t => fl ||| g t) b = m.foldl (fun fl t => fl ||| g t) (a ||| b) := by
    intro m
    induction m with
    | nil => intros; rfl
    | cons t m ih => intro a b; simp only [List.foldl_cons, ih, BitVec.or_assoc]
  induction l generalizing a with
  | nil => rfl
  | cons st l ih => rw [List.foldl_cons, ih, one, flags_or_zero, List.flatMap_cons, List.foldl_append]

/-- Strands without an active thread contribute no flags (R141). -/
theorem foldl_flags_touched (c : Ctx) (g : Nat → FFlags) (l : List Nat) (a : FFlags) :
    l.foldl (fun a st => a ||| if c.touched st then g st else 0) a = (l.filter c.touched).foldl (fun a st => a ||| g st) a := by
  induction l generalizing a with
  | nil => rfl
  | cons st l ih =>
    cases ht : c.touched st
    · simp only [List.foldl_cons, List.filter_cons, ht, Bool.false_eq_true, if_false, flags_or_zero]
      exact ih a
    · simp only [List.foldl_cons, List.filter_cons, ht, if_true]
      exact ih _

/-! ### Lane-wise instructions with a result of the word's type -/

/-- An instruction of the lane-wise shape: its destination is as wide as its word's type, and its result is the one that `g` computes. -/
structure LaneForm (ins : Fields → Instr) (g : Fields → Ctx → Word → Word → Word → Word × FFlags) (span : Span) : Prop where
  wide : ∀ f, (ins f).fieldsOk = true → spanWide span f = (f.ty.bits == 64)
  dest : ∀ (c : Ctx) f r, (ins f).row = some r → (c.classes (ins f) r f).1 = if f.u || c.dist then .scalDst else .vecDst span
  runs : ∀ f s, exec (ins f) s = guarded (ins f) s (laneWise (ins f) (fun f => f.ty) g)

/-- The result and the flags of a thread, from its operands (R88, R150). -/
def laneResult (i : Instr) (g : Fields → Ctx → Word → Word → Word → Word × FFlags) (r : OpRow) (f : Fields) (c : Ctx) (st t : Nat) :
    Word × FFlags :=
  g f c (operands i r f c st t).1 (operands i r f c st t).2.1 (operands i r f c st t).2.2

section
variable {ins : Fields → Instr} {g : Fields → Ctx → Word → Word → Word → Word × FFlags} {span : Span} (form : LaneForm ins g span)
  {r : OpRow} {f : Fields} {s s1 : State} {c : Ctx} (h : Issues (ins f) r f s c s1)
include form h

/-- The ordinary form: the result in the destination of every active thread, the flags of every active thread, and nothing else. -/
theorem LaneForm.vector (hd : c.dist = false) (hu : f.u = false) (hdef : c.ply.curDefs = []) (hla : c.lookahead f = 0) :
    ∃ t, exec (ins f) s = .next t ∧ c.pcIn t = c.pc + Fields.size f ∧
      (∀ th ∈ c.active, c.vecIn t (f.ty.bits == 64) f.d.toNat th = if f.ty.bits == 64 then (laneResult (ins f) g r f c (th / 8) th).1
        else ((laneResult (ins f) g r f c (th / 8) th).1.setWidth 32).setWidth 64) ∧
      (∀ q th, th < 128 → (th ∉ c.active ∨ (q ≠ f.d.toNat ∧ ¬(f.ty.bits = 64 ∧ q = f.d.toNat + 1))) → c.vIn t q th = c.ply.rdV q th) ∧
      (∀ q st, c.sIn t q st = c.ply.rdS q st) ∧ c.exmIn t = c.ply.exm ∧
      c.flagsIn t = orFlags c fun th => (laneResult (ins f) g r f c (th / 8) th).2 := by
  have dest : (c.classes (ins f) r f).1 = .vecDst span := (form.dest c f r h.row).trans (by simp [hd, hu])
  have done := guarded_done h (laneWise_vector (s := s1) (ty := fun f => f.ty) (g := g) h.row hu hd dest)
  rw [form.wide f h.ok] at done
  let x := fun th => (laneResult (ins f) g r f c (th / 8) th).1
  let fl := fun st => (activeIn c.ply.exm st).foldl (fun fl t => fl ||| (laneResult (ins f) g r f c st t).2) 0
  obtain ⟨lanes, others⟩ := finish_lanes f (f.ty.bits == 64) f.d.toNat x fl h.ctx hd hdef hla
  refine ⟨_, (form.runs f s).trans done, ?_, fun th hth => ?_, fun q th hth hq => ?_, fun q st => ?_, ?_, ?_⟩
  · rw [countIssue_pcIn]
    exact finish_pcIn f _ fl h.ctx hd hdef hla
  · rw [countIssue_vecIn]
    exact lanes th hth
  · rw [countIssue_vIn]
    exact others q th hth (by simpa using hq)
  · rw [countIssue_sIn]
    exact finish_sIn_none f _ fl h.ctx hd hdef hla (fun _ _ _ _ => laneWrites_no_s) q st
  · rw [countIssue_exmIn]
    exact finish_exmIn f _ fl h.ctx hd hdef hla
  · rw [countIssue_flagsIn]
    have noFlags : ∀ st v, RegWrite.flags v ∉ laneWrites c (f.ty.bits == 64) f.d.toNat x st := fun st v hv => by
      obtain ⟨t, -, hv⟩ := List.mem_flatMap.mp hv
      unfold vecWrites at hv
      split at hv <;> simp at hv
    have strand : ∀ st, fl st = (activeIn c.ply.exm st).foldl (fun fl t => fl ||| (laneResult (ins f) g r f c (t / 8) t).2) 0 := fun st =>
      List.foldl_ext _ _ _ fun _ t ht => by rw [(mem_activeIn.mp ht).1]
    calc _ = c.strands.foldl (fun a st => a ||| fl st) c.ply.flags := finish_flagsIn f _ fl h.ctx hd hdef hla noFlags
      _ = _ := by simp only [strand]; exact foldl_flags_active ..

/-- The uniform form and distaff code: each strand's copy, or the D register, holds the filled result, and a path ORs in the flags of its strands. -/
theorem LaneForm.scalar (hs : f.u = true ∨ c.dist = true) (hdef : c.ply.curDefs = []) (hdist : c.sk.dist.curDefs = [])
    (hla : c.lookahead f = 0) :
    ∃ t, exec (ins f) s = .next t ∧ c.pcIn t = c.pc + Fields.size f ∧
      (∀ st ∈ c.strands, c.sIn t f.d.toNat st = fillS f.ty (laneResult (ins f) g r f c st (8 * st)).1) ∧
      (∀ q st, st < 16 → (q ≠ f.d.toNat ∨ (c.dist = false ∧ st ∉ c.strands)) → c.sIn t q st = c.sIn s1 q st) ∧
      (∀ q th, c.vIn t q th = c.vIn s1 q th) ∧
      (c.dist = false → c.flagsIn t =
        (c.strands.filter c.touched).foldl (fun a st => a ||| (laneResult (ins f) g r f c st (8 * st)).2) c.ply.flags) := by
  have uniform : (f.u || c.dist) = true := by simpa using hs
  let x := fun st => fillS f.ty (laneResult (ins f) g r f c st (8 * st)).1
  let fl := fun st => if c.touched st then (laneResult (ins f) g r f c st (8 * st)).2 else 0
  have body : laneWise (ins f) (fun f => f.ty) g f c s1 = .done (c.finish f 0 (fun st => [wrAll f.d.toNat (x st)]) fl s1) := by
    rw [laneWise_eq h.row, if_pos uniform, form.dest c f r h.row, if_pos uniform]
    rfl
  refine ⟨_, (form.runs f s).trans (guarded_done h body), ?_⟩
  simp only [countIssue_pcIn, countIssue_sIn, countIssue_vIn, countIssue_flagsIn]
  cases hd : c.dist with
  | true =>
    obtain ⟨result, others, vectors, pc⟩ := finish_scalars_dist (x := x) (fl := fl) h.ctx hd hdist hla f.d.toNat
    obtain ⟨-, -, strands⟩ := ctx?_dist h.ctx hd
    refine ⟨pc, fun st hst => ?_, fun q st _ hq => others q st (hq.resolve_right (by simp)), vectors, fun no => by cases no⟩
    rw [strands, List.mem_singleton] at hst
    subst hst
    exact result 0
  | false =>
    obtain ⟨result, others, vectors⟩ := finish_scalars_path (x := x) (fl := fl) h.ctx hd hdef hla f.d.toNat
    refine ⟨finish_pcIn f _ fl h.ctx hd hdef hla, result, fun q st hst hq => others q st hst (hq.imp_right And.right), vectors, fun _ => ?_⟩
    calc _ = c.strands.foldl (fun a st => a ||| fl st) c.ply.flags := finish_flagsIn f _ fl h.ctx hd hdef hla (by simp [wrAll])
      _ = _ := foldl_flags_touched ..

end

/-! ### The floating-point instructions -/

/-- A row's destination, in each form (R97), and its width by the types that the row admits. -/
theorem laneForm_of {ins : Fields → Instr} {g : Fields → Ctx → Word → Word → Word → Word × FFlags} {span : Span} (r : OpRow)
    (row : ∀ f, (ins f).row = some r) (fields : ∀ f, (ins f).fields = some f)
    (wide : ∀ f : Fields, f.ty ∈ r.tys → spanWide span f = (f.ty.bits == 64))
    (dest : ∀ (i : Instr) f scalar dist, i = ins f →
      (i.classes r f scalar dist).1 = if dist then .scalDst else if scalar then .scalDst else .vecDst span)
    (runs : ∀ f s, exec (ins f) s = guarded (ins f) s (laneWise (ins f) (fun f => f.ty) g)) : LaneForm ins g span where
  wide f ok := wide f (by
    simp only [Instr.fieldsOk, row, fields, OpRow.fieldsOk, Bool.and_eq_true, List.contains_iff_mem] at ok
    obtain ⟨⟨⟨⟨-, types⟩, -⟩, -⟩, -⟩ := ok
    exact types)
  dest c f r' hr := by
    obtain rfl : r = r' := Option.some.inj ((row f).symm.trans hr)
    rw [Ctx.classes, dest _ _ _ _ rfl]
    cases f.u <;> cases c.dist <;> rfl
  runs := runs

/-- A floating-point type fills no pair of registers (R129, R152). -/
theorem floats_narrow : ∀ ty ∈ Ty.floats, ty.bits ≠ 64 := by decide

/-- A destination of one register. -/
theorem narrow_of_float {r : OpRow} (types : r.tys ⊆ Ty.floats) (f : Fields) (h : f.ty ∈ r.tys) : spanWide .one f = (f.ty.bits == 64) := by
  simpa [spanWide] using floats_narrow _ (types h)

/-- The arithmetic, FSEL, the functions and FRND, whose types are floating-point types alone. -/
theorem oneRegister_form : ∀ op ∈ fpOps.dropLast, LaneForm op.ins op.val .one := by
  simp only [fpOps, List.dropLast, List.forall_mem_cons, List.not_mem_nil, false_implies, implies_true, and_true]
  and_intros
  all_goals
    refine laneForm_of _ (fun _ => rfl) (fun _ => rfl) (narrow_of_float ?_) ?_ fun _ _ => rfl
    · decide
    · rintro _ f scalar dist rfl
      cases dist <;> cases scalar <;> rfl

/-- CVT, which converts to 64-bit integers too (R170). -/
theorem cvt_form : ∀ op ∈ fpOps.drop 15, LaneForm op.ins op.val .byTy := by
  simp only [fpOps, List.drop, List.forall_mem_cons, List.not_mem_nil, false_implies, implies_true, and_true]
  exact laneForm_of _ (fun _ => rfl) (fun _ => rfl) (fun _ _ => rfl) (by rintro _ f scalar dist rfl; cases dist <;> cases scalar <;> rfl)
    fun _ _ => rfl

theorem fpOps_form (op : FpOp) (h : op ∈ fpOps) : ∃ span, LaneForm op.ins op.val span := by
  have parts : fpOps = fpOps.dropLast ++ fpOps.drop 15 := rfl
  rw [parts, List.mem_append] at h
  exact h.elim (fun h => ⟨_, oneRegister_form op h⟩) fun h => ⟨_, cvt_form op h⟩

theorem floatVector : FloatVector := by
  intro op hop r f s s1 c h hd hu hdef hla
  obtain ⟨span, form⟩ := fpOps_form op hop
  exact form.vector h hd hu hdef hla

theorem floatScalar : FloatScalar := by
  intro op hop r f s s1 c h hs hdef hdist hla
  obtain ⟨span, form⟩ := fpOps_form op hop
  exact form.scalar h hs hdef hdist hla

/-- Settles O3: every floating-point instruction is of the lane-wise shape, with the spec's result and flags. -/
theorem floatResults : Obligations.FloatResults := ⟨floatVector, floatScalar⟩

end Sys2Proof.Machine
end

section
/-! PROOFS. A state in which the second phase of XG.p reads a cell that it has written (R282, R300). -/

namespace Sys2Proof.Machine

open Host (Outcome)
open Sys2Proof.Claims

/-! ### A gate step whose resolved input is no line of its array

The clause of `PresetGate` on the second phase bounds the output line of the command in hand, but not its input lines `k.ins`, which the first phase
resolves. Cells are kept under one number of array, line and position, so line 1024 + 896 of array 0 is line 896 of array 1. The phase takes the window's
arrays in order, and where array 1 comes first its output has been written before array 0 reads it. -/

/-- A skein with array 1 as its first and array 0 as its second. -/
def swappedSkein : Skein := { uid := 1, rowMap := startMap, colMap := startMap, arrays := [1, 0] }

/-- NOT on the column axis over both arrays and one position, in its second phase: from line 1920 to scratch line 0, which is line 896. -/
def overrunGate : XqCmd :=
  { id := 1, uid := 1, who := .dist 0 0, strands := 0, issued := 0, kind := .step, form := 1
    f := { tc := 0, la := 0, u := false, ty := .b32, d := 0, a := 1, b := 0, c := 0, m := 0x40, x := none }
    win := 2 <<< 10 ||| 1 <<< 42, started := true, inStep := true, phase := 1, line := 896, ins := [(true, 1920)] }

/-- The skein alone on spindle 0, every cell 0, with the gate at the head of XQ. -/
def overrunState : State :=
  { State.reset with launches := [(0, {})], spindles := [(0, { slots := [some swappedSkein], xq := [overrunGate] })] }

/-- The cell of array 0 on the output line after an event. -/
def cellAfter : Outcome State Fault Refusal → Option Bool
  | .next t => some ((t.spindle 0).cell 0 true 896 0)
  | _ => none

theorem overrunState_stepReady : StepReady overrunState 0 0 overrunGate swappedSkein := by decide +kernel

/-- The input cell, before the phase, is 0. -/
theorem overrunState_input : (overrunState.spindle 0).cell 0 true 1920 0 = false := by decide +kernel

/-- Array 0 reads the 1 that the phase has just left in array 1, and its output cell becomes 0. -/
theorem overrunState_output : cellAfter (exec (.xbarWritePhase 0 false) overrunState) = some false := by decide +kernel

/-- The second phase leaves in array 0 the gate's value of a cell that it has written itself, not of the cell as it was. -/
theorem not_presetGate : ¬ PresetGate := by
  intro h
  obtain ⟨-, second⟩ := h overrunState 0 0 overrunGate swappedSkein rfl (by decide) (by decide)
  obtain ⟨t, run, -, ⟨written, -⟩, -⟩ := second overrunState_stepReady rfl rfl rfl rfl (by decide) (by decide) (by decide) 1920 0 0 rfl
  have ones : (t.spindle 0).cell 0 true 896 0 = !(overrunState.spindle 0).cell 0 true 1920 0 :=
    written 0 0 ⟨1, by decide, by decide, rfl, by decide, by decide⟩
  have zero := overrunState_output
  rw [run, cellAfter, ones, overrunState_input] at zero
  cases zero

/-- Refutes O60: `PresetGate` admits a second phase of XG.p whose input line is beyond its array's 1024. NOT of line 1920 of array 0, where a 0 stands,
leaves 0, because that cell is the one of line 896 of array 1, which the phase has set to 1 before. -/
theorem not_engineResults : ¬ Obligations.EngineResults := by
  rintro ⟨-, -, -, presetGate, -⟩
  exact not_presetGate presetGate

end Sys2Proof.Machine
end
